-- ==== Sys2Proof/Word.lean ====
section
/-! DEFINITION. The machine's word and byte types and the little-endian view of a byte list (R3). -/

namespace Sys2Proof

/-- One byte of a memory, record or frame. -/
abbrev Byte := BitVec 8

/-- Every register is 32 bits wide (R3). -/
abbrev Word := BitVec 32

end Sys2Proof
end

