-- ==== Sys2Proof/Syntax.lean ====
section
/-! DEFINITION. The commands of the block: one constructor of `Instr` per row of the table of
operations and events, with the operands the row's rule names, and the records that the packets,
frames and cell instructions carry. -/

namespace Sys2Proof

/-- One descriptor: domain, ring (64 is the KX ring of R286, 65 the pool requests of queue pairs of R263,
two to a pair) and free-running index (R268). -/
structure OpRef where
  dom  : Fin 4
  ring : Fin 66
  idx  : Word
deriving DecidableEq, Repr

/-- Chip coordinates as every field of the manual packs them: X [5:0], Y [11:6], Z [17:12]. -/
abbrev Coord := BitVec 18

/-- The Ghedin header of Table 12.1 (R208), field by field. -/
structure Hdr where
  ver   : BitVec 4
  cls   : BitVec 4
  vc    : BitVec 5
  epoch : BitVec 1
  mcast : BitVec 2
  dst   : Coord
  src   : Coord
  inc   : BitVec 8
  flags : BitVec 4
  op    : BitVec 8
  len   : BitVec 13
  seq   : BitVec 24
  esc   : BitVec 16
  hd    : BitVec 2
  rsv   : BitVec 1
  addr  : BitVec 64
  gen   : BitVec 16
  optag : BitVec 16
  cnt   : BitVec 32
deriving DecidableEq, Repr

/-- An exact sum (R52, R53): an integer in units of 2^-149 and the flags of Table 3.1's XPW. -/
structure XSum where
  m    : Int
  pinf : Bool
  ninf : Bool
  nan  : Bool
  neg0 : Bool
deriving DecidableEq, Repr

/-- An ownership override entry (Table 4.4). -/
structure OvEntry where
  row    : Nat
  table  : Nat
  owner  : Coord
  oepoch : BitVec 16
  kind   : Nat
  mstate : Nat
  gslot  : Nat
deriving DecidableEq, Repr

/-- One segment of a pool answer (R67): fp32 maxima, exact partials as codes of Table 3.1 (XP32, XP64 or XP128 by
their bytes), or raw rows with their row numbers. -/
inductive PartBody where
  | maxv (v : List Nat)
  | xp   (width : Nat) (v : List Nat)
  | rows (rs : List (Nat × List Nat))
deriving DecidableEq, Repr

/-- A pool request (R66): the contents of its 32-byte head and its 16-byte entries (row, segment, fp32 weight). -/
structure PoolReq where
  table   : Nat
  ver     : Word
  agg     : Nat
  fmt     : Nat
  entries : List (Nat × Nat × Nat)
deriving DecidableEq, Repr

/-- A row as it moves: its bytes in both bases (the second empty when PHASE_LINK is 0) and its state (R95). -/
structure Snap where
  a  : List Byte
  b  : List Byte
  st : List Byte
deriving DecidableEq, Repr

/-- The stages of a migration that travel as MIG (R95 steps 1, 2 and 4). -/
inductive MigStep where
  | reserve (units : Nat)
  | copy    (d : Snap)
  | final   (snap : Option Snap) (oepoch : BitVec 16)
  | cancel
deriving DecidableEq, Repr

/-- A fabric fault record (Table 12.5). -/
structure FabFault where
  origin  : Coord
  oinc    : BitVec 8
  kind    : Nat
  fseq    : BitVec 16
  chip    : Coord
  dir     : Nat
  group   : Nat
  word0   : BitVec 64
  word3   : BitVec 64
  time    : BitVec 64
deriving DecidableEq, Repr

/-- The TIME payload (Table 17.2). -/
structure TimeMsg where
  tx     : BitVec 64
  echoTx : BitVec 64
  echoRx : BitVec 64
  hops   : BitVec 16
deriving DecidableEq, Repr

/-- The HELLO record (Table 11.5). `chkOk` says that CHECK agrees with bytes 0-59; `rsvCoord`, `rsvSeen`, `rsvDims` and `rsvTail`
are its reserved bits. -/
structure HelloRec where
  part      : BitVec 16
  stepping  : BitVec 8
  inc       : BitVec 8
  coord     : Coord
  port      : BitVec 3
  half      : BitVec 1
  versions  : BitVec 16
  seen      : BitVec 1
  features  : BitVec 32
  sliceId   : BitVec 64
  dims      : Coord
  maxPay    : BitVec 16
  chkOk     : Bool
  rsvCoord  : BitVec 10
  rsvSeen   : BitVec 15
  rsvDims   : BitVec 14
  rsvTail   : BitVec 240
deriving DecidableEq, Repr

/-- A link control frame's payload (R213). -/
structure Lcf where
  ack  : BitVec 16
  nak  : Bool
  cred : List (BitVec 16)
deriving DecidableEq, Repr

/-- The head of a STITCH payload (R239). -/
structure StitchPfx where
  late : Nat
  nonfinite : Bool
  coords : List Nat
deriving DecidableEq, Repr

/-- What an UPDATE forwards with a row (R98): the version it captured (R27), the rule, the mode, the values the
step fixed, and whether another UPDATE that is not ordered with it names the row too (R154). -/
structure RowUpdMsg where
  table : Nat
  ver   : Word
  row   : Nat
  rule  : Nat
  mode  : Nat
  group : Nat
  seed  : BitVec 64
  step  : Word
  eta   : Word
  lam   : Word
  grad  : List Nat
  race  : Bool
deriving DecidableEq, Repr

/-- Packet payloads: raw bytes where the manual gives a layout the model reads, records elsewhere. `row` is the payload
of a READ or WRITE of a table row, with the version its operation captured (R86), or of its answer, with the owner's
entry (R96). `redirect` names the entries of the pool request it answers (R68, R96). -/
inductive Body where
  | none
  | raw (b : List Byte)
  | row (ver : Option Word) (entry : Option OvEntry) (b : List Byte)
  | sampleRsp (xs : List (List (Nat × Nat)))
  | poolReq (r : PoolReq)
  | poolRsp (parts : List (Nat × PartBody)) (forwarded : Nat) (entries : List OvEntry)
  | contrib (ctx table row : Nat) (g : List Nat)
  | mig (table row : Nat) (m : MigStep)
  | migAck (table row : Nat) (ok : Bool)
  | rowUpd (u : RowUpdMsg)
  | redirect (owner : Coord) (busy : Bool) (part : List (Nat × Nat × Nat))
  | fault (f : FabFault)
  | load (n : Nat)
  | publish (e : OvEntry)
  | time (t : TimeMsg)
  | stitch (p : StitchPfx) (e : List Nat)
deriving DecidableEq, Repr

/-- How the frame of a packet crosses a link, besides its Ghedin header and payload: the half of the port; on a torus port LSEQ and
its CRC-8 (preamble bytes 1-3, R216) and whether the stomp code stands in place of the FCS (R215); on an open port the source
address as R253 compares it and the priority of its tag, if it is tagged (R204). `taken` marks a packet that its link has
accepted and that stands in the port's receive buffer. -/
structure Wire where
  half  : Bool
  lseq  : BitVec 16
  crc   : BitVec 8
  stomp : Bool
  src   : BitVec 128
  prio  : Option (Fin 8)
  taken : Bool
deriving DecidableEq, Repr

/-- The wire of a packet that is not on a link. -/
def Wire.none : Wire := ⟨false, 0, 0, false, 0, Option.none, false⟩

/-- The priority a frame is received at: 0 when it is untagged (R204). -/
def prioOf (x : Option (Fin 8)) : Nat := match x with | some q => q.val | none => 0

/-- A Ghedin packet; `ce` says that the IP header it came under is marked congestion experienced (R207). -/
structure Packet where
  hdr  : Hdr
  body : Body
  ce   : Bool
  wire : Wire
deriving DecidableEq, Repr

/-- A packet under no mark, on no link. -/
def Packet.of (h : Hdr) (b : Body) : Packet := ⟨h, b, false, Wire.none⟩

/-- A flit CRC failure inside the chip (R215): whether the header flits passed their CRC, and whether it was found before the
header flit left. -/
structure FlitErr where
  headOk : Bool
  early  : Bool
deriving DecidableEq, Repr

/-- Where a packet to be routed stands (R218): injected here, or arrived on a port. -/
inductive RouteSrc where
  | injected (n : Nat)
  | arrived (p : Fin 6) (pk : Packet) (err : Option FlitErr)
deriving DecidableEq, Repr

/-- What an IP frame of an open port carries (Table 11.8 step 5). -/
inductive IpKind where
  | echo | echo6 | solicit | udp (port : BitVec 16) | other
deriving DecidableEq, Repr

structure IpInfo where
  v6   : Bool
  dst  : BitVec 128
  opts : Bool
  kind : IpKind
deriving DecidableEq, Repr

/-- A frame received on a port, as the receive filter of Table 11.8 sees it; `prio` is none when it is untagged. -/
structure Frame where
  fcsOk : Bool
  len   : Nat
  dmac  : BitVec 48
  etype : BitVec 16
  pfcOp : BitVec 16
  prio  : Option (Fin 8)
  ip    : Option IpInfo
  gh    : Option Hdr
  srcAddr : BitVec 128
  ce    : Bool
deriving DecidableEq, Repr

/-- Element formats (Tables 5.2 and 6.1). -/
inductive Fmt where
  | fp32 | bf16 | fp16 | e4m3 | e5m2 | e3m2 | e2m3 | e2m1 | int8 | int16 | int32 | int64
deriving DecidableEq, Repr

/-- Where a cell instruction was issued: the cell, its sequencer and the byte offset in the text. -/
structure CellAt where
  cell : Fin 32
  strm : Fin 4
  pc   : BitVec 19
deriving DecidableEq, Repr

/-- An operand of the matrix array (R101, R103, R105, R110): its bench address, its format,
the scale bytes of an MX operand, whether it is stored transposed, and a tile directory. -/
structure ArrOperand where
  base  : Nat
  fmt   : Fmt
  scale : Option Nat
  trans : Bool
  dir   : Option Nat
deriving DecidableEq, Repr

/-- An array instruction (R103 to R109): C is m × n, summed over k. -/
structure ArrayInstr where
  a      : ArrOperand
  b      : ArrOperand
  m      : Nat
  n      : Nat
  k      : Nat
  init   : Option Nat
  out    : Nat
  outFmt : Fmt
  outMx  : Bool
  oscale : BitVec 8
  scales : Nat
  watch  : Option (Fin 8192)
  misses : Fin 3
deriving DecidableEq, Repr

structure WgradInstr where
  a      : ArrOperand
  dy     : ArrOperand
  m      : Nat
  n      : Nat
  k      : Nat
  slot   : Fin 1024
  first  : Nat
  prod   : BitVec 16
  misses : Fin 3
deriving DecidableEq, Repr

structure WellAddInstr where
  reg   : Fin 64
  mask  : Fin 8
  count : Nat
  slot  : Fin 1024
  first : Nat
  prod  : BitVec 16
deriving DecidableEq, Repr

/-- Stash instructions (R142): whole tiles, which a store may take by a tile directory (R110), or rows of statistics. -/
structure StashInstr where
  region : Fin 8
  layer  : Fin 256
  stats  : Bool
  first  : Nat
  count  : Nat
  bench  : Nat
  dir    : Option Nat
deriving DecidableEq, Repr

inductive CmpOp where
  | eq | ne | lt | le | gt | ge
deriving DecidableEq, Repr

/-- The operations of Table 6.1 that VECTOR_ARITHMETIC covers. -/
inductive VOp where
  | fadd | fsub | fmul | fma | fmaW | fneg | fabs | fmin | fmax
  | iadd | isub | imul | imin | imax | iabs
  | shl | shr | sar | rotl | rotr
  | and | or | xor | not | andn
  | cmp (c : CmpOp) (md : Fin 8) | select (ms : Fin 8)
  | mand (md a b : Fin 8) | mor (md a b : Fin 8) | mxor (md a b : Fin 8) | mnot (md a : Fin 8)
  | mcount (a : Fin 8) | clearFlags | readFlags
deriving DecidableEq, Repr

structure VecInstr where
  op     : VOp
  fmt    : Fmt
  d      : Fin 64
  a      : Fin 64
  b      : Fin 64
  c      : Fin 64
  amount : Option (BitVec 8)
  mask   : Fin 8
  zero   : Bool
  sat    : Bool
  pair   : Bool
  misses : Fin 3
deriving DecidableEq, Repr

inductive MxForm where
  | plain | pack | unpack
deriving DecidableEq, Repr

structure ConvInstr where
  src    : Fmt
  dst    : Fmt
  mx     : MxForm
  d      : Fin 64
  a      : Fin 64
  sreg   : Fin 64
  mask   : Fin 8
  zero   : Bool
  rtz    : Bool
  satfin : Bool
  stoch  : Bool
  pair   : Bool
deriving DecidableEq, Repr

inductive TransFn where
  | exp2 | log2 | recip | rsqrt | tanh
deriving DecidableEq, Repr

structure TransInstr where
  fn   : TransFn
  fmt  : Fmt
  d    : Fin 64
  a    : Fin 64
  mask : Fin 8
  zero : Bool
  pair : Bool
deriving DecidableEq, Repr

inductive RedOp where
  | sum | max | min | and | or | xor
deriving DecidableEq, Repr

structure RedInstr where
  op     : RedOp
  fmt    : Fmt
  d      : Fin 64
  a      : Fin 64
  pair   : Bool
  mask   : Fin 8
  acc    : Option (Fin 8)
  misses : Fin 3
deriving DecidableEq, Repr

structure AccReadInstr where
  acc   : Fin 8
  asInt : Bool
  clear : Bool
  d     : Fin 64
  mask  : Fin 8
  zero  : Bool
deriving DecidableEq, Repr

/-- Contiguous access (R132), and the tile store of R110 and R111. -/
inductive LsForm where
  | load | store | tileStore (base dir tile : Nat)
deriving DecidableEq, Repr

structure LsInstr where
  form  : LsForm
  reg   : Fin 64
  addr  : Nat
  fmt   : Fmt
  mask  : Fin 8
  zero  : Bool
  watch : Option (Fin 8192)
deriving DecidableEq, Repr

/-- Bench gather, scatter and scatter-add (R132, R133): base + index[i] × scale. -/
structure GsInstr where
  reg   : Fin 64
  index : Fin 64
  base  : BitVec 64
  scale : Fin 4
  fmt   : Fmt
  mask  : Fin 8
  zero  : Bool
  watch : Option (Fin 8192)
deriving DecidableEq, Repr

/-- The escapement operations of Table 15.7. -/
inductive EscOp where
  | add (n : Word) | arm (t : Word) | reset | notify (vec : Byte) (on : Bool) | waitGe (v : BitVec 16)
deriving DecidableEq, Repr

/-- What a RoCEv2 request packet carries (R260 to R263). -/
structure RocePkt where
  psn    : BitVec 24
  first  : Bool
  last   : Bool
  va     : BitVec 64
  rkey   : BitVec 32
  dmaLen : Nat
  data   : List Byte
  srcIp  : BitVec 128
  ce     : Bool
  absent : Bool
  prio   : Option (Fin 8)
deriving DecidableEq, Repr

/-- One channel's outcome of training and of the march test (R186). -/
structure ChTest where
  ch      : Fin 256
  trained : Bool
  repairs : Byte
  bad     : Bool
deriving DecidableEq, Repr

/-- A unit whose reset ends (Table 17.4). -/
inductive ResetUnit where
  | cell (c : Fin 32) | channel (c : Fin 256) (trained : Bool) | domain (d : Fin 4)
deriving DecidableEq, Repr

/-- A residue mismatch of an engine on a cell's vector engine (R319 to R321): the cell, whether the re-execution
mismatches too, and how much of the write pass of an UPDATE had then begun, in 64-byte lines of a dense shard and
in rows of a table. -/
structure EngMiss where
  cell  : Fin 32
  again : Bool
  begun : Nat
deriving DecidableEq, Repr

/-- The commands and events of the block, one constructor per row of the table. -/
inductive Instr where
  -- work-ring operations (R270): the admitted descriptor named runs
  | nop (o : OpRef)
  | sample (o : OpRef)
  | gather (o : OpRef)
  | pool (o : OpRef)
  | scatterAdd (o : OpRef) (m : List EngMiss)
  | cellRun (o : OpRef)
  | update (o : OpRef) (m : List EngMiss)
  | reduceScatter (o : OpRef) (m : List EngMiss)
  | allGather (o : OpRef)
  | copy (o : OpRef)
  | peerXferRead (o : OpRef)
  | peerXferWrite (o : OpRef)
  | peerXferPool (o : OpRef)
  | define (o : OpRef)
  | setInactive (o : OpRef)
  | inactiveBaseReplace (o : OpRef)
  | flip (o : OpRef)
  | release (o : OpRef)
  | releaseFree (o : OpRef)
  | migrate (o : OpRef)
  | stashOpen (o : OpRef)
  | stashRelease (o : OpRef)
  | wellClear (o : OpRef)
  | escCtlAdd (o : OpRef)
  | escCtlArm (o : OpRef)
  | escCtlReset (o : OpRef)
  | escCtlNotify (o : OpRef)
  | abort (o : OpRef)
  | kxGather (o : OpRef)
  | kxPool (o : OpRef)
  | kxScatterAdd (o : OpRef) (m : List EngMiss)
  -- rings and admission; `posted` is what the host wrote into its own memory beforehand
  | prodWrite (d : Fin 4) (r : Fin 64) (v : Word) (posted : List Host.Cell)
  | ringEnable (d : Fin 4) (r : Fin 64) (v : Word)
  | kxDoorbellWrite (d : Fin 4) (v : Word) (posted : List Host.Cell)
  | waitRelease (o : OpRef)
  | admitWaiter (e : Fin 8)
  | operationComplete (o : OpRef)
  | escCmdAdd (d : Fin 4) (x : BitVec 16) (gen : BitVec 16) (arg : BitVec 14)
  | escCmdArm (d : Fin 4) (x : BitVec 16) (gen : BitVec 16) (arg : BitVec 14)
  | escCmdReset (d : Fin 4) (x : BitVec 16) (gen : BitVec 16) (arg : BitVec 14)
  | escCmdDiscard (d : Fin 4) (x : BitVec 16) (gen : BitVec 16) (arg : BitVec 14)
  | phaseCommit (d : Fin 4)
  | catchUpPass (d : Fin 4)
  -- configuration
  | txnBegin (d : Fin 4)
  | txnCommit (d : Fin 4)
  | txnAbort (d : Fin 4)
  | txnIdleTimeout
  | quietPoint
  | rwlWrite (d : Fin 4) (a : BitVec 26) (v : Word)
  | clbImgGo (d : Fin 4) (v : Word)
  | registerWrite (d : Fin 4) (a : BitVec 26) (v : Word)
  | bar0BadAccess (d : Fin 4) (a : BitVec 26) (write : Bool) (be : BitVec 4)
  | bar2Read (d : Fin 4) (off : BitVec 36) (n : Nat)
  | bar2Write (d : Fin 4) (off : BitVec 36) (b : List Byte)
  | qpContextApply (d : Fin 4) (q : Fin 4096) (v : Word)
  | rteFaultClear (d : Fin 4) (v : Word)
  -- resets, power, bring-up
  | rstCell (d : Fin 4) (v : Word)
  | rstCh (d : Fin 4) (k : Fin 8) (v : Word)
  | rstPort (d : Fin 4) (v : Word)
  | rstDomain (d : Fin 4) (v : Word)
  | warmChipReset (d : Fin 4)
  | coldChipReset (d : Fin 4)
  | perst (port : Fin 2)
  | functionLevelReset (d : Fin 4)
  | pwrgdRise (straps : BitVec 4)
  | pwrgdFall
  | pllLock
  | pllUnlock
  | crownBoot (aliveA aliveB : Bool)
  | hbmChannelTest (res : List ChTest)
  | ageingMeasurement (pass : List (Nat × Nat)) (slow : Byte)
  | setpointTimeout
  | calibreLoad (img : List Byte)
  | ready
  | stepMark
  | rackRefLock
  | thermTrip
  | hwForcedThrottle
  | sensorRead (vals : List (BitVec 16))
  | throttleAdjust
  | crownRestart (d : Fin 4) (v : Word)
  | crownWatchdog
  | bootRetry (aliveA aliveB : Bool)
  | fwStage (d : Fin 4)
  | ageMeasure (d : Fin 4) (pass : List (Nat × Nat)) (slow : Byte)
  | faultLogFlashWrite
  | smbusStatus
  | smbusTj
  | smbusSensor (n : Byte)
  | logProd
  | logRead (n : Word)
  | setpointAck (mv : BitVec 16)
  -- cell instructions
  | arrayInstruction (c : CellAt) (x : ArrayInstr)
  | wgrad (c : CellAt) (x : WgradInstr)
  | wellAdd (c : CellAt) (x : WellAddInstr)
  | stashStore (c : CellAt) (x : StashInstr)
  | stashTest (c : CellAt) (region : Fin 8) (layer : Fin 256)
  | stashLoad (c : CellAt) (x : StashInstr)
  | vectorArithmetic (c : CellAt) (x : VecInstr)
  | conversion (c : CellAt) (x : ConvInstr)
  | transcendental (c : CellAt) (x : TransInstr)
  | reduction (c : CellAt) (x : RedInstr)
  | accumulatorRead (c : CellAt) (x : AccReadInstr)
  | contiguousLoadStore (c : CellAt) (x : LsInstr)
  | benchGather (c : CellAt) (x : GsInstr)
  | benchScatter (c : CellAt) (x : GsInstr)
  | benchScatterAdd (c : CellAt) (x : GsInstr)
  | cellEscapementOp (c : CellAt) (x : BitVec 16) (gen : BitVec 16) (op : EscOp)
  -- engines' own events
  | uitHoldExpiry
  | regulatorRecompute (g : Fin 16)
  | loupeLatch (d : Fin 4)
  | patrolScrub
  | sramScrub
  -- links
  | linkAligned (p : Fin 8) (half : Bool)
  | trainingTimeout (p : Fin 8) (half : Bool)
  | trainingRetry (p : Fin 8) (half : Bool)
  | alignmentLoss (p : Fin 8) (half : Bool)
  | helloSend (p : Fin 6) (half : Bool)
  | hello (p : Fin 6) (half : Bool) (h : HelloRec)
  | discoveryTimeout (p : Fin 6)
  | adoption
  | linkControlFrame (p : Fin 6) (half : Bool) (f : Lcf)
  | lcfSend (p : Fin 6) (half : Bool)
  | llrAckTimeout (p : Fin 6) (half : Bool)
  | badHeaderFrame (p : Fin 8) (w : Wire) (h : Hdr) (frameLen : Nat)
  | routePacket (src : RouteSrc)
  | fault (p : Fin 8) (pk : Packet)
  | load (p : Fin 8) (pk : Packet)
  | loadWindow
  | publish (p : Fin 8) (pk : Packet)
  | guestGraceExpiry (table : Fin 4096) (row : Nat)
  | timeSend (p : Fin 6)
  | time (p : Fin 6) (pk : Packet) (rx : BitVec 64)
  | write (p : Fin 8) (pk : Packet)
  | read (p : Fin 8) (pk : Packet)
  | sampleRequest (p : Fin 8) (pk : Packet)
  | poolRequest (p : Fin 8) (pk : Packet)
  | contrib (p : Fin 8) (pk : Packet)
  | mig (p : Fin 8) (pk : Packet)
  | rowUpd (p : Fin 8) (pk : Packet)
  | fwd (p : Fin 8) (pk : Packet)
  | writeAck (p : Fin 8) (pk : Packet)
  | readData (p : Fin 8) (pk : Packet)
  | sampleRsp (p : Fin 8) (pk : Packet)
  | poolRsp (p : Fin 8) (pk : Packet)
  | contribAck (p : Fin 8) (pk : Packet)
  | migAck (p : Fin 8) (pk : Packet)
  | redirect (p : Fin 8) (pk : Packet)
  | busyReissue (optag : BitVec 16)
  | sampleRemoteTimeout (o : OpRef)
  | poolRemoteTimeout (o : OpRef)
  | contribAckTimeout (o : OpRef)
  | stitch (p : Fin 8) (pk : Packet)
  | grant (p : Fin 8) (pk : Packet)
  | colGather (p : Fin 8) (pk : Packet)
  | verdict (p : Fin 8) (pk : Packet)
  | stragglerDeadline (g : Fin 4)
  | colTimeout (g : Fin 4)
  | oldClear
  -- open ports and service
  | unacceptedFrame (p : Fin 8) (half : Bool) (f : Frame)
  | pfcFrame (p : Fin 8) (half : Bool) (quanta : List (Fin 8 × BitVec 16))
  | pfcXoffRepeat (p : Fin 8) (half : Bool) (q : Fin 8)
  | pfcWatchdog (p : Fin 8) (half : Bool) (q : Fin 8)
  | ecnFlagTimer (peer : Fin 256)
  | ecnRateRaise (peer : Fin 256)
  | arp (p : Fin 8) (half : Bool) (target : BitVec 32) (sender : BitVec 48)
  | neighbourSolicitation (p : Fin 8) (half : Bool) (target : BitVec 128) (sender : BitVec 128)
  | echoRequest (p : Fin 8) (half : Bool) (f : Frame) (data : List Byte)
  | peerHelloSend (n : Fin 256)
  | peerHello (p : Fin 8) (half : Bool) (f : Frame) (h : HelloRec)
  | peerDown (n : Fin 256)
  | e2eAck (p : Fin 8) (pk : Packet)
  | e2eRetransmit (n : Fin 256) (optag : BitVec 16) (seq : BitVec 24)
  | dedupKeyExpiry (n : Fin 256) (optag : BitVec 16) (seq : BitVec 24)
  | rdmaWrite (q : Fin 4096) (k : RocePkt)
  | rdmaRead (q : Fin 4096) (k : RocePkt)
  | send (q : Fin 4096) (k : RocePkt)
  | cnp (q : Fin 4096)
  | roceAck (q : Fin 4096) (psn : BitVec 24) (nak : Bool)
  | answerRetransmit (q : Fin 4096)
  -- later rows of the table
  | verdictWaitTimeout (o : OpRef)
  | stackTempThreshold (k : Fin 8) (temp : Byte)
  | pfcPauseExpiry (p : Fin 8) (half : Bool) (q : Fin 8)
  | rackRefLoss
  | pcieLinkUp (d : Fin 4)
  | pllLockTimeout
  | uncorrectableCodeword (p : Fin 8) (half : Bool) (lseq : BitVec 16)
  | stompedFrame (p : Fin 6) (half : Bool) (seq : BitVec 16 × BitVec 8) (vc : Fin 24) (flits : Nat)
  | resetComplete (u : ResetUnit)
  | migReplyTimeout (table : Fin 4096) (row : Nat)
deriving DecidableEq, Repr

end Sys2Proof
end

