-- ==== Sys2Proof/Decode.lean ====
section
/-! DEFINITION. The table gives no command any bits, so no word spells a command (log entry 10). -/

namespace Sys2Proof

/-- The command a word spells by the table's bits: none, for every word. -/
def decodeTableWord (_nbits _w : Nat) : Option Instr := none

end Sys2Proof
end

