-- ==== Sys2Proof/Machine/Bits.lean ====
section
/-! DEFINITION. Bit fields, little-endian byte strings (R3) and maps kept as lists with strictly
rising keys. -/

namespace Sys2Proof.Machine

/-- Bits [lsb + width - 1 : lsb] of a word held as a number. -/
def fld (w lsb width : Nat) : Nat := (w >>> lsb) % 2 ^ width

/-- The word with those bits replaced. -/
def putFld (w lsb width v : Nat) : Nat :=
  w - (fld w lsb width <<< lsb) + ((v % 2 ^ width) <<< lsb)

/-- One bit. -/
def bit (w i : Nat) : Bool := (w >>> i) % 2 == 1

def b2n (b : Bool) : Nat := if b then 1 else 0

/-- The number a little-endian byte string spells. -/
def leNat : List Byte → Nat
  | [] => 0
  | b :: bs => b.toNat + 256 * leNat bs

/-- The `n` low bytes of a number, least significant first. -/
def leBytes : Nat → Nat → List Byte
  | 0, _ => []
  | n + 1, v => BitVec.ofNat 8 v :: leBytes n (v / 256)

/-- `n` bytes of a byte string from offset `o`, as a number. -/
def leAt (bs : List Byte) (o n : Nat) : Nat := leNat ((bs.drop o).take n)

/-- CRC-32 (IEEE 802.3), bit by bit, reflected. -/
def crcByte (c : Nat) (b : Byte) : Nat :=
  (List.range 8).foldl (fun c _ => if c % 2 = 1 then (c / 2) ^^^ 0xEDB88320 else c / 2) (c ^^^ b.toNat)

def crc32 (bs : List Byte) : Nat := (bs.foldl crcByte 0xFFFFFFFF) ^^^ 0xFFFFFFFF

/-- CRC-8 of polynomial 0x07 (R216), most significant bit first from 0. -/
def crc8 (bs : List Byte) : Nat :=
  bs.foldl (fun c b => (List.range 8).foldl (fun c _ => if 128 ≤ c then (2 * c % 256) ^^^ 7 else 2 * c) (c ^^^ b.toNat)) 0

/-- The list cut into pieces of `n`, by fuel. -/
def chunksAux (n : Nat) : Nat → List α → List (List α)
  | 0, _ => []
  | f + 1, l => if l.isEmpty then [] else l.take n :: chunksAux n f (l.drop n)

def chunks (n : Nat) (l : List α) : List (List α) := chunksAux n (l.length + 1) l

/-- A byte string padded with zeros, or cut, to `n` bytes. -/
def padTo (n : Nat) (bs : List Byte) : List Byte := (bs ++ List.replicate (n - bs.length) 0).take n

def mapGet : List (Nat × α) → Nat → Option α
  | [], _ => none
  | (j, v) :: l, k => if j = k then some v else if k < j then none else mapGet l k

def mapSet : List (Nat × α) → Nat → α → List (Nat × α)
  | [], k, v => [(k, v)]
  | (j, w) :: l, k, v =>
    if k < j then (k, v) :: (j, w) :: l
    else if j = k then (k, v) :: l
    else (j, w) :: mapSet l k v

def mapDel : List (Nat × α) → Nat → List (Nat × α)
  | [], _ => []
  | (j, w) :: l, k => if j = k then l else if k < j then (j, w) :: l else (j, w) :: mapDel l k

/-- Keys rise strictly and lie above `lo`. -/
def mapOrd : Option Nat → List (Nat × α) → Bool
  | _, [] => true
  | none, (j, _) :: l => mapOrd (some j) l
  | some i, (j, _) :: l => decide (i < j) && mapOrd (some j) l

/-- The first position at which a predicate holds. -/
def findIdx (p : α → Bool) : List α → Option Nat
  | [] => none
  | x :: xs => if p x then some 0 else (findIdx p xs).map (· + 1)

/-- The list with every element that satisfies `p` changed by `f`. -/
def mapIf (p : α → Bool) (f : α → α) (l : List α) : List α := l.map fun x => if p x then f x else x

/-- `(a - b)` modulo 2^32, for free-running indices. -/
def sub32 (a b : Nat) : Nat := (a + 2 ^ 32 - b % 2 ^ 32) % 2 ^ 32

/-- Ceiling division. -/
def cdiv (a b : Nat) : Nat := (a + b - 1) / b

def align64 (n : Nat) : Nat := cdiv n 64 * 64

end Sys2Proof.Machine
end

