-- ==== Sys2Proof/Machine/Crypto.lean ====
section
/-! DEFINITION. The signature of a calibre image (R289): SHA-384 and the verification of ECDSA on curve P-384
(FIPS 180-4, FIPS 186-5; the constants are those standards', log entry 11). -/

namespace Sys2Proof.Machine

/-! ### SHA-384 -/

def shaK : List Nat :=
  [0x428a2f98d728ae22, 0x7137449123ef65cd, 0xb5c0fbcfec4d3b2f, 0xe9b5dba58189dbbc, 0x3956c25bf348b538]
  ++ [0x59f111f1b605d019, 0x923f82a4af194f9b, 0xab1c5ed5da6d8118, 0xd807aa98a3030242, 0x12835b0145706fbe]
  ++ [0x243185be4ee4b28c, 0x550c7dc3d5ffb4e2, 0x72be5d74f27b896f, 0x80deb1fe3b1696b1, 0x9bdc06a725c71235]
  ++ [0xc19bf174cf692694, 0xe49b69c19ef14ad2, 0xefbe4786384f25e3, 0x0fc19dc68b8cd5b5, 0x240ca1cc77ac9c65]
  ++ [0x2de92c6f592b0275, 0x4a7484aa6ea6e483, 0x5cb0a9dcbd41fbd4, 0x76f988da831153b5, 0x983e5152ee66dfab]
  ++ [0xa831c66d2db43210, 0xb00327c898fb213f, 0xbf597fc7beef0ee4, 0xc6e00bf33da88fc2, 0xd5a79147930aa725]
  ++ [0x06ca6351e003826f, 0x142929670a0e6e70, 0x27b70a8546d22ffc, 0x2e1b21385c26c926, 0x4d2c6dfc5ac42aed]
  ++ [0x53380d139d95b3df, 0x650a73548baf63de, 0x766a0abb3c77b2a8, 0x81c2c92e47edaee6, 0x92722c851482353b]
  ++ [0xa2bfe8a14cf10364, 0xa81a664bbc423001, 0xc24b8b70d0f89791, 0xc76c51a30654be30, 0xd192e819d6ef5218]
  ++ [0xd69906245565a910, 0xf40e35855771202a, 0x106aa07032bbd1b8, 0x19a4c116b8d2d0c8, 0x1e376c085141ab53]
  ++ [0x2748774cdf8eeb99, 0x34b0bcb5e19b48a8, 0x391c0cb3c5c95a63, 0x4ed8aa4ae3418acb, 0x5b9cca4f7763e373]
  ++ [0x682e6ff3d6b2b8a3, 0x748f82ee5defb2fc, 0x78a5636f43172f60, 0x84c87814a1f0ab72, 0x8cc702081a6439ec]
  ++ [0x90befffa23631e28, 0xa4506cebde82bde9, 0xbef9a3f7b2c67915, 0xc67178f2e372532b, 0xca273eceea26619c]
  ++ [0xd186b8c721c0c207, 0xeada7dd6cde0eb1e, 0xf57d4f7fee6ed178, 0x06f067aa72176fba, 0x0a637dc5a2c898a6]
  ++ [0x113f9804bef90dae, 0x1b710b35131c471b, 0x28db77f523047d84, 0x32caab7b40c72493, 0x3c9ebe0a15c9bebc]
  ++ [0x431d67c49c100d4c, 0x4cc5d4becb3e42b6, 0x597f299cfc657e2a, 0x5fcb6fab3ad6faec, 0x6c44198c4a475817]

def shaIv : List Nat := [0xcbbb9d5dc1059ed8, 0x629a292a367cd507, 0x9159015a3070dd17, 0x152fecd8f70e5939, 0x67332667ffc00b31, 0x8eb44a8768581511, 0xdb0c2e0d64f98fa7, 0x47b5481dbefa4fa4]

def m64 (n : Nat) : Nat := n % 2 ^ 64
def rotr64 (x n : Nat) : Nat := x >>> n ||| m64 (x <<< (64 - n))

/-- The big-endian number of a byte string. -/
def beNat (b : List Byte) : Nat := b.foldl (fun n x => 256 * n + x.toNat) 0

/-- The message schedule: the last 16 words, newest first, and the words so far, newest first. -/
def shaSched : Nat → List Nat → List Nat
  | 0, w => w
  | f + 1, w =>
    let x1 := w.getD 14 0
    let x2 := w.getD 1 0
    let s0 := Nat.xor (Nat.xor (rotr64 x1 1) (rotr64 x1 8)) (x1 >>> 7)
    let s1 := Nat.xor (Nat.xor (rotr64 x2 19) (rotr64 x2 61)) (x2 >>> 6)
    shaSched f (m64 (w.getD 15 0 + s0 + w.getD 6 0 + s1) :: w)

structure ShaSt where
  a : Nat
  b : Nat
  c : Nat
  d : Nat
  e : Nat
  f : Nat
  g : Nat
  h : Nat
deriving DecidableEq, Repr

def shaRound (x : ShaSt) (kw : Nat × Nat) : ShaSt :=
  let s1 := Nat.xor (Nat.xor (rotr64 x.e 14) (rotr64 x.e 18)) (rotr64 x.e 41)
  let ch := Nat.xor (x.e &&& x.f) (Nat.xor x.e (2 ^ 64 - 1) &&& x.g)
  let t1 := m64 (x.h + s1 + ch + kw.1 + kw.2)
  let s0 := Nat.xor (Nat.xor (rotr64 x.a 28) (rotr64 x.a 34)) (rotr64 x.a 39)
  let mj := Nat.xor (Nat.xor (x.a &&& x.b) (x.a &&& x.c)) (x.b &&& x.c)
  ⟨m64 (t1 + s0 + mj), x.a, x.b, x.c, m64 (x.d + t1), x.e, x.f, x.g⟩

def shaBlock (hs : List Nat) (blk : List Byte) : List Nat :=
  let w := (shaSched 64 ((chunks 8 blk).map beNat).reverse).reverse
  let g (i : Nat) : Nat := hs.getD i 0
  let r := (shaK.zip w).foldl shaRound ⟨g 0, g 1, g 2, g 3, g 4, g 5, g 6, g 7⟩
  List.zipWith (fun x y => m64 (x + y)) hs [r.a, r.b, r.c, r.d, r.e, r.f, r.g, r.h]

/-- SHA-384 as a number. -/
def sha384 (b : List Byte) : Nat :=
  let pad := (127 + 112 - b.length % 128) % 128
  let m := b ++ [0x80] ++ List.replicate pad 0 ++ (leBytes 16 (8 * b.length)).reverse
  (((chunks 128 m).foldl shaBlock shaIv).take 6).foldl (fun n x => 2 ^ 64 * n + x) 0

/-! ### P-384 -/

def ecP : Nat := 2 ^ 384 - 2 ^ 128 - 2 ^ 96 + 2 ^ 32 - 1
def ecN : Nat := 0xFFFFFFFFFFFFFFFFFFFFFFFFFFFFFFFFFFFFFFFFFFFFFFFFC7634D81F4372DDF581A0DB248B0A77AECEC196ACCC52973
def ecB : Nat := 0xB3312FA7E23EE7E4988E056BE3F82D19181D9C6EFE8141120314088F5013875AC656398D8A2ED19D2A85C8EDD3EC2AEF
def ecG : Nat × Nat :=
  (0xAA87CA22BE8B05378EB1C71EF320AD746E1D3B628BA79B9859F741E082542A385502F25DBF55296C3A545E3872760AB7,
   0x3617DE4A96262C6F5D9E98BF9292DC29F8F41DBD289A147CE9DA3113B5F0B8C00A60B1CE1D7E819D7A431D7C90EA0E5F)

/-- a^e mod m for an exponent of up to `f` bits. -/
def powMod (m : Nat) : Nat → Nat → Nat → Nat
  | 0, _, _ => 1 % m
  | f + 1, a, e => (if e % 2 = 1 then a else 1) * powMod m f (a * a % m) (e / 2) % m

def invMod (m a : Nat) : Nat := powMod m 384 (a % m) (m - 2)

/-- The sum of two points; none is the point at infinity. -/
def ecAdd (x y : Option (Nat × Nat)) : Option (Nat × Nat) :=
  match x, y with
  | none, y => y
  | x, none => x
  | some a, some b =>
    if a.1 = b.1 ∧ (a.2 + b.2) % ecP = 0 then none
    else
      let l := if a.1 = b.1 then (3 * a.1 * a.1 + ecP - 3) * invMod ecP (2 * a.2) % ecP
        else (b.2 + ecP - a.2) * invMod ecP (b.1 + ecP - a.1) % ecP
      let x := (l * l + 2 * ecP - a.1 - b.1) % ecP
      some (x, (l * (a.1 + ecP - x) + ecP - a.2) % ecP)

def ecMul : Nat → Nat → Option (Nat × Nat) → Option (Nat × Nat)
  | 0, _, _ => none
  | f + 1, k, x => ecAdd (if k % 2 = 1 then x else none) (ecMul f (k / 2) (ecAdd x x))

def ecOn (q : Nat × Nat) : Bool :=
  decide (q.1 < ecP ∧ q.2 < ecP) && q.2 * q.2 % ecP == (q.1 * q.1 * q.1 + (ecP - 3) * q.1 + ecB) % ecP

/-- ECDSA verification of a hash under a public key. -/
def ecdsaOk (q : Nat × Nat) (e r s : Nat) : Bool :=
  if r = 0 ∨ s = 0 ∨ ecN ≤ r ∨ ecN ≤ s ∨ !ecOn q then false
  else
    let w := invMod ecN s
    match ecAdd (ecMul 384 (e * w % ecN) (some ecG)) (ecMul 384 (r * w % ecN) (some q)) with
    | some x => x.1 % ecN == r
    | none => false

end Sys2Proof.Machine
end

