-- ==== Sys2Proof/Config.lean ====
section
/-! DEFINITION. The free values: constants with no body for every value the manual leaves open
after an operation that goes on. No statement can evaluate one. Each names its log entry. -/

namespace Sys2Proof.Config

/-- The content of a byte that the manual calls undefined (R19, R47, R62, R117, R187, R279):
the nonce tells one event that made bytes undefined from another (log entry 4). -/
opaque freeByte : Nat → Nat → Byte

/-- The functions of Table 6.2 away from its exact values, and the regulator's cos on [0, π] (R162):
fixed functions of the fp32 input that the manual bounds and does not give (R128, R129). The model
takes the value where it lies inside the bound, and the truncated exact result where it does not, so
every function inside the bounds is allowed and no other (log entry 5). -/
opaque freeExp2 : Word → Word
opaque freeLog2 : Word → Word
opaque freeRecip : Word → Word
opaque freeRsqrt : Word → Word
opaque freeTanh : Word → Word
opaque freeCos : Word → Word

/-- Whether a result is judged tiny before or after rounding (R136 says tiny and inexact, and no
more; log entry 5). -/
opaque freeTinyBefore : Bool

/-- Parsing of a Crown firmware image, whose layout the manual does not give: version, security
version, whether its Twiroth signature verifies (R333, R335; log entry 6). -/
opaque freeFwParse : List Byte → Nat × Nat × Bool

/-- Which failure of Table 0.3 stands for a status byte that a foreign answer carries and the table does not
have, and (256) for an ageing measurement that found no point (R12, R313; log entry 121). -/
opaque freeStatus : Nat → Nat

/-- Request slots of a chip beyond the first: the manual gives no number (R220; log entry 138). -/
opaque reqSlots : Nat

/-- A numeric value the manual leaves open, one per nonce and index (log entry 4). -/
opaque freeWord : Nat → Nat → Word

end Sys2Proof.Config
end

