-- ==== Sys2Proof/Machine/Numerics.lean ====
section
/-! DEFINITION. Number formats (Table 5.2), exact values, exact sums (R52, R104, R130) and the one
rounding step every engine shares (R102, R107, R123, R124). A value is a mantissa and a power of
two, so sums and products are exact until they are rounded. -/

namespace Sys2Proof.Machine

/-- A value of a floating-point format, exact: `fin neg m e` is m·2^e with that sign. -/
inductive FV where
  | nan
  | inf (neg : Bool)
  | fin (neg : Bool) (m : Nat) (e : Int)
deriving DecidableEq, Repr

/-- A floating-point format of Table 5.2. -/
structure FSpec where
  ebits : Nat
  man   : Nat
  bias  : Nat
  maxC  : Nat
  infC  : Option Nat
  nanC  : Option Nat
deriving DecidableEq, Repr

def fp32 : FSpec := ⟨8, 23, 127, 0x7F7FFFFF, some 0x7F800000, some 0x7FC00000⟩
def bf16 : FSpec := ⟨8, 7, 127, 0x7F7F, some 0x7F80, some 0x7FC0⟩
def fp16 : FSpec := ⟨5, 10, 15, 0x7BFF, some 0x7C00, some 0x7E00⟩
def e4m3 : FSpec := ⟨4, 3, 7, 0x7E, none, some 0x7F⟩
def e5m2 : FSpec := ⟨5, 2, 15, 0x7B, some 0x7C, some 0x7E⟩
def e3m2 : FSpec := ⟨3, 2, 3, 0x1F, none, none⟩
def e2m3 : FSpec := ⟨2, 3, 1, 0x1F, none, none⟩
def e2m1 : FSpec := ⟨2, 1, 1, 0x7, none, none⟩

namespace FmtOf

/-- The floating-point format an element format names. -/
def spec : Fmt → Option FSpec
  | .fp32 => some fp32 | .bf16 => some bf16 | .fp16 => some fp16
  | .e4m3 => some e4m3 | .e5m2 => some e5m2 | .e3m2 => some e3m2
  | .e2m3 => some e2m3 | .e2m1 => some e2m1
  | .int8 => none | .int16 => none | .int32 => none | .int64 => none

/-- Bits of an element. -/
def bits : Fmt → Nat
  | .fp32 => 32 | .bf16 => 16 | .fp16 => 16 | .e4m3 => 8 | .e5m2 => 8 | .e3m2 => 6
  | .e2m3 => 6 | .e2m1 => 4 | .int8 => 8 | .int16 => 16 | .int32 => 32 | .int64 => 64

/-- Bytes of an element held in a register or a row. -/
def bytes (f : Fmt) : Nat := if bits f = 64 then 8 else if bits f = 32 then 4 else if bits f = 16 then 2 else 1

def isInt : Fmt → Bool
  | .int8 => true | .int16 => true | .int32 => true | .int64 => true | _ => false

end FmtOf

def FSpec.sgn (f : FSpec) : Nat := 2 ^ (f.ebits + f.man)

/-- The exponent of the smallest normal number. -/
def FSpec.emin (f : FSpec) : Int := 1 - (f.bias : Int)

/-- The value a code stands for. -/
def FSpec.val (f : FSpec) (c : Nat) : FV :=
  let neg := decide (f.sgn ≤ c % (2 * f.sgn))
  let a := c % f.sgn
  let ef := a >>> f.man
  let mf := a % 2 ^ f.man
  if f.infC.isSome && ef == 2 ^ f.ebits - 1 then (if mf = 0 then .inf neg else .nan)
  else if f.infC.isNone && f.nanC == some a then .nan
  else if ef = 0 then .fin neg mf (f.emin - f.man)
  else .fin neg (2 ^ f.man + mf) ((ef : Int) - f.bias - f.man)

def FV.neg : FV → FV
  | .nan => .nan
  | .inf n => .inf (!n)
  | .fin n m e => .fin (!n) m e

def FV.abs : FV → FV
  | .nan => .nan
  | .inf _ => .inf false
  | .fin _ m e => .fin false m e

/-- Multiplication by a power of two, exact. -/
def FV.scale (v : FV) (k : Int) : FV :=
  match v with
  | .fin n m e => .fin n m (e + k)
  | v => v

def FV.isNan : FV → Bool | .nan => true | _ => false
def FV.isInf : FV → Bool | .inf _ => true | _ => false
def FV.isFin : FV → Bool | .fin _ _ _ => true | _ => false
def FV.isZero : FV → Bool | .fin _ m _ => m == 0 | _ => false
def FV.isNeg : FV → Bool | .nan => false | .inf n => n | .fin n _ _ => n
def FV.isNegZero (v : FV) : Bool := v.isZero && v.isNeg

/-- The exact product (R104): 0 × infinity and NaN give NaN. -/
def FV.mul : FV → FV → FV
  | .nan, _ => .nan
  | _, .nan => .nan
  | .inf a, .inf b => .inf (a != b)
  | .inf a, .fin b m _ => if m = 0 then .nan else .inf (a != b)
  | .fin a m _, .inf b => if m = 0 then .nan else .inf (a != b)
  | .fin a m e, .fin b n g => .fin (a != b) (m * n) (e + g)

/-- The signed mantissa of a finite value at exponent `g`, which is at most its own. -/
def FV.at (v : FV) (g : Int) : Int :=
  match v with
  | .fin n m e => if n then -((m <<< (e - g).toNat : Nat) : Int) else ((m <<< (e - g).toNat : Nat) : Int)
  | _ => 0

def FV.expo : FV → Int | .fin _ _ e => e | _ => 0

def FV.ofInt (i : Int) (e : Int) : FV := .fin (decide (i < 0)) i.natAbs e

/-- The smallest exponent among values, from `e`. -/
def minExpo (e : Int) : List FV → Int
  | [] => e
  | v :: vs => minExpo (if v.isFin && decide (v.expo < e) then v.expo else e) vs

def sumAt (g : Int) : List FV → Int
  | [] => 0
  | v :: vs => v.at g + sumAt g vs

/-- The exact sum of values (R52, R104, R130): a NaN or infinities of both signs give NaN, an exact
zero total is −0 only when every term is −0 (so an empty sum is −0). -/
def sumFV (vs : List FV) : FV :=
  let p := vs.any (fun v => v == .inf false)
  let n := vs.any (fun v => v == .inf true)
  if vs.any FV.isNan || (p && n) then .nan
  else if p then .inf false
  else if n then .inf true
  else
    let g := minExpo 0 vs
    let t := sumAt g vs
    if t = 0 then .fin (vs.all FV.isNegZero) 0 0 else FV.ofInt t g

def FV.add (a b : FV) : FV := sumFV [a, b]
def FV.sub (a b : FV) : FV := sumFV [a, b.neg]

/-- Order of values, −0 below +0 (R124); neither is NaN. -/
def FV.ltTot (a b : FV) : Bool :=
  match a, b with
  | .inf n, .inf m => n && !m
  | .inf n, _ => n
  | _, .inf m => !m
  | a, b =>
    let g := minExpo 0 [a, b]
    let x := a.at g
    let y := b.at g
    decide (x < y) || (decide (x = y) && a.isNeg && !b.isNeg && a.isZero)

/-- Numeric order: −0 equals +0, every comparison with NaN is false. -/
def FV.lt (a b : FV) : Bool :=
  match a, b with
  | .nan, _ => false
  | _, .nan => false
  | .inf n, .inf m => n && !m
  | .inf n, _ => n
  | _, .inf m => !m
  | a, b => let g := minExpo 0 [a, b]; decide (a.at g < b.at g)

def FV.eqv (a b : FV) : Bool := !a.isNan && !b.isNan && !a.lt b && !b.lt a

def FV.le (a b : FV) : Bool := a.lt b || a.eqv b

/-- Minimum and maximum of R124. -/
def FV.min (a b : FV) : FV := if a.isNan || b.isNan then .nan else if b.ltTot a then b else a
def FV.max (a b : FV) : FV := if a.isNan || b.isNan then .nan else if a.ltTot b then b else a

/-- The number of bits of a number. -/
def bitLen (n : Nat) : Nat := if n = 0 then 0 else Nat.log2 n + 1

/-- m·2^-k rounded to the nearest integer, ties to even; `st` says that a positive amount below the
last bit was left off. -/
def rneShift (m k : Nat) (st : Bool) : Nat × Bool :=
  let q := m >>> k
  let r := m - (q <<< k)
  let half := if k = 0 then 0 else 2 ^ (k - 1)
  let inx := r != 0 || st
  let up := if k = 0 then false
            else if r > half then true
            else if r < half then false
            else st || q % 2 == 1
  (if up then q + 1 else q, inx)

/-- A rounded code with what the rounding raises (R136). -/
structure Rnd where
  code : Nat
  ofl  : Bool
  ufl  : Bool
  inx  : Bool
deriving DecidableEq, Repr

/-- The code, without sign, of m·2^e in the format with unlimited exponents above (one RNE rounding):
exponents are continued past the largest, so a code above `maxC` is out of range. -/
def FSpec.mag (f : FSpec) (m : Nat) (e : Int) (st : Bool) : Nat × Bool × Bool :=
  if m = 0 then (0, st, true)
  else
    let top := (bitLen m : Int) - 1 + e
    let ex := if top < f.emin then f.emin else top
    let q := ex - f.man
    let (n, inx) :=
      if q < e then (m <<< (e - q).toNat, st) else rneShift m (q - e).toNat st
    let base := (ex - f.emin).toNat * 2 ^ f.man
    (base + n, inx, decide (top < f.emin))

/-- One RNE rounding into a format (R107, R124). A magnitude beyond the largest finite value becomes
infinity where the format has one and `sat` is clear, and the largest finite value otherwise. A
format without NaN takes its largest code for one: no operation of the manual gives it a NaN. -/
def FSpec.round (f : FSpec) (v : FV) (sat : Bool) (st : Bool := false) : Rnd :=
  match v with
  | .nan => ⟨f.nanC.getD f.maxC, false, false, false⟩
  | .inf n =>
    let s := if n then f.sgn else 0
    match f.infC with
    | some i => if sat then ⟨s + f.maxC, true, false, true⟩ else ⟨s + i, false, false, false⟩
    | none => ⟨s + f.maxC, true, false, true⟩
  | .fin n m e =>
    let s := if n then f.sgn else 0
    let (c, inx, tiny) := f.mag m e st
    if c > f.maxC then
      match f.infC with
      | some i => if sat then ⟨s + f.maxC, true, false, true⟩ else ⟨s + i, true, false, true⟩
      | none => ⟨s + f.maxC, true, false, true⟩
    else
      let tinyAfter := decide (c < 2 ^ f.man)
      let u := inx && (if Config.freeTinyBefore then tiny else tinyAfter)
      ⟨s + c, false, u, inx⟩

/-- Rounding to fp32, the working format of most engines. -/
def r32 (v : FV) : Nat := (fp32.round v false).code
def v32 (c : Nat) : FV := fp32.val c
def vbf (c : Nat) : FV := bf16.val c
def rbf (v : FV) : Nat := (bf16.round v false).code

/-- fp32 arithmetic on codes, one RNE rounding each. -/
def fadd (a b : Nat) : Nat := r32 ((v32 a).add (v32 b))
def fsub (a b : Nat) : Nat := r32 ((v32 a).sub (v32 b))
def fmul (a b : Nat) : Nat := r32 ((v32 a).mul (v32 b))
def ffma (a b c : Nat) : Nat := r32 (((v32 a).mul (v32 b)).add (v32 c))
def fneg (a : Nat) : Nat := if a % 2 ^ 32 < 2 ^ 31 then a + 2 ^ 31 else a - 2 ^ 31

/-- The quotient of finite values to 100 bits, with what is left off. -/
def divFV (a b : FV) : FV × Bool :=
  match a, b with
  | .nan, _ => (.nan, false)
  | _, .nan => (.nan, false)
  | .inf _, .inf _ => (.nan, false)
  | .inf n, .fin k _ _ => (.inf (n != k), false)
  | .fin n _ _, .inf k => (.fin (n != k) 0 0, false)
  | .fin n m e, .fin k d g =>
    if d = 0 then (if m = 0 then .nan else .inf (n != k), false)
    else
      let w := (m <<< 600) / d
      (.fin (n != k) w (e - g - 600), (m <<< 600) % d != 0)

def fdiv (a b : Nat) : Nat :=
  let (q, st) := divFV (v32 a) (v32 b)
  (fp32.round q false st).code

/-- Signed value of an `n`-bit two's complement code. -/
def sInt (n c : Nat) : Int := if c % 2 ^ n < 2 ^ (n - 1) then (c % 2 ^ n : Nat) else ((c % 2 ^ n : Nat) : Int) - 2 ^ n

/-- The `n`-bit code of an integer, wrapping. -/
def toCode (n : Nat) (i : Int) : Nat := (i % 2 ^ n).toNat

/-- An integer brought into `n` bits, and whether it was outside. -/
def satInt (n : Nat) (i : Int) : Int × Bool :=
  let hi : Int := 2 ^ (n - 1) - 1
  let lo : Int := -2 ^ (n - 1)
  if i > hi then (hi, true) else if i < lo then (lo, true) else (i, false)

/-- A finite value as an integer, rounded to nearest even or toward zero, and whether inexact. -/
def FV.toInt (v : FV) (rtz : Bool) : Int × Bool :=
  match v with
  | .fin n m e =>
    let (q, inx) :=
      if 0 ≤ e then (m <<< e.toNat, false)
      else if rtz then (m >>> (-e).toNat, decide (m % 2 ^ (-e).toNat ≠ 0))
      else rneShift m (-e).toNat false
    (if n then -(q : Int) else q, inx)
  | _ => (0, false)

/-- fp32 value of an integer, one RNE rounding. -/
def intTo32 (i : Int) : Nat := r32 (FV.ofInt i 0)

/-- The unit of XSum, 2^-149 (Table 3.1). -/
def xsUnit : Int := -149

def xsZero : XSum := ⟨0, false, false, false, true⟩

/-- An exact value as an exact sum of one term; `st` is lost only below the unit, where no value
that the manual puts into such a sum lies. -/
def xsOf (v : FV) : XSum :=
  match v with
  | .nan => ⟨0, false, false, true, false⟩
  | .inf n => ⟨0, !n, n, false, false⟩
  | .fin n m e =>
    ⟨if xsUnit ≤ e then FV.at (.fin n m e) xsUnit
     else if n then -((m >>> (xsUnit - e).toNat : Nat) : Int) else ((m >>> (xsUnit - e).toNat : Nat) : Int),
     false, false, false, n && m == 0⟩

/-- Exact addition of sums (R52): the flags are ored, and −0 stays only where both are −0. -/
def xsAdd (a b : XSum) : XSum :=
  ⟨a.m + b.m, a.pinf || b.pinf, a.ninf || b.ninf, a.nan || b.nan, a.neg0 && b.neg0⟩

/-- The value of an exact sum. -/
def xsVal (x : XSum) : FV :=
  if x.nan || (x.pinf && x.ninf) then .nan
  else if x.pinf then .inf false
  else if x.ninf then .inf true
  else if x.m = 0 then .fin x.neg0 0 0
  else FV.ofInt x.m xsUnit

def sumXS : List XSum → XSum
  | [] => xsZero
  | x :: xs => xsAdd x (sumXS xs)

end Sys2Proof.Machine
end

