-- ==== Sys2Proof/Machine/RegMap.lean ====
section
/-! DEFINITION. The register map (Tables 20.1 to 20.6 and the register tables of every chapter):
for a BAR0 byte address, the register's reset value, who may write it and its fields with their
access codes (R5, R341) and the range each is checked against (R295). -/

namespace Sys2Proof.Machine

/-- The access codes of Table 0.2. -/
inductive Acc where
  | ro | rw | rwl | w1c | wo
deriving DecidableEq, Repr

/-- What a register table says about values outside a field's range (R295, R163): any value; brought
to the nearer bound; fails validation outside the bounds; fails at one value; an fp32 value brought
to the nearer bound, a NaN to the reset value. -/
inductive Chk where
  | any
  | clamp (lo hi : Nat)
  | within (lo hi : Nat)
  | notVal (v : Nat)
  | fp (lo hi : Nat)
deriving DecidableEq, Repr

structure Fld where
  lsb   : Nat
  width : Nat
  acc   : Acc
  chk   : Chk
deriving DecidableEq, Repr

/-- Who may write (R341): the steward; the domain through its own copy; domain `d` only, in its own
view of window `d`; the owner of cell `c`; an escapement's four words, in its range. -/
inductive Mark where
  | shared
  | priv
  | win (d : Nat)
  | owner (c : Nat)
  | esc
deriving DecidableEq, Repr

structure RegInfo where
  reset : Nat
  mark  : Mark
  flds  : List Fld
deriving DecidableEq, Repr

/-- `off` inside an array of `n` elements at `base`, `stride` bytes apart: element and byte in it. -/
def inArr (off base stride n : Nat) : Option (Nat × Nat) :=
  if base ≤ off ∧ off < base + stride * n then some ((off - base) / stride, (off - base) % stride)
  else none

def ro (l w : Nat) : Fld := ⟨l, w, .ro, .any⟩
def rw (l w : Nat) : Fld := ⟨l, w, .rw, .any⟩
def rwl (l w : Nat) : Fld := ⟨l, w, .rwl, .any⟩
def rwlC (l w lo hi : Nat) : Fld := ⟨l, w, .rwl, .clamp lo hi⟩
def rwlV (l w lo hi : Nat) : Fld := ⟨l, w, .rwl, .within lo hi⟩
def wo (l w : Nat) : Fld := ⟨l, w, .wo, .any⟩

/-- A shared register with the given fields. -/
def sh (reset : Nat) (fs : List Fld) : Option RegInfo := some ⟨reset, .shared, fs⟩

/-- A shared register every bit of which is RO. -/
def shRo (reset : Nat) : Option RegInfo := sh reset [ro 0 32]

/-- A shared register that is one RWL field of 32 bits. -/
def shRwl (reset : Nat) : Option RegInfo := sh reset [rwl 0 32]

/-- A high address word whose SPACE must be 0b00 (R16). -/
def shHi : Option RegInfo := sh 0 [⟨0, 32, .rwl, .within 0 0x3FFFFFFF⟩]

/-- BASE_LO, BASE_HI and SIZE of a 64 KiB aligned region. -/
def shLo16 : Option RegInfo := sh 0 [rwl 16 16]

def glbReg (o : Nat) : Option RegInfo :=
  if o = 0 then shRo 0xC801
  else if o = 4 ∨ o = 8 ∨ o = 12 ∨ o = 0x10 ∨ o = 0x20 ∨ o = 0x24 then shRo 0
  else none

def clbReg (o : Nat) : Option RegInfo :=
  if o = 0 then sh 0 [wo 0 2]
  else if o = 4 then shRo 0
  else if o = 8 then sh 0x3E8 [rwlC 0 16 1 65535, rw 16 8]
  else if o = 0x10 then sh 0 [rw 0 1, rw 6 26]
  else if o = 0x14 ∨ o = 0x18 then sh 0 [rw 0 32]
  else if o = 0x1C then sh 0 [wo 0 1]
  else if o = 0x20 ∨ o = 0x24 ∨ o = 0x28 ∨ o = 0x40 ∨ o = 0x48 then shRo 0
  else if o = 0x44 then sh 0 [rw 0 32]
  else if o = 0x4C then some ⟨0, .priv, [rw 0 1]⟩
  else match inArr o 0x1000 32 512 with
    | some _ => shRo 0
    | none => none

/-- HDM_RING[r] (eight words). -/
def ringReg (d w : Nat) : Option RegInfo :=
  let m := Mark.win d
  if w = 0 ∨ w = 2 then some ⟨0, m, [rw 6 26]⟩
  else if w = 1 ∨ w = 3 then some ⟨0, m, [rw 0 32]⟩
  else if w = 4 then some ⟨0, m, [rw 0 1, ⟨1, 5, .rw, .clamp 6 16⟩, rw 8 8]⟩
  else if w = 5 then some ⟨0, m, [rw 0 32]⟩
  else some ⟨0, m, [ro 0 32]⟩

def hdmReg (d o : Nat) : Option RegInfo :=
  if o = 0 then shRo 0
  else if o = 4 then sh 1 [rwl 0 1, rwl 1 1]
  else if o = 8 then shRwl 0
  else if 0x10 ≤ o ∧ o < 0x20 then sh 0 [rwl 0 10, rwl 10 10]
  else if o = 0x20 then sh 0xFFFF [rwl 0 16, rwl 16 16]
  else if o = 0x24 then sh 0xFFF [rwl 0 12, rwl 16 12]
  else if 0x30 ≤ o ∧ o < 0x50 then sh 0x404000 [rwlC 0 7 0 64, rwlC 8 7 0 64, rwlC 16 7 0 64]
  else if o = 0x50 then sh 0 [rwl 0 1, ro 8 1]
  else if o = 0x54 then sh 0 [rwl 0 16, rwl 16 16]
  else if o = 0x60 then some ⟨0, .win d, [rw 0 32]⟩
  else if o = 0x64 then some ⟨0, .win d, [rw 0 16, rw 16 1]⟩
  else if 0x80 ≤ o ∧ o < 0x90 then shRo 0
  else match inArr o 0x1000 32 64 with
    | some (_, b) => ringReg d (b / 4)
    | none => none

def kxReg (o : Nat) : Option RegInfo :=
  if o = 0 then some ⟨0, .priv, [ro 0 1, rw 1 5, rw 6 4, rw 16 8]⟩
  else if o = 4 then some ⟨0, .priv, [⟨0, 4, .rw, .clamp 5 12⟩]⟩
  else if o = 8 then some ⟨0, .priv, [rw 5 27]⟩
  else if o = 0x10 then some ⟨0, .priv, [rw 4 28]⟩
  else if o = 0xC ∨ o = 0x14 ∨ o = 0x18 then some ⟨0, .priv, [rw 0 32]⟩
  else if o = 0x1C then some ⟨0, .priv, [ro 0 32]⟩
  else none

def smpReg (o : Nat) : Option RegInfo :=
  if o = 0 then sh 1 [rwl 0 1]
  else if o = 8 then sh 0x00C800FE [rwlC 0 8 1 254, rwlC 16 16 1 65535]
  else if o = 4 ∨ o = 0x10 ∨ o = 0x14 ∨ o = 0x18 then shRo 0
  else match inArr o 0x400 8 64 with
    | some (_, b) => if b = 0 then sh 0 [rwl 0 1, rwl 6 26] else shHi
    | none => match inArr o 0x1000 8 16 with
      | some _ => some ⟨0, .priv, [rw 0 32]⟩
      | none => none

def gthReg (o : Nat) : Option RegInfo :=
  if o = 0 then sh 1 [rwl 0 1]
  else if o = 8 then sh 0x32 [rwlC 0 16 1 65535]
  else if o = 0xC then sh 0x00C800FE [rwlC 0 8 1 254, rwlC 16 16 1 65535]
  else if o = 4 ∨ (0x10 ≤ o ∧ o < 0x28) then shRo 0
  else none

def sacReg (o : Nat) : Option RegInfo :=
  if o = 0 then sh 1 [rwl 0 1]
  else if o = 4 then sh 0x100 [rwlC 0 16 1 65535]
  else if o = 8 ∨ o = 0x10 ∨ o = 0x14 ∨ o = 0x18 then shRo 0
  else match inArr o 0x100 16 16 with
    | some (_, b) =>
      if b = 0 then sh 0 [rwl 0 1, rwl 1 2]
      else if b = 4 then shLo16
      else if b = 8 then shHi
      else sh 0 [rwl 0 16]
    | none => match inArr o 0x200 4 16 with
      | some _ => shRo 0
      | none => none

def tblReg (o : Nat) : Option RegInfo :=
  if o = 0 then sh 3 [rwl 0 1, rwl 1 1]
  else if o = 4 then sh 0x00400810 [rwl 0 8, rwlC 8 8 1 255, rwlC 16 16 1 65535]
  else if o = 8 then sh 0x07D003E8 [rwlC 0 16 1 65535, rwlC 16 16 1 65535]
  else if o = 0x10 then shLo16
  else if o = 0x14 then shHi
  else if o = 0x18 then sh 0 [rwl 0 16]
  else if 0x20 ≤ o ∧ o < 0x3C then shRo 0
  else match inArr o 0x10000 64 4096 with
    | some _ => shRo 0
    | none => none

def celReg (c o : Nat) : Option RegInfo :=
  if o = 0 then sh 3 [rwl 0 1, rwl 1 1]
  else if o = 8 then some ⟨0x180, .owner c, [⟨0, 11, .rw, .clamp 0 960⟩]⟩
  else if o = 0x100 then some ⟨0, .owner c, [⟨0, 6, .w1c, .any⟩]⟩
  else if o = 4 ∨ (0x10 ≤ o ∧ o < 0x28) then shRo 0
  else if o = 0x104 ∨ o = 0x108 ∨ o = 0x110 ∨ o = 0x114 then shRo 0
  else none

def bwdReg (o : Nat) : Option RegInfo :=
  if o = 0 then sh 1 [rwl 0 1]
  else if o = 4 ∨ (0x20 ≤ o ∧ o < 0x30) then shRo 0
  else if o = 0x10 then shLo16
  else if o = 0x14 then shHi
  else if o = 0x18 then sh 0 [rwl 0 16]
  else match inArr o 0x100 16 8 with
    | some (_, b) =>
      if b = 0 then sh 0 [rwl 0 1, rwl 1 2, ro 8 1]
      else if b = 4 then shLo16
      else if b = 8 then shHi
      else sh 0 [rwl 0 16]
    | none => match inArr o 0x2000 4 1024 with
      | some _ => shRo 0
      | none => match inArr o 0x4000 16 1024 with
        | some (_, b) =>
          if b = 0 then sh 0 [rwl 0 24, rwl 24 1, rwl 25 2]
          else if b = 4 then sh 0 [rwlV 0 25 0 16777216]
          else shRwl 0
        | none => none

/-- 1 - 2^-24, 2^-126 and +infinity as fp32 codes. -/
def fpTop : Nat := 0x3F7FFFFF
def fpTiny : Nat := 0x00800000
def fpInf : Nat := 0x7F800000

def shFp (reset lo hi : Nat) : Option RegInfo := sh reset [⟨0, 32, .rwl, .fp lo hi⟩]

def updReg (o : Nat) : Option RegInfo :=
  if o = 0 then sh 1 [rwl 0 1]
  else if o = 4 ∨ (0x10 ≤ o ∧ o < 0x20) then shRo 0
  else match inArr o 0x100 32 16 with
    | some (_, b) =>
      if b = 0 then shFp 0x3F666666 0 fpTop
      else if b = 4 then shFp 0x3F7FBE77 0 fpTop
      else if b = 8 then shFp 0x322BCC77 fpTiny fpInf
      else if b = 12 then shFp 0x3F800000 0 fpInf
      else if b = 16 then sh 4 [rwl 0 1, rwl 1 1, rwl 2 1]
      else none
    | none => none

def schReg (o : Nat) : Option RegInfo :=
  if o = 0 then sh 1 [rwl 0 1]
  else match inArr o 0x100 64 16 with
    | some (_, b) =>
      if b = 0 then sh 0x100 [rwl 0 1, rwl 1 2, rwl 3 1, rwlV 4 3 0 4, rwl 7 1, rwlC 8 4 1 15]
      else if b = 12 then sh 1 [rwlC 0 32 1 (2 ^ 32 - 1)]
      else if b = 20 then shFp 0 0 fpInf
      else if b = 24 then shFp 0 0 fpInf
      else if b = 28 then shFp 0x3C23D70A fpTiny 0x3F800000
      else if b = 32 then shFp 0 0 fpInf
      else if b < 36 then shRwl 0
      else if b < 48 then shRo 0
      else none
    | none => none

/-- The reset values of LPE_RULE0, 2 and 3 of slots 0 to 3 (Table 9.3). -/
def ruleReset (n w : Nat) : Nat :=
  match n, w with
  | 0, 0 => 0x00010207 | 0, 2 => 0x26AC | 0, 3 => 0x200
  | 1, 0 => 0x0002029F | 1, 2 => 1 | 1, 3 => 1
  | 2, 0 => 0x0003007F | 2, 2 => 0x64 | 2, 3 => 0x10
  | 3, 0 => 0x0004003F | 3, 2 => 0x3E8 | 3, 3 => 0x40
  | _, _ => 0

def lpeReg (o : Nat) : Option RegInfo :=
  if o = 0 then sh 1 [rwl 0 1]
  else if o = 4 ∨ o = 0x14 then shRo 0
  else if o = 8 then shLo16
  else if o = 0xC then shHi
  else if o = 0x10 then sh 0 [rwlC 0 7 0 64]
  else if o = 0x20 ∨ o = 0x28 then some ⟨0, .priv, [ro 0 32]⟩
  else if o = 0x24 then some ⟨0, .priv, [rw 0 32]⟩
  else if o = 0x2C then some ⟨0, .priv, [rw 0 8]⟩
  else match inArr o 0x400 16 32 with
    | some (n, b) =>
      let r := ruleReset n (b / 4)
      if b = 0 then sh r [rwl 0 1, rwl 1 1, rwl 2 3, rwl 5 3, rwl 8 1, rwl 9 1, rwl 16 8]
      else if b = 4 then sh 0 [rwl 0 13]
      else if b = 8 then shRwl r
      else sh r [rwl 0 16]
    | none => match inArr o 0x1000 16 256 with
      | some _ => some ⟨0, .priv, [ro 0 32]⟩
      | none => match inArr o 0x10000 8 8192 with
        | some (_, b) =>
          if b = 0 then sh 0x00900100 [rwl 0 1, rwl 1 2, rwlV 3 3 0 5, rwlC 6 3 0 4, rwl 16 8]
          else shRwl 0
        | none => none

def memReg (s o : Nat) : Option RegInfo :=
  if o = 0 ∨ o = 4 then shRo 0
  else if (0x100 ≤ o ∧ o < 0x180) ∨ (0x200 ≤ o ∧ o < 0x280) ∨ (0x300 ≤ o ∧ o < 0x380)
      ∨ (0x400 ≤ o ∧ o < 0x480) then shRo 0
  else if s ≠ 0 then none
  else if o = 0x3000 then sh 1 [rwl 0 1, rwl 1 1]
  else if o = 0x3004 then sh 0x18 [rwlC 0 8 1 255]
  else if o = 0x3008 then shRo 0
  else if 0x3010 ≤ o ∧ o < 0x3030 then shRwl 0
  else if o = 0x3030 then sh 0xF0 [rwlC 0 9 0 256]
  else if o = 0x3040 then some ⟨0, .priv, [rw 0 10]⟩
  else if o = 0x3044 then some ⟨0, .priv, [ro 0 32]⟩
  else if o = 0x3050 ∨ o = 0x3054 ∨ o = 0x3058 then shRo 0
  else none

def fabReg (p o : Nat) : Option RegInfo :=
  if o = 0 then
    sh (if p < 6 then 1 + 0x40 * p else 2)
      [rwlV 0 2 0 2, rwl 2 1, rwlV 3 2 0 2, rwl 5 1, rwlV 6 3 0 5, rwlV 9 2 0 2, rwlC 11 2 0 2]
  else if o = 4 then shRo 0x11
  else if o = 8 ∨ o = 0xC ∨ o = 0x14 then shRo 0
  else if o = 0x10 then sh 0 [rwl 0 18, rwl 18 3, rwl 21 1]
  else if o = 0x20 then if p < 6 then shRo 0 else shRwl 0
  else if o = 0x24 then if p < 6 then shRo 0 else sh 0 [rwl 0 16]
  else if o = 0x28 then shRwl 0
  else if o = 0x2C then sh 0 [rwl 0 16]
  else if o = 0x30 then sh 0x6F6088B5 [rwlV 0 16 0x600 65535, ⟨16, 16, .rwl, .notVal 4791⟩]
  else if o = 0x34 ∨ (0x40 ≤ o ∧ o < 0x50) then shRwl 0
  else if o = 0x50 then sh 0x1000 [rwl 0 12, rwl 12 1]
  else if o = 0x54 then sh 0x643 [rwl 0 3, rwl 4 3, rwl 8 3]
  else if o = 0x58 then sh 0x0200C058 [rwl 0 8, rwlV 8 10 0 512, rwl 18 10]
  else if o = 0x5C then sh 0x64 [rwlC 0 16 1 65535]
  else if o = 0x60 then sh 1 [rwl 0 1]
  else if 0x100 ≤ o ∧ o < 0x130 then shRo 0
  else if 0x200 ≤ o ∧ o < 0x240 then shRo 0
  else none

def rteReg (o : Nat) : Option RegInfo :=
  if o = 0 then sh 0 [rwlV 0 6 0 31, rwlV 6 6 0 31, rwlV 12 6 0 15]
  else if o = 4 then sh 0 [rwl 0 6, rwl 6 6, rwl 12 6]
  else if o = 8 then sh 4 [rwl 0 1, rwl 1 1, ro 2 1]
  else if o = 0xC then sh 0x08140064 [rwlC 0 16 1 65535, rwlC 16 8 1 255, rwlC 24 4 1 15]
  else if o = 0x10 then shRo 0
  else if o = 0x20 ∨ o = 0x24 then sh 0x1F3F [rwl 0 6, rwl 8 5]
  else if 0x200 ≤ o ∧ o < 0x228 then shRo 0
  else if o = 0x300 then shRo 0
  else if o = 0x304 then sh 0 [wo 0 1]
  else match inArr o 0x100 4 24 with
    | some (v, _) => sh (if v % 3 = 0 then 0x190 else 0x38) [rwlV 0 12 2 4095]
    | none => match inArr o 0x400 8 64 with
      | some _ => shRo 0
      | none => none

def colReg (o : Nat) : Option RegInfo :=
  if o = 0 then sh 1 [rwl 0 1]
  else if o = 4 ∨ (0x10 ≤ o ∧ o < 0x28) then shRo 0
  else match inArr o 0x100 32 4 with
    | some (_, b) =>
      if b = 0 then sh 0 [rwl 0 1, rwl 1 2, rwl 3 3, rwlV 6 3 0 5, rwl 9 1, rwl 10 1]
      else if b = 4 then shRwl 0
      else if b = 8 then sh 0x3E8 [rwlC 0 16 1 65535]
      else if b = 12 then sh 0 [rwl 6 26]
      else if b = 16 then shHi
      else if b = 20 then sh 0 [rwl 0 17]
      else shRo 0
    | none => none

def svcReg (o : Nat) : Option RegInfo :=
  if o = 0 then sh 0 [rwl 0 1, rwl 1 1, rwl 2 2]
  else if o = 4 then sh 0x00070032 [rwlC 0 16 1 65535, rwlC 16 4 1 15]
  else if o = 8 ∨ (0x10 ≤ o ∧ o < 0x30) then shRo 0
  else match inArr o 0x1000 32 256 with
    | some (_, b) =>
      if b = 0 then sh 0 [rwl 0 1, rwl 1 1, rwl 2 1, rwlV 3 2 0 2, rwl 5 8, rwl 13 8, ro 21 2, ro 23 4]
      else if b = 4 ∨ b = 8 then sh 0 [rwl 0 18]
      else if b = 12 then sh 0 [rwl 0 16, rwl 16 16]
      else shRwl 0
    | none => match inArr o 0x3000 16 256 with
      | some (_, b) =>
        if b = 0 then sh 0 [rwl 0 1, rwl 1 1, rwl 2 3, rwl 8 24]
        else if b = 4 then sh 0 [rwl 0 12, rwl 12 20]
        else shRwl 0
      | none => match inArr o 0x20000 32 4096 with
        | some (_, b) =>
          if b = 0 then sh 0 [rw 0 1, rw 1 1, rw 2 1, rw 3 2, rw 5 8, ro 13 2, rw 15 1]
          else if b = 4 ∨ b = 8 then sh 0 [rw 0 24]
          else if b = 12 then sh 0 [rw 0 24, rw 24 3, rw 27 5]
          else sh 0 [rw 0 32]
        | none => none

def clkReg (o : Nat) : Option RegInfo :=
  if o = 4 then sh 2 [rwlC 0 2 0 2]
  else if o = 0x20 then sh 0x40000 [rwl 0 18, rwl 18 1]
  else if o = 0 ∨ o = 8 ∨ (0x10 ≤ o ∧ o < 0x20) ∨ o = 0x24 ∨ o = 0x28 then shRo 0
  else none

def rstReg (o : Nat) : Option RegInfo :=
  if o = 0 then shRo 0
  else if o = 0x10 then sh 0 [wo 0 32]
  else if o = 0x14 then sh 0 [wo 0 8]
  else if o = 0x18 then sh 0 [wo 0 4]
  else if o = 0x1C then sh 0 [wo 0 1, wo 1 1]
  else if 0x20 ≤ o ∧ o < 0x40 then sh 0 [wo 0 32]
  else if 0x80 ≤ o ∧ o < 0x8C then shRo 0
  else if 0x100 ≤ o ∧ o < 0x22C then shRo 0
  else none

def fltReg (o : Nat) : Option RegInfo :=
  if o = 0 then sh 1 [rwl 0 1]
  else if o = 4 then sh 0 [⟨1, 15, .w1c, .any⟩]
  else if o = 8 then sh 0x16D6 [rwl 1 15]
  else if o = 0xC then sh 0x1000 [rwlC 0 16 1 65535]
  else if o = 0x10 ∨ o = 0x14 ∨ o = 0x30 ∨ o = 0x34 then shRo 0
  else if o = 0x20 then some ⟨0, .priv, [rw 0 32]⟩
  else if o = 0x24 then some ⟨0, .priv, [ro 0 32]⟩
  else if o = 0x28 then some ⟨0, .priv, [rw 1 15, rw 16 8]⟩
  else if (0x100 ≤ o ∧ o < 0x130) ∨ (0x180 ≤ o ∧ o < 0x1B0) then shRo 0
  else if 0x10000 ≤ o ∧ o < 0x30000 then shRo 0
  else none

def crnReg (o : Nat) : Option RegInfo :=
  if o = 4 then sh 0 [wo 0 1, rw 8 8]
  else if o = 0x10 then sh 0x66 [rwlC 0 8 85 105]
  else if o = 0x20 then sh 0 [wo 0 8]
  else if 0x24 ≤ o ∧ o < 0x34 then sh 0 [rw 0 32]
  else if o = 0 ∨ o = 8 ∨ o = 0xC ∨ o = 0x14 ∨ o = 0x34 then shRo 0
  else if 0x100 ≤ o ∧ o < 0x280 then shRo 0
  else none

/-- Block bases of Table 20.1. -/
def GLB : Nat := 0x0
def CLB : Nat := 0x10000
def HDM : Nat := 0x20000
def KX  : Nat := 0x30000
def ESC : Nat := 0x100000
def SMP : Nat := 0x200000
def GTH : Nat := 0x210000
def SAC : Nat := 0x220000
def TBL : Nat := 0x230000
def CEL : Nat := 0x300000
def BWD : Nat := 0x340000
def UPD : Nat := 0x400000
def SCH : Nat := 0x410000
def LPE : Nat := 0x420000
def MEM : Nat := 0x500000
def FAB : Nat := 0x600000
def RTE : Nat := 0x700000
def COL : Nat := 0x710000
def SVC : Nat := 0x720000
def CLK : Nat := 0x800000
def RST : Nat := 0x810000
def FLT : Nat := 0x820000
def CRN : Nat := 0x900000

/-- The register at a BAR0 byte address, in the normal view (R338). -/
def regInfo (a : Nat) : Option RegInfo :=
  if a % 4 ≠ 0 then none
  else if a < 0x10000 then glbReg a
  else if a < 0x20000 then clbReg (a - CLB)
  else if a < 0x30000 then hdmReg ((a - HDM) / 0x4000) ((a - HDM) % 0x4000)
  else if a < 0x40000 then kxReg (a - KX)
  else if a < 0x100000 then none
  else if a < 0x200000 then
    if a % 16 = 12 then some ⟨0, .esc, [wo 0 16, wo 16 2, wo 18 14]⟩ else some ⟨0, .esc, [ro 0 32]⟩
  else if a < 0x210000 then smpReg (a - SMP)
  else if a < 0x220000 then gthReg (a - GTH)
  else if a < 0x230000 then sacReg (a - SAC)
  else if a < 0x280000 then tblReg (a - TBL)
  else if a < 0x300000 then none
  else if a < 0x340000 then celReg ((a - CEL) / 0x2000) ((a - CEL) % 0x2000)
  else if a < 0x350000 then bwdReg (a - BWD)
  else if a < 0x400000 then none
  else if a < 0x410000 then updReg (a - UPD)
  else if a < 0x420000 then schReg (a - SCH)
  else if a < 0x440000 then lpeReg (a - LPE)
  else if a < 0x500000 then none
  else if a < 0x520000 then memReg ((a - MEM) / 0x4000) ((a - MEM) % 0x4000)
  else if a < 0x600000 then none
  else if a < 0x640000 then fabReg ((a - FAB) / 0x8000) ((a - FAB) % 0x8000)
  else if a < 0x700000 then none
  else if a < 0x710000 then rteReg (a - RTE)
  else if a < 0x720000 then colReg (a - COL)
  else if a < 0x760000 then svcReg (a - SVC)
  else if a < 0x800000 then none
  else if a < 0x810000 then clkReg (a - CLK)
  else if a < 0x820000 then rstReg (a - RST)
  else if a < 0x850000 then fltReg (a - FLT)
  else if a < 0x900000 then none
  else if a < 0x910000 then crnReg (a - CRN)
  else none

/-- The value a register has after a cold reset; 0 where the address names none (R342). -/
def resetOf (a : Nat) : Nat :=
  match regInfo a with
  | some r => r.reset
  | none => 0

/-- The key of a private register's copy in domain `d`. -/
def privKey (d a : Nat) : Nat := d * 0x4000000 + a

end Sys2Proof.Machine
end

