-- ==== Sys2Proof/Machine/State.lean ====
section
/-! DEFINITION. The state of one KC8-H576 as plain data: its register file, memories, escapements,
tables, operations and the hidden state of every block, and the machine right after a cold reset. -/

namespace Sys2Proof.Machine

/-- No command of this block ends in a fault: the manual describes an outcome, a counted discard or
an undefined value (a free value of `Config`) for every one. Nobody raises a value of this type. -/
inductive Fault where
deriving DecidableEq, Repr

/-- Why a command has no meaning. -/
inductive Refusal where
  /-- The dispatch raises it for a command whose meaning is not written yet. Safe. -/
  | notModelled (mnemonic : String)
deriving DecidableEq, Repr

/-- A span of addresses whose bytes the manual calls undefined since the event `nonce`. -/
structure Span where
  lo    : Nat
  len   : Nat
  nonce : Nat
deriving DecidableEq, Repr

/-- A memory: the bytes written, at strictly rising addresses, over the undefined spans (newest
first); everything else reads 0x00 (log entry 3). -/
structure Mem where
  cells : List Host.Cell
  undef : List Span
deriving DecidableEq, Repr

/-- The sector tags and codes of HBM (R181, R182): `flips` are the sectors whose POISON tag differs
from their channel's default, `chPoison` the channels written with POISON throughout (R314), `sym`
the sectors whose stored code word has bad symbols, with their number, `od` those in which the stack's on-die ECC has an error
to correct. -/
structure Ecc where
  flips    : List Nat
  chPoison : BitVec 256
  sym      : List (Nat × Nat)
  od       : List Nat
deriving DecidableEq, Repr

/-- Escapement STATE (Table 15.6). -/
inductive EscState where
  | idle | armed | fired | faulted | aborted
deriving DecidableEq, Repr

/-- One escapement (Table 15.6); OWNER follows from HDM_ESC_RANGE (R273). -/
structure Esc where
  count  : Word
  target : Word
  gen    : BitVec 16
  st     : EscState
  notify : Bool
  vec    : Byte
deriving DecidableEq, Repr

/-- A table descriptor (Table 4.1). `inactNew`: the inactive base has been written since the last
flip (R88). `releasing`: a RELEASE has been admitted (R89). `bad`: its SRAM word is lost (Table 18.2). `sr`: its state
entries hold no remainders, as BF16_SR lays them out (R157; log entry 126). -/
structure TDesc where
  active   : Bool
  migMode  : Nat
  fmt      : Nat
  rule     : Nat
  plink    : Bool
  group    : Nat
  dom      : Nat
  ver      : Word
  baseA    : Nat
  baseB    : Nat
  rows     : Nat
  rowBytes : Nat
  drain    : Nat
  stretch  : Nat
  map      : Nat
  state    : Nat
  touch    : Nat
  inactNew : Bool
  releasing : Bool
  bad      : Bool
  sr       : Bool
deriving DecidableEq, Repr

/-- Where an operation stands: waiting on WAIT_ESC, waiting for an engine entry, admitted and to be
run, started and waiting for replies or events, waiting for a resource its chapter names, or ended
with its STATUS decided and its record still to be written. -/
inductive OpPhase where
  | waitEsc | waitCap | ready | running | waitRes | decided
deriving DecidableEq, Repr

/-- A hop of a SAMPLE: its targets with their occurrence numbers, and the neighbours (id, weight)
drawn for each target so far. -/
structure HopWork where
  targets : List (Nat × Nat)
  edges   : List (Option (List (Nat × Nat)))
deriving DecidableEq, Repr

/-- A pool or gather under way: the slot and the row of each distinct key, the slot of each index, the
index count of each segment, the maxima (fp32 codes) and exact sums by segment, the rows of a
gather so far, and the transient entries of the scatter accumulator that merge its segments of several pieces, as (hash,
elements) (R63, R74). -/
structure PoolWork where
  uniq  : List (Nat × Nat)
  slots : List Nat
  segs  : List Nat
  maxv  : List (Nat × List Nat)
  sums  : List (Nat × List XSum)
  rowsIn : List (Nat × List Byte)
  rounds : Nat
  merging : List (Nat × Nat)
deriving DecidableEq, Repr

/-- What an UPDATE keeps from its admission to its passes: the finite verdict it has taken (R153: a non-finite gradient was
seen), the learning rate and weight decay it has taken (R161), and what UPDATE operations not ordered with it have written
meanwhile (R154): ranges as (space, address, length), and rows of table t as (16 + t, row, 1). -/
structure UpWork where
  verdict : Option Bool
  sch     : Option (Word × Word)
  race    : List (Nat × Nat × Nat)
deriving DecidableEq, Repr

/-- What an engine keeps for an operation between its steps. `run` holds the (space, address, length)
ranges a cell program has written, newest first, undefined when the run is stopped (R117), and how many of the oldest
it had written when one of its instructions last added to an escapement (R19). Space 64 + 4·c + n stands beside a piece of a
well slot in space n and says that cell c wrote it (R145). -/
inductive OpWork where
  | none
  | sample (hops : List HopWork)
  | pool (w : PoolWork)
  | xfer (left : Nat)
  | run (wrote : List (Nat × Nat × Nat)) (shown : Nat)
  | update (u : UpWork)
deriving DecidableEq, Repr

/-- A piece of an operation's result, held until R278 makes it visible: in HBM (0), a bench (1), the
well (2), the domain's host memory (3) or the answer of a queue pair (4). -/
structure OutPiece where
  space : Nat
  addr  : Nat
  bytes : List Byte
deriving DecidableEq, Repr

/-- One fetched descriptor and everything the chip holds for it until its record is written. `region`
is its result region as (space, address, length): until the record other readers find undefined
content there (R279). `seq` is its place among the requests that have reached the unique-index table, and `uitLeft` how many
rounds are still to be assigned to it, none as long as its list is not read (R57). -/
structure Op where
  ref    : OpRef
  desc   : BitVec 512
  phase  : OpPhase
  t0     : Nat
  delay  : Nat
  delayed : Bool
  eng    : Nat
  step   : Word
  gener  : Bool
  cap    : BitVec 512
  capB   : Nat
  hold   : List (Nat × Bool × Word)
  status : Byte
  admitAs  : Nat
  detail : Word
  detail64 : Option (BitVec 64)
  counts : BitVec 64
  decTs  : Nat
  cache  : List Host.Cell
  out    : List OutPiece
  region : List (Nat × Nat × Nat)
  work   : OpWork
  seq    : Nat
  uitLeft : Option Nat
deriving DecidableEq, Repr

/-- What a request slot waits for (R220, R317). -/
inductive ReqKind where
  | sample (hop : Nat) (pos : List Nat)
  | pool
  | rows
  | contrib
  | readMem (dst : Nat)
  | readCache (src : Nat)
  | write
  | mig
  | rowUpd
  | relay (n : Nat) (q : Packet)
  | roce (q : Nat) (psn : BitVec 24)
  | image (fw : Bool) (off : Nat)
deriving DecidableEq, Repr

/-- A live request slot: its tag, the peer entry it went to (none: into the torus), its operation, the
responder and the incarnation it is known by. A `relay` slot holds a peer's request that goes on into
the torus for it (R258), a `roce` slot a queue pair's packet whose window lies on another chip, an `image` slot a piece of a calibre image's
source, or of a firmware image's. `left` counts the answers it still expects, below 0 where forwarded parts were
answered before the owner said how many there are; `direct` says that the owner has answered (R68). -/
structure Req where
  optag : BitVec 16
  via   : Option Nat
  op    : Option OpRef
  dest  : Coord
  inc   : Option (BitVec 8)
  kind  : ReqKind
  pk    : Packet
  redirects : Nat
  busy  : Bool
  since : Nat
  left  : Int
  direct : Bool
deriving DecidableEq, Repr

/-- Where a packet or frame leaves: into the torus, one hop in a direction, or on through this chip from
the port it came in by, all still to be routed (R218); on a port's link; to a peer entry; or as a frame of Crown's (R205). -/
inductive TxTo where
  | fabric
  | hop (dir : Nat)
  | transit (p : Nat)
  | link (p : Nat) (half : Bool)
  | peer (n : Nat)
  | crown (p : Nat) (half : Bool)
deriving DecidableEq, Repr

/-- The IP header of a frame an open port sends: its version, addresses and ECN field (R207), and of a UDP frame the source port,
where the manual gives one, and the destination port. -/
structure IpHead where
  v6  : Bool
  src : BitVec 128
  dst : BitVec 128
  ecn : BitVec 2
  udp : Option (Option (BitVec 16) × BitVec 16)
deriving DecidableEq, Repr

/-- What stands before a frame's payload (Table 11.3, Table 11.4): MAC addresses as numbers whose lowest byte is sent first,
the EtherType after the tag, the 802.1Q tag as (PCP, VID) when the frame is tagged, and the IP header. -/
structure Eth where
  dmac  : BitVec 48
  smac  : BitVec 48
  etype : BitVec 16
  tag   : Option (BitVec 3 × BitVec 12)
  ip    : Option IpHead
deriving DecidableEq, Repr

/-- Everything the chip sends: Ghedin packets, HELLO with its header, a link control frame with its 102 bytes (R213), and
frames that are no Ghedin packet. -/
inductive TxMsg where
  | packet (pk : Packet)
  | hello (hd : Hdr) (h : HelloRec)
  | lcf (f : Lcf) (b : List Byte)
  | pfc (q : Nat) (quanta : BitVec 16)
  | roceAck (qpn : Nat) (psn : BitVec 24)
  | roceNak (qpn : Nat) (psn : BitVec 24) (code : Nat)
  | roceRnr (qpn : Nat) (psn : BitVec 24)
  | roceRead (qpn : Nat) (psn : BitVec 24) (b : List Byte)
  | roceSend (qpn : Nat) (psn : BitVec 24) (b : List Byte)
  | roceCnp (qpn : Nat)
  | arpReply (dst : BitVec 48)
  | neighAdvert (dst : BitVec 128)
  | echoReply (v6 : Bool) (dst : BitVec 128) (data : List Byte)
deriving DecidableEq, Repr

/-- A packet or frame that leaves, with the Ethernet frame it has on its link (none while it is still to be routed). -/
structure Tx where
  dest  : TxTo
  msg   : TxMsg
  frame : Option Eth
deriving DecidableEq, Repr

/-- Flits of a packet whose head has left on a VC and that still wait for credits there, and where they stand meanwhile: the
receive buffer of a port half and VC, or nowhere in the network when the packet was injected here (R211, R214). -/
structure Owed where
  vc  : Nat
  n   : Nat
  src : Option (Nat × Bool × Nat)
deriving DecidableEq, Repr

/-- A resident scatter-accumulator entry (R74, R75): its key, its bank, its sums, its place in the order of
allocation, the updates of its key so far, the times of those in the last 4,096 CCLK cycles, and whether the key is split. -/
structure SacEnt where
  ctx   : Nat
  table : Nat
  row   : Nat
  bank  : Nat
  sums  : List XSum
  seq   : Nat
  upd   : Nat
  times : List Nat
  split : Bool
  bad   : Bool
deriving DecidableEq, Repr

/-- A spill record in its context's log (R76): segment, byte offset in the segment's chunks, key,
elements and width. -/
structure Spill where
  seg   : Nat
  off   : Nat
  table : Nat
  row   : Nat
  count : Nat
  wide  : Bool
  bad   : Bool
deriving DecidableEq, Repr

/-- A scatter-accumulator context (R71, R73, R76, R97): STATE, its log (the chunks of each segment as
(segment, place, chunk)), its mask of tables, and the tables whose sums are undefined since an acknowledgement was lost. -/
structure SacCtx where
  st     : Nat
  used   : Nat
  spills : List Spill
  segs   : List (Nat × Nat × Nat)
  mask   : List Nat
  lost   : List Nat
deriving DecidableEq, Repr

/-- The sampler's round 0 held in the unique-index table (R57). -/
structure UitHold where
  dom    : Nat
  table  : Nat
  keys   : List Nat
  rounds : Nat
  since  : Nat
deriving DecidableEq, Repr

/-- One cell between its instructions. `kind` of the holder: 0 run, 1 pre-reduction, 2 update, 3 thinning.
`stash`: the stash regions the program has used. `flags`: the 16 local flags by which the sequencers wait on one another; they are
clear at a start and after a reset, and which instruction sets one is the sender's order of instructions (log entry 2). -/
structure CellSt where
  holder  : Option (OpRef × Nat)
  acc     : List XSum
  scalar  : BitVec 64
  need    : Nat
  learning : Bool
  well    : Bool
  stash   : BitVec 8
  waiting : BitVec 4
  resetting : Bool
  flags   : BitVec 16
deriving DecidableEq, Repr

/-- One loupe counter set of a watch for a step (R165 to R167). -/
structure LpeSet where
  watch : Nat
  step  : Word
  cnt   : List Nat
  hist  : List Nat
  late  : Bool
deriving DecidableEq, Repr

/-- A row in the course of a move at its old owner (R95, R97). -/
structure Mig where
  table : Nat
  row   : Nat
  dest  : Coord
  copies : Nat
  dirty : Bool
  reserved : Bool
  op    : Option OpRef
deriving DecidableEq, Repr

/-- One half of a chunk as it passes this chip in a phase (R232, R245): whether the chip's term was
late, the packets dealt with, and what their prefixes have gathered. -/
structure ColHalf where
  phase : Nat
  minus : Bool
  chunk : Nat
  late  : Bool
  got   : List Nat
  pfx   : StitchPfx
deriving DecidableEq, Repr

/-- A reduction of a bucket under way (R235 to R248). `stage` is 0 for a plain bucket, 1 and 2 for the
all-reduces of P and Q; `vecs` the chip's vector by phase, `res` the owner results so far as (phase,
offset, codes), `accs` what the earlier phases' prefixes said, `mats` M, P and Q of a thinned bucket,
`full` the pieces gathered in its present stage; `ended` that the chip's operation has completed while halves it has no term in
still pass (R247). -/
structure ColBk where
  g       : Nat
  b       : Nat
  step    : Word
  op      : Option OpRef
  stage   : Nat
  halves  : List ColHalf
  vecs    : List (Nat × List Nat)
  res     : List (Nat × Nat × List Nat)
  accs    : List (Nat × StitchPfx)
  lateSelf : Bool
  fault   : Bool
  done    : Bool
  mats    : List (List Nat)
  full    : List (Nat × List Byte)
  since   : Nat
  ended   : Bool
deriving DecidableEq, Repr

/-- One direction of one ring a bucket travels. -/
structure ColKey where
  g     : Nat
  b     : Nat
  step  : Word
  phase : Nat
  minus : Bool
deriving DecidableEq, Repr

/-- A stitcher context open for a bucket, with the slots freed and not yet granted again (R238). -/
structure ColCtx where
  key   : ColKey
  freed : Nat
deriving DecidableEq, Repr

/-- An all-gather under way (R249): the bytes received by phase, and the phases sent. `stage` 0 gathers
weights, 1 and 2 the P and Q of a thinned bucket (R248). -/
structure ColAg where
  stage : Nat
  g    : Nat
  b    : Nat
  step : Word
  op   : Option OpRef
  recv : List (Nat × Nat)
  sent : List Nat
  since : Nat
deriving DecidableEq, Repr

/-- A group's verdict in the making (R242): shards written, the bit so far, the axis line it is at, and
the bits received as (line, bit). -/
structure ColVer where
  g    : Nat
  step : Word
  shards : Nat
  bit  : Bool
  line : Nat
  got  : List (Nat × Bool)
deriving DecidableEq, Repr

/-- The link layer of one port half (R196 to R202, R211 to R217, R206). Of an open port: `paused` the
priorities its partner paused, as (priority, end, begin), `queue` the frames held for them, `storm` the priorities whose frames
are discarded, `xoff` the priorities it pauses itself, with the time of the last PFC frame, `fill` the bytes in each priority's
receive buffer. Of a torus port: `owed` the flits that packets on their way out still wait to send, `overrun` a credit overrun met. -/
structure Link where
  aligned  : Bool
  alignTs  : Nat
  attempts : Nat
  downTs   : Nat
  seenRx   : Bool
  helloRx  : Option HelloRec
  lseqTx   : BitVec 16
  lseqRx   : BitVec 16
  nakWait  : Bool
  retry    : List (BitVec 16 × Packet)
  nakSeq   : BitVec 16
  naks     : Nat
  ackTs    : Nat
  sentFl   : List Nat
  credFl   : List (BitVec 16)
  freed    : List (BitVec 16)
  lcfTs    : Nat
  paused   : List (Nat × Nat × Nat)
  storm    : List Nat
  queue    : List (Nat × Tx)
  xoff     : List (Nat × Nat)
  crownTs  : Nat
  crownCnt : Nat
  timeTx   : BitVec 64
  timeRx   : BitVec 64
  timeHops : BitVec 16
  helloTs  : Nat
  timeTs   : Nat
  owed     : List Owed
  overrun  : Bool
  fill     : List Nat
deriving DecidableEq, Repr

/-- A peer packet held until its E2E_ACK (R256). -/
structure HeldPk where
  pk    : Packet
  tries : Nat
  since : Nat
deriving DecidableEq, Repr

/-- A Ghedin peer (R254, R256, R207): `last` is when a valid HELLO last came, `sent` when one was last sent, `rate` the send
rate in ten-thousandths of the port rate. -/
structure Peer where
  hello  : Option HelloRec
  seenRx : Bool
  last   : Nat
  sent   : Nat
  held   : List HeldPk
  dedup  : List (BitVec 16 × BitVec 24 × Nat)
  rate   : Nat
  cutTs  : Nat
  ecnTs  : Nat
  flagDue : Option Nat
deriving DecidableEq, Repr

/-- An answer of a queue pair not yet acknowledged (R264). -/
structure QpAnswer where
  psn   : BitVec 24
  body  : List Byte
  tries : Nat
  since : Nat
deriving DecidableEq, Repr

/-- A queue pair in service (R260 to R264): the message under way, the R_Key and next address of an RDMA WRITE, and the
pool requests in the order they came (index of their operation, and the answer once it is ready). -/
structure Qp where
  part    : List Byte
  wr      : Option (Nat × Nat)
  reqs    : List (Nat × Option (List Byte))
  answers : List QpAnswer
  rate    : Nat
  cutTs   : Nat
  cnpTs   : Option Nat
  unacked : Nat
deriving DecidableEq, Repr

/-- A record of the CLB report log (Table 16.5). -/
structure Rep where
  seq     : Word
  kind    : Nat
  dom     : Nat
  txn     : BitVec 16
  field   : Word
  written : Word
  applied : Word
  section_ : Word
  ts      : Nat
deriving DecidableEq, Repr

/-- The states of Table 16.6. -/
inductive TxnSt where
  | idle | open | checking | quiescing | image
deriving DecidableEq, Repr

/-- What a staged image will put in force at the commit (R293, R294): its tables as (index of the entry, domain,
descriptor image), and the TYPE of each of its sections. -/
structure ImgStage where
  sliceId : BitVec 64
  dims    : Coord
  coord   : Coord
  imageId : BitVec 64
  tables  : List (Nat × Nat × BitVec 512)
  part    : Option (List (Nat × Nat))
  types   : List Nat
  byHost  : Bool
deriving DecidableEq, Repr

/-- Configuration transactions (R298), the cell partition (R290), and the part of an image's source that other
chips have answered (R291). -/
structure Clb where
  st    : TxnSt
  last  : Byte
  id    : BitVec 16
  since : Nat
  img   : Option ImgStage
  log   : List Rep
  part  : List (Nat × Nat)
  buf   : List Host.Cell
deriving DecidableEq, Repr

/-- A fault record (Table 18.4). -/
structure FltRec where
  seq     : Word
  cls     : Nat
  code    : Nat
  unitKind : Nat
  unit    : Nat
  status  : Byte
  dom     : Nat
  opValid : Bool
  chipInc : Byte
  unitInc : Byte
  tag     : Word
  ts      : Nat
  info    : BitVec 64
deriving DecidableEq, Repr

/-- A Crown firmware slot (R333). -/
structure FwSlot where
  version : BitVec 16
  svn     : Byte
  sigOk   : Bool
deriving DecidableEq, Repr

/-- An ageing measurement under way (R313, R332): the bin and margin step requested, the points that would pass, the largest
slowdown, whether the request has been repeated, its time, and whether a mailbox command asked for it. -/
structure Ageing where
  bin    : Nat
  m      : Nat
  pass   : List (Nat × Nat)
  slow   : Byte
  again  : Bool
  since  : Nat
  byMbx  : Bool
deriving DecidableEq, Repr

/-- Crown and its persistent store (R315, R325, R328 to R337, R289, R186). `fresh` counts the newest records of the log
not yet in flash; `active` and `pendingFw` are the slot (B) and PENDING in flash; `mbx` is the mailbox command begun, with
whether Crown was away then; `fwBuf` the pieces of a firmware image read from another chip. `bootTs`, `sensorTs`, `thrTs`,
`passTs` and `sramTs` are when Crown last tried to start, read its sensors, adjusted the throttle, and when the last patrol pass
and the last static RAM sweep ended; `passCe` is MEM_CH_CE at that pass's end (R185). -/
structure Crown where
  fwA     : FwSlot
  fwB     : FwSlot
  minSvn  : Byte
  keys    : List (Option (Nat × Nat))
  log     : List FltRec
  fresh   : Nat
  held    : List FltRec
  chipInc : Byte
  mapout  : List Word
  ageing  : Option Ageing
  active  : Bool
  pendingFw : Bool
  mbx     : Option (Nat × Bool)
  fwBuf   : List Host.Cell
  bootTs  : Nat
  trip    : Bool
  pwrgd   : Bool
  sensorTs : Nat
  thrTs   : Nat
  passTs  : Nat
  passCe  : List (Nat × Nat)
  sramTs  : Nat
  ceAlert : Bool
  straps  : BitVec 4
deriving DecidableEq, Repr

/-- A latent error of a static RAM word: array, word index, uncorrectable (R322). -/
structure SramErr where
  array : Nat
  word  : Nat
  ue    : Bool
deriving DecidableEq, Repr

/-- Tables, ownership and migration (R80 to R99). -/
structure Tbl where
  desc   : List (Nat × TDesc)
  ov     : List OvEntry
  ovBad  : List (Nat × Nat)
  migs   : List Mig
  guests : List (Nat × Nat × Nat × Nat)
  inbound : List (Nat × Nat × Option Snap)
  lastPub : List (Nat × Nat × Nat)
  fwdTs  : List (Nat × Nat × Nat)
  load   : Nat
  hot    : List (Nat × Nat × Nat)
  nbr    : List (Nat × Nat)
  winTs  : Nat
  park   : List Packet
deriving DecidableEq, Repr

/-- Collectives (R231 to R251): `cred` the slots granted to this chip by direction, `held` the packets
waiting in their slots, `seen` T_mark of each step seen by a group (R244). -/
structure Col where
  bk   : List ColBk
  ag   : List ColAg
  ver  : List ColVer
  ctx  : List ColCtx
  cred : List (ColKey × Nat)
  held : List Packet
  seen : List (Nat × Word × Nat)
  served : List ColKey
deriving DecidableEq, Repr

/-- The fabric's own state (R216 to R230). `alt`: the ports, by bit, whose next frame is half B's (Table 11.3). `kept`: the identity, slice and port settings that a chip in warm reset still
goes by, until an image is applied (R314, R316). -/
structure Rte where
  fseq   : BitVec 16
  seen   : List (Coord × BitVec 8 × BitVec 16)
  oldTs  : Nat
  tag    : BitVec 16
  kept   : List (Nat × Word)
  alt    : BitVec 8
deriving DecidableEq, Repr

/-- The loupe between latches (R165 to R172): counter sets, run counts by (rule, entry), and the steps
of each domain that have been passed and not latched, with whether they are late. -/
structure Lpe where
  sets : List LpeSet
  run  : List (Nat × Nat × Nat)
  due  : List (Nat × Word × Bool)
deriving DecidableEq, Repr

/-- The scatter accumulator and the unique-index table (R57, R74 to R78). -/
structure Sac where
  ents   : List SacEnt
  ctx    : List (Nat × SacCtx)
  uit    : Option UitHold
  uitClr : BitVec 8
deriving DecidableEq, Repr

/-- The cells: their runs, vector registers and mask registers (R120, R121). `rnd` is what the loupe still needs to know of
the elements in vector registers, by the address of their lowest byte (R165): 1 where the last rounding made 0 of a value
that was not, 2 where it saturated. -/
structure Cells where
  st    : List (Nat × CellSt)
  vreg  : Mem
  rnd   : List (Nat × Nat)
  masks : List (Nat × BitVec 4096)
deriving DecidableEq, Repr

/-- What the chip has driven outward: packets and frames, MSI-X signals (domain, vector), SMBus
answers and Host Notifies, and the data of the last BAR2 read. -/
structure Outs where
  tx    : List Tx
  msi   : List (Nat × Nat)
  smb   : List (List Byte)
  rdata : List Byte
deriving DecidableEq, Repr

/-- Host domains (R265, R26, R24): links up, PERST not yet followed by training, domains and
channels under reset, phase commits and catch-up passes that are due, and when each domain was last
signalled for a fault record (R326). -/
structure Hosts where
  present  : BitVec 4
  resetDom : BitVec 4
  resetCh  : BitVec 256
  offlineCh : BitVec 256
  phaseReq : BitVec 4
  catchUp  : BitVec 4
  irqTs    : List (Nat × Nat)
deriving DecidableEq, Repr

/-- The chip. `pending` is the queue of commands waiting; no command's meaning touches it. -/
structure State where
  pending : List Instr
  ts      : Nat
  nonce   : Nat
  regs    : List (Nat × Word)
  priv    : List (Nat × Word)
  shadow  : List (Nat × Word)
  hbm     : Mem
  bench   : Mem
  well    : Mem
  host    : Mem
  ecc     : Ecc
  sram    : List SramErr
  esc     : List (Nat × Esc)
  ops     : List Op
  recorded : List OpRef
  marks   : List OpRef
  reqs    : List Req
  outs    : Outs
  hosts   : Hosts
  tbl     : Tbl
  sac     : Sac
  cells   : Cells
  stash   : BitVec 8
  schDue  : BitVec 16
  lpe     : Lpe
  col     : Col
  rte     : Rte
  links   : List (Nat × Link)
  peers   : List (Nat × Peer)
  qps     : List (Nat × Qp)
  clb     : Clb
  crown   : Crown
deriving DecidableEq, Repr

/-- A memory with nothing written. -/
def Mem.empty : Mem := ⟨[], []⟩

/-- The machine right after a cold reset with PWRGD low (R342, R310): every register at the reset
value its table gives (an unlisted register reads it), nothing listed in memory, no table, no
operation, stage 0. What the manual gives no reset value for stands in log entries 3, 7 and 8. -/
def State.reset : State where
  pending := []
  ts := 0
  nonce := 0
  regs := []
  priv := []
  shadow := []
  hbm := Mem.empty
  bench := Mem.empty
  well := Mem.empty
  host := Mem.empty
  ecc := ⟨[], 0, [], []⟩
  sram := []
  esc := []
  ops := []
  recorded := []
  marks := []
  reqs := []
  outs := ⟨[], [], [], []⟩
  hosts := ⟨0, 0, 0, 0, 0, 0, []⟩
  tbl := ⟨[], [], [], [], [], [], [], [], 0, [], [], 0, []⟩
  sac := ⟨[], [], none, 0⟩
  cells := ⟨[], Mem.empty, [], []⟩
  stash := 0
  schDue := 0
  lpe := ⟨[], [], []⟩
  col := ⟨[], [], [], [], [], [], [], []⟩
  rte := ⟨0, [], 0, 0, [], 0⟩
  links := []
  peers := []
  qps := []
  clb := ⟨.idle, 0, 0, 0, none, [], [], []⟩
  crown := ⟨⟨0, 0, true⟩, ⟨0, 0, false⟩, 0, [none, none, none, none], [], 0, [], 0,
    [0, 0, 0, 0, 0, 0, 0, 0], none, false, false, none, [], 0, false, false, 0, 0, 0, [], 0, false, 0⟩

end Sys2Proof.Machine
end

