-- ==== Sys2Proof/Machine/Ops.lean ====
section
/-! DEFINITION. The named operations every meaning is written with: the effects on a state, one per
kind of state; the actions that read a state and emit effects; and over them memory, registers,
faults, escapements and what the chip sends. A meaning is `perform` of an action, so everything a
command can do to the state is a run of effects. -/

namespace Sys2Proof.Machine

/-! ### Memories -/

def inSpan (sp : List Span) (a : Nat) : Option Nat :=
  match sp with
  | [] => none
  | x :: xs => if x.lo ≤ a ∧ a < x.lo + x.len then some x.nonce else inSpan xs a

/-- One byte: what was written last; else a free value in an undefined span; else 0x00 (log entry 3). -/
def Mem.get (m : Mem) (a : Nat) : Byte :=
  match mapGet m.cells a with
  | some v => v
  | none => match inSpan m.undef a with
    | some n => Config.freeByte n a
    | none => 0

def Mem.getN (m : Mem) (a : Nat) : Nat → List Byte
  | 0 => []
  | n + 1 => m.get a :: Mem.getN m (a + 1) n

/-- One byte written, in canonical form. -/
def Mem.put (m : Mem) (a : Nat) (v : Byte) : Mem :=
  if v = 0 ∧ (inSpan m.undef a).isNone then { m with cells := mapDel m.cells a }
  else { m with cells := mapSet m.cells a v }

def Mem.putN (m : Mem) (a : Nat) : List Byte → Mem
  | [] => m
  | b :: bs => Mem.putN (m.put a b) (a + 1) bs

/-- A span with the addresses lo … lo+len-1 cut out. -/
def cutSpan (lo len : Nat) (x : Span) : List Span :=
  let l : List Span := if x.lo < lo ∧ 0 < x.len then [⟨x.lo, min x.len (lo - x.lo), x.nonce⟩] else []
  let r : List Span :=
    if lo + len < x.lo + x.len then
      [⟨max x.lo (lo + len), x.lo + x.len - max x.lo (lo + len), x.nonce⟩] else []
  if x.lo + x.len ≤ lo ∨ lo + len ≤ x.lo then [x] else l ++ r

/-- Drop listed cells that have become superfluous. -/
def Mem.trim (m : Mem) : Mem :=
  { m with cells := m.cells.filter fun c => c.2 != 0 || (inSpan m.undef c.1).isSome }

/-- A range set to 0x00. -/
def Mem.clear (m : Mem) (lo len : Nat) : Mem :=
  Mem.trim ⟨m.cells.filter fun c => decide (c.1 < lo ∨ lo + len ≤ c.1), m.undef.flatMap (cutSpan lo len)⟩

/-- A range whose content becomes undefined. -/
def Mem.smear (m : Mem) (lo len nonce : Nat) : Mem :=
  Mem.trim ⟨m.cells.filter fun c => decide (c.1 < lo ∨ lo + len ≤ c.1),
    ⟨lo, len, nonce⟩ :: m.undef.flatMap (cutSpan lo len)⟩

/-- Canonical form: addresses rise strictly, and no listed byte equals what it would read unlisted. -/
def Mem.wf (m : Mem) : Bool :=
  mapOrd none m.cells && m.cells.all fun c => c.2 != 0 || (inSpan m.undef c.1).isSome

/-- Canonical form of a register map: addresses rise strictly, no entry equal to its reset value. -/
def regsWf (key : Nat → Nat) (l : List (Nat × Word)) : Bool :=
  mapOrd none l && l.all fun c => c.2 != BitVec.ofNat 32 (resetOf (key c.1))

/-- A register written in canonical form; `key` turns its place in the map into its BAR0 address. -/
def regPut (key : Nat → Nat) (l : List (Nat × Word)) (k : Nat) (v : Word) : List (Nat × Word) :=
  if v = BitVec.ofNat 32 (resetOf (key k)) then mapDel l k else mapSet l k v

def keyShared (k : Nat) : Nat := k
def keyPriv (k : Nat) : Nat := k % 0x4000000

/-! ### Effects -/

inductive MemId where
  | hbm | bench | well | host | vreg
deriving DecidableEq, Repr

inductive MemOp where
  | write (a : Nat) (b : List Byte)
  | clear (lo len : Nat)
  | smear (lo len : Nat)
deriving DecidableEq, Repr

def MemOp.run (o : MemOp) (nonce : Nat) (m : Mem) : Mem :=
  match o with
  | .write a b => m.putN a b
  | .clear lo len => m.clear lo len
  | .smear lo len => m.smear lo len nonce

/-- The operations of Table 15.7 that change an escapement, and the states R275 and R322 set. -/
inductive EscEff where
  | add (n : Nat)
  | arm (t : Nat)
  | reset
  | notify (vec : Nat) (on : Bool)
  | state (aborted : Bool)
deriving DecidableEq, Repr

def escZero : Esc := ⟨0, 0, 0, .idle, false, 0⟩

/-- Table 15.7, on an escapement in a state the operation applies in. -/
def EscEff.run (o : EscEff) (e : Esc) : Esc :=
  match o with
  | .add n =>
    let c := min (e.count.toNat + n) 0xFFFFFFFF
    { e with count := BitVec.ofNat 32 c,
             st := if e.st = .armed ∧ e.target.toNat ≤ c then .fired else e.st }
  | .arm t =>
    { e with target := BitVec.ofNat 32 t,
             st := if t % 2 ^ 32 ≤ e.count.toNat then .fired else .armed }
  | .reset => { e with count := 0, target := 0, st := .idle, gen := e.gen + 1 }
  | .notify v on => { e with vec := BitVec.ofNat 8 v, notify := on }
  | .state a => { e with st := if a then .aborted else .faulted }

def escAt (s : State) (i : Nat) : Esc := (mapGet s.esc i).getD escZero

/-- Everything a command can do to the state. There is no effect on `pending`. -/
inductive Eff where
  | ts (n : Nat)
  | nonce
  | reg (a : Nat) (v : Word)
  | priv (d a : Nat) (v : Word)
  | shadow (a : Nat) (v : Word)
  | shadowClear
  | regsKeep (keep : Nat → Bool)
  | privKeep (keep : Nat → Bool)
  | mem (m : MemId) (o : MemOp)
  | ecc (e : Ecc)
  | sram (l : List SramErr)
  | esc (i : Nat) (o : EscEff)
  | escClear
  | ops (l : List Op)
  | recorded (l : List OpRef)
  | marks (l : List OpRef)
  | reqs (l : List Req)
  | outs (o : Outs)
  | hosts (h : Hosts)
  | tbl (t : Tbl)
  | sac (x : Sac)
  | cells (l : List (Nat × CellSt)) (m : List (Nat × BitVec 4096))
  | rnd (l : List (Nat × Nat))
  | stash (b : BitVec 8)
  | schDue (b : BitVec 16)
  | lpe (x : Lpe)
  | col (x : Col)
  | rte (x : Rte)
  | links (l : List (Nat × Link))
  | peers (l : List (Nat × Peer))
  | qps (l : List (Nat × Qp))
  | clb (x : Clb)
  | crown (x : Crown)

def Eff.apply (e : Eff) (s : State) : State :=
  match e with
  | .ts n => { s with ts := n }
  | .nonce => { s with nonce := s.nonce + 1 }
  | .reg a v => { s with regs := regPut keyShared s.regs a v }
  | .priv d a v => { s with priv := regPut keyPriv s.priv (privKey d a) v }
  | .shadow a v => { s with shadow := mapSet s.shadow a v }
  | .shadowClear => { s with shadow := [] }
  | .regsKeep k => { s with regs := s.regs.filter fun c => k c.1 }
  | .privKeep k => { s with priv := s.priv.filter fun c => k c.1 }
  | .mem .hbm o => { s with hbm := o.run s.nonce s.hbm, nonce := s.nonce + 1 }
  | .mem .bench o => { s with bench := o.run s.nonce s.bench, nonce := s.nonce + 1 }
  | .mem .well o => { s with well := o.run s.nonce s.well, nonce := s.nonce + 1 }
  | .mem .host o => { s with host := o.run s.nonce s.host, nonce := s.nonce + 1 }
  | .mem .vreg o => { s with cells := { s.cells with vreg := o.run s.nonce s.cells.vreg }, nonce := s.nonce + 1 }
  | .ecc x => { s with ecc := x }
  | .sram l => { s with sram := l }
  | .esc i o => { s with esc := mapSet s.esc i (o.run (escAt s i)) }
  | .escClear => { s with esc := [] }
  | .ops l => { s with ops := l }
  | .recorded l => { s with recorded := l }
  | .marks l => { s with marks := l }
  | .reqs l => { s with reqs := l }
  | .outs o => { s with outs := o }
  | .hosts h => { s with hosts := h }
  | .tbl t => { s with tbl := t }
  | .sac x => { s with sac := x }
  | .cells l m => { s with cells := { s.cells with st := l, masks := m } }
  | .rnd l => { s with cells := { s.cells with rnd := l } }
  | .stash b => { s with stash := b }
  | .schDue b => { s with schDue := b }
  | .lpe x => { s with lpe := x }
  | .col x => { s with col := x }
  | .rte x => { s with rte := x }
  | .links l => { s with links := l }
  | .peers l => { s with peers := l }
  | .qps l => { s with qps := l }
  | .clb x => { s with clb := x }
  | .crown x => { s with crown := x }

/-- `s` comes of `s₀` by effects alone. -/
inductive Reach (s₀ : State) : State → Prop
  | refl : Reach s₀ s₀
  | step {s : State} (e : Eff) : Reach s₀ s → Reach s₀ (e.apply s)

/-- An action that starts at `s₀`: it reads the state it has reached and emits effects. -/
abbrev Act (s₀ : State) (α : Type) := StateM {s : State // Reach s₀ s} α

variable {s₀ : State}

def st : Act s₀ State := fun p => (p.val, p)
def emit (e : Eff) : Act s₀ Unit := fun p => ((), ⟨e.apply p.val, p.property.step e⟩)

/-- The state an action started at `s` reaches. -/
def runAct (s : State) (a : Act s Unit) : State := (a ⟨s, .refl⟩).2.val

/-- Every meaning ends here: the command's effects, all of them, make the next state. -/
def perform (s : State) (a : Act s Unit) : Host.Outcome State Fault Refusal := .next (runAct s a)

def skip : Act s₀ Unit := pure ()

def each {α : Type} : List α → (α → Act s₀ Unit) → Act s₀ Unit
  | [], _ => skip
  | x :: xs, f => do f x; each xs f

/-- The first answer that is not `none`. -/
def firstA {α β : Type} : List α → (α → Act s₀ (Option β)) → Act s₀ (Option β)
  | [], _ => pure none
  | x :: xs, f => do
    match ← f x with
    | some b => pure (some b)
    | none => firstA xs f

def mapA {α β : Type} : List α → (α → Act s₀ β) → Act s₀ (List β)
  | [], _ => pure []
  | x :: xs, f => do
    let y ← f x
    let ys ← mapA xs f
    pure (y :: ys)

def foldA {α β : Type} : List α → β → (β → α → Act s₀ β) → Act s₀ β
  | [], b, _ => pure b
  | x :: xs, b, f => do foldA xs (← f b x) f

/-- An action that may stop with a STATUS. -/
abbrev Try (s₀ : State) (α : Type) := ExceptT Nat (Act s₀) α

def stop {α : Type} (e : Nat) : Try s₀ α := throw e
def attempt {α : Type} (a : Act s₀ (Except Nat α)) : Try s₀ α := ExceptT.mk a

/-! ### Registers -/

/-- A shared register's stored value. -/
def regOf (s : State) (a : Nat) : Nat :=
  match mapGet s.regs a with
  | some w => w.toNat
  | none => resetOf a

/-- Domain `d`'s copy of a private register. -/
def privOf (s : State) (d a : Nat) : Nat :=
  match mapGet s.priv (privKey d a) with
  | some w => w.toNat
  | none => resetOf a

/-- The shadow of an RWL register: the pending value, else the active one (R298). -/
def shadowOf (s : State) (a : Nat) : Nat :=
  match mapGet s.shadow a with
  | some w => w.toNat
  | none => regOf s a

def regSet (a v : Nat) : Act s₀ Unit := emit (.reg a (BitVec.ofNat 32 v))
def privSet (d a v : Nat) : Act s₀ Unit := emit (.priv d a (BitVec.ofNat 32 v))

/-- One field of a shared register written, the rest kept. -/
def regFld (a l w v : Nat) : Act s₀ Unit := do
  let s ← st
  regSet a (putFld (regOf s a) l w v)

/-- A 32-bit counter advanced; it wraps. -/
def bump (a : Nat) (n : Nat := 1) : Act s₀ Unit := do
  let s ← st
  regSet a (regOf s a + n)

/-- A 64-bit counter held in a LO and HI pair advanced. -/
def bump64 (a : Nat) (n : Nat) : Act s₀ Unit := do
  let s ← st
  let v := regOf s a + 2 ^ 32 * regOf s (a + 4) + n
  regSet a (v % 2 ^ 32)
  regSet (a + 4) (v / 2 ^ 32)

def privBump (d a : Nat) (n : Nat := 1) : Act s₀ Unit := do
  let s ← st
  privSet d a (privOf s d a + n)

/-- Register addresses the operations below use, by name. -/
def GLB_COORD : Nat := GLB + 4
def GLB_ESC_DISCARD : Nat := GLB + 0x20
def GLB_BAD_ACCESS : Nat := GLB + 0x24
def FLT_SUMMARY : Nat := FLT + 4
def FLT_LOG_PROD : Nat := FLT + 0x10
def FLT_LOG_LOST : Nat := FLT + 0x14
def FLT_IRQ : Nat := FLT + 0x28
def RST_STATUS : Nat := RST
def CRN_STATUS : Nat := CRN
def hdmW (d o : Nat) : Nat := HDM + 0x4000 * d + o
def ringW (d r w : Nat) : Nat := HDM + 0x4000 * d + 0x1000 + 32 * r + 4 * w
def celW (c o : Nat) : Nat := CEL + 0x2000 * c + o
def memW (s o : Nat) : Nat := MEM + 0x4000 * s + o
def fabW (p o : Nat) : Nat := FAB + 0x8000 * p + o

/-- The stage of bring-up (R310): 7 is READY. -/
def stage (s : State) : Nat := fld (regOf s RST_STATUS) 0 4
def isReady (s : State) : Bool := stage s == 7
def setStage (n cause : Nat) : Act s₀ Unit := do
  let s ← st
  regSet RST_STATUS (putFld (putFld (regOf s RST_STATUS) 0 4 n) 4 4 cause)

/-- A setting the fabric goes by: the register's value, or in a warm reset what was in force before it (R314, R316). -/
def cfgOf (s : State) (a : Nat) : Nat :=
  match mapGet s.rte.kept a with
  | some w => w.toNat
  | none => regOf s a

/-- This chip's coordinates in force (R293). -/
def myCoord (s : State) : Nat := cfgOf s GLB_COORD % 2 ^ 18

/-- The chip incarnation (R315). -/
def chipInc (s : State) : Nat := s.crown.chipInc.toNat

/-- RST_INC: the incarnation of a unit (R315): cell c, channel 32 + c, port 288 + p, domain 296 + d. -/
def incAddr (u : Nat) : Nat := RST + 0x100 + 4 * (u / 4)
def incOf (s : State) (u : Nat) : Nat := fld (regOf s (incAddr u)) (8 * (u % 4)) 8
def incBump (u : Nat) : Act s₀ Unit := do
  let s ← st
  regFld (incAddr u) (8 * (u % 4)) 8 (incOf s u + 1)

/-! ### What leaves the chip -/

def send (d : TxTo) (m : TxMsg) : Act s₀ Unit := do
  let s ← st
  emit (.outs { s.outs with tx := s.outs.tx ++ [⟨d, m, none⟩] })

/-- A frame that goes out on a link as it stands. -/
def sendFrame (d : TxTo) (m : TxMsg) (e : Eth) : Act s₀ Unit := do
  let s ← st
  emit (.outs { s.outs with tx := s.outs.tx ++ [⟨d, m, some e⟩] })

/-- An MSI-X vector of a domain is signalled. -/
def signal (d vec : Nat) : Act s₀ Unit := do
  let s ← st
  emit (.outs { s.outs with msi := s.outs.msi ++ [(d, vec)] })

def smbOut (b : List Byte) : Act s₀ Unit := do
  let s ← st
  emit (.outs { s.outs with smb := s.outs.smb ++ [b] })

/-! ### Faults (R325, R326) -/

/-- The operation an access belongs to: its domain and TAG for a fault record, and itself, since its own
result region is not hidden from it. -/
structure Who where
  dom : Nat
  tag : Nat
  ref : OpRef
deriving DecidableEq, Repr

/-- Whether Crown is up to take a record (CRN_STATUS.STATE RUNNING). -/
def crownUp (s : State) : Bool := fld (regOf s CRN_STATUS) 0 2 == 1

/-- Signal FLT_IRQ.VEC of the domains whose mask holds the class, at most once per µs each. -/
def fltSignal (cls : Nat) : Act s₀ Unit :=
  each [0, 1, 2, 3] fun d => do
    let s ← st
    let irq := privOf s d FLT_IRQ
    let recent := match mapGet s.hosts.irqTs d with
      | some t => decide (s.ts < t + 1000)
      | none => false
    if s.hosts.present.getLsbD d && bit irq cls && !recent then do
      emit (.hosts { s.hosts with irqTs := mapSet s.hosts.irqTs d s.ts })
      signal d (fld irq 16 8)
    else skip

/-- CODE of a record whose class the manual gives no codes for: a free value by class and kind of event (log entry 4). -/
def freeCode (cls k : Nat) : Nat := (Config.freeWord cls k).toNat % 256

/-- One fault record enters the log, or is held while Crown is away (R325), with what R326 does. -/
def logFault (cls code unitKind unit status : Nat) (who : Option Who) (unitInc info : Nat) : Act s₀ Unit := do
  let s ← st
  let r : FltRec :=
    ⟨BitVec.ofNat 32 (regOf s FLT_LOG_PROD), cls, code, unitKind, unit, BitVec.ofNat 8 status,
      (who.map Who.dom).getD 0, who.isSome, BitVec.ofNat 8 (chipInc s), BitVec.ofNat 8 unitInc,
      BitVec.ofNat 32 ((who.map Who.tag).getD 0), s.ts, BitVec.ofNat 64 info⟩
  if crownUp s then do
    emit (.crown { s.crown with log := (s.crown.log ++ [r]).drop (s.crown.log.length + 1 - 4096), fresh := s.crown.fresh + 1 })
    bump FLT_LOG_PROD
    smbOut [BitVec.ofNat 8 cls]
  else if s.crown.held.length < 64 then
    emit (.crown { s.crown with held := s.crown.held ++ [r] })
  else bump FLT_LOG_LOST
  let s ← st
  regSet FLT_SUMMARY (regOf s FLT_SUMMARY ||| 2 ^ cls)
  fltSignal cls

/-- ALERT_N is asserted (R326, R185, R303, R311, R334). -/
def alertN (s : State) : Bool :=
  regOf s FLT_SUMMARY &&& regOf s (FLT + 8) != 0 || s.crown.ceAlert ||
  bit (regOf s CLK) 1 || stage s == 8 || stage s == 9 || fld (regOf s CRN_STATUS) 0 2 == 3

/-! ### Escapements (R273 to R276) -/

def escFirst (s : State) (d : Nat) : Nat := fld (regOf s (hdmW d 0x20)) 0 16
def escLast (s : State) (d : Nat) : Nat := fld (regOf s (hdmW d 0x20)) 16 16
def escIn (s : State) (d i : Nat) : Bool := decide (escFirst s d ≤ i ∧ i ≤ escLast s d)

/-- The owner of an escapement (R273). -/
def escOwner (s : State) (i : Nat) : Option Nat := [0, 1, 2, 3].find? fun d => escIn s d i

/-! ### HBM (R174 to R189) -/

def granule : Nat := 2048
/-- 2.25 GiB. -/
def chBytes : Nat := 2415919104

def chLive (s : State) (c : Nat) : Bool := bit (regOf s (memW (c / 32) 0)) (c % 32)

/-- The live-channel list in the order of MAP_POLICY (R175). -/
def liveList (s : State) : List Nat :=
  let linear := bit (regOf s (memW 0 0x3000)) 1
  ((List.range 256).map fun i => if linear then i else (i % 8) * 32 + i / 8).filter (chLive s)

def hbmCap (s : State) : Nat := fld (regOf s (memW 0 0x3008)) 0 9 * chBytes

/-- The channel that holds a local offset (R174). -/
def chanOf (s : State) (off : Nat) : Nat :=
  let l := liveList s
  l.getD (off / granule % (max l.length 1)) 0

/-- Where a local offset lies (R174, R176): the channel, the granule within it, the pseudo-channel, the sector column of the
row, the bank and the row. -/
structure HbmPlace where
  ch   : Nat
  q    : Nat
  pc   : Nat
  col  : Nat
  bank : Nat
  row  : Nat
deriving DecidableEq, Repr

def hbmPlace (s : State) (off : Nat) : HbmPlace :=
  let q := off / granule / max (liveList s).length 1
  ⟨chanOf s off, q, fld off 6 1, fld off 7 4, fld q 0 6 ^^^ fld q 6 6, q / 64⟩

/-- How a sector reads (R182): 0 clean, 1 correctable, 2 uncorrectable. -/
def secState (s : State) (sec : Nat) : Nat :=
  let poison := (s.ecc.chPoison.getLsbD (chanOf s (sec * 64))) != s.ecc.flips.contains sec
  let sym := (mapGet s.ecc.sym sec).getD 0
  if poison || sym ≥ 2 then 2 else sym

def secList (off len : Nat) : List Nat :=
  if len = 0 then [] else (List.range ((off + len - 1) / 64 - off / 64 + 1)).map (· + off / 64)

/-- Nothing anywhere is poisoned or wrong. -/
def eccClean (s : State) : Bool := s.ecc.flips.isEmpty && s.ecc.chPoison == 0 && s.ecc.sym.isEmpty && s.ecc.od.isEmpty

/-- The sectors of a range that do not read clean, or read so by a correction on-die. -/
def badSecs (s : State) (off len : Nat) : List Nat :=
  if eccClean s then [] else (secList off len).filter fun x => secState s x != 0 || s.ecc.od.contains x

/-- A sector's POISON tag set or cleared, and its code word written afresh. -/
def eccMark (s : State) (sec : Nat) (poison : Bool) : Ecc :=
  let want := s.ecc.chPoison.getLsbD (chanOf s (sec * 64)) != poison
  { s.ecc with
    flips := if want then (if s.ecc.flips.contains sec then s.ecc.flips else sec :: s.ecc.flips)
             else s.ecc.flips.filter (· != sec),
    sym := mapDel s.ecc.sym sec,
    od := s.ecc.od.filter (· != sec) }

/-- One bad symbol: corrected, written back and counted (R182). -/
def secCe (sec : Nat) : Act s₀ Unit := do
  let s ← st
  let c := chanOf s (sec * 64)
  emit (.ecc { s.ecc with sym := mapDel s.ecc.sym sec, od := s.ecc.od.filter (· != sec) })
  bump (memW (c / 32) (0x100 + 4 * (c % 32)))

/-- A sector is read that the stack corrects on-die: MEM_CH_ODECC counts it (R181). -/
def secOd (sec : Nat) : Act s₀ Unit := do
  let s ← st
  if s.ecc.od.contains sec then
    let c := chanOf s (sec * 64)
    bump (memW (c / 32) (0x300 + 4 * (c % 32)))
  else skip

/-- An uncorrectable sector: left poisoned and counted (R182). -/
def secUe (sec : Nat) : Act s₀ Unit := do
  let s ← st
  let c := chanOf s (sec * 64)
  emit (.ecc (eccMark s sec true))
  bump (memW (c / 32) (0x200 + 4 * (c % 32)))

/-- R182's address register and fault record of an uncorrectable sector. -/
def secUeLog (sec : Nat) (who : Option Who) : Act s₀ Unit := do
  let s ← st
  let c := chanOf s (sec * 64)
  regSet (memW 0 0x3050) (sec * 64 % 2 ^ 32)
  regSet (memW 0 0x3054) (sec * 64 / 2 ^ 32)
  logFault 2 0 2 c (if who.isSome then 0x40 else 0) who (incOf s (32 + c)) (sec * 64)

/-- Channels of a range that are under reset or offline (Table 17.4). -/
def chDown (s : State) (off len : Nat) : Bool :=
  if s.hosts.resetCh == 0 && s.hosts.offlineCh == 0 then false
  else (List.range ((off + len - 1) / granule - off / granule + 1)).any fun g =>
    let c := chanOf s ((off / granule + g) * granule)
    s.hosts.resetCh.getLsbD c || s.hosts.offlineCh.getLsbD c

/-- A demand read of sectors: 0, TARGET_RESET or DATA_FAULT (R182, Table 17.4), with its counts. -/
def hbmTouch (off len : Nat) (who : Option Who) : Act s₀ Nat := do
  let s ← st
  if len = 0 then pure 0
  else if chDown s off len then pure 0x30
  else do
    let bad := badSecs s off len
    each bad fun x => do
      let s ← st
      secOd x
      match secState s x with
      | 0 => skip
      | 1 => secCe x
      | _ => do
        secUe x
        secUeLog x who
    pure (if bad.any (fun x => secState s x = 2) then 0x40 else 0)

/-- What a cell program has written (R117). -/
def OpWork.wrote : OpWork → List (Nat × Nat × Nat)
  | .run l _ => l
  | _ => []

/-- What a cell program has written since one of its instructions last added to an escapement (R19). -/
def OpWork.unshown : OpWork → List (Nat × Nat × Nat)
  | .run l n => l.take (l.length - n)
  | _ => []

/-- What an operation is producing: its result region (R279), and what its cell program has written (R19). -/
def Op.veil (o : Op) : List (Nat × Nat × Nat) := o.region ++ o.work.unshown

/-- An address lies in what an operation other than the reader is producing, whose record is not written: the reader is
not ordered behind it (R19, R279). -/
def hidden (s : State) (who : Option Who) (sp a : Nat) : Bool :=
  s.ops.any fun o => some o.ref != who.map Who.ref &&
    o.veil.any fun r => r.1 == sp && decide (r.2.1 ≤ a ∧ a < r.2.1 + r.2.2)

/-- The bytes a reader finds in a memory: undefined in what another operation is producing (R19, R279). -/
def seen (s : State) (who : Option Who) (sp : Nat) (m : Mem) (a n : Nat) : List Byte :=
  if s.ops.all (fun o => o.veil.isEmpty) then m.getN a n
  else (List.range n).map fun i =>
    if hidden s who sp (a + i) then Config.freeByte s.nonce (a + i) else m.get (a + i)

/-- A read of HBM: its bytes, or the STATUS it ends with (R177, R182). -/
def hbmRead (off len : Nat) (who : Option Who) : Act s₀ (Except Nat (List Byte)) := do
  let s ← st
  if hbmCap s < off + len then pure (.error 0x50)
  else do
    match ← hbmTouch off len who with
    | 0 => do
      let s ← st
      pure (.ok (seen s who 0 s.hbm off len))
    | e => pure (.error e)

/-- The piece of a write that falls into one sector: offset and bytes. -/
def secPiece (off : Nat) (b : List Byte) (sec : Nat) : Nat × List Byte :=
  let lo := max off (sec * 64)
  let hi := min (off + b.length) (sec * 64 + 64)
  (lo, (b.drop (lo - off)).take (hi - lo))

/-- A write of HBM (R183): whole sectors lose their poison, a partial write of a bad sector is not
made. Answers 0 or the STATUS. -/
def hbmWrite (off : Nat) (b : List Byte) (who : Option Who) : Act s₀ Nat := do
  let s ← st
  if b.isEmpty then pure 0
  else if hbmCap s < off + b.length then pure 0x50
  else if chDown s off b.length then pure 0x30
  else if (badSecs s off b.length).isEmpty then do
    emit (.mem .hbm (.write off b))
    pure 0
  else
    foldA (secList off b.length) 0 fun r x => do
      let s ← st
      let (o, p) := secPiece off b x
      if p.length = 64 then do
        emit (.ecc (eccMark s x false))
        emit (.mem .hbm (.write o p))
        pure r
      else match secState s x with
        | 0 => do
          secOd x
          emit (.ecc { s.ecc with od := s.ecc.od.filter (· != x) })
          emit (.mem .hbm (.write o p))
          pure r
        | 1 => do secCe x; emit (.mem .hbm (.write o p)); pure r
        | _ => do secUe x; secUeLog x who; pure 0x40

/-! ### Host memory -/

def hostKey (d a : Nat) : Nat := d * 2 ^ 64 + a % 2 ^ 64

def hostRead (s : State) (who : Option Who) (d a n : Nat) : List Byte := seen s who 3 s.host (hostKey d a) n

def hostWrite (d a : Nat) (b : List Byte) : Act s₀ Unit := emit (.mem .host (.write (hostKey d a) b))

/-! ### Cells -/

def benchSize : Nat := 8388608
def wellSize : Nat := 67108864
def benchKey (c off : Nat) : Nat := c * benchSize + off

def cellZero : CellSt :=
  ⟨none, [xsZero, xsZero, xsZero, xsZero], 0, 0, false, false, 0, 0, false, 0⟩

def cellAt (s : State) (c : Nat) : CellSt := (mapGet s.cells.st c).getD cellZero

def setCell (c : Nat) (x : CellSt) : Act s₀ Unit := do
  let s ← st
  emit (.cells (mapSet s.cells.st c x) s.cells.masks)

/-- CEL_STATUS.QUARANTINED, held in its register. -/
def quarantined (s : State) (c : Nat) : Bool := bit (regOf s (celW c 4)) 2

def cellBusy (s : State) (c : Nat) : Bool := (cellAt s c).holder.isSome || (cellAt s c).resetting

/-- The cell partition (R290): owner, and the STITCH bits a calibre image gave the cell. -/
def cellPart (s : State) (c : Nat) : Nat := (mapGet s.clb.part c).getD 0xF0
def cellOwner (s : State) (c : Nat) : Nat := fld (cellPart s c) 0 2
def cellStitch (s : State) (c b : Nat) : Bool := bit (cellPart s c) (4 + b)

def bitsOf (n w : Nat) : List Nat := (List.range n).filter fun i => bit w i

/-! ### Global addresses (R16) -/

inductive Loc where
  | hbm (off : Nat)
  | bench (c off : Nat)
  | well (off : Nat)
  | far (chip off : Nat)
  | table (t row byt : Nat)
  | bad
deriving DecidableEq, Repr

def Loc.ofAddr (a : Nat) : Loc :=
  match fld a 62 2 with
  | 0 => if fld a 40 22 = 0 then .hbm (fld a 0 40) else .bad
  | 1 =>
    if fld a 40 22 ≠ 0 then .bad
    else
      let r := fld a 32 8
      let o := fld a 0 32
      if r < 0x20 then (if o < benchSize then .bench r o else .bad)
      else if r = 0x20 then (if o < wellSize ∧ o % 4 = 0 then .well o else .bad)
      else .bad
  | 2 =>
    if fld a 58 4 = 0 then
      .far (fld a 52 6 + 64 * fld a 46 6 + 4096 * fld a 40 6) (fld a 0 40)
    else .bad
  | _ => .table (fld a 50 12) (fld a 16 34) (fld a 0 16)

/-- A fabric-global address that names this chip is local. -/
def Loc.near (s : State) (l : Loc) : Loc :=
  match l with
  | .far c o => if c = myCoord s then .hbm o else l
  | l => l

/-- A read of a local range: bytes or STATUS. -/
def locRead (l : Loc) (n : Nat) (who : Option Who) : Act s₀ (Except Nat (List Byte)) := do
  let s ← st
  match l with
  | .hbm o => hbmRead o n who
  | .bench c o => pure (.ok (seen s who 1 s.bench (benchKey c o) n))
  | .well o => pure (.ok (seen s who 2 s.well o n))
  | _ => pure (.error 0x50)

/-- A write of a local range: 0 or STATUS. -/
def locWrite (l : Loc) (b : List Byte) (who : Option Who) : Act s₀ Nat := do
  match l with
  | .hbm o => hbmWrite o b who
  | .bench c o => do emit (.mem .bench (.write (benchKey c o) b)); pure 0
  | .well o => do emit (.mem .well (.write o b)); pure 0
  | _ => pure 0x50

/-- A local range whose content becomes undefined. -/
def locSmear (l : Loc) (n : Nat) : Act s₀ Unit :=
  if n = 0 then skip
  else match l with
    | .hbm o => emit (.mem .hbm (.smear o n))
    | .bench c o => emit (.mem .bench (.smear (benchKey c o) n))
    | .well o => emit (.mem .well (.smear o n))
    | _ => skip

/-- A range inside the memory its address names (R16, R177). -/
def locFits (s : State) (l : Loc) (n : Nat) : Bool :=
  match l with
  | .hbm o => decide (o + n ≤ hbmCap s)
  | .bench _ o => decide (o + n ≤ benchSize)
  | .well o => decide (o + n ≤ wellSize)
  | .far _ o => decide (o + n ≤ 2 ^ 40)
  | _ => false

/-- `n` bytes at `o` lie in the union of the domain's four HDM_HBM ranges (R267): from `o`, each range
that covers the first uncovered byte moves it on, at most four times. -/
def quotaAux (rs : List (Nat × Nat)) (hi : Nat) : Nat → Nat → Bool
  | 0, o => decide (hi ≤ o)
  | f + 1, o =>
    if hi ≤ o then true
    else match rs.find? (fun r => decide (r.1 ≤ o ∧ o < r.2)) with
      | some r => quotaAux rs hi f r.2
      | none => false

def hbmRanges (s : State) (d : Nat) : List (Nat × Nat) :=
  [0, 1, 2, 3].map fun k =>
    let w := regOf s (hdmW d (0x10 + 4 * k))
    (fld w 0 10 * 2 ^ 30, (fld w 0 10 + fld w 10 10) * 2 ^ 30)

def inHbmQuota (s : State) (d o n : Nat) : Bool := quotaAux (hbmRanges s d) (o + n) 4 o

def inTblRange (s : State) (d t : Nat) : Bool :=
  let w := regOf s (hdmW d 0x24)
  decide (fld w 0 12 ≤ t ∧ t ≤ fld w 16 12)

/-! ### The rest of the state, by part -/

def modTbl (f : Tbl → Tbl) : Act s₀ Unit := do emit (.tbl (f (← st).tbl))
def modSac (f : Sac → Sac) : Act s₀ Unit := do emit (.sac (f (← st).sac))
def modCol (f : Col → Col) : Act s₀ Unit := do emit (.col (f (← st).col))
def modClb (f : Clb → Clb) : Act s₀ Unit := do emit (.clb (f (← st).clb))
def modCrown (f : Crown → Crown) : Act s₀ Unit := do emit (.crown (f (← st).crown))
def modHosts (f : Hosts → Hosts) : Act s₀ Unit := do emit (.hosts (f (← st).hosts))
def modRte (f : Rte → Rte) : Act s₀ Unit := do emit (.rte (f (← st).rte))
def modLpe (f : Lpe → Lpe) : Act s₀ Unit := do emit (.lpe (f (← st).lpe))

/-- A timed event is due `n` ns after the stamp `t`. -/
def due (s : State) (t n : Nat) : Bool := decide (t + n ≤ s.ts)

end Sys2Proof.Machine
end

