-- ==== Sys2Proof/Machine/Frames.lean ====
section
/-! DEFINITION. Frames on a link: the Ghedin header as its 32 bytes (R208), the addresses of ports and peers (Table 11.3), the
encapsulation of what an open port sends (R194, R205 to R207), and the bytes of a link control frame (R213). -/

namespace Sys2Proof.Machine

/-! ### The Ghedin header (R208, Table 12.1) -/

def hdrWord0 (h : Hdr) : Nat :=
  h.flags.toNat + 2 ^ 4 * h.inc.toNat + 2 ^ 12 * h.src.toNat + 2 ^ 30 * h.dst.toNat + 2 ^ 48 * h.mcast.toNat
    + 2 ^ 50 * h.epoch.toNat + 2 ^ 51 * h.vc.toNat + 2 ^ 56 * h.cls.toNat + 2 ^ 60 * h.ver.toNat

def hdrWord1 (h : Hdr) : Nat :=
  h.rsv.toNat + 2 * h.hd.toNat + 2 ^ 3 * h.esc.toNat + 2 ^ 19 * h.seq.toNat + 2 ^ 43 * h.len.toNat + 2 ^ 56 * h.op.toNat

def hdrWord3 (h : Hdr) : Nat := h.cnt.toNat + 2 ^ 32 * h.optag.toNat + 2 ^ 48 * h.gen.toNat

/-- The 32 bytes of a header: four 64-bit words, little-endian. -/
def hdrBytes (h : Hdr) : List Byte :=
  leBytes 8 (hdrWord0 h) ++ leBytes 8 (hdrWord1 h) ++ leBytes 8 h.addr.toNat ++ leBytes 8 (hdrWord3 h)

/-- The header of HELLO and of link control: every field 0 but CLASS MGT, OP and LEN (R198, R213). -/
def bareHdr (opc len : Nat) : Hdr :=
  { ver := 0, cls := 3, vc := 0, epoch := 0, mcast := 0, dst := 0, src := 0, inc := 0, flags := 0, op := BitVec.ofNat 8 opc,
    len := BitVec.ofNat 13 len, seq := 0, esc := 0, hd := 0, rsv := 0, addr := 0, gen := 0, optag := 0, cnt := 0 }

/-! ### Addresses -/

/-- SVC_PEER[n], word k. -/
def peerW (n k : Nat) : Nat := SVC + 0x1000 + 32 * n + 4 * k

/-- SVC_QP[q], word k. -/
def qpW (q k : Nat) : Nat := SVC + 0x20000 + 32 * q + 4 * k

/-- The MAC address of a torus port, 02-00-X-Y-Z-p, as a number whose lowest byte is sent first (Table 11.3). -/
def torusMac (coord p : Nat) : Nat := 2 + 2 ^ 16 * fld coord 0 6 + 2 ^ 24 * fld coord 6 6 + 2 ^ 32 * fld coord 12 6 + 2 ^ 40 * p

/-- The MAC address of a port half: the derived one of a torus port; FAB_MAC, of which half B uses the next. -/
def portMac (s : State) (p : Nat) (half : Bool) : Nat :=
  let m := regOf s (fabW p 0x20) + 2 ^ 32 * fld (regOf s (fabW p 0x24)) 0 16
  if p < 6 then torusMac (myCoord s) p
  else if half then
    let v := leNat ((leBytes 6 m).reverse) + 1
    leNat ((leBytes 6 v).reverse)
  else m

def nextHopMac (s : State) (p : Nat) : Nat := regOf s (fabW p 0x28) + 2 ^ 32 * fld (regOf s (fabW p 0x2C)) 0 16

def portIp4 (s : State) (p : Nat) : Nat := regOf s (fabW p 0x34)

/-- Four words with the most significant first, as one address. -/
def words128 (s : State) (a : Nat) : Nat :=
  regOf s a * 2 ^ 96 + regOf s (a + 4) * 2 ^ 64 + regOf s (a + 8) * 2 ^ 32 + regOf s (a + 12)

def portIp6 (s : State) (p : Nat) : Nat := words128 s (fabW p 0x40)

/-- The link-local address formed from the port's MAC address by EUI-64. -/
def linkLocal (s : State) (p : Nat) (half : Bool) : Nat :=
  let m := leBytes 6 (portMac s p half)
  let b (i : Nat) : Nat := (m.getD i 0).toNat
  let x0 := if bit (b 0) 1 then b 0 - 2 else b 0 + 2
  0xFE80 * 2 ^ 112 + leNat (([b 5, b 4, b 3, 0xFE, 0xFF, b 2, b 1, x0]).map fun v => BitVec.ofNat 8 v)

def peerMac (s : State) (n : Nat) : Nat := regOf s (peerW n 4) + 2 ^ 32 * fld (regOf s (peerW n 3)) 16 16

/-- A peer entry's address, as R253 compares it. -/
def peerAddr (s : State) (n : Nat) : Nat :=
  match fld (regOf s (peerW n 0)) 3 2 with
  | 0 => peerMac s n
  | 1 => regOf s (peerW n 4)
  | _ => words128 s (peerW n 4)

/-- The address of a queue pair's remote end. -/
def qpAddr (s : State) (q : Nat) : Nat := if bit (regOf s (qpW q 0)) 15 then words128 s (qpW q 4) else regOf s (qpW q 4)

/-! ### Frames of a torus port -/

def fabEtype (s : State) (p : Nat) : Nat := fld (regOf s (fabW p 0x30)) 0 16

/-- The frame of what a torus port sends to its neighbour, under the neighbour port's address. -/
def torusEth (s : State) (p : Nat) : Eth :=
  let nb := regOf s (fabW p 8)
  { dmac := BitVec.ofNat 48 (torusMac (fld nb 0 18) (fld nb 18 3)), smac := BitVec.ofNat 48 (portMac s p false),
    etype := BitVec.ofNat 16 (fabEtype s p), tag := none, ip := none }

/-- The frame of a HELLO, to 03-00-00-00-00-01 (R198). -/
def helloEth (s : State) (p : Nat) : Eth := { torusEth s p with dmac := BitVec.ofNat 48 (leNat [3, 0, 0, 0, 0, 1]) }

/-- An untagged frame's bytes: the addresses, the EtherType, the payload and the FCS. -/
def frameBytes (e : Eth) (b : List Byte) : List Byte :=
  let l := leBytes 6 e.dmac.toNat ++ leBytes 6 e.smac.toNat ++ (leBytes 2 e.etype.toNat).reverse ++ b
  l ++ leBytes 4 (crc32 l)

/-- The 52 payload bytes of a link control frame (R213). -/
def lcfPayload (f : Lcf) : List Byte :=
  leBytes 2 f.ack.toNat ++ [BitVec.ofNat 8 (b2n f.nak), 0] ++ f.cred.flatMap fun c => leBytes 2 c.toNat

/-- The 102 bytes of a link control frame. -/
def lcfFrame (s : State) (p : Nat) (f : Lcf) : List Byte := frameBytes (torusEth s p) (hdrBytes (bareHdr 1 52) ++ lcfPayload f)

/-! ### Frames of an open port (R194, R205 to R207) -/

/-- The priority of a Ghedin class on an open port (FAB_PRIO); that of a frame of no class is open (log entry 79). -/
def openPrio (s : State) (p cls : Nat) : Nat :=
  let w := regOf s (fabW p 0x54)
  match cls with
  | 0 => fld w 0 3
  | 1 => fld w 4 3
  | 3 => fld w 8 3
  | _ => (Config.freeWord 0 p).toNat % 8

/-- The 802.1Q tag of a sent frame, when TAG_EN is 1 (FAB_VLAN). -/
def openTag (s : State) (p cls : Nat) : Option (BitVec 3 × BitVec 12) :=
  let w := regOf s (fabW p 0x50)
  if bit w 12 then some (BitVec.ofNat 3 (openPrio s p cls), BitVec.ofNat 12 (fld w 0 12)) else none

/-- FAB_ECN.EN of a port (R207). -/
def ecnOn (s : State) (p : Nat) : Bool := bit (regOf s (fabW p 0x60)) 0

/-- A frame under IP: to the next-hop router, UDP frames marked ECT(0) under FAB_ECN.EN. -/
def ipEth (s : State) (p : Nat) (half : Bool) (cls : Nat) (v6 : Bool) (dst : Nat) (udp : Option (Option (BitVec 16) × BitVec 16)) : Eth :=
  { dmac := BitVec.ofNat 48 (nextHopMac s p), smac := BitVec.ofNat 48 (portMac s p half), etype := if v6 then 0x86DD else 0x0800,
    tag := openTag s p cls,
    ip := some { v6 := v6, src := BitVec.ofNat 128 (if v6 then portIp6 s p else portIp4 s p), dst := BitVec.ofNat 128 dst,
                 ecn := if udp.isSome && ecnOn s p then 2 else 0, udp := udp } }

/-- A frame straight under Ethernet. -/
def macEth (s : State) (p : Nat) (half : Bool) (cls dmac etype : Nat) : Eth :=
  { dmac := BitVec.ofNat 48 dmac, smac := BitVec.ofNat 48 (portMac s p half), etype := BitVec.ofNat 16 etype,
    tag := openTag s p cls, ip := none }

/-- A Ghedin frame to peer `n`, under the encapsulation of FAB_CFG.ENCAP. -/
def peerEth (s : State) (n p : Nat) (half : Bool) (cls : Nat) : Eth :=
  let port := BitVec.ofNat 16 (fld (regOf s (peerW n 3)) 0 16)
  match fld (regOf s (fabW p 0)) 9 2 with
  | 0 => macEth s p half cls (peerMac s n) (fabEtype s p)
  | 1 => ipEth s p half cls false (regOf s (peerW n 4)) (some (none, port))
  | _ => ipEth s p half cls true (words128 s (peerW n 4)) (some (none, port))

/-- A RoCEv2 frame of queue pair `q` (Table 14.2). -/
def qpEth (s : State) (q p : Nat) (half : Bool) (cls : Nat) : Eth :=
  ipEth s p half cls (bit (regOf s (qpW q 0)) 15) (qpAddr s q) (some (some (BitVec.ofNat 16 (0xC000 + q % 16384)), 4791))

/-- The frame of what an open port sends. A PFC frame goes untagged to 01-80-C2-00-00-01 (IEEE 802.1Qbb). -/
def openEth (s : State) (p : Nat) (half : Bool) (cls : Nat) (t : TxTo) (m : TxMsg) : Eth :=
  match t, m with
  | .peer n, _ => peerEth s n p half cls
  | _, .arpReply d => macEth s p half cls d.toNat 0x0806
  | _, .neighAdvert a => ipEth s p half cls true a.toNat none
  | _, .echoReply v6 a _ => ipEth s p half cls v6 a.toNat none
  | _, .roceAck q _ => qpEth s q p half cls
  | _, .roceNak q _ _ => qpEth s q p half cls
  | _, .roceRnr q _ => qpEth s q p half cls
  | _, .roceRead q _ _ => qpEth s q p half cls
  | _, .roceSend q _ _ => qpEth s q p half cls
  | _, .roceCnp q => qpEth s q p half cls
  | _, _ => { macEth s p half cls (leNat [0x01, 0x80, 0xC2, 0, 0, 1]) 0x8808 with tag := none }

end Sys2Proof.Machine
end

