-- ==== Sys2Proof/Machine/Opn.lean ====
section
/-! DEFINITION. Operations in flight: the fields of a fetched descriptor, how an operation ends, the
torus around this chip (R210, R218, R230) and the requests an operation sends over it (R208, R317). -/

namespace Sys2Proof.Machine

variable {s₀ : State}

/-! ### STATUS and ADMIT codes (Tables 0.3 and 0.4) -/

def OK : Nat := 0x00
def OK_CLAMPED : Nat := 0x01
def OK_PARTIAL_LATE : Nat := 0x02
def OK_STEP_SKIPPED : Nat := 0x03
def REFUSED_QUOTA : Nat := 0x10
def REFUSED_FULL : Nat := 0x11
def REFUSED_VERSION : Nat := 0x12
def REFUSED_PHASE : Nat := 0x13
def ABORTED : Nat := 0x20
def ABORT_TOO_LATE : Nat := 0x21
def TARGET_RESET : Nat := 0x30
def FABRIC_LOST : Nat := 0x31
def REMOTE_TIMEOUT : Nat := 0x32
def DATA_FAULT : Nat := 0x40
def RESIDUE_FAULT : Nat := 0x41
def CELL_FAULT : Nat := 0x42
def BAD_DESCRIPTOR : Nat := 0x50
def NOT_SUPPORTED : Nat := 0x51
def WGRAD_ALIAS : Nat := 0x52

/-! ### Descriptor fields -/

/-- `n` bytes of the descriptor from byte `b`. -/
def Op.at (o : Op) (b n : Nat) : Nat := fld o.desc.toNat (8 * b) (8 * n)

/-- `w` bits from bit `l` of byte `b`. -/
def Op.bits (o : Op) (b l w : Nat) : Nat := fld o.desc.toNat (8 * b + l) w

def Op.flag (o : Op) (b l : Nat) : Bool := bit o.desc.toNat (8 * b + l)

def Op.code (o : Op) : Nat := o.at 0 1
def Op.waitEn (o : Op) : Bool := o.flag 1 0
def Op.cplEn (o : Op) : Bool := o.flag 1 1
def Op.irq (o : Op) : Bool := o.flag 1 2
def Op.tag (o : Op) : Nat := o.at 2 4
def Op.cplEsc (o : Op) : Nat := o.at 6 2
def Op.cplGen (o : Op) : Nat := o.at 8 2
def Op.waitEsc (o : Op) : Nat := o.at 10 2
def Op.waitGen (o : Op) : Nat := o.at 12 2
def Op.waitVal (o : Op) : Nat := o.at 14 2

def Op.d (o : Op) : Nat := o.ref.dom.val
def Op.who (o : Op) : Option Who := some ⟨o.d, o.tag, o.ref⟩

/-- Bits [lo, lo + w) of the descriptor are all 0 (R355). -/
def Op.zero (o : Op) (b l w : Nat) : Bool := o.bits b l w == 0

/-! ### The list of operations -/

def findOp (s : State) (r : OpRef) : Option Op := s.ops.find? fun o => o.ref == r

def putOp (o : Op) : Act s₀ Unit := do
  let s ← st
  emit (.ops (s.ops.map fun x => if x.ref == o.ref then o else x))

def modOp (r : OpRef) (f : Op → Op) : Act s₀ Unit := do
  let s ← st
  emit (.ops (s.ops.map fun x => if x.ref == r then f x else x))

/-- The operation, when it is in the phase and has the operation code given; else nothing happens. -/
def withOp (r : OpRef) (p : OpPhase) (code : Nat) (f : Op → Act s₀ Unit) : Act s₀ Unit := do
  let s ← st
  match findOp s r with
  | some o => if o.phase = p ∧ o.code = code then f o else skip
  | none => skip

/-- ADMIT of a decided STATUS (R13, R22, R281): REFUSED_VERSION and REFUSED_PHASE read SERVED, waited or not. -/
def admitOf (o : Op) (status : Nat) : Nat :=
  if status = REFUSED_QUOTA ∨ status = REFUSED_FULL then 2
  else if status = REFUSED_VERSION ∨ status = REFUSED_PHASE then 0
  else if o.delayed then 1 else 0

/-- The STATUS values of Table 0.3 outside the Success class. -/
def failCodes : List Nat :=
  [REFUSED_QUOTA, REFUSED_FULL, REFUSED_VERSION, REFUSED_PHASE, ABORTED, ABORT_TOO_LATE, TARGET_RESET, FABRIC_LOST,
    REMOTE_TIMEOUT, DATA_FAULT, RESIDUE_FAULT, CELL_FAULT, BAD_DESCRIPTOR, NOT_SUPPORTED, WGRAD_ALIAS]

/-- A failure's STATUS (R10, R12): the byte given where Table 0.3 has it; of any other, one of the table, open which. -/
def failCode (v : Nat) : Nat :=
  if failCodes.contains v then v else failCodes.getD (Config.freeStatus v % 15) REMOTE_TIMEOUT

/-- Cells an operation holds become idle. -/
def freeCells (r : OpRef) : Act s₀ Unit := do
  let s ← st
  if s.cells.st.any (fun c => (c.2.holder.map Prod.fst) == some r) then
    emit (.cells (s.cells.st.map fun c =>
      if (c.2.holder.map Prod.fst) == some r then (c.1, { c.2 with holder := none, waiting := 0 }) else c)
      s.cells.masks)
  else skip

/-- The memory of a space of OutPiece; 5 and 6 are the well and the extension of a whole slot that a run has written (R117). -/
def memOf (sp : Nat) : MemId :=
  match sp with
  | 0 => .hbm | 1 => .bench | 2 => .well | 5 => .well | 6 => .hbm | _ => .host

/-- The result region of an operation that failed stays undefined (R11, R279), and so does what a
stopped cell program had written (R117, R118). What an UPDATE leaves is its own chapter's (R152, R321). -/
def smearRegion (o : Op) : Act s₀ Unit :=
  each ((if o.code = 6 then [] else o.region) ++ o.work.wrote.filter fun r => decide (r.1 < 64)) fun r => emit (.mem (memOf r.1) (.smear r.2.1 r.2.2))

/-- The region of an operation that ends with this STATUS: a success keeps what stands there. -/
def spoil (o : Op) (status : Nat) : Act s₀ Unit := if status / 16 = 0 then skip else smearRegion o

/-- An operation's request slots are given up. -/
def dropReqsOf (r : OpRef) : Act s₀ Unit := do
  let s ← st
  if s.reqs.any (fun q => q.op == some r) then emit (.reqs (s.reqs.filter fun q => q.op != some r)) else skip

/-- An operation with STATUS decided (R278): what its record will hold is fixed. COUNTS that it has recorded already, its
rounds of the unique-index table (R55), stay. -/
def Op.decide (o : Op) (status detail counts : Nat) (admitAs : Option Nat) (ts : Nat) : Op :=
  { o with
    phase := .decided, status := BitVec.ofNat 8 status, detail := BitVec.ofNat 32 detail,
    counts := if counts = 0 then o.counts else BitVec.ofNat 64 counts, admitAs := admitAs.getD (admitOf o status), decTs := ts,
    out := if status / 16 = 0 then o.out else [], work := .none }

/-- STATUS is decided: what the record will hold is fixed and the operation's request slots and cells
are given up. Results reach the readers, and the record the host, with OPERATION_COMPLETE (R278). -/
def endOp (r : OpRef) (status detail : Nat) (counts : Nat := 0) (admitAs : Option Nat := none) : Act s₀ Unit := do
  let s ← st
  match findOp s r with
  | none => skip
  | some o =>
    if o.phase = .decided then skip
    else do
      putOp (o.decide status detail counts admitAs s.ts)
      spoil o status
      dropReqsOf r
      freeCells r

/-- Completion without admission: the next descriptor of the ring may take its turn (R269). -/
def notAdmitted (r : OpRef) (status detail : Nat) : Act s₀ Unit := do
  if r.ring.val < 64 then privSet r.dom.val (ringW r.dom.val r.ring.val 6) (r.idx.toNat + 1)
  else if r.ring.val = 64 then privSet r.dom.val (KX + 0x1C) (r.idx.toNat + 1)
  else skip
  endOp r status detail

/-- A waiter's escapement has another generation, or is FAULTED or ABORTED (R271). -/
def waitDead (s : State) (o : Op) : Bool :=
  let e := escAt s o.waitEsc
  e.gen.toNat != o.waitGen || e.st == .faulted || e.st == .aborted

/-- A dependency abort (R271). -/
def depAbort (o : Op) : Act s₀ Unit := do
  bump (hdmW o.d 0x8C)
  notAdmitted o.ref ABORTED (o.waitEsc + 2 ^ 16)

/-- Waiters of an escapement that can no longer be released end (R274, R275). -/
def escWaiters (i : Nat) : Act s₀ Unit := do
  let s ← st
  each (s.ops.filter fun o => o.phase == .waitEsc && o.waitEsc == i && waitDead s o) depAbort

/-- The verdict of a group for a step: none while it is not final (R242). -/
def verdictOf (s : State) (g step : Nat) : Option Bool :=
  let w (k : Nat) : Nat := regOf s (COL + 0x100 + 32 * g + 4 * k)
  if bit (w 7) 0 && w 6 == step then some (bit (w 7) 1) else none

/-- What an UPDATE keeps between its admission and its passes. -/
def Op.upWork (o : Op) : UpWork := match o.work with | .update u => u | _ => ⟨none, none, []⟩

/-- The verdict an UPDATE has taken, or may take now (R153). -/
def takenVerdict (s : State) (o : Op) : Option Bool :=
  match o.upWork.verdict with
  | some b => some b
  | none => verdictOf s (o.bits 56 1 2) o.step.toNat

/-- An operation that ends with nothing written: its result region keeps its content. -/
def endClean (r : OpRef) (status detail : Nat) (admitAs : Option Nat := none) : Act s₀ Unit := do
  modOp r fun o => { o with region := [] }
  endOp r status detail 0 admitAs

/-- An operation ended from outside, at whatever point it stands, with the record of the fault. -/
def failOp (r : OpRef) (status : Nat) : Act s₀ Unit := endOp r status 0

/-- A wait for a resource that a chapter names begins, or goes on (R277, R281). -/
def waitRes (o : Op) : Act s₀ Unit := do
  let s ← st
  if o.phase = .waitRes then skip
  else putOp { o with phase := .waitRes, delayed := true, t0 := s.ts }

/-- The wait, if any, is over: its length is added to the delay. -/
def resumed (s : State) (o : Op) : Op :=
  if o.phase = .waitRes then { o with phase := .ready, delay := o.delay + (s.ts - o.t0) } else o

/-- A result piece, held until the record (R278). -/
def outTo (r : OpRef) (space addr : Nat) (b : List Byte) : Act s₀ Unit :=
  if b.isEmpty then skip else modOp r fun o => { o with out := o.out ++ [⟨space, addr, b⟩] }

/-- Where a location lies, as an OutPiece says it. -/
def Loc.space : Loc → Nat × Nat
  | .hbm o => (0, o)
  | .bench c o => (1, benchKey c o)
  | .well o => (2, o)
  | _ => (0, 0)

def outLoc (r : OpRef) (l : Loc) (b : List Byte) : Act s₀ Unit := outTo r l.space.1 l.space.2 b

/-- The sectors of a range that a write covers in part and that read uncorrectable (R183). -/
def partBad (s : State) (l : Loc) (n : Nat) : List Nat :=
  match l with
  | .hbm o => (badSecs s o n).filter fun x =>
      secState s x == 2 && (decide (x * 64 < o) || decide (o + n < x * 64 + 64))
  | _ => []

def outBad (s : State) (l : Loc) (n : Nat) : Bool := !(partBad s l n).isEmpty

/-! ### Admission checks -/

/-- What the checks of a chapter find at admission: nothing, or STATUS and DETAIL. -/
abbrev Adm := Option (Nat × Nat)

/-- The first check that fails; each is (it fails, STATUS, DETAIL). -/
def firstBad : List (Bool × Nat × Nat) → Adm
  | [] => none
  | (b, e, c) :: l => if b then some (e, c) else firstBad l

/-- R355: the listed fields, each (byte, bit, width), must be 0. -/
def mustZero (o : Op) (l : List (Nat × Nat × Nat)) : Bool × Nat × Nat :=
  (l.any (fun x => !o.zero x.1 x.2.1 x.2.2), BAD_DESCRIPTOR, 0)

def badIf (b : Bool) : Bool × Nat × Nat := (b, BAD_DESCRIPTOR, 0)

/-- The result region of an operation from its admission on (R279). -/
def setRegion (r : OpRef) (l : List (Nat × Nat × Nat)) : Act s₀ Unit := modOp r fun o => { o with region := l }

/-! ### The torus (R210, R218, R230) -/

def axis (c a : Nat) : Nat := fld c (6 * a) 6
def dimOf (s : State) (a : Nat) : Nat := fld (cfgOf s RTE) (6 * a) 6 + 1
def inSlice (s : State) (c : Nat) : Bool :=
  decide (axis c 0 < dimOf s 0 ∧ axis c 1 < dimOf s 1 ∧ axis c 2 < dimOf s 2)

def mkCoord (x y z : Nat) : Nat := x + 64 * y + 4096 * z

/-- The chip one hop away in a direction: 0 X−, 1 X+, … 5 Z+. -/
def hop (s : State) (c dir : Nat) : Nat :=
  let a := dir / 2
  let n := dimOf s a
  putFld c (6 * a) 6 ((axis c a + (if dir % 2 = 1 then 1 else n - 1)) % n)

/-- A coordinate lies on the shorter arc from `s` to `d` of an axis of size `n`, or anywhere when both
arcs are equal. -/
def onArc (n a b x : Nat) : Bool :=
  let f := (b + n - a % n) % n
  if 2 * f = n then true
  else if 2 * f < n then decide ((x + n - a % n) % n ≤ f)
  else decide ((a + n - x % n) % n ≤ n - f)

def inRegion (s : State) (a b c : Nat) : Bool :=
  [0, 1, 2].all fun i => onArc (dimOf s i) (axis a i) (axis b i) (axis c i)

def fltEntries (s : State) : Nat := fld (regOf s (RTE + 0x300)) 0 7
def fltOverflow (s : State) : Bool := bit (regOf s (RTE + 0x300)) 7
def fltEnt (s : State) (n : Nat) : Nat := regOf s (RTE + 0x400 + 8 * n)

/-- A failed link lies in the minimal region of two chips, or the fault table overflowed (R230). -/
def pathLost (s : State) (a b : Nat) : Bool :=
  fltOverflow s || (List.range (fltEntries s)).any fun n =>
    let e := fltEnt s n
    fld e 23 2 == 1 && inRegion s a b (fld e 0 18) && inRegion s a b (hop s (fld e 0 18) (fld e 18 3))

def groupLost (s : State) (g : Nat) : Bool :=
  fltOverflow s || (List.range (fltEntries s)).any fun n =>
    let e := fltEnt s n
    fld e 23 2 == 3 && fld e 21 2 == g

/-- FAB_STATE.STATE of a port half; half B equals half A without SPLIT. -/
def halfState (s : State) (p : Nat) (b : Bool) : Nat := fld (regOf s (fabW p 4)) (if b then 4 else 0) 4
/-- A port is UP when one of its halves is (R196). -/
def portUp (s : State) (p : Nat) : Bool := halfState s p false == 4 || halfState s p true == 4
def portDir (s : State) (p : Nat) : Nat := fld (cfgOf s (fabW p 0)) 6 3
def portRole (s : State) (p : Nat) : Nat := fld (cfgOf s (fabW p 0)) 0 2

/-- The torus port in a direction. -/
def dirPort (s : State) (d : Nat) : Option Nat :=
  [0, 1, 2, 3, 4, 5].find? fun p => portRole s p == 1 && portDir s p == d

/-- The incarnation known of a neighbour (R317). -/
def knownInc (s : State) (c : Nat) : Option (BitVec 8) :=
  match [0, 1, 2, 3, 4, 5].find? (fun p => portUp s p && fld (regOf s (fabW p 8)) 0 18 == c) with
  | some p => some (BitVec.ofNat 8 (fld (regOf s (fabW p 8)) 24 8))
  | none => none

/-! ### Packets -/

/-- A header as this chip sets it (Table 12.1): LAST on a packet that is the only one of its exchange (R224). -/
def mkHdr (s : State) (cls opc dst hd addr len seq gen esc optag cnt : Nat) : Hdr :=
  { ver := 3, cls := BitVec.ofNat 4 cls, vc := BitVec.ofNat 5 (3 * cls),
    epoch := BitVec.ofNat 1 (fld (cfgOf s (RTE + 8)) 0 1), mcast := 0,
    dst := BitVec.ofNat 18 dst, src := BitVec.ofNat 18 (myCoord s), inc := BitVec.ofNat 8 (chipInc s),
    flags := if seq = 0 ∧ cnt = 1 then 8 else 0, op := BitVec.ofNat 8 opc, len := BitVec.ofNat 13 len, seq := BitVec.ofNat 24 seq,
    esc := BitVec.ofNat 16 esc, hd := BitVec.ofNat 2 hd, rsv := 0, addr := BitVec.ofNat 64 addr,
    gen := BitVec.ofNat 16 gen, optag := BitVec.ofNat 16 optag, cnt := BitVec.ofNat 32 cnt }

def sendPk (p : Packet) : Act s₀ Unit := send .fabric (.packet p)

/-- An OPTAG no live slot has. -/
def freeTag (l : List Req) : Nat → BitVec 16 → BitVec 16
  | 0, t => t
  | f + 1, t => if l.any (fun q => q.optag == t) then freeTag l f (t + 1) else t

/-- A request packet, number `seq` of `cnt` (R208, R224). Which escapement at the destination an engine's
own WRITE or READ names is open: a free value. -/
def reqPk (s : State) (opc dest hd addr len seq cnt : Nat) (t : BitVec 16) (body : Body) : Packet :=
  let named := opc == 0x10 || opc == 0x11
  let h := mkHdr s 0 opc dest hd addr len seq
    (if named then (Config.freeWord s.nonce t.toNat).toNat / 65536 else 0)
    (if named then (Config.freeWord s.nonce t.toNat).toNat else 0) t.toNat (if seq = 0 then cnt else 0)
  .of { h with flags := if seq + 1 = cnt then 8 else 0 } body

/-- A request slot is taken and its request sent (R208, R220, R317); FABRIC_LOST when a failed link
lies on the way (R230). `hd` is the operation's domain. -/
def request (o : Option OpRef) (dest opc hd addr len cnt left : Nat) (kind : ReqKind) (body : Body) (seq : Nat := 0) : Act s₀ Nat := do
  let s ← st
  if pathLost s (myCoord s) dest then pure FABRIC_LOST
  else do
    let t := freeTag s.reqs s.reqs.length s.rte.tag
    let p := reqPk s opc dest hd addr len seq cnt t body
    emit .nonce
    modRte fun x => { x with tag := t + 1 }
    emit (.reqs (s.reqs ++ [⟨t, none, o, BitVec.ofNat 18 dest, knownInc s dest, kind, p, 0, false, s.ts, left, false⟩]))
    sendPk p
    pure OK

/-- A peer's entry (R254). -/
def peerAt (s : State) (n : Nat) : Peer := (mapGet s.peers n).getD ⟨none, false, 0, 0, [], [], 10000, 0, 0, none⟩
def setPeer (n : Nat) (x : Peer) : Act s₀ Unit := do
  let s ← st
  emit (.peers (mapSet s.peers n x))

/-- A header as an open port carries it to peer `n` (R253). -/
def peerHdr (s : State) (n : Nat) (h : Hdr) : Hdr :=
  { h with ver := BitVec.ofNat 4 (fld (regOf s (peerW n 0)) 23 4), vc := 0, epoch := 0, mcast := 0,
           dst := BitVec.ofNat 18 (fld (regOf s (peerW n 1)) 0 18),
           src := BitVec.ofNat 18 (fld (regOf s (peerW n 0)) 13 8) }

/-- A frame of an UP open port (R206), under its encapsulation, tag and PCP: held while its priority is paused, discarded in a storm. -/
def sendOpen (p : Nat) (half : Bool) (cls : Nat) (t : TxTo) (m : TxMsg) : Act s₀ Unit := do
  let s ← st
  let q := openPrio s p cls
  if halfState s p half ≠ 4 then skip
  else match mapGet s.links (2 * p + b2n half) with
    | some x =>
      if x.storm.contains q then skip
      else if x.paused.any fun y => y.1 == q then
        emit (.links (mapSet s.links (2 * p + b2n half) { x with queue := x.queue ++ [(q, ⟨t, m, some (openEth s p half cls t m)⟩)] }))
      else sendFrame t m (openEth s p half cls t m)
    | none => sendFrame t m (openEth s p half cls t m)

/-- The port of a peer entry. -/
def peerPort (s : State) (n : Nat) : Nat := 6 + b2n (bit (regOf s (peerW n 0)) 1)
def peerHalf (s : State) (n : Nat) : Bool := bit (regOf s (peerW n 0)) 2

/-- A Ghedin frame to a peer; an ECN flag that is owed goes with it (R207). -/
def sendToPeer (n : Nat) (p : Packet) : Act s₀ Unit := do
  let s ← st
  let x := peerAt s n
  let go (q : Packet) : Act s₀ Unit := sendOpen (peerPort s n) (peerHalf s n) q.hdr.cls.toNat (.peer n) (.packet q)
  if x.flagDue.isSome then do
    setPeer n { x with flagDue := none }
    go { p with hdr := { p.hdr with flags := p.hdr.flags ||| 1 } }
  else go p

/-- A frame of a queue pair leaves. -/
def sendQp (q : Nat) (m : TxMsg) : Act s₀ Unit := do
  let s ← st
  let w := regOf s (qpW q 0)
  sendOpen (6 + b2n (bit w 1)) (bit w 2) 5 (.link (6 + b2n (bit w 1)) (bit w 2)) m

/-- A packet to a peer, kept until its E2E_ACK (R256). -/
def sendPeer (n : Nat) (p : Packet) : Act s₀ Unit := do
  let s ← st
  let q : Packet := { p with hdr := peerHdr s n p.hdr }
  let x := peerAt s n
  setPeer n { x with held := x.held ++ [⟨q, 0, s.ts⟩] }
  sendToPeer n q

/-- A request to a peer (R253 to R257). -/
def requestPeer (n : Nat) (o : OpRef) (hd opc addr len cnt : Nat) (kind : ReqKind) (body : Body) (seq : Nat := 0) : Act s₀ Unit := do
  let s ← st
  let t := freeTag s.reqs s.reqs.length s.rte.tag
  let p := reqPk s opc 0 hd addr len seq cnt t body
  emit .nonce
  modRte fun x => { x with tag := t + 1 }
  emit (.reqs (s.reqs ++ [⟨t, some n, some o, 0, (peerAt s n).hello.map HelloRec.inc, kind, p, 0, false, s.ts, 1, false⟩]))
  sendPeer n p

/-- A peer's request goes on into the torus as a request of this chip (R258). -/
def relayReq (n : Nat) (q : Packet) (hd dest addr : Nat) (body : Body) : Act s₀ Nat := do
  let s ← st
  if pathLost s (myCoord s) dest then pure FABRIC_LOST
  else do
    let t := freeTag s.reqs s.reqs.length s.rte.tag
    let h := mkHdr s 0 q.hdr.op.toNat dest hd addr q.hdr.len.toNat q.hdr.seq.toNat q.hdr.gen.toNat q.hdr.esc.toNat t.toNat q.hdr.cnt.toNat
    let p : Packet := .of { h with flags := q.hdr.flags &&& 8 } body
    modRte fun x => { x with tag := t + 1 }
    emit (.reqs (s.reqs ++ [⟨t, none, none, BitVec.ofNat 18 dest, knownInc s dest, .relay n q, p, 0, false, s.ts, 1, false⟩]))
    sendPk p
    pure OK

/-- An answer to a request on RSP: TAG, SEQ, HD and LAST as the request has them; to the torus, or to the
peer entry the request came in through. -/
def answer (via : Option Nat) (q : Packet) (opc addr len : Nat) (body : Body) : Act s₀ Unit := do
  let s ← st
  let h := mkHdr s 1 opc q.hdr.src.toNat q.hdr.hd.toNat addr len 0 0 0 q.hdr.optag.toNat 0
  let p : Packet := .of { h with
    seq := q.hdr.seq, cnt := q.hdr.cnt, gen := q.hdr.gen, esc := q.hdr.esc, hd := q.hdr.hd, flags := q.hdr.flags &&& 8 } body
  match via with
  | none => sendPk p
  | some n => sendPeer n p

/-- The answer OP of a request OP (Table 12.2). -/
def answerOp (opc : Nat) : Nat :=
  match opc with
  | 0x10 => 0x90 | 0x11 => 0x91 | 0x12 => 0x92 | 0x13 => 0x93 | 0x14 => 0x94 | _ => 0x95

/-- A refusal: the answer OP with LEN 0 and the STATUS in ADDR[7:0] (R258, R316). -/
def refuse (via : Option Nat) (q : Packet) (status : Nat) : Act s₀ Unit :=
  answer via q (answerOp q.hdr.op.toNat) status 0 .none

def dropReq (t : BitVec 16) : Act s₀ Unit := do
  let s ← st
  emit (.reqs (s.reqs.filter fun q => q.optag != t))

def modReq (t : BitVec 16) (f : Req → Req) : Act s₀ Unit := do
  let s ← st
  emit (.reqs (s.reqs.map fun q => if q.optag == t then f q else q))

end Sys2Proof.Machine
end

