-- ==== Sys2Proof/Machine/Sram.lean ====
section
/-! DEFINITION. Latent errors of static RAM words met by a read (R322, R323, Table 18.2). -/

namespace Sys2Proof.Machine

variable {s₀ : State}

def sramCeW (k : Nat) : Nat := FLT + 0x100 + 4 * k
def sramUeW (k : Nat) : Nat := FLT + 0x180 + 4 * k

/-- A corrected word: counted, and logged at every multiple of FLT_CE_THR (R323). -/
def sramCe (x : SramErr) : Act s₀ Unit := do
  let s ← st
  emit (.sram (s.sram.filter fun y => y != x))
  bump (sramCeW x.array)
  let s ← st
  if regOf s (sramCeW x.array) % max 1 (fld (regOf s (FLT + 0xC)) 0 16) = 0 then
    logFault 3 x.array 5 x.array 0 none 0 x.word
  else skip

/-- An uncorrectable word: counted and logged; it stays so. -/
def sramUe (x : SramErr) (status : Nat) (who : Option Who) : Act s₀ Unit := do
  bump (sramUeW x.array)
  logFault 4 x.array 5 x.array status who 0 x.word

/-- The 64-bit words lo … lo+n-1 of an array are read: an uncorrectable one was met. -/
def sramRead (arr lo n : Nat) (who : Option Who) : Act s₀ Bool := do
  let s ← st
  if s.sram.isEmpty then pure false
  else do
    let l := s.sram.filter fun x => x.array == arr && decide (lo ≤ x.word ∧ x.word < lo + n)
    each l fun x => if x.ue then sramUe x DATA_FAULT who else sramCe x
    pure (l.any fun x => x.ue)

/-- Whole words of an array are written: their errors are gone. -/
def sramWrite (arr lo n : Nat) : Act s₀ Unit := do
  let s ← st
  if s.sram.isEmpty then skip
  else emit (.sram (s.sram.filter fun x => !(x.array == arr && decide (lo ≤ x.word ∧ x.word < lo + n))))

end Sys2Proof.Machine
end

