-- ==== Sys2Proof/Machine/Watch.lean ====
section
/-! DEFINITION. What the loupe counts (R164 to R167): the watch entry a producer matches, the category
and the exponent bin of each element written, and the counter set it enters. -/

namespace Sys2Proof.Machine

variable {s₀ : State}

def watchW (w k : Nat) : Nat := LPE + 0x10000 + 8 * w + 4 * k

/-- The VALID entries, in ascending number: their words WATCH0. -/
def watchList (s : State) : List (Nat × Nat) :=
  (s.regs.filter fun x => decide (LPE + 0x10000 ≤ x.1 ∧ x.1 < LPE + 0x20000) && x.1 % 8 == 0 && bit x.2.toNat 0).map
    fun x => ((x.1 - LPE - 0x10000) / 8, x.2.toNat)

/-- The entry a producer of a domain matches (R164, Table 9.1). -/
def watchOf (s : State) (dom kind id : Nat) : Option Nat :=
  ((watchList s).find? fun x =>
    fld x.2 1 2 == dom && fld x.2 3 3 == kind && regOf s (watchW x.1 1) == id).map Prod.fst

/-- A TAGGED entry, by the number the instruction carries. -/
def watchTag (s : State) (dom : Nat) (w : Option (Fin 8192)) : Option Nat :=
  match w with
  | none => none
  | some n =>
    let x := regOf s (watchW n.val 0)
    if bit x 0 && fld x 1 2 == dom && fld x 3 3 == 0 then some n.val else none

/-- One element as the loupe judges it (R165): 0 none, 1 ZERO, 2 UNDERFLOW, 3 SUBNORMAL, 4 SAT,
5 NONFINITE; and ⌊log2 |x|⌋ of a finite non-zero value. -/
structure Judged where
  cat  : Nat
  expo : Option Int
deriving DecidableEq, Repr

/-- An element written as code `c` of format `f`, shifted by the exponent of its MX scale: `exact0`
says its value before the last rounding was exactly zero. An integer is never UNDERFLOW or SUBNORMAL. -/
def judge (f : Fmt) (c : Nat) (shift : Int) (exact0 sat : Bool) : Judged :=
  match FmtOf.spec f with
  | none =>
    let i := (sInt (FmtOf.bits f) c).natAbs
    ⟨if sat then 4 else if i = 0 && exact0 then 1 else 0, if i = 0 then none else some ((bitLen i : Int) - 1)⟩
  | some g =>
    match g.val c with
    | .nan => ⟨5, none⟩
    | .inf _ => ⟨5, none⟩
    | .fin _ m e =>
      if m = 0 then ⟨if exact0 then 1 else 2, none⟩
      else
        ⟨if sat then 4 else if c % g.sgn < 2 ^ g.man then 3 else 0, some ((bitLen m : Int) - 1 + e + shift)⟩

/-- The histogram bin of an exponent (R166). -/
def histBin (w0 : Nat) (e : Int) : Nat :=
  let lo := sInt 8 (fld w0 16 8)
  let w : Int := 2 ^ min 4 (fld w0 6 3)
  if e < lo then 0 else min 15 ((e - lo) / w + 1).toNat

def incAt (l : List Nat) (i : Nat) (top : Nat) : List Nat :=
  l.take i ++ [min top (l.getD i 0 + 1)] ++ l.drop (i + 1)

/-- Elements join a counter set: TOTAL, the five categories and the histogram. -/
def LpeSet.count (x : LpeSet) (w0 : Nat) (js : List Judged) : LpeSet :=
  js.foldl (fun x j =>
    let c := incAt x.cnt 0 (2 ^ 64 - 1)
    { x with
      cnt := if j.cat = 0 then c else incAt c j.cat (2 ^ 64 - 1),
      hist := match j.expo with
        | some e => incAt x.hist (histBin w0 e) 0xFFFFFFFF
        | none => x.hist }) x

def lpeZero (w : Nat) (step : Word) : LpeSet := ⟨w, step, [0, 0, 0, 0, 0, 0], List.replicate 16 0, false⟩

/-- The tensor a bucket of a group carries, as its entry stands in memory (Table 13.1). -/
def bktTensor (s : State) (g b : Nat) : Nat :=
  leNat (s.hbm.getN (regOf s (COL + 0x100 + 32 * g + 12) + 2 ^ 32 * regOf s (COL + 0x100 + 32 * g + 16) + 64 * b) 2)

/-- An operation of domain `d`, admitted under step `n` and not ended, that writes a watched tensor (R167): a FINAL
SCATTER_ADD the tables of its context, a CELL_RUN what its instructions name, an UPDATE its weights and state, a
REDUCE_SCATTER its bucket's tensor. -/
def writesWatched (s : State) (d : Nat) (n : Word) (o : Op) : Bool :=
  o.d == d && o.step == n && (o.phase == .ready || o.phase == .running || o.phase == .waitRes) &&
    (match o.code with
      | 4 => o.flag 18 4 && (o.bits 16 0 12 :: ((mapGet s.sac.ctx (o.bits 18 0 4)).map SacCtx.mask).getD []).any fun t =>
          (watchOf s d 5 t).isSome
      | 5 => (watchList s).any fun x => fld x.2 1 2 == d && (fld x.2 3 3 == 0 || fld x.2 3 3 == 4)
      | 6 =>
        let id := if o.flag 18 3 then 0x10000 + o.bits 16 0 12 else o.at 16 2
        (watchOf s d 2 id).isSome || (watchOf s d 3 id).isSome
      | 7 => !o.flag 16 0 && (watchOf s d 1 (bktTensor s (o.bits 16 1 2) (o.at 18 2))).isSome
      | _ => false)

/-- The step a watched element is counted in (R167): its operation's, or the next one when the index has moved on by two or
more. -/
def lpeStep (s : State) (d : Nat) (step : Word) : Word :=
  let cur := BitVec.ofNat 32 (privOf s d (hdmW d 0x60))
  let gap := (cur - step).toNat
  if 2 ≤ gap ∧ gap < 2 ^ 31 then step + 1 else step

/-- Elements written by an operation of domain `d` admitted under `step` are counted. -/
def lpeCount (w : Option Nat) (d : Nat) (step : Word) (js : List Judged) : Act s₀ Unit := do
  let s ← st
  match w with
  | none => skip
  | some n =>
    if !bit (regOf s LPE) 0 || js.isEmpty then skip
    else do
      let at_ := lpeStep s d step
      let w0 := regOf s (watchW n 0)
      modLpe fun x =>
        if x.sets.any fun y => y.watch == n && y.step == at_ then
          { x with sets := mapIf (fun y => y.watch == n && y.step == at_) (fun y => y.count w0 js) x.sets }
        else { x with sets := x.sets ++ [(lpeZero n at_).count w0 js] }

end Sys2Proof.Machine
end

