-- ==== Sys2Proof/Machine/Escape.lean ====
section
/-! DEFINITION. Operations on escapements (R274 to R276), and what firing moves: the step index, with the regulator groups and
the loupe frames that fall due, and the phase pair. -/

namespace Sys2Proof.Machine

variable {s₀ : State}

/-- Regulator groups a step of domain `d` makes due (R161). -/
def schDueFor (s : State) (d : Nat) : BitVec 16 :=
  BitVec.ofNat 16 ((List.range 16).foldl (fun m g =>
    let w := regOf s (SCH + 0x100 + 64 * g)
    if bit w 0 && fld w 1 2 == d then m ||| 2 ^ g else m) 0)

/-- The index of a domain has passed step `n` of its due list and stands at `v`: an operation of that step still writes when
the index reaches n + 2 (R167). -/
def dueLate (s : State) (d old v : Nat) (x : Nat × Word × Bool) : Nat × Word × Bool :=
  let past (i : Nat) : Bool := let g := (BitVec.ofNat 32 i - x.2.1).toNat; decide (2 ≤ g ∧ g < 2 ^ 31)
  if x.1 == d && past v && !past old then (x.1, x.2.1, s.ops.any (writesWatched s d x.2.1)) else x

/-- The step index of a domain changes: its regulator groups are due (R161), the loupe has a step to latch, and an older one
is late if an operation of it still writes (R167). -/
def stepSet (d v : Nat) : Act s₀ Unit := do
  let s ← st
  let old := privOf s d (hdmW d 0x60)
  privSet d (hdmW d 0x60) v
  let s ← st
  emit (.schDue (s.schDue ||| schDueFor s d))
  if bit (regOf s LPE) 0 && old != v % 2 ^ 32 then
    emit (.lpe { s.lpe with due := (s.lpe.due ++ [(d, BitVec.ofNat 32 old, false)]).map (dueLate s d old v) })
  else skip

/-- The step index of a domain advances (R21). -/
def stepAdvance (d : Nat) : Act s₀ Unit := do
  let s ← st
  stepSet d (privOf s d (hdmW d 0x60) + 1)

/-- What firing does besides: NOTIFY, the step index (R276) and the phase pair (R26). -/
def escFired (i : Nat) : Act s₀ Unit := do
  let s ← st
  match escOwner s i with
  | none => skip
  | some d => do
    let e := escAt s i
    if e.notify then signal d e.vec.toNat else skip
    let se := privOf s d (hdmW d 0x64)
    if bit se 16 && fld se 0 16 == i then stepAdvance d else skip
    let s ← st
    if bit (regOf s (hdmW d 0x50)) 0 && fld (regOf s (hdmW d 0x54)) 0 16 == i then
      emit (.hosts { s.hosts with phaseReq := s.hosts.phaseReq ||| BitVec.ofNat 4 (2 ^ d) })
    else skip

/-- An effect on an escapement, with what follows when it fires. -/
def escEff (i : Nat) (o : EscEff) : Act s₀ Unit := do
  let s ← st
  let was := (escAt s i).st
  emit (.esc i o)
  let s ← st
  if (escAt s i).st = .fired ∧ was ≠ .fired then escFired i else skip

/-- An uncorrectable word of the escapement store is met at the next operation (Table 18.2, array 5). -/
def escSram (i : Nat) : Act s₀ Unit := do
  let s ← st
  if s.sram.any fun x => x.array == 5 && x.word / 2 == i && x.ue then do
    emit (.sram (s.sram.filter fun x => !(x.array == 5 && x.word / 2 == i)))
    bump (FLT + 0x180 + 20)
    logFault 4 5 5 5 0 none 0 (2 * i)
    emit (.esc i (.state false))
  else skip

/-- Why an operation of R274 was discarded: 0 applied, 1 generation, 2 state. -/
def escDo (i gen : Nat) (o : EscEff) : Act s₀ Nat := do
  escSram i
  let s ← st
  let e := escAt s i
  let okState : Bool := match o with
    | .add _ => e.st == .idle || e.st == .armed || e.st == .fired
    | .arm _ => e.st == .idle || e.st == .armed
    | _ => true
  if e.gen.toNat ≠ gen % 65536 then do
    bump GLB_ESC_DISCARD
    pure 1
  else if !okState then do
    bump GLB_ESC_DISCARD
    pure 2
  else do
    escEff i o
    pure 0

end Sys2Proof.Machine
end

