-- ==== Sys2Proof/Machine/LinkBase.lean ====
section
/-! DEFINITION. The link layer of a torus port half (R211 to R216): credits, receive buffers, link sequence numbers and the retry
buffer; and the receive buffers of open ports (R206). -/

namespace Sys2Proof.Machine

variable {s₀ : State}

def linkKey (p : Nat) (half : Bool) : Nat := 2 * p + b2n half

/-- A link just aligned, with nothing sent and nothing received. -/
def linkZero : Link :=
  { aligned := false, alignTs := 0, attempts := 0, downTs := 0, seenRx := false, helloRx := none, lseqTx := 0, lseqRx := 0,
    nakWait := false, retry := [], nakSeq := 0, naks := 0, ackTs := 0, sentFl := List.replicate 24 0,
    credFl := List.replicate 24 0, freed := List.replicate 24 0, lcfTs := 0, paused := [], storm := [], queue := [], xoff := [],
    crownTs := 0, crownCnt := 0, timeTx := 0, timeRx := 0, timeHops := 0xFFFF, helloTs := 0, timeTs := 0,
    owed := [], overrun := false, fill := [] }

/-- A link that starts over; the answers Crown has given on its port still count (R205). -/
def linkFresh (x : Link) : Link := { linkZero with crownTs := x.crownTs, crownCnt := x.crownCnt }

def linkAt (s : State) (p : Nat) (half : Bool) : Link := (mapGet s.links (linkKey p half)).getD linkZero

def setLink (p : Nat) (half : Bool) (x : Link) : Act s₀ Unit := do
  let s ← st
  emit (.links (mapSet s.links (linkKey p half) x))

def modLink (p : Nat) (half : Bool) (f : Link → Link) : Act s₀ Unit := do
  let s ← st
  setLink p half (f (linkAt s p half))

def portSplit (s : State) (p : Nat) : Bool := bit (cfgOf s (fabW p 0)) 2

/-- A half exists when the port is split or it is half A. -/
def halfOk (s : State) (p : Nat) (half : Bool) : Bool := !half || portSplit s p

/-- A half that is UP, half A before half B: the one whose control messages the port goes by. -/
def upHalf (s : State) (p : Nat) : Bool := halfState s p false != 4

/-- The half that carries the next frame: halves of a split port that are both UP take turns (Table 11.3). -/
def nextHalf (s : State) (p : Nat) : Bool :=
  if portSplit s p && halfState s p false == 4 && halfState s p true == 4 then s.rte.alt.getLsbD p else upHalf s p

/-- INCOMPATIBLE or MISCABLED: the half's port is excluded from the fabric (R200). -/
def excluded (s : State) (p : Nat) (half : Bool) : Bool := halfState s p half == 5 || halfState s p half == 6

/-- A frame other than HELLO on a half that is not UP is dropped; an excluded port counts it (R200). -/
def offPort (p : Nat) (half : Bool) : Act s₀ Unit := do
  let s ← st
  if excluded s p half then bump (fabW p 0x11C) else skip

/-- Flits of a packet (R211). -/
def flitsOf (h : Hdr) : Nat := cdiv (32 + h.len.toNat) 64

/-- Flits VC v owns in a receive buffer. -/
def vcCred (s : State) (p v : Nat) : Nat :=
  let c := fld (cfgOf s (RTE + 0x100 + 4 * v)) 0 12
  if portSplit s p then c / 2 else c

/-- Credits left on a VC of a link. -/
def credLeft (s : State) (p : Nat) (half : Bool) (v : Nat) : Nat :=
  let x := linkAt s p half
  vcCred s p v - (x.sentFl.getD v 0 + 65536 - (x.credFl.getD v 0).toNat) % 65536

/-- A VC of a link is free: no packet's tail is still to follow its head there (R211). -/
def vcFree (s : State) (p : Nat) (half : Bool) (v : Nat) : Bool := !(linkAt s p half).owed.any fun w => w.vc == v

def listAdd (l : List Nat) (i n : Nat) : List Nat := l.take i ++ [l.getD i 0 + n] ++ l.drop (i + 1)
def bvAdd (l : List (BitVec 16)) (i n : Nat) : List (BitVec 16) := l.take i ++ [l.getD i 0 + BitVec.ofNat 16 n] ++ l.drop (i + 1)

/-- Bytes waiting in a retry buffer: frames of 50 B and the payload (Table 11.4). -/
def retryBytes (x : Link) : Nat := (x.retry.map fun r => 50 + r.2.hdr.len.toNat).sum
def retryRoom (s : State) (p : Nat) (half : Bool) (h : Hdr) : Bool :=
  decide (retryBytes (linkAt s p half) + 50 + h.len.toNat ≤ if portSplit s p then 131072 else 262144)

/-- Flits of a receive buffer's VC are free again: the next link control frame says so (R213). -/
def freeFl (src : Option (Nat × Bool × Nat)) (n : Nat) : Act s₀ Unit :=
  match src with
  | some (p, h, v) => modLink p h fun x => { x with freed := bvAdd x.freed v n }
  | none => skip

/-- The wire of a frame this chip puts on a link (R216). -/
def linkWire (half : Bool) (lseq : BitVec 16) (stomp : Bool) : Wire :=
  { Wire.none with half := half, lseq := lseq, crc := BitVec.ofNat 8 (crc8 (leBytes 2 lseq.toNat)), stomp := stomp }

/-- A frame goes out on a link: its head takes a credit and the next LSEQ, its tail follows as far as credits reach, and it stays in
the retry buffer. Flits that leave free the buffer they stood in. -/
def linkSend (p : Nat) (half : Bool) (src : Option (Nat × Bool × Nat)) (pk : Packet) : Act s₀ Unit := do
  let s ← st
  let x := linkAt s p half
  let v := pk.hdr.vc.toNat
  let n := flitsOf pk.hdr
  let k := min n (credLeft s p half v)
  let q : Packet := { pk with wire := linkWire half x.lseqTx pk.wire.stomp }
  setLink p half { x with
    lseqTx := x.lseqTx + 1, retry := x.retry ++ [(x.lseqTx, q)], sentFl := listAdd x.sentFl v k,
    owed := if k < n then x.owed ++ [⟨v, n - k, src⟩] else x.owed, ackTs := if x.retry.isEmpty then s.ts else x.ackTs }
  if portSplit s p then modRte fun y => { y with alt := y.alt ^^^ BitVec.ofNat 8 (2 ^ p) } else skip
  freeFl src k
  sendFrame (.link p half) (.packet q) (torusEth s p)

/-- Credits have come in: the tails that wait for them follow. -/
def tailsOn (p : Nat) (half : Bool) : Act s₀ Unit := do
  let s ← st
  each (linkAt s p half).owed fun w => do
    let s ← st
    let k := min w.n (credLeft s p half w.vc)
    modLink p half fun x => { x with
      sentFl := listAdd x.sentFl w.vc k,
      owed := (mapIf (fun y => y.vc == w.vc) (fun y => { y with n := y.n - k }) x.owed).filter fun y => y.n != 0 }
    freeFl w.src k

/-! ### Receive buffers of a torus port (R211, R212) -/

/-- A packet stands in the buffer of a VC of an input. -/
def inBuffer (p : Nat) (half : Bool) (v : Nat) (t : Tx) : Bool :=
  match t with
  | ⟨.transit q, .packet pk, _⟩ => q == p && pk.wire.half == half && pk.hdr.vc.toNat == v
  | _ => false

/-- Flits in the buffer of a VC: of the packets that wait there, and of tails that have not left yet. -/
def heldFl (s : State) (p : Nat) (half : Bool) (v : Nat) : Nat :=
  (s.outs.tx.map fun t => match t.msg with | .packet pk => if inBuffer p half v t then flitsOf pk.hdr else 0 | _ => 0).sum
    + (s.links.map fun l => (l.2.owed.map fun w => if w.src == some (p, half, v) then w.n else 0).sum).sum

/-- The buffer a packet arrives in. -/
def bufOf (p : Nat) (pk : Packet) : Nat × Bool × Nat := (p, pk.wire.half, pk.hdr.vc.toNat)

/-- The packet goes into its VC's buffer, to be routed or taken when its turn comes. -/
def bufKeep (p : Nat) (pk : Packet) : Act s₀ Unit := send (.transit p) (.packet { pk with wire := { pk.wire with taken := true } })

/-! ### Link-level retry at the receiver (R216) -/

/-- A link control frame leaves: ACK of the last frame taken in order, a NAK while one is owed, and the flits freed (R213). -/
def lcfOut (p : Nat) (half : Bool) : Act s₀ Unit := do
  let s ← st
  let x := linkAt s p half
  let f : Lcf := ⟨x.lseqRx - 1, x.nakWait, x.freed⟩
  if x.nakWait then bump (RTE + 0x208) else skip
  sendFrame (.link p half) (.lcf f (lcfFrame s p f)) (torusEth s p)
  setLink p half { x with lcfTs := s.ts }

/-- A frame that fails, or is not the next one: the LSEQ expected is NAKed at once, and every frame until it is discarded. -/
def linkNak (p : Nat) (half : Bool) : Act s₀ Unit := do
  let s ← st
  if (linkAt s p half).nakWait then skip
  else do
    modLink p half fun x => { x with nakWait := true }
    lcfOut p half

/-- The frame carries the next LSEQ, under a CRC-8 that agrees. -/
def inOrder (s : State) (p : Nat) (w : Wire) : Bool :=
  w.crc.toNat == crc8 (leBytes 2 w.lseq.toNat) && w.lseq == (linkAt s p w.half).lseqRx

/-- A frame accepted on a link: the next LSEQ is expected. -/
def linkTake (p : Nat) (half : Bool) : Act s₀ Unit :=
  modLink p half fun x => { x with lseqRx := x.lseqRx + 1, nakWait := false }

/-- Whether a packet's bank is live (R225). -/
def bankLive (s : State) (h : Hdr) : Bool :=
  let e := cfgOf s (RTE + 8)
  h.epoch.toNat == fld e 0 1 || bit e 1

/-- A packet of the other epoch is held here: OLD_CLEAR has to wait anew (R226). -/
def oldNote (h : Hdr) : Act s₀ Unit := do
  let s ← st
  let e := cfgOf s (RTE + 8)
  if h.epoch.toNat = fld e 0 1 then skip
  else do
    modRte fun x => { x with oldTs := s.ts }
    if bit e 1 then regFld (RTE + 8) 2 1 0 else skip

/-- Packets of the other epoch the chip holds (R225): in receive buffers, in the stores of its end points, and in retry buffers. -/
def oldCount (s : State) : Nat :=
  let inj := fld (cfgOf s (RTE + 8)) 0 1
  let old (pk : Packet) : Bool := pk.hdr.epoch.toNat != inj
  s.outs.tx.countP (fun t => match t with
      | ⟨.transit _, .packet pk, _⟩ => old pk
      | _ => false)
    + s.tbl.park.countP old + s.col.held.countP old + (s.links.map fun x => x.2.retry.countP fun r => old r.2).sum

/-- A command that may let go of such packets: the count was not 0 until now, so OLD_CLEAR waits from here (R226). -/
def oldTouch : Act s₀ Unit := do
  let s ← st
  if oldCount s = 0 then skip else modRte fun x => { x with oldTs := s.ts }

/-- A frame in order leaves its link with no effect: its flits are free again. -/
def linkVoid (p : Nat) (pk : Packet) : Act s₀ Unit := do
  linkTake p pk.wire.half
  freeFl (some (bufOf p pk)) (flitsOf pk.hdr)

/-- What every frame with a Ghedin packet meets on a torus port (R200, R209, R215, R216, R225): dropped on a port that is not UP;
NAKed when it is not the next one; a credit overrun when its VC has no free flit (R211); dropped under the stomp code or POISON, and
where its bank is not live. `k` takes what is left. -/
def linkGate (p : Nat) (pk : Packet) (k : Act s₀ Unit) : Act s₀ Unit := do
  let s ← st
  let w := pk.wire
  if halfState s p w.half ≠ 4 then offPort p w.half
  else if !inOrder s p w then linkNak p w.half
  else if vcCred s p pk.hdr.vc.toNat ≤ heldFl s p w.half pk.hdr.vc.toNat then modLink p w.half fun x => { x with overrun := true }
  else if w.stomp || bit pk.hdr.flags.toNat 2 then do
    linkVoid p pk
    bump (RTE + 0x200)
  else if !bankLive s pk.hdr then do
    linkVoid p pk
    bump (RTE + 0x214)
  else do
    linkTake p w.half
    oldNote pk.hdr
    k

/-! ### Receive buffers of an open port (R206) -/

/-- Bytes a priority's receive buffer holds. -/
def rxCap (s : State) (p : Nat) : Nat := if portSplit s p then 262144 else 524288

/-- XOFF and XON of a priority, in bytes; halved with SPLIT. -/
def rxMarks (s : State) (p : Nat) : Nat × Nat :=
  let w := regOf s (fabW p 0x58)
  let u := if portSplit s p then 512 else 1024
  (u * fld w 8 10, u * fld w 18 10)

/-- An enabled priority's buffer has passed XOFF or fallen below XON: its partner hears of it. -/
def rxJudge (p : Nat) (half : Bool) (q : Nat) : Act s₀ Unit := do
  let s ← st
  let x := linkAt s p half
  let n := x.fill.getD q 0
  let off := x.xoff.any fun y => y.1 == q
  let pfc (v : BitVec 16) : Act s₀ Unit :=
    sendFrame (.link p half) (.pfc q v) (openEth s p half 5 (.link p half) (.pfc q v))
  if !bit (regOf s (fabW p 0x58)) q then skip
  else if !off && decide ((rxMarks s p).1 < n) then do
    setLink p half { x with xoff := (q, s.ts) :: x.xoff }
    pfc 0xFFFF
  else if off && decide (n < (rxMarks s p).2) then do
    setLink p half { x with xoff := x.xoff.filter fun y => y.1 != q }
    pfc 0
  else skip

/-- How many bytes stand in a priority's buffer once `more` bytes have come, as far as the chip has drained it: open (log entry 80). -/
def rxLevel (s : State) (p : Nat) (half : Bool) (q more : Nat) : Nat :=
  (Config.freeWord s.nonce (64 * p + 32 * b2n half + q)).toNat % ((linkAt s p half).fill.getD q 0 + more + 1)

def rxSet (p : Nat) (half : Bool) (q n : Nat) : Act s₀ Unit :=
  modLink p half fun x => { x with fill := (List.range 8).map fun i => if i = q then n else x.fill.getD i 0 }

/-- A frame comes into the buffer of its priority; the other priorities' buffers drain. It is lost where the buffer of a priority
that is not lossless is full. -/
def rxTake (p : Nat) (half : Bool) (q : Nat) : Act s₀ Bool := do
  let s ← st
  let n := rxLevel s p half q 4198
  each (List.range 8) fun i => rxSet p half i (min (rxCap s p) (if i = q then n else rxLevel s p half i 0))
  emit .nonce
  each (List.range 8) fun i => rxJudge p half i
  if decide (rxCap s p < n) && !bit (regOf s (fabW p 0x58)) q then do
    bump (fabW p 0x120)
    pure false
  else pure true

end Sys2Proof.Machine
end

