-- ==== Sys2Proof/Machine/Route.lean ====
section
/-! DEFINITION. Routing on the torus (R218, R219, R228) and what a packet for this chip meets before its handler (R220). -/

namespace Sys2Proof.Machine

variable {s₀ : State}

/-! ### Routing (R218, R219) -/

/-- The signed offset on an axis; a tie goes +. -/
def offAxis (s : State) (a here dst : Nat) : Int :=
  let n := dimOf s a
  let d := (dst + n - here % n) % n
  if 2 * d ≤ n then d else (d : Int) - n

def offs (s : State) (dst : Nat) : List (Nat × Int) :=
  [0, 1, 2].map fun a => (a, offAxis s a (axis (myCoord s) a) (axis dst a))

/-- The direction of an axis offset. -/
def offDir (x : Nat × Int) : Nat := 2 * x.1 + b2n (decide (0 < x.2))

/-- The group a COL packet's VC names (Table 12.3). -/
def vcGroup (vc : Nat) : Nat := (vc - 12) / 3 % 4

/-- The first VC of a class, or of the group a COL packet's VC names. -/
def vcBase (h : Hdr) : Nat := if h.cls = 4 then 12 + 3 * vcGroup h.vc.toNat else 3 * h.cls.toNat

def bankW (s : State) (h : Hdr) : Nat := cfgOf s (RTE + 0x20 + 4 * h.epoch.toNat)

/-- The direction crosses a dateline link from here. -/
def crosses (s : State) (d : Nat) : Bool :=
  let a := d / 2
  let line := axis (cfgOf s (RTE + 4)) a
  let c := axis (myCoord s) a
  if d % 2 = 1 then c == line else c == (line + 1) % dimOf s a

/-- What a routed packet meets: a link and VC, a dead port, or nothing free yet. -/
inductive Route where
  | out (p vc : Nat)
  | dead
  | wait
deriving DecidableEq, Repr

/-- A link and VC of a direction, when the VC is free and holds a credit and the retry buffer has room. -/
def viaDir (s : State) (d vc : Nat) (h : Hdr) : Route :=
  match dirPort s d with
  | none => .dead
  | some p =>
    let f := nextHalf s p
    if !portUp s p then .dead
    else if credLeft s p f vc = 0 ∨ !vcFree s p f vc ∨ !retryRoom s p f h then .wait
    else .out p vc

/-- The adaptive choices: minimal directions the bank allows, with the credits of their VC. -/
def adaptive (s : State) (h : Hdr) : List (Nat × Nat) :=
  if !bit (bankW s h) (8 + h.cls.toNat) || h.mcast != 0 then []
  else (offs s h.dst.toNat).flatMap fun x =>
    let d := offDir x
    if x.2 = 0 || !bit (bankW s h) d then []
    else match viaDir s d (vcBase h) h with
      | .out p v => [(p, credLeft s p (nextHalf s p) v)]
      | _ => []

/-- The port of most credits, the lowest direction among equals. -/
def bestPort (l : List (Nat × Nat)) : Option Nat :=
  let m := l.foldl (fun a x => max a x.2) 0
  (l.find? fun x => x.2 == m).map Prod.fst

/-- An escape VC towards a direction: high on a dateline link and after it (R218). -/
def escapeVia (s : State) (h : Hdr) (d : Nat) (vin : Option (Nat × Nat)) : Route :=
  let hi := crosses s d || vin == some (2, d)
  viaDir s d (vcBase h + (if hi then 2 else 1)) h

/-- The route of a unicast packet; `vin` is the kind of its arrival VC and its direction of travel, none
when it was injected here. -/
def routeOf (s : State) (h : Hdr) (vin : Option (Nat × Nat)) : Route :=
  let free := match vin with | none => true | some v => v.1 == 0
  match if free then bestPort (adaptive s h) else none with
  | some p => .out p (vcBase h)
  | none => match (offs s h.dst.toNat).find? fun x => x.2 != 0 with
    | some x => escapeVia s h (offDir x) vin
    | none => .wait

/-- A packet goes where its route says, from the receive buffer it stands in (none: it is injected here); towards a port that is not
UP it is discarded (R228). Answers whether it is dealt with. -/
def goTo (r : Route) (src : Option (Nat × Bool × Nat)) (pk : Packet) : Act s₀ Bool := do
  let s ← st
  match r with
  | .out p v => do
    linkSend p (nextHalf s p) src { pk with hdr := { pk.hdr with vc := BitVec.ofNat 5 v } }
    pure true
  | .dead => do
    bump (RTE + 0x21C)
    freeFl src (flitsOf pk.hdr)
    pure true
  | .wait => pure false

/-- Directions a line multicast leaves in from its source, and hops to go in each (R219). -/
def lineDirs (s : State) (a : Nat) : List (Nat × Nat) :=
  let n := dimOf s a
  [(2 * a + 1, n / 2), (2 * a, (n - 1) / 2)].filter fun x => x.2 != 0

/-- The direction a packet that came in by a port travels in. -/
def travelDir (s : State) (p : Nat) : Nat := let d := portDir s p; if d % 2 = 1 then d - 1 else d + 1

/-- The kind of a packet's arrival VC and its direction of travel. -/
def cameBy (s : State) (p : Nat) (pk : Packet) : Option (Nat × Nat) := some (pk.hdr.vc.toNat % 3, travelDir s p)

/-- The way on of a multicast packet along its line; none where its last hop ends (R219). -/
def lineRoute (s : State) (p : Nat) (pk : Packet) : Option Route :=
  let a := pk.hdr.mcast.toNat - 1
  let n := dimOf s a
  let d := travelDir s p
  let far := if d % 2 = 1 then n / 2 else (n - 1) / 2
  let c := axis (myCoord s) a
  let o := axis pk.hdr.src.toNat a
  let k := if d % 2 = 1 then (c + n - o) % n else (o + n - c) % n
  if d / 2 ≠ a ∨ far ≤ k then none else some (escapeVia s pk.hdr d (cameBy s p pk))

/-! ### What an arriving packet meets before its handler -/

/-- The requests taken here whose answers, or forwarded parts, are not yet all injected: each holds a request slot (R220). -/
def slotKeys (s : State) : List (Coord × BitVec 16) :=
  (s.outs.tx.filterMap fun t => match t with
    | ⟨.fabric, .packet pk, _⟩ =>
      if pk.hdr.cls = 1 then some (pk.hdr.dst, pk.hdr.optag) else if pk.hdr.cls = 2 then some (pk.hdr.src, pk.hdr.optag) else none
    | _ => none).foldl (fun l k => if l.contains k then l else k :: l) []

/-- A request slot is free. How many there are is open; there is one at least. -/
def slotFree (s : State) : Bool := (slotKeys s).isEmpty || decide ((slotKeys s).length ≤ Config.reqSlots)

/-- A packet for this chip cannot be taken yet: a request without a slot, or a multicast packet whose next link has no room
(R219, R220). -/
def copyWaits (s : State) (p : Nat) (pk : Packet) : Bool :=
  (pk.hdr.cls == 0 && !slotFree s) || (pk.hdr.mcast != 0 && isReady s && lineRoute s p pk == some .wait)

/-- A packet taken here leaves its receive buffer: a multicast packet goes on along its line, if this chip passes packets (R316). -/
def passOn (p : Nat) (pk : Packet) : Act s₀ Unit := do
  let s ← st
  let src := some (bufOf p pk)
  match if pk.hdr.mcast = 0 then none else lineRoute s p pk with
  | some r =>
    if isReady s then do
      let _ ← goTo r src pk
      skip
    else do
      bump (RST + 0x88)
      freeFl src (flitsOf pk.hdr)
  | none => freeFl src (flitsOf pk.hdr)

/-- A Ghedin packet of a port: on a torus port it passes the link's checks, and is taken at once or, behind others of its VC or while
it has to wait, kept in the receive buffer; on an open port it passes the buffer of its priority. -/
def portTake (p : Nat) (pk : Packet) (k : Act s₀ Unit) : Act s₀ Unit := do
  let s ← st
  if pk.wire.taken then k
  else if 6 ≤ p then
    if halfState s p pk.wire.half = 4 then do
      if ← rxTake p pk.wire.half (prioOf pk.wire.prio) then k else skip
    else skip
  else linkGate p pk do
    let s ← st
    if heldFl s p pk.wire.half pk.hdr.vc.toNat ≠ 0 ∨ copyWaits s p pk then bufKeep p pk
    else do
      passOn p pk
      k

end Sys2Proof.Machine
end

