-- ==== Sys2Proof/Machine/Report.lean ====
section
/-! DEFINITION. The CLB report log (R297, Table 16.5). -/

namespace Sys2Proof.Machine

variable {s₀ : State}

def CLB_LOG_PROD : Nat := CLB + 0x40
def CLB_LOG_CONS : Nat := CLB + 0x44
def CLB_LOG_LOST : Nat := CLB + 0x48

/-- FIELD of a report record: register address, LSB and width. -/
def fieldId (a lsb width : Nat) : Nat := a / 4 % 2 ^ 22 + lsb * 2 ^ 22 + (width - 1) * 2 ^ 27

/-- A record enters the log of 512; a full log drops it. -/
def report (kind dom txn field written applied section_ : Nat) : Act s₀ Unit := do
  let s ← st
  let prod := regOf s CLB_LOG_PROD
  if sub32 prod (regOf s CLB_LOG_CONS) = 512 then bump CLB_LOG_LOST
  else do
    let r : Rep := ⟨BitVec.ofNat 32 prod, kind, dom, BitVec.ofNat 16 txn, BitVec.ofNat 32 field, BitVec.ofNat 32 written,
      BitVec.ofNat 32 applied, BitVec.ofNat 32 section_, s.ts⟩
    modClb fun c => { c with log := (c.log ++ [r]).drop (c.log.length + 1 - 512) }
    bump CLB_LOG_PROD

/-- The 32 bytes of a report record. -/
def repBytes (r : Rep) : List Byte :=
  leBytes 4 r.seq.toNat ++ leBytes 1 r.kind ++ leBytes 1 r.dom ++ leBytes 2 r.txn.toNat ++ leBytes 4 r.field.toNat
    ++ leBytes 4 r.written.toNat ++ leBytes 4 r.applied.toNat ++ leBytes 4 r.section_.toNat ++ leBytes 8 r.ts

/-- Table 18.4: the 32 bytes of a fault record. -/
def fltBytes (r : FltRec) : List Byte :=
  leBytes 4 r.seq.toNat ++ leBytes 1 r.cls ++ leBytes 1 r.code ++ leBytes 1 r.unitKind ++ leBytes 1 r.unit
    ++ leBytes 1 r.status.toNat ++ leBytes 1 (r.dom + 128 * b2n r.opValid) ++ leBytes 1 r.chipInc.toNat
    ++ leBytes 1 r.unitInc.toNat ++ leBytes 4 r.tag.toNat ++ leBytes 8 r.ts ++ leBytes 8 r.info.toNat

end Sys2Proof.Machine
end

