-- ==== Sys2Proof/Machine/TxnBase.lean ====
section
/-! DEFINITION. The states of a configuration transaction (R298, Table 16.6), its shadows and its outcomes. -/

namespace Sys2Proof.Machine

variable {s₀ : State}

def CRN_MBX_STATUS : Nat := CRN + 0x34
def CLB_TXN_CFG : Nat := CLB + 8
def CLB_IMG_STATUS : Nat := CLB + 0x20

/-- The RWL fields of a register. -/
def rwlFlds (a : Nat) : List Fld :=
  match regInfo a with
  | some r => r.flds.filter fun f => f.acc == .rwl
  | none => []

/-- A register's value with the fields listed taken from `w`. -/
def mergeFlds (fs : List Fld) (v w : Nat) : Nat := fs.foldl (fun v f => putFld v f.lsb f.width (fld w f.lsb f.width)) v

/-- LAST takes a command's outcome; those of COMMIT, of ABORT and of a load of HD0's signal CLB_TXN_CFG.VEC of HD0. -/
def txnLast (status : Nat) (sig : Bool) : Act s₀ Unit := do
  modClb fun c => { c with last := BitVec.ofNat 8 status }
  let s ← st
  if sig then signal 0 (fld (regOf s CLB_TXN_CFG) 16 8) else skip

/-- A transaction opens: TXN_ID moves on, skipping 0, and the shadows read the active values. -/
def txnStart (t : TxnSt) : Act s₀ Unit := do
  let s ← st
  modClb fun c => { c with st := t, id := if c.id = 0xFFFF then 1 else c.id + 1, since := s.ts, img := none }
  emit .shadowClear

/-- A transaction ends: the shadows are discarded. -/
def txnStop (status : Nat) (sig : Bool) : Act s₀ Unit := do
  modClb fun c => { c with st := .idle, img := none }
  emit .shadowClear
  txnLast status sig

/-- A load ends (R292): STATUS, FAIL_STEP and SECTION, and LAST. The flash image that fails leaves the chip in
WAIT_IMAGE (R310). -/
def loadEnd (status step section_ : Nat) (host : Bool) : Act s₀ Unit := do
  regSet CLB_IMG_STATUS (2 * step + 256 * status + 65536 * section_)
  modClb fun c => { c with buf := [] }
  txnLast status host
  if host ∨ status / 16 = 0 then skip
  else do
    setStage 8 0
    logFault 12 (freeCode 12 8) 0 0 0 none 0 0

/-- A mailbox command completes (R337). -/
def mbxEnd (status : Nat) : Act s₀ Unit := do
  let s ← st
  modCrown fun c => { c with mbx := none, fwBuf := [] }
  regSet CRN_MBX_STATUS (256 * status + 65536 * (fld (regOf s CRN_MBX_STATUS) 16 16 + 1))
  signal 0 (fld (regOf s (CRN + 4)) 8 8)

/-- An RWL write reaches the shadow (R298). -/
def shadowWrite (a v : Nat) : Act s₀ Unit := do
  let s ← st
  emit (.shadow a (BitVec.ofNat 32 (mergeFlds (rwlFlds a) (shadowOf s a) v)))

/-- BEGIN, in each state of Table 16.6. -/
def txnBegin : Act s₀ Unit := do
  let s ← st
  match s.clb.st with
  | .idle => do
    txnStart .open
    txnLast OK false
  | .open => do
    modClb fun c => { c with since := s.ts }
    txnLast REFUSED_FULL false
  | _ => txnLast REFUSED_FULL false

/-- ABORT, in each state of Table 16.6. -/
def txnAbort : Act s₀ Unit := do
  let s ← st
  match s.clb.st with
  | .idle => txnLast BAD_DESCRIPTOR true
  | .open => txnStop ABORTED true
  | _ => txnLast REFUSED_FULL true

/-- IDLE_MS in ns. -/
def idleNs (s : State) : Nat := 1000000 * fld (regOf s CLB_TXN_CFG) 0 16

end Sys2Proof.Machine
end

