-- ==== Sys2Proof/Machine/Serve.lean ====
section
/-! DEFINITION. Packets reaching this chip: what an arriving request, forwarded request or answer
meets before its handler (R253 to R258, R315 to R317), and how an operation finishes once the writes
it sent are acknowledged. -/

namespace Sys2Proof.Machine

variable {s₀ : State}

def RST_STALE_RSP : Nat := RST + 0x80
def RST_TR_ANSWERED : Nat := RST + 0x84
def RST_PASS_DISCARD : Nat := RST + 0x88

/-- Who an arriving packet is served for: the torus under the domain it names, or a peer entry. -/
structure Via where
  peer : Option Nat
  dom  : Nat
deriving DecidableEq, Repr

/-- A peer key: (OPTAG, SEQ). -/
def dedupKeys (s : State) : Nat := s.peers.foldl (fun n x => n + x.2.dedup.length) 0

/-- A refusal that counts a TARGET_RESET answer (R316). -/
def refuseV (v : Via) (q : Packet) (status : Nat) : Act s₀ Unit := do
  if status = TARGET_RESET then bump RST_TR_ANSWERED else skip
  refuse v.peer q status

/-- The acknowledgement every peer packet gets (R256): header only, TAG and SEQ copied. -/
def e2eAck (n : Nat) (q : Packet) : Act s₀ Unit := do
  let s ← st
  let h := mkHdr s 1 0x97 0 q.hdr.hd.toNat 0 0 0 0 0 q.hdr.optag.toNat 0
  sendToPeer n (.of { peerHdr s n h with seq := q.hdr.seq, gen := q.hdr.gen, flags := q.hdr.flags &&& 8 } .none)

/-- HELLO and link control are the packets of VER 0 (R198, R208, R213). -/
def isHello (h : Hdr) : Bool := h.ver == 0 && h.cls == 3 && h.op == 0

/-- The checks of R253 on a frame that came in on a port half from an address: nothing, or the counter of the drop. HELLO is read
in every version. -/
def peerDrop (s : State) (p : Nat) (half : Bool) (src : Nat) (h : Hdr) : Option Nat :=
  let n := fld h.src.toNat 0 8
  let w := regOf s (peerW n 0)
  if !bit (regOf s SVC) 0 || !bit w 0 || peerPort s n != p || peerHalf s n != half || src != peerAddr s n
      || (!isHello h && h.ver.toNat != fld w 23 4) then some (SVC + 0x10)
  else if h.dst.toNat != fld (regOf s (peerW n 2)) 0 18 then some (SVC + 0x14)
  else none

/-- A version-2 peer knows WRITE, READ and POOL, their answers and E2E_ACK only (R255). -/
def opKnownV2 (opc : Nat) : Bool := [0x10, 0x11, 0x13, 0x90, 0x91, 0x93, 0x97].contains opc

/-- R207, with FAB_ECN.EN: a CE mark makes an ECN flag owed; a received ECN flag halves the send rate, at most once per 50 µs
and not below 1 %. -/
def ecnIn (n : Nat) (pk : Packet) : Act s₀ Unit := do
  let s ← st
  if !ecnOn s (peerPort s n) then skip
  else
  let x := peerAt s n
  let x := if pk.ce ∧ x.flagDue.isNone then { x with flagDue := some s.ts } else x
  if bit pk.hdr.flags.toNat 0 then
    if x.cutTs = 0 ∨ due s x.cutTs 50000 then
      setPeer n { x with ecnTs := s.ts, cutTs := max 1 s.ts, rate := max 100 (x.rate / 2) }
    else setPeer n { x with ecnTs := s.ts }
  else if pk.ce then setPeer n x
  else skip

/-- A packet for this chip taken from port `p`: a torus packet goes on; a peer's packet passes R253,
R255 and the recorded keys of R256, and is acknowledged. FWD and COL have no place on an open port (R204). -/
def arrive (p : Nat) (pk : Packet) (k : Via → Act s₀ Unit) : Act s₀ Unit := portTake p pk do
  let s ← st
  if p < 6 then
    if pk.hdr.dst.toNat = myCoord s then k ⟨none, pk.hdr.hd.toNat⟩ else skip
  else if pk.hdr.cls = 2 ∨ pk.hdr.cls = 4 then bump (fabW p 0x11C)
  else match peerDrop s p pk.wire.half pk.wire.src.toNat pk.hdr with
    | some c => bump c
    | none => do
      let n := fld pk.hdr.src.toNat 0 8
      ecnIn n pk
      let s ← st
      let x := peerAt s n
      let key := (pk.hdr.optag, pk.hdr.seq)
      if pk.hdr.ver = 2 ∧ !opKnownV2 pk.hdr.op.toNat then bump (RTE + 0x210)
      else if pk.hdr.op = 0x97 then k ⟨some n, fld (regOf s SVC) 2 2⟩
      else if x.dedup.any (fun y => y.1 == key.1 && y.2.1 == key.2) then e2eAck n pk
      else if dedupKeys s ≥ 65536 then bump (SVC + 0x24)
      else do
        setPeer n { x with dedup := x.dedup ++ [(key.1, key.2, s.ts)] }
        e2eAck n pk
        k ⟨some n, fld (regOf s SVC) 2 2⟩

/-- A request (REQ or FWD) of the given OP: a chip in reset answers TARGET_RESET (R316). Of a peer's
requests only READ, WRITE and POOL have a right a window can grant (R258, R259). -/
def serving (p : Fin 8) (pk : Packet) (opc : Nat) (k : Via → Act s₀ Unit) : Act s₀ Unit :=
  if pk.hdr.op.toNat ≠ opc ∨ pk.hdr.cls ≠ 0 then skip
  else arrive p.val pk fun v => do
    let s ← st
    if !isReady s then refuseV v pk TARGET_RESET
    else if v.peer.isSome && !([0x10, 0x11, 0x13].contains opc) then refuse v.peer pk REFUSED_QUOTA
    else k v

/-- MSTATE of a row's entry. -/
def setMstate (t r m : Nat) : Act s₀ Unit :=
  modTbl fun x => { x with ov := mapIf (fun e => e.table == t && e.row == r) (fun e => { e with mstate := m }) x.ov }

/-- The requests of a row's move that are still out are given up: an answer to one is of no live slot. -/
def dropMig (t r : Nat) : Act s₀ Unit := do
  let s ← st
  emit (.reqs (s.reqs.filter fun q => match q.pk.body with
    | .mig a b _ => !(a == t && b == r)
    | _ => true))

/-- A move not yet switched is cancelled (R97, R99): the row stays, and N is told to free its reservation. -/
def cancelMove (status : Nat) (m : Mig) : Act s₀ Unit := do
  modTbl fun x => { x with migs := x.migs.filter fun y => !(y.table == m.table && y.row == m.row) }
  dropMig m.table m.row
  setMstate m.table m.row 0
  bump (TBL + 0x30)
  let _ ← request none m.dest.toNat 0x15 0 0 1 1 1 .mig (.mig m.table m.row .cancel)
  match m.op with
  | some r => endOp r status 0
  | none => skip

/-- The exchange of a move's packet has failed: a move not yet switched is cancelled. -/
def moveOff (status t r : Nat) (x : MigStep) : Act s₀ Unit := do
  let s ← st
  match s.tbl.migs.find? fun m => m.table == t && m.row == r with
  | some m => if x = .cancel then skip else cancelMove status m
  | none => skip

/-! ### Queue pairs -/

def qpZero : Qp := ⟨[], none, [], [], 10000, 0, none, 0⟩
def qpAt (s : State) (q : Nat) : Qp := (mapGet s.qps q).getD qpZero
def setQp (q : Nat) (x : Qp) : Act s₀ Unit := do
  let s ← st
  emit (.qps (mapSet s.qps q x))

def qpState (s : State) (q : Nat) : Nat := fld (regOf s (qpW q 0)) 13 2
def qpPmtu (s : State) (q : Nat) : Nat := match fld (regOf s (qpW q 0)) 3 2 with | 0 => 1024 | 1 => 2048 | _ => 4096

/-- Operations of a queue pair's pool requests. -/
def qpOps (s : State) (q : Nat) : List Op := s.ops.filter fun o => o.ref.ring.val == 65 && o.ref.idx.toNat / 2 == q

/-- Each operation that held a base before a flip adds 1 to DRAIN_ESC when it is over (R87): one that holds the inactive
base, but for those that captured it as the working one since the flip. -/
def drainAct (o : Op) : Act s₀ Unit :=
  each o.hold fun h => do
    let s ← st
    match mapGet s.tbl.desc h.1 with
    | some d =>
      if h.2.1 != d.active && h.2.2 != d.ver + 1 then do
        let _ ← escDo d.drain (escAt s d.drain).gen.toNat (.add 1)
        skip
      else skip
    | none => skip

/-- The QP's requests end with nothing. -/
def qpDrop (q : Nat) : Act s₀ Unit := do
  let s ← st
  setQp q { qpAt s q with part := [], reqs := [], answers := [], wr := none }
  emit (.reqs (s.reqs.filter fun x => match x.kind with | .roce n _ => n != q | _ => true))
  each (qpOps s q) fun o => do
    endOp o.ref ABORTED 0
    let s ← st
    emit (.ops (s.ops.filter fun x => x.ref != o.ref))
    drainAct o

/-- The QP enters ERROR (R261, R262, R264): its unanswered requests are discarded. -/
def qpError (q : Nat) : Act s₀ Unit := do
  let s ← st
  if qpState s q = 2 then skip
  else do
    regFld (qpW q 0) 13 2 2
    bump (SVC + 0x2C)
    qpDrop q

/-- A contribution whose acknowledgement did not arrive (R73): the sums of its context for the table are undefined. -/
def contribLost (q : Req) : Act s₀ Unit :=
  match q.pk.body with
  | .contrib c t _ _ => modSac fun x =>
    let y := (mapGet x.ctx c).getD ⟨0, 0, [], [], [], []⟩
    { x with ctx := mapSet x.ctx c { y with lost := t :: y.lost.filter (· != t) } }
  | _ => skip

/-- The operation of a slot ends. -/
def reqFail (q : Req) (status detail : Nat) : Act s₀ Unit := do
  dropReq q.optag
  match q.kind with
  | .relay n pk => refuse (some n) pk status
  | .roce n psn => do
    sendQp n (.roceNak n psn 2)
    bump (SVC + 0x1C)
    qpError n
  | .image fw _ => do
    let s ← st
    emit (.reqs (s.reqs.filter fun x => match x.kind with | .image f _ => f != fw | _ => true))
    if fw then mbxEnd status else loadEnd status 1 0 true
  | _ => skip
  match q.pk.body with
  | .mig t r x => moveOff status t r x
  | .contrib _ _ _ _ => if status / 16 = 3 then contribLost q else skip
  | _ => skip
  match q.op with
  | some r => endOp r status detail
  | none => skip

/-- One answer of a slot is in. The owner's says how many parts of the request it forwarded, whichever answer comes
first (R68); the slot is free when all are in. -/
def slotNext (q : Req) (pk : Packet) (fwd : Nat) : Act s₀ Unit :=
  let direct := q.direct || q.via.isSome || pk.hdr.src == q.dest
  let left := q.left - 1 + fwd
  if direct ∧ left = 0 then dropReq q.optag else modReq q.optag fun x => { x with left := left, direct := direct }

/-- DETAIL that goes with a STATUS a target answered (R252). -/
def answerDetail (status : Nat) : Nat := if status = REFUSED_QUOTA then 2 else 0

/-- An answer (RSP) of one of the given OPs: matched to its live slot by TAG, with the incarnation
rules of R317, which bind the chip that was asked and not one a request was forwarded to. A refusal ends the slot's operation with the STATUS in ADDR[7:0]. -/
def answered (p : Fin 8) (pk : Packet) (opc : Nat) (k : Req → Act s₀ Unit) : Act s₀ Unit :=
  if pk.hdr.op.toNat ≠ opc ∨ pk.hdr.cls ≠ 1 then skip
  else arrive p.val pk fun v => do
    let s ← st
    match s.reqs.find? (fun q => q.optag == pk.hdr.optag && q.via == v.peer) with
    | none => bump RST_STALE_RSP
    | some q =>
      match q.inc with
      | some i =>
        if p.val < 6 ∧ pk.hdr.src ≠ q.dest then k q
        else if i ≠ pk.hdr.inc then do
          bump RST_STALE_RSP
          reqFail q TARGET_RESET 0
        else k q
      | none => if p.val < 6 ∧ pk.hdr.src ≠ q.dest then k q else do
        modReq q.optag fun x => { x with inc := some pk.hdr.inc }
        k { q with inc := some pk.hdr.inc }

/-- The STATUS an answer without a payload stands for, by Table 0.3 (R12). -/
def failOf (pk : Packet) : Nat := failCode (pk.hdr.addr.toNat % 256)

/-- The STATUS a header-only refusal carries; 0 when the packet is no refusal. -/
def refusalOf (pk : Packet) : Nat := if pk.hdr.len = 0 ∧ pk.hdr.addr.toNat % 256 ≠ 0 then failOf pk else 0

/-- Requests of an operation that are still out. -/
def reqsOf (s : State) (r : OpRef) : List Req := s.reqs.filter fun q => q.op == some r

/-- An operation ends, once every packet it wrote has been acknowledged (R223). -/
def finish (r : OpRef) (status detail counts : Nat) : Act s₀ Unit := do
  let s ← st
  if (reqsOf s r).isEmpty then endOp r status detail counts
  else modOp r fun o =>
    { o with phase := .running, work := .xfer 0, status := BitVec.ofNat 8 status,
             detail := BitVec.ofNat 32 detail, counts := BitVec.ofNat 64 counts }

/-- A slot's answers are all in: an operation that waited only for them ends. -/
def slotDone (t : BitVec 16) (o : Option OpRef) : Act s₀ Unit := do
  dropReq t
  let s ← st
  match o with
  | none => skip
  | some r =>
    match findOp s r with
    | some x =>
      if x.phase = .running ∧ x.work = .xfer 0 ∧ (reqsOf s r).isEmpty then
        endOp r x.status.toNat x.detail.toNat x.counts.toNat
      else skip
    | none => skip

end Sys2Proof.Machine
end

