-- ==== Sys2Proof/Machine/TblOps.lean ====
section
/-! DEFINITION. Table descriptors, stretch maps, row addresses, owners, captured versions and touched
bits (R17, R80 to R90, R93, R94): what every engine that reaches a table row uses. -/

namespace Sys2Proof.Machine

variable {s₀ : State}

/-- Table 4.1: the 64 bytes of a descriptor as one number. -/
def tdBits (t : Nat) (d : TDesc) : Nat :=
  (t + 2 ^ 12 + 2 ^ 13 * b2n d.active + 2 ^ 14 * d.migMode)
  + 2 ^ 16 * (d.fmt + 2 ^ 4 * d.rule + 2 ^ 7 * b2n d.plink + 2 ^ 8 * d.group + 2 ^ 12 * d.dom)
  + 2 ^ 32 * d.ver.toNat + 2 ^ 64 * d.baseA + 2 ^ 128 * d.baseB + 2 ^ 192 * d.rows
  + 2 ^ 256 * ((d.rowBytes - 1) + 2 ^ 16 * d.drain + 2 ^ 32 * d.stretch)
  + 2 ^ 320 * d.map + 2 ^ 384 * d.state + 2 ^ 448 * d.touch

/-- The descriptor a 64-byte image spells, defined by domain `dom`. -/
def tdOfBits (b dom : Nat) : TDesc :=
  { active := bit b 13, migMode := fld b 14 2, fmt := fld b 16 4, rule := fld b 20 3,
    plink := bit b 23, group := fld b 24 4, dom := dom, ver := BitVec.ofNat 32 (fld b 32 32),
    baseA := fld b 64 64, baseB := fld b 128 64, rows := fld b 192 64, rowBytes := fld b 256 16 + 1,
    drain := fld b 272 16, stretch := fld b 288 32, map := fld b 320 64, state := fld b 384 64,
    touch := fld b 448 64, inactNew := false, releasing := false, bad := false, sr := false }

def tdGet (s : State) (t : Nat) : Option TDesc := mapGet s.tbl.desc t
def tdSet (t : Nat) (d : TDesc) : Act s₀ Unit := modTbl fun x => { x with desc := mapSet x.desc t d }

/-- A table a new operation may name (R84, R89). -/
def tdLive (s : State) (t : Nat) : Option TDesc :=
  match tdGet s t with
  | some d => if d.releasing then none else some d
  | none => none

/-- Row pitch (R81), also of state entries (R157). -/
def pitchOf (n : Nat) : Nat :=
  if n ≤ 64 then 64
  else if n ≤ 2048 then 2 ^ (Nat.log2 (n - 1) + 1)
  else cdiv n 2048 * 2048

/-- ELEM_FMT of Table 4.1; code 8 is raw bytes. -/
def fmtOf (c : Nat) : Option Fmt :=
  match c with
  | 0 => some .fp32 | 1 => some .bf16 | 2 => some .fp16 | 3 => some .e4m3 | 4 => some .e5m2
  | 5 => some .int8 | 6 => some .int16 | 7 => some .int32 | _ => none

/-- Elements of a row. -/
def rowElems (d : TDesc) : Nat :=
  match fmtOf d.fmt with
  | some f => d.rowBytes / FmtOf.bytes f
  | none => d.rowBytes

/-- Rule state of a row of a table, without remainders (R157): SROW 4 B, MSGD 4 and ADAM 8 B an element. -/
def ruleBytes (d : TDesc) : Nat :=
  if d.rule = 4 then 4 else if d.rule = 3 then 4 * rowElems d else if d.rule = 2 then 8 * rowElems d else 0

/-- Bytes of a row's state entry; in BF16_REM mode a bf16 table holds a remainder byte per element (R157, R158). -/
def stateBytes (d : TDesc) : Nat :=
  if d.rule = 0 then 0 else ruleBytes d + (if d.fmt = 1 ∧ !d.sr then rowElems d else 0)

/-- The state entries of a bf16 table are laid out for the MODE of the UPDATE that reaches them (R157; log entry 126). -/
def TDesc.forMode (d : TDesc) (mode : Nat) : TDesc := { d with sr := decide (d.fmt = 1 ∧ mode = 2) }

/-! ### Owners and places -/

def ovFind (s : State) (t r : Nat) : Option OvEntry := s.tbl.ov.find? fun e => e.table == t && e.row == r

/-- The override table after a cached entry was used: the last in the list is the one used last (R94). -/
def ovUse (l : List OvEntry) (t r : Nat) : List OvEntry :=
  match l.find? fun e => e.kind == 1 && e.table == t && e.row == r with
  | some e => (l.filter fun y => !(y.table == t && y.row == r)) ++ [e]
  | none => l

/-- A request follows what this chip knows of a row's owner; that is a use of a cached entry (R94). -/
def useRow (t r : Nat) : Act s₀ Unit := modTbl fun x => { x with ov := ovUse x.ov t r }

/-- The use that lies in an address of another chip's row. -/
def useAddr (a : Nat) : Act s₀ Unit :=
  match Loc.ofAddr a with
  | .table t r _ => useRow t r
  | _ => skip

/-- The stretch-map entry of a row (R82). -/
def mapEntry (s : State) (d : TDesc) (r : Nat) : Nat := leNat (s.hbm.getN (d.map + 4 * (r / d.stretch)) 4)

def homeChip (s : State) (d : TDesc) (r : Nat) : Nat := fld (mapEntry s d r) 0 18

/-- R17: the override entry names the owner, else the stretch map. -/
def ownerOf (s : State) (t : Nat) (d : TDesc) (r : Nat) : Nat :=
  match ovFind s t r with
  | some e => e.owner.toNat
  | none => homeChip s d r

/-- The local index of a row at its home (R82). -/
def localIdx (s : State) (d : TDesc) (r : Nat) : Nat := fld (mapEntry s d r) 18 14 * d.stretch + r % d.stretch

def guestBase (s : State) : Nat := regOf s (TBL + 0x10) + 2 ^ 32 * regOf s (TBL + 0x14)

/-- Where a row and its state lie on this chip: base A, base B, state, and the local index. -/
structure RowAt where
  a  : Nat
  b  : Nat
  st : Nat
  li : Option Nat
deriving DecidableEq, Repr

def rowAt (s : State) (t : Nat) (d : TDesc) (r : Nat) : RowAt :=
  let p := pitchOf d.rowBytes
  match ovFind s t r with
  | some e =>
    if e.kind = 3 then
      let g := guestBase s + 512 * e.gslot
      if d.plink then ⟨g, g + p, g + 2 * p, none⟩ else ⟨g, g, g + p, none⟩
    else
      let l := localIdx s d r
      ⟨d.baseA + l * p, d.baseB + l * p, d.state + l * pitchOf (stateBytes d), some l⟩
  | none =>
    let l := localIdx s d r
    ⟨d.baseA + l * p, d.baseB + l * p, d.state + l * pitchOf (stateBytes d), some l⟩

/-- The row's place in base A (false) or B (true). -/
def RowAt.base (x : RowAt) (b : Bool) : Nat := if b then x.b else x.a

/-- The guest units a row takes (R93). -/
def guestUnits (d : TDesc) : Nat :=
  cdiv ((if d.plink then 2 else 1) * pitchOf d.rowBytes + stateBytes d) 512

/-- This chip owns the row, or holds it as the source of a move not yet switched. -/
def ownsRow (s : State) (t : Nat) (d : TDesc) (r : Nat) : Bool := ownerOf s t d r == myCoord s

/-- Operations on the table or row complete DATA_FAULT: its SRAM word is lost (Table 18.2, arrays 4, 6). -/
def tblBad (s : State) (t r : Nat) : Bool :=
  (match tdGet s t with | some d => d.bad | none => false) || s.tbl.ovBad.contains (t, r)

/-! ### Captures (R23, R86) -/

/-- The base a class of operation captures: true is BASE_B. -/
def captureBase (d : TDesc) (learning : Bool) : Bool :=
  if learning && d.plink then !d.active else d.active

/-- The tag of a base (R88). -/
def baseVersion (d : TDesc) (b : Bool) : Nat :=
  if b == d.active then d.ver.toNat
  else if d.inactNew then (d.ver + 1).toNat else (d.ver - 1).toNat

/-- The base that holds a version, if one does (R69). -/
def baseOfVersion (d : TDesc) (v : Nat) : Option Bool :=
  if d.ver.toNat = v then some d.active
  else if baseVersion d (!d.active) = v ∧ (if d.active then d.baseA else d.baseB) ≠ 0 then some (!d.active)
  else none

/-- The base that an access which captured a version elsewhere reaches here (R27, R86): the working version of a linked
table is the inactive base's before its first write as well. -/
def baseCaptured (d : TDesc) (v : Word) : Option Bool :=
  if d.plink ∧ v = d.ver + 1 then some (!d.active) else baseOfVersion d v.toNat

/-- Operations that hold a base of a table (R86). -/
def holders (s : State) (t : Nat) (b : Bool) : Nat :=
  (s.ops.filter fun o => o.hold.any fun h => h.1 == t && h.2.1 == b).length

/-- An operation still holds the base that the last flip made inactive. The learning-class operations that
have captured that base since then hold it under VERSION + 1 (R86), and are what the wait is for. -/
def oldHeld (s : State) (t : Nat) (d : TDesc) : Bool :=
  s.ops.any fun o => o.hold.any fun h => h.1 == t && h.2.1 == !d.active && h.2.2 != d.ver + 1

/-- DRAIN_ESC has fired, so the inactive base may be written (R24, R88). A table that has never
flipped has nothing to drain: its DRAIN_ESC is not ARMED, and nothing holds an old base. -/
def drained (s : State) (t : Nat) (d : TDesc) : Bool :=
  let e := escAt s d.drain
  e.st == .fired || (e.st != .armed && !oldHeld s t d)

/-- The first write into an inactive base after a flip: it is tagged VERSION + 1 from then on (R88). -/
def markInactive (t : Nat) : Act s₀ Unit := do
  let s ← st
  match tdGet s t with
  | some d => if d.inactNew then skip else tdSet t { d with inactNew := true }
  | none => skip

/-- A learning-class write of a row sets its touched bit (R90); an uncorrectable bitmap sector is
left poisoned and logged, and the operation keeps its STATUS. A bit beyond the capacity is not written, and answers
BAD_DESCRIPTOR (R177); else 0. -/
def touchRow (d : TDesc) (li : Option Nat) : Act s₀ Nat :=
  match li with
  | some l =>
    if d.plink then do
      let s ← st
      let a := d.touch + l / 8
      let b := s.hbm.get a
      let e ← hbmWrite a [b ||| BitVec.ofNat 8 (2 ^ (l % 8))] none
      pure (if e = BAD_DESCRIPTOR then e else 0)
    else pure 0
  | none => pure 0

/-- The map entry of a row that no override entry names is read, as HBM is (R82, R182): 0, or the STATUS of its sector. -/
def mapChk (t : Nat) (d : TDesc) (r : Nat) (who : Option Who) : Act s₀ Nat := do
  let s ← st
  if (ovFind s t r).isSome || eccClean s && s.hosts.resetCh == 0 && s.hosts.offlineCh == 0 then pure 0
  else hbmTouch (d.map + 4 * (r / d.stretch)) 4 who

/-- The map entries of rows, up to the first that does not read. -/
def mapChks (t : Nat) (d : TDesc) (rs : List Nat) (who : Option Who) : Act s₀ Nat :=
  foldA rs 0 fun e r => if e = 0 then mapChk t d r who else pure e

/-- A row being moved away is written: DIRTY (R95 step 3). -/
def dirtyRow (t r : Nat) : Act s₀ Unit := do
  let s ← st
  if s.tbl.migs.any fun m => m.table == t && m.row == r then
    modTbl fun x => { x with migs := mapIf (fun m => m.table == t && m.row == r) (fun m => { m with dirty := true }) x.migs }
  else skip

/-- One row read in a base: its bytes, or a STATUS. -/
def readRow (t : Nat) (d : TDesc) (r : Nat) (b : Bool) (who : Option Who) : Act s₀ (Except Nat (List Byte)) := do
  let s ← st
  if tblBad s t r then pure (.error DATA_FAULT)
  else do
    let e ← mapChk t d r who
    if e ≠ 0 then pure (.error e) else hbmRead ((rowAt s t d r).base b) d.rowBytes who

/-- One row written in a base as one unit (R20), with its padding (R81), its touched bit and its
DIRTY mark. -/
def writeRow (t : Nat) (d : TDesc) (r : Nat) (b : Bool) (bs : List Byte) (who : Option Who) : Act s₀ Nat := do
  let s ← st
  let m ← mapChk t d r who
  if m ≠ 0 then pure m
  else do
    let x := rowAt s t d r
    let e ← hbmWrite (x.base b) (padTo (pitchOf d.rowBytes) bs) who
    if d.plink && b != d.active then markInactive t else skip
    let f ← touchRow d x.li
    dirtyRow t r
    pure (if e = 0 then f else e)

/-- Part of a row written in a base: a write of the table's own, with the marks of `writeRow`; `lrn` says that a
learning-class operation writes it (R90). -/
def writePart (t : Nat) (d : TDesc) (r off : Nat) (b lrn : Bool) (bs : List Byte) (who : Option Who) : Act s₀ Nat := do
  let s ← st
  let x := rowAt s t d r
  let e ← hbmWrite (x.base b + off) bs who
  if b != d.active then markInactive t else skip
  let f ← if lrn then touchRow d x.li else pure 0
  dirtyRow t r
  pure (if e = 0 then f else e)

/-- A write of HBM reaches the inactive base of an unlinked table where one of this chip's rows lies: it is a write into
that base, which is tagged VERSION + 1 from then on (R88). -/
def fills (s : State) (d : TDesc) (off n : Nat) : Bool :=
  let base := if d.active then d.baseA else d.baseB
  let len := d.stretch * pitchOf d.rowBytes
  !d.plink && !d.inactNew && base != 0 && n != 0 && (List.range (cdiv d.rows d.stretch)).any fun k =>
    let e := mapEntry s d (k * d.stretch)
    fld e 0 18 == myCoord s && decide (base + fld e 18 14 * len < off + n ∧ off < base + (fld e 18 14 + 1) * len)

def noteFill (off n : Nat) : Act s₀ Unit := do
  let s ← st
  each (s.tbl.desc.filter fun x => fills s x.2 off n) fun x => markInactive x.1

/-- LOAD and the hot-row table count a look-up or a row update (R91); the least counted pair of a
full table gives its place and its count to a new one (space-saving). -/
def hotAdd (l : List (Nat × Nat × Nat)) (t r n : Nat) : List (Nat × Nat × Nat) :=
  if l.any fun x => x.1 == t && x.2.1 == r then
    l.map fun x => if x.1 == t && x.2.1 == r then (t, r, x.2.2 + n) else x
  else if l.length < 1024 then l ++ [(t, r, n)]
  else
    let m := l.foldl (fun a x => min a x.2.2) ((l.map (fun x => x.2.2)).headD 0)
    match findIdx (fun x => x.2.2 == m) l with
    | some i => l.take i ++ l.drop (i + 1) ++ [(t, r, m + n)]
    | none => l

def countLoad (t r n : Nat) : Act s₀ Unit := do
  let s ← st
  match tdGet s t with
  | some d =>
    if d.migMode = 1 ∧ bit (regOf s TBL) 1 then
      modTbl fun x => { x with load := x.load + n, hot := hotAdd x.hot t r n }
    else skip
  | none => skip

/-! ### Addresses of operations -/

/-- Where an address of an operation leads: a local place, another chip (with the address its packets
carry), or a STATUS and refusal code. -/
inductive Place where
  | here (l : Loc)
  | far (chip addr : Nat)
  | bad (status code : Nat)
deriving DecidableEq, Repr

/-- An address and `n` bytes of an operation of domain `d` (R16, R83, R177, R210, R252, R267):
`lrn` is the base a table-relative
address captures, unless the operation holds the table. A range that runs past its row is refused. -/
def placeHeld (hold : List (Nat × Bool × Word)) (s : State) (d a n : Nat) (lrn : Bool) : Place :=
  match (Loc.ofAddr a).near s with
  | .hbm o =>
    if hbmCap s < o + n then .bad BAD_DESCRIPTOR 0
    else if inHbmQuota s d o n then .here (.hbm o) else .bad REFUSED_QUOTA 2
  | .bench c o =>
    if benchSize < o + n then .bad BAD_DESCRIPTOR 0
    else if bit (regOf s (hdmW d 8)) c then .here (.bench c o) else .bad REFUSED_QUOTA 1
  | .well o => if wellSize < o + n then .bad BAD_DESCRIPTOR 0 else .here (.well o)
  | .far c o =>
    if inSlice s c ∧ o + n ≤ 2 ^ 40 then .far c a else .bad BAD_DESCRIPTOR 0
  | .table t r b =>
    if !inTblRange s d t then .bad REFUSED_QUOTA 4
    else
      let held := hold.find? fun h => h.1 == t
      match if held.isSome then tdGet s t else tdLive s t with
      | none => .bad BAD_DESCRIPTOR 0
      | some td =>
        let base := match held with | some h => h.2.1 | none => captureBase td lrn
        let o := (rowAt s t td r).base base + b
        if r ≥ td.rows ∨ td.rowBytes < b + n then .bad BAD_DESCRIPTOR 0
        else if ownsRow s t td r then (if hbmCap s < o + n then .bad BAD_DESCRIPTOR 0 else .here (.hbm o))
        else .far (ownerOf s t td r) a
  | .bad => .bad BAD_DESCRIPTOR 0

def place (s : State) (d a n : Nat) (lrn : Bool) : Place := placeHeld [] s d a n lrn

/-- Bytes an operation fetched from other chips, by the address its descriptor gives. -/
inductive Fetch where
  | got (b : List Byte)
  | wait
  | fail (status : Nat)
deriving DecidableEq, Repr

def cacheAt (c : List Host.Cell) (a n : Nat) : Option (List Byte) :=
  if (List.range n).all (fun i => (mapGet c (a + i)).isSome) then
    some ((List.range n).map fun i => (mapGet c (a + i)).getD 0)
  else none

/-- Arrays that come with the request and not from memory, of KX descriptors and of pool requests (R263, R286),
stand in the operation's cache at addresses of the reserved on-chip region 0xFF. -/
def msgBase : Nat := 2 ^ 62 + 255 * 2 ^ 32

/-- The version a table-relative address of an operation has captured (R86). -/
def addrVer (s : State) (o : Op) (a : Nat) (lrn : Bool) : Option Word :=
  match Loc.ofAddr a with
  | .table t _ _ =>
    match o.hold.find? fun h => h.1 == t with
    | some h => some h.2.2
    | none => (tdGet s t).map fun d => if captureBase d lrn == d.active then d.ver else d.ver + 1
  | _ => none

/-- The payload of a READ or WRITE: at a table row it says which version the operation captured. -/
def memBody (s : State) (o : Op) (a : Nat) (lrn : Bool) (b : List Byte) : Body :=
  match addrVer s o a lrn with
  | some v => .row (some v) none b
  | none => .raw b

/-- The map entry behind a table-relative address is read (R82, R182). -/
def addrChk (o : Op) (a : Nat) : Act s₀ Nat := do
  let s ← st
  match Loc.ofAddr a with
  | .table t r _ => match tdGet s t with
    | some d => if r < d.rows then mapChk t d r o.who else pure 0
    | none => pure 0
  | _ => pure 0

def given (o : Op) (a n : Nat) : Bool :=
  decide (64 ≤ o.ref.ring.val ∧ msgBase ≤ a) && (cacheAt o.cache a n).isSome

/-- An input array of an operation: read here, or read from another chip with READ packets of at
most 4,096 B, whose data arrive in the operation's cache (R252). -/
def fetch (o : Op) (a n : Nat) (lrn : Bool) : Act s₀ Fetch := do
  let s ← st
  if n = 0 then pure (.got [])
  else if given o a n then pure (.got ((cacheAt o.cache a n).getD []))
  else do
    let m ← addrChk o a
    if m ≠ 0 then pure (.fail m)
    else match placeHeld o.hold s o.d a n lrn with
    | .bad e _ => pure (.fail e)
    | .here l => do
      match ← locRead l n o.who with
      | .ok b => pure (.got b)
      | .error e => pure (.fail e)
    | .far c _ =>
      match cacheAt o.cache a n with
      | some b => pure (.got b)
      | none =>
        if s.reqs.any (fun q => q.op == some o.ref && (match q.kind with
            | .readCache x => decide (a ≤ x ∧ x < a + n)
            | _ => false)) then pure .wait
        else do
          useAddr a
          let e ← foldA (List.range (cdiv n 4096)) OK fun e i => do
            if e ≠ OK then pure e
            else do
              let m := min 4096 (n - 4096 * i)
              request (some o.ref) c 0x11 o.d (a + 4096 * i) m (cdiv n 4096) 1 (.readCache (a + 4096 * i))
                (memBody s o a lrn (leBytes 8 (a + 4096 * i))) i
          pure (if e = OK then .wait else .fail e)

/-! ### Requests for rows (R68, R95, R96) -/

/-- Where a row stands for a request: here, coming here by a move not yet switched, or elsewhere. -/
inductive RowIs where
  | here
  | coming
  | at_ (chip : Nat)
deriving DecidableEq, Repr

def rowIs (s : State) (t : Nat) (d : TDesc) (r : Nat) : RowIs :=
  if ownsRow s t d r then .here
  else if s.tbl.inbound.any (fun x => x.1 == t && x.2.1 == r) then .coming
  else .at_ (ownerOf s t d r)

/-- A request goes on to the row's owner on FWD (R68); a guest's forwarding is remembered (R95 step 7). A row lost with
its owner ends the requester's operation FABRIC_LOST (R99, R230). -/
def forward (q : Packet) (chip t r : Nat) : Act s₀ Unit := do
  let s ← st
  if pathLost s (myCoord s) chip then refuse none q FABRIC_LOST
  else do
    bump (TBL + 0x38)
    modTbl fun x => { x with fwdTs := (t, r, s.ts) :: x.fwdTs.filter fun y => !(y.1 == t && y.2.1 == r) }
    sendPk { q with hdr := { q.hdr with cls := 2, vc := 6, dst := BitVec.ofNat 18 chip } }

/-- The entries of a pool request. -/
def poolEntries (q : Packet) : List (Nat × Nat × Nat) := match q.body with | .poolReq r => r.entries | _ => []

/-- A REDIRECT naming the newest owner known (R96), or BUSY naming this chip (R220), for the entries of the request. -/
def redirect (q : Packet) (owner : Nat) (busy : Bool) : Act s₀ Unit := do
  if busy then bump (RTE + 0x224) else skip
  answer none q 0x96 0 1 (.redirect (BitVec.ofNat 18 owner) busy (poolEntries q))

/-- Flits of 64 B a packet takes (R211), as bytes of the store of R220. -/
def packetBytes (q : Packet) : Nat := 64 * cdiv (32 + q.hdr.len.toNat) 64

/-- A forwarded request for a row that is still coming is parked (R95 step 6, R220). -/
def parkPk (q : Packet) : Act s₀ Unit := do
  let s ← st
  if 262144 < (s.tbl.park.map packetBytes).sum + packetBytes q then redirect q (myCoord s) true
  else modTbl fun x => { x with park := x.park ++ [q] }

/-- A row request is served here, parked, forwarded, or, when it was forwarded already, redirected. -/
def rowServe (q : Packet) (t : Nat) (d : TDesc) (r : Nat) (k : Act s₀ Unit) : Act s₀ Unit := do
  let m ← mapChk t d r none
  if m ≠ 0 then refuse none q m
  else do
    let s ← st
    match rowIs s t d r with
    | .here => k
    | .coming => parkPk q
    | .at_ c =>
      useRow t r
      if q.hdr.cls = 2 then redirect q c false else forward q c t r

/-- The entry an answer about a row carries: the new owner's own (R96). -/
def entryOf (s : State) (t r : Nat) : Option OvEntry :=
  match ovFind s t r with
  | some e => if e.owner.toNat = myCoord s then some e else none
  | none => none

/-- A newer owner epoch: ahead by 1 to 32,767 (R94). -/
def newerEpoch (a b : BitVec 16) : Bool := let x := (a - b).toNat; decide (1 ≤ x ∧ x ≤ 32767)

/-- An entry into the override table, in place of the one of its row; the cached entry used longest ago
gives way in a full table (R94). -/
def ovPut (l : List OvEntry) (e : OvEntry) : List OvEntry :=
  let l := l.filter fun y => !(y.table == e.table && y.row == e.row)
  if l.length < 262144 then l ++ [e]
  else match findIdx (fun y => y.kind == 1) l with
    | some i => l.take i ++ l.drop (i + 1) ++ [e]
    | none => if e.kind = 1 then l else l ++ [e]

/-- A received entry (R94, R96): it replaces a held one only when newer; a cached one counts as used. Where
this chip holds the row itself, it says nothing. -/
def cacheEntry (e : OvEntry) : Act s₀ Unit := do
  let s ← st
  if e.owner.toNat = myCoord s then skip
  else match ovFind s e.table e.row with
    | some h =>
      let x := if newerEpoch e.oepoch h.oepoch then { h with owner := e.owner, oepoch := e.oepoch, mstate := if h.kind = 2 then 0 else h.mstate } else h
      if h.owner.toNat = myCoord s then skip
      else if h.kind = 1 then modTbl fun y => { y with ov := ovPut y.ov x }
      else modTbl fun y => { y with ov := mapIf (fun z => z.table == e.table && z.row == e.row) (fun _ => x) y.ov }
    | none =>
      match tdGet s e.table with
      | some d => if homeChip s d e.row = myCoord s then skip else
          modTbl fun y => { y with ov := ovPut y.ov { e with kind := 1, mstate := 0, gslot := 0 } }
      | none => modTbl fun y => { y with ov := ovPut y.ov { e with kind := 1, mstate := 0, gslot := 0 } }

/-- The moves of a table's rows end when a contribution for it arrives (R97). -/
def cancelMoves (t : Nat) : Act s₀ Unit := do
  let s ← st
  each (s.tbl.migs.filter fun m => m.table == t) (cancelMove OK)

/-- A learning-class write may go into a table now: not into an inactive base before the catch-up pass
and before its drain (R24). -/
def writable (s : State) (t : Nat) (d : TDesc) : Bool :=
  !d.plink || (drained s t d && !s.hosts.catchUp.getLsbD d.dom)

/-- The acknowledgement of a row request carries the owner's entry, if it has one (R96). -/
def ackRow (v : Via) (pk : Packet) (opc t r : Nat) : Act s₀ Unit := do
  let s ← st
  match entryOf s t r with
  | some e => answer v.peer pk opc 0 16 (.publish e)
  | none => answer v.peer pk opc 0 0 .none

/-! ### Output -/

/-- The result region a range makes: nothing for a range on another chip. -/
def regionOf (s : State) (d a n : Nat) (lrn : Bool) : List (Nat × Nat × Nat) :=
  match place s d a n lrn with
  | .here l => if n = 0 then [] else [(l.space.1, l.space.2, n)]
  | _ => []

/-- The sectors of HBM that a result needs and that read uncorrectable, left poisoned, counted and logged (R183). -/
def outFault (l : Loc) (n : Nat) (who : Option Who) : Act s₀ Unit := do
  let s ← st
  each (partBad s l n) fun x => do
    secUe x
    secUeLog x who

/-- Result bytes of an operation for an address: held until the record when the place is here, sent
in WRITE packets of at most 4,096 B when it is on another chip (R252). What belongs to a row of a table here is a write of
that row, and moves with it (R95). Answers OK or a STATUS. -/
def deliver (o : Op) (a : Nat) (b : List Byte) (lrn : Bool) : Act s₀ Nat := do
  let s ← st
  if b.isEmpty then pure OK
  else if o.ref.ring.val = 65 then do
    outTo o.ref 4 (a - msgBase) b
    pure OK
  else do
    let m ← addrChk o a
    if m ≠ 0 then pure m
    else match placeHeld o.hold s o.d a b.length lrn, Loc.ofAddr a with
    | .bad e _, _ => pure e
    | .here _, .table t r off =>
      match tdGet s t with
      | some d =>
        let base := match o.hold.find? fun h => h.1 == t with | some h => h.2.1 | none => captureBase d lrn
        writePart t d r off base lrn b o.who
      | none => pure BAD_DESCRIPTOR
    | .here l, _ =>
      if outBad s l b.length then do
        outFault l b.length o.who
        pure DATA_FAULT
      else do
        outLoc o.ref l b
        pure OK
    | .far c _, _ =>
      let ps := chunks 4096 b
      foldA ((List.range ps.length).zip ps) OK fun e x => do
        if e ≠ OK then pure e
        else request (some o.ref) c 0x10 o.d (a + 4096 * x.1) x.2.length ps.length 1 .write (memBody s o a lrn x.2) x.1

/-- The admission check of a range: where it lies, or the STATUS and code (R16, R83, R210, R267). -/
def rangeChk (s : State) (o : Op) (a n : Nat) (lrn : Bool) : Bool × Nat × Nat :=
  if given o a n || (o.ref.ring.val == 65 && a == msgBase) then (false, 0, 0)
  else match placeHeld o.hold s o.d a n lrn with
  | .bad e c => (true, e, c)
  | _ => (false, 0, 0)

/-- The table checks of an operation: quota first, then a valid descriptor (R84, R89, R267). -/
def tableChk (s : State) (o : Op) (t : Nat) : Bool × Nat × Nat :=
  if !inTblRange s o.d t then (true, REFUSED_QUOTA, 4)
  else if (tdLive s t).isNone then (true, BAD_DESCRIPTOR, 0)
  else (false, 0, 0)

/-- An operation captures (VERSION, base) of a table (R86). A base captured as the working one of a
linked table counts as VERSION + 1. -/
def captureTbl (r : OpRef) (t : Nat) (d : TDesc) (lrn : Bool) : Act s₀ Unit :=
  let b := captureBase d lrn
  modOp r fun o => { o with hold := o.hold ++ [(t, b, if b == d.active then d.ver else d.ver + 1)] }

/-- A table-relative address captures its table as well (R83, R86). -/
def captureAddr (r : OpRef) (a : Nat) (lrn : Bool) : Act s₀ Unit := do
  let s ← st
  match Loc.ofAddr a, findOp s r with
  | .table t _ _, some o =>
    match tdLive s t with
    | some d => if o.hold.any fun h => h.1 == t then skip else captureTbl r t d lrn
    | none => skip
  | _, _ => skip

end Sys2Proof.Machine
end

