-- ==== Sys2Proof/Machine/Cells.lean ====
section
/-! DEFINITION. Running cell programs (R100, R115 to R118): CELL_RUN, and what every cell instruction
shares: the run it belongs to, its faults and the residue check (R319 to R321). -/

namespace Sys2Proof.Machine

variable {s₀ : State}

/-! ### The run an instruction belongs to -/

/-- The operation whose program runs on a cell. -/
def runOf (s : State) (c : Nat) : Option Op :=
  match (cellAt s c).holder with
  | some (r, 0) => (findOp s r).bind fun o => if o.phase = .running then some o else none
  | _ => none

/-- A cell instruction takes effect while its cell runs a program and its sequencer does not wait;
else no such instruction is issued and nothing changes. -/
def onCell (a : CellAt) (k : Op → Act s₀ Unit) : Act s₀ Unit := do
  let s ← st
  match runOf s a.cell.val with
  | some o => if (cellAt s a.cell.val).waiting.getLsbD a.strm.val then skip else k o
  | none => skip

/-- The ranges a program has written, with one more. -/
def OpWork.addWrote (w : OpWork) (x : Nat × Nat × Nat) : OpWork :=
  match w with
  | .run l n => if (l.take (l.length - n)).contains x then w else .run (x :: l) n
  | _ => .run [x] 0

/-- All that a program has written so far is published: one of its instructions adds to an escapement (R19). -/
def OpWork.publish (w : OpWork) : OpWork :=
  match w with
  | .run l _ => .run l l.length
  | w => w

/-- A range the program has written joins the run's list (R117). -/
def wrote (r : OpRef) (sp lo n : Nat) : Act s₀ Unit :=
  modOp r fun o => { o with work := o.work.addWrote (sp, lo, n) }

/-- CELL_FAULT (R118): cause and instruction recorded, and the run stopped. -/
def cellFault (a : CellAt) (o : Op) (cause : Nat) : Act s₀ Unit := do
  regSet (celW a.cell.val 0x20) (cause + 256 * a.strm.val)
  regSet (celW a.cell.val 0x24) a.pc.toNat
  endOp o.ref CELL_FAULT (a.cell.val + 256 * cause)

/-- What a residue mismatch leaves (R320, R321): a count and a record, and when the re-execution mismatches
too, the quarantine of the cell. -/
def residueNote (c unit : Nat) (o : Op) (again : Bool) : Act s₀ Unit := do
  let s ← st
  bump (FLT + 0x30)
  logFault 5 unit 1 c 0 none (incOf s c) 0
  if again then do
    regFld (celW c 4) 2 1 1
    bump (FLT + 0x34)
    logFault 6 unit 1 c RESIDUE_FAULT o.who (incOf s c) 0
  else skip

/-- DETAIL of RESIDUE_FAULT (R321). -/
def residueDetail (c unit : Nat) : Nat := c + 256 * unit

/-- The residue check of one unit of re-execution (R320, R321): a first mismatch costs a re-execution,
a second one quarantines the cell and ends the operation. Answers whether the result stands. -/
def residueChk (c unit : Nat) (o : Op) (misses : Fin 3) : Act s₀ Bool := do
  if misses.val = 0 then pure true
  else do
    residueNote c unit o (misses.val != 1)
    if misses.val = 1 then pure true
    else do
      endOp o.ref RESIDUE_FAULT (residueDetail c unit)
      pure false

/-- The residue check of an engine that works on the vector engines of these cells (R321): the mismatch
that ends its operation, if one does. A mismatch of another cell is none of its own. -/
def engMiss (cells : List Nat) (o : Op) (ms : List EngMiss) : Act s₀ (Option EngMiss) := do
  let l := ms.filter fun m => cells.contains m.cell.val
  each (l.take (l.findIdx (fun m => m.again) + 1)) fun m => residueNote m.cell.val 2 o m.again
  pure (l.find? fun m => m.again)

/-- Bytes a program reads from its bench; an uncorrectable word stops the run (Table 18.2, array 0). -/
def benchGet (c off n : Nat) (o : Op) (k : List Byte → Act s₀ Unit) : Act s₀ Unit := do
  if ← sramRead 0 ((c * benchSize + off) / 8) ((off + n + 7) / 8 - off / 8) o.who then endOp o.ref DATA_FAULT 0
  else do
    let s ← st
    k (seen s o.who 1 s.bench (benchKey c off) n)

/-- Bytes a program writes into its bench. -/
def benchPut (c off : Nat) (b : List Byte) : Act s₀ Unit := do
  if b.isEmpty then skip
  else do
    emit (.mem .bench (.write (benchKey c off) b))
    sramWrite 0 ((c * benchSize + off + 7) / 8) ((off + b.length) / 8 - (off + 7) / 8)

/-! ### CELL_RUN (Tables 5.5 and 5.6) -/

def crCells (o : Op) : Nat := o.at 16 4
def crArgBytes (o : Op) : Nat := o.at 20 4
def crProgram (o : Op) : Nat := o.at 24 8
def crArgs (o : Op) : Nat := o.at 32 8
def crStride (o : Op) : Nat := o.at 40 4
def crList (o : Op) : List Nat := bitsOf 32 (crCells o)

def crFieldsBad (o : Op) : Bool :=
  !o.zero 44 0 160 || crCells o == 0 || decide (65536 < crArgBytes o) || crArgBytes o % 64 != 0
  || crProgram o % 64 != 0 || (crArgBytes o == 0 && crArgs o != 0)

/-- Bytes of the argument blocks from ARGS on. -/
def crArgSpan (o : Op) : Nat :=
  if crArgBytes o = 0 then 0 else ((crList o).length - 1) * crStride o + crArgBytes o

/-- The share of a domain in the cells it names (R115, R267). -/
def cellShare (s : State) (d cells : Nat) : Bool × Nat × Nat :=
  ((bitsOf 32 cells).any fun c => !bit (regOf s (hdmW d 8)) c || quarantined s c, REFUSED_QUOTA, 1)

/-- The checks of a CELL_RUN on its descriptor (R115, R267). -/
def admCellRun (o : Op) : Act s₀ Adm := do
  let s ← st
  pure (firstBad [badIf (crFieldsBad o),
    ((crList o).any fun c => !bit (regOf s (celW c 0)) 0, NOT_SUPPORTED, 0),
    cellShare s o.d (crCells o), rangeChk s o (crProgram o) 64 false,
    if crArgSpan o = 0 then badIf false else rangeChk s o (crArgs o) (crArgSpan o) false])

/-- The checks of the image header (R115, R22, BWD_CTRL); `h` is its 64 bytes. -/
def imgChk (s : State) (o : Op) (h : List Byte) : Adm :=
  let fl := leAt h 2 2
  let text := leAt h 4 4
  let need := leAt h 24 4
  firstBad [(leAt h 0 2 != 1, NOT_SUPPORTED, 0), (bit fl 0 && o.gener, REFUSED_PHASE, 0),
    (bit fl 1 && !bit (regOf s BWD) 0, NOT_SUPPORTED, 0),
    badIf (decide (3 < fl) || leAt h 32 32 != 0 || text % 64 != 0 || decide (text < 64)
      || decide (524288 < text) || decide (benchSize < need) || decide (need < crArgBytes o + text))]

/-- A cell starts a program: text at bench offset 0, arguments at the top of BENCH_NEED, local flags (log
entry 2), reduction accumulators and VEC_FLAGS cleared (R116, R131, R136). -/
def cellStart (o : Op) (c fl need : Nat) (text args : List Byte) : Act s₀ Unit := do
  benchPut c 0 text
  benchPut c (need - args.length) args
  regSet (celW c 0x100) 0
  setCell c { cellZero with holder := some (o.ref, 0), need := need, learning := bit fl 0, well := bit fl 1 }

/-- The operation as it reads its arguments: a learning-class program's ARGS of a linked table stand in the inactive
base that its admission captured (R23, R27), unless PROGRAM is a row of the same table: an operation holds one base of a
table (R86). -/
def crArgOp (s : State) (o : Op) (fl : Nat) : Op :=
  match Loc.ofAddr (crArgs o), Loc.ofAddr (crProgram o) with
  | .table t _ _, p =>
    let same := match p with | .table u _ _ => u == t | _ => false
    let linked := match tdGet s t with | some d => d.plink | none => false
    if bit fl 0 && linked && !same && crArgSpan o != 0 then
      { o with hold := mapIf (fun h => h.1 == t) (fun h => (t, !h.2.1, h.2.2 + 1)) o.hold }
    else o
  | _, _ => o

/-- A CELL_RUN from its admission to its start: the image and the arguments are fetched and checked,
and once every selected cell is idle all of them start (R115, R116). Where every byte has come but a
cell is busy, the operation waits. -/
def cellRunGo (r : OpRef) : Act s₀ Unit := do
  let s ← st
  match findOp s r with
  | none => skip
  | some o =>
    match ← fetch o (crProgram o) 64 false with
    | .wait => skip
    | .fail e => endClean r e 0
    | .got h =>
      match imgChk s o h with
      | some (e, c) => endClean r e c (some 0)
      | none => do
        let need := leAt h 24 4
        match rangeChk s o (crProgram o) (64 + leAt h 4 4) false with
        | (true, e, c) => endClean r e c
        | _ =>
          match ← fetch o (crProgram o + 64) (leAt h 4 4) false with
          | .wait => skip
          | .fail e => endClean r e 0
          | .got text =>
            if crc32 text ≠ leAt h 28 4 then endClean r BAD_DESCRIPTOR 0
            else match ← fetch (crArgOp s o (leAt h 2 2)) (crArgs o) (crArgSpan o) (bit (leAt h 2 2) 0) with
              | .wait => skip
              | .fail e => endClean r e 0
              | .got args => do
                let s ← st
                if (crList o).any (cellBusy s) then waitRes o
                else do
                  let o := crArgOp s (resumed s o) (leAt h 2 2)
                  let cs := crList o
                  putOp { o with
                    phase := .running, cache := [], work := .run (cs.map fun c => (1, benchKey c 0, need)) 0 }
                  each ((List.range cs.length).zip cs) fun x =>
                    cellStart o x.2 (leAt h 2 2) need text ((args.drop (x.1 * crStride o)).take (crArgBytes o))

/-- CELL_RUN: a waiting run starts; a started one retires its last instruction, which is its commit
point (R116). -/
def execCellRun (r : OpRef) (s : State) : Host.Outcome State Fault Refusal := perform s do
  let s ← st
  match findOp s r with
  | none => skip
  | some o =>
    if o.code ≠ 5 then skip
    else match o.phase with
      | .ready => cellRunGo r
      | .waitRes => cellRunGo r
      | .running => if (crList o).any fun c => (cellAt s c).waiting != 0 then skip else endOp r OK 0
      | _ => skip

/-- CELL_ESCAPEMENT_OP (R274, Table 15.7): an escapement outside the domain's range is cause 0x04; a
WAIT_GE holds its sequencer while GEN matches and COUNT is below the value. -/
def execCellEscapementOp (a : CellAt) (i gen : BitVec 16) (op : EscOp) (s : State) :
    Host.Outcome State Fault Refusal := perform s do
  let s ← st
  match runOf s a.cell.val with
  | none => skip
  | some o =>
    let c := cellAt s a.cell.val
    if c.waiting.getLsbD a.strm.val && !(match op with | .waitGe _ => true | _ => false) then skip
    else if !escIn s o.d i.toNat then cellFault a o 4
    else match op with
      | .add n => do
        modOp o.ref fun x => { x with work := x.work.publish }
        let _ ← escDo i.toNat gen.toNat (.add n.toNat)
        skip
      | .arm t => do
        let _ ← escDo i.toNat gen.toNat (.arm t.toNat)
        skip
      | .reset => do
        let _ ← escDo i.toNat gen.toNat .reset
        escWaiters i.toNat
      | .notify v on => do
        let _ ← escDo i.toNat gen.toNat (.notify v.toNat on)
        skip
      | .waitGe v => do
        escSram i.toNat
        let s ← st
        let e := escAt s i.toNat
        let b : BitVec 4 := BitVec.ofNat 4 (2 ^ a.strm.val)
        let hold := e.gen == gen && decide (e.count.toNat < v.toNat)
        setCell a.cell.val { cellAt s a.cell.val with
          waiting := if hold then c.waiting ||| b else c.waiting &&& ~~~b }

end Sys2Proof.Machine
end

