-- ==== Sys2Proof/Machine/Flags.lean ====
section
/-! DEFINITION. VEC_FLAGS (R136): the sticky bits of the vector engine, and what each result raises. -/

namespace Sys2Proof.Machine

variable {s₀ : State}

/-- The flags one element raises. -/
structure VFlags where
  nv  : Bool
  dz  : Bool
  ofl : Bool
  ufl : Bool
  inx : Bool
  sat : Bool
deriving DecidableEq, Repr

def VFlags.none : VFlags := ⟨false, false, false, false, false, false⟩

def VFlags.or (a b : VFlags) : VFlags :=
  ⟨a.nv || b.nv, a.dz || b.dz, a.ofl || b.ofl, a.ufl || b.ufl, a.inx || b.inx, a.sat || b.sat⟩

/-- The bits of VEC_FLAGS in register order. -/
def VFlags.bits (f : VFlags) : Nat :=
  b2n f.nv + 2 * b2n f.dz + 4 * b2n f.ofl + 8 * b2n f.ufl + 16 * b2n f.inx + 32 * b2n f.sat

/-- The flags of a rounded floating-point result: INVALID when a NaN came of operands that are none. -/
def VFlags.ofRnd (v : FV) (ops : List FV) (r : Rnd) : VFlags :=
  ⟨v.isNan && ops.all (fun x => !x.isNan), false, r.ofl, r.ufl, r.inx, false⟩

def VFlags.satIf (b : Bool) : VFlags := { VFlags.none with sat := b }

/-- The flags of all elements of an instruction join VEC_FLAGS of cell `c`. -/
def flagsRaise (c : Nat) (fs : List VFlags) : Act s₀ Unit := do
  let s ← st
  let a := celW c 0x100
  let v := fs.foldl (fun n f => n ||| f.bits) (regOf s a)
  if v = regOf s a then skip else regSet a v

end Sys2Proof.Machine
end

