-- ==== Sys2Proof/Machine/Operands.lean ====
section
/-! DEFINITION. The operand forms of cell instructions: packed elements and MX blocks (R101, R139),
matrices and tiled tensors in the bench (R103, R105, R110, R113), vector registers, masks and pair
form (R120 to R122). -/

namespace Sys2Proof.Machine

variable {s₀ : State}

/-! ### Packed elements -/

/-- Bytes of `n` packed elements (R101: four FP6 in 3 bytes, two FP4 in one). -/
def packBytes (f : Fmt) (n : Nat) : Nat := cdiv (n * FmtOf.bits f) 8

/-- The code of packed element `i`. -/
def packedAt (f : Fmt) (b : List Byte) (i : Nat) : Nat :=
  let w := FmtOf.bits f
  fld (leAt b (i * w / 8) 8) (i * w % 8) w

/-- Codes packed into bytes. -/
def packAll (f : Fmt) (cs : List Nat) : List Byte :=
  let w := FmtOf.bits f
  leBytes (packBytes f cs.length) (cs.foldr (fun c n => c % 2 ^ w + 2 ^ w * n) 0)

/-- The value a code of a format stands for; integers exactly. -/
def codeVal (f : Fmt) (c : Nat) : FV :=
  match FmtOf.spec f with
  | some g => g.val c
  | none => FV.ofInt (sInt (FmtOf.bits f) c) 0

/-- An element under an E8M0 scale byte (R101): 0xFF makes it NaN. -/
def mxVal (f : Fmt) (sc c : Nat) : FV := if sc = 255 then .nan else (codeVal f c).scale ((sc : Int) - 127)

/-- The exponent of the largest element of an MX element format (OCP v1.0). -/
def mxEmax (f : Fmt) : Int :=
  match f with
  | .e4m3 => 8 | .e5m2 => 15 | .e3m2 => 4 | .e2m3 => 2 | _ => 2

/-- ⌊log2⌋ of the largest finite magnitude of a block; none when it holds only zeros. -/
def topExpo (vs : List FV) : Option Int :=
  vs.foldl (fun a v => match v with
    | .fin _ m e => if m = 0 then a else
      let x := (bitLen m : Int) - 1 + e
      match a with
      | some y => some (if y < x then x else y)
      | none => some x
    | _ => a) none

/-- The shared exponent of a block (R107, R124, R140): the OCP exponent of its largest magnitude with
`oscale` added, inside E8M0; a block of zeros takes the least one (log entry 22). -/
def mxScale (f : Fmt) (oscale : Int) (vs : List FV) : Int :=
  match topExpo vs with
  | some x => max (-127) (min 127 (x - mxEmax f + oscale))
  | none => -127

/-- A block of values as MX: the scale byte, and each element's rounding, saturated beyond the element maximum. -/
def mxBlock (f : Fmt) (oscale : Int) (vs : List FV) : Nat × List (FV × Rnd) :=
  let e := mxScale f oscale vs
  let g := (FmtOf.spec f).getD e4m3
  ((e + 127).toNat, vs.map fun v => (v.scale (-e), g.round (v.scale (-e)) true))

/-! ### Matrices in the bench -/

/-- Bytes of one tile slot (R110). -/
def tileSlot : Nat := 2048

/-- Tiles of a stored matrix of `rows` × `cols`, in row-major order of tiles (log entry 22). -/
def tileCount (rows cols : Nat) : Nat := cdiv rows 32 * cdiv cols 32

/-- The ranges of the bench an operand takes: elements, scales, directory. -/
def operandRanges (x : ArrOperand) (rows cols kdim : Nat) : List (Nat × Nat) :=
  let body := match x.dir with
    | some _ => tileSlot * tileCount rows cols
    | none => packBytes x.fmt (rows * cols)
  let sc := match x.scale with
    | some p => [(p, (rows * cols / max 1 kdim) * cdiv kdim 32)]
    | none => []
  let dr := match x.dir with
    | some p => [(p, 4 * tileCount rows cols)]
    | none => []
  (x.base, body) :: (sc ++ dr)

/-- A tile as its 1,024 bf16 codes; none where its directory entry disagrees with the slot (R113). A position that the
bitmap leaves out reads +0, as a dense zero does: against an infinity or NaN its product is a NaN in both forms (log entry
129). -/
def tileCodes (entry : Nat) (slot : List Byte) : Option (List Nat) :=
  let nnz := fld entry 0 11
  if bit entry 11 then
    let bm := leAt slot 0 128
    let pop := (List.range 1024).countP fun i => bit bm i
    if pop ≠ nnz ∨ 960 < nnz then none
    else some (((List.range 1024).foldl (fun (a : List Nat × Nat) i =>
      if bit bm i then (leAt slot (128 + 2 * a.2) 2 :: a.1, a.2 + 1) else (0 :: a.1, a.2)) ([], 0)).1.reverse)
  else
    let cs := (List.range 1024).map fun i => leAt slot (2 * i) 2
    if (cs.countP fun c => c % 32768 != 0) = nnz then some cs else none

/-- An operand read whole: its stored shape, the bytes of its elements and scales, or its tiles. -/
structure OpData where
  cols  : Nat
  fmt   : Fmt
  bytes : List Byte
  sc    : Option (List Byte)
  tiles : Option (List (Option (List Nat)))
deriving DecidableEq, Repr

/-- Bytes of its slot that a tile occupies, by its directory entry: those beyond are not read (R110). -/
def tileSpan (entry : Nat) : Nat :=
  if bit entry 11 then min tileSlot (cdiv (128 + 2 * fld entry 0 11) 64 * 64) else tileSlot

/-- Tiles read one after another: of each, (slot address, directory entry). -/
def readTiles (c : Nat) (o : Op) (k : List (Option (List Nat)) → Act s₀ Unit) :
    List (Nat × Nat) → List (Option (List Nat)) → Act s₀ Unit
  | [], acc => k acc.reverse
  | x :: l, acc => benchGet c x.1 (tileSpan x.2) o fun b => readTiles c o k l (tileCodes x.2 b :: acc)

/-- The first `n` tiles of a tiled tensor, through its directory (R110). -/
def readTiled (c : Nat) (o : Op) (base dir n : Nat) (k : List (Option (List Nat)) → Act s₀ Unit) : Act s₀ Unit :=
  benchGet c dir (4 * n) o fun d =>
    readTiles c o k ((List.range n).map fun t => (base + tileSlot * t, leAt d (4 * t) 4)) []

def readOperand (c : Nat) (o : Op) (x : ArrOperand) (rows cols kdim : Nat) (k : OpData → Act s₀ Unit) : Act s₀ Unit :=
  match x.dir with
  | some dp => readTiled c o x.base dp (tileCount rows cols) fun ts => k ⟨cols, x.fmt, [], none, some ts⟩
  | none =>
    benchGet c x.base (packBytes x.fmt (rows * cols)) o fun b =>
      match x.scale with
      | some sp =>
        benchGet c sp ((rows * cols / max 1 kdim) * cdiv kdim 32) o fun sb => k ⟨cols, x.fmt, b, some sb, none⟩
      | none => k ⟨cols, x.fmt, b, none, none⟩

/-- The stored position (i, j) of an operand: its code, or none in a tile that cannot be trusted. -/
def OpData.code (d : OpData) (i j : Nat) : Option Nat :=
  match d.tiles with
  | none => some (packedAt d.fmt d.bytes (i * d.cols + j))
  | some ts =>
    match ts.getD (i / 32 * cdiv d.cols 32 + j / 32) none with
    | some cs => some (cs.getD (32 * (i % 32) + j % 32) 0)
    | none => none

/-- The value at stored position (i, j); `line` and `kk` say which MX block it lies in. The scale bytes stand line by line,
the K blocks of a line one after another (log entry 22). -/
def OpData.val (d : OpData) (i j line kk kdim : Nat) : Option FV :=
  (d.code i j).map fun c =>
    match d.sc with
    | some sb => mxVal d.fmt (leAt sb (line * cdiv kdim 32 + kk / 32) 1) c
    | none => codeVal d.fmt c

/-- Element (i, kk) of A, m × k, stored as it is or transposed (R105). -/
def OpData.atA (d : OpData) (trans : Bool) (kdim i kk : Nat) : Option FV :=
  if trans then d.val kk i i kk kdim else d.val i kk i kk kdim

/-- Element (kk, j) of B, k × n. -/
def OpData.atB (d : OpData) (trans : Bool) (kdim kk j : Nat) : Option FV :=
  if trans then d.val j kk j kk kdim else d.val kk j j kk kdim

/-- Stored shape of an operand that gives `r` × `c`. -/
def storedDims (trans : Bool) (r c : Nat) : Nat × Nat := if trans then (c, r) else (r, c)

/-! ### Vector registers and masks -/

def vregBytes : Nat := 4096
def vregKey (c r : Nat) : Nat := (c * 64 + r) * vregBytes

/-- A register, or a pair of them, as bytes. -/
def vregGet (s : State) (c r : Nat) (pair : Bool) : List Byte :=
  s.cells.vreg.getN (vregKey c r) (if pair then 2 * vregBytes else vregBytes)

/-- What the loupe keeps of elements (R165), after bytes of vector registers were written: gone from `n` bytes at `k` where
`gone` says so of their offset, and `new` entered, by offset. -/
def rndPut (k n : Nat) (gone : Nat → Bool) (new : List (Nat × Nat)) : Act s₀ Unit := do
  let s ← st
  if s.cells.rnd.isEmpty && new.isEmpty then skip
  else emit (.rnd (new.foldl (fun l x => mapSet l (k + x.1) x.2)
    (s.cells.rnd.filter fun x => decide (x.1 < k ∨ k + n ≤ x.1) || !gone (x.1 - k))))

/-- A register, or a pair of them, written; `new` is what the loupe keeps of its elements, by offset. -/
def vregPut (c r : Nat) (b : List Byte) (new : List (Nat × Nat) := []) : Act s₀ Unit := do
  emit (.mem .vreg (.write (vregKey c r) b))
  rndPut (vregKey c r) b.length (fun _ => true) new

/-- Mask register m of cell c; M0 reads as all ones (R121). -/
def maskGet (s : State) (c m : Nat) : BitVec 4096 :=
  if m = 0 then BitVec.allOnes 4096 else (mapGet s.cells.masks (8 * c + m)).getD 0

/-- A write of M0 is discarded. -/
def maskPut (c m : Nat) (v : BitVec 4096) : Act s₀ Unit := do
  if m = 0 then skip
  else do
    let s ← st
    emit (.cells s.cells.st (mapSet s.cells.masks (8 * c + m) v))

/-- The element of width `w` with index `i` is active: the bit of its lowest byte, taken in its half of a pair. -/
def activeAt (mask : BitVec 4096) (w i : Nat) : Bool := mask.getLsbD (w * i % vregBytes)

/-- A floating-point result: its code in the result's format and the flags it raises. -/
def fpRes (g : FSpec) (ops : List FV) (v : FV) : Nat × VFlags :=
  let r := g.round v false
  (r.code, VFlags.ofRnd v ops r)

/-- Runs of consecutive active elements, as (first, number); `i` is the number of the first flag. -/
def runsOf : Nat → List Bool → List (Nat × Nat)
  | _, [] => []
  | i, false :: l => runsOf (i + 1) l
  | i, true :: l =>
    match runsOf (i + 1) l with
    | [] => [(i, 1)]
    | x :: r => if x.1 = i + 1 then (i, x.2 + 1) :: r else (i, 1) :: x :: r

/-- Element codes of a register image. -/
def elemsOf (w : Nat) (b : List Byte) : List Nat := (chunks w b).map leNat

/-- New element codes laid over a register image: active elements take the new code, masked ones keep
the old or become 0. -/
def overlay (w : Nat) (mask : BitVec 4096) (zero : Bool) (old : List Byte) (new : List (Option Nat)) : List Byte :=
  (((List.range new.length).zip ((elemsOf w old).zip new)).flatMap fun x =>
    leBytes w (match x.2.2 with
      | some v => v
      | none => if zero && !activeAt mask w x.1 then 0 else x.2.1)) ++ old.drop (w * new.length)

/-- What the loupe keeps of a rounded element (R165); `conv` says that saturation here is R124's. -/
def rndMark (f : Fmt) (conv : Bool) (x : Nat × VFlags) : Nat :=
  match FmtOf.spec f with
  | some g =>
    if x.1 % g.sgn = 0 then (if x.2.ufl then 1 else 0)
    else if x.2.ofl && (g.val x.1).isFin then 2 else 0
  | none =>
    if conv && x.2.sat then 2
    else if x.1 % 2 ^ FmtOf.bits f = 0 && (x.2.inx || x.2.nv) then 1 else 0

/-- Results, as (code, what the loupe keeps), laid over a register or a pair: active elements take the new code, masked ones
keep the old or become 0. -/
def vregLay (c r w : Nat) (pair : Bool) (mask : BitVec 4096) (zero : Bool) (new : List (Option (Nat × Nat))) : Act s₀ Unit := do
  let s ← st
  let b := overlay w mask zero (vregGet s c r pair) (new.map fun x => x.map Prod.fst)
  emit (.mem .vreg (.write (vregKey c r) b))
  rndPut (vregKey c r) b.length
    (fun i => match new[i / max w 1]? with | some (some _) => true | some none => zero | none => false)
    (((List.range new.length).zip new).filterMap fun x => match x.2 with
      | some (_, n) => if n = 0 then none else some (w * x.1, n)
      | none => none)

/-- What the loupe keeps of element `i`, of width `w`, of a register or a pair. -/
def rndAt (s : State) (c r w i : Nat) : Nat := (mapGet s.cells.rnd (vregKey c r + w * i)).getD 0

/-- A vector fault of R137, with the faulting element and its address. -/
def vecFault (a : CellAt) (o : Op) (cause elem reg addr : Nat) : Act s₀ Unit := do
  regSet (celW a.cell.val 0x104) (elem % 8192 + 8192 * reg)
  regSet (celW a.cell.val 0x108) (if 2 ^ 32 ≤ addr then 0xFFFFFFFF else addr)
  cellFault a o cause

/-- A vector fault that has no faulting element: the register is recorded, ELEM and VEC_FAULT_ADDR stay (log entry 131). -/
def vecFault0 (a : CellAt) (o : Op) (cause reg : Nat) : Act s₀ Unit := do
  regFld (celW a.cell.val 0x104) 13 6 reg
  cellFault a o cause

/-- A vector instruction retires (VEC_INSTR). -/
def vecRetire (c : Nat) : Act s₀ Unit := bump64 (celW c 0x110) 1

/-- The scalar file of S1 takes a value (R130, R136). -/
def scalarPut (c v : Nat) : Act s₀ Unit := do
  let s ← st
  setCell c { cellAt s c with scalar := BitVec.ofNat 64 v }

end Sys2Proof.Machine
end

