-- ==== Sys2Proof/Machine/Array.lean ====
section
/-! DEFINITION. The matrix array (R103 to R113): operand pairs, accumulation in K blocks, output
conversion, overflow recompute, and ARRAY_INSTRUCTION. -/

namespace Sys2Proof.Machine

variable {s₀ : State}

/-! ### Operand pairs and outputs (Table 5.3) -/

def eightBit (f : Fmt) : Bool := f == .e4m3 || f == .e5m2
def subByte (f : Fmt) : Bool := f == .e3m2 || f == .e2m3 || f == .e2m1

/-- An operand a row of Table 5.3 names: MXFP6 and MXFP4 need scales, only 8-bit and MX formats take
them, and only bf16 is tiled. -/
def operandOk (x : ArrOperand) : Bool :=
  (if subByte x.fmt then x.scale.isSome else x.scale.isNone || eightBit x.fmt) &&
  (x.dir.isNone || x.fmt == .bf16)

def narrow (f : Fmt) : Bool := eightBit f || subByte f

def pairOk (a b : ArrOperand) : Bool :=
  operandOk a && operandOk b &&
    (if narrow a.fmt then narrow b.fmt
     else a.fmt == b.fmt && [Fmt.fp32, .bf16, .fp16, .int8, .int16].contains a.fmt)

def outOk (a : Fmt) (out : Fmt) (mx : Bool) (oscale : BitVec 8) : Bool :=
  if FmtOf.isInt a then out == .int32 && !mx && oscale == 0
  else if mx then a != .fp32 && eightBit out && oscale != 128
  else if eightBit out then a != .fp32 && oscale != 128
  else (out == .fp32 || out == .bf16 || out == .fp16) && oscale == 0

/-! ### Accumulation (R104, R106) -/

/-- An accumulator: its fp32 code, whether it reached infinity by adding finite values (R108), and
whether it was exactly zero before its last rounding. -/
structure AccEl where
  code   : Nat
  ovf    : Bool
  exact0 : Bool
deriving DecidableEq, Repr

def accStart (r : Nat) (init : Nat) : AccEl :=
  let v := (v32 init).scale (-(8 * r : Nat))
  ⟨if r = 0 then init else r32 v, false, v.isZero⟩

/-- One K block added, with the retry's scale 2^(-8r). -/
def accBlock (r : Nat) (x : AccEl) (ps : List FV) : AccEl :=
  let v := (sumFV ps).scale (-(8 * r : Nat))
  let t := (v32 x.code).add v
  let c := r32 t
  ⟨c, x.ovf || ((v32 x.code).isFin && v.isFin && (v32 c).isInf), t.isZero⟩

/-- R104: blocks of 32 products in ascending order. -/
def accRun (r init : Nat) (ps : List FV) : AccEl := (chunks 32 ps).foldl (accBlock r) (accStart r init)

/-- R106: exact in int32; a partial sum outside stays at the bound. -/
def intRun (init : Int) (ps : List Int) : Int × Bool :=
  ps.foldl (fun a p => if a.2 then a else let t := satInt 32 (a.1 + p); (t.1, t.2)) (init, false)

/-! ### Output (R107 to R109) -/

/-- One element as it is written: its code, and how the loupe judges it. -/
structure OutEl where
  code : Nat
  jud  : Judged
deriving DecidableEq, Repr

/-- A block as one attempt gives it: the overflow condition of R108 held; rows; MX scale bytes by row. -/
structure BlkTry where
  beyond : Bool
  rows : List (List OutEl)
  mx   : List (List Nat)
deriving DecidableEq, Repr

/-- An element in a format without shared scales. `sat` is set for a block written after its last
permitted retry. -/
def outPlain (f : Fmt) (g : FSpec) (oscale : Int) (sat : Bool) (x : AccEl) : Bool × OutEl :=
  let v := (v32 x.code).scale (-oscale)
  let fromOp := v.isInf && !x.ovf
  let r := g.round v (sat && !fromOp)
  let beyond := eightBit f && !fromOp && r.ofl || (eightBit f && v.isInf && x.ovf)
  let capped := (r.ofl || v.isInf) && (g.val r.code).isFin
  (beyond, ⟨r.code, judge f r.code 0 (if f = .fp32 then x.exact0 else v.isZero) capped⟩)

/-- A row of MXFP8 output: runs of 32 along N. -/
def outMxRow (f : Fmt) (oscale : Int) (r : Nat) (xs : List AccEl) : List OutEl × List Nat :=
  let runs := (chunks 32 xs).map fun run =>
    let (b, es) := mxBlock f oscale (run.map fun x => v32 x.code)
    ((run.zip es).map fun y =>
      (⟨y.2.2.code, judge f y.2.2.code ((b : Int) - 127) y.2.1.isZero y.2.2.ofl⟩ : OutEl), min 254 (b + 8 * r))
  (runs.flatMap Prod.fst, runs.map Prod.snd)

/-- One attempt at a block of accumulated elements. -/
def blockOut (f : Fmt) (mx : Bool) (oscale : Int) (r : Nat) (sat low : Bool) (rows : List (List AccEl)) : BlkTry :=
  let reached := low && rows.any fun l => l.any AccEl.ovf
  if mx then
    let ys := rows.map (outMxRow f oscale r)
    ⟨reached, ys.map Prod.fst, ys.map Prod.snd⟩
  else
    let g := (FmtOf.spec f).getD fp32
    let ys := rows.map fun l => l.map (outPlain f g oscale sat)
    ⟨reached || ys.any (fun l => l.any Prod.fst), ys.map fun l => l.map Prod.snd, []⟩

/-- R108, R109: attempt r, with at most `left` retries to come. Answers the block, the retries made
and whether it was written saturated. -/
def blockRun (f : Fmt) (mx : Bool) (oscale : Int) (low : Bool) (acc : Nat → List (List AccEl)) :
    Nat → Nat → BlkTry × Nat × Bool
  | left, r =>
    let t := blockOut f mx oscale r false low (acc r)
    if !t.beyond then (t, r, false)
    else match left with
      | 0 => (blockOut f mx oscale r true low (acc r), r, true)
      | l + 1 =>
        if oscale + 8 * (r + 1) > 127 then (blockOut f mx oscale r true low (acc r), r, true)
        else blockRun f mx oscale low acc l (r + 1)

/-! ### One block -/

def idxs (lo n : Nat) : List Nat := (List.range n).map (· + lo)

/-- The products of an element, or none where a tile cannot be trusted. -/
def prods (as bs : List (Option FV)) : Option (List FV) :=
  (as.zip bs).foldr (fun x l => match x.1, x.2, l with
    | some a, some b, some l => some (a.mul b :: l)
    | _, _, _ => none) (some [])

def allSome : List (Option α) → Option (List α)
  | [] => some []
  | none :: _ => none
  | some x :: xs => (allSome xs).map (x :: ·)

/-- The products of every element of a block, by rows. -/
def blockProds (as bs : List (List (Option FV))) : Option (List (List (List FV))) :=
  allSome (as.map fun a => allSome (bs.map fun b => prods a b))

/-- A block's rows of A, columns of B and initial values. -/
structure Blk where
  i0 : Nat
  j0 : Nat
  nr : Nat
  nc : Nat
deriving DecidableEq, Repr

/-- The output blocks of an m × n product, in row-major order. -/
def blocksOf (m n : Nat) : List Blk :=
  (List.range (cdiv m 128)).flatMap fun bi => (List.range (cdiv n 128)).map fun bj =>
    ⟨128 * bi, 128 * bj, min 128 (m - 128 * bi), min 128 (n - 128 * bj)⟩

/-- A block whose values are undefined: free codes (R113). -/
def freeBlock (f : Fmt) (nonce : Nat) (b : Blk) : BlkTry :=
  ⟨false, (List.range b.nr).map fun i => (List.range b.nc).map fun j =>
    let c := (Config.freeWord nonce (128 * i + j)).toNat % 2 ^ FmtOf.bits f
    (⟨c, judge f c 0 true false⟩ : OutEl), []⟩

/-- A block of the product with the accumulator's initial values `init i j`. -/
def blockVal (da db : OpData) (ta tb : Bool) (k : Nat) (f : Fmt) (mx : Bool) (oscale : Int) (low : Bool)
    (retries nonce : Nat) (init : Nat → Nat → Nat) (b : Blk) : BlkTry × Nat × Bool :=
  let as := (idxs b.i0 b.nr).map fun i => (List.range k).map fun kk => da.atA ta k i kk
  let bs := (idxs b.j0 b.nc).map fun j => (List.range k).map fun kk => db.atB tb k kk j
  match blockProds as bs with
  | none => (freeBlock f nonce b, 0, false)
  | some ps =>
    if FmtOf.isInt da.fmt then
      (⟨false, ((idxs b.i0 b.nr).zip ps).map fun r => ((idxs b.j0 b.nc).zip r.2).map fun x =>
        let t := intRun (sInt 32 (init r.1 x.1)) (x.2.map fun v => (v.toInt true).1)
        let c := toCode 32 t.1
        (⟨c, judge .int32 c 0 true t.2⟩ : OutEl), []⟩, 0, false)
    else
      blockRun f mx oscale low (fun r => ((idxs b.i0 b.nr).zip ps).map fun q =>
        ((idxs b.j0 b.nc).zip q.2).map fun x => accRun r (init q.1 x.1) x.2) retries 0

/-! ### ARRAY_INSTRUCTION -/

/-- The fault of an instruction's operands, if any: unknown pair or output (0x02), misaligned (0x03),
outside BENCH_NEED (0x01). Operands and output blocks are 64-byte aligned (log entry 22). -/
def rangesFault (need : Nat) (l : List (Nat × Nat)) : Option Nat :=
  if l.any fun x => x.1 % 64 != 0 then some 3
  else if l.any fun x => decide (need < x.1 + x.2) then some 1
  else none

def arrRanges (x : ArrayInstr) : List (Nat × Nat) :=
  let a := storedDims x.a.trans x.m x.k
  let b := storedDims x.b.trans x.k x.n
  operandRanges x.a a.1 a.2 x.k ++ operandRanges x.b b.1 b.2 x.k
    ++ (match x.init with | some p => [(p, 4 * x.m * x.n)] | none => [])
    ++ [(x.out, packBytes x.outFmt (x.m * x.n))]

/-- Bytes of the scale array: one a block, or one a run of 32 along N. -/
def scaleArray (x : ArrayInstr) : Nat :=
  if FmtOf.isInt x.a.fmt then 0
  else if x.outMx then x.m * cdiv x.n 32 else (blocksOf x.m x.n).length

/-- A block of the output is written, with its scale bytes. -/
def arrWrite (c : Nat) (x : ArrayInstr) (idx : Nat) (b : Blk) (t : BlkTry) (applied : Int) : Act s₀ Unit := do
  let w := FmtOf.bytes x.outFmt
  each ((List.range b.nr).zip t.rows) fun r =>
    benchPut c (x.out + w * ((b.i0 + r.1) * x.n + b.j0)) (r.2.flatMap fun e => leBytes w e.code)
  if FmtOf.isInt x.a.fmt then skip
  else if x.outMx then
    each ((List.range b.nr).zip t.mx) fun r =>
      benchPut c (x.scales + (b.i0 + r.1) * cdiv x.n 32 + b.j0 / 32) (r.2.map (BitVec.ofNat 8))
  else benchPut c (x.scales + idx) [BitVec.ofNat 8 (toCode 8 applied)]

/-- The blocks of an array instruction, in order, over its operands and initial values `ib`. -/
def arrRun (a : CellAt) (x : ArrayInstr) (o : Op) (va vb : OpData) (ib : List Byte) : Act s₀ Unit := do
  let c := a.cell.val
  if ← residueChk c 1 o x.misses then do
    let s ← st
    let os := sInt 8 x.oscale.toNat
    let bl := blocksOf x.m x.n
    each ((List.range bl.length).zip bl) fun q => do
      let s' ← st
      let (t, r, sat) := blockVal va vb x.a.trans x.b.trans x.k x.outFmt x.outMx os
        (narrow x.a.fmt || narrow x.b.fmt) 2 s'.nonce (fun i j => leAt ib (4 * (i * x.n + j)) 4) q.2
      emit .nonce
      arrWrite c x q.1 q.2 t (os + 8 * r)
      if r = 0 then skip else bump (celW c 0x10) r
      if sat then bump (celW c 0x14) else skip
      lpeCount (watchTag s o.d x.watch) o.d o.step (t.rows.flatMap fun l => l.map OutEl.jud)
  else skip

/-- ARRAY_INSTRUCTION: C = A·B, from +0 or the initial values, to the bench. -/
def execArrayInstruction (a : CellAt) (x : ArrayInstr) (s : State) : Host.Outcome State Fault Refusal :=
  perform s (onCell a fun o => do
    let s ← st
    let c := a.cell.val
    let need := (cellAt s c).need
    if !pairOk x.a x.b || !outOk x.a.fmt x.outFmt x.outMx x.oscale then cellFault a o 2
    else match rangesFault need (arrRanges x) with
      | some e => cellFault a o e
      | none =>
        if scaleArray x ≠ 0 ∧ need < x.scales + scaleArray x then cellFault a o 1
        else
          let da := storedDims x.a.trans x.m x.k
          let db := storedDims x.b.trans x.k x.n
          readOperand c o x.a da.1 da.2 x.k fun va =>
            readOperand c o x.b db.1 db.2 x.k fun vb =>
              match x.init with
              | some p => benchGet c p (4 * x.m * x.n) o fun ib => arrRun a x o va vb ib
              | none => arrRun a x o va vb [])

end Sys2Proof.Machine
end

