-- ==== Sys2Proof/Machine/Backward.lean ====
section
/-! DEFINITION. The backward pass (chapter 7): stash regions, the well and its claims, BWD_CTL, the
stash instructions, WGRAD and WELL_ADD. -/

namespace Sys2Proof.Machine

variable {s₀ : State}

/-! ### Stash regions (Table 7.1, R139 to R141) -/

def stashW (r k : Nat) : Nat := BWD + 0x100 + 16 * r + 4 * k
def stashBase (s : State) (r : Nat) : Nat := regOf s (stashW r 1) + 2 ^ 32 * regOf s (stashW r 2)
def stashSize (s : State) (r : Nat) : Nat := 65536 * fld (regOf s (stashW r 3)) 0 16
def stashOpenB (s : State) (r : Nat) : Bool := s.stash.getLsbD r
/-- The region is VALID and belongs to the domain. -/
def stashMine (s : State) (d r : Nat) : Bool :=
  bit (regOf s (stashW r 0)) 0 && fld (regOf s (stashW r 0)) 1 2 == d

def ru64 (n : Nat) : Nat := cdiv n 64 * 64

/-- A directory entry. -/
structure StashDir where
  elems : Nat
  rows  : Nat
  off   : Nat
  state : Nat
  fmt   : Nat
deriving DecidableEq, Repr

def stashDirOf (b : List Byte) : StashDir := ⟨leAt b 0 4, leAt b 4 4, leAt b 8 4, leAt b 12 1, leAt b 13 1⟩

/-- The three areas of a layer (R139). -/
def stashElB (e : StashDir) : Nat := ru64 (if e.fmt = 2 then 2 * e.elems else e.elems)
def stashScB (e : StashDir) : Nat := if e.fmt = 2 then 0 else ru64 (e.elems / 32)
def stashBytes (e : StashDir) : Nat := stashElB e + stashScB e + ru64 (8 * e.rows)

/-- R141: allocation in ascending layer id from byte 4,096; after the first layer that does not fit,
none is allocated. -/
def stashAlloc (size : Nat) : Nat → Bool → List StashDir → List StashDir
  | _, _, [] => []
  | off, full, e :: es =>
    if e.state = 0 then e :: stashAlloc size off full es
    else if full || decide (size < off + stashBytes e) then { e with state := 3 } :: stashAlloc size off true es
    else { e with state := 2, off := off / 64 } :: stashAlloc size (off + stashBytes e) false es

/-- A 16-byte entry with OFFSET and STATE filled in. -/
def stashImage (b : List Byte) (e : StashDir) : List Byte :=
  b.take 8 ++ leBytes 4 e.off ++ leBytes 1 e.state ++ b.drop 13

/-! ### The well (R144) -/

def slotW (i k : Nat) : Nat := BWD + 0x4000 + 16 * i + 4 * k
def claimW (i : Nat) : Nat := BWD + 0x2000 + 4 * i
def slotValid (s : State) (i : Nat) : Bool := bit (regOf s (slotW i 0)) 24
def slotOwner (s : State) (i : Nat) : Nat := fld (regOf s (slotW i 0)) 25 2
def slotBase (s : State) (i : Nat) : Nat := fld (regOf s (slotW i 0)) 0 24
def slotLen (s : State) (i : Nat) : Nat := fld (regOf s (slotW i 1)) 0 25
def slotExt (s : State) (i : Nat) : Nat := regOf s (slotW i 2)
def slotSize (s : State) (i : Nat) : Nat := slotLen s i + slotExt s i
def claimed (s : State) (i : Nat) : Bool := bit (regOf s (claimW i)) 16
def claimOf (s : State) (i : Nat) : Nat := fld (regOf s (claimW i)) 0 16

/-- Where element e of a slot lies: in the well or in the extension (R144). -/
def slotAt (s : State) (i e : Nat) : Loc :=
  if e < slotLen s i then .well (4 * (slotBase s i + e))
  else .hbm (regOf s (BWD + 0x10) + 2 ^ 32 * regOf s (BWD + 0x14) + 64 * regOf s (slotW i 3) + 4 * (e - slotLen s i))

/-- The pieces, in order, of elements lo … lo+n-1: well part, extension part, as (place, bytes). -/
def slotPieces (s : State) (i lo n : Nat) : List (Loc × Nat) :=
  let w := min n (slotLen s i - lo)
  (if w = 0 then [] else [(slotAt s i lo, 4 * w)]) ++ (if n ≤ w then [] else [(slotAt s i (lo + w), 4 * (n - w))])

/-- Elements read: their codes, or a STATUS. -/
def slotRead (i lo n : Nat) (who : Option Who) : Act s₀ (Except Nat (List Nat)) := do
  let s ← st
  let r ← foldA (slotPieces s i lo n) (.ok []) fun (acc : Except Nat (List Byte)) p => do
    match acc with
    | .error e => pure (.error e)
    | .ok l => do
      let bad ← match p.1 with
        | .well o => sramRead 1 (o / 8) (cdiv (o + p.2) 8 - o / 8) who
        | _ => pure false
      if bad then pure (.error DATA_FAULT)
      else match ← locRead p.1 p.2 who with
        | .ok b => pure (.ok (l ++ b))
        | .error e => pure (.error e)
  pure (match r with | .ok b => .ok (elemsOf4 b) | .error e => .error e)
where
  elemsOf4 (b : List Byte) : List Nat := (chunks 4 b).map leNat

/-- Elements written: OK or a STATUS. -/
def slotWrite (i lo : Nat) (cs : List Nat) (who : Option Who) : Act s₀ Nat := do
  let s ← st
  let b := cs.flatMap (leBytes 4)
  let x ← foldA (slotPieces s i lo cs.length) (OK, 0) fun (acc : Nat × Nat) p => do
    match p.1 with
    | .well o => sramWrite 1 (cdiv o 8) ((o + p.2) / 8 - cdiv o 8)
    | _ => skip
    let e ← locWrite p.1 ((b.drop acc.2).take p.2) who
    pure (if acc.1 = OK then e else acc.1, acc.2 + p.2)
  pure x.1

/-- Elements whose extension part is touched. -/
def touchesExt (s : State) (i lo n : Nat) : Bool := decide (slotLen s i < lo + n)

/-! ### BWD_CTL (Table 7.2) -/

def bwSub (o : Op) : Nat := o.bits 16 0 4
def bwRegion (o : Op) : Nat := o.bits 17 0 3
def bwFirst (o : Op) : Nat := o.bits 18 0 10
def bwCount (o : Op) : Nat := o.bits 20 0 11

def bwFieldsBad (o : Op) : Bool :=
  !o.zero 16 4 4 || !o.zero 17 3 5 || !o.zero 18 10 6 || !o.zero 20 11 5 || !o.zero 22 0 336 || decide (2 < bwSub o)
  || (if bwSub o = 2 then bwCount o == 0 || decide (1024 < bwFirst o + bwCount o)
      else bwFirst o != 0 || bwCount o != 0)

/-- The 256 directory entries as bytes. -/
def stashEntries (b : List Byte) : List (List Byte) := chunks 16 b

def stashDirBad (b : List Byte) : Bool :=
  (stashEntries b).any fun x =>
    let e := stashDirOf x
    decide (3 < e.state) || decide (2 < e.fmt) || e.elems % 1024 != 0

/-- Admission of a BWD_CTL (R141, R143, R148). -/
def admBwd (o : Op) : Act s₀ Adm := do
  let s ← st
  let r := bwRegion o
  pure (firstBad [badIf (bwFieldsBad o), (!bit (regOf s BWD) 0, NOT_SUPPORTED, 0),
    badIf (bwSub o == 0 && (!stashMine s o.d r || stashOpenB s r)),
    badIf (bwSub o == 1 && (!stashMine s o.d r || !stashOpenB s r)),
    badIf (bwSub o == 2 && (idxsFrom (bwFirst o) (bwCount o)).any fun i => !slotValid s i || slotOwner s i != o.d)])
where
  idxsFrom (lo n : Nat) : List Nat := (List.range n).map (· + lo)

/-- STASH_OPEN (R141): the first write of the directory is the commit point. -/
def execStashOpen (r : OpRef) (s : State) : Host.Outcome State Fault Refusal := perform s <|
  withOp r .ready 11 fun o => do
    let s ← st
    if bwSub o ≠ 0 then skip
    else if stashOpenB s (bwRegion o) then endClean r BAD_DESCRIPTOR 0
    else match ← hbmRead (stashBase s (bwRegion o)) 4096 o.who with
      | .error e => endClean r e 0
      | .ok b =>
        if stashDirBad b then endClean r BAD_DESCRIPTOR 0
        else do
          let es := stashAlloc (stashSize s (bwRegion o)) 4096 false ((stashEntries b).map stashDirOf)
          let e ← hbmWrite (stashBase s (bwRegion o))
            (((stashEntries b).zip es).flatMap fun x => stashImage x.1 x.2) o.who
          let no := es.countP fun e => e.state == 3
          bump (BWD + 0x20) no
          if e ≠ OK then endOp r e 0
          else do
            emit (.stash (s.stash ||| BitVec.ofNat 8 (2 ^ bwRegion o)))
            endOp r OK ((findIdx (fun e => e.state == 3) es).getD 0xFFFF) no

/-- Running programs of a domain whose cells satisfy `p`. -/
def runsWith (s : State) (d : Nat) (p : CellSt → Bool) : Bool :=
  s.cells.st.any fun c => p c.2 && (match c.2.holder with | some (r, 0) => r.dom.val == d | _ => false)

/-- STASH_RELEASE (R143): it waits for the domain's runs that use the region. -/
def execStashRelease (r : OpRef) (s : State) : Host.Outcome State Fault Refusal := perform s do
  let s ← st
  match findOp s r with
  | none => skip
  | some o =>
    if o.code ≠ 11 ∨ bwSub o ≠ 1 ∨ (o.phase ≠ .ready ∧ o.phase ≠ .waitRes) then skip
    else if runsWith s o.d (fun c => c.stash.getLsbD (bwRegion o)) then waitRes o
    else do
      putOp (resumed s o)
      emit (.stash (s.stash &&& ~~~ BitVec.ofNat 8 (2 ^ bwRegion o)))
      endOp r OK 0

/-- Elements of a slot set to +0, and its claim released (R148). -/
def slotClear (i : Nat) (who : Option Who) : Act s₀ Nat := do
  let s ← st
  regSet (claimW i) 0
  foldA (slotPieces s i 0 (slotSize s i)) OK fun (e : Nat) p => do
    match p.1 with
    | .well o => do
      emit (.mem .well (.clear o p.2))
      sramWrite 1 (cdiv o 8) ((o + p.2) / 8 - cdiv o 8)
      pure e
    | l => do
      let x ← locWrite l (List.replicate p.2 0) who
      pure (if e = OK then x else e)

/-- WELL_CLEAR (R148): it waits for the domain's runs with the WELL flag. -/
def execWellClear (r : OpRef) (s : State) : Host.Outcome State Fault Refusal := perform s do
  let s ← st
  match findOp s r with
  | none => skip
  | some o =>
    if o.code ≠ 11 ∨ bwSub o ≠ 2 ∨ (o.phase ≠ .ready ∧ o.phase ≠ .waitRes) then skip
    else if runsWith s o.d CellSt.well then waitRes o
    else do
      putOp (resumed s o)
      let e ← foldA ((List.range (bwCount o)).map (· + bwFirst o)) OK fun (e : Nat) i => do
        let x ← slotClear i o.who
        pure (if e = OK then x else e)
      endOp r e 0

/-! ### Stash instructions (R140, R142, Table 7.3) -/

/-- The checks every stash instruction shares, and the directory entry of its layer. -/
def stashDo (a : CellAt) (o : Op) (region layer : Nat) (store : Bool) (k : StashDir → Act s₀ Unit) : Act s₀ Unit := do
  let s ← st
  let c := a.cell.val
  if store && !(cellAt s c).learning then cellFault a o 5
  else if !stashOpenB s region || !stashMine s o.d region then cellFault a o 0x22
  else do
    setCell c { cellAt s c with stash := (cellAt s c).stash ||| BitVec.ofNat 8 (2 ^ region) }
    match ← hbmRead (stashBase s region + 16 * layer) 16 o.who with
    | .error e => endOp o.ref e 0
    | .ok b => k (stashDirOf b)

/-- Elements or rows past what the layer holds. -/
def stashBeyond (e : StashDir) (x : StashInstr) : Bool :=
  if x.stats then decide (e.rows < x.first + x.count) else decide (e.elems < 1024 * (x.first + x.count))

def stashNeed (x : StashInstr) : Nat := if x.stats then 8 * x.count else 2048 * x.count

/-- The bench ranges of a stash instruction: its tiles or rows, and the directory a store takes its tiles by. -/
def stashBench (s : State) (a : CellAt) (x : StashInstr) (store : Bool) : Option Nat :=
  rangesFault (cellAt s a.cell.val).need ((x.bench, stashNeed x) ::
    (match x.dir with
      | some p => if store && !x.stats then [(p, 4 * x.count)] else []
      | none => []))

/-- The bytes a store takes from the bench: rows, dense tiles, or tiles by their directory (R110); a tile that its entry
disagrees with gives free values (R113). -/
def stashSource (a : CellAt) (x : StashInstr) (o : Op) (k : List Byte → Act s₀ Unit) : Act s₀ Unit := do
  match x.stats, x.dir with
  | false, some dp =>
    let s ← st
    readTiled a.cell.val o x.bench dp x.count fun ts => do
      emit .nonce
      k (((List.range ts.length).zip ts).flatMap fun t =>
        (t.2.getD ((List.range 1024).map fun i => (Config.freeWord s.nonce (1024 * t.1 + i)).toNat)).flatMap (leBytes 2))
  | _, _ => benchGet a.cell.val x.bench (stashNeed x) o k

/-- Bytes and scale bytes of narrowed tiles, and how the loupe judges them. -/
def stashNarrow (fmt : Nat) (cs : List Nat) : List Byte × List Byte × List Judged :=
  if fmt = 2 then (cs.flatMap (leBytes 2), [], cs.map fun c => judge .bf16 c 0 true false)
  else
    let f : Fmt := if fmt = 0 then .e4m3 else .e5m2
    let bl := (chunks 32 cs).map fun run => mxBlock f 0 (run.map vbf)
    (bl.flatMap fun b => b.2.map fun y => BitVec.ofNat 8 y.2.code, bl.map fun b => BitVec.ofNat 8 b.1,
     bl.flatMap fun b => b.2.map fun y => judge f y.2.code ((b.1 : Int) - 127) y.1.isZero y.2.ofl)

/-- 64-byte units of what a store would have written to a layer. -/
def stashUnits (e : StashDir) (x : StashInstr) : Nat :=
  if x.stats then cdiv (8 * x.count) 64
  else if e.fmt = 2 then 32 * x.count else 16 * x.count + cdiv x.count 2

/-- Writes of an instruction to HBM, joined to what the run has written. -/
def stashPost (o : Op) (l : List (Nat × List Byte)) : Act s₀ Unit := do
  let e ← foldA l OK fun (e : Nat) p => do
    wrote o.ref 0 p.1 p.2.length
    let x ← hbmWrite p.1 p.2 o.who
    pure (if e = OK then x else e)
  if e = OK then skip else endOp o.ref e 0

def execStashStore (a : CellAt) (x : StashInstr) (s : State) : Host.Outcome State Fault Refusal :=
  perform s (onCell a fun o => do
    let s ← st
    match stashBench s a x true with
    | some e => cellFault a o e
    | none =>
      stashDo a o x.region.val x.layer.val true fun e =>
        if stashBeyond e x then cellFault a o 0x21
        else if e.state = 3 then bump (BWD + 0x24) (stashUnits e x)
        else if e.state ≠ 2 then cellFault a o 0x21
        else stashSource a x o fun b => do
          let s ← st
          let base := stashBase s x.region.val + 64 * e.off
          if x.stats then stashPost o [(base + stashElB e + stashScB e + 8 * x.first, b)]
          else do
            let (el, sc, js) := stashNarrow e.fmt ((chunks 2 b).map leNat)
            let w := if e.fmt = 2 then 2048 else 1024
            lpeCount (watchOf s o.d 4 (x.region.val * 256 + x.layer.val)) o.d o.step js
            stashPost o [(base + w * x.first, el), (base + stashElB e + 32 * x.first, sc)])

/-- STASH_TEST (R142): STATE of the layer to the scalar file. -/
def execStashTest (a : CellAt) (region : Fin 8) (layer : Fin 256) (s : State) : Host.Outcome State Fault Refusal :=
  perform s (onCell a fun o =>
    stashDo a o region.val layer.val false fun e => scalarPut a.cell.val e.state)

/-- A store that writes to the layer has not been ordered before a reader by an escapement (R143). -/
def stashOpenStores (s : State) (base : Nat) (e : StashDir) : Bool :=
  s.ops.any fun o => o.work.unshown.any fun r =>
    r.1 == 0 && decide (r.2.1 < base + stashBytes e ∧ base < r.2.1 + r.2.2)

/-- What a load puts into the bench: undefined content while a store of the layer is not complete (R143). -/
def stashPut (a : CellAt) (x : StashInstr) (base : Nat) (e : StashDir) (b : List Byte) : Act s₀ Unit := do
  let s ← st
  benchPut a.cell.val x.bench b
  if stashOpenStores s base e then locSmear (.bench a.cell.val x.bench) b.length else skip

/-- STASH_LOAD (R140, R142): dense bf16 tiles, or rows of statistics, into the bench. -/
def execStashLoad (a : CellAt) (x : StashInstr) (s : State) : Host.Outcome State Fault Refusal :=
  perform s (onCell a fun o => do
    let s ← st
    match stashBench s a x false with
    | some e => cellFault a o e
    | none =>
      stashDo a o x.region.val x.layer.val false fun e =>
        if e.state ≠ 2 then cellFault a o 0x20
        else if stashBeyond e x then cellFault a o 0x21
        else do
          let s ← st
          let base := stashBase s x.region.val + 64 * e.off
          if x.stats then
            match ← hbmRead (base + stashElB e + stashScB e + 8 * x.first) (8 * x.count) o.who with
            | .error e => endOp o.ref e 0
            | .ok b => stashPut a x base e b
          else if e.fmt = 2 then
            match ← hbmRead (base + 2048 * x.first) (2048 * x.count) o.who with
            | .error e => endOp o.ref e 0
            | .ok b => stashPut a x base e b
          else
            match ← hbmRead (base + 1024 * x.first) (1024 * x.count) o.who with
            | .error e => endOp o.ref e 0
            | .ok b =>
              match ← hbmRead (base + stashElB e + 32 * x.first) (32 * x.count) o.who with
              | .error e => endOp o.ref e 0
              | .ok sc =>
                let f : Fmt := if e.fmt = 0 then .e4m3 else .e5m2
                let vs := ((List.range b.length).zip b).map fun y =>
                  rbf (mxVal f (leAt sc (y.1 / 32) 1) y.2.toNat)
                stashPut a x base e (vs.flatMap (leBytes 2)))

/-! ### WGRAD and WELL_ADD (R145, R147, R149) -/

/-- The checks of an instruction that accumulates into a slot, and its claim (R147). -/
def wellDo (a : CellAt) (o : Op) (slot first n prod : Nat) (k : Act s₀ Unit) : Act s₀ Unit := do
  let s ← st
  if !(cellAt s a.cell.val).learning then cellFault a o 5
  else if !slotValid s slot || slotOwner s slot != o.d || decide (slotSize s slot < first + n) then cellFault a o 0x23
  else if claimed s slot && claimOf s slot != prod then do
    bump (BWD + 0x28)
    endOp o.ref WGRAD_ALIAS (slot + 1024 * a.cell.val)
  else k

/-- The space that says which cell wrote a piece of a slot. -/
def writerSpace (c sp : Nat) : Nat := 64 + 4 * c + sp

/-- The parts of `n` bytes at `lo` of a slot's memory that another instruction, not ordered with one of cell `c` of this run
by an escapement, has written (R145). -/
def rivals (s : State) (o : Op) (c sp lo n : Nat) : List (Nat × Nat) :=
  s.ops.flatMap fun x => x.work.unshown.filterMap fun r =>
    if decide (64 ≤ r.1) && r.1 % 4 == sp && (x.ref != o.ref || r.1 != writerSpace c sp)
        && decide (r.2.1 < lo + n ∧ lo < r.2.1 + r.2.2) then
      some (max lo r.2.1, min (lo + n) (r.2.1 + r.2.2) - max lo r.2.1)
    else none

/-- The whole of a slot, as the space and range that R117 makes undefined. -/
def slotWhole (s : State) (i : Nat) : List (Nat × Nat × Nat) :=
  (slotPieces s i 0 (slotSize s i)).map fun p => (if p.1.space.1 = 2 then 5 else 6, p.1.space.2, p.2)

/-- Elements written into a slot by a run: the slot is claimed for the product and noted for R117, the pieces for the readers
not ordered behind them (R19), and elements that another instruction writes too, in no order with this one, become undefined
(R145). -/
def wellPut (a : CellAt) (o : Op) (slot prod lo : Nat) (cs : List Nat) : Act s₀ Nat := do
  let s ← st
  let c := a.cell.val
  let ps := slotPieces s slot lo cs.length
  regSet (claimW slot) (prod + 65536)
  each (slotWhole s slot) fun r => wrote o.ref r.1 r.2.1 r.2.2
  each ps fun p => do
    wrote o.ref p.1.space.1 p.1.space.2 p.2
    wrote o.ref (writerSpace c p.1.space.1) p.1.space.2 p.2
  let e ← slotWrite slot lo cs o.who
  each ps fun p => each (rivals s o c p.1.space.1 p.1.space.2 p.2) fun r => emit (.mem (memOf p.1.space.1) (.smear r.1 r.2))
  pure e

/-- One output block of a WGRAD: the well values are the initial values, rows of the block are runs
of elements (R145). -/
def wgradBlock (a : CellAt) (x : WgradInstr) (o : Op) (va vb : OpData) (b : Blk) : Act s₀ Nat := do
  let s ← st
  let row (i : Nat) : Nat := x.first + (b.i0 + i) * x.n + b.j0
  if (List.range b.nr).any fun i => touchesExt s x.slot.val (row i) b.nc then bump (BWD + 0x2C) else skip
  let init ← mapA (List.range b.nr) fun i => slotRead x.slot.val (row i) b.nc o.who
  match init.findSome? (fun r => match r with | .error e => some e | .ok _ => none) with
  | some e => pure e
  | none => do
    let rows := init.map fun r => match r with | .ok l => l | .error _ => []
    let (t, _, _) := blockVal va vb x.a.trans x.dy.trans x.k .fp32 false 0 false 0 s.nonce
      (fun i j => (rows.getD (i - b.i0) []).getD (j - b.j0) 0) b
    emit .nonce
    foldA ((List.range b.nr).zip t.rows) OK fun (e : Nat) r => do
      let y ← wellPut a o x.slot.val x.prod.toNat (row r.1) (r.2.map OutEl.code)
      pure (if e = OK then y else e)

/-- WGRAD (R145): dW += Aᵀ·dY into a well slot. Its blocks are written with OSCALE 0, so none is retried. -/
def execWgrad (a : CellAt) (x : WgradInstr) (s : State) : Host.Outcome State Fault Refusal :=
  perform s (onCell a fun o => do
    let s ← st
    let c := a.cell.val
    let da := storedDims x.a.trans x.m x.k
    let db := storedDims x.dy.trans x.k x.n
    if !pairOk x.a x.dy || FmtOf.isInt x.a.fmt then cellFault a o 2
    else match rangesFault (cellAt s c).need (operandRanges x.a da.1 da.2 x.k ++ operandRanges x.dy db.1 db.2 x.k) with
      | some e => cellFault a o e
      | none =>
        wellDo a o x.slot.val x.first (x.m * x.n) x.prod.toNat (
          readOperand c o x.a da.1 da.2 x.k fun va =>
            readOperand c o x.dy db.1 db.2 x.k fun vb => do
              if ← residueChk c 1 o x.misses then do
                let e ← foldA (blocksOf x.m x.n) OK fun (e : Nat) b =>
                  if e ≠ OK then pure e else wgradBlock a x o va vb b
                if e = OK then skip else endOp o.ref e 0
              else skip))

/-- The active elements of a WELL_ADD, as runs (first, number). -/
def waRuns (s : State) (c : Nat) (x : WellAddInstr) : List (Nat × Nat) :=
  runsOf 0 ((List.range (min x.count 1024)).map (activeAt (maskGet s c x.mask.val) 4))

/-- WELL_ADD (R149): active fp32 elements of a vector register added into well elements, one rounding each. -/
def execWellAdd (a : CellAt) (x : WellAddInstr) (s : State) : Host.Outcome State Fault Refusal :=
  perform s (onCell a fun o => do
    let s ← st
    let rs := waRuns s a.cell.val x
    let span := rs.foldl (fun n r => max n (r.1 + r.2)) 0
    wellDo a o x.slot.val x.first span x.prod.toNat do
      let old ← mapA rs fun r => slotRead x.slot.val (x.first + r.1) r.2 o.who
      match old.findSome? (fun r => match r with | .error e => some e | .ok _ => none) with
      | some e => endOp o.ref e 0
      | none => do
        let vs := elemsOf 4 (vregGet s a.cell.val x.reg.val false)
        let new := (rs.zip old).map fun r => (r.1.1,
          List.zipWith (fun p q => fpRes fp32 [v32 p, v32 q] ((v32 p).add (v32 q)))
            (match r.2 with | .ok l => l | .error _ => []) (vs.drop r.1.1))
        let e ← foldA new OK fun (e : Nat) r => do
          let y ← wellPut a o x.slot.val x.prod.toNat (x.first + r.1) (r.2.map Prod.fst)
          pure (if e = OK then y else e)
        flagsRaise a.cell.val (new.flatMap fun r => r.2.map Prod.snd)
        if e = OK then vecRetire a.cell.val else endOp o.ref e 0)

end Sys2Proof.Machine
end

