-- ==== Sys2Proof/Machine/ColBase.lean ====
section
/-! DEFINITION. Groups, rings, chunks and the bucket table (R231 to R233), and what a failed group
leaves behind (R251). -/

namespace Sys2Proof.Machine

variable {s₀ : State}

/-! ### Groups (COL_GRP) -/

def grpW (g k : Nat) : Nat := COL + 0x100 + 32 * g + 4 * k
def grpValid (s : State) (g : Nat) : Bool := bit (regOf s (grpW g 0)) 0
def grpOwner (s : State) (g : Nat) : Nat := fld (regOf s (grpW g 0)) 1 2
def grpAxes (s : State) (g : Nat) : Nat := fld (regOf s (grpW g 0)) 3 3
def grpZero (s : State) (g : Nat) : Bool := bit (regOf s (grpW g 0)) 9
def grpDrop (s : State) (g : Nat) : Bool := bit (regOf s (grpW g 0)) 10
def grpWindow (s : State) (g : Nat) : Nat := regOf s (grpW g 1)
def grpTimeout (s : State) (g : Nat) : Nat := 1000000 * fld (regOf s (grpW g 2)) 0 16
def grpTable (s : State) (g : Nat) : Nat := regOf s (grpW g 3) + 2 ^ 32 * regOf s (grpW g 4)
def grpBuckets (s : State) (g : Nat) : Nat := fld (regOf s (grpW g 5)) 0 17

/-- ORDER as a list of axes. -/
def orderOf (n : Nat) : List Nat :=
  match n with
  | 0 => [0, 1, 2] | 1 => [0, 2, 1] | 2 => [1, 0, 2] | 3 => [1, 2, 0] | 4 => [2, 0, 1] | _ => [2, 1, 0]

/-- The axis of each phase: the spanned axes in ORDER, but for those of size 1 (R231, R232). -/
def grpPhases (s : State) (g : Nat) : List Nat :=
  (orderOf (fld (regOf s (grpW g 0)) 6 3)).filter fun a => bit (grpAxes s g) a && decide (1 < dimOf s a)

def phaseAxis (s : State) (g k : Nat) : Nat := (grpPhases s g).getD k 0
def ringSize (s : State) (g k : Nat) : Nat := dimOf s (phaseAxis s g k)
def ringPos (s : State) (g k : Nat) : Nat := axis (myCoord s) (phaseAxis s g k)

/-- The step a packet's STEP[15:0] means: the one nearest the owner domain's index. -/
def fullStep (s : State) (g low : Nat) : Word :=
  let cur := privOf s (grpOwner s g) (hdmW (grpOwner s g) 0x60)
  BitVec.ofNat 32 (((cur : Int) + sInt 16 (low + 65536 - cur % 65536)) % 2 ^ 32).toNat

/-! ### Chunks (R232) -/

/-- First element and length of chunk j of a region of m elements on a ring of n. -/
def chunkOf (m n j : Nat) : Nat × Nat := (j * m / n, (j + 1) * m / n - j * m / n)

/-- The half of a chunk of c elements that travels in direction + or −: offset in the chunk, and length. -/
def halfOf (c : Nat) (minus : Bool) : Nat × Nat := if minus then ((c + 1) / 2, c / 2) else (0, (c + 1) / 2)

/-- The region of each phase of a bucket of m elements, as (first element, length); the last is the shard. -/
def regions (s : State) (g : Nat) : List Nat → Nat × Nat → List (Nat × Nat)
  | [], r => [r]
  | k :: ks, r =>
    let c := chunkOf r.2 (ringSize s g k) (ringPos s g k)
    r :: regions s g ks (r.1 + c.1, c.2)

def bucketRegions (s : State) (g m : Nat) : List (Nat × Nat) :=
  regions s g (List.range (grpPhases s g).length) (0, m)

def regionAt (s : State) (g m k : Nat) : Nat × Nat := (bucketRegions s g m).getD k (0, 0)
def shardOf (s : State) (g m : Nat) : Nat × Nat := regionAt s g m (grpPhases s g).length

/-- The chunk of phase k that starts at this chip in a direction, and the chip's own. -/
def originChunk (s : State) (g k : Nat) (minus : Bool) : Nat :=
  let n := ringSize s g k
  (ringPos s g k + (if minus then 1 else n - 1)) % n

/-- The torus direction a partial leaves in, and the one its grant comes from. -/
def ringDir (s : State) (g k : Nat) (minus : Bool) : Nat := 2 * phaseAxis s g k + b2n (!minus)

/-! ### The bucket table (Table 13.1) -/

structure Bkt where
  tensor : Nat
  thin   : Bool
  rank   : Nat
  slot   : Nat
  off    : Nat
  elems  : Nat
  dest   : Nat
  destB  : Nat
  rows   : Nat
  resid  : Nat
  qprev  : Nat
  weight : Nat
  wb     : Nat
  zero   : Bool
deriving DecidableEq, Repr

def bktOf (b : List Byte) : Bkt :=
  let f := leAt b 2 2
  { tensor := leAt b 0 2, thin := bit f 0, rank := fld f 1 5 + 1, slot := leAt b 4 2 % 1024,
    off := leAt b 8 4, elems := leAt b 12 4, dest := leAt b 16 8, destB := leAt b 24 4,
    rows := leAt b 28 4, resid := leAt b 32 8, qprev := leAt b 40 8, weight := leAt b 48 8,
    wb := 2 ^ (leAt b 56 1 % 4),
    zero := f / 64 == 0 && leAt b 4 2 / 1024 == 0 && leAt b 6 2 == 0 && leAt b 56 8 < 3 && (bit f 0 || f == 0) }

def bktAddr (s : State) (g b : Nat) : Nat := grpTable s g + 64 * b

/-- The entry as it stands in memory, without an access of its own. -/
def bktSee (s : State) (g b : Nat) : Bkt := bktOf (s.hbm.getN (bktAddr s g b) 64)

def Bkt.cols (x : Bkt) : Nat := x.elems / x.rows

/-- An address of an entry lies in SPACE 0b00, the only one its fields accept (R16, Table 13.1). -/
def bktLocal (a : Nat) : Bool :=
  match Loc.ofAddr a with
  | .hbm _ => true
  | _ => false

/-- WEIGHT may be in a row of a table as well: weights linked to the phase pair are a table's (R23, R249). -/
def weightSpace (a : Nat) : Bool :=
  match Loc.ofAddr a with
  | .table _ _ _ => true
  | _ => bktLocal a

/-- A range from WEIGHT on, cut where the next row of a table begins: (offset, length) of its parts. -/
def weightParts (a n : Nat) : List (Nat × Nat) :=
  match Loc.ofAddr a with
  | .table _ _ _ =>
    let r := a - a % 65536
    (List.range (cdiv (a % 65536 + n) 65536)).map fun i =>
      let lo := max a (r + 65536 * i)
      (lo - a, min (a + n) (r + 65536 * (i + 1)) - lo)
  | _ => [(0, n)]

/-- The entry breaks Table 13.1 or R248, or names a slot it may not (R144, R234). -/
def bktBad (s : State) (d g : Nat) (x : Bkt) : Bool :=
  let c0 := (regionAt s g x.elems 1).2
  !x.zero || x.elems == 0 || decide (67108864 < x.elems) || x.dest % 64 != 0
  || decide (x.destB < 4 * (if (grpPhases s g).isEmpty then x.elems else c0)) || !bktLocal x.dest || !weightSpace x.weight
  || !slotValid s x.slot || slotOwner s x.slot != d || decide (slotSize s x.slot < x.off + x.elems)
  || (if x.thin then
        decide (x.elems < 65536) || x.rows == 0 || x.elems % x.rows != 0 || decide (x.rows < x.rank)
        || decide (x.cols < x.rank) || !bktLocal x.resid || !bktLocal x.qprev
      else x.rows != 0 || x.resid != 0 || x.qprev != 0)

/-! ### The descriptor (Table 13.2) -/

def colSub (o : Op) : Nat := o.bits 16 0 1
def colGroup (o : Op) : Nat := o.bits 16 1 2
def colBucket (o : Op) : Nat := o.at 18 2
def colCells (o : Op) : Nat := o.at 20 4

def colPhase (p : OpPhase) : Bool := p == .ready || p == .running || p == .waitRes

/-- Operations of a group not yet decided: its own, and the updates that wait for its verdict (R153, R251). -/
def grpOps (s : State) (g : Nat) : List Op :=
  s.ops.filter fun o => colPhase o.phase &&
    ((o.code == 7 && colGroup o == g) || (o.code == 6 && o.flag 56 0 && o.bits 56 1 2 == g
      && (takenVerdict s o).isNone))

/-! ### Failure (R251) -/

/-- What the group's admitted buckets wrote or would have written becomes undefined. -/
def bktSmear (g b : Nat) : Act s₀ Unit := do
  let s ← st
  let x := bktSee s g b
  each (slotPieces s x.slot 0 (slotSize s x.slot)) fun p => locSmear p.1 p.2
  locSmear (Loc.ofAddr x.dest) x.destB
  if x.thin then do
    locSmear (Loc.ofAddr x.resid) (4 * x.elems)
    locSmear (Loc.ofAddr x.qprev) (4 * x.cols * x.rank)
  else skip
  each (weightParts x.weight (x.wb * x.elems)) fun p =>
    match place s (grpOwner s g) (x.weight + p.1) p.2 true with
    | .here l => locSmear l p.2
    | _ => skip

/-- A group fails: its own operations end REMOTE_TIMEOUT at the chip that found the failure and
FABRIC_LOST elsewhere, and nothing of it stays in the chip. -/
def colFail (g status : Nat) : Act s₀ Unit := do
  let s ← st
  let os := grpOps s g
  let bs := (os.filterMap fun o => if o.code == 7 then some (colBucket o) else none)
  each (bs.foldl (fun l b => if l.contains b then l else b :: l) []) fun b => bktSmear g b
  each os fun o => endOp o.ref status 0
  modCol fun c => { c with
    bk := c.bk.filter fun x => x.g != g, ag := c.ag.filter fun x => x.g != g,
    ver := c.ver.filter fun x => x.g != g, ctx := c.ctx.filter fun x => x.key.g != g,
    cred := c.cred.filter fun x => x.1.g != g, held := c.held.filter fun p => vcGroup p.hdr.vc.toNat != g,
    served := c.served.filter fun k => k.g != g }

end Sys2Proof.Machine
end

