-- ==== Sys2Proof/Machine/Transcend.lean ====
section
/-! DEFINITION. The functions of Table 6.2 and the regulator's cos (R128, R129, R162). Each result is
a free value of `Config` where that lies inside the manual's bound, and the exact result rounded
where it does not; the bound is judged on a 160-bit evaluation of the function, less what that may be off by, or exactly (log
entry 5). -/

namespace Sys2Proof.Machine

/-- Binary places of the fixed-point evaluation. -/
def FXP : Nat := 160
def fxOne : Nat := 2 ^ FXP
/-- ln 2 and log2 e at 160 places. -/
def fxLn2 : Nat := 1013035739299659071135698605846798551586536899366
def fxLog2e : Nat := 2108501164428393954197770173035669514763056903505

/-- Σ x^k / k! from term `k` on, the term's value being `t` (fixed point). -/
def expTail (x : Nat) : Nat → Nat → Nat → Nat
  | 0, _, _ => 0
  | f + 1, k, t => t + expTail x f (k + 1) (t * x / fxOne / (k + 1))

/-- e^x for 0 ≤ x < 1. -/
def fxExp (x : Nat) : Nat := expTail x 50 0 fxOne

/-- The alternating cosine series, for 0 ≤ x ≤ 4. -/
def cosTail (x : Nat) : Nat → Nat → Nat → Int
  | 0, _, _ => 0
  | f + 1, k, t => (t : Int) - cosTail x f (k + 2) (t * x / fxOne * x / fxOne / ((k + 1) * (k + 2)))

def fxCos (x : Nat) : Int := cosTail x 60 0 fxOne

/-- The binary places of log2 of a number in [1, 2), most significant first, by squaring. -/
def log2Frac : Nat → Nat → Nat → Nat
  | 0, _, acc => acc
  | f + 1, x, acc =>
    let y := x * x / fxOne
    if y ≥ 2 * fxOne then log2Frac f (y / 2) (2 * acc + 1) else log2Frac f y (2 * acc)

/-- |v| in fixed point. -/
def fxAbs (v : FV) : Nat :=
  match v with
  | .fin _ m e => if 0 ≤ e + FXP then m <<< (e + FXP).toNat else m >>> (-(e + FXP)).toNat
  | _ => 0

/-- 2^v for a finite fp32 value, as mantissa (about 2^160 to 2^161) and exponent; meant for |v| below 2^12. -/
def exp2Val (v : FV) : FV :=
  let a := fxAbs v
  let x : Int := if v.isNeg then -(a : Int) else a
  let n := x / fxOne
  let f := (x - n * fxOne).toNat
  .fin false (fxExp (f * fxLn2 / fxOne)) (n - FXP)

/-- log2 of a positive finite value. -/
def log2Val (m : Nat) (e : Int) : FV :=
  let l := bitLen m
  let n : Int := (l : Int) - 1 + e
  let x := if l - 1 ≤ FXP then m <<< (FXP - (l - 1)) else m >>> (l - 1 - FXP)
  let f := log2Frac 100 x 0
  FV.ofInt (n * 2 ^ 100 + f) (-100)

/-- The distance of two finite values. -/
def distFV (a b : FV) : FV := (a.sub b).abs

/-- A unit in the last place of a format at an exact finite value (R128). -/
def ulpAt (f : FSpec) (v : FV) : FV :=
  match v with
  | .fin _ m e =>
    let top := (bitLen m : Int) - 1 + e
    .fin false 1 ((if top < f.emin then f.emin else top) - f.man)
  | _ => .fin false 0 0

/-- The value a result stands for when its distance is judged: an infinity stands for the power of two beyond the format. -/
def resVal (f : FSpec) (c : Nat) : FV :=
  match f.val c with
  | .inf s => .fin s 1 ((2 ^ f.ebits - 1 : Nat) - f.bias : Int)
  | w => w

/-- `n` ULP at an exact result. -/
def ulps (f : FSpec) (v : FV) (n : Nat) : FV := .mul (.fin false n 0) (ulpAt f v)

/-- `c` is a code whose value lies within `n` ULP of the exact result, which `v` gives to within `slack`. -/
def withinUlp (f : FSpec) (v : FV) (n : Nat) (slack : FV) (c : Nat) : Bool :=
  (resVal f c).isFin && decide (c < 2 * f.sgn) && (sumFV [distFV (resVal f c) v, slack]).le (ulps f v n)

/-- The free code where the bound allows it, else the exact result rounded. -/
def bounded (f : FSpec) (v : FV) (n : Nat) (slack : FV) (free : Nat) : Nat :=
  if withinUlp f v n slack free then free else (f.round v false).code

/-- A transcendental result: its fp32 code and the flags DIVZERO, INVALID and OVERFLOW. -/
structure Tran where
  code : Nat
  dz   : Bool
  nv   : Bool
  ofl  : Bool
deriving DecidableEq, Repr

def tr (c : Nat) : Tran := ⟨c, false, false, false⟩
def nan32 : Nat := 0x7FC00000
def inf32 (neg : Bool) : Nat := if neg then 0xFF800000 else 0x7F800000

def free32 (g : Word → Word) (x : Nat) : Nat := (g (BitVec.ofNat 32 x)).toNat

/-- exp2 (Table 6.2). -/
def tExp2 (x : Nat) : Tran :=
  let v := v32 x
  match v with
  | .nan => tr nan32
  | .inf n => tr (if n then 0 else inf32 false)
  | .fin _ _ _ =>
    let (i, frac) := v.toInt true
    if FV.le (.fin false 128 0) v then ⟨inf32 false, false, false, true⟩
    else if !frac && decide (-149 ≤ i) && decide (i ≤ 127) then tr (r32 (.fin false 1 i))
    else if FV.lt v (.fin true 400 0) then
      tr (bounded fp32 (.fin false 1 (-400)) 2 (.fin false 1 (-400)) (free32 Config.freeExp2 x))
    else
      let c := bounded fp32 (exp2Val v) 2 ((exp2Val v).scale (-152)) (free32 Config.freeExp2 x)
      ⟨c, false, false, c == inf32 false⟩

/-- log2 (Table 6.2): inside [0.5, 2] the bound is absolute. -/
def tLog2 (x : Nat) : Tran :=
  match v32 x with
  | .nan => tr nan32
  | .inf n => if n then ⟨nan32, false, true, false⟩ else tr (inf32 false)
  | .fin n m e =>
    if m = 0 then ⟨inf32 true, true, false, false⟩
    else if n then ⟨nan32, false, true, false⟩
    else if m = 2 ^ (bitLen m - 1) then tr (intTo32 ((bitLen m : Int) - 1 + e))
    else
      let v := log2Val m e
      let f := free32 Config.freeLog2 x
      let inside := decide ((bitLen m : Int) - 1 + e = -1) || decide ((bitLen m : Int) - 1 + e = 0)
      if inside then
        let ok := (v32 f).isFin && decide (f < 2 ^ 32) &&
          (sumFV [distFV (v32 f) v, .fin false 1 (-99)]).le (.fin false 1 (-22))
        tr (if ok then f else r32 v)
      else tr (bounded fp32 v 2 (.fin false 1 (-99)) f)

/-- A code lies within 1 ULP of 1/x, judged exactly on its product with x; `q` is 1/x truncated. -/
def recipOk (x q : FV) (c : Nat) : Bool :=
  let w := resVal fp32 c
  w.isFin && decide (c < 2 ^ 32) && (distFV (w.mul x) (.fin false 1 0)).le ((ulps fp32 q 1).mul x.abs)

/-- recip (Table 6.2). -/
def tRecip (x : Nat) : Tran :=
  match v32 x with
  | .nan => tr nan32
  | .inf n => tr (if n then 0x80000000 else 0)
  | .fin n m e =>
    if m = 0 then ⟨inf32 n, true, false, false⟩
    else
      let q := (divFV (.fin false 1 0) (.fin n m e)).1
      let f := free32 Config.freeRecip x
      let c := if recipOk (.fin n m e) q f then f else r32 q
      ⟨c, false, false, (v32 c).isInf⟩

/-- The integer square root by bisection: the largest r below 2^k with r² ≤ n. -/
def isqrtAux (n : Nat) : Nat → Nat → Nat
  | 0, r => r
  | k + 1, r => isqrtAux n k (if (r + 2 ^ k) * (r + 2 ^ k) ≤ n then r + 2 ^ k else r)

def isqrt (n : Nat) : Nat := isqrtAux n (bitLen n / 2 + 1) 0

/-- 1/√v for a positive finite value, to about 150 bits. -/
def rsqrtVal (m : Nat) (e : Int) : FV :=
  let (m', e') := if e % 2 = 0 then (m, e) else (2 * m, e - 1)
  .fin false (isqrt (2 ^ 400 / m')) (-200 - e' / 2)

/-- A code lies within 2 ULP of 1/√x, judged exactly on squares; `q` is 1/√x truncated. -/
def rsqrtOk (x q : FV) (c : Nat) : Bool :=
  let w := resVal fp32 c
  let u := ulps fp32 q 2
  let sq (y : FV) : FV := (y.mul y).mul x
  w.isFin && decide (c < 2 ^ 31) && ((w.sub u).isNeg || (sq (w.sub u)).le (.fin false 1 0))
    && (FV.fin false 1 0).le (sq (w.add u))

/-- rsqrt (Table 6.2). -/
def tRsqrt (x : Nat) : Tran :=
  match v32 x with
  | .nan => tr nan32
  | .inf n => if n then ⟨nan32, false, true, false⟩ else tr 0
  | .fin n m e =>
    if m = 0 then ⟨inf32 n, true, false, false⟩
    else if n then ⟨nan32, false, true, false⟩
    else
      let f := free32 Config.freeRsqrt x
      tr (if rsqrtOk (.fin n m e) (rsqrtVal m e) f then f else r32 (rsqrtVal m e))

/-- tanh (Table 6.2). -/
def tTanh (x : Nat) : Tran :=
  let v := v32 x
  match v with
  | .nan => tr nan32
  | .inf n => tr (if n then 0xBF800000 else 0x3F800000)
  | .fin n m e =>
    if FV.lt v.abs (.fin false 1 (-12)) then tr x
    else if FV.le (.fin false 10 0) v.abs then tr (if n then 0xBF800000 else 0x3F800000)
    else
      let y := fxAbs (.fin false m e) * 2 * fxLog2e / fxOne
      let t := fxExp ((y % fxOne) * fxLn2 / fxOne) <<< (y / fxOne)
      let w := (t - fxOne) * fxOne / (t + fxOne)
      tr (bounded fp32 (.fin n w (-(FXP : Int))) 3 (FV.fin false w (-(FXP : Int) - 138)) (free32 Config.freeTanh x))

/-- The regulator's cos on [0, π] (R162); the exact result of an argument that is not 0 lies below 1. -/
def tCos (x : Nat) : Nat :=
  match v32 x with
  | .fin n m e =>
    let t := fxCos (fxAbs (.fin n m e))
    let near : Int := (fxOne : Int) - 2 ^ 10
    let v := FV.ofInt (if m = 0 then (fxOne : Int) else if near < t then near else t) (-(FXP : Int))
    bounded fp32 v 2 (.fin false 1 (-150)) (free32 Config.freeCos x)
  | _ => nan32

end Sys2Proof.Machine
end

