-- ==== Sys2Proof/Machine/Regulator.lean ====
section
/-! DEFINITION. The regulator (R161 to R163): learning rate and weight decay of a step. -/

namespace Sys2Proof.Machine

variable {s₀ : State}

def schW (g w : Nat) : Nat := SCH + 0x100 + 64 * g + 4 * w

/-- fp32 constants 1, 2 and π. -/
def one32 : Nat := 0x3F800000
def two32 : Nat := 0x40000000
def pi32 : Nat := 0x40490FDB

def fexp2 (x : Nat) : Nat := (tExp2 x).code
def flog2 (x : Nat) : Nat := (tLog2 x).code
def frsqrt (x : Nat) : Nat := (tRsqrt x).code
def fmin (a b : Nat) : Nat := r32 ((v32 a).min (v32 b))
def fmax (a b : Nat) : Nat := r32 ((v32 a).max (v32 b))
def nat32 (n : Nat) : Nat := intTo32 n

/-- d of R162: the step index minus START, signed. -/
def schD (s : State) (g : Nat) (step : Nat) : Int := sInt 32 (step + 2 ^ 32 - regOf s (schW g 1))

/-- The cycle that contains e: the part of it passed, and its length; `start` and `len` are the
cycle's, and a length that would reach 2^32 ends the restarts. -/
def restart (e mult : Nat) : Nat → Nat → Nat → Nat × Nat
  | 0, start, len => (e - start, len)
  | f + 1, start, len =>
    if e < start + len then (e - start, len)
    else if 2 ^ 32 ≤ len * mult then (e - start, len)
    else restart e mult f (start + len) (len * mult)

/-- τ and L (R162). -/
def tauL (e len period mult : Nat) : Nat × Nat :=
  if period = 0 then (e, len)
  else if mult ≤ 1 then (e % period, period)
  else restart e mult 33 0 period

/-- The decay shapes of Table 8.4. -/
def decayH (shape rho tau l len : Nat) : Nat :=
  let x := fmin (fdiv (nat32 tau) (nat32 l)) one32
  match shape with
  | 0 => one32
  | 1 => fsub one32 (fmul (fsub one32 rho) x)
  | 2 => fadd rho (fdiv (fmul (fsub one32 rho) (fadd one32 (tCos (fmul pi32 x)))) two32)
  | 3 => fmax rho (frsqrt (fdiv (fadd (nat32 len) (nat32 tau)) (nat32 len)))
  | _ => fmax rho (fexp2 (fdiv (fneg (nat32 tau)) (nat32 len)))

/-- The schedule factor of group g at a step. -/
def schF (s : State) (g step : Nat) : Nat :=
  let w0 := regOf s (schW g 0)
  let d := schD s g step
  let warm := regOf s (schW g 2)
  let lrMax := regOf s (schW g 5)
  let rho := if (v32 lrMax).isZero then 0 else fdiv (regOf s (schW g 6)) lrMax
  if d < 0 then 0
  else if d < warm then
    let x := fdiv (nat32 (d.toNat + 1)) (nat32 warm)
    if bit w0 3 then fexp2 (fmul (flog2 (regOf s (schW g 7))) (fsub one32 x)) else x
  else
    let (tau, l) := tauL (d.toNat - warm) (regOf s (schW g 3)) (regOf s (schW g 4)) (fld w0 8 4)
    decayH (fld w0 4 3) rho tau l (regOf s (schW g 3))

/-- The UPDATEs of a group that wait for its outputs take them (R161). -/
def schTake (g : Nat) (eta lam : Word) : Act s₀ Unit := do
  let s ← st
  let mine (o : Op) : Bool := o.code == 6 && o.bits 19 0 4 == g && o.phase == .waitRes && o.upWork.sch.isNone
  if s.ops.any mine then
    emit (.ops (mapIf mine (fun o => { o with work := .update { o.upWork with sch := some (eta, lam) } }) s.ops))
  else skip

/-- REGULATOR_RECOMPUTE (R161): η, λ and the step go to SCH_OUT of a VALID group that is due. -/
def execRegulatorRecompute (g : Fin 16) (s : State) : Host.Outcome State Fault Refusal := perform s do
  let s ← st
  let w0 := regOf s (schW g.val 0)
  if !bit (regOf s SCH) 0 || !bit w0 0 || !s.schDue.getLsbD g.val then skip
  else do
    let step := privOf s (fld w0 1 2) (hdmW (fld w0 1 2) 0x60)
    let f := schF s g.val step
    let wd := regOf s (schW g.val 8)
    let eta := fmul (regOf s (schW g.val 5)) f
    let lam := if bit w0 7 then fmul wd f else wd
    regSet (schW g.val 9) eta
    regSet (schW g.val 10) lam
    regSet (schW g.val 11) step
    emit (.schDue (s.schDue &&& ~~~ BitVec.ofNat 16 (2 ^ g.val)))
    schTake g.val (BitVec.ofNat 32 eta) (BitVec.ofNat 32 lam)

end Sys2Proof.Machine
end

