-- ==== Sys2Proof/Machine/Tables.lean ====
section
/-! DEFINITION. TABLE_CTL (R84 to R89), the phase commit and the catch-up pass (R24, R26, R90), and how a
move of a row starts (R91 to R93, R95 step 1, R97). -/

namespace Sys2Proof.Machine

variable {s₀ : State}

/-! ### The descriptor (Table 4.3) -/

def tcTable (o : Op) : Nat := o.bits 16 0 12
def tcSub (o : Op) : Nat := o.bits 16 12 4
def tcArg (o : Op) : Nat := o.at 24 8
def tcDest (o : Op) : Nat := o.bits 32 0 18

def tcFieldsBad (o : Op) : Bool :=
  !o.zero 18 0 48 || !o.zero 34 2 14 || !o.zero 36 0 224 || decide (4 < tcSub o)
  || ((tcSub o == 2 || tcSub o == 3) && tcArg o != 0) || (tcSub o != 4 && tcDest o != 0)

/-- What an operation of TABLE_CTL is refused for at admission, by SUBOP. -/
def tcSubChk (s : State) (o : Op) : Adm :=
  match tdLive s (tcTable o) with
  | none => some (BAD_DESCRIPTOR, 0)
  | some d =>
    match tcSub o with
    | 1 => firstBad [badIf (tcArg o % 2048 != 0 || decide (2 ^ 40 ≤ tcArg o) || (tcArg o == 0 && d.plink))]
    | 2 => firstBad [(d.plink, REFUSED_PHASE, 0), badIf ((if d.active then d.baseA else d.baseB) == 0)]
    | 4 => firstBad [(!bit (regOf s TBL) 0, NOT_SUPPORTED, 0), badIf (d.migMode == 0),
        badIf (decide (d.rows ≤ tcArg o) || !inSlice s (tcDest o))]
    | _ => none

/-- Admission of a TABLE_CTL; a RELEASE takes its table out of use here (R84, R89). -/
def admTable (o : Op) : Act s₀ Adm := do
  let s ← st
  match firstBad [badIf (tcFieldsBad o), (!inTblRange s o.d (tcTable o), REFUSED_QUOTA, 4)] with
  | some x => pure (some x)
  | none =>
    if tcSub o = 0 then
      pure (firstBad [rangeChk s o (tcArg o) 64 false])
    else match tcSubChk s o with
      | some x => pure (some x)
      | none => do
        match tdGet s (tcTable o) with
        | some d => if tcSub o = 3 then tdSet (tcTable o) { d with releasing := true } else skip
        | none => skip
        pure none

/-- The operation, when it is a TABLE_CTL of this SUBOP in one of the phases. -/
def withTc (r : OpRef) (sub : Nat) (ps : List OpPhase) (f : Op → Act s₀ Unit) : Act s₀ Unit := do
  let s ← st
  match findOp s r with
  | some o => if o.code = 0x0A ∧ tcSub o = sub ∧ ps.contains o.phase then f o else skip
  | none => skip

/-! ### DEFINE (R18, R85) -/

def mapCount (rows stretch : Nat) : Nat := cdiv rows stretch

/-- What R85 refuses in an image, but for its map. -/
def imgBad (s : State) (dom : Nat) (want : Option Nat) (b : Nat) : Bool :=
  let d := tdOfBits b dom
  (match want with | some t => fld b 0 12 != t | none => false) || bit b 12 || fld b 28 2 != 0
  || d.rows == 0 || decide (2 ^ 34 < d.rows) || d.stretch == 0
  || d.migMode == 3 || decide (8 < d.fmt) || decide (4 < d.rule) || fld b 30 2 != 0
  || d.baseA % 2048 != 0 || d.baseB % 2048 != 0 || d.map % 64 != 0
  || [d.baseA, d.baseB, d.map, d.state, d.touch].any (fun a => decide (2 ^ 40 ≤ a))
  || decide (262144 < mapCount d.rows d.stretch) || !escIn s dom d.drain || (d.plink && d.baseB == 0)

/-- What R85 refuses in a map: a coordinate outside the slice, or two entries alike. -/
def mapBad (s : State) (es : List Nat) : Bool :=
  es.any (fun e => !inSlice s (fld e 0 18)) || !(es.Nodup : Bool)

/-- A descriptor image is taken into a free id; OK, or the STATUS. -/
def defineImg (t dom : Nat) (want : Option Nat) (b : Nat) (who : Option Who) : Act s₀ Nat := do
  let s ← st
  if (tdGet s t).isSome || imgBad s dom want b then pure BAD_DESCRIPTOR
  else do
    let d := tdOfBits b dom
    match ← hbmRead d.map (4 * mapCount d.rows d.stretch) who with
    | .error e => pure e
    | .ok m =>
      if mapBad s ((chunks 4 m).map leNat) then pure BAD_DESCRIPTOR
      else do
        tdSet t d
        pure OK

/-- DEFINE (R85). -/
def execDefine (r : OpRef) (s : State) : Host.Outcome State Fault Refusal :=
  perform s <| withTc r 0 [.ready, .running] fun o => do
    match ← fetch o (tcArg o) 64 false with
    | .wait => modOp r fun x => { x with phase := .running }
    | .fail e => endOp r e 0
    | .got b => do
      let e ← defineImg (tcTable o) o.d (some (tcTable o)) (leNat b) o.who
      endOp r e 0

/-! ### SET_INACTIVE (R88) -/

def replaceInactive (o : Op) : Act s₀ Unit := do
  let s ← st
  match tdGet s (tcTable o) with
  | none => endOp o.ref BAD_DESCRIPTOR 0
  | some d => do
    tdSet (tcTable o) (if d.active then { d with baseA := tcArg o, inactNew := false }
      else { d with baseB := tcArg o, inactNew := false })
    putOp (resumed s o)
    endOp o.ref OK 0

/-- The drain of a table's inactive base is over. -/
def tcDrained (s : State) (o : Op) : Bool :=
  match tdGet s (tcTable o) with
  | some d => drained s (tcTable o) d
  | none => true

/-- SET_INACTIVE (R88): at once when DRAIN_ESC has fired, else the operation waits. -/
def execSetInactive (r : OpRef) (s : State) : Host.Outcome State Fault Refusal :=
  perform s <| withTc r 1 [.ready] fun o => do
    let s ← st
    if tcDrained s o then replaceInactive o else waitRes o

/-- INACTIVE_BASE_REPLACE (R88): the wait ends when DRAIN_ESC fires. -/
def execInactiveBaseReplace (r : OpRef) (s : State) : Host.Outcome State Fault Refusal :=
  perform s <| withTc r 1 [.waitRes] fun o => do
    let s ← st
    if tcDrained s o then replaceInactive o else skip

/-! ### FLIP (R87) -/

/-- The commit of a flip: ACTIVE, VERSION, and DRAIN_ESC armed with the holders of the old base. -/
def flipTable (t : Nat) (d : TDesc) : Act s₀ Unit := do
  let s ← st
  let n := holders s t d.active
  tdSet t { d with active := !d.active, ver := d.ver + 1, inactNew := false }
  escEff d.drain .reset
  escWaiters d.drain
  escEff d.drain (.arm n)

/-- FLIP (R87). -/
def execFlip (r : OpRef) (s : State) : Host.Outcome State Fault Refusal :=
  perform s <| withTc r 2 [.ready] fun o => do
    let s ← st
    match tdGet s (tcTable o) with
    | none => endOp r BAD_DESCRIPTOR 0
    | some d => do
      flipTable (tcTable o) d
      endOp r OK 0

/-! ### RELEASE (R89) -/

/-- Nobody holds either base. -/
def unheld (s : State) (t : Nat) : Bool := holders s t false == 0 && holders s t true == 0

/-- The table's entries and guest rows are discarded and its id is free. Moves of its rows still in flight are cancelled,
and their MIGRATE operations end OK (DESIGN CHOICE, log entry 123). -/
def freeTable (o : Op) : Act s₀ Unit := do
  let t := tcTable o
  let s ← st
  each (s.tbl.migs.filter fun m => m.table == t) (cancelMove OK)
  modTbl fun x => { x with
    desc := mapDel x.desc t
    ov := x.ov.filter fun e => e.table != t
    ovBad := x.ovBad.filter fun e => e.1 != t
    guests := x.guests.filter fun g => g.2.2.1 != t
    inbound := x.inbound.filter fun i => i.1 != t
    lastPub := x.lastPub.filter fun p => p.1 != t
    fwdTs := x.fwdTs.filter fun p => p.1 != t
    hot := x.hot.filter fun h => h.1 != t }
  putOp (resumed s o)
  endOp o.ref OK 0

/-- RELEASE (R89): it waits until both bases have no holders. -/
def execRelease (r : OpRef) (s : State) : Host.Outcome State Fault Refusal :=
  perform s <| withTc r 3 [.ready] fun o => do
    let s ← st
    if unheld s (tcTable o) then freeTable o else waitRes o

/-- RELEASE_FREE (R89): the last holder has gone. -/
def execReleaseFree (r : OpRef) (s : State) : Host.Outcome State Fault Refusal :=
  perform s <| withTc r 3 [.waitRes] fun o => do
    let s ← st
    if unheld s (tcTable o) then freeTable o else skip

/-! ### Starting a move (R92, R93, R95 step 1, R97) -/

def pinned (s : State) : Nat := (s.tbl.ov.filter fun e => e.kind == 2 || e.kind == 3).length

/-- GRACE_US in ns. -/
def graceNs (s : State) : Nat := 1000 * fld (regOf s (TBL + 8)) 16 16

/-- A contribution for the table is held in some context (R97). -/
def sacHolds (s : State) (t : Nat) : Bool := s.sac.ctx.any fun c => c.2.mask.contains t

/-- The engine would move this row now: it is here and still, no context holds its table, and its last
publication is old enough. -/
def movable (s : State) (t : Nat) (d : TDesc) (r : Nat) : Bool :=
  ownsRow s t d r && !(s.tbl.migs.any fun m => m.table == t && m.row == r) && !sacHolds s t
  && !(s.tbl.lastPub.any fun p => p.1 == t && p.2.1 == r && !due s p.2.2 (graceNs s))

/-- O sets MOVING and asks N to reserve (R95 step 1). A move O cannot pin is not started (R93), nor one to O itself, where
the row is already (DESIGN CHOICE, log entry 122). -/
def startMove (t : Nat) (d : TDesc) (r dest : Nat) (op : Option OpRef) : Act s₀ Unit := do
  let s ← st
  let skipped : Act s₀ Unit := do
    bump (TBL + 0x34)
    match op with
    | some o => endOp o OK 0
    | none => skip
  if dest = myCoord s ∨ ((ovFind s t r).isNone ∧ 262144 ≤ pinned s) then skipped
  else do
    modTbl fun x => { x with migs := x.migs ++ [⟨t, r, BitVec.ofNat 18 dest, 0, false, false, op⟩] }
    setMstate t r 1
    let e ← request none dest 0x15 0 0 8 1 1 .mig (.mig t r (.reserve (guestUnits d)))
    if e = OK then skip
    else do
      modTbl fun x => { x with migs := x.migs.filter fun m => !(m.table == t && m.row == r) }
      setMstate t r 0
      bump (TBL + 0x30)
      match op with
      | some o => endOp o e 0
      | none => skip

/-- MIGRATE (R92): one software-chosen move. It waits for one of the 64 places, for the contexts of
R97 and for the grace time; a row that is not here is not moved, and none is once MIG_ENABLE is 0. -/
def execMigrate (r : OpRef) (s : State) : Host.Outcome State Fault Refusal :=
  perform s <| withTc r 4 [.ready, .waitRes] fun o => do
    let s ← st
    let t := tcTable o
    match tdGet s t with
    | none => endOp r BAD_DESCRIPTOR 0
    | some d =>
      if !bit (regOf s TBL) 0 then do
        putOp (resumed s o)
        endOp r NOT_SUPPORTED 0
      else if !ownsRow s t d (tcArg o) then do
        putOp (resumed s o)
        bump (TBL + 0x34)
        endOp r OK 0
      else if 64 ≤ s.tbl.migs.length ∨ !movable s t d (tcArg o) then waitRes o
      else do
        putOp { resumed s o with phase := .running }
        startMove t d (tcArg o) (tcDest o) (some r)

/-! ### The phase pair (R22 to R27) -/

/-- The domain is in GENERATION. -/
def inGeneration (s : State) (d : Nat) : Bool := bit (regOf s (hdmW d 0x50)) 8

/-- Tables linked to a domain's phase pair. -/
def linkedTables (s : State) (d : Nat) : List (Nat × TDesc) :=
  s.tbl.desc.filter fun x => x.2.plink && x.2.dom == d

/-- The phase switches as one commit, then PHASE_SWITCHED gets 1 (R26). -/
def phaseCommit (d : Nat) : Act s₀ Unit := do
  let s ← st
  if s.hosts.phaseReq.getLsbD d then do
    let gen := inGeneration s d
    modHosts fun h => { h with phaseReq := h.phaseReq &&& ~~~(BitVec.ofNat 4 (2 ^ d)) }
    regFld (hdmW d 0x50) 8 1 (b2n !gen)
    if gen then modHosts fun h => { h with catchUp := h.catchUp ||| BitVec.ofNat 4 (2 ^ d) }
    else each (linkedTables s d) fun x => do
      let s ← st
      match tdGet s x.1 with
      | some t => flipTable x.1 t
      | none => skip
    let s ← st
    let e := fld (regOf s (hdmW d 0x54)) 16 16
    let _ ← escDo e (escAt s e).gen.toNat (.add 1)
    skip
  else skip

/-- PHASE_COMMIT (R26). -/
def execPhaseCommit (d : Fin 4) (s : State) : Host.Outcome State Fault Refusal := perform s (phaseCommit d.val)

/-! ### The catch-up pass (R24, R90) -/

/-- Local rows of a table: (row, local index) of every stretch this chip is home of. -/
def localRows (s : State) (d : TDesc) : List (Nat × Nat) :=
  ((List.range (mapCount d.rows d.stretch)).filter fun k => homeChip s d (k * d.stretch) == myCoord s).flatMap fun k =>
    (List.range (min d.stretch (d.rows - k * d.stretch))).map fun i =>
      (k * d.stretch + i, localIdx s d (k * d.stretch + i))

/-- Sectors marked poisoned. -/
def poisonSecs (l : List Nat) : Act s₀ Unit := each l fun x => do
  let s ← st
  emit (.ecc (eccMark s x true))

/-- One row goes from the active base into the inactive one; a row that does not read is written with
POISON set in every sector. -/
def catchRow (t : Nat) (d : TDesc) (r : Nat) : Act s₀ Unit := do
  let s ← st
  let x := rowAt s t d r
  let n := pitchOf d.rowBytes
  let dst := x.base (!d.active)
  match ← hbmRead (x.base d.active) n none with
  | .ok b => do
    let _ ← hbmWrite dst (padTo n (b.take d.rowBytes)) none
    skip
  | .error _ => do
    let s ← st
    if dst + n ≤ hbmCap s then poisonSecs (secList dst n) else skip
  markInactive t
  dirtyRow t r

/-- The touched rows of a table, and its guest rows, which have no bit, are copied; the bitmap is cleared. -/
def catchTable (t : Nat) (d : TDesc) : Act s₀ Unit := do
  let s ← st
  let rows := localRows s d
  let secs := uniqRows (rows.map fun x => (d.touch + x.2 / 8) / 64)
  each secs fun sec => do
    let s ← st
    let mine := rows.filter fun x => (d.touch + x.2 / 8) / 64 == sec
    match ← hbmRead (sec * 64) 64 none with
    | .ok b => do
      each mine fun x => do
        let byt := (b.getD ((d.touch + x.2 / 8) % 64) 0).toNat
        if bit byt (x.2 % 8) && ownsRow s t d x.1 then catchRow t d x.1 else skip
      each (uniqRows (mine.map fun x => d.touch + x.2 / 8)) fun a => do
        let _ ← hbmWrite a [0] none
        skip
    | .error _ => do
      each mine fun x => if ownsRow s t d x.1 then catchRow t d x.1 else skip
      let _ ← hbmWrite (sec * 64) (List.replicate 64 0) none
      skip
  each (s.tbl.ov.filter fun e => e.table == t && e.kind == 3 && e.owner.toNat == myCoord s) fun e => catchRow t d e.row
where
  uniqRows (l : List Nat) : List Nat := (l.foldl (fun a x => if a.contains x then a else x :: a) []).reverse

end Sys2Proof.Machine
end

