-- ==== Sys2Proof/Machine/Txn.lean ====
section
/-! DEFINITION. What a commit checks (R295, R300, Table 16.4 and the constraints of the chapters), and the records of
a failing one (R297, R301). -/

namespace Sys2Proof.Machine

variable {s₀ : State}

/-! ### One field (R295, R163) -/

/-- fp32 codes in the order of their values. -/
def fpKey (c : Nat) : Int := if c < 2 ^ 31 then (c : Int) else -((c : Int) - 2 ^ 31)
def fpNan (c : Nat) : Bool := decide (0x7F800000 < c % 2 ^ 31)

/-- What a field stores of a value written: the value, the nearer bound, or nothing where it fails validation. -/
def fldStored (reset : Nat) (k : Chk) (v : Nat) : Option Nat :=
  match k with
  | .any => some v
  | .clamp lo hi => some (max lo (min hi v))
  | .within lo hi => if lo ≤ v ∧ v ≤ hi then some v else none
  | .notVal x => if v = x then none else some v
  | .fp lo hi => some (if fpNan v then reset else if fpKey v < fpKey lo then lo else if fpKey hi < fpKey v then hi else v)

/-- A field that a transaction changes: its active and its pending value. -/
structure Chg where
  a   : Nat
  f   : Fld
  old : Nat
  new : Nat
deriving DecidableEq, Repr

def chgsAt (s : State) (a : Nat) : List Chg :=
  (rwlFlds a).filterMap fun f =>
    let o := fld (regOf s a) f.lsb f.width
    let n := fld (shadowOf s a) f.lsb f.width
    if o = n then none else some ⟨a, f, o, n⟩

def changes (s : State) : List Chg := s.shadow.flatMap fun x => chgsAt s x.1

/-- A register's pending value with every changed field clamped on its own. -/
def ownClamped (s : State) (a : Nat) : Nat :=
  (chgsAt s a).foldl (fun v c => putFld v c.f.lsb c.f.width ((fldStored (resetOf a) c.f.chk c.new).getD c.new)) (regOf s a)

/-- With the clamps against another field: a LIMIT below GUAR (R282), an LR_MIN above LR_MAX (R163). -/
def clamped (s : State) (a : Nat) : Nat :=
  let v := ownClamped s a
  match inArr a HDM 0x4000 4, inArr a (SCH + 0x100) 64 16 with
  | some (_, o), _ => if 0x30 ≤ o ∧ o < 0x50 then putFld v 8 7 (max (fld v 0 7) (fld v 8 7)) else v
  | none, some (g, 24) => let hi := ownClamped s (schW g 5); if fpKey hi < fpKey v then hi else v
  | _, _ => v

/-- The registers a commit may change. -/
def txnAddrs (s : State) : List Nat :=
  let l := s.shadow.map Prod.fst
  l ++ (List.range 16).filterMap fun g =>
    if l.contains (schW g 5) && !l.contains (schW g 6) then some (schW g 6) else none

/-- The state as the commit would leave its registers, with an image's partition and coordinates. -/
def candidate (s : State) : State :=
  let s' := { s with rte := { s.rte with kept := [] }, regs := (txnAddrs s).foldl (fun l a => regPut keyShared l a (BitVec.ofNat 32 (clamped s a))) s.regs }
  match s.clb.img with
  | none => s'
  | some i => { s' with
      regs := regPut keyShared s'.regs GLB_COORD (BitVec.ofNat 32 i.coord.toNat),
      clb := { s'.clb with part := i.part.getD s'.clb.part } }

/-! ### Records -/

/-- Table 16.2: the section that may write a register. -/
def secType (a : Nat) : Nat :=
  if MEM ≤ a ∧ a < 0x520000 then 2
  else if (FAB ≤ a ∧ a < 0x640000) ∨ (RTE ≤ a ∧ a < COL) ∨ (SVC ≤ a ∧ a < 0x760000) then 3
  else if COL ≤ a ∧ a < SVC then 4
  else if HDM ≤ a ∧ a < KX then 5
  else if (SMP ≤ a ∧ a < 0x280000) ∨ (CEL ≤ a ∧ a < 0x350000) then 6
  else if UPD ≤ a ∧ a < 0x440000 then 7
  else if CLK ≤ a ∧ a < RST then 9
  else 0

/-- What a FAIL or CLAMP record says. -/
structure Finding where
  field   : Nat
  written : Nat
  applied : Nat
  sect    : Nat
deriving DecidableEq, Repr

/-- A field, as (address, LSB, width). -/
abbrev FieldRef := Nat × Nat × Nat

/-- The finding on a field, with the value in force after the event. -/
def finding (s : State) (applied : State) (x : FieldRef) : Finding :=
  ⟨fieldId x.1 x.2.1 x.2.2, fld (shadowOf s x.1) x.2.1 x.2.2, fld (regOf applied x.1) x.2.1 x.2.2,
    if s.clb.img.isSome then secType x.1 else 0⟩

def reportAll (kind : Nat) (l : List Finding) : Act s₀ Unit := do
  let s ← st
  each l fun x => report kind 0 s.clb.id.toNat x.field x.written x.applied x.sect

/-- The clamps of a commit. -/
def clampsOf (s : State) : List FieldRef :=
  (txnAddrs s).flatMap fun a => (rwlFlds a).filterMap fun f =>
    if fld (clamped s a) f.lsb f.width = fld (shadowOf s a) f.lsb f.width then none else some (a, f.lsb, f.width)

/-! ### Constraints that fail validation -/

def whenF (b : Bool) (x : FieldRef) : List FieldRef := if b then [x] else []

/-- A field whose own table fails its value. -/
def ownFails (c : Chg) : List FieldRef :=
  whenF (fldStored (resetOf c.a) c.f.chk c.new).isNone (c.a, c.f.lsb, c.f.width)

/-- SAC_CTX and BWD_STASH: VALID with 0 chunks (chapters 3 and 7); SVC_WIN: SPACE 0b01 or 0b11 (chapter 14). -/
def regionFails (cs : State) (c : Chg) : List FieldRef :=
  let chunks (b : Nat) : List FieldRef := whenF (bit (regOf cs b) 0 && fld (regOf cs (b + 12)) 0 16 == 0) (b + 12, 0, 16)
  match inArr c.a (SAC + 0x100) 16 16, inArr c.a (BWD + 0x100) 16 8, inArr c.a (SVC + 0x3000) 16 256 with
  | some (i, _), _, _ => chunks (SAC + 0x100 + 16 * i)
  | _, some (i, _), _ => chunks (BWD + 0x100 + 16 * i)
  | _, _, some (_, 8) => whenF (fld (regOf cs c.a) 30 1 == 1) (c.a, 0, 32)
  | _, _, _ => []

/-- VALID well slots. -/
def validSlots (s : State) : List Nat :=
  (s.regs.filter fun x => decide (BWD + 0x4000 ≤ x.1 ∧ x.1 < BWD + 0x8000) && x.1 % 16 == 0 && bit x.2.toNat 24).map
    fun x => (x.1 - BWD - 0x4000) / 16

def overlap (a n b m : Nat) : Bool := decide (0 < n ∧ 0 < m ∧ a < b + m ∧ b < a + n)

/-- The extension range of a slot in bytes from BWD_EXT_BASE: offset and length. -/
def slotExtRange (s : State) (i : Nat) : Nat × Nat := (64 * regOf s (slotW i 3), 4 * slotExt s i)

def extTooFar (s : State) (i : Nat) : Bool :=
  decide (0 < slotExt s i ∧ 1048576 * fld (regOf s (BWD + 0x18)) 0 16 < (slotExtRange s i).1 + (slotExtRange s i).2)

/-- R144's constraints on the well slots. -/
def slotFails (cs : State) (c : Chg) : List FieldRef :=
  if c.a = BWD + 0x18 then (validSlots cs).flatMap fun i => whenF (extTooFar cs i) (slotW i 3, 0, 32)
  else match inArr c.a (BWD + 0x4000) 16 1024 with
    | none => []
    | some (i, _) =>
      let others := if slotValid cs i then (validSlots cs).filter (· != i) else []
      let e := slotExtRange cs i
      whenF (decide (16777216 < slotBase cs i + slotLen cs i)
        || others.any fun j => overlap (slotBase cs i) (slotLen cs i) (slotBase cs j) (slotLen cs j)) (slotW i 0, 0, 24)
      ++ whenF (extTooFar cs i || others.any fun j => overlap e.1 e.2 (slotExtRange cs j).1 (slotExtRange cs j).2) (slotW i 3, 0, 32)

/-- R173. -/
def loupeFails (cs : State) (c : Chg) : List FieldRef :=
  match inArr c.a (LPE + 0x400) 16 32 with
  | none => []
  | some (n, b) =>
    let a := LPE + 0x400 + 16 * n
    let w := regOf cs a
    let kind := fld w 2 3
    let metric := fld w 5 3
    let code := fld w 16 8
    let is (o l : Nat) : Bool := b == o && c.f.lsb == l
    whenF (is 0 5 && decide (6 ≤ metric)) (a, 5, 3)
    ++ whenF ((is 0 2 && kind == 6) || ((is 0 2 || is 0 1) && kind == 7 && !bit w 1)) (a, 2, 3)
    ++ whenF (is 12 0 && fld (regOf cs (a + 12)) 0 16 == 0) (a + 12, 0, 16)
    ++ whenF ((is 0 5 || is 8 0) && decide (metric ≤ 3 ∧ 10000 < regOf cs (a + 8))) (a + 8, 0, 32)
    ++ whenF (is 0 16 && (code == 0 || decide (5 ≤ code ∧ code ≤ 0x1F))) (a, 16, 8)

/-- R194 and FAB_PFC. -/
def portFails (cs : State) (c : Chg) : List FieldRef :=
  match inArr c.a FAB 0x8000 8 with
  | some (p, 0) => whenF (c.f.lsb == 0 && (if p < 6 then c.new == 2 else c.new == 1)) (c.a, 0, 2)
  | some (_, 0x58) => whenF (decide (fld (regOf cs c.a) 8 10 ≤ fld (regOf cs c.a) 18 10)) (c.a, 18, 10)
  | _ => []

/-- RTE_DATELINE above RTE_DIMS, and a time root outside it. -/
def dimsFails (cs : State) (c : Chg) : List FieldRef :=
  let dims := c.a == RTE
  (if dims || c.a == RTE + 4 then
    [0, 1, 2].flatMap fun i => whenF (decide (axis (regOf cs RTE) i < axis (regOf cs (RTE + 4)) i)) (RTE + 4, 6 * i, 6) else [])
  ++ (if dims || c.a == CLK + 0x20 then whenF (!inSlice cs (regOf cs (CLK + 0x20))) (CLK + 0x20, 0, 18) else [])

/-- COL_GRP. -/
def groupFails (cs : State) (c : Chg) : List FieldRef :=
  match inArr c.a (COL + 0x100) 32 4 with
  | none => []
  | some (g, _) =>
    whenF (grpValid cs g && grpAxes cs g == 0) (grpW g 0, 3, 3)
    ++ whenF (grpValid cs g && (grpBuckets cs g == 0 || decide (65536 < grpBuckets cs g))) (grpW g 5, 0, 17)

/-- The cells of a domain in the partition. -/
def partCells (s : State) (d : Nat) : Nat :=
  (List.range 32).foldl (fun n c => if cellOwner s c = d then n + 2 ^ c else n) 0

def cellsFail (cs : State) (d : Nat) : List FieldRef := whenF (regOf cs (hdmW d 8) != partCells cs d) (hdmW d 8, 0, 32)

/-- HDM_CELLS, HDM_ESC_RANGE and HDM_PHASE_ESC. -/
def domainFails (cs : State) (c : Chg) : List FieldRef :=
  match inArr c.a HDM 0x4000 4 with
  | none => []
  | some (d, o) =>
    (if o = 8 then cellsFail cs d else [])
    ++ (if o = 0x20 then whenF ([0, 1, 2, 3].any fun j => j != d &&
        overlap (escFirst cs d) (escLast cs d + 1 - escFirst cs d) (escFirst cs j) (escLast cs j + 1 - escFirst cs j)) (c.a, 0, 16) else [])
    ++ (if o = 0x20 ∨ o = 0x50 ∨ o = 0x54 then [0, 16].flatMap fun l =>
        whenF (bit (regOf cs (hdmW d 0x50)) 0 && !escIn cs d (fld (regOf cs (hdmW d 0x54)) l 16)) (hdmW d 0x54, l, 16) else [])

/-- Two torus ports with one DIR (Table 16.4). -/
def dirFails (s cs : State) : List FieldRef :=
  let moved (p : Nat) : Bool := portDir cs p != portDir s p
  (List.range 6).flatMap fun q => (List.range q).flatMap fun p =>
    whenF (portRole cs p == 1 && portRole cs q == 1 && portDir cs p == portDir cs q)
      (fabW (if moved p && !moved q then p else q) 0, 6, 3)

/-- Sums over several registers: Σ GUAR of an engine (R282), and the credits of all VCs. -/
def sumFails (cs : State) (l : List Chg) : List FieldRef :=
  let hit (a : Nat) : Bool := l.any fun c => c.a == a
  (List.range 8).flatMap (fun e =>
    match [3, 2, 1, 0].find? fun d => hit (hdmW d (0x30 + 4 * e)) with
    | some d => whenF (decide (64 < ([0, 1, 2, 3].map fun j => fld (regOf cs (hdmW j (0x30 + 4 * e))) 0 7).sum)) (hdmW d (0x30 + 4 * e), 0, 7)
    | none => [])
  ++ match (List.range 24).reverse.find? fun v => hit (RTE + 0x100 + 4 * v) with
    | some v => whenF (decide (4096 < ((List.range 24).map fun i => fld (regOf cs (RTE + 0x100 + 4 * i)) 0 12).sum)) (RTE + 0x100 + 4 * v, 0, 12)
    | none => []

/-- An image is being applied as part of bring-up (R187, R293). -/
def atBringup (s : State) : Bool := s.clb.img.isSome && decide (stage s < 6 ∨ stage s = 8)

/-- What an image's application adds: MIN_LIVE (R188), the chosen bin (R313) and the partition (Table 16.4); and
MAP_POLICY outside bring-up (R175). -/
def imageFails (s cs : State) (l : List Chg) : List FieldRef :=
  whenF (!atBringup s && l.any fun c => c.a == MEM + 0x3000 && c.f.lsb == 1) (MEM + 0x3000, 1, 1)
  ++ match s.clb.img with
    | none => []
    | some i =>
      whenF (decide (fld (regOf s (MEM + 0x3008)) 0 9 < fld (regOf cs (MEM + 0x3030)) 0 9)) (MEM + 0x3030, 0, 9)
      ++ whenF (decide (fld (regOf cs (CLK + 4)) 0 2 < fld (regOf s CLK) 4 2)) (CLK + 4, 0, 2)
      ++ if i.part.isSome then [0, 1, 2, 3].flatMap (cellsFail cs) else []

/-- Every field or constraint that fails in CHECKING. -/
def staticFails (s cs : State) : List FieldRef :=
  let l := changes s
  (l.flatMap (fun c => ownFails c ++ regionFails cs c ++ slotFails cs c ++ loupeFails cs c ++ portFails cs c ++ dimsFails cs c
      ++ groupFails cs c ++ domainFails cs c)
    ++ dirFails s cs ++ sumFails cs l ++ imageFails s cs l).eraseDups

/-! ### Checks that depend on device state (R300) -/

/-- A torus port is UP. Ports that a warm reset left UP do not hinder the image of its bring-up. -/
def torusUp (s : State) : Bool := !atBringup s && (List.range 6).any fun p => portRole s p == 1 && portUp s p

/-- A group holds contexts, or an operation or a verdict of it is under way. -/
def groupOpen (s : State) (g : Nat) : Bool :=
  (s.col.ctx.any fun x => x.key.g == g) || (s.col.bk.any fun x => x.g == g) || (s.col.ag.any fun x => x.g == g)
  || s.col.ver.any fun x => x.g == g

/-- HDM_CTRL.LEVEL cannot change (R285). -/
def levelBusy (s : State) (d : Nat) : Bool :=
  ((List.range 64).any fun r => bit (privOf s d (ringW d r 4)) 0) || (s.ops.any fun o => o.d == d)
  || privOf s d (KX + 0x18) != privOf s d (KX + 0x1C)

/-- A change of this field is refused by what the chip is doing. -/
def blockedHdm (s cs : State) (c : Chg) (d o : Nat) : Bool :=
  if o = 4 then c.f.lsb == 1 && levelBusy s d
  else if o = 0x20 then s.esc.any fun e => escIn s d e.1 != escIn cs d e.1 && !(e.2.st == .idle && e.2.count == 0)
  else false

def blockedFab (s : State) (c : Chg) (p o : Nat) : Bool :=
  !atBringup s && portUp s p && (o == 0x10 || (o == 0 && [0, 2, 3, 6].contains c.f.lsb))

def blocked (s cs : State) (c : Chg) : Bool :=
  (match inArr c.a HDM 0x4000 4 with | some (d, o) => blockedHdm s cs c d o | none => false)
  || (match inArr c.a FAB 0x8000 8 with | some (p, o) => blockedFab s c p o | none => false)
  || (match inArr c.a (SAC + 0x100) 16 16 with
    | some (i, _) => (match mapGet s.sac.ctx i with | some x => x.st != 0 | none => false) | none => false)
  || (match inArr c.a (BWD + 0x100) 16 8 with | some (r, _) => stashOpenB s r | none => false)
  || (match inArr c.a (BWD + 0x4000) 16 1024 with | some (i, _) => claimed s i | none => false)
  || (match inArr c.a (COL + 0x100) 32 4 with | some (g, _) => groupOpen s g | none => false)
  || ([RTE, RTE + 4].contains c.a && torusUp s)
  || (decide (RTE + 0x100 ≤ c.a ∧ c.a < RTE + 0x160) && torusUp s)
  || ([TBL + 0x10, TBL + 0x14, TBL + 0x18].contains c.a && !s.tbl.guests.isEmpty)
  || (let e := regOf s (RTE + 8)
      c.a == RTE + 0x20 + 4 * fld e 0 1 || (bit e 1 && c.a == RTE + 0x20 + 4 * (1 - fld e 0 1)))

/-- An image's identity differs from the one in force while a torus port is UP (R293). -/
def identityFails (s : State) : List FieldRef :=
  match s.clb.img with
  | none => []
  | some i =>
    let n := i.sliceId.toNat
    if torusUp s then
      whenF (i.coord.toNat != myCoord s) (GLB_COORD, 0, 18) ++ whenF (n % 2 ^ 32 != regOf s (GLB + 8)) (GLB + 8, 0, 32)
      ++ whenF (n / 2 ^ 32 != regOf s (GLB + 12)) (GLB + 12, 0, 32)
    else []

/-- The FAIL record of a table entry (R294). -/
def tableFinding (t idx status : Nat) : Finding := ⟨fieldId (TBL + 0x10000 + 64 * t) 0 32, idx % 65536 + 65536 * t, status, 8⟩

/-- Table ids of an image that are not free (R294). -/
def tableFails (s : State) : List Finding :=
  match s.clb.img with
  | none => []
  | some i => i.tables.filterMap fun x =>
      if (tdGet s (fld x.2.2.toNat 0 12)).isSome then some (tableFinding (fld x.2.2.toNat 0 12) x.1 BAD_DESCRIPTOR) else none

/-- Everything that fails at the quiet point. -/
def quietFails (s cs : State) : List Finding :=
  ((((changes s).filter (blocked s cs)).map fun c => (c.a, c.f.lsb, c.f.width)) ++ identityFails s).map (finding s s) ++ tableFails s

/-! ### CHECKING and rollback -/

/-- The directory index of the section a failing record belongs to. -/
def sectIndex (s : State) (l : List Finding) : Nat :=
  match s.clb.img, l with
  | some i, x :: _ => (findIdx (· == x.sect) i.types).getD 0
  | _, _ => 0

/-- A commit's outcome: of a load it is also the load's. -/
def commitEnd (status step section_ : Nat) : Act s₀ Unit := do
  let s ← st
  match s.clb.img with
  | none => txnStop status true
  | some i => do
    modClb fun c => { c with st := .idle, img := none }
    emit .shadowClear
    loadEnd status step section_ i.byHost

/-- HALTED with a cause (Table 17.3). -/
def halt (cause : Nat) : Act s₀ Unit := do
  setStage 9 cause
  logFault 12 (freeCode 12 9) 0 0 0 none 0 0

/-- R301: the FAIL records, and nothing applied. A flash image that fails MIN_LIVE or MAX_BIN halts the chip (R188,
R313). -/
def rollback (l : List Finding) : Act s₀ Unit := do
  reportAll 3 l
  let s ← st
  let flash : Bool := match s.clb.img with | some i => !i.byHost | none => false
  let has (a w : Nat) : Bool := flash && l.any fun x => x.field == fieldId a 0 w
  if has (MEM + 0x3030) 9 then halt 3
  else if has (CLK + 4) 2 then halt 5
  else skip
  let t ← st
  commitEnd BAD_DESCRIPTOR 7 (sectIndex s l)
  if stage t = 9 then setStage 9 (fld (regOf t RST_STATUS) 4 4) else skip

/-- CHECKING: the field and constraint checks on the shadows; `more` is what failed as an image was staged. -/
def txnCheck (more : List Finding) : Act s₀ Unit := do
  let s ← st
  match more ++ (staticFails s (candidate s)).map (finding s s) with
  | [] => modClb fun c => { c with st := .quiescing }
  | l => rollback l

/-- COMMIT, in each state of Table 16.6. -/
def txnCommit : Act s₀ Unit := do
  let s ← st
  match s.clb.st with
  | .idle => txnLast BAD_DESCRIPTOR true
  | .open => txnCheck []
  | _ => txnLast REFUSED_FULL true

end Sys2Proof.Machine
end

