-- ==== Sys2Proof/Machine/Image.lean ====
section
/-! DEFINITION. The calibre image: its source (R291), the load checks (R288 to R292) and its staging (R290, R293,
R294). -/

namespace Sys2Proof.Machine

variable {s₀ : State}

/-! ### Header and directory (R288) -/

/-- A directory entry. -/
structure ImgSec where
  idx   : Nat
  type  : Nat
  req   : Bool
  off   : Nat
  len   : Nat
  check : Nat
  rsv   : Nat
deriving DecidableEq, Repr

def secEntry (img : List Byte) (i : Nat) : ImgSec :=
  let o := 128 + 16 * i
  ⟨i, leAt img o 2, bit (leAt img (o + 2) 1) 0, leAt img (o + 4) 4, leAt img (o + 8) 4, leAt img (o + 12) 4, leAt img (o + 3) 1⟩

def secCount (img : List Byte) : Nat := leAt img 10 2
def imgSecs (img : List Byte) : List ImgSec := (List.range (min 248 (secCount img))).map (secEntry img)
def secBody (img : List Byte) (x : ImgSec) : List Byte := (img.drop x.off).take x.len

/-- The signature verifies under the key in KEY_SLOT (R289). -/
def imgSigned (s : State) (img : List Byte) : Bool :=
  let n := img.length - 128
  let sig := img.drop n
  match s.crown.keys.getD (leAt img 9 1) none with
  | some q => sig.drop 96 == List.replicate 32 0 && ecdsaOk q (sha384 (img.take n)) (beNat (sig.take 48)) (beNat ((sig.drop 48).take 48))
  | none => false

/-- An entry of the directory that R288 does not allow, or whose CHECK is wrong. -/
def secBad (img : List Byte) (x : ImgSec) : Bool :=
  x.rsv != 0 || x.off % 64 != 0 || decide (x.off < 4096 ∨ img.length - 128 < x.off + x.len)
  || (imgSecs img).any (fun y => y.idx != x.idx && overlap x.off x.len y.off y.len)
  || crc32 (secBody img x) != x.check

/-- The header and the directory as a whole. -/
def dirBad (img : List Byte) : Bool :=
  secCount img == 0 || decide (248 < secCount img) || img.length % 64 != 0 || (img.drop 40).take 88 != List.replicate 88 0
  || ((img.take 4096).drop (128 + 16 * secCount img)).any fun b => b != 0

/-- Table 16.2 names the type. -/
def secKnown (t : Nat) : Bool := decide (1 ≤ t ∧ t ≤ 9)

/-- Table 16.3, steps 2 to 6: STATUS, FAIL_STEP and SECTION of the first failure. -/
def imgChecks (s : State) (bytes : Nat) (img : List Byte) : Option (Nat × Nat × Nat) :=
  if 67108864 < leAt img 12 4 ∨ leAt img 12 4 ≠ bytes ∨ leAt img 0 4 ≠ 0xCA1B0001 then some (BAD_DESCRIPTOR, 2, 0)
  else if leAt img 4 2 ≠ 1 ∨ leAt img 6 2 ≠ 0xC801 ∨ !bit (leAt img 8 1) 0 then some (REFUSED_VERSION, 3, 0)
  else if !imgSigned s img then some (BAD_DESCRIPTOR, 4, 0)
  else if dirBad img then some (BAD_DESCRIPTOR, 5, 0)
  else match (imgSecs img).find? (secBad img) with
    | some x => some (BAD_DESCRIPTOR, 5, x.idx)
    | none => match (imgSecs img).find? fun x => x.req && !secKnown x.type with
      | some x => some (NOT_SUPPORTED, 6, x.idx)
      | none => none

/-! ### Staging (R290, R293, R294) -/

/-- A section whose content does not have the layout of its type. -/
def layoutFinding (x : ImgSec) : Finding := ⟨0, x.idx, 0, x.type⟩

/-- One register record: a steward write into the shadows. -/
def stageReg (type dims : Nat) (r : List Byte) : Act s₀ (List Finding) := do
  let s ← st
  let a := leAt r 0 4
  let v := leAt r 4 4
  if decide (2 ^ 24 ≤ a) || (rwlFlds a).isEmpty || secType a != type then
    pure [⟨fieldId a 0 32, v, regOf s a, type⟩]
  else if a = RTE ∧ v % 2 ^ 18 ≠ dims then pure [⟨fieldId a 0 6, v % 2 ^ 6, fld (regOf s a) 0 6, type⟩]
  else do
    shadowWrite a v
    pure []

def stageRegs (x : ImgSec) (dims : Nat) (b : List Byte) : Act s₀ (List Finding) := do
  let l ← mapA (chunks 8 b) (stageReg x.type dims)
  pure (l.flatten ++ if x.len % 8 = 0 then [] else [layoutFinding x])

/-- CELLS: the partition, with the sparse unit's bit in CEL_CTRL. -/
def stageCells (x : ImgSec) (b : List Byte) : Act s₀ (List Finding) := do
  if x.len ≠ 128 then pure [layoutFinding x]
  else do
    let ws := (chunks 4 b).map fun w => leNat w % 256
    modClb fun c => { c with img := c.img.map fun i => { i with part := some ((List.range 32).zip ws) } }
    each ((List.range 32).zip ws) fun w => do
      let s ← st
      shadowWrite (celW w.1 0) (putFld (shadowOf s (celW w.1 0)) 1 1 (fld w.2 7 1))
    pure []

/-- The entries of a TABLES section: prefix, image and map, by fuel. -/
def tableEntries : Nat → List Byte → List (List Byte × List Byte × List Byte)
  | 0, _ => []
  | f + 1, b =>
    if b.isEmpty then []
    else
      let n := leAt b 4 4
      (b.take 64, (b.drop 64).take 64, (b.drop 128).take n) :: tableEntries f (b.drop (128 + n))

/-- One entry: its map bytes are written, then R85 and the table range are checked. -/
def stageTable (idx : Nat) (e : List Byte × List Byte × List Byte) : Act s₀ (List Finding) := do
  let b := leNat e.2.1
  let dom := leAt e.1 0 1
  let d := tdOfBits b dom
  let w ← hbmWrite d.map e.2.2 none
  let s ← st
  let cs := candidate s
  let t := fld b 0 12
  let twice : Bool := match s.clb.img with | some i => i.tables.any fun y => fld y.2.2.toNat 0 12 == t | none => false
  let status ←
    if e.2.1.length ≠ 64 ∨ leAt e.1 4 4 ≠ e.2.2.length ∨ 3 < dom ∨ (e.1.drop 1).take 3 ≠ [0, 0, 0] ∨ (e.1.drop 8).any (fun x => x != 0) then
      pure BAD_DESCRIPTOR
    else if !inTblRange cs dom t then pure REFUSED_QUOTA
    else if w ≠ OK ∨ twice ∨ (tdGet s t).isSome ∨ imgBad cs dom none b then pure BAD_DESCRIPTOR
    else match ← hbmRead d.map (4 * mapCount d.rows d.stretch) none with
      | .error _ => pure BAD_DESCRIPTOR
      | .ok m => pure (if mapBad cs ((chunks 4 m).map leNat) then BAD_DESCRIPTOR else OK)
  if status ≠ OK then pure [tableFinding t idx status]
  else do
    modClb fun c => { c with img := c.img.map fun i => { i with tables := i.tables ++ [(idx, dom, BitVec.ofNat 512 b)] } }
    pure []

def stageTables (b : List Byte) : Act s₀ (List Finding) := do
  let es := tableEntries b.length b
  let l ← mapA ((List.range es.length).zip es) fun x => stageTable x.1 x.2
  pure l.flatten

/-- One section, but for its tables, which are checked against everything else staged. -/
def stageSec (img : List Byte) (dims : Nat) (x : ImgSec) : Act s₀ (List Finding) := do
  let s ← st
  if !secKnown x.type then do
    report 5 0 s.clb.id.toNat 0 x.idx 0 x.type
    pure []
  else if x.type = 1 then stageCells x (secBody img x)
  else if x.type = 8 then pure []
  else stageRegs x dims (secBody img x)

/-- R293: the transaction opens, the identity and the sections are staged, and the commit begins. -/
def imgStage (img : List Byte) (host : Bool) : Act s₀ Unit := do
  let s ← st
  if s.clb.st ≠ .idle then loadEnd REFUSED_FULL 7 0 host
  else do
    txnStart .image
    let secs := imgSecs img
    let dims := leAt img 32 4 % 2 ^ 18
    modClb fun c => { c with img := some ⟨
        BitVec.ofNat 64 (leAt img 24 8), BitVec.ofNat 18 dims, BitVec.ofNat 18 (leAt img 36 4), BitVec.ofNat 64 (leAt img 16 8), [], none, secs.map ImgSec.type, host⟩ }
    shadowWrite RTE dims
    let a ← mapA secs (stageSec img dims)
    let b ← mapA (secs.filter fun x => x.type == 8) fun x => stageTables (secBody img x)
    modClb fun c => { c with st := .checking }
    txnCheck (a.flatten ++ b.flatten)

/-- The image is in hand: checks 2 to 6, then the staging. -/
def imgLoad (bytes : Nat) (img : List Byte) (host : Bool) : Act s₀ Unit := do
  let s ← st
  match imgChecks s bytes img with
  | some (e, k, i) => loadEnd e k i host
  | none => imgStage img host

/-! ### The source (R291) -/

def imgBytes (s : State) : Nat := regOf s (CLB + 0x18)
def imgSrc (s : State) : Nat := regOf s (CLB + 0x10) / 64 * 64 + 2 ^ 32 * regOf s (CLB + 0x14)

/-- READ requests for a source on another chip. -/
def imgRequest (fw : Bool) (chip addr n : Nat) : Act s₀ Nat :=
  foldA (List.range (cdiv n 4096)) OK fun e i =>
    if e ≠ OK then pure e
    else request none chip 0x11 0 (addr + 4096 * i) (min 4096 (n - 4096 * i)) (cdiv n 4096) 1 (.image fw (4096 * i))
      (.raw (leBytes 8 (addr + 4096 * i))) i

/-- The source of a load, as the steward's address names it. -/
def imgPlace (s : State) (a n : Nat) : Place :=
  match (Loc.ofAddr a).near s with
  | .table t r b =>
    match tdLive s t with
    | some d =>
      if d.rows ≤ r ∨ d.rowBytes < b + n then .bad BAD_DESCRIPTOR 0
      else if ownsRow s t d r then .here (.hbm ((rowAt s t d r).base (captureBase d false) + b))
      else .far (ownerOf s t d r) a
    | none => .bad BAD_DESCRIPTOR 0
  | .far c o => if inSlice s c ∧ o + n ≤ 2 ^ 40 then .far c a else .bad BAD_DESCRIPTOR 0
  | .bad => .bad BAD_DESCRIPTOR 0
  | l => if locFits s l n then .here l else .bad BAD_DESCRIPTOR 0

def imageReq (fw : Bool) (x : Req) : Bool := match x.kind with | .image f _ => f == fw | _ => false

/-- Step 1 of Table 16.3, and what follows when the source is on this chip or in host memory. -/
def imgSource : Act s₀ Unit := do
  let s ← st
  let n := imgBytes s
  if bit (regOf s (CLB + 0x10)) 0 then imgLoad n (hostRead s none 0 (imgSrc s) n) true
  else match imgPlace s (imgSrc s) n with
    | .bad e _ => loadEnd e 1 0 true
    | .here l => do
      match ← locRead l n none with
      | .ok b => imgLoad n b true
      | .error e => loadEnd e 1 0 true
    | .far c a =>
      if n = 0 then imgLoad n [] true
      else do
        useAddr a
        let e ← imgRequest false c a n
        if e = OK then skip else do
          let s ← st
          emit (.reqs (s.reqs.filter fun x => !imageReq false x))
          loadEnd e 1 0 true

/-- A load that waits for Crown goes on, or ends when Crown has failed (R334, R336). -/
def imgResume : Act s₀ Unit := do
  let s ← st
  if !bit (regOf s CLB_IMG_STATUS) 0 || s.clb.st != .idle || s.reqs.any (imageReq false) then skip
  else match fld (regOf s CRN_STATUS) 0 2 with
    | 1 => if s.clb.buf.isEmpty then imgSource else imgLoad s.clb.buf.length (s.clb.buf.map Prod.snd) true
    | 3 => loadEnd REFUSED_FULL 0 0 true
    | _ => skip

/-- CLB_IMG_GO: with a transaction open or a load running it completes REFUSED_FULL (R293). -/
def imgGo : Act s₀ Unit := do
  let s ← st
  if s.clb.st ≠ .idle ∨ bit (regOf s CLB_IMG_STATUS) 0 then do
    regSet CLB_IMG_STATUS (regOf s CLB_IMG_STATUS % 2 + 14 + 256 * REFUSED_FULL)
    txnLast REFUSED_FULL true
  else do
    regSet CLB_IMG_STATUS 1
    imgResume

/-- Bytes taken into a buffer from an offset on. -/
def bufPut (off : Nat) (b : List Byte) (m : List Host.Cell) : List Host.Cell :=
  ((List.range b.length).zip b).foldl (fun m x => mapSet m (off + x.1) x.2) m

/-! ### Firmware staging (R335) -/

/-- CRN_FW_A and CRN_FW_B read what the slots hold. -/
def fwRegs : Act s₀ Unit := do
  let s ← st
  let word (x : FwSlot) : Nat := x.version.toNat + 65536 * x.svn.toNat + 2 ^ 24 * b2n x.sigOk
  regSet (CRN + 8) (word s.crown.fwA)
  regSet (CRN + 12) (word s.crown.fwB)

/-- The staged image is checked in the inactive slot; PENDING is set when it stands. -/
def fwCheck (b : List Byte) : Act s₀ Unit := do
  let s ← st
  let (v, n, ok) := Config.freeFwParse b
  let good := ok && decide (s.crown.minSvn.toNat ≤ n % 256)
  let slot : FwSlot := ⟨BitVec.ofNat 16 v, BitVec.ofNat 8 n, ok⟩
  modCrown fun c => { (if c.active then { c with fwA := slot } else { c with fwB := slot }) with pendingFw := good }
  regFld CRN_STATUS 3 1 (b2n good)
  fwRegs
  mbxEnd (if good then OK else BAD_DESCRIPTOR)

/-- FW_STAGE runs: the source is read and checked. -/
def fwStage : Act s₀ Unit := do
  let s ← st
  let a := regOf s (CRN + 0x24) / 64 * 64 + 2 ^ 32 * regOf s (CRN + 0x28)
  let n := regOf s (CRN + 0x2C)
  if 4194304 < n then mbxEnd BAD_DESCRIPTOR
  else if bit (regOf s (CRN + 0x24)) 0 then fwCheck (hostRead s none 0 a n)
  else match imgPlace s a n with
    | .bad e _ => mbxEnd e
    | .here l => do
      match ← locRead l n none with
      | .ok b => fwCheck b
      | .error e => mbxEnd e
    | .far c a =>
      if n = 0 then fwCheck []
      else do
        useAddr a
        let e ← imgRequest true c a n
        if e = OK then skip else do
          let s ← st
          emit (.reqs (s.reqs.filter fun x => !imageReq true x))
          mbxEnd e

/-- FW_STAGE stopped by a restart or a reset (R335): the inactive slot is invalid, and the command is never completed. -/
def fwStop : Act s₀ Unit := do
  let s ← st
  match s.crown.mbx with
  | some (cmd, false) => do
    modCrown fun c => { (if cmd != 1 then c else if c.active then { c with fwA := { c.fwA with sigOk := false } }
      else { c with fwB := { c.fwB with sigOk := false } }) with
      mbx := none, fwBuf := [], ageing := none, pendingFw := if cmd = 1 then false else c.pendingFw }
    emit (.reqs (s.reqs.filter fun x => !imageReq true x))
    regFld CRN_MBX_STATUS 0 1 0
    if cmd = 1 then do
      regFld CRN_STATUS 3 1 0
      fwRegs
    else skip
  | _ => skip

/-- A piece of a source on another chip has come (R223); after the last one the checks go on. -/
def imgPiece (fw : Bool) (off : Nat) (b : List Byte) : Act s₀ Unit :=
  if fw then do
    modCrown fun c => { c with fwBuf := bufPut off b c.fwBuf }
    let s ← st
    if s.reqs.any (imageReq true) then skip else fwCheck (s.crown.fwBuf.map Prod.snd)
  else do
    modClb fun c => { c with buf := bufPut off b c.buf }
    imgResume

end Sys2Proof.Machine
end

