-- ==== Sys2Proof/Machine/Cbg.lean ====
section
/-! DEFINITION. CBG-128, the counter-based generator of every random number (R33, R34, R35). -/

namespace Sys2Proof.Machine

def w32 (n : Nat) : Nat := n % 2 ^ 32
def rotl32 (x r : Nat) : Nat := w32 (x <<< r ||| x >>> (32 - r))

structure Quad where
  a : Nat
  b : Nat
  c : Nat
  d : Nat
deriving DecidableEq, Repr

def Quad.get (q : Quad) (i : Nat) : Nat :=
  match i with
  | 0 => q.a | 1 => q.b | 2 => q.c | _ => q.d

/-- One round of R34. -/
def cbgRound (k x : Quad) (r : Nat) : Quad :=
  let x0 := w32 (x.a + k.get (r % 4) + r * 0x9E3779B9)
  let x0 := w32 (x0 + x.b)
  let x3 := rotl32 (x.d ^^^ x0) 16
  let x2 := w32 (x.c + x3)
  let x1 := rotl32 (x.b ^^^ x2) 12
  let x0 := w32 (x0 + x1)
  let x3 := rotl32 (x3 ^^^ x0) 8
  let x2 := w32 (x2 + x3)
  let x1 := rotl32 (x1 ^^^ x2) 7
  ⟨x0, x2, x3, x1⟩

/-- CBG-128 of a key and a counter (R34). -/
def cbg (k x : Quad) : Quad :=
  let y := (List.range 10).foldl (cbgRound k) x
  ⟨w32 (y.a + x.a), w32 (y.b + x.b), w32 (y.c + x.c), w32 (y.d + x.d)⟩

/-- A position drawn from `n` candidates (R35). -/
def drawPos (y : Quad) (n : Nat) : Nat := ((y.b * 2 ^ 32 + y.a) * n) / 2 ^ 64

end Sys2Proof.Machine
end

