-- ==== Sys2Proof/Machine/Rules.lean ====
section
/-! DEFINITION. The arithmetic of the update rules (R155), the weight storage modes (R158) and the
draws of stochastic rounding (R159). -/

namespace Sys2Proof.Machine

/-- What a rule's arithmetic takes besides its operands. -/
structure Hyper where
  rule : Nat
  mode : Nat
  b1   : Nat
  b2   : Nat
  eps  : Nat
  clip : Nat
  mom  : Bool
  nest : Bool
  c1   : Nat
  c2   : Nat
  eta  : Nat
  lam  : Nat
  seed : Nat
  step : Nat
  key  : Nat
deriving DecidableEq, Repr

/-- A result: its fp32 code, and whether its exact value before the last rounding was zero (R165). -/
structure Res where
  code   : Nat
  exact0 : Bool
deriving DecidableEq, Repr

def resOf (v : FV) : Res := ⟨r32 v, v.isZero⟩

/-- B·x + (1 − B)·y: one fused operation whose addend is `add`. -/
def mixR (b x add : Nat) : Res := resOf (((v32 b).mul (v32 x)).add (v32 add))

/-- w − η·(u + λ·w). -/
def decayStep (h : Hyper) (w u : Nat) : Res :=
  resOf ((v32 w).sub (v32 (fmul h.eta (fadd u (fmul h.lam w)))))

/-- Mean of codes: an exact sum rounded once, divided. -/
def meanOf (xs : List Nat) : Nat := fdiv (r32 (sumFV (xs.map v32))) (nat32 xs.length)

/-- B^T as exp2(T·log2 B). -/
def powT (b t : Nat) : Nat := fexp2 (fmul (nat32 t) (flog2 b))

/-- The hyperparameters of a group at a step (UPD_HP, R155): the bias corrections use T = max(1, d + 1). -/
def hyperOf (s : State) (g rule mode step key seed eta lam : Nat) : Hyper :=
  let w (k : Nat) : Nat := regOf s (UPD + 0x100 + 32 * g + 4 * k)
  let bias := bit (w 4) 2
  let t := (max 1 (schD s g step + 1)).toNat
  ⟨rule, mode, w 0, w 1, w 2, w 3, bit (w 4) 0, bit (w 4) 1,
    if bias then fsub one32 (powT (w 0) t) else one32, if bias then fsub one32 (powT (w 1) t) else one32,
    eta, lam, seed, step, key⟩

/-- ADAM of one element: new m, v and w. -/
def adamEl (h : Hyper) (g w m v : Nat) : Res × Res × Res :=
  let m' := mixR h.b1 m (fmul (fsub one32 h.b1) g)
  let v' := mixR h.b2 v (fmul (fmul (fsub one32 h.b2) g) g)
  let u := fmul (fdiv m'.code h.c1) (frsqrt (fadd (fdiv v'.code h.c2) h.eps))
  (m', v', decayStep h w u)

/-- MSGD of one element: new b and w. -/
def msgdEl (h : Hyper) (g w b : Nat) : Res × Res :=
  let b' := resOf ((v32 (fmul h.b1 b)).add (v32 g))
  let d := if h.nest then fadd g (fmul h.b1 b'.code) else b'.code
  (b', decayStep h w d)

/-- SROW: the new row statistic of a row's gradients. -/
def srowStat (gs : List Nat) (sr : Nat) : Res := resOf ((v32 sr).add (v32 (meanOf (gs.map fun g => fmul g g))))

def srowEl (h : Hyper) (g w sr : Nat) : Res := decayStep h w (fmul g (frsqrt (fadd sr h.eps)))

/-- The statistics of FACT: R and C after the step, by rows of gradients. -/
def factStats (h : Hyper) (rows : List (List Nat)) (cols : Nat) (r c : List Nat) : List Res × List Res :=
  let q := rows.map fun l => l.map fun g => fadd (fmul g g) h.eps
  let k := fsub one32 h.b2
  (List.zipWith (fun l x => mixR h.b2 x (fmul k (meanOf l))) q r,
   ((List.range cols).zip c).map fun x => mixR h.b2 x.2 (fmul k (meanOf (q.map fun l => l.getD x.1 0))))

/-- The clipped update u of a FACT row. -/
def factRow (h : Hyper) (gs : List Nat) (ri rbar : Nat) (c : List Nat) : List Nat :=
  let u := List.zipWith (fun g cj => fmul g (frsqrt (fdiv (fmul ri cj) rbar))) gs c
  let k := fmin one32 (fmul h.clip (frsqrt (meanOf (u.map fun x => fmul x x))))
  u.map fun x => fmul x k

/-- FACT of one element with its momentum, when kept: new M and w. -/
def factEl (h : Hyper) (u w m : Nat) : Res × Res :=
  if h.mom then
    let m' := mixR h.b1 m (fmul (fsub one32 h.b1) u)
    (m', decayStep h w m'.code)
  else (⟨m, false⟩, decayStep h w u)

/-! ### Storage (R158, R159) -/

/-- U = 2^(max(e, −126) − 7) of a bf16 weight, as an exponent. -/
def remU (wh : Nat) : Int :=
  let e := fld wh 7 8
  (if e = 0 then -126 else (e : Int) - 127) - 7

/-- The exact weight of a bf16 value with its remainder, as an fp32 code. -/
def remLoad (wh rho : Nat) : Nat :=
  r32 ((vbf wh).add ((FV.ofInt (sInt 8 rho) 0).scale (remU wh - 8)))

/-- A stored weight: bf16 code, remainder, and whether the remainder saturated. -/
def remStore (w : Nat) : Nat × Nat × Bool :=
  let wh := rbf (v32 w)
  if (vbf wh).isFin && (v32 w).isFin then
    let i := (((v32 w).sub (vbf wh)).scale (8 - remU wh)).toInt false
    if i.1 = 128 then (wh, 127, true) else (wh, toCode 8 i.1, false)
  else (wh, 0, false)

/-- The 16-bit draw of element E (R159). -/
def srDraw (h : Hyper) (e : Nat) : Nat :=
  let y := cbg ⟨w32 h.seed, w32 (h.seed / 2 ^ 32), 2, 0⟩ ⟨h.step, h.key, w32 (e / 8), w32 (e / 8 / 2 ^ 32)⟩
  fld (y.get (e % 8 / 2)) (16 * (e % 2)) 16

/-- BF16_SR of an fp32 result. -/
def srStore (w r : Nat) : Nat :=
  let sg := w / 2 ^ 31 * 2 ^ 15
  if !(v32 w).isFin then rbf (v32 w)
  else
    let x := (w % 2 ^ 31 + r) / 65536
    sg + (if x / 128 = 255 then 0x7F7F else x)

/-- What an element's weight becomes in memory: its code, its remainder, and how it was judged. -/
structure Stored where
  code   : Nat
  rem    : Nat
  remSat : Bool
  exact0 : Bool
deriving DecidableEq, Repr

def storeW (h : Hyper) (e : Nat) (w : Res) : Stored :=
  match h.mode with
  | 0 => ⟨w.code, 0, false, w.exact0⟩
  | 1 => let t := remStore w.code; ⟨t.1, t.2.1, t.2.2, (v32 w.code).isZero⟩
  | _ => ⟨srStore w.code (srDraw h e), 0, false, (v32 w.code).isZero⟩

/-- The fp32 value of a stored weight. -/
def loadW (mode code rem : Nat) : Nat :=
  match mode with
  | 0 => code
  | 1 => remLoad code rem
  | _ => code * 65536

end Sys2Proof.Machine
end

