-- ==== Sys2Proof/Machine/Uit.lean ====
section
/-! DEFINITION. The unique-index table: slots by first appearance, rounds, the hold a SAMPLE leaves
and who may take it (R50, R55 to R57). -/

namespace Sys2Proof.Machine

variable {s₀ : State}

/-- Entries of the table. -/
def uitSize : Nat := 2097152

/-- The distinct keys in order of first appearance, after those already listed (in reverse). -/
def uniqAux : List Nat → List Nat → List Nat
  | acc, [] => acc.reverse
  | acc, k :: ks => if acc.contains k then uniqAux acc ks else uniqAux (k :: acc) ks

/-- Keys in slot order: the loaded ones first, then new ones in order of first appearance. -/
def uniqKeys (held ks : List Nat) : List Nat := uniqAux held.reverse ks

/-- A key's slot. -/
def slotOf (us : List Nat) (k : Nat) : Nat := (findIdx (· == k) us).getD 0

/-- Rounds an assignment takes when `new` keys find `u` entries loaded (R55, R57). -/
def uitRounds (u new : Nat) : Nat :=
  if new ≤ uitSize - u then 1 else 1 + cdiv (new - (uitSize - u)) uitSize

/-- The table is cleared `n` times; its use count wraps at 256, when it is swept (R56). -/
def uitClear (n : Nat) : Act s₀ Unit := modSac fun x => { x with uitClr := x.uitClr + BitVec.ofNat 8 n }

/-- The place behind every request that has reached the table. -/
def nextSeq (s : State) : Nat := s.ops.foldl (fun n o => max n o.seq) 0 + 1

/-- An admitted operation whose index list passes the table and that has not been assigned all its rounds (R57): its
request for one stands in the queue. -/
def uitWants (o : Op) : Bool :=
  [OpPhase.ready, .running, .waitRes].contains o.phase && o.uitLeft != some 0
  && (o.code == 2 || o.code == 3 || (o.code == 4 && o.at 24 4 != 0))

/-- A request that reached the table earlier still waits (R57). -/
def uitBehind (s : State) (o : Op) : Bool := s.ops.any fun x => x.ref != o.ref && uitWants x && decide (x.seq < o.seq)

/-- Rounds are assigned one at a time; each later one queues behind every request that waits by then (R57). Answers
whether all are assigned. -/
def uitPass (r : OpRef) : Nat → Nat → Act s₀ Bool
  | 0, _ => pure true
  | f + 1, left => do
    uitClear 1
    let s ← st
    modOp r fun o => { o with uitLeft := some (left - 1), seq := if left ≤ 1 then o.seq else nextSeq s }
    if left ≤ 1 then pure true
    else do
      let s ← st
      if (findOp s r).any (uitBehind s) then pure false else uitPass r f (left - 1)

/-- What an operation finds when it reaches the table. -/
inductive UitSees where
  | wait
  | empty
  | loaded (h : UitHold)
  | none
deriving DecidableEq, Repr

/-- R57: the holder's domain takes or ends the hold, others wait; without a hold, in turn. Nothing
changes yet. -/
def uitLook (s : State) (o : Op) (reuse : Bool) : UitSees :=
  match s.sac.uit with
  | some h => if h.dom = o.d then (if reuse then .loaded h else .empty) else .wait
  | none => if uitBehind s o then .wait else if reuse then .none else .empty

/-- The hold ends; without one nothing changes. -/
def uitDrop : Act s₀ Unit := do
  let s ← st
  if s.sac.uit.isSome then modSac fun x => { x with uit := none } else skip

/-- UIT_HOLD_EXPIRY (R57): HOLD_US after the load, the hold ends. -/
def execUitHoldExpiry (s : State) : Host.Outcome State Fault Refusal := perform s do
  let s ← st
  match s.sac.uit with
  | some h =>
    if due s h.since (1000 * fld (regOf s (GTH + 8)) 0 16) then do
      uitDrop
      uitClear 1
    else skip
  | none => skip

end Sys2Proof.Machine
end

