-- ==== Sys2Proof/Machine/Sac.lean ====
section
/-! DEFINITION. Exact partials (R53, R54) and the scatter accumulator (R63, R74 to R78): its geometry, hash, contexts,
spill logs, splits and transient entries. -/

namespace Sys2Proof.Machine

variable {s₀ : State}

/-! ### Exact partials -/

/-- A sum is held exactly in an exact-partial format whose M has `k` bits (R53, R54); E is at most 254. -/
def xpFits (k : Nat) (x : XSum) : Bool :=
  if x.nan || x.pinf || x.ninf then true
  else
    let a := x.m.natAbs
    let tz := if a = 0 then 0 else (List.range (bitLen a)).countP fun i => a % 2 ^ (i + 1) == 0
    let q : Int := x.m / 2 ^ (min tz 254)
    decide (-(2 ^ (k - 1) : Int) ≤ q ∧ q < 2 ^ (k - 1))

/-- A sum as a code of an exact-partial format whose M has `k` bits (Table 3.1). Of the exponents that hold the sum the
manual says no more than that the format holds it exactly: `free` chooses among them (log entry 4). -/
def xpCode (k free : Nat) (x : XSum) : Nat :=
  if x.nan || (x.pinf && x.ninf) then 255 * 2 ^ k + 3
  else if x.pinf then 255 * 2 ^ k + 1
  else if x.ninf then 255 * 2 ^ k + 2
  else if x.m = 0 ∧ x.neg0 then 255 * 2 ^ k
  else
    let a := x.m.natAbs
    let tz := if a = 0 then 254 else min 254 ((List.range (bitLen a)).countP fun i => a % 2 ^ (i + 1) == 0)
    let lo := bitLen a - (k - 1)
    let e := lo + free % (tz - lo + 1)
    e * 2 ^ k + toCode k (x.m / 2 ^ e)

/-- The sum a code of that format stands for. -/
def xpVal (k c : Nat) : XSum :=
  let e := fld c k 8
  let m := sInt k c
  if e = 255 then
    match c % 4 with
    | 0 => ⟨0, false, false, false, true⟩
    | 1 => ⟨0, true, false, false, false⟩
    | 2 => ⟨0, false, true, false, false⟩
    | _ => ⟨0, false, false, true, false⟩
  else ⟨m * 2 ^ e, false, false, false, false⟩

/-- The narrowest of XP32, XP64 and XP128 that holds every element, in bytes an element (R67). -/
def xpWidth (xs : List XSum) : Option Nat :=
  if xs.all (xpFits 24) then some 4
  else if xs.all (xpFits 56) then some 8
  else if xs.all (xpFits 120) then some 16
  else none

/-! ### The accumulator (R74 to R77) -/

def sacCtxW (c k : Nat) : Nat := SAC + 0x100 + 16 * c + 4 * k

def ctxAt (s : State) (c : Nat) : SacCtx := (mapGet s.sac.ctx c).getD ⟨0, 0, [], [], [], []⟩
def setCtx (c : Nat) (x : SacCtx) : Act s₀ Unit := modSac fun y => { y with ctx := mapSet y.ctx c x }

/-- The SAC hash of a key (R74). -/
def sacHash (c t r : Nat) : Nat :=
  fld ((r % 2 ^ 34 + t * 2 ^ 34 + c * 2 ^ 46) * 0x9E3779B97F4A7C15) 32 32

/-- Entries of a bank at an element count, and its sets. -/
def sacEntries (n : Nat) : Nat := 2097152 / (64 + 16 * n)
def sacSets (n : Nat) : Nat := sacEntries n / 8
def sacSet (n h : Nat) : Nat := h / 16 % max 1 (sacSets n)

/-- Bytes of a spill record: header, and the elements padded to 64 B (R76). -/
def spillBytes (n : Nat) (wide : Bool) : Nat := 64 + cdiv (n * (if wide then 40 else 16)) 64 * 64

/-- The channel segment of a row (R76). -/
def segOf (s : State) (t r : Nat) : Nat :=
  match tdGet s t with
  | none => r % 256
  | some d =>
    match ovFind s t r with
    | some e =>
      if e.kind = 3 then chanOf s (guestBase s + 512 * e.gslot) else chanOf s ((rowAt s t d r).a)
    | none => chanOf s ((rowAt s t d r).a)

/-- An element as XP128 (R53). -/
def xp128 (free : Nat) (x : XSum) : Nat := xpCode 120 free x

def xp128Val (c : Nat) : XSum := xpVal 120 c

/-- An element as XPW (Table 3.1). -/
def xpw (x : XSum) : Nat :=
  toCode 312 x.m + 2 ^ 312 * (b2n x.pinf + 2 * b2n x.ninf + 4 * b2n x.nan + 8 * b2n x.neg0)

def xpwVal (c : Nat) : XSum := ⟨sInt 312 c, bit c 312, bit c 313, bit c 314, bit c 315⟩

/-- The bytes of a spill record (R76). -/
def spillImage (nonce c t r : Nat) (wide : Bool) (xs : List XSum) : List Byte :=
  let body := ((List.range xs.length).zip xs).flatMap fun x =>
    if wide then leBytes 40 (xpw x.2) else leBytes 16 (xp128 (Config.freeWord nonce x.1).toNat x.2)
  padTo 64 (leBytes 2 t ++ leBytes 1 c ++ leBytes 1 (b2n wide) ++ leBytes 2 xs.length ++ leBytes 8 r)
    ++ padTo (spillBytes xs.length wide - 64) body

def spillElems (b : List Byte) (n : Nat) (wide : Bool) : List XSum :=
  (List.range n).map fun i =>
    if wide then xpwVal (leAt b (64 + 40 * i) 40) else xp128Val (leAt b (64 + 16 * i) 16)

/-- Where a byte of a segment's log lies in HBM. -/
def logAddr (s : State) (c : Nat) (x : SacCtx) (seg off : Nat) : Nat :=
  let chunk := ((x.segs.find? fun y => y.1 == seg && y.2.1 == off / 65536).map fun y => y.2.2).getD 0
  regOf s (sacCtxW c 1) + 2 ^ 32 * regOf s (sacCtxW c 2) + 65536 * chunk + off % 65536

/-- Bytes written, or read, in pieces that each lie in one chunk. -/
def logPieces (off n : Nat) : List (Nat × Nat) :=
  (List.range ((off + n - 1) / 65536 - off / 65536 + 1)).map fun i =>
    let lo := max off ((off / 65536 + i) * 65536)
    (lo, min (off + n) ((off / 65536 + i + 1) * 65536) - lo)

def segEnd (x : SacCtx) (seg : Nat) : Nat :=
  ((x.spills.filter fun y => y.seg == seg).map fun y => spillBytes y.count y.wide).sum

/-- One partial goes to its context's log; the context enters SPILL_FULL when no chunk is free (R76, R77). -/
def spillOut (c t r : Nat) (xs : List XSum) (bad : Bool) : Act s₀ Unit := do
  let s ← st
  let x := ctxAt s c
  if x.st = 2 then skip
  else do
    let wide := !(xs.all (xpFits 120))
    let n := spillBytes xs.length wide
    let seg := segOf s t r
    let off := segEnd x seg
    let have_ := (x.segs.filter fun y => y.1 == seg).length
    let need := cdiv (off + n) 65536 - have_
    if fld (regOf s (sacCtxW c 3)) 0 16 < x.used + need then setCtx c { x with st := 2 }
    else do
      let x := { x with
        used := x.used + need
        segs := x.segs ++ (List.range need).map fun i => (seg, have_ + i, x.used + i)
        spills := x.spills ++ [⟨seg, off, t, r, xs.length, wide, bad⟩] }
      setCtx c x
      bump64 (SAC + 0x10) 1
      let img := spillImage s.nonce c t r wide xs
      each (logPieces off n) fun p => do
        let s ← st
        let _ ← hbmWrite (logAddr s c x seg p.1) ((img.drop (p.1 - off)).take p.2) none
        skip

/-- Every resident entry is spilled, the oldest first. -/
def spillAll : Act s₀ Unit := do
  let s ← st
  modSac fun y => { y with ents := [] }
  each s.sac.ents fun e => spillOut e.ctx e.table e.row e.sums e.bad

/-- The transient entries of the segments of several pieces that operations merge (R63): (hash, elements). -/
def transients (s : State) : List (Nat × Nat) :=
  s.ops.flatMap fun o => match o.work with | .pool w => w.merging | _ => []

/-- The element count in use, while anything is resident (R74). -/
def sacCount (s : State) : Option Nat :=
  match s.sac.ents with
  | e :: _ => some e.sums.length
  | [] => (transients s).head?.map Prod.snd

/-- The context whose retirement pass holds the accumulator (R78). -/
def retiring (s : State) : Option Nat := (s.sac.ctx.find? fun x => x.2.st == 3).map Prod.fst

/-- The hash of a transient key: the manual puts the operation and the segment in place of (context, table, row) and
lays out neither (free, log entry 125). -/
def transHash (r : OpRef) (seg : Nat) : Nat :=
  (Config.freeWord (2 ^ 40 + r.dom.val + 4 * r.ring.val + 264 * r.idx.toNat) seg).toNat

/-- The context entries of a bank and set, the one allocated longest ago first, and how many transient ones stand there. -/
def sacSetOf (s : State) (n bank set : Nat) : List SacEnt × Nat :=
  (s.sac.ents.filter fun y => y.bank == bank && sacSet n (sacHash y.ctx y.table y.row) == set,
    (transients s).countP fun x => x.1 % 16 == bank && sacSet n x.1 == set)

/-- Room in a set: a full one spills the context entry allocated longest ago (R74). Answers whether there is room: a set
full of transient entries has none (DESIGN CHOICE, log entry 125). -/
def sacRoom (n bank set : Nat) : Act s₀ Bool := do
  let s ← st
  match sacSetOf s n bank set with
  | (l, k) =>
    if l.length + k < 8 then pure true
    else match l with
      | o :: _ => do
        modSac fun y => { y with ents := y.ents.filter fun z => z.seq != o.seq }
        spillOut o.ctx o.table o.row o.sums o.bad
        pure true
      | [] => pure false

/-- An entry is allocated in its bank (R74); without room it goes to its context's log. Entries
stand in the order of their allocation. -/
def sacAlloc (e : SacEnt) : Act s₀ Unit := do
  let s ← st
  let n := e.sums.length
  let seq := (s.sac.ents.foldl (fun m y => max m y.seq) 0) + 1
  if ← sacRoom n e.bank (sacSet n (sacHash e.ctx e.table e.row)) then
    modSac fun y => { y with ents := y.ents ++ [{ e with seq := seq }] }
  else spillOut e.ctx e.table e.row e.sums e.bad

def sacFind (s : State) (c t r bank : Nat) : Option SacEnt :=
  s.sac.ents.find? fun e => e.ctx == c && e.table == t && e.row == r && e.bank == bank

def sacPut (e : SacEnt) : Act s₀ Unit :=
  modSac fun y => { y with ents := y.ents.map fun z => if z.seq == e.seq then e else z }

/-- 4,096 CCLK cycles in ns. -/
def hotWindow : Nat := 2560

/-- The updates of a key in the last 4,096 CCLK cycles, the present one among them (R75). -/
def hotTimes (now : Nat) (l : List Nat) : List Nat := now :: l.filter fun t => decide (now < t + hotWindow)

/-- A hot key's copies go into the other banks (R75). -/
def sacSplit (e : SacEnt) : Act s₀ Unit := do
  bump (SAC + 0x18)
  sacPut { e with split := true }
  each (List.range 15) fun i => do
    let s ← st
    let b := (e.bank + i + 1) % 16
    if (sacFind s e.ctx e.table e.row b).isNone then
      sacAlloc ⟨e.ctx, e.table, e.row, b, e.sums.map fun _ => xsZero, 0, 0, [], true, false⟩
    else skip

/-- The sums of a contribution join the entry of the key in a bank. -/
def sacInto (c t r bank : Nat) (xs : List XSum) : Act s₀ Unit := do
  let s ← st
  match sacFind s c t r bank with
  | some e => sacPut { e with sums := List.zipWith xsAdd e.sums xs }
  | none => sacAlloc ⟨c, t, r, bank, xs, 0, 1, [s.ts], false, false⟩

/-- A contribution enters the key's entry, or the next copy of a split key; a key that has become hot is split (R75). -/
def sacTake (c t r : Nat) (xs : List XSum) : Act s₀ Unit := do
  let s ← st
  let home := sacHash c t r % 16
  match sacFind s c t r home with
  | none => sacInto c t r home xs
  | some e => do
    let n := e.upd + 1
    sacPut { e with upd := n, times := hotTimes s.ts e.times }
    sacInto c t r (if e.split then (home + n) % 16 else home) xs
  let s ← st
  match sacFind s c t r home with
  | some e => if !e.split && decide (fld (regOf s (SAC + 4)) 0 16 < e.times.length) then sacSplit e else skip
  | none => skip

/-- One contribution (R71, R74, R75, R97), exact: into the accumulator. During a retirement pass (R78), and where its
element count is not the one in use and transient entries stand in the way (R74), it goes to its context's log; in
SPILL_FULL it is discarded (R77). -/
def sacAdd (c t r : Nat) (g : List Nat) : Act s₀ Unit := do
  cancelMoves t
  let s ← st
  let x := ctxAt s c
  let xs := g.map fun v => xsOf (v32 v)
  setCtx c { x with
    st := if x.st = 2 ∨ x.st = 3 then x.st else 1
    mask := if x.mask.contains t then x.mask else t :: x.mask }
  if x.st = 2 then skip
  else if (retiring s).isSome then spillOut c t r xs false
  else match sacCount s with
    | some n =>
      if n = g.length then sacTake c t r xs
      else if (transients s).isEmpty then do
        spillAll
        let s ← st
        if (ctxAt s c).st = 2 then skip else sacTake c t r xs
      else spillOut c t r xs false
    | none => sacTake c t r xs

/-- Transient merges of this element count must wait: for the end of a retirement pass, or for the transient entries of
another count (R74, R78). -/
def mergeWaits (s : State) (n : Nat) : Bool := (retiring s).isSome || (transients s).any fun x => x.2 != n

/-- Transient entries are about to be allocated: context entries of another count are spilled, and room is made in
each set (R74). -/
def mergeRoom (hashes : List Nat) (n : Nat) : Act s₀ Unit := do
  let s ← st
  if sacCount s = none ∨ sacCount s = some n then skip else spillAll
  each hashes fun h => do
    let _ ← sacRoom n (h % 16) (sacSet n h)
    skip

end Sys2Proof.Machine
end

