-- ==== Sys2Proof/Machine/Gather.lean ====
section
/-! DEFINITION. GATHER and POOL (R52 to R69): the descriptor's checks, exact pooling by pieces and
groups, remote pooling on both sides, and the output. -/

namespace Sys2Proof.Machine

variable {s₀ : State}

/-! ### Addends -/

/-- A weighted addend, quantised to a multiple of 2^-149 (R52). -/
def quant149 (v : FV) : XSum :=
  match v with
  | .fin n m e =>
    let q := if xsUnit ≤ e then m <<< (e - xsUnit).toNat else (rneShift m (xsUnit - e).toNat false).1
    ⟨if n then -(q : Int) else q, false, false, false, n && q == 0⟩
  | v => xsOf v

/-- A row's elements. -/
def rowVals (f : Fmt) (b : List Byte) : List FV :=
  match FmtOf.spec f with
  | some sp => (chunks (FmtOf.bytes f) b).map fun c => sp.val (leNat c)
  | none => []

/-! ### Pooling (R63 to R65) -/

/-- An index of a list as pooling sees it. -/
structure PEnt where
  row   : Nat
  seg   : Nat
  piece : Nat
  w     : Nat
deriving DecidableEq, Repr

/-- The group of a row within a piece: its multiplicity and its weights. -/
def addendOf (agg : Nat) (es : List PEnt) (vs : List FV) : List XSum :=
  if agg = 4 then
    let w := sumFV (es.map fun e => v32 e.w)
    vs.map fun v => quant149 (v.mul w)
  else vs.map fun v => xsOf (v.mul (.fin false es.length 0))

/-- A piece's sum, its groups in order of first appearance, and whether a running sum left XP128. -/
def pieceSum (agg : Nat) (val : Nat → List FV) (es : List PEnt) : List XSum × Bool :=
  (uniqKeys [] (es.map PEnt.row)).foldl (fun (a : List XSum × Bool) r =>
    let x := addendOf agg (es.filter fun e => e.row == r) (val r)
    let t := if a.1.isEmpty then x else List.zipWith xsAdd a.1 x
    (t, a.2 || !(t.all (xpFits 120)))) ([], false)

def maxCode (a b : Nat) : Nat :=
  let m := (v32 a).max (v32 b)
  if m.isZero then 0 else r32 m

def maxRow (vs : List FV) : List Nat := vs.map fun v => if v.isZero then 0 else r32 v

/-- What the entries of one segment come to. -/
structure SegPart where
  seg  : Nat
  maxv : List Nat
  sum  : List XSum
  wide : Nat
deriving DecidableEq, Repr

def segPart (agg : Nat) (val : Nat → List FV) (seg : Nat) (es : List PEnt) : SegPart :=
  if agg = 3 then
    ⟨seg, ((es.map fun e => maxRow (val e.row)).foldl (fun a x =>
      if a.isEmpty then x else List.zipWith maxCode a x) []), [], 0⟩
  else
    let ps := (uniqKeys [] (es.map PEnt.piece)).map fun p => pieceSum agg val (es.filter fun e => e.piece == p)
    ⟨seg, [], (ps.map Prod.fst).foldl (fun a x => if a.isEmpty then x else List.zipWith xsAdd a x) [],
      (ps.filter Prod.snd).length⟩

/-- Every segment named, in order of first appearance. -/
def pooled (agg : Nat) (val : Nat → List FV) (es : List PEnt) : List SegPart :=
  (uniqKeys [] (es.map PEnt.seg)).map fun g => segPart agg val g (es.filter fun e => e.seg == g)

/-- A part joins what a segment has so far. -/
def addPart (w : PoolWork) (p : SegPart) : PoolWork :=
  { w with
    maxv := if p.maxv.isEmpty then w.maxv else
      mapSet w.maxv p.seg (match mapGet w.maxv p.seg with
        | some x => List.zipWith maxCode x p.maxv
        | none => p.maxv)
    sums := if p.sum.isEmpty then w.sums else
      mapSet w.sums p.seg (match mapGet w.sums p.seg with
        | some x => List.zipWith xsAdd x p.sum
        | none => p.sum) }

/-- An element of a segment's result as an fp32 code (R52, R64). -/
def aggOut (agg count : Nat) (x : XSum) : Nat :=
  let c := r32 (xsVal x)
  if agg = 2 then
    let (q, rest) := divFV (v32 c) (.fin false count 0)
    (fp32.round q false rest).code
  else c

/-! ### The descriptor (R58 to R60) -/

def gthTable (o : Op) : Nat := o.bits 16 0 12
def gthAgg (o : Op) : Nat := o.bits 16 12 3
def gthBf16 (o : Op) : Bool := o.flag 17 7
def gthWide (o : Op) : Bool := o.flag 18 0
def gthSegd (o : Op) : Bool := o.flag 18 1
def gthReuse (o : Op) : Bool := o.flag 18 2
def gthCount (o : Op) : Nat := o.at 20 4
def gthSegs (o : Op) : Nat := o.at 40 4
def gthOut (o : Op) : Nat := o.at 48 8
def gthIsPool (o : Op) : Bool := o.code == 3

def gthFieldsBad (o : Op) : Bool :=
  !o.zero 18 4 12 || gthCount o == 0 || decide (268435456 < gthCount o) || gthSegs o == 0
  || decide (16777216 < gthSegs o) || (!gthSegd o && (gthSegs o != 1 || !o.zero 32 0 64))
  || !o.zero 48 0 6 || (gthAgg o != 4 && !o.zero 56 0 64)
  || (if gthIsPool o then gthAgg o == 0 || decide (4 < gthAgg o) else gthAgg o != 0 || gthBf16 o)

/-- Bytes of a POOL result row (R60). -/
def poolRow (o : Op) (d : TDesc) : Nat := cdiv (rowElems d * (if gthBf16 o then 2 else 4)) 64 * 64
/-- Bytes of a GATHER row (R60). -/
def gathRow (d : TDesc) : Nat := cdiv d.rowBytes 64 * 64

/-- The size R60 gives, `u` rows being loaded already. -/
def gthNeed (o : Op) (d : TDesc) (u : Nat) : Nat :=
  if gthIsPool o then gthSegs o * poolRow o d
  else 64 + (u + min (gthCount o) d.rows) * gathRow d + 4 * gthCount o

/-- Bytes the output may take: OUT_BYTES, or for a KX descriptor or a pool request just what R60 gives (R263, R286). -/
def gthRoom (o : Op) (d : TDesc) : Nat := if 64 ≤ o.ref.ring.val then gthNeed o d 0 else o.at 44 4

def idxBytes (o : Op) : Nat := if gthWide o then 8 else 4
def wBytes (o : Op) : Nat := if o.flag 18 3 then 2 else 4

/-- Admission of a GATHER or POOL: the checks of R58 that need no array, the ranges, the capture (R61). -/
def admGather (o : Op) : Act s₀ Adm := do
  let s ← st
  match firstBad [badIf (gthFieldsBad o), (!bit (regOf s GTH) 0, NOT_SUPPORTED, 0), tableChk s o (gthTable o)] with
  | some x => pure (some x)
  | none =>
    match tdGet s (gthTable o) with
    | none => pure (some (BAD_DESCRIPTOR, 0))
    | some d =>
      match firstBad [
          badIf (decide (gthRoom o d < gthNeed o d 0)),
          rangeChk s o (o.at 24 8) (gthCount o * idxBytes o) false,
          if gthSegd o then rangeChk s o (o.at 32 8) (4 * (gthSegs o + 1)) false else badIf false,
          if gthAgg o = 4 then rangeChk s o (o.at 56 8) (gthCount o * wBytes o) false else badIf false,
          rangeChk s o (gthOut o) (gthRoom o d) false] with
      | some x => pure (some x)
      | none => do
        captureTbl o.ref (gthTable o) d false
        setRegion o.ref (regionOf s o.d (gthOut o) (gthRoom o d) false)
        pure none

/-- Rows of these formats and widths can be pooled (R59). -/
def poolable (d : TDesc) : Bool := decide (d.fmt ≤ 4) && decide (rowElems d ≤ 1024) && decide (1 ≤ rowElems d)

/-! ### Running -/

/-- The base an operation captured. -/
def heldBase (o : Op) (d : TDesc) : Bool :=
  match o.hold with
  | (_, b, _) :: _ => b
  | [] => d.active

def heldVer (o : Op) : Nat := match o.hold with | (_, _, v) :: _ => v.toNat | [] => 0

/-- The rows of this chip, each read once (R61, R65). -/
def readRows (t : Nat) (d : TDesc) (b : Bool) (who : Option Who) (rs : List Nat) : Try s₀ (List (Nat × List Byte)) :=
  rs.mapM fun r => do
    let x ← attempt (readRow t d r b who)
    pure (r, x)

def lookRow (l : List (Nat × List Byte)) (r : Nat) : List Byte :=
  ((l.find? fun x => x.1 == r).map Prod.snd).getD []

/-- Entries of a list: segment by SEG_OFF, piece by its place in the segment (R63). -/
def gthEnts (so idx ws : List Nat) : List PEnt :=
  (List.range (so.length - 1)).flatMap fun g =>
    let lo := so.getD g 0
    (List.range (so.getD (g + 1) 0 - lo)).map fun i =>
      ⟨idx.getD (lo + i) 0, g, i / 4096, ws.getD (lo + i) 0⟩

def gthReqBody (t ver agg fmt : Nat) (es : List PEnt) : Body :=
  .poolReq ⟨t, BitVec.ofNat 32 ver, agg, fmt, es.map fun e => (e.row, e.seg, e.w)⟩

/-- Requests for the entries of other chips, by owner (R66). -/
def gthRequests (o : Op) (t : Nat) (d : TDesc) (agg : Nat) (es : List (Nat × PEnt)) : Act s₀ Nat := do
  let s ← st
  let per := fld (regOf s (GTH + 12)) 0 8
  foldA (uniqKeys [] (es.map Prod.fst)) OK fun e c =>
    foldA (chunks per ((es.filter fun x => x.1 == c).map Prod.snd)) e fun e l => do
      if e ≠ OK then pure e
      else request (some o.ref) c 0x13 o.d 0 (32 + 16 * l.length) 1 1 .pool (gthReqBody t (heldVer o) agg d.fmt l)

/-- The result rows of a pool (R60). -/
def poolRows (agg : Nat) (bf16 : Bool) (elems : Nat) (w : PoolWork) : List Byte :=
  (List.range w.segs.length).flatMap fun g =>
    let n := w.segs.getD g 0
    let codes := if agg = 3 then (mapGet w.maxv g).getD []
      else ((mapGet w.sums g).getD []).map (aggOut agg n)
    let codes := if n = 0 ∨ codes.isEmpty then List.replicate elems 0 else codes
    padTo (cdiv (elems * (if bf16 then 2 else 4)) 64 * 64) (codes.flatMap fun c =>
      if bf16 then leBytes 2 (rbf (v32 c)) else leBytes 4 c)

def poolImage (o : Op) (d : TDesc) (w : PoolWork) : List Byte := poolRows (gthAgg o) (gthBf16 o) (rowElems d) w

/-- A GATHER's pieces: header, the rows its list names, the slots (R60). -/
def gathPieces (d : TDesc) (w : PoolWork) : List (Nat × List Byte) :=
  let u := (w.slots.foldl max 0) + 1
  let rp := gathRow d
  let so := 64 + u * rp
  (0, padTo 64 (leBytes 4 u ++ leBytes 4 w.rounds ++ leBytes 4 64 ++ leBytes 4 so))
  :: (w.uniq.map fun x => (64 + x.1 * rp, padTo rp (lookRow w.rowsIn x.2)))
  ++ [(so, w.slots.flatMap (leBytes 4))]

/-- Every answer is in: the result is written (R62). -/
def gthWrite (o : Op) (d : TDesc) (w : PoolWork) : Act s₀ Unit := do
  let ps := if gthIsPool o then [(0, poolImage o d w)] else gathPieces d w
  let e ← foldA ps OK fun e x => do
    if e ≠ OK then pure e else deliver o (gthOut o + x.1) x.2 false
  if e ≠ OK then endOp o.ref e 0 else finish o.ref OK 0 w.rounds

/-- The work of a GATHER or POOL that has all its rounds and all its answers is written. -/
def gthEnd (o : Op) (d : TDesc) (w : OpWork) : Act s₀ Unit :=
  match w with
  | .pool w => gthWrite o d w
  | _ => skip

/-- The keys a GATHER or POOL looks up in the unique-index table: a pool's are the rows of this chip. -/
def gthKeys (s : State) (o : Op) (d : TDesc) (idx : List Nat) : List Nat :=
  if gthIsPool o then idx.filter fun i => ownerOf s (gthTable o) d i == myCoord s else idx

/-- Segments of more than one piece (R63), which merge in the accumulator. -/
def manyPieces (so : List Nat) : List Nat :=
  (List.range (so.length - 1)).filter fun g => decide (4096 < so.getD (g + 1) 0 - so.getD g 0)

/-- The transient keys of a pool's merges; a maximum needs none. -/
def gthHashes (o : Op) (so : List Nat) : List Nat :=
  if gthIsPool o && gthAgg o != 3 then (manyPieces so).map (transHash o.ref) else []

/-- What follows the rounds: slots, local rows, remote requests (R61, R66). -/
def gthStart (o : Op) (d : TDesc) (idx so ws : List Nat) (held : List Nat) (rounds : Nat) : Act s₀ Unit := do
    let s ← st
    let t := gthTable o
    let me := myCoord s
    let es := gthEnts so idx ws
    let keys := gthKeys s o d idx
    let uniq := uniqKeys held keys
    let hs := gthHashes o so
    if hs.isEmpty then skip else mergeRoom hs (rowElems d)
    bump64 (GTH + 0x10) keys.length
    let local_ := uniqKeys [] (idx.filter fun i => ownerOf s t d i == me)
    each idx fun i => if ownerOf s t d i = me then countLoad t i 1 else skip
    match ← (readRows t d (heldBase o d) o.who local_).run with
    | .error e => endOp o.ref e 0
    | .ok rows => do
      if rows.isEmpty then skip else bump64 (GTH + 0x18) rows.length
      let slots := if gthIsPool o then [] else idx.map (slotOf uniq)
      let mine := uniqKeys [] idx
      let w0 : PoolWork := ⟨if gthIsPool o then [] else mine.map fun r => (slotOf uniq r, r), slots,
        (List.range (so.length - 1)).map fun g => so.getD (g + 1) 0 - so.getD g 0, [], [],
        if gthIsPool o then [] else rows, rounds, hs.map fun h => (h, rowElems d)⟩
      let val := match fmtOf d.fmt with
        | some f => fun r => rowVals f (lookRow rows r)
        | none => fun _ => []
      let here := es.filter fun e => ownerOf s t d e.row == me
      let far := (es.filter fun e => ownerOf s t d e.row != me).map fun e => (ownerOf s t d e.row, e)
      let ps := if gthIsPool o then pooled (gthAgg o) val here else []
      let wide := (ps.map SegPart.wide).sum
      if wide = 0 then skip else bump (GTH + 0x20) wide
      let w := ps.foldl addPart w0
      let farU := if gthIsPool o then far else
        (mine.filter fun r => ownerOf s t d r != me).map fun r => (ownerOf s t d r, ⟨r, 0, 0, 0⟩)
      each farU fun x => useRow t x.2.row
      let e ← gthRequests o t d (gthAgg o) farU
      if e ≠ OK then endOp o.ref e 0
      else if farU.isEmpty then gthWrite o d w
      else modOp o.ref fun x => { x with phase := .running, work := .pool w }

/-- The lists are in hand: the range check, the rounds of the unique-index table (R55, R57), and the wait for the merges of
R63, come before the rest. `held` are the keys a SAMPLE left loaded. -/
def gthRounds (o : Op) (d : TDesc) (idx so ws held : List Nat) : Act s₀ Unit := do
  let s ← st
  if idx.any fun i => decide (d.rows ≤ i) then endClean o.ref BAD_DESCRIPTOR 0
  else do
    let m ← mapChks (gthTable o) d (uniqKeys [] idx) o.who
    if m ≠ 0 then endOp o.ref m 0
    else do
      let rounds := uitRounds held.length ((uniqKeys held (gthKeys s o d idx)).length - held.length)
      let left := o.uitLeft.getD rounds
      modOp o.ref fun x => { x with counts := BitVec.ofNat 64 rounds }
      if ← uitPass o.ref left left then gthStart o d idx so ws held rounds
      else do
        modOp o.ref fun x => { x with work := .pool ⟨(List.range held.length).zip held, [], [], [], [], [], rounds, []⟩ }
        let s ← st
        match findOp s o.ref with
        | some x => waitRes x
        | none => skip

/-- A GATHER or POOL goes as far as it can (R55 to R62). -/
def gatherGo (r : OpRef) : Act s₀ Unit := do
  let s ← st
  match findOp s r with
  | none => skip
  | some o =>
    if !([2, 3].contains o.code) ∨ !([OpPhase.ready, .running, .waitRes].contains o.phase) ∨ o.work = .xfer 0 then skip
    else match tdGet s (gthTable o), o.work with
      | none, _ => endOp r BAD_DESCRIPTOR 0
      | some d, w => do
        let held := match w with | .pool w => w.uniq.map Prod.snd | _ => []
        let begun := w != .none
        if begun && o.uitLeft == some 0 then (if (reqsOf s r).isEmpty then gthEnd o d w else skip)
        else if begun && uitBehind s o then skip
        else do
          let fi ← fetch o (o.at 24 8) (gthCount o * idxBytes o) false
          let fs ← if gthSegd o then fetch o (o.at 32 8) (4 * (gthSegs o + 1)) false else pure (.got [])
          let fw ← if gthAgg o = 4 then fetch o (o.at 56 8) (gthCount o * wBytes o) false else pure (.got [])
          match fi, fs, fw with
          | .fail e, _, _ => endOp r e 0
          | _, .fail e, _ => endOp r e 0
          | _, _, .fail e => endOp r e 0
          | .got bi, .got bs, .got bw => do
            let so := if gthSegd o then numsOfBytes 4 bs else [0, gthCount o]
            let ws := if wBytes o = 2 then (numsOfBytes 2 bw).map (· * 65536) else numsOfBytes 4 bw
            if so.headD 1 ≠ 0 ∨ so.getLastD 0 ≠ gthCount o ∨ (so.zip (so.drop 1)).any (fun x => decide (x.2 < x.1)) then
              endClean r BAD_DESCRIPTOR 0
            else if gthIsPool o ∧ !poolable d then endClean r NOT_SUPPORTED 0
            else if !(gthHashes o so).isEmpty && mergeWaits s (rowElems d) then waitRes o
            else do
              let s ← st
              let idx := numsOfBytes (idxBytes o) bi
              let go (held : List Nat) : Act s₀ Unit := do
                putOp { resumed s o with phase := .running }
                gthRounds (resumed s o) d idx so ws held
              if begun then go held
              else match uitLook s o (gthReuse o) with
              | .wait => waitRes o
              | .none => endClean r REFUSED_FULL 0
              | .empty => do
                uitDrop
                go []
              | .loaded h =>
                if 1 < h.rounds then endClean r BAD_DESCRIPTOR 0
                else if gthRoom o d < gthNeed o d h.keys.length then endClean r BAD_DESCRIPTOR 0
                else do
                  uitDrop
                  go (if h.table = gthTable o then h.keys
                     else h.keys.map fun k => 2 ^ 64 + k)
          | _, _, _ => modOp r fun x => { x with phase := .running }
where
  numsOfBytes (w : Nat) (b : List Byte) : List Nat := (chunks w b).map leNat

/-- GATHER (R58): the admitted operation runs, or goes on. -/
def execGather (r : OpRef) (s : State) : Host.Outcome State Fault Refusal := perform s do
  let s ← st
  match findOp s r with
  | some o => if o.code = 2 then gatherGo r else skip
  | none => skip

/-- POOL (R58): the admitted operation runs, or goes on. -/
def execPool (r : OpRef) (s : State) : Host.Outcome State Fault Refusal := perform s do
  let s ← st
  match findOp s r with
  | some o => if o.code = 3 then gatherGo r else skip
  | none => skip

/-! ### The owner's side (R66 to R69) -/

/-- A window of KIND 1 that grants POOL on a table (R259). -/
def winPool (s : State) (w t : Nat) : Bool :=
  let a := SVC + 0x3000 + 16 * w
  let x := regOf s a
  let y := regOf s (a + 4)
  bit x 0 && bit x 1 && bit x 4 && decide (fld y 0 12 ≤ t ∧ t ≤ fld y 16 12)

def peerWin (s : State) (n : Nat) : Nat := fld (regOf s (peerW n 0)) 5 8

/-- FAB_CFG.PAYLOAD of the port an entry uses, and the peer's MAX_PAYLOAD (R195, R254). -/
def peerCap (s : State) (n : Nat) : Nat :=
  let p := 6 + b2n (bit (regOf s (peerW n 0)) 1)
  let c := match fld (regOf s (fabW p 0)) 11 2 with | 0 => 4096 | 1 => 2048 | _ => 1024
  match (peerAt s n).hello with
  | some h => min c h.maxPay.toNat
  | none => c

/-- Answers to a peer are raw rows (R67, Table 11.6, R255): its HELLO has no XP_RESP, or its version is 2. -/
def rawPeer (s : State) (n : Nat) (pk : Packet) : Bool :=
  pk.hdr.ver == 2 || !((peerAt s n).hello.any fun h => h.features.getLsbD 3)

/-- Answers to the sender of a request are raw rows: a peer's by `rawPeer`, a torus neighbour's when its HELLO has no
XP_RESP. -/
def rawFor (s : State) (v : Via) (pk : Packet) : Bool :=
  match v.peer with
  | some n => rawPeer s n pk
  | none => s.links.any fun x => decide (x.1 < 12) && x.2.helloRx.any fun h => h.coord == pk.hdr.src && !h.features.getLsbD 3

/-- A segment's answer: raw rows when they take no more bytes than the partial or no XP128 holds it. -/
def partBody (nonce agg : Nat) (rawOnly : Bool) (rowBytes : Nat) (rows : List (Nat × List Byte)) (es : List PEnt) (p : SegPart) : PartBody :=
  let raw : PartBody := .rows (es.map fun e => (e.row, (lookRow rows e.row).map BitVec.toNat))
  let n := es.length * rowBytes
  if agg = 0 ∨ rawOnly then raw
  else if agg = 3 then (if n ≤ 4 * p.maxv.length then raw else .maxv p.maxv)
  else match xpWidth p.sum with
    | some w => if n ≤ w * p.sum.length then raw
      else .xp w (((List.range p.sum.length).zip p.sum).map fun x => xpCode (8 * w - 8) (Config.freeWord nonce x.1).toNat x.2)
    | none => raw

def partLen (p : PartBody) : Nat :=
  match p with
  | .maxv v => 4 * v.length
  | .xp w v => w * v.length
  | .rows rs => (rs.map fun r => r.2.length).sum

/-- A pool request at the owner: its own rows are pooled, migrated rows are forwarded (R67 to R69). -/
def servePool (v : Via) (pk : Packet) (q : PoolReq) : Act s₀ Unit := do
  let s ← st
  match tdGet s q.table with
  | none => refuseV v pk BAD_DESCRIPTOR
  | some d =>
    let okWin := match v.peer with
      | some n => inTblRange s v.dom q.table && winPool s (peerWin s n) q.table
      | none => true
    let base := if v.peer.isSome then some d.active else baseOfVersion d q.ver.toNat
    match base with
    | none => refuseV v pk REFUSED_VERSION
    | some b =>
      if !okWin then refuseV v pk REFUSED_QUOTA
      else if q.entries.any fun e => decide (d.rows ≤ e.1) then refuseV v pk BAD_DESCRIPTOR
      else if q.agg ≠ 0 ∧ !poolable d then refuseV v pk NOT_SUPPORTED
      else if q.entries.any fun e => rowIs s q.table d e.1 == .coming then parkPk pk
      else do
        let m ← mapChks q.table d (uniqKeys [] (q.entries.map Prod.fst)) none
        if m ≠ 0 then refuseV v pk m else
        let es : List PEnt := q.entries.map fun e => ⟨e.1, e.2.1, 0, e.2.2⟩
        let mine := es.filter fun e => ownsRow s q.table d e.row
        let rest := es.filter fun e => !ownsRow s q.table d e.row
        let chips := uniqKeys [] (rest.map fun e => ownerOf s q.table d e.row)
        each rest fun e => useRow q.table e.row
        if pk.hdr.cls = 2 ∧ !rest.isEmpty then redirect pk (chips.headD 0) false
        else do
          match ← (readRows q.table d b none (uniqKeys [] (mine.map PEnt.row))).run with
          | .error e => refuseV v pk e
          | .ok rows => do
            if rows.isEmpty then skip else bump64 (GTH + 0x18) rows.length
            if q.agg = 0 then skip else bump64 (GTH + 0x10) mine.length
            each mine fun e => countLoad q.table e.row 1
            let val := match fmtOf d.fmt with
              | some f => fun r => rowVals f (lookRow rows r)
              | none => fun _ => []
            let ps := if q.agg = 0 then
                (uniqKeys [] (mine.map PEnt.seg)).map fun g => SegPart.mk g [] [] 0
              else pooled q.agg val mine
            let wide := (ps.map SegPart.wide).sum
            if wide = 0 then skip else bump (GTH + 0x20) wide
            each chips fun c => do
              let l := rest.filter fun e => ownerOf s q.table d e.row == c
              let body : Body := .poolReq { q with entries := l.map fun e => (e.row, e.seg, e.w) }
              match v.peer with
              | none => forward { pk with body := body } c q.table ((l.headD ⟨0, 0, 0, 0⟩).row)
              | some n => do
                let e ← relayReq n pk v.dom c 0 (match body with
                  | .poolReq x => .poolReq { x with ver := d.ver, agg := if rawPeer s n pk then 0 else x.agg }
                  | x => x)
                if e ≠ OK then refuse v.peer pk e else skip
            let parts := ps.map fun p => (p.seg, partBody s.nonce q.agg (rawFor s v pk) d.rowBytes rows
              (mine.filter fun e => e.seg == p.seg) p)
            emit .nonce
            answer v.peer pk 0x93 0 (max 1 (min (match v.peer with | some n => peerCap s n | none => 4096)
                (parts.map fun p => partLen p.2).sum))
              (.poolRsp parts chips.length ((uniqKeys [] (mine.map PEnt.row)).filterMap (entryOf s q.table)))

/-- POOL_REQUEST (R66, R67): an owner answers a pool request. -/
def execPoolRequest (p : Fin 8) (pk : Packet) (s : State) : Host.Outcome State Fault Refusal :=
  perform s <| serving p pk 0x13 fun v =>
    match pk.body with
    | .poolReq q => servePool v pk q
    | _ => skip

/-- POOL_REMOTE_TIMEOUT (R69): no reply within GTH_REMOTE_CFG.TIMEOUT_US. -/
def execPoolRemoteTimeout (r : OpRef) (s : State) : Host.Outcome State Fault Refusal := perform s do
  let s ← st
  let t := 1000 * fld (regOf s (GTH + 12)) 16 16
  if (reqsOf s r).any fun q => q.kind == .pool && due s q.since t then endOp r REMOTE_TIMEOUT 0 else skip

end Sys2Proof.Machine
end

