-- ==== Sys2Proof/Machine/Scatter.lean ====
section
/-! DEFINITION. SCATTER_ADD (R70 to R79): pre-reduction, the scatter accumulator with its spills, splits
and contexts, contributions on both sides, and the retirement pass. -/

namespace Sys2Proof.Machine

variable {s₀ : State}

/-! ### The descriptor (R70) -/

def scTable (o : Op) : Nat := o.bits 16 0 12
def scSegd (o : Op) : Bool := o.flag 17 4
def scTarget (o : Op) : Bool := o.flag 17 7
def scCtx (o : Op) : Nat := o.bits 18 0 4
def scFinal (o : Op) : Bool := o.flag 18 4
def scWeighted (o : Op) : Bool := o.flag 18 5
def scCell (o : Op) : Nat := o.bits 19 0 5
def scOff (o : Op) : Nat := o.at 20 1
def scLen (o : Op) : Nat := o.at 21 1
def scDest64 (o : Op) : Nat := o.at 22 2
def scCount (o : Op) : Nat := o.at 24 4
def scSegs (o : Op) : Nat := o.at 28 4
def scDest (o : Op) : Nat := o.at 56 8
def scIdxB (o : Op) : Nat := if o.flag 17 5 then 8 else 4
def scGradB (o : Op) : Nat := if o.flag 17 6 then 2 else 4
def scWB (o : Op) : Nat := if o.flag 18 6 then 2 else 4

/-- A 48-bit local pointer as a global address (R70). -/
def ptrAddr (p : Nat) : Nat := fld p 46 2 * 2 ^ 62 + fld p 0 40
def ptrBad (p : Nat) : Bool := decide (1 < fld p 46 2) || fld p 40 6 != 0
def Op.ptr (o : Op) (b : Nat) : Nat := o.at b 6

def scFieldsBad (o : Op) : Bool :=
  !o.zero 18 7 1 || !o.zero 19 5 3 || (scTarget o != (scDest64 o != 0)) || (!scTarget o && scDest o != 0)
  || !o.zero 56 0 6 || decide (128 < scOff o + scLen o) || scLen o == 0 || decide (127 < scOff o)
  || decide (268435456 < scCount o) || (scCount o == 0 && !scFinal o)
  || scSegs o == 0 || decide (16777216 < scSegs o)
  || (!scSegd o && (scSegs o != 1 || o.ptr 38 != 0)) || (!scWeighted o && o.ptr 50 != 0)
  || ptrBad (o.ptr 32) || ptrBad (o.ptr 38) || ptrBad (o.ptr 44) || ptrBad (o.ptr 50)

/-- Gradient rows a SCATTER_ADD reads. -/
def scRows (o : Op) : Nat := if scSegd o then scSegs o else scCount o

/-- The quota of a cell for one of the engines that borrow cells (R267, R290, R321). -/
def cellQuota (s : State) (d c bit_ : Nat) : Bool × Nat × Nat :=
  (!bit (regOf s (hdmW d 8)) c || quarantined s c || !cellStitch s c bit_, REFUSED_QUOTA, 1)

/-- Admission of a SCATTER_ADD (R70, R77, R267). -/
def admScatter (o : Op) : Act s₀ Adm := do
  let s ← st
  let cfg := regOf s (sacCtxW (scCtx o) 0)
  match firstBad [badIf (scFieldsBad o), (!bit (regOf s SAC) 0, NOT_SUPPORTED, 0),
      cellQuota s o.d (scCell o) 1, tableChk s o (scTable o),
      badIf (!bit cfg 0 || fld cfg 1 2 != o.d)] with
  | some x => pure (some x)
  | none =>
    match tdGet s (scTable o) with
    | none => pure (some (BAD_DESCRIPTOR, 0))
    | some d =>
      let n := rowElems d
      match firstBad [(!poolable d, NOT_SUPPORTED, 0),
          ((ctxAt s (scCtx o)).st == 2 && !scFinal o, REFUSED_FULL, 0),
          rangeChk s o (ptrAddr (o.ptr 32)) (scCount o * scIdxB o) true,
          if scSegd o then rangeChk s o (ptrAddr (o.ptr 38)) (4 * (scSegs o + 1)) true else badIf false,
          if scCount o = 0 then badIf false
          else rangeChk s o (ptrAddr (o.ptr 44)) (scRows o * n * scGradB o) true,
          if scWeighted o then rangeChk s o (ptrAddr (o.ptr 50)) (scCount o * scWB o) true else badIf false,
          if scTarget o then rangeChk s o (scDest o) (65536 * scDest64 o) true else badIf false] with
      | some x => pure (some x)
      | none => do
        captureTbl o.ref (scTable o) d true
        if scFinal o && !scTarget o then
          each ((ctxAt s (scCtx o)).mask.filter fun t => t != scTable o) fun t => do
            let s ← st
            match tdGet s t with
            | some d => captureTbl o.ref t d true
            | none => skip
        else skip
        if scTarget o then setRegion o.ref (regionOf s o.d (scDest o) (65536 * scDest64 o) true) else skip
        pure none

/-! ### Pre-reduction (R72) -/

/-- A group's gradient: multiplicity or exact weight sum times the row, rounded once. -/
def groupGrad (weighted : Bool) (ws : List Nat) (g : List FV) : List Nat :=
  let f : FV := if weighted then sumFV (ws.map v32) else .fin false ws.length 0
  g.map fun v => r32 (v.mul f)

/-- Groups in list order: (row, gradient). `es` are the indices with segment and weight. -/
def preGroups (segd weighted : Bool) (es : List (Nat × Nat × Nat)) (grad : Nat → List FV) : List (Nat × List Nat) :=
  if segd then
    (es.foldl (fun (a : List (Nat × Nat)) e => if a.contains (e.1, e.2.1) then a else a ++ [(e.1, e.2.1)]) []).map
      fun k => (k.1, groupGrad weighted ((es.filter fun e => e.1 == k.1 && e.2.1 == k.2).map fun e => e.2.2) (grad k.2))
  else ((List.range es.length).zip es).map fun e => (e.2.1, groupGrad weighted [e.2.2.2] (grad e.1))

/-- Each slot's chain of fp32 additions in list order. -/
def preReduce (gs : List (Nat × List Nat)) : List (Nat × List Nat) :=
  (uniqKeys [] (gs.map Prod.fst)).map fun r =>
    (r, ((gs.filter fun g => g.1 == r).map Prod.snd).foldl
      (fun a x => if a.isEmpty then x else List.zipWith fadd a x) [])

/-! ### Retirement (R78) -/

/-- DEST bytes of a TARGET 1 record. -/
def destRec (n : Nat) : Nat := 64 + cdiv (4 * n) 64 * 64

/-- The bound R78 checks DEST against. -/
def destBound (s : State) (c : Nat) : Nat :=
  64 + ((s.sac.ents.filter fun e => e.ctx == c).map fun e => destRec e.sums.length).sum
    + ((ctxAt s c).spills.map fun x => destRec x.count).sum

/-- A record read back from the log: its elements, or none when a sector is uncorrectable. -/
def spillRead (c : Nat) (x : SacCtx) (p : Spill) (who : Option Who) : Act s₀ (Option (List XSum)) := do
  let n := spillBytes p.count p.wide
  let bs ← mapA (logPieces p.off n) fun q => do
    let s ← st
    hbmRead (logAddr s c x p.seg q.1) q.2 who
  if p.bad ∨ bs.any (fun b => match b with | .ok _ => false | .error _ => true) then pure none
  else pure (some (spillElems (bs.flatMap fun b => match b with | .ok l => l | .error _ => []) p.count p.wide))

/-- A touched row of the pass: its key and its exact sum, or none when a record of it was lost. -/
structure Touched where
  table : Nat
  row   : Nat
  count : Nat
  sum   : Option (List XSum)
deriving DecidableEq, Repr

def joinTouched (l : List Touched) (p : Spill) (xs : Option (List XSum)) : List Touched :=
  if l.any fun t => t.table == p.table && t.row == p.row && t.count == p.count then
    l.map fun t =>
      if t.table == p.table && t.row == p.row && t.count == p.count then
        { t with sum := match t.sum, xs with
            | some a, some b => some (List.zipWith xsAdd a b)
            | _, _ => none }
      else t
  else l ++ [⟨p.table, p.row, p.count, xs⟩]

/-- The base of a table that a FINAL operation writes: the one it captured at its admission (R23, R27, R86). -/
def retireBase (o : Op) (t : Nat) (d : TDesc) : Bool :=
  match o.hold.find? fun h => h.1 == t with
  | some h => h.2.1
  | none => captureBase d true

/-- TARGET 0: one touched row gets row + sum, rounded once into its format (R52, R78). -/
def retireRow (o : Op) (t : Touched) : Act s₀ Nat := do
  let who := o.who
  let s ← st
  match tdGet s t.table, t.sum with
  | none, _ => pure OK
  | some _, none => pure DATA_FAULT
  | some d, some xs =>
    match fmtOf d.fmt with
    | none => pure OK
    | some f =>
      match FmtOf.spec f with
      | none => pure OK
      | some sp => do
        let b := retireBase o t.table d
        match ← readRow t.table d t.row b who with
        | .error e => pure e
        | .ok old => do
          let new := (List.zipWith (fun v x => (sp.round (xsVal (xsAdd (xsOf v) x)) false).code) (rowVals f old) xs).flatMap
            (leBytes (FmtOf.bytes f))
          let e ← writeRow t.table d t.row b (new ++ old.drop new.length) who
          countLoad t.table t.row 1
          pure e

/-- A free order of a list: at each place any element that is left (R78 leaves the order open). -/
def freeOrder (nonce : Nat) : Nat → List α → List α
  | 0, l => l
  | f + 1, l =>
    let i := (Config.freeWord nonce f).toNat % max 1 l.length
    match l[i]? with
    | some x => x :: freeOrder nonce f (l.take i ++ l.drop (i + 1))
    | none => l

/-- TARGET 1: the header and one record for each touched row. -/
def destImage (ts : List Touched) : List Byte :=
  padTo 64 (leBytes 4 ts.length) ++ ts.flatMap fun t =>
    padTo 64 (leBytes 8 t.row) ++ padTo (destRec t.count - 64)
      ((t.sum.getD []).flatMap fun x => leBytes 4 (r32 (xsVal x)))

/-- A context goes back to IDLE with its chunks free. -/
def freeCtx (c : Nat) : Act s₀ Unit := do
  setCtx c ⟨0, 0, [], [], [], []⟩
  modSac fun y => { y with ents := y.ents.filter fun e => e.ctx != c }

/-- Insertion by element count and channel segment, ascending (R78); equal ones keep their order. -/
def insSpill (x : Spill) : List Spill → List Spill
  | [] => [x]
  | y :: ys => if 256 * x.count + x.seg < 256 * y.count + y.seg then x :: y :: ys else y :: insSpill x ys

/-- The sums of a table that lost an acknowledgement are undefined (R73): free values. -/
def freeSum (nonce : Nat) (t : Touched) : Touched :=
  { t with sum := t.sum.map fun l => (List.range l.length).map fun i => xsOf (v32 (Config.freeWord nonce (t.row * 1024 + i)).toNat) }

/-- What a FINAL operation with TARGET 0 or 1 writes now may go into its table: an inactive base after its drain and its
catch-up pass (R24). -/
def retireReady (s : State) (o : Op) : Bool :=
  if scTarget o then
    match Loc.ofAddr (scDest o) with
    | .table t _ _ => (tdGet s t).all fun d => retireBase o t d == d.active || writable s t d
    | _ => true
  else ((ctxAt s (scCtx o)).mask.filterMap fun t => (tdGet s t).map fun d => (t, d)).all fun x =>
    retireBase o x.1 x.2 == x.2.active || writable s x.1 x.2

/-- The pass itself (R78): the records of the context, by ascending element count and segment, are summed and written, and
the context is free. -/
def retirePass (o : Op) : Act s₀ Unit := do
  let c := scCtx o
  let s ← st
  let x := ctxAt s c
  if x.st = 2 then do
    freeCtx c
    endOp o.ref REFUSED_FULL 0 0 (some 0)
  else do
    let live := (x.spills.filter fun p => (tdGet s p.table).isSome).foldl (fun l p => insSpill p l) []
    let ts ← foldA live [] fun l p => do
      let r ← spillRead c x p o.who
      pure (joinTouched l p r)
    let s ← st
    if x.lost.isEmpty then skip else emit .nonce
    let ts := mapIf (fun t => x.lost.contains t.table) (freeSum s.nonce) ts
    let e ← if scTarget o then do
        let s ← st
        let ok := ts.filter fun t => t.sum.isSome
        let e ← deliver o (scDest o) (destImage (freeOrder s.nonce ok.length ok)) true
        pure (if e ≠ OK then e else if ok.length < ts.length then DATA_FAULT else OK)
      else foldA ts OK fun e t => do
        let r ← retireRow o t
        pure (if e ≠ OK then e else r)
    each ts fun t => lpeCount (watchOf s o.d 5 t.table) o.d o.step
      ((t.sum.getD []).map fun x => judge .fp32 (r32 (xsVal x)) 0 (xsVal x).isZero false)
    freeCtx c
    finish o.ref e 0 o.counts.toNat

/-- A FINAL operation (R77, R78): its checks, and the start of the pass, which then holds the accumulator until the
operation's next command; a context that holds nothing is free at once. The pass waits for transient entries, and one pass
for another. -/
def retire (o : Op) : Act s₀ Unit := do
  let c := scCtx o
  let s ← st
  let x := ctxAt s c
  if x.st = 2 then do
    freeCtx c
    endOp o.ref REFUSED_FULL 0 0 (some 0)
  else if scTarget o ∧ 65536 * scDest64 o < destBound s c then endClean o.ref BAD_DESCRIPTOR 0
  else if !retireReady s o ∨ !(transients s).isEmpty ∨ (retiring s).isSome then waitRes o
  else do
    putOp { resumed s o with phase := .running, work := .xfer 2 }
    freeCells o.ref
    spillAll
    let s ← st
    let x := ctxAt s c
    if x.st = 2 ∨ x.spills.isEmpty then retirePass o else setCtx c { x with st := 3 }

/-! ### Running -/

/-- The contributions of a SCATTER_ADD, local into the accumulator and remote to their owners (R73). -/
def scContribute (o : Op) (d : TDesc) (gs : List (Nat × List Nat)) : Act s₀ Nat :=
  foldA gs OK fun e g => do
    let s ← st
    let t := scTable o
    if e ≠ OK then pure e
    else if ownsRow s t d g.1 then do
      sacAdd (scCtx o) t g.1 g.2
      pure OK
    else
      let a := 3 * 2 ^ 62 + t * 2 ^ 50 + g.1 * 2 ^ 16
      let n := min 4096 (4 * g.2.length)
      useRow t g.1
      request (some o.ref) (ownerOf s t d g.1) 0x14 o.d a n 1 1 .contrib (.contrib (scCtx o) t g.1 g.2)

/-- The index list passes the unique-index table (R55, R57): whether the operation may go on to its pre-reduction. -/
def scRounds (o : Op) (d : TDesc) (idx so : List Nat) : Act s₀ Bool := do
  let s ← st
  let wait (o : Op) : Act s₀ Bool := do
    waitRes o
    pure false
  let bad (e : Nat) : Act s₀ Bool := do
    endClean o.ref e 0
    pure false
  if o.uitLeft = some 0 then pure true
  else if scSegd o ∧ (so.headD 1 ≠ 0 ∨ so.getLastD 0 ≠ scCount o ∨ (so.zip (so.drop 1)).any (fun x => decide (x.2 < x.1))) then
    bad BAD_DESCRIPTOR
  else match uitLook s o false with
    | .wait => wait o
    | _ => do
      uitDrop
      if idx.any fun i => decide (d.rows ≤ i) then bad BAD_DESCRIPTOR
      else do
        let m ← mapChks (scTable o) d (uniqKeys [] idx) o.who
        if m ≠ 0 then bad m
        else do
          let rounds := uitRounds 0 (uniqKeys [] idx).length
          let left := o.uitLeft.getD rounds
          modOp o.ref fun x => { x with counts := BitVec.ofNat 64 rounds }
          if ← uitPass o.ref left left then pure true
          else do
            let s ← st
            match findOp s o.ref with
            | some x => wait x
            | none => pure false

/-- The lists are read, the index list passes the unique-index table, and the slots are pre-reduced in the cell, which the
operation holds until its contributions are accepted (R72, R100). -/
def scStart (o : Op) (ms : List EngMiss) (d : TDesc) (bi bs bg bw : List Byte) : Act s₀ Unit := do
  let idx := (chunks (scIdxB o) bi).map leNat
  let so := if scSegd o then (chunks 4 bs).map leNat else [0, scCount o]
  if !(← scRounds o d idx so) then skip
  else do
    let s ← st
    match findOp s o.ref with
    | none => skip
    | some o =>
      if cellBusy s (scCell o) then waitRes o
      else do
        setCell (scCell o) { cellAt s (scCell o) with holder := some (o.ref, 1) }
        emit (.mem .bench (.smear (benchKey (scCell o) (65536 * scOff o)) (65536 * scLen o)))
        let n := rowElems d
        let fmt : FSpec := if scGradB o = 2 then bf16 else fp32
        let ws := if scWeighted o then (chunks (scWB o) bw).map fun b => if scWB o = 2 then leNat b * 65536 else leNat b
          else []
        let rows := chunks (n * scGradB o) bg
        let grad := fun i => (chunks (scGradB o) (rows.getD i [])).map fun b => fmt.val (leNat b)
        let es := (List.range (so.length - 1)).flatMap fun g =>
          (List.range (so.getD (g + 1) 0 - so.getD g 0)).map fun i =>
            let k := so.getD g 0 + i
            (idx.getD k 0, g, ws.getD k 0)
        let gs := preReduce (preGroups (scSegd o) (scWeighted o) es grad)
        putOp { resumed s o with phase := .running, work := .xfer 1 }
        match ← engMiss [scCell o] o ms with
        | some m => endOp o.ref RESIDUE_FAULT (residueDetail m.cell.val 2)
        | none => do
          let e ← scContribute o d gs
          if e ≠ OK then endOp o.ref e 0 else skip

/-- A SCATTER_ADD goes as far as it can (R72 to R79). -/
def scatterGo (r : OpRef) (ms : List EngMiss) : Act s₀ Unit := do
  let s ← st
  match findOp s r with
  | none => skip
  | some o =>
    if o.code ≠ 4 ∨ !([OpPhase.ready, .running, .waitRes].contains o.phase) ∨ o.work = .xfer 0 then skip
    else do
      let begun := o.work = .xfer 2
      match tdGet s (scTable o), o.work with
      | _, .xfer _ => skip
      | none, _ => endOp r BAD_DESCRIPTOR 0
      | some d, _ =>
        if (cellAt s (scCell o)).resetting then endOp r TARGET_RESET 0
        else if (retiring s).isSome then waitRes o
        else if scCount o = 0 then putOp { resumed s o with phase := .running, work := .xfer 1 }
        else do
          let n := rowElems d
          let fi ← fetch o (ptrAddr (o.ptr 32)) (scCount o * scIdxB o) true
          let fs ← if scSegd o then fetch o (ptrAddr (o.ptr 38)) (4 * (scSegs o + 1)) true else pure (.got [])
          let fg ← fetch o (ptrAddr (o.ptr 44)) (scRows o * n * scGradB o) true
          let fw ← if scWeighted o then fetch o (ptrAddr (o.ptr 50)) (scCount o * scWB o) true else pure (.got [])
          match fi, fs, fg, fw with
          | .got bi, .got bs, .got bg, .got bw => scStart o ms d bi bs bg bw
          | .fail e, _, _, _ => endOp r e 0
          | _, .fail e, _, _ => endOp r e 0
          | _, _, .fail e, _ => endOp r e 0
          | _, _, _, .fail e => endOp r e 0
          | _, _, _, _ => skip
      let s ← st
      match findOp s r with
      | none => skip
      | some o =>
        if o.work = .xfer 1 ∧ (o.phase = .running ∨ o.phase = .waitRes) ∧ (reqsOf s r).isEmpty then
          if scFinal o then retire o else endOp r OK 0 o.counts.toNat
        else if begun ∧ o.phase = .running then retirePass o
        else skip

/-- SCATTER_ADD (R70): the admitted operation runs, or goes on. -/
def execScatterAdd (r : OpRef) (m : List EngMiss) (s : State) : Host.Outcome State Fault Refusal := perform s (scatterGo r m)

/-! ### Contributions of other chips (R71, R73) -/

/-- The owner takes a contribution in, during retirement and in SPILL_FULL too. -/
def serveContrib (v : Via) (pk : Packet) (c t r : Nat) (g : List Nat) : Act s₀ Unit := do
  let s ← st
  if !bit (regOf s (sacCtxW c 0)) 0 then refuseV v pk BAD_DESCRIPTOR
  else
    let take : Act s₀ Unit := do
      sacAdd c t r g
      ackRow v pk 0x94 t r
    match tdGet s t with
    | some d => rowServe pk t d r take
    | none => take

/-- CONTRIB (R73): a contribution arrives at its owner. -/
def execContrib (p : Fin 8) (pk : Packet) (s : State) : Host.Outcome State Fault Refusal :=
  perform s <| serving p pk 0x14 fun v =>
    match pk.body with
    | .contrib c t r g => if c < 16 then serveContrib v pk c t r g else refuseV v pk BAD_DESCRIPTOR
    | _ => skip

/-- CONTRIB_ACK (R73): the owner has accepted a contribution, or refused it. -/
def execContribAck (p : Fin 8) (pk : Packet) (s : State) : Host.Outcome State Fault Refusal :=
  perform s <| answered p pk 0x94 fun q =>
    if q.kind ≠ .contrib then skip
    else if refusalOf pk ≠ 0 then reqFail q (refusalOf pk) 0
    else do
      match pk.body with
      | .publish e => cacheEntry e
      | _ => skip
      dropReq q.optag
      match q.op with
      | some r => scatterGo r []
      | none => skip

/-- CONTRIB_ACK_TIMEOUT (R73): an acknowledgement did not arrive in TIMEOUT_US. -/
def execContribAckTimeout (r : OpRef) (s : State) : Host.Outcome State Fault Refusal := perform s do
  let s ← st
  let t := 1000 * fld (regOf s (GTH + 12)) 16 16
  let late := (reqsOf s r).filter fun q => q.kind == .contrib && due s q.since t
  if late.isEmpty then skip
  else do
    each late contribLost
    endOp r REMOTE_TIMEOUT 0

end Sys2Proof.Machine
end

