-- ==== Sys2Proof/Machine/Update.lean ====
section
/-! DEFINITION. UPDATE (R150 to R159): its passes over a dense shard or over the rows of
merged-gradient records, and rows updated for another chip (R98). -/

namespace Sys2Proof.Machine

variable {s₀ : State}

/-! ### The descriptor (Table 8.1) -/

def upTensor (o : Op) : Nat := o.at 16 2
def upRule (o : Op) : Nat := o.bits 18 0 3
def upTable (o : Op) : Bool := o.flag 18 3
def upMode (o : Op) : Nat := o.bits 18 4 2
def upGroup (o : Op) : Nat := o.bits 19 0 4
def upSeed (o : Op) : Nat := o.bits 19 4 4
def upRows (o : Op) : Nat := o.at 20 4
def upCols (o : Op) : Nat := o.at 24 4
def upRow0 (o : Op) : Nat := o.at 28 4
def upWeight (o : Op) : Nat := o.ptr 32
def upState (o : Op) : Nat := o.ptr 38
def upGrad (o : Op) : Nat := o.ptr 44
def upAux (o : Op) : Nat := o.ptr 50
def upVerdict (o : Op) : Bool := o.flag 56 0
def upCol (o : Op) : Nat := o.bits 56 1 2
def upCells (o : Op) : Nat := o.at 60 4
def upElems (o : Op) : Nat := upRows o * upCols o
def upWB (o : Op) : Nat := if upMode o = 0 then 4 else 2

def upFieldsBad (o : Op) : Bool :=
  upRule o == 0 || decide (4 < upRule o) || upMode o == 3 || !o.zero 18 6 2 || !o.zero 56 3 5 || !o.zero 57 0 24
  || upCols o == 0 || decide (65536 < upCols o) || upCells o == 0
  || ptrBad (upWeight o) || ptrBad (upState o) || ptrBad (upGrad o) || ptrBad (upAux o)
  || (if upTable o then
        !o.zero 17 4 4 || upRows o != 0 || upRow0 o != 0 || upWeight o != 0 || upState o != 0 || upAux o != 0
      else upRows o == 0 || decide (16777216 < upRows o) || (upMode o == 2 && upAux o != 0))

/-- Dense optimiser state (R157): bytes of all its areas. -/
def upStateBytes (rule rows cols : Nat) (mom : Bool) : Nat :=
  match rule with
  | 1 => cdiv (4 * rows) 64 * 64 + cdiv (4 * cols) 64 * 64 + (if mom then 4 * rows * cols else 0)
  | 2 => cdiv (rows * cols) 16 * 128
  | 3 => 4 * rows * cols
  | _ => 4 * rows

def upMom (s : State) (o : Op) : Bool := bit (regOf s (UPD + 0x110 + 32 * upGroup o)) 0

/-- The ranges a dense UPDATE names: (pointer, length); those it writes come first. -/
def upRanges (s : State) (o : Op) : List (Nat × Nat) :=
  [(upWeight o, upWB o * upElems o), (upState o, upStateBytes (upRule o) (upRows o) (upCols o) (upMom s o))]
    ++ (if upMode o = 1 then [(upAux o, upElems o)]
        else if upMode o = 0 ∧ upAux o ≠ 0 then [(upAux o, 2 * upElems o)] else [])
    ++ [(upGrad o, 4 * upElems o)]

/-- The table checks of an UPDATE (R150). -/
def upTableChk (o : Op) (d : TDesc) : Adm :=
  firstBad [(d.rule == 1 || decide (1 < d.fmt), NOT_SUPPORTED, 0),
    badIf (d.rule != upRule o || (d.fmt == 0) != (upMode o == 0) || decide (rowElems d < upCols o))]

/-- What an UPDATE takes at its admission: the seed, the finite verdict when it is final (R153), and its group's outputs
when they are computed or held (R161). Where it lacks one of them it waits from now on. -/
def upTake (o : Op) : Act s₀ Unit := do
  let s ← st
  let v := if upVerdict o then verdictOf s (upCol o) o.step.toNat else none
  let due := bit (regOf s SCH) 0 && s.schDue.getLsbD (upGroup o)
  let out (k : Nat) : Word := BitVec.ofNat 32 (regOf s (schW (upGroup o) k))
  modOp o.ref fun x => { x with
    capB := privOf s o.d (SMP + 0x1000 + 8 * upSeed o) + 2 ^ 32 * privOf s o.d (SMP + 0x1004 + 8 * upSeed o),
    work := .update ⟨v, if due then none else some (out 9, out 10), []⟩ }
  if due || (upVerdict o && v.isNone) then
    modOp o.ref fun x => { x with phase := .waitRes, delayed := true, t0 := s.ts }
  else skip

def admUpdate (o : Op) : Act s₀ Adm := do
  let s ← st
  let g := regOf s (schW (upGroup o) 0)
  let v := if upVerdict o then verdictOf s (upCol o) o.step.toNat else none
  match firstBad [badIf (upFieldsBad o), (!bit (regOf s UPD) 0, NOT_SUPPORTED, 0), cellShare s o.d (upCells o),
      ((bitsOf 32 (upCells o)).any fun c => !cellStitch s c 0, REFUSED_QUOTA, 1),
      badIf (!bit g 0 || fld g 1 2 != o.d), (upVerdict o && v.isNone && groupLost s (upCol o), FABRIC_LOST, 0)] with
  | some x => pure (some x)
  | none => do
    upTake o
    if upTable o then
      match tableChk s o (o.bits 16 0 12) with
      | (true, e, c) => pure (some (e, c))
      | _ =>
        match tdGet s (o.bits 16 0 12) with
        | none => pure (some (BAD_DESCRIPTOR, 0))
        | some d =>
          match upTableChk o d with
          | some x => pure (some x)
          | none => do
            match firstBad [rangeChk s o (ptrAddr (upGrad o)) 64 true] with
            | some x => pure (some x)
            | none => do
              captureTbl o.ref (o.bits 16 0 12) d true
              pure none
    else match firstBad ((upRanges s o).map fun x => rangeChk s o (ptrAddr x.1) x.2 true) with
      | some x => pure (some x)
      | none => do
        setRegion o.ref ((upRanges s o).dropLast.flatMap fun x => regionOf s o.d (ptrAddr x.1) x.2 true)
        pure none

/-! ### Ranges with uncorrectable lines -/

/-- Bytes and the 64-byte lines of them that cannot be read, or a STATUS that ends the whole. -/
structure Lines where
  bytes : List Byte
  bad   : List Nat
deriving DecidableEq, Repr

def locPlus (l : Loc) (n : Nat) : Loc :=
  match l with
  | .hbm o => .hbm (o + n)
  | .bench c o => .bench c (o + n)
  | .well o => .well (o + n)
  | l => l

/-- A read that goes on past uncorrectable lines; `bad` lists their offsets from the start ÷ 64 of the address. -/
def readLines (l : Loc) (n : Nat) (who : Option Who) : Act s₀ (Except Nat Lines) := do
  match l with
  | .hbm o => do
    let s ← st
    if hbmCap s < o + n then pure (.error BAD_DESCRIPTOR)
    else do
      let e ← hbmTouch o n who
      let s ← st
      if e = TARGET_RESET then pure (.error e)
      else pure (.ok ⟨seen s who 0 s.hbm o n, (badSecs s o n).filter fun x => secState s x == 2⟩)
  | l => do
    match ← locRead l n who with
    | .ok b => pure (.ok ⟨b, []⟩)
    | .error e => pure (.error e)

/-- The byte `i` of a range at `l` lies in a line that was read. -/
def lineOk (l : Loc) (x : Lines) (i : Nat) : Bool :=
  x.bad.isEmpty || (match l with | .hbm o => !x.bad.contains ((o + i) / 64) | _ => true)

/-- New bytes of a range written, the lines that could not be read left as they were. -/
def writeLines (l : Loc) (x : Lines) (b : List Byte) (who : Option Who) : Act s₀ Nat := do
  match l with
  | .hbm o =>
    if x.bad.isEmpty then hbmWrite o b who
    else foldA ((secList o b.length).filter fun k => !x.bad.contains k) OK fun e k => do
      let p := secPiece o b k
      let r ← hbmWrite p.1 p.2 who
      pure (if e = OK then r else e)
  | l => locWrite l b who

/-! ### One piece: a dense shard, or the row of a record -/

/-- Where a piece lies: weights, state, remainders and bf16 copy; for a table row its state layout is
that of one entry. -/
structure Piece where
  rows  : Nat
  cols  : Nat
  g     : List Nat
  gOk   : List Bool
  w     : Loc
  st    : Loc
  stLen : Nat
  rem   : Option (Loc × Nat)
  copy  : Option Loc
  e0    : Nat
  tail  : Bool
deriving DecidableEq, Repr

/-- Byte offset of m of element i in interleaved state, of n elements; v lies behind the line, or
behind the last short group of a table entry (R157). -/
def adamOff (tail : Bool) (n i : Nat) : Nat × Nat :=
  let k := i / 16
  let r := if tail then min 16 (n - 16 * k) else 16
  (128 * k + 4 * (i % 16), 128 * k + 4 * r + 4 * (i % 16))

/-- Whose update it is: domain, step and, for an operation of this chip, the operation. -/
structure UpFor where
  d    : Nat
  step : Word
  who  : Option Who
deriving DecidableEq, Repr

def upFor (o : Op) : UpFor := ⟨o.d, o.step, o.who⟩

/-- A word of a byte string replaced. -/
def putAt (b : List Byte) (o w v : Nat) : List Byte := b.take o ++ leBytes w v ++ b.drop (o + w)

/-- The state words an element's rule reads and writes, as byte offsets into the state area. -/
def stOffs (h : Hyper) (p : Piece) (i : Nat) : List Nat :=
  match h.rule with
  | 2 => let x := adamOff p.tail (p.rows * p.cols) i; [x.1, x.2]
  | 3 => [4 * i]
  | 4 => [4 * (i / p.cols)]
  | _ => if h.mom then [cdiv (4 * p.rows) 64 * 64 + cdiv (4 * p.cols) 64 * 64 + 4 * i] else []

/-- An element's outcome: its stored weight, and the state words of its own written. -/
structure ElOut where
  w  : Stored
  sv : List (Nat × Res)
deriving DecidableEq, Repr

/-- The new weight and state words of element i (row r) of a piece, `w` its weight, `sv` its state
words; `aux` is the update u of FACT or the new row statistic of SROW. -/
def elOut (h : Hyper) (p : Piece) (i w : Nat) (sv : List Nat) (aux : Res) : ElOut :=
  let g := p.g.getD i 0
  let offs := stOffs h p i
  let put (x : Res) := storeW h (p.e0 + i) x
  match h.rule with
  | 2 => let t := adamEl h g w (sv.getD 0 0) (sv.getD 1 0); ⟨put t.2.2, offs.zip [t.1, t.2.1]⟩
  | 3 => let t := msgdEl h g w (sv.getD 0 0); ⟨put t.2, offs.zip [t.1]⟩
  | 4 => ⟨put (srowEl h g w aux.code), []⟩
  | _ => let t := factEl h aux.code w (sv.getD 0 0); ⟨put t.2, offs.zip [t.1]⟩

/-- What a rule needs of a row before its elements: u of FACT, element by element, or s of SROW. -/
def rowAux (h : Hyper) (p : Piece) (st : List Byte) (fr fc : List Nat) (rbar r : Nat) : List Res :=
  let gs := (p.g.drop (r * p.cols)).take p.cols
  match h.rule with
  | 1 => (factRow h gs (fr.getD r 0) rbar fc).map fun u => ⟨u, false⟩
  | 4 => List.replicate p.cols (srowStat gs (leAt st (4 * r) 4))
  | _ => List.replicate p.cols ⟨0, false⟩

/-- Runs of elements that were processed, each with its first index. -/
def elRuns {α : Type} : List (Nat × Option α) → List (Nat × List α)
  | [] => []
  | (_, none) :: l => elRuns l
  | (i, some e) :: l => match elRuns l with
    | (j, es) :: t => if j = i + 1 then (i, e :: es) :: t else (i, [e]) :: (j, es) :: t
    | [] => [(i, [e])]

/-- The state and write passes of a piece; answers OK, or DATA_FAULT when a line could not be read. -/
def runPiece (o : UpFor) (h : Hyper) (wid : Nat) (p : Piece) (put : Lines → List Byte → Act s₀ Nat) : Act s₀ Nat := do
  let n := p.rows * p.cols
  let wb := if h.mode = 0 then 4 else 2
  match ← readLines p.w (wb * n) o.who with
  | .error e => pure e
  | .ok wl =>
    match ← readLines p.st p.stLen o.who with
    | .error e => pure e
    | .ok sl => do
      let rl ← match p.rem with
        | some r => readLines r.1 r.2 o.who
        | none => pure (.ok ⟨[], []⟩)
      match rl with
      | .error e => pure e
      | .ok rl => do
        let word (off : Nat) : Nat := leAt sl.bytes off 4
        let cBase := cdiv (4 * p.rows) 64 * 64
        let (fr, fc) := if h.rule = 1 then
            factStats h (chunks p.cols p.g) p.cols ((List.range p.rows).map fun r => word (4 * r))
              ((List.range p.cols).map fun j => word (cBase + 4 * j))
          else ([], [])
        let rbar := meanOf (fr.map Res.code)
        let aux := (List.range p.rows).flatMap fun r =>
          rowAux h p sl.bytes (fr.map Res.code) (fc.map Res.code) rbar r
        let remOk (i : Nat) : Bool := match p.rem with | some r => lineOk r.1 rl i | none => true
        let outs := ((List.range n).zip aux).map fun x =>
          let i := x.1
          let good := p.gOk.getD i true && lineOk p.w wl (wb * i) && remOk i
            && ((stOffs h p i).all fun off => lineOk p.st sl off)
          if good then
            let w := loadW h.mode (leAt wl.bytes (wb * i) wb) (leAt rl.bytes i 1)
            some (elOut h p i w ((stOffs h p i).map word) x.2)
          else none
        let idx := (List.range n).zip outs
        let wNew := idx.flatMap fun x => match x.2 with
          | some e => leBytes wb e.w.code
          | none => (wl.bytes.drop (wb * x.1)).take wb
        let rNew := idx.flatMap fun x => match x.2 with
          | some e => leBytes 1 e.w.rem
          | none => (rl.bytes.drop x.1).take 1
        let sv := outs.flatMap fun x => match x with | some e => e.sv | none => []
        let stat := ((List.range p.rows).zip fr).map (fun x => (4 * x.1, x.2))
          ++ ((List.range p.cols).zip fc).map (fun x => (cBase + 4 * x.1, x.2))
          ++ (if h.rule = 4 then ((List.range p.rows).map fun r => (4 * r, aux.getD (r * p.cols) ⟨0, false⟩)).filter
              fun x => lineOk p.st sl x.1 else [])
        let sNew := (stat ++ sv).foldl (fun b x => putAt b x.1 4 x.2.code) sl.bytes
        let done := outs.filterMap id
        let e1 ← put wl wNew
        let e2 ← writeLines p.st sl sNew o.who
        let e3 ← match p.rem with
          | some r => writeLines r.1 rl rNew o.who
          | none => pure OK
        let e4 ← match p.copy with
          | some c => foldA (elRuns idx) OK fun e x => do
              let r ← locWrite (locPlus c (2 * x.1)) (x.2.flatMap fun y => leBytes 2 (rbf (v32 y.w.code))) o.who
              pure (if e = OK then r else e)
          | none => pure OK
        let s ← st
        let f : Fmt := if h.mode = 0 then .fp32 else .bf16
        lpeCount (watchOf s o.d 2 wid) o.d o.step (done.map fun e => judge f e.w.code 0 e.w.exact0 false)
        lpeCount (watchOf s o.d 3 wid) o.d o.step
          ((stat ++ sv).map fun x => judge .fp32 x.2.code 0 x.2.exact0 false)
        let sat := done.countP fun e => e.w.remSat
        if sat = 0 then skip else bump (UPD + 0x14) sat
        bump64 (UPD + 0x18) done.length
        pure (if done.length < n then DATA_FAULT
          else if e1 ≠ OK then e1 else if e2 ≠ OK then e2 else if e3 ≠ OK then e3 else e4)

/-! ### Rows of a table -/

/-- The piece of a table row at this chip. -/
def rowPiece (s : State) (t : Nat) (d : TDesc) (r : Nat) (b : Bool) (h : Hyper) (cols : Nat) (g : List Nat) : Piece :=
  let x := rowAt s t d r
  ⟨1, cols, g, [], .hbm (x.base b), .hbm x.st, if h.rule = 2 then 8 * cols else if h.rule = 3 then 4 * cols else 4,
    if h.mode = 1 then some (.hbm (x.st + ruleBytes d), cols) else none, none, r * cols, true⟩

/-- A row's weights written as one unit, with padding, touched bit and DIRTY mark (R20, R81, R90, R95). -/
def putRow (t : Nat) (d : TDesc) (r : Nat) (b : Bool) (who : Option Who) (x : Lines) (bs : List Byte) : Act s₀ Nat := do
  let s ← st
  let p := rowAt s t d r
  if x.bad.isEmpty then writeRow t d r b (bs ++ (s.hbm.getN (p.base b + bs.length) (d.rowBytes - bs.length))) who
  else do
    let e ← writeLines (.hbm (p.base b)) x bs who
    if d.plink && b != d.active then markInactive t else skip
    let f ← touchRow d p.li
    dirtyRow t r
    pure (if e = OK then f else e)

/-- A row's weights and state become undefined (R154). -/
def smearRow (t : Nat) (d : TDesc) (r : Nat) (b : Bool) : Act s₀ Unit := do
  let s ← st
  let p := rowAt s t d r
  emit (.mem .hbm (.smear (p.base b) d.rowBytes))
  emit (.mem .hbm (.smear p.st (stateBytes d)))

/-- The rule applied to a row that stands here. -/
def updateRow (o : UpFor) (h : Hyper) (t : Nat) (d : TDesc) (r : Nat) (b : Bool) (cols : Nat) (g : List Nat) : Act s₀ Nat := do
  let s ← st
  if tblBad s t r then pure DATA_FAULT
  else do
    let e ← runPiece o h (0x10000 + t) (rowPiece s t d r b h cols g) (putRow t d r b o.who)
    countLoad t r 1
    pure e

/-! ### Running -/

/-- The group's policy is SKIP_STEP (R243). -/
def skipStep (s : State) (g : Nat) : Bool := !bit (regOf s (COL + 0x100 + 32 * g)) 9

/-- The base and the version of its table that an UPDATE captured (R27, R86). -/
def upBase (o : Op) (d : TDesc) : Bool := match o.hold with | (_, b, _) :: _ => b | [] => captureBase d true
def upVer (o : Op) (d : TDesc) : Word := match o.hold with | (_, _, v) :: _ => v | [] => d.ver

/-- What an UPDATE waits for before its first pass: verdict, regulator, cells, and the drain and
catch-up of its table (R24, R151, R153, R161). -/
def upWaits (s : State) (o : Op) : Bool :=
  (upVerdict o && (takenVerdict s o).isNone)
  || (o.upWork.sch.isNone && bit (regOf s SCH) 0 && s.schDue.getLsbD (upGroup o))
  || (bitsOf 32 (upCells o)).any (cellBusy s)
  || (upTable o && (match tdGet s (o.bits 16 0 12) with
      | some d => upBase o d != d.active && !writable s (o.bits 16 0 12) d
      | none => false))

def upHyper (s : State) (o : Op) : Hyper :=
  hyperOf s (upGroup o) (upRule o) (upMode o) o.step.toNat
    (if upTable o then 0x10000 + o.bits 16 0 12 else upTensor o) o.capB
    (match o.upWork.sch with | some x => x.1.toNat | none => regOf s (schW (upGroup o) 9))
    (match o.upWork.sch with | some x => x.2.toNat | none => regOf s (schW (upGroup o) 10))

/-- The local place of a range of an UPDATE. -/
def upLoc (s : State) (o : Op) (p n : Nat) : Option Loc :=
  match place s o.d (ptrAddr p) n true with
  | .here l => some l
  | _ => none

/-- The records of merged gradients (R78): row and gradient codes. -/
def recordsOf (b : List Byte) (n cols : Nat) : List (Nat × List Nat) :=
  (List.range n).map fun i =>
    let o := 64 + i * destRec cols
    (leAt b o 8, (List.range cols).map fun j => leAt b (o + 64 + 4 * j) 4)

/-- The step is skipped (R153). -/
def upSkip (r : OpRef) : Act s₀ Unit := do
  bump (UPD + 0x10)
  endClean r OK_STEP_SKIPPED 0

/-- The step is skipped for this gradient. -/
def upSkips (s : State) (o : Op) (g : List Nat) : Bool :=
  if upVerdict o then takenVerdict s o == some true && skipStep s (upCol o)
  else g.any fun c => !(v32 c).isFin

/-- Two ranges meet in [lo, lo + n). -/
def meet (a an b bn : Nat) : Nat × Nat := let lo := max a b; (lo, min (a + an) (b + bn) - lo)

/-- The other UPDATEs that are admitted and have no record yet: no escapement orders this one with them (R19, R154). -/
def upOthers (s : State) (o : Op) : List Op :=
  s.ops.filter fun x => x.ref != o.ref && x.code == 6 && x.phase != .waitEsc && x.phase != .waitCap

/-- The unordered UPDATEs that are still to run remember what this one has written. -/
def upTell (o : Op) (l : List (Nat × Nat × Nat)) : Act s₀ Unit := do
  let s ← st
  let later (x : Op) : Bool := x.ref != o.ref && x.code == 6 && (x.phase == .ready || x.phase == .waitRes)
  if s.ops.any later then
    emit (.ops (mapIf later (fun x => { x with work := .update { x.upWork with race := l ++ x.upWork.race } }) s.ops))
  else skip

/-- Elements that another UPDATE, not ordered with this one, writes too become undefined (R154). -/
def upRace (o : Op) : Act s₀ Unit := do
  let s ← st
  let theirs := o.upWork.race ++ (upOthers s o).flatMap Op.region
  each (o.region.flatMap fun a => theirs.map fun b => (a, b)) fun ab => do
    let m := meet ab.1.2.1 ab.1.2.2 ab.2.2.1 ab.2.2.2
    if ab.1.1 = ab.2.1 ∧ m.2 ≠ 0 then emit (.mem (memOf ab.1.1) (.smear m.1 m.2)) else skip
  upTell o o.region

def upHoldCells (o : Op) : Act s₀ Unit :=
  each (bitsOf 32 (upCells o)) fun c => do
    let s ← st
    setCell c { cellAt s c with holder := some (o.ref, 2) }

/-- The lines that the write pass of a dense UPDATE had begun when a second mismatch ended it (R321): their
elements are undefined in weights, state, remainders and copy. -/
def upBegun (h : Hyper) (p : Piece) (lines : Nat) : Act s₀ Unit := do
  let wb := if h.mode = 0 then 4 else 2
  let n := min (p.rows * p.cols) (64 * lines / wb)
  if n = 0 then skip
  else do
    locSmear p.w (wb * n)
    each (List.range n) fun i => each (stOffs h p i) fun x => locSmear (locPlus p.st x) 4
    if h.rule = 1 then locSmear p.st (cdiv (4 * p.rows) 64 * 64 + cdiv (4 * p.cols) 64 * 64) else skip
    match p.rem with
    | some r => locSmear r.1 n
    | none => skip
    match p.copy with
    | some c => locSmear c (2 * n)
    | none => skip

/-- The rows of this chip that the write pass of a table UPDATE had begun (R321). -/
def upBegunRows (t : Nat) (d : TDesc) (b : Bool) (rs : List Nat) : Act s₀ Unit :=
  each rs fun r => do
    let s ← st
    if ownsRow s t d r then do
      smearRow t d r b
      let _ ← touchRow d (rowAt s t d r).li
      dirtyRow t r
    else skip

/-- A dense UPDATE. -/
def upDense (o : Op) (ms : List EngMiss) : Act s₀ Unit := do
  let s ← st
  match upLoc s o (upGrad o) (4 * upElems o), upLoc s o (upWeight o) (upWB o * upElems o),
      upLoc s o (upState o) (upStateBytes (upRule o) (upRows o) (upCols o) (upMom s o)) with
  | some gl, some wl, some sl => do
    match ← readLines gl (4 * upElems o) o.who with
    | .error e => endClean o.ref e 0
    | .ok g =>
      if !g.bad.isEmpty then endClean o.ref DATA_FAULT 0
      else
        let gs := numsOf4 g.bytes
        if upSkips s o gs then upSkip o.ref
        else do
          let h := upHyper s o
          let fact ← if upRule o = 1 then
              readLines sl (cdiv (4 * upRows o) 64 * 64 + cdiv (4 * upCols o) 64 * 64) o.who
            else pure (.ok ⟨[], []⟩)
          let bad := match fact with | .ok x => !x.bad.isEmpty | .error _ => true
          if bad then endClean o.ref DATA_FAULT 0
          else do
            let rem := if upMode o = 1 then (upLoc s o (upAux o) (upElems o)).map fun l => (l, upElems o) else none
            let copy := if upMode o = 0 ∧ upAux o ≠ 0 then upLoc s o (upAux o) (2 * upElems o) else none
            let p : Piece := ⟨upRows o, upCols o, gs, [], wl, sl,
              upStateBytes (upRule o) (upRows o) (upCols o) (upMom s o), rem, copy, upRow0 o * upCols o, false⟩
            match ← engMiss (bitsOf 32 (upCells o)) o ms with
            | some m => do
              upBegun h p m.begun
              upRace o
              endClean o.ref RESIDUE_FAULT (residueDetail m.cell.val 2)
            | none => do
              let e ← runPiece (upFor o) h (upTensor o) p (fun x b => writeLines wl x b o.who)
              upRace o
              endOp o.ref e 0
  | _, _, _ => endClean o.ref BAD_DESCRIPTOR 0
where
  numsOf4 (b : List Byte) : List Nat := (chunks 4 b).map leNat

/-- A row that stands at another chip goes there with its record (R98). -/
def upSendRow (o : Op) (h : Hyper) (t : Nat) (d : TDesc) (owner r : Nat) (race : Bool) (g : List Nat) : Act s₀ Nat := do
  useRow t r
  request (some o.ref) owner 0x16 o.d (3 * 2 ^ 62 + t * 2 ^ 50 + r * 2 ^ 16) (min 4096 (64 + 4 * g.length)) 1 1 .rowUpd
    (.rowUpd ⟨t, upVer o d, r, h.rule, h.mode, upGroup o, BitVec.ofNat 64 h.seed, BitVec.ofNat 32 h.step,
      BitVec.ofNat 32 h.eta, BitVec.ofNat 32 h.lam, g, race⟩)

/-- Bytes of a local place as they stand. -/
def locBytes (s : State) (l : Loc) (n : Nat) : List Byte :=
  match l with
  | .hbm o => s.hbm.getN o n
  | .bench c o => s.bench.getN (benchKey c o) n
  | .well o => s.well.getN o n
  | _ => []

/-- The rows of a table that other UPDATEs name, not ordered with this one: they have run, or are still to run (R154). -/
def upTheirRows (s : State) (o : Op) (t : Nat) : List Nat :=
  (o.upWork.race.filter fun x => x.1 == 16 + t).map (fun x => x.2.1)
    ++ ((upOthers s o).filter fun x => upTable x && x.bits 16 0 12 == t && x.phase != .decided).flatMap fun x =>
      match upLoc s x (upGrad x) 64 with
      | some l => (List.range (leNat (locBytes s l 4))).map fun i => leNat (locBytes s (locPlus l (64 + i * destRec (upCols x))) 8)
      | none => []

/-- A row that another UPDATE names too becomes undefined once it is written (R154). -/
def upRaceRow (t : Nat) (d : TDesc) (r : Nat) (b race : Bool) : Act s₀ Unit := if race then smearRow t d r b else skip

/-- A table's state entries are laid out for a MODE (R157; log entry 126). -/
def noteMode (t mode : Nat) : Act s₀ Unit := do
  let s ← st
  match tdGet s t with
  | some d => if d.forMode mode = d then skip else tdSet t (d.forMode mode)
  | none => skip

/-- The `n` records of merged gradients of a table UPDATE, each run on its row. -/
def upMerged (o : Op) (ms : List EngMiss) (t : Nat) (d : TDesc) (gl : Loc) (n : Nat) : Act s₀ Unit := do
  let s ← st
  match rangeChk s o (ptrAddr (upGrad o)) (64 + n * destRec (upCols o)) true with
  | (true, e, c) => endClean o.ref e c
  | _ => do
    match ← readLines gl (64 + n * destRec (upCols o)) o.who with
    | .error e => endClean o.ref e 0
    | .ok g =>
      let rs := recordsOf g.bytes n (upCols o)
      if !g.bad.isEmpty then endClean o.ref DATA_FAULT 0
      else if rs.any fun x => decide (d.rows ≤ x.1) then endClean o.ref BAD_DESCRIPTOR 0
      else if upSkips s o (rs.flatMap Prod.snd) then upSkip o.ref
      else do
        let h := upHyper s o
        let b := upBase o d
        let theirs := upTheirRows s o t
        match ← engMiss (bitsOf 32 (upCells o)) o ms with
        | some m => do
          upBegunRows t d b ((rs.map Prod.fst).take m.begun)
          endClean o.ref RESIDUE_FAULT (residueDetail m.cell.val 2)
        | none => do
          let e ← foldA rs OK fun e x => do
            let s ← st
            let race := theirs.contains x.1
            let y ← if ownsRow s t d x.1 then do
                let y ← updateRow (upFor o) h t d x.1 b (upCols o) x.2
                upRaceRow t d x.1 b race
                pure y
              else upSendRow o h t d (ownerOf s t d x.1) x.1 race x.2
            pure (if e = OK then y else e)
          upTell o (rs.map fun x => (16 + t, x.1, 1))
          finish o.ref e 0 0

/-- An UPDATE of a table: the merged records name its rows (R156). -/
def upRecords (o : Op) (ms : List EngMiss) : Act s₀ Unit := do
  let s ← st
  match tdGet s (o.bits 16 0 12), upLoc s o (upGrad o) 64 with
  | some d, some gl => do
    match ← readLines gl 64 o.who with
    | .error e => endClean o.ref e 0
    | .ok hd =>
      if !hd.bad.isEmpty then endClean o.ref DATA_FAULT 0
      else do
        noteMode (o.bits 16 0 12) (upMode o)
        upMerged o ms (o.bits 16 0 12) (d.forMode (upMode o)) gl (leAt hd.bytes 0 4)
  | _, _ => endClean o.ref BAD_DESCRIPTOR 0

/-- UPDATE (R150 to R156): once nothing is waited for, its three passes run. -/
def updateGo (r : OpRef) (ms : List EngMiss) : Act s₀ Unit := do
  let s ← st
  match findOp s r with
  | none => skip
  | some o =>
    if o.code ≠ 6 ∨ (o.phase ≠ .ready ∧ o.phase ≠ .waitRes) then skip
    else if (bitsOf 32 (upCells o)).any (fun c => (cellAt s c).resetting) then endClean r TARGET_RESET 0
    else if upVerdict o ∧ (takenVerdict s o).isNone ∧ groupLost s (upCol o) then endClean r FABRIC_LOST 0
    else if upWaits s o then waitRes o
    else do
      let o := resumed s o
      putOp o
      upHoldCells o
      if upTable o then upRecords o ms else upDense o ms

def execUpdate (r : OpRef) (m : List EngMiss) (s : State) : Host.Outcome State Fault Refusal := perform s (updateGo r m)

/-! ### ROW_UPD (R98) -/

/-- A row update of another chip, applied to the row that moved here, in the base of the version the UPDATE captured
(R27, R98). It waits, parked, until that base may be written (R24). -/
def serveRowUpd (v : Via) (pk : Packet) (u : RowUpdMsg) : Act s₀ Unit := do
  let s ← st
  match tdGet s u.table with
  | none => refuseV v pk BAD_DESCRIPTOR
  | some d =>
    if d.rows ≤ u.row ∨ d.fmt > 1 ∨ rowElems d < u.grad.length then refuseV v pk BAD_DESCRIPTOR
    else match baseCaptured d u.ver with
      | none => refuseV v pk REFUSED_VERSION
      | some b => rowServe pk u.table d u.row do
        let s ← st
        if b ≠ d.active ∧ !writable s u.table d then parkPk pk
        else do
          let h := hyperOf s u.group u.rule u.mode u.step.toNat (0x10000 + u.table) u.seed.toNat u.eta.toNat u.lam.toNat
          noteMode u.table u.mode
          let e ← updateRow ⟨v.dom, u.step, none⟩ h u.table (d.forMode u.mode) u.row b u.grad.length u.grad
          upRaceRow u.table (d.forMode u.mode) u.row b u.race
          if e = OK then ackRow v pk 0x95 u.table u.row else refuseV v pk e

def execRowUpd (p : Fin 8) (pk : Packet) (s : State) : Host.Outcome State Fault Refusal :=
  perform s <| serving p pk 0x16 fun v =>
    match pk.body with
    | .rowUpd u => serveRowUpd v pk u
    | _ => skip

/-- VERDICT_WAIT_TIMEOUT (R153): the verdict is still not final TIMEOUT_MS after admission. -/
def execVerdictWaitTimeout (r : OpRef) (s : State) : Host.Outcome State Fault Refusal := perform s do
  let s ← st
  match findOp s r with
  | none => skip
  | some o =>
    let ms := fld (regOf s (COL + 0x108 + 32 * upCol o)) 0 16
    if o.code = 6 ∧ o.phase = .waitRes ∧ upVerdict o ∧ (takenVerdict s o).isNone
        ∧ due s o.t0 (1000000 * ms) then endClean r REMOTE_TIMEOUT 0
    else skip

end Sys2Proof.Machine
end

