-- ==== Sys2Proof/Machine/Loupe.lean ====
section
/-! DEFINITION. The loupe's latches, snapshot records, rules and events (R167 to R172). -/

namespace Sys2Proof.Machine

variable {s₀ : State}

/-! ### Events (R171, R172) -/

/-- One event record enters a domain's ring; a full ring drops it. -/
def evtPut (d : Nat) (step watch rule code value run owner : Nat) : Act s₀ Unit := do
  let s ← st
  let prod := privOf s d (LPE + 0x20)
  if sub32 prod (privOf s d (LPE + 0x24)) = 256 then privBump d (LPE + 0x28)
  else do
    let a := LPE + 0x1000 + 16 * (prod % 256)
    privSet d a step
    privSet d (a + 4) (watch + 2 ^ 16 * rule + 2 ^ 24 * code)
    privSet d (a + 8) (min value 0xFFFFFFFF)
    privSet d (a + 12) (run + 2 ^ 16 * owner)
    privBump d (LPE + 0x20)

/-- A DISARM or RULE_CHANGED record: in every ring and in Crown's log (R171). -/
def loupeNote (d code rule : Nat) : Act s₀ Unit := do
  let s ← st
  let step := privOf s d (hdmW d 0x60)
  each [0, 1, 2, 3] fun x => evtPut x step 0xFFFF rule code 0 0 d
  logFault 11 code 0 0 0 none 0 step

/-! ### Latching -/

/-- The counter set of an entry for a step. -/
def setOf (s : State) (w : Nat) (n : Word) : LpeSet :=
  (s.lpe.sets.find? fun y => y.watch == w && y.step == n).getD (lpeZero w n)

/-- Counters whose SRAM word is lost read all ones (Table 18.2, array 9): word 32·w + i is counter i. -/
def lostCounters (s : State) (x : LpeSet) : LpeSet :=
  if s.sram.isEmpty then x
  else
    let lost (i : Nat) : Bool := s.sram.any fun e => e.array == 9 && e.ue && e.word == 32 * x.watch + i
    { x with
      cnt := ((List.range 6).zip x.cnt).map fun c => if lost c.1 then 2 ^ 64 - 1 else c.2,
      hist := ((List.range 16).zip x.hist).map fun c => if lost (6 + c.1 / 2) then 2 ^ 32 - 1 else c.2 }

/-- Table 9.2: a snapshot record. -/
def snapRecord (x : LpeSet) : List Byte :=
  leBytes 4 x.step.toNat ++ leBytes 2 x.watch ++ leBytes 2 (b2n x.late) ++ x.cnt.flatMap (leBytes 8)
    ++ x.hist.flatMap (leBytes 4) ++ leBytes 4 0 ++ leBytes 4 x.step.toNat

/-- A rule slot's words. -/
def ruleW (s : State) (n k : Nat) : Nat := regOf s (LPE + 0x400 + 16 * n + 4 * k)

/-- The entries a rule applies to, of those the domain owns. -/
def ruleEntries (s : State) (d n : Nat) : List Nat :=
  let w := ruleW s n 0
  ((watchList s).filter fun x => fld x.2 1 2 == d &&
    (if bit w 1 then fld w 2 3 == 7 || fld x.2 3 3 == fld w 2 3 else x.1 == fld (ruleW s n 1) 0 13)).map Prod.fst

/-- The quantity of a metric: the counted number, and whether it is a share of TOTAL (R169). -/
def metricOf (m : Nat) (x : LpeSet) : Nat × Bool :=
  let c (i : Nat) : Nat := x.cnt.getD i 0
  match m with
  | 0 => (c 1 + c 2, true)
  | 1 => (c 2, true)
  | 2 => (c 3, true)
  | 3 => (c 4, true)
  | 4 => (c 5, false)
  | _ => (c 4, false)

def ruleHolds (w thr total n : Nat) (share : Bool) : Bool :=
  let (a, b) := if share then (n * 10000, thr * total) else (n, thr)
  if bit w 8 then decide (a ≤ b) else decide (b ≤ a)

def runKey (n w : Nat) (x : Nat × Nat × Nat) : Bool := x.1 == n && x.2.1 == w

/-- One rule judged on one entry's set: the run count moves, and an event may be written. Answers
whether an event of an interrupting rule was due. -/
def ruleEval (d n : Nat) (x : LpeSet) : Act s₀ Bool := do
  let s ← st
  let w := ruleW s n 0
  let total := x.cnt.getD 0 0
  if total = 0 then pure false
  else do
    let (c, share) := metricOf (fld w 5 3) x
    let old := match s.lpe.run.find? (runKey n x.watch) with | some r => r.2.2 | none => 0
    let run := if ruleHolds w (ruleW s n 2) total c share then old + 1 else 0
    let fire := decide (run ≠ 0 ∧ fld (ruleW s n 3) 0 16 ≤ run)
    modLpe fun l => { l with run :=
      (l.run.filter fun r => !runKey n x.watch r) ++ (if fire || run == 0 then [] else [(n, x.watch, run)]) }
    if fire then do
      let v := if share then c * 10000 / total else c
      evtPut d x.step.toNat x.watch n (fld w 16 8) v (fld (ruleW s n 3) 0 16) d
      pure (bit w 9)
    else pure false

/-- LOUPE_LATCH (R167 to R172): the oldest step of the domain that was passed is latched, once no
operation admitted under it writes a watched tensor, or when it is late. -/
def execLoupeLatch (d : Fin 4) (s : State) : Host.Outcome State Fault Refusal := perform s do
  let s ← st
  match s.lpe.due.find? fun x => x.1 == d.val with
  | none => skip
  | some (_, n, late) =>
    if !bit (regOf s LPE) 0 || (!late && s.ops.any (writesWatched s d.val n)) then skip
    else do
      if late then bump (LPE + 0x14) else skip
      let mine := (watchList s).filter fun x => fld x.2 1 2 == d.val
      let sets := mine.map fun x => lostCounters s { setOf s x.1 n with late := late }
      let frames := fld (regOf s (LPE + 0x10)) 0 7
      if frames = 0 then skip
      else each sets fun x => do
        let base := regOf s (LPE + 8) + 2 ^ 32 * regOf s (LPE + 0xC)
        let _ ← hbmWrite (base + 1048576 * (n.toNat % frames) + 128 * x.watch) (snapRecord x) none
        skip
      let irq ← foldA (List.range 32) false fun irq r =>
        if bit (ruleW s r 0) 0 then
          foldA (sets.filter fun x => (ruleEntries s d.val r).contains x.watch) irq fun irq x => do
            let y ← ruleEval d.val r x
            pure (irq || y)
        else pure irq
      if irq then signal d.val (fld (privOf s d.val (LPE + 0x2C)) 0 8) else skip
      modLpe fun l => { l with
        sets := l.sets.filter fun x => !(x.step == n && mine.any fun y => y.1 == x.watch),
        due := l.due.erase (d.val, n, late) }

end Sys2Proof.Machine
end

