-- ==== Sys2Proof/Machine/Faults.lean ====
section
/-! DEFINITION. Fabric fault records (R227 to R230): the fault table, what ends on entry, and the flood. -/

namespace Sys2Proof.Machine

variable {s₀ : State}

/-- The other end of a link: (neighbour, opposite direction). -/
def otherEnd (s : State) (c dir : Nat) : Nat × Nat := (hop s c dir, if dir % 2 = 1 then dir - 1 else dir + 1)

/-- The failed element a record names is in the table already: by the group, or by either end of the link (R230). -/
def fltHas (s : State) (f : FabFault) : Bool :=
  (List.range (fltEntries s)).any fun n =>
    let e := fltEnt s n
    if f.kind = 3 then fld e 23 2 == 3 && fld e 21 2 == f.group
    else
      let o := otherEnd s f.chip.toNat f.dir
      fld e 23 2 == 1 && ((fld e 0 18 == f.chip.toNat && fld e 18 3 == f.dir) || (fld e 0 18 == o.1 && fld e 18 3 == o.2))

/-- LINK and GROUP records enter the table of 64; a 65th sets OVERFLOW. -/
def fltEnter (f : FabFault) : Act s₀ Unit := do
  let s ← st
  let n := fltEntries s
  if f.kind = 2 ∨ fltHas s f then skip
  else if n = 64 then regFld (RTE + 0x300) 7 1 1
  else do
    regSet (RTE + 0x400 + 8 * n)
      (if f.kind = 3 then f.group * 2 ^ 21 + 3 * 2 ^ 23 else f.chip.toNat + f.dir * 2 ^ 18 + 2 ^ 23)
    regSet (RTE + 0x404 + 8 * n) (f.time.toNat % 2 ^ 32)
    regFld (RTE + 0x300) 0 7 (n + 1)

/-- A request slot whose packet exchange is lost: its operation ends FABRIC_LOST (R230). -/
def reqLost (q : Req) : Act s₀ Unit := reqFail q FABRIC_LOST 0

/-- On entry of a record: pending exchanges across the failed element, the operations of failed
groups, and the operation a lost frame names, end FABRIC_LOST (R230). -/
def fltEnds (f : FabFault) : Act s₀ Unit := do
  let s ← st
  if f.kind = 2 then
    let cls := fld f.word0.toNat 56 4
    let holder := if cls = 1 then fld f.word0.toNat 30 18 else fld f.word0.toNat 12 18
    if fld f.word0.toNat 60 4 ≠ 3 ∨ holder ≠ myCoord s ∨ 2 < cls then skip
    else match s.reqs.find? fun q => q.via.isNone && q.optag.toNat == fld f.word3.toNat 32 16 with
      | some q => reqLost q
      | none => skip
  else do
    oldTouch
    each (s.reqs.filter fun q => q.via.isNone && pathLost s (myCoord s) q.dest.toNat) reqLost
    each [0, 1, 2, 3] fun g => if groupLost s g then colFail g FABRIC_LOST else skip

/-- The record's packet on one port's link. -/
def fltSend (f : FabFault) (p : Nat) : Act s₀ Unit := do
  let s ← st
  let h := mkHdr s 3 0xC0 (hop s (myCoord s) (portDir s p)) 0 0 64 0 0 0 0 1
  send (.hop (portDir s p)) (.packet (.of h (.fault f)))

/-- A record not seen before: entered, logged, acted on and flooded on every UP torus port but the
one it came in on (R229). -/
def fltNew (f : FabFault) (from_ : Option Nat) : Act s₀ Unit := do
  modRte fun x => { x with seen := x.seen ++ [(f.origin, f.oinc, f.fseq)] }
  fltEnter f
  logFault 7 f.kind 0 0 0 none 0 (f.chip.toNat + f.dir * 2 ^ 18 + f.fseq.toNat * 2 ^ 32)
  fltEnds f
  let s ← st
  each ([0, 1, 2, 3, 4, 5].filter fun p => portRole s p == 1 && portUp s p && some p != from_) (fltSend f)

/-- This chip detects a loss and floods its record. -/
def fltRaise (kind chip dir group word0 word3 : Nat) : Act s₀ Unit := do
  let s ← st
  let f : FabFault := ⟨BitVec.ofNat 18 (myCoord s), BitVec.ofNat 8 (chipInc s), kind, s.rte.fseq, BitVec.ofNat 18 chip,
    dir, group, BitVec.ofNat 64 word0, BitVec.ofNat 64 word3, BitVec.ofNat 64 s.ts⟩
  modRte fun x => { x with fseq := x.fseq + 1 }
  fltNew f none

/-- A group is lost at this chip (R251). -/
def fltGroup (g : Nat) : Act s₀ Unit := do
  let s ← st
  fltRaise 3 (myCoord s) 0 g 0 0

/-- The groups whose rings use a link of an axis. -/
def axisGroups (s : State) (a : Nat) : List Nat :=
  [0, 1, 2, 3].filter fun g => grpValid s g && (grpPhases s g).contains a

end Sys2Proof.Machine
end

