-- ==== Sys2Proof/Machine/Links.lean ====
section
/-! DEFINITION. Training, discovery and adoption (R196 to R202), link control and link-level retry
(R213, R215 to R217), and the loss of a link (R227). -/

namespace Sys2Proof.Machine

variable {s₀ : State}

/-! ### Port states (FAB_STATE) -/

def DOWN : Nat := 1
def TRAINING : Nat := 2
def DISCOVERY : Nat := 3
def UP : Nat := 4
def MISCABLED : Nat := 5
def INCOMPATIBLE : Nat := 6
def FAILED : Nat := 7

/-- FAB_STATE with the states of both halves: DEGRADED reads 1 while one half of a split torus port is FAILED (R196). -/
def stateWord (s : State) (p a b : Nat) : Nat :=
  putFld (putFld (putFld (regOf s (fabW p 4)) 0 4 a) 4 4 b) 20 1
    (b2n (portRole s p == 1 && portSplit s p && ((a == FAILED) != (b == FAILED))))

/-- STATE of a half; both fields move together without SPLIT. -/
def setHalf (p : Nat) (half : Bool) (n : Nat) : Act s₀ Unit := do
  let s ← st
  regSet (fabW p 4) (if portSplit s p then
      stateWord s p (if half then halfState s p false else n) (if half then n else halfState s p true)
    else stateWord s p n n)

def setCause (p n : Nat) : Act s₀ Unit := regFld (fabW p 4) 8 8 n

/-- A port used in its role trains (R196). -/
def trainStart (p : Nat) (half : Bool) : Act s₀ Unit := do
  let s ← st
  if portRole s p = 0 then skip
  else do
    setHalf p half TRAINING
    modLink p half fun x => { x with alignTs := s.ts, aligned := false }

/-- The halves of a port. -/
def halves (s : State) (p : Nat) : List Bool := if portSplit s p then [false, true] else [false]

/-- Training of a half, from the first attempt. -/
def trainHalf (p : Nat) (half : Bool) : Act s₀ Unit := do
  modLink p half linkFresh
  trainStart p half

/-- Training of every half of a port. -/
def trainPort (p : Nat) : Act s₀ Unit := do
  let s ← st
  each (halves s p) (trainHalf p)

/-- A half's link is gone: its buffers are discarded and it will train again; a FAILED half stays FAILED (R196). -/
def halfDown (p : Nat) (half : Bool) : Act s₀ Unit := do
  let s ← st
  if halfState s p half = FAILED then skip
  else do
    oldTouch
    setHalf p half DOWN
    modLink p half fun x => { linkFresh x with downTs := s.ts }

/-- Link loss (R227): the port goes down, the loss is flooded, and the groups whose rings use the link
fail (R229, R251). -/
def linkLoss (p : Nat) : Act s₀ Unit := do
  let s ← st
  each (halves s p) (halfDown p)
  setCause p 0
  let d := portDir s p
  fltRaise 1 (myCoord s) d 0 0 0
  each (axisGroups s (d / 2)) fun g => fltGroup g

/-! ### Training -/

/-- LINK_ALIGNED (R196, R203). -/
def execLinkAligned (p : Fin 8) (half : Bool) (s : State) : Host.Outcome State Fault Refusal := perform s do
  let s ← st
  if !halfOk s p.val half || halfState s p.val half != TRAINING then skip
  else do
    modLink p.val half fun x => { linkFresh x with aligned := true, alignTs := s.ts, attempts := x.attempts }
    setHalf p.val half (if portRole s p.val = 1 then DISCOVERY else UP)

/-- TRAINING_TIMEOUT (R196): not aligned within 500 ms. -/
def execTrainingTimeout (p : Fin 8) (half : Bool) (s : State) : Host.Outcome State Fault Refusal := perform s do
  let s ← st
  let x := linkAt s p.val half
  if !halfOk s p.val half || halfState s p.val half != TRAINING || !due s x.alignTs 500000000 then skip
  else do
    bump (fabW p.val 0x12C)
    setLink p.val half { x with attempts := x.attempts + 1, downTs := s.ts + 1000000000 }
    if x.attempts + 1 < 8 then setHalf p.val half DOWN
    else do
      setHalf p.val half FAILED
      logFault 7 (freeCode 7 0) 3 p.val 0 none (incOf s (288 + p.val)) 0

/-- TRAINING_RETRY (R196, R197): a DOWN port trains again, 1 s after a failed attempt. -/
def execTrainingRetry (p : Fin 8) (half : Bool) (s : State) : Host.Outcome State Fault Refusal := perform s do
  let s ← st
  let x := linkAt s p.val half
  if !halfOk s p.val half || halfState s p.val half != DOWN || !due s x.downTs 0 || stage s < 6 then skip
  else trainStart p.val half

/-- ALIGNMENT_LOSS (R197). -/
def execAlignmentLoss (p : Fin 8) (half : Bool) (s : State) : Host.Outcome State Fault Refusal := perform s do
  let s ← st
  if !halfOk s p.val half || !(linkAt s p.val half).aligned then skip
  else if portRole s p.val = 1 ∧ portUp s p.val then linkLoss p.val
  else halfDown p.val half

/-! ### Discovery -/

/-- This chip's HELLO record (Table 11.5). -/
def myHello (s : State) (p : Nat) (half seen : Bool) (maxPay : Nat) : HelloRec :=
  { part := 0xC801, stepping := 0, inc := BitVec.ofNat 8 (chipInc s), coord := BitVec.ofNat 18 (myCoord s),
    port := BitVec.ofNat 3 p, half := BitVec.ofNat 1 (b2n half), versions := 0xC, seen := BitVec.ofNat 1 (b2n seen),
    features := 0x1F, sliceId := BitVec.ofNat 64 (cfgOf s (GLB + 8) + 2 ^ 32 * cfgOf s (GLB + 12)),
    dims := BitVec.ofNat 18 (cfgOf s RTE % 2 ^ 18), maxPay := BitVec.ofNat 16 maxPay, chkOk := true,
    rsvCoord := 0, rsvSeen := 0, rsvDims := 0, rsvTail := 0 }

/-- The record's bytes without CHECK. -/
def helloBody (h : HelloRec) : List Byte :=
  leBytes 2 h.part.toNat ++ leBytes 1 h.stepping.toNat ++ leBytes 1 h.inc.toNat
    ++ leBytes 4 (h.coord.toNat + 2 ^ 18 * h.port.toNat + 2 ^ 21 * h.half.toNat + 2 ^ 22 * h.rsvCoord.toNat)
    ++ leBytes 2 h.versions.toNat ++ leBytes 2 (h.seen.toNat + 2 * h.rsvSeen.toNat) ++ leBytes 4 h.features.toNat
    ++ leBytes 8 h.sliceId.toNat ++ leBytes 4 (h.dims.toNat + 2 ^ 18 * h.rsvDims.toNat)
    ++ leBytes 2 h.maxPay.toNat ++ leBytes 30 h.rsvTail.toNat

def helloBytes (h : HelloRec) : List Byte := helloBody h ++ leBytes 4 (crc32 (helloBody h))

/-- FAB_HELLO_RX: the last valid HELLO. -/
def helloKeep (p : Nat) (h : HelloRec) : Act s₀ Unit :=
  each ((List.range 16).zip (chunks 4 (helloBytes h))) fun x => regSet (fabW p (0x200 + 4 * x.1)) (leNat x.2)

/-- R199: the highest common version and the common features. -/
def topVersion (a b : Nat) : Nat := if bit a 3 && bit b 3 then 3 else if bit a 2 && bit b 2 then 2 else 0

/-- The checks of Table 11.7 on a torus port: state and cause. -/
def helloChecks (s : State) (p : Nat) (half : Bool) (h : HelloRec) : Nat × Nat :=
  let e := cfgOf s (fabW p 0x10)
  let sid := cfgOf s (GLB + 8) + 2 ^ 32 * cfgOf s (GLB + 12)
  if topVersion 0xC h.versions.toNat ≠ 3 then (INCOMPATIBLE, 0x20)
  else if h.features.toNat &&& 0x17 ≠ 0x17 then (INCOMPATIBLE, 0x21)
  else if h.maxPay.toNat < 4096 then (INCOMPATIBLE, 0x22)
  else if h.sliceId.toNat ≠ sid ∨ h.dims.toNat ≠ cfgOf s RTE % 2 ^ 18 then (MISCABLED, 0x10)
  else if h.coord.toNat = myCoord s then (MISCABLED, 0x13)
  else if h.coord.toNat ≠ fld e 0 18 then (MISCABLED, 0x11)
  else if h.port.toNat ≠ fld e 18 3 ∨ (h.half == 1) ≠ (bit e 21 != half) then (MISCABLED, 0x12)
  else (UP, 0)

/-- R200: the outcome of discovery, with what the port reports of its neighbour. -/
def helloApply (p : Nat) (half : Bool) (h : HelloRec) : Act s₀ Unit := do
  let s ← st
  let (n, c) := helloChecks s p half h
  regSet (fabW p 8) (h.coord.toNat + 2 ^ 18 * h.port.toNat + 2 ^ 24 * h.inc.toNat)
  regSet (fabW p 0xC) h.features.toNat
  regSet (fabW p 0x14) (h.features.toNat &&& 0x1F)
  regFld (fabW p 4) 16 4 (topVersion 0xC h.versions.toNat)
  setHalf p half n
  setCause p c

/-- A HELLO leaves on a torus port's half (R198). -/
def helloOut (p : Nat) (half : Bool) : Act s₀ Unit := do
  let s ← st
  sendFrame (.link p half) (.hello (bareHdr 0 64) (myHello s p half (linkAt s p half).seenRx 4096)) (helloEth s p)

/-- HELLO_SEND (R198, R200, R202): every 1 ms in discovery, once per second after it. -/
def execHelloSend (p : Fin 6) (half : Bool) (s : State) : Host.Outcome State Fault Refusal := perform s do
  let s ← st
  let x := linkAt s p.val half
  let gap := if halfState s p.val half = DISCOVERY then 1000000 else 1000000000
  if portRole s p.val ≠ 1 ∨ !halfOk s p.val half ∨ !x.aligned ∨ (x.helloTs ≠ 0 ∧ !due s x.helloTs gap) then skip
  else do
    helloOut p.val half
    setLink p.val half { x with helloTs := max 1 s.ts }

/-- A neighbour's new incarnation: operations with a request out to it end TARGET_RESET (R202, R317). -/
def neighbourReset (p inc : Nat) : Act s₀ Unit := do
  let s ← st
  let c := fld (regOf s (fabW p 8)) 0 18
  regFld (fabW p 8) 24 8 inc
  each (s.reqs.filter fun q => q.via.isNone && q.dest.toNat == c) fun q => do
    reqFail q TARGET_RESET 0

/-- Two records that differ in no field but INC; reserved bits and CHECK are no field (R202). -/
def sameHello (a b : HelloRec) : Bool :=
  { a with inc := b.inc, chkOk := b.chkOk, rsvCoord := b.rsvCoord, rsvSeen := b.rsvSeen, rsvDims := b.rsvDims, rsvTail := b.rsvTail } == b

/-- What a valid HELLO does besides being recorded: in discovery, the one with SEEN after another completes it; on an UP port, one
that differs in INC alone is a new incarnation, any other difference a link loss; on an excluded port, one that differs from the
record has R200 applied again, where discovery has timed out once SEEN is set. -/
def helloIn (p : Nat) (half : Bool) (h : HelloRec) (n : Nat) (old : Option HelloRec) (cause : Nat) : Act s₀ Unit :=
  if n = DISCOVERY then (if old.isSome ∧ h.seen = 1 then helloApply p half h else skip)
  else if n = UP then
    match old with
    | some o =>
      if !sameHello o h then linkLoss p else if o.inc ≠ h.inc then neighbourReset p h.inc.toNat else skip
    | none => skip
  else if n = MISCABLED ∨ n = INCOMPATIBLE then
    if old = some h ∨ (cause = 1 ∧ h.seen ≠ 1) then skip else helloApply p half h
  else skip

/-- HELLO (R198, R200, R202). -/
def execHello (p : Fin 6) (half : Bool) (h : HelloRec) (s : State) : Host.Outcome State Fault Refusal := perform s do
  let s ← st
  let x := linkAt s p.val half
  if !h.chkOk ∨ portRole s p.val ≠ 1 ∨ !halfOk s p.val half ∨ !x.aligned then skip
  else do
    helloKeep p.val h
    setLink p.val half { x with seenRx := true, helloRx := some h }
    helloIn p.val half h (halfState s p.val half) x.helloRx (fld (regOf s (fabW p.val 4)) 8 8)

/-- DISCOVERY_TIMEOUT (R198): no discovery 100 ms after alignment. -/
def execDiscoveryTimeout (p : Fin 6) (s : State) : Host.Outcome State Fault Refusal := perform s do
  let s ← st
  each [false, true] fun h =>
    if halfOk s p.val h && halfState s p.val h == DISCOVERY && due s (linkAt s p.val h).alignTs 100000000 then do
      setHalf p.val h MISCABLED
      setCause p.val 1
    else skip

/-! ### Adoption (R201) -/

/-- Directions in which a chip lies one step away along exactly one axis. -/
def stepDirs (s : State) (c : Nat) : List Nat := [0, 1, 2, 3, 4, 5].filter fun d => c != myCoord s && hop s (myCoord s) d == c

/-- A direction is taken: a torus port other than `p` is UP or adopted in it. -/
def dirTaken (s : State) (p d : Nat) : Bool :=
  [0, 1, 2, 3, 4, 5].any fun q =>
    q != p && portRole s q == 1 && portDir s q == d && (portUp s q || bit (regOf s (fabW q 4)) 21)

/-- A torus port has heard a HELLO since it aligned. -/
def heard (s : State) (q : Nat) : Bool := portRole s q == 1 && ([false, true].any fun h => (linkAt s q h).helloRx.isSome)

/-- The direction a port is adopted in. On an axis of size 2 the chip with the lower coordinate gives +
to the lower of its two ports that reach the other chip, and the other chip gives − to the port
where that cable arrives. -/
def adoptDir (s : State) (p : Nat) : Option Nat :=
  let nb := regOf s (fabW p 8)
  let ds := stepDirs s (fld nb 0 18)
  match ds with
  | [d] => if dirTaken s p d then none else some d
  | [m, pl] =>
    let a := m / 2
    let twin := [0, 1, 2, 3, 4, 5].find? fun q =>
      q != p && heard s q && fld (regOf s (fabW q 8)) 0 18 == fld nb 0 18
    let plus := if axis (myCoord s) a < axis (fld nb 0 18) a then
        (match twin with | some q => decide (p < q) | none => true)
      else (match twin with | some q => decide (fld (regOf s (fabW q 8)) 18 3 < fld nb 18 3) | none => false)
    let d := if plus then pl else m
    if dirTaken s p d then none else some d
  | _ => none

/-- One port takes its observed neighbour, on each half that is MISCABLED. -/
def adoptPort (p : Nat) : Act s₀ Unit := do
  let s ← st
  let cause := fld (regOf s (fabW p 4)) 8 8
  let hs := (halves s p).filter fun h => halfState s p h == MISCABLED
  if portRole s p ≠ 1 ∨ !bit (regOf s (fabW p 0)) 5 ∨ hs = [] ∨ (cause ≠ 0x11 ∧ cause ≠ 0x12) then skip
  else match adoptDir s p with
    | none => skip
    | some d => do
      report 4 0 0 (fieldId (fabW p 0) 6 3) (portDir s p) d 0
      regFld (fabW p 0) 6 3 d
      regSet (fabW p 0x10) (regOf s (fabW p 8) % 2 ^ 21 + 2 ^ 21 * (match (linkAt s p (hs.headD false)).helloRx with
        | some h => b2n ((h.half == 1) != hs.headD false) | none => 0))
      regFld (fabW p 4) 21 1 1
      each hs fun h => setHalf p h UP
      setCause p 0
      logFault 12 (freeCode 12 0) 3 p 0 none (incOf s (288 + p)) 0

/-- ADOPTION: 100 ms after the first torus port aligned, in ascending port number. -/
def execAdoption (s : State) : Host.Outcome State Fault Refusal := perform s do
  let s ← st
  if [0, 1, 2, 3, 4, 5].any fun p => [false, true].any fun h =>
      (linkAt s p h).aligned && due s (linkAt s p h).alignTs 100000000 then
    each [0, 1, 2, 3, 4, 5] adoptPort
  else skip

/-! ### Link control and retry (R213, R215 to R217) -/

/-- LCF_SEND (R213). A port half that met a credit overrun is lost instead (R211, R227). -/
def execLcfSend (p : Fin 6) (half : Bool) (s : State) : Host.Outcome State Fault Refusal := perform s do
  let s ← st
  if halfState s p.val half ≠ UP then skip
  else if (linkAt s p.val half).overrun then linkLoss p.val
  else lcfOut p.val half

/-- Frames of a retry buffer after an acknowledged LSEQ. -/
def afterAck (ack : BitVec 16) (l : List (BitVec 16 × Packet)) : List (BitVec 16 × Packet) :=
  l.filter fun r => decide (1 ≤ (r.1 - ack).toNat ∧ (r.1 - ack).toNat < 32768)

/-- Frames sent again, in order, with RETRY set. -/
def replay (p : Nat) (half : Bool) (l : List (BitVec 16 × Packet)) : Act s₀ Unit :=
  each l fun r => do
    let s ← st
    bump (RTE + 0x20C) (flitsOf r.2.hdr)
    sendFrame (.link p half) (.packet { r.2 with hdr := { r.2.hdr with flags := r.2.hdr.flags ||| 2 } }) (torusEth s p)

/-- FEC_CORR counts the codewords corrected since it was last brought up to date: how many is the link's (R193; log entry 136). -/
def fecCorr (p : Nat) : Act s₀ Unit := do
  let s ← st
  bump64 (fabW p 0x100) ((Config.freeWord s.nonce p).toNat % 65536)
  emit .nonce

/-- LINK_CONTROL_FRAME (R213, R216, R217): credits and acknowledgements are taken; a NAK replays from the
LSEQ after ACK, and the NAK_MAXth of one LSEQ in a row is a link loss. -/
def execLinkControlFrame (p : Fin 6) (half : Bool) (f : Lcf) (s : State) : Host.Outcome State Fault Refusal := perform s do
  let s ← st
  if halfState s p.val half ≠ UP ∨ portRole s p.val ≠ 1 then offPort p.val half
  else do
    let x := linkAt s p.val half
    oldTouch
    fecCorr p.val
    let left := afterAck f.ack x.retry
    let moved := decide (left.length < x.retry.length)
    let want := f.ack + 1
    let naks := if !f.nak then 0 else if x.nakSeq = want ∧ x.naks ≠ 0 ∧ !moved then x.naks + 1 else 1
    setLink p.val half { x with
      credFl := (List.range 24).map fun v => f.cred.getD v (x.credFl.getD v 0),
      retry := left, ackTs := if moved then s.ts else x.ackTs, nakSeq := want, naks := naks }
    tailsOn p.val half
    if f.nak then
      if max 1 (fld (regOf s (RTE + 0xC)) 24 4) ≤ naks then linkLoss p.val else replay p.val half left
    else skip

/-- LLR_ACK_TIMEOUT (R217): no ACK advances for LLR_US while frames wait. -/
def execLlrAckTimeout (p : Fin 6) (half : Bool) (s : State) : Host.Outcome State Fault Refusal := perform s do
  let s ← st
  let x := linkAt s p.val half
  if halfState s p.val half = UP ∧ !x.retry.isEmpty ∧ due s x.ackTs (1000 * fld (regOf s (RTE + 0xC)) 16 8) then linkLoss p.val
  else skip

/-- UNCORRECTABLE_CODEWORD (R193, R216): counted on every aligned half. The frame it touches fails its FCS: on an UP torus port it is
NAKed and later frames are discarded until the LSEQ expected arrives; on an open port it is lost. -/
def execUncorrectableCodeword (p : Fin 8) (half : Bool) (_lseq : BitVec 16) (s : State) : Host.Outcome State Fault Refusal :=
  perform s do
    let s ← st
    if !halfOk s p.val half ∨ !(linkAt s p.val half).aligned then skip
    else do
      bump (fabW p.val 0x108)
      fecCorr p.val
      if 6 ≤ p.val then bump (fabW p.val 0x10C)
      else if halfState s p.val half = UP then linkNak p.val half
      else skip

/-- What a frame with the stomp code, or with a bad header, meets: NAKed when it is not the next one, else it leaves its link with no
effect, and `k` counts it. -/
def frameVoid (p : Nat) (w : Wire) (vc flits : Nat) (k : Act s₀ Unit) : Act s₀ Unit := do
  let s ← st
  if halfState s p w.half ≠ UP then offPort p w.half
  else if !inOrder s p w then linkNak p w.half
  else do
    linkTake p w.half
    freeFl (some (p, w.half, vc)) flits
    k

/-- STOMPED_FRAME (R215): dropped, its credits returned and its LSEQ acknowledged. `seq` is its LSEQ with the CRC-8 over it (R216). -/
def execStompedFrame (p : Fin 6) (half : Bool) (seq : BitVec 16 × BitVec 8) (vc : Fin 24) (flits : Nat)
    (s : State) : Host.Outcome State Fault Refusal :=
  perform s <| frameVoid p.val { Wire.none with half := half, lseq := seq.1, crc := seq.2 } vc.val flits (bump (RTE + 0x200))

/-- What of R209 fails on a frame. VER 0 is in use for HELLO and, on a torus port, link control alone; those cross no VC. -/
def hdrBad (s : State) (p : Nat) (h : Hdr) (frameLen : Nat) : Bool :=
  let torus := decide (p < 6)
  let v := h.vc.toNat
  let c := h.cls.toNat
  let bare := h.ver == 0 && c == 3 && (h.op == 0 || (torus && h.op == 1))
  let vcOk := if c < 4 then decide (3 * c ≤ v ∧ v < 3 * c + 3) else decide (12 ≤ v ∧ v < 24)
  let known : Bool := match c with
    | 0 => decide (0x10 ≤ h.op.toNat ∧ h.op.toNat ≤ 0x16)
    | 1 => decide (0x90 ≤ h.op.toNat ∧ h.op.toNat ≤ 0x96) || (!torus && h.op == 0x97)
    | 2 => decide (0x10 ≤ h.op.toNat ∧ h.op.toNat ≤ 0x16)
    | 3 => bare || decide (0xC0 ≤ h.op.toNat ∧ h.op.toNat ≤ 0xC3)
    | _ => decide (0xE0 ≤ h.op.toNat ∧ h.op.toNat ≤ 0xE3)
  !(bare || h.ver == 3 || (!torus && h.ver == 2))
  || decide (4 < c) || (torus && !bare && !vcOk) || (decide (c ≤ 2) && h.mcast != 0)
  || decide (4096 < h.len.toNat) || h.len.toNat != frameLen
  || (torus && !inSlice s h.dst.toNat) || h.rsv != 0 || !known

/-- BAD_HEADER_FRAME (R209): dropped and counted, its credits returned. -/
def execBadHeaderFrame (p : Fin 8) (w : Wire) (h : Hdr) (frameLen : Nat) (s : State) : Host.Outcome State Fault Refusal :=
  perform s do
    let s ← st
    if !hdrBad s p.val h frameLen then skip
    else if 6 ≤ p.val then (if halfState s p.val w.half = UP then bump (RTE + 0x210) else skip)
    else frameVoid p.val w (h.vc.toNat % 24) (flitsOf h) (bump (RTE + 0x210))

end Sys2Proof.Machine
end

