-- ==== Sys2Proof/Machine/Stitch.lean ====
section
/-! DEFINITION. The stitchers (R235 to R242, R244 to R247): contexts and grants, terms and lateness,
partials at the origin, on the way and at the owner, and the group's verdict. -/

namespace Sys2Proof.Machine

variable {s₀ : State}

def nanC : Nat := 0x7FC00000

/-! ### Buckets under way -/

def isBk (g b : Nat) (step : Word) (x : ColBk) : Bool := x.g == g && x.b == b && x.step == step
def findBk (s : State) (g b : Nat) (step : Word) : Option ColBk := s.col.bk.find? (isBk g b step)
def putBk (x : ColBk) : Act s₀ Unit := modCol fun c => { c with bk := mapIf (isBk x.g x.b x.step) (fun _ => x) c.bk }

def pfxZero : StitchPfx := ⟨0, false, []⟩

/-- T_mark of a step is the last mark when the group first meets the step (R244). -/
def colSeen (g : Nat) (step : Word) : Act s₀ Unit := do
  let s ← st
  if s.col.seen.any fun x => x.1 == g && x.2.1 == step then skip
  else modCol fun c => { c with
    seen := (c.seen.filter fun x => x.1 != g || x.2.1 != step - 2) ++ [(g, step, regOf s (CLK + 0x18) + 2 ^ 32 * regOf s (CLK + 0x1C))] }

/-- T_exp has passed. -/
def colExpired (s : State) (g : Nat) (step : Word) : Bool :=
  match s.col.seen.find? fun x => x.1 == g && x.2.1 == step with
  | some x => grpWindow s g != 0 && decide (x.2.2 + grpWindow s g ≤ s.ts)
  | none => false

/-- The stitchers take up a bucket. -/
def bkOpen (g b : Nat) (step : Word) : Act s₀ Unit := do
  colSeen g step
  let s ← st
  if (findBk s g b step).isSome then skip
  else
    let thin := (bktSee s g b).thin
    modCol fun c => { c with bk := c.bk ++
      [⟨g, b, step, none, if thin then 1 else 0, [], [], [], [(0, pfxZero)], false, false, false, [], [], s.ts, false⟩] }

/-- Elements of the vector that a bucket's present stage reduces. -/
def bkLen (s : State) (x : ColBk) : Nat :=
  let e := bktSee s x.g x.b
  match x.stage with
  | 0 => e.elems
  | 1 => e.rows * e.rank
  | _ => e.cols * e.rank

def halfFind (x : ColBk) (k : Nat) (minus : Bool) (j : Nat) : Option ColHalf :=
  x.halves.find? fun h => h.phase == k && h.minus == minus && h.chunk == j

def halfPut (x : ColBk) (h : ColHalf) : ColBk :=
  let same (y : ColHalf) : Bool := y.phase == h.phase && y.minus == h.minus && y.chunk == h.chunk
  if x.halves.any same then { x with halves := mapIf same (fun _ => h) x.halves }
  else { x with halves := x.halves ++ [h] }

/-- A chunk half in its region: first element, length, and its packets (R239). -/
def halfSpan (s : State) (x : ColBk) (k : Nat) (minus : Bool) (j : Nat) : Nat × Nat :=
  let c := chunkOf (regionAt s x.g (bkLen s x) k).2 (ringSize s x.g k) j
  let h := halfOf c.2 minus
  (c.1 + h.1, h.2)

def packetsOf (n : Nat) : Nat := max 1 (cdiv n 2040)

def halfDone (s : State) (x : ColBk) (k : Nat) (minus : Bool) (j : Nat) : Bool :=
  match halfFind x k minus j with
  | some h => h.got.length == packetsOf (halfSpan s x k minus j).2
  | none => false

/-- Every half that arrives here in a direction of a phase has been dealt with. -/
def dirDone (s : State) (x : ColBk) (k : Nat) (minus : Bool) : Bool :=
  (List.range (ringSize s x.g k)).all fun j => j == originChunk s x.g k minus || halfDone s x k minus j

def phaseList (s : State) (g : Nat) : List Nat := List.range (grpPhases s g).length

/-- Every half of every phase, those that start here too. -/
def bkAllDone (s : State) (x : ColBk) : Bool :=
  (phaseList s x.g).all fun k => [false, true].all fun m =>
    dirDone s x k m && halfDone s x k m (originChunk s x.g k m)

/-! ### Packets of COL (R238, R239) -/

def colAddr (key : ColKey) (rest : Nat) : Nat :=
  fld key.step.toNat 0 16 * 2 ^ 48 + key.b * 2 ^ 32 + key.phase * 2 ^ 30 + rest

/-- The header of COL packet `seq` of `tot` of a group (R224, R239); its VC is the group's, low until it is routed. -/
def colHdr (s : State) (g opc dst addr len seq tot : Nat) : Hdr :=
  { mkHdr s 4 opc dst (grpOwner s g) addr len seq 0 0 0 (if seq = 0 then tot else 0) with
    vc := BitVec.ofNat 5 (13 + 3 * g), flags := if seq + 1 = tot then 8 else 0 }

/-- GRANT of slots to the upstream neighbour. -/
def grantSend (key : ColKey) (n : Nat) : Act s₀ Unit := do
  let s ← st
  let up := ringDir s key.g key.phase (!key.minus)
  let h := colHdr s key.g 0xE1 (hop s (myCoord s) up) (colAddr key (b2n key.minus * 2 ^ 29 + n)) 0 0 1
  send (.hop up) (.packet (.of h .none))

def credOf (s : State) (key : ColKey) : Nat :=
  match s.col.cred.find? fun x => x.1 == key with
  | some x => x.2
  | none => 0

def credAdd (key : ColKey) (n : Nat) : Act s₀ Unit := do
  let s ← st
  if s.col.cred.any fun x => x.1 == key then
    modCol fun c => { c with cred := mapIf (fun x => x.1 == key) (fun x => (x.1, x.2 + n)) c.cred }
  else modCol fun c => { c with cred := c.cred ++ [(key, n)] }

def credTake (key : ColKey) : Act s₀ Unit :=
  modCol fun c => { c with cred := mapIf (fun x => x.1 == key) (fun x => (x.1, x.2 - 1)) c.cred }

/-- STITCH packet `seq` of the `tot` of its chunk half to the next chip of the ring, against one granted slot. -/
def stitchSend (key : ColKey) (j off seq tot : Nat) (p : StitchPfx) (cs : List Nat) : Act s₀ Unit := do
  let s ← st
  let d := ringDir s key.g key.phase key.minus
  let h := colHdr s key.g 0xE0 (hop s (myCoord s) d)
    (colAddr key (b2n key.minus * 2 ^ 29 + j * 2 ^ 24 + off)) (16 + 2 * cs.length) seq tot
  credTake key
  bump64 (COL + 0x10) 1
  send (.hop d) (.packet (.of h (.stitch p cs)))

/-- Two buckets share a context: the same group, port and number mod 4 (R238). -/
def sameCtx (a b : ColKey) : Bool := a.g == b.g && a.phase == b.phase && a.minus == b.minus && a.b % 4 == b.b % 4

/-- A bucket is the next its context serves in ascending (step, b): the one after the last served, and after a step's last or on
another step the context's first (R238). -/
def ctxNext (s : State) (key : ColKey) : Bool :=
  match s.col.served.find? (sameCtx key) with
  | none => decide (key.b < 4)
  | some k => if key.step = k.step then key.b == k.b + 4 || decide (key.b < 4 ∧ grpBuckets s key.g ≤ k.b + 4) else decide (key.b < 4)

/-- A context of a port opens for its next bucket when no other bucket has it (R238). -/
def ctxOpen (key : ColKey) : Act s₀ Unit := do
  let s ← st
  if s.col.ctx.any (fun c => sameCtx key c.key) || !ctxNext s key then skip
  else do
    modCol fun c => { c with
      ctx := c.ctx ++ [⟨key, 0⟩], served := (c.served.filter fun k => !sameCtx key k) ++ [key],
      bk := mapIf (isBk key.g key.b key.step) (fun x => { x with since := s.ts }) c.bk }
    grantSend key 32

/-- A slot is free again: eight of them are granted back, and what is left at the bucket's end. -/
def slotFreed (key : ColKey) : Act s₀ Unit := do
  let s ← st
  match s.col.ctx.find? fun c => c.key == key with
  | none => skip
  | some c =>
    if c.freed + 1 = 8 then do
      modCol fun x => { x with ctx := mapIf (fun c => c.key == key) (fun c => { c with freed := 0 }) x.ctx }
      grantSend key 8
    else modCol fun x => { x with ctx := mapIf (fun c => c.key == key) (fun c => { c with freed := c.freed + 1 }) x.ctx }

/-- A context whose bucket has passed closes. -/
def ctxClose (c : ColCtx) : Act s₀ Unit := do
  let s ← st
  let gone := match findBk s c.key.g c.key.b c.key.step with
    | some x => x.stage != 1 && dirDone s x c.key.phase c.key.minus
    | none => true
  if gone then do
    modCol fun x => { x with ctx := x.ctx.filter fun y => y.key != c.key }
    if c.freed = 0 then skip else grantSend c.key c.freed
  else skip

/-! ### Prefixes (R239, R245, Table 13.4) -/

/-- A coordinate in 14 bits. -/
def lateCoord (c : Nat) : Nat := axis c 0 % 32 + 32 * (axis c 1 % 32) + 1024 * (axis c 2 % 16)

/-- The coordinates of both, in order, without repeats, at most eight. -/
def unionCoords (a b : List Nat) : List Nat := (a ++ b.filter fun x => !a.contains x).take 8

/-- What a partial brings joined with what the chip's own term brings. -/
def pfxJoin (a b : StitchPfx) : StitchPfx :=
  ⟨min 16383 (a.late + b.late - (b.coords.filter fun x => a.coords.contains x).length), a.nonfinite || b.nonfinite,
    unionCoords a.coords b.coords⟩

/-- The two halves of one chunk name the same members, so a member late in both counts once. -/
def pfxBoth (a b : StitchPfx) : StitchPfx :=
  if a.late ≤ 8 ∧ b.late ≤ 8 then pfxJoin a b
  else ⟨max a.late b.late, a.nonfinite || b.nonfinite, unionCoords a.coords b.coords⟩

/-- This chip's term is late: its coordinate joins the prefix. -/
def pfxLate (s : State) (p : StitchPfx) : StitchPfx :=
  { p with late := min 16383 (p.late + 1), coords := (p.coords ++ [lateCoord (myCoord s)]).take 8 }

def pfxNf (p : StitchPfx) (b : Bool) : StitchPfx := { p with nonfinite := p.nonfinite || b }

def accOf (x : ColBk) (k : Nat) : StitchPfx := (mapGet x.accs k).getD pfxZero

/-! ### Terms (R236, R241, R245) -/

def codeFin (c : Nat) : Bool := (v32 c).isFin

/-- The element lies in a word or sector that cannot be read. -/
def elemBad (s : State) (l : Loc) : Bool :=
  match l with
  | .well o => s.sram.any fun e => e.array == 1 && e.ue && e.word == o / 8
  | .hbm o => chDown s o 4 || (!eccClean s && secState s (o / 64) == 2)
  | _ => false

def elemSee (s : State) (l : Loc) : Nat :=
  match l with
  | .well o => leNat (s.well.getN o 4)
  | .hbm o => leNat (s.hbm.getN o 4)
  | _ => 0

/-- Well elements taken: read, the unreadable ones as NaN, and set to +0. Answers the codes and whether
one could not be read. -/
def wellTake (slot lo n : Nat) (who : Option Who) : Act s₀ (List Nat × Bool) := do
  if n = 0 then pure ([], false)
  else do
    let s ← st
    let bad := (List.range n).map fun i => elemBad s (slotAt s slot (lo + i))
    let raw := (List.range n).map fun i => elemSee s (slotAt s slot (lo + i))
    let r ← slotRead slot lo n who
    let _ ← slotWrite slot lo (List.replicate n 0) who
    pure (match r with
      | .ok l => (l, false)
      | .error _ => (List.zipWith (fun b c => if b then nanC else c) bad raw, true))

/-- The REDUCE_SCATTER of a bucket that is admitted here (R245). -/
def bkOp (s : State) (x : ColBk) : Option OpRef :=
  match x.op with
  | some r => some r
  | none => (s.ops.find? fun o => o.code == 7 && colPhase o.phase && colSub o == 0 && colGroup o == x.g
      && colBucket o == x.b && o.step == x.step).map Op.ref

/-- The chip's term for elements lo … lo+n-1 of the region of phase k. -/
def takeTerm (x : ColBk) (k lo n : Nat) : Act s₀ (List Nat × Bool) := do
  let s ← st
  if k = 0 ∧ x.stage = 0 then
    let e := bktSee s x.g x.b
    wellTake e.slot (e.off + lo) n (((bkOp s x).bind (findOp s)).bind Op.who)
  else pure ((((mapGet x.vecs k).getD []).drop lo).take n, false)

/-- Whether the chip's term for a half can be decided now, and how: some true is late (R245). -/
def decideTerm (s : State) (x : ColBk) (k : Nat) (minus : Bool) (j : Nat) : Option Bool :=
  match halfFind x k minus j with
  | some h => some h.late
  | none =>
    if k = 0 ∧ x.stage = 0 then
      if (bkOp s x).isSome then some false else if colExpired s x.g x.step then some true else none
    else if (mapGet x.vecs k).isSome then some false
    else none

/-- The half's record, made at the decision; a term declared late is counted. -/
def halfOpen (x : ColBk) (k : Nat) (minus : Bool) (j : Nat) (late : Bool) : Act s₀ (ColBk × ColHalf) := do
  match halfFind x k minus j with
  | some h => pure (x, h)
  | none => do
    if late then bump (COL + 0x18) else skip
    let h : ColHalf := ⟨k, minus, j, late, [], pfxZero⟩
    pure (halfPut { x with lateSelf := x.lateSelf || late } h, h)

/-! ### Shards and verdicts (R242, R243) -/

/-- A shard has been written: it counts towards the verdict of its step. -/
def verShard (g : Nat) (step : Word) (nf : Bool) : Act s₀ Unit :=
  modCol fun c =>
    if c.ver.any fun v => v.g == g && v.step == step then
      let up (v : ColVer) : ColVer := { v with shards := v.shards + 1, bit := v.bit || nf }
      { c with ver := mapIf (fun v => v.g == g && v.step == step) up c.ver }
    else { c with ver := c.ver ++ [⟨g, step, 1, nf, 0, []⟩] }

/-- The UPDATEs that wait for a verdict take it when it becomes final (R153). -/
def takeVerdict (g : Nat) (step : Word) (nf : Bool) : Act s₀ Unit := do
  let s ← st
  each (s.ops.filter fun o => o.code == 6 && o.flag 56 0 && o.bits 56 1 2 == g && o.step == step
      && (o.phase == .ready || o.phase == .waitRes)) fun o =>
    putOp { o with work := .update { o.upWork with verdict := some nf } }

/-- The verdict moves on along the axis lines, as far as the bits received allow. -/
def verGo (g : Nat) (step : Word) : Nat → Act s₀ Unit
  | 0 => skip
  | f + 1 => do
    let s ← st
    match s.col.ver.find? fun v => v.g == g && v.step == step with
    | none => skip
    | some v =>
      let here := v.got.filter fun x => x.1 + 1 == v.line
      let ready := v.line == 0 || here.length + 1 == ringSize s g (v.line - 1)
      if v.shards < grpBuckets s g ∨ !ready then skip
      else do
        let bit' := v.bit || here.any Prod.snd
        if v.line = (grpPhases s g).length then do
          regSet (grpW g 6) step.toNat
          regSet (grpW g 7) (1 + 2 * b2n bit')
          takeVerdict g step bit'
          modCol fun c => { c with ver := c.ver.filter fun y => !(y.g == g && y.step == step) }
        else do
          let a := phaseAxis s g v.line
          let h := colHdr s g 0xE3 (myCoord s) (colAddr ⟨g, 0, step, v.line, false⟩ (b2n bit')) 0 0 1
          send .fabric (.packet (.of { h with mcast := BitVec.ofNat 2 (a + 1) } .none))
          let up (y : ColVer) : ColVer := { y with bit := bit', line := y.line + 1 }
          modCol fun c => { c with ver := mapIf (fun y => y.g == g && y.step == step) up c.ver }
          verGo g step f

/-- The 16-byte late report (Table 13.4). -/
def lateReport (p : StitchPfx) (self : Bool) : Nat :=
  p.late + 2 ^ 14 * b2n p.nonfinite + 2 ^ 15 * b2n self
    + ((List.range 8).map fun i => p.coords.getD i 0x3FFF * 2 ^ (16 + 14 * i)).sum

/-- Every term the chip supplies has been taken, or declared late (R247). -/
def termsGone (s : State) (x : ColBk) : Bool :=
  (phaseList s x.g).all fun k => [false, true].all fun m => (List.range (ringSize s x.g k)).all fun j =>
    match halfFind x k m j with
    | some h => h.late || halfDone s x k m j
    | none => false

/-- A REDUCE_SCATTER ends once its shard is written and all its terms are taken or late (R247); the
claim on its slot is released (R148). -/
def bkEnd (x : ColBk) : Act s₀ Unit := do
  let s ← st
  match x.op with
  | none => skip
  | some r =>
      if !x.done || !termsGone s x then skip
      else do
        let p := accOf x (grpPhases s x.g).length
        let rep := lateReport p x.lateSelf
        regSet (claimW (bktSee s x.g x.b).slot) 0
        modOp r fun o => { o with detail64 := some (BitVec.ofNat 64 (rep % 2 ^ 64)) }
        endOp r (if x.fault then DATA_FAULT else if p.late ≠ 0 ∨ x.lateSelf then OK_PARTIAL_LATE else OK)
          (rep % 2 ^ 32) (rep / 2 ^ 64)
        putBk { x with op := none, ended := true }

/-- The operation ends when it can; the bucket's record goes once no half passes any more. -/
def bkFinish (g b : Nat) (step : Word) : Act s₀ Unit := do
  let s ← st
  match findBk s g b step with
  | none => skip
  | some x => do
    bkEnd x
    let s ← st
    match findBk s g b step with
    | none => skip
    | some x =>
      if x.ended && bkAllDone s x then
        modCol fun c => { c with
          bk := c.bk.filter fun y => !isBk g b step y,
          cred := c.cred.filter fun y => !(y.1.g == g && y.1.b == b && y.1.step == step) }
      else skip

/-- The shard of a plain bucket is complete: its non-finite elements are zeroed under ZERO_ELEMENT,
and it joins the verdict. -/
def shardDone (x : ColBk) : Act s₀ Unit := do
  let s ← st
  let k := (grpPhases s x.g).length
  let e := bktSee s x.g x.b
  let cs := (mapGet x.vecs k).getD []
  let nf := (accOf x k).nonfinite
  if nf then bump (COL + 0x1C) else skip
  if grpZero s x.g && cs.any (fun c => !codeFin c) then do
    let _ ← locWrite (Loc.ofAddr e.dest) (cs.flatMap fun c => leBytes 4 (if codeFin c then c else 0)) none
    skip
  else skip
  putBk { x with done := true }
  verShard x.g x.step nf
  verGo x.g x.step 5

/-! ### Owner -/

/-- Owner results of a phase put in order. -/
def resJoin (l : List (Nat × Nat × List Nat)) (k : Nat) : List Nat :=
  (((l.filter fun x => x.1 == k).map Prod.snd).foldl (fun m x => mapSet m x.1 x.2) []).flatMap Prod.snd

/-- Both halves of the own chunk are in: the phase's result is the next phase's vector. -/
def ownerPhase (x : ColBk) (k : Nat) : Act s₀ ColBk := do
  let s ← st
  let j := ringPos s x.g k
  match halfFind x k false j, halfFind x k true j with
  | some a, some b =>
    if halfDone s x k false j && halfDone s x k true j then
      let acc := pfxJoin (pfxBoth a.pfx b.pfx) (accOf x k)
      pure { x with vecs := mapSet x.vecs (k + 1) (resJoin x.res k), accs := mapSet x.accs (k + 1) acc }
    else pure x
  | _, _ => pure x

/-- Whether the phase is the last of the reduction and the bucket a plain one. -/
def lastPlain (s : State) (x : ColBk) (k : Nat) : Bool := x.stage == 0 && k + 1 == (grpPhases s x.g).length

/-- The owner's step for one packet: r stays fp32 and is written to DEST. -/
def ownerTake (x : ColBk) (h : ColHalf) (off seq : Nat) (p : StitchPfx) (cs : List Nat) : Act s₀ ColBk := do
  let s ← st
  let k := h.phase
  let span := halfSpan s x k h.minus h.chunk
  let inChunk := (halfOf (chunkOf (regionAt s x.g (bkLen s x) k).2 (ringSize s x.g k) h.chunk).2 h.minus).1 + off
  let (term, bad) ← if h.late then pure ([], false) else takeTerm x k (span.1 + off) cs.length
  let sums := if h.late then cs.map vbf else List.zipWith (fun c t => (vbf c).add (v32 t)) cs term
  let rs := sums.map r32
  if x.stage = 0 then do
    let _ ← locWrite (Loc.ofAddr ((bktSee s x.g x.b).dest + 4 * inChunk)) (rs.flatMap (leBytes 4)) none
    if lastPlain s x k then
      lpeCount (watchOf s (grpOwner s x.g) 1 (bktSee s x.g x.b).tensor) (grpOwner s x.g) x.step
        (List.zipWith (fun r v => judge .fp32 r 0 v.isZero false) rs sums)
    else skip
  else skip
  let nf := term.any (fun c => !codeFin c) || rs.any (fun c => !codeFin c)
  let p := pfxNf (if h.late then pfxLate s p else p) nf
  let h := { h with got := h.got ++ [seq], pfx := pfxBoth h.pfx p }
  let x := halfPut { x with res := x.res ++ [(k, inChunk, rs)], fault := x.fault || bad } h
  ownerPhase x k

/-! ### Passing and starting partials -/

/-- What a chip's term brings to the prefix of a partial that leaves it. -/
def outPfx (s : State) (x : ColBk) (k : Nat) (late : Bool) (p : StitchPfx) (nf : Bool) : StitchPfx :=
  pfxNf (if late then pfxLate s p else pfxJoin p (accOf x k)) nf

/-- One packet passes: the term is added and the sum rounded to bf16, or it goes on unchanged. -/
def passTake (x : ColBk) (h : ColHalf) (key : ColKey) (off seq : Nat) (p : StitchPfx) (cs : List Nat) : Act s₀ ColBk := do
  let s ← st
  let span := halfSpan s x h.phase h.minus h.chunk
  let (term, bad) ← if h.late then pure ([], false) else takeTerm x h.phase (span.1 + off) cs.length
  let out := if h.late then cs
    else List.zipWith (fun c t => rbf (v32 (r32 ((vbf c).add (v32 t))))) cs term
  let nf := !h.late && (term.any (fun c => !codeFin c) || out.any fun c => !(vbf c).isFin)
  stitchSend key h.chunk off seq (packetsOf span.2) (outPfx s x h.phase h.late p nf) out
  let h := { h with got := h.got ++ [seq] }
  pure (halfPut { x with fault := x.fault || bad } h)

/-- The next packet of the half that starts here: bf16 of the chip's term, or +0 when it is late. -/
def originTake (x : ColBk) (h : ColHalf) (key : ColKey) : Act s₀ ColBk := do
  let s ← st
  let span := halfSpan s x h.phase h.minus h.chunk
  let seq := h.got.length
  let off := 2040 * seq
  let n := min 2040 (span.2 - off)
  let (term, bad) ← if h.late then pure (List.replicate n 0, false) else takeTerm x h.phase (span.1 + off) n
  let out := term.map fun c => rbf (v32 c)
  let nf := term.any (fun c => !codeFin c) || out.any fun c => !(vbf c).isFin
  stitchSend key h.chunk off seq (packetsOf span.2) (outPfx s x h.phase h.late pfxZero nf) out
  let h := { h with got := h.got ++ [seq] }
  pure (halfPut { x with fault := x.fault || bad } h)

/-- Where a STITCH or GRANT packet belongs (R239). -/
def keyOf (s : State) (pk : Packet) : ColKey :=
  let a := pk.hdr.addr.toNat
  let g := vcGroup pk.hdr.vc.toNat
  ⟨g, fld a 32 16, fullStep s g (fld a 48 16), fld a 30 2, bit a 29⟩

/-- A bucket after a step of progress: stored, its shard finished when the last phase is. -/
def bkAfter (x : ColBk) : Act s₀ Unit := do
  let s ← st
  let x := { x with since := s.ts }
  putBk x
  if x.stage = 0 ∧ !x.done ∧ (mapGet x.vecs (grpPhases s x.g).length).isSome then shardDone x else skip
  bkFinish x.g x.b x.step

/-- The first packet of a half to come decides the chip's term. A held packet is dealt with if its term is decided and, on a
passing chip, a slot downstream is granted; it answers whether it was. Of a thinned bucket all halves of P have passed before Q
starts anywhere, so a partial of a half of P that is done is one of Q, which waits for the second stage (R248). -/
def stitchTry (pk : Packet) : Act s₀ Bool := do
  let s ← st
  let key := keyOf s pk
  let j := fld pk.hdr.addr.toNat 24 5
  let off := fld pk.hdr.addr.toNat 0 24
  let seq := pk.hdr.seq.toNat
  match findBk s key.g key.b key.step, pk.body with
  | some x, .stitch p cs =>
    let k := key.phase
    let again := match halfFind x k key.minus j with | some h => h.got.contains seq | none => false
    if x.stage = 1 ∧ halfDone s x k key.minus j then pure false
    else if again then pure true
    else if (grpPhases s key.g).length ≤ k ∨ ringSize s key.g k ≤ j ∨ j = originChunk s key.g k key.minus then pure true
    else match decideTerm s x k key.minus j with
      | none => pure false
      | some late =>
        let owner := j == ringPos s key.g k
        let (x, h) ← halfOpen x k key.minus j late
        if !owner && credOf s key == 0 then do
          putBk x
          pure false
        else do
          let x ← if owner then ownerTake x h off seq p cs else passTake x h key off seq p cs
          bkAfter x
          slotFreed key
          pure true
  | _, _ => pure false

/-- Partials that start here go out while slots are granted. -/
def originTry (g b : Nat) (step : Word) (k : Nat) (minus : Bool) : Act s₀ Bool := do
  let s ← st
  let key : ColKey := ⟨g, b, step, k, minus⟩
  match findBk s g b step with
  | none => pure false
  | some x =>
    let j := originChunk s g k minus
    if halfDone s x k minus j || credOf s key == 0 then pure false
    else match decideTerm s x k minus j with
      | none => pure false
      | some late => do
        let (x, h) ← halfOpen x k minus j late
        let x ← originTake x h key
        bkAfter x
        pure true

/-- (step, bucket) in ascending order. -/
def bkBefore (a b : ColBk) : Bool :=
  if a.step = b.step then decide (a.b < b.b) else decide ((b.step - a.step).toNat < 2 ^ 31)

def bkInsert (x : ColBk) : List ColBk → List ColBk
  | [] => [x]
  | y :: l => if bkBefore x y then x :: y :: l else y :: bkInsert x l

/-- The directions of a bucket's rings. -/
def bkKeys (s : State) (x : ColBk) : List ColKey :=
  (phaseList s x.g).flatMap fun k => [⟨x.g, x.b, x.step, k, false⟩, ⟨x.g, x.b, x.step, k, true⟩]

/-- Contexts close behind the buckets that have passed and open for the next ones. -/
def ctxTurn : Act s₀ Unit := do
  let s ← st
  each s.col.ctx ctxClose
  let s ← st
  each (s.col.bk.foldl (fun l x => bkInsert x l) []) fun x =>
    each (bkKeys s x) fun key =>
      if s.col.ctx.any (fun c => c.key == key) || (x.stage != 1 && dirDone s x key.phase key.minus) then skip
      else ctxOpen key

/-- One round over everything that can move. -/
def stitchRound : Act s₀ Bool := do
  let s ← st
  let held := s.col.held
  modCol fun c => { c with held := [] }
  let left ← foldA held ([], false) fun (acc : List Packet × Bool) pk => do
    if ← stitchTry pk then pure (acc.1, true) else pure (acc.1 ++ [pk], acc.2)
  modCol fun c => { c with held := left.1 ++ c.held }
  let s ← st
  let sent ← foldA (s.col.bk.flatMap (bkKeys s)) false fun r key => do
    let y ← originTry key.g key.b key.step key.phase key.minus
    pure (r || y)
  ctxTurn
  pure (left.2 || sent)

def stitchRounds : Nat → Act s₀ Unit
  | 0 => skip
  | f + 1 => do
    if ← stitchRound then stitchRounds f else skip

/-- Everything that can move does: each round moves at least one held packet or spends a granted slot. -/
def stitchAll : Act s₀ Unit := do
  let s ← st
  stitchRounds (s.col.held.length + (s.col.cred.map Prod.snd).sum + 2)

end Sys2Proof.Machine
end

