-- ==== Sys2Proof/Machine/Collect.lean ====
section
/-! DEFINITION. The collectives' commands (R234 to R251): REDUCE_SCATTER with and without low-rank
thinning, ALL_GATHER, the COL packets, the straggler deadline and the timeout. -/

namespace Sys2Proof.Machine

variable {s₀ : State}

/-! ### All-gather (R249) -/

def isAg (g b : Nat) (step : Word) (stage : Nat) (x : ColAg) : Bool :=
  x.g == g && x.b == b && x.step == step && x.stage == stage

def findAg (s : State) (g b : Nat) (step : Word) (stage : Nat) : Option ColAg := s.col.ag.find? (isAg g b step stage)

def putAg (x : ColAg) : Act s₀ Unit :=
  modCol fun c => { c with ag := mapIf (isAg x.g x.b x.step x.stage) (fun _ => x) c.ag }

def agOpen (g b : Nat) (step : Word) (stage : Nat) (op : Option OpRef) : Act s₀ Unit := do
  colSeen g step
  let s ← st
  match findAg s g b step stage with
  | some x => if op.isSome then putAg { x with op := op } else skip
  | none => modCol fun c => { c with ag := c.ag ++ [⟨stage, g, b, step, op, [], [], s.ts⟩] }

/-- Elements and element bytes of the tensor a gather carries. -/
def agDims (s : State) (x : ColAg) : Nat × Nat :=
  let e := bktSee s x.g x.b
  match x.stage with
  | 0 => (e.elems, e.wb)
  | 1 => (e.rows * e.rank, 4)
  | _ => (e.cols * e.rank, 4)

/-- Everything of phase k has come. -/
def agGot (s : State) (x : ColAg) (k : Nat) : Bool :=
  let (m, w) := agDims s x
  (mapGet x.recv k).getD 0 == w * ((regionAt s x.g m k).2 - (regionAt s x.g m (k + 1)).2)

/-- Pieces in order of offset. -/
def pieces (l : List (Nat × List Byte)) : List (Nat × List Byte) := l.foldl (fun m x => mapSet m x.1 x.2) []

/-- The base of each table that an all-gather's operation holds (R86). -/
def agHold (s : State) (x : ColAg) : List (Nat × Bool × Word) :=
  match x.op.bind (findOp s) with
  | some o => o.hold
  | none => []

/-- Bytes of the weights of a bucket, read where R23 selects. -/
def weightRead (x : ColAg) (a n : Nat) : Act s₀ (Except Nat (List Byte)) := do
  let s ← st
  foldA (weightParts a n) (.ok []) fun r p =>
    match r with
    | .error e => pure (.error e)
    | .ok b =>
      match placeHeld (agHold s x) s (grpOwner s x.g) (a + p.1) p.2 true with
      | .here l => do
        match ← locRead l p.2 ((x.op.bind (findOp s)).bind Op.who) with
        | .ok y => pure (.ok (b ++ y))
        | .error e => pure (.error e)
      | .far _ _ => pure (.error BAD_DESCRIPTOR)
      | .bad e _ => pure (.error e)

/-- Bytes of the weights of a bucket, written where R23 selects: into a row of a linked table as a write of the table's own. -/
def weightWrite (x : ColAg) (a : Nat) (b : List Byte) : Act s₀ Unit := do
  let s ← st
  each (weightParts a b.length) fun p => do
    let bs := (b.drop p.1).take p.2
    match placeHeld (agHold s x) s (grpOwner s x.g) (a + p.1) p.2 true, Loc.ofAddr (a + p.1) with
    | .here _, .table t r off =>
      match tdGet s t with
      | some d => do
        let base := match (agHold s x).find? fun h => h.1 == t with | some h => h.2.1 | none => captureBase d true
        let _ ← writePart t d r off base true bs none
        skip
      | none => skip
    | .here l, _ => do
      let _ ← locWrite l bs none
      skip
    | _, _ => skip

/-- The weights may be written now: not into an inactive base before its drain and the catch-up pass (R24). -/
def weightFree (s : State) (a : Nat) : Bool :=
  match Loc.ofAddr a with
  | .table t _ _ => (tdGet s t).all fun d => captureBase d true == d.active || writable s t d
  | _ => true

/-- Bytes a chip holds for a phase. -/
def agBytes (x : ColAg) (lo n : Nat) : Act s₀ (Except Nat (List Byte)) := do
  let s ← st
  if x.stage = 0 then weightRead x ((bktSee s x.g x.b).weight + lo) n
  else match findBk s x.g x.b x.step with
    | some y => pure (.ok (((pieces y.full).filter fun p => decide (lo ≤ p.1 ∧ p.1 < lo + n)).flatMap Prod.snd))
    | none => pure (.ok [])

/-- GATHER packets of at most 4,096 B along an axis line. -/
def gatherSend (x : ColAg) (k base : Nat) (b : List Byte) : Act s₀ Unit := do
  let s ← st
  let ps := if b.isEmpty then [] else chunks 4096 b
  each ((List.range ps.length).zip ps) fun p => do
    let h := colHdr s x.g 0xE2 (myCoord s) (colAddr ⟨x.g, x.b, x.step, k, false⟩ ((base + 4096 * p.1) % 2 ^ 28))
      p.2.length p.1 ps.length
    send .fabric (.packet (.of { h with mcast := BitVec.ofNat 2 (phaseAxis s x.g k + 1) } (.raw p.2)))

/-- The shards that a region of the given phases falls into, ascending. -/
def shardsIn (s : State) (g : Nat) : List Nat → Nat × Nat → List (Nat × Nat)
  | [], r => [r]
  | k :: ks, r => (List.range (ringSize s g k)).flatMap fun j =>
    let c := chunkOf r.2 (ringSize s g k) j
    shardsIn s g ks (r.1 + c.1, c.2)

/-- The pieces that a chip, given by what it holds of the region of a phase, multicasts in that phase: shards of one chip each. -/
def piecesIn (s : State) (g k : Nat) (r : Nat × Nat) : List (Nat × Nat) := shardsIn s g ((phaseList s g).drop (k + 1)) r

/-- The sends of an all-gather, in reverse ORDER, as far as what it holds allows: in each phase its own shard first, then the
pieces it has received, each numbered by itself (R239, R249). -/
def agSends (g b : Nat) (step : Word) (stage : Nat) : List Nat → Act s₀ Unit
  | [] => skip
  | k :: ks => do
    let s ← st
    match findAg s g b step stage with
    | none => skip
    | some x =>
      if x.op.isNone then skip
      else do
        if x.sent.contains k then skip
        else do
          let (m, w) := agDims s x
          let outer := regionAt s g m (k + 1)
          let inner := shardOf s g m
          let e ← foldA (inner :: (piecesIn s g k outer).filter (· != inner)) OK fun (e : Nat) r => do
            if e ≠ OK ∨ r.2 = 0 then pure e
            else match ← agBytes x (w * r.1) (w * r.2) with
              | .ok bs => do
                gatherSend x k (w * r.1) bs
                pure OK
              | .error e => pure e
          modCol fun c => { c with ag := mapIf (isAg g b step stage) (fun y => { y with sent := y.sent ++ [k], since := s.ts }) c.ag }
          match e, x.op with
          | 0, _ => skip
          | e, some r => endOp r e 0
          | _, none => skip
        let s ← st
        match findAg s g b step stage with
        | some x => if agGot s x k then agSends g b step stage ks else skip
        | none => skip

/-- The gather goes on; true once everything is sent and received. -/
def agGo (g b : Nat) (step : Word) (stage : Nat) : Act s₀ Bool := do
  let s ← st
  agSends g b step stage (phaseList s g).reverse
  let s ← st
  match findAg s g b step stage with
  | some x => pure ((phaseList s g).all fun k => x.sent.contains k && agGot s x k)
  | none => pure false

/-- An ALL_GATHER ends. -/
def agTurn (g b : Nat) (step : Word) : Act s₀ Unit := do
  if ← agGo g b step 0 then do
    let s ← st
    match findAg s g b step 0 with
    | some x => do
      match x.op with
      | some r => endOp r OK 0
      | none => skip
      modCol fun c => { c with ag := c.ag.filter fun y => !isAg g b step 0 y }
    | none => skip
  else skip

/-! ### Low-rank thinning (R248) -/

/-- A sum of exact products. -/
def dotV (a b : List Nat) : FV := sumFV (List.zipWith (fun x y => (v32 x).mul (v32 y)) a b)

/-- A sum of exact products rounded once to fp32 (R131). -/
def dotF (a b : List Nat) : Nat := r32 (dotV a b)

def transp (cols : Nat) (rows : List (List Nat)) : List (List Nat) :=
  (List.range cols).map fun j => rows.map fun r => r.getD j 0

/-- The rows of A·B before their rounding, from the rows of A and the columns of B. -/
def matVal (rowsA colsB : List (List Nat)) : List (List FV) := rowsA.map fun r => colsB.map fun c => dotV r c

/-- The rows of A·B, from the rows of A and the columns of B. -/
def matMul (rowsA colsB : List (List Nat)) : List (List Nat) := rowsA.map fun r => colsB.map fun c => dotF r c

/-- Modified Gram-Schmidt on columns, ascending: each is freed of the earlier ones and scaled by the
reciprocal root of its square sum. -/
def gramSchmidt (cols : List (List Nat)) : List (List Nat) :=
  cols.foldl (fun done v =>
    let v := done.foldl (fun v q => let r := dotF q v; List.zipWith (fun x y => fsub x (fmul r y)) v q) v
    let n := frsqrt (dotF v v)
    done ++ [v.map fun x => fmul x n]) []

def nums4 (b : List Byte) : List Nat := (chunks 4 b).map leNat

/-- A local fp32 array; unreadable lines as NaN. -/
def thinRead (a n : Nat) (who : Option Who) : Act s₀ (List Nat × Bool) := do
  let l := Loc.ofAddr a
  match ← readLines l (4 * n) who with
  | .error _ => pure (List.replicate n nanC, true)
  | .ok x => pure (((List.range n).zip (nums4 x.bytes)).map fun y => if lineOk l x (4 * y.1) then y.2 else nanC, !x.bad.isEmpty)

/-- M = G + E and P = M·Q0 when a thinned bucket is admitted. -/
def thinStart (x : ColBk) (o : Op) : Act s₀ ColBk := do
  let s ← st
  let e := bktSee s x.g x.b
  let (g, b1) ← wellTake e.slot e.off e.elems o.who
  let (r, b2) ← thinRead e.resid e.elems o.who
  let (q, b3) ← thinRead e.qprev (e.cols * e.rank) o.who
  let m := List.zipWith fadd g r
  let p := matMul (chunks e.cols m) (transp e.rank (chunks e.rank q))
  pure { x with mats := [m], vecs := [(0, p.flatten)], fault := x.fault || b1 || b2 || b3 }

/-- The gathered vector of the present stage. -/
def thinFull (x : ColBk) : List Nat := nums4 ((pieces x.full).flatMap Prod.snd)

/-- P is in: orthonormalised, and Q = transpose(M)·P goes into the second all-reduce. -/
def thinSecond (x : ColBk) : Act s₀ Unit := do
  let s ← st
  let e := bktSee s x.g x.b
  let p := thinFull x
  let ps := gramSchmidt (transp e.rank (chunks e.rank p))
  let q := matMul (transp e.cols (chunks e.cols (x.mats.getD 0 []))) ps
  let nf := (accOf x (grpPhases s x.g).length).nonfinite || p.any fun c => !codeFin c
  putBk { x with stage := 2, halves := [], res := [], full := [], vecs := [(0, q.flatten)],
                 accs := [(0, pfxNf pfxZero nf)], mats := [x.mats.getD 0 [], ps.flatten], since := s.ts }

/-- Q is in: the own shard of P·transpose(Q) is written, and the residual and Q unless a value is not
finite. -/
def thinLast (x : ColBk) : Act s₀ Unit := do
  let s ← st
  let e := bktSee s x.g x.b
  let d := grpOwner s x.g
  let k := (grpPhases s x.g).length
  let q := thinFull x
  let pr := transp e.rows (chunks e.rows (x.mats.getD 1 []))
  let vals := (matVal pr (chunks e.rank q)).flatten
  let prod := vals.map r32
  let sh := shardOf s x.g e.elems
  let mine := (prod.drop sh.1).take sh.2
  let nf := (accOf x k).nonfinite || q.any (fun c => !codeFin c) || prod.any fun c => !codeFin c
  let who := (x.op.bind (findOp s)).bind Op.who
  lpeCount (watchOf s d 1 e.tensor) d x.step
    (((vals.drop sh.1).take sh.2).map fun v => judge .fp32 (r32 v) 0 v.isZero false)
  let out := if grpZero s x.g then mine.map fun c => if codeFin c then c else 0 else mine
  let e1 ← locWrite (Loc.ofAddr e.dest) (out.flatMap (leBytes 4)) who
  let e2 ← if nf then pure OK else do
    let a ← locWrite (Loc.ofAddr e.resid) ((List.zipWith fsub (x.mats.getD 0 []) prod).flatMap (leBytes 4)) who
    let b ← locWrite (Loc.ofAddr e.qprev) (q.flatMap (leBytes 4)) who
    pure (if a = OK then b else a)
  bump (COL + 0x24)
  if nf then bump (COL + 0x1C) else skip
  putBk { x with done := true, fault := x.fault || e1 != OK || e2 != OK, accs := mapSet x.accs k (pfxNf (accOf x k) nf), since := s.ts }
  verShard x.g x.step nf
  verGo x.g x.step 5
  bkFinish x.g x.b x.step

/-- The all-reduce of a thinned bucket's present stage goes on; true when a stage has ended. -/
def thinTurn (g b : Nat) (step : Word) : Act s₀ Bool := do
  let s ← st
  match findBk s g b step with
  | none => pure false
  | some x =>
    let k := (grpPhases s g).length
    match mapGet x.vecs k with
    | none => pure false
    | some piece =>
      if x.stage = 0 ∨ x.done ∨ x.op.isNone then pure false
      else do
        let sh := shardOf s g (bkLen s x)
        if sh.2 = 0 then skip else putBk { x with full := mapSet x.full (4 * sh.1) (piece.flatMap (leBytes 4)) }
        agOpen g b step x.stage x.op
        if ← agGo g b step x.stage then do
          modCol fun c => { c with ag := c.ag.filter fun y => !isAg g b step x.stage y }
          let s ← st
          match findBk s g b step with
          | some y => do
            if y.stage = 1 then thinSecond y else thinLast y
            pure true
          | none => pure false
        else pure false

/-- Everything that can move does. -/
def colPump : Act s₀ Unit := do
  oldTouch
  stitchAll
  let s ← st
  let go ← foldA (s.col.bk.filter fun x => x.stage != 0) false fun r x => do
    let y ← thinTurn x.g x.b x.step
    pure (r || y)
  if go then do
    stitchAll
    let s ← st
    each (s.col.bk.filter fun x => x.stage != 0) fun x => do
      let y ← thinTurn x.g x.b x.step
      if y then stitchAll else skip
  else skip

/-! ### Admission (R234) -/

def colFieldsBad (o : Op) : Bool := !o.zero 16 3 5 || !o.zero 17 0 8 || !o.zero 24 0 320

/-- All of a bucket's weights lie in this chip's memory. -/
def weightChk (s : State) (o : Op) (e : Bkt) : Bool × Nat × Nat :=
  let far := (weightParts e.weight (e.wb * e.elems)).any fun p =>
    match place s o.d (e.weight + p.1) p.2 true with
    | .far _ _ => true
    | _ => false
  match firstBad ((weightParts e.weight (e.wb * e.elems)).map fun p => rangeChk s o (e.weight + p.1) p.2 true) with
  | some x => (true, x)
  | none => badIf far

/-- The entry is read by the operation that names it. -/
def admCol (o : Op) : Act s₀ Adm := do
  let s ← st
  let g := colGroup o
  match firstBad [badIf (colFieldsBad o), (!bit (regOf s COL) 0, NOT_SUPPORTED, 0), badIf (!grpValid s g),
      (grpOwner s g != o.d, REFUSED_QUOTA, 6), badIf (decide (grpBuckets s g ≤ colBucket o))] with
  | some x => pure (some x)
  | none =>
    match ← hbmRead (bktAddr s g (colBucket o)) 64 o.who with
    | .error e => pure (some (e, 0))
    | .ok b =>
      let e := bktOf b
      let twin := s.ops.any fun x => x.ref != o.ref && colPhase x.phase && x.code == 7 && colGroup x == g
        && colSub x == colSub o && colBucket x == colBucket o && x.step == o.step
      pure (firstBad [badIf (bktBad s o.d g e || twin), rangeChk s o e.dest e.destB true,
        if e.thin then rangeChk s o e.resid (4 * e.elems) true else badIf false,
        if e.thin then rangeChk s o e.qprev (4 * e.cols * e.rank) true else badIf false,
        if colSub o = 1 then weightChk s o e else badIf false,
        badIf (if e.thin then colSub o == 0 && colCells o == 0 else colCells o != 0), cellShare s o.d (colCells o),
        ((bitsOf 32 (colCells o)).any fun c => !cellStitch s c 2, REFUSED_QUOTA, 1),
        (groupLost s g, FABRIC_LOST, 0)])

/-! ### REDUCE_SCATTER -/

/-- Elements of the late halves, dropped when the operation is admitted (R246). -/
def dropLate (x : ColBk) : Act s₀ Unit := do
  let s ← st
  if grpDrop s x.g ∧ x.stage = 0 then
    let e := bktSee s x.g x.b
    each (x.halves.filter fun h => h.late) fun h => do
      let p := halfSpan s x h.phase h.minus h.chunk
      let _ ← slotWrite e.slot (e.off + p.1) (List.replicate p.2 0) none
      skip
  else skip

/-- A COL operation is admitted: its region, and for weights their table's base (R23, R86); of a reduction the stitchers see it,
its terms are taken from now on, and those already late may be dropped (R244 to R246). -/
def colAdmitted (r : OpRef) : Act s₀ Unit := do
  let s ← st
  match findOp s r with
  | none => skip
  | some o => do
    let g := colGroup o
    let b := colBucket o
    let e := bktSee s g b
    if colSub o = 1 then do
      setRegion r ((weightParts e.weight (e.wb * e.elems)).flatMap fun p => regionOf s o.d (e.weight + p.1) p.2 true)
      captureAddr r e.weight true
    else do
      setRegion r [(0, e.dest, e.destB)]
      bkOpen g b o.step
      let s ← st
      match findBk s g b o.step with
      | none => skip
      | some x => do
        dropLate x
        putBk { x with op := some r, since := s.ts }

/-- A plain bucket on a group without a ring: the chip's terms are the shard. -/
def alone (x : ColBk) : Act s₀ Unit := do
  let s ← st
  if !(grpPhases s x.g).isEmpty ∨ x.stage ≠ 0 ∨ x.done then skip
  else do
    let e := bktSee s x.g x.b
    let d := grpOwner s x.g
    let (cs, bad) ← takeTerm x 0 0 e.elems
    let _ ← locWrite (Loc.ofAddr e.dest) (cs.flatMap (leBytes 4)) none
    lpeCount (watchOf s d 1 e.tensor) d x.step (cs.map fun c => judge .fp32 c 0 true false)
    bkAfter { x with fault := x.fault || bad, vecs := [(0, cs)], accs := [(0, pfxNf pfxZero (cs.any fun c => !codeFin c))] }

/-- Thinning goes on unless a second residue mismatch on one of its cells ends the operation (R321). -/
def thinning (o : Op) (ms : List EngMiss) (k : Act s₀ Unit) : Act s₀ Unit := do
  match ← engMiss (bitsOf 32 (colCells o)) o ms with
  | some m => endOp o.ref RESIDUE_FAULT (residueDetail m.cell.val 2)
  | none => k

/-- The cells of a thinned bucket are idle, or the operation waits for them. -/
def colStart (o : Op) (ms : List EngMiss) : Act s₀ Unit := do
  let s ← st
  let g := colGroup o
  let b := colBucket o
  let cells := bitsOf 32 (colCells o)
  if cells.any fun c => (cellAt s c).resetting then endClean o.ref TARGET_RESET 0
  else if cells.any (cellBusy s) then waitRes o
  else do
    putOp { resumed s o with phase := .running }
    each cells fun c => do
      let s ← st
      setCell c { cellAt s c with holder := some (o.ref, 3) }
    thinning o ms do
      let s ← st
      match findBk s g b o.step with
      | none => skip
      | some x => do
        let x := { x with since := s.ts }
        let x ← if x.stage = 1 then thinStart x o else pure x
        putBk x
        ctxTurn
        alone x
        colPump
        bkFinish g b o.step

def execReduceScatter (r : OpRef) (m : List EngMiss) (s : State) : Host.Outcome State Fault Refusal := perform s do
  let s ← st
  match findOp s r with
  | none => skip
  | some o =>
    if o.code ≠ 7 ∨ colSub o ≠ 0 then skip
    else match o.phase with
      | .ready => colStart o m
      | .waitRes => colStart o m
      | .running => thinning o m colPump
      | _ => skip

/-! ### ALL_GATHER -/

/-- A GATHER packet of a chip carries a factor that the present stage of a thinned bucket still lacks: it is one of the packets
that chip sends in that phase (R239, R249). -/
def thinWants (s : State) (x : ColBk) (k src off n : Nat) : Bool :=
  let c := chunkOf (regionAt s x.g (bkLen s x) k).2 (ringSize s x.g k) (axis src (phaseAxis s x.g k))
  x.stage != 0 && !x.done && !(x.full.any fun p => p.1 == off)
  && (piecesIn s x.g k ((regionAt s x.g (bkLen s x) k).1 + c.1, c.2)).any fun r =>
    decide (4 * r.1 ≤ off ∧ off < 4 * (r.1 + r.2) ∧ (off - 4 * r.1) % 4096 = 0 ∧ n = min 4096 (4 * (r.1 + r.2) - off))

/-- A GATHER packet is taken, unless its weights must wait (R24); it answers whether it was. -/
def gatherTake (pk : Packet) (b : List Byte) : Act s₀ Bool := do
  let s ← st
  let key := keyOf s pk
  let off := fld pk.hdr.addr.toNat 0 28
  let bk := (findBk s key.g key.b key.step).bind fun x =>
    if thinWants s x key.phase pk.hdr.src.toNat off b.length then some x else none
  let stage := match bk with | some x => x.stage | none => 0
  let a := (bktSee s key.g key.b).weight
  if stage = 0 ∧ !weightFree s a then pure false
  else do
    agOpen key.g key.b key.step stage none
    let s ← st
    match findAg s key.g key.b key.step stage with
    | none => skip
    | some x => do
      match bk with
      | some y => putBk { y with full := mapSet y.full off b, since := s.ts }
      | none => weightWrite x (a + off) b
      putAg { x with recv := mapSet x.recv key.phase ((mapGet x.recv key.phase).getD 0 + b.length), since := s.ts }
    if stage = 0 then agTurn key.g key.b key.step else colPump
    pure true

/-- The held GATHER packets that can be taken are. -/
def gathersAll : Act s₀ Unit := do
  oldTouch
  let s ← st
  each s.col.held fun pk =>
    match pk.body with
    | .raw b => do
      if ← gatherTake pk b then modCol fun c => { c with held := c.held.erase pk } else skip
    | _ => skip

def execAllGather (r : OpRef) (s : State) : Host.Outcome State Fault Refusal := perform s do
  let s ← st
  match findOp s r with
  | none => skip
  | some o =>
    if o.code ≠ 7 ∨ colSub o ≠ 1 then skip
    else match o.phase with
      | .ready => do
        putOp { o with phase := .running }
        agOpen (colGroup o) (colBucket o) o.step 0 (some r)
        gathersAll
        agTurn (colGroup o) (colBucket o) o.step
      | .running => do
        gathersAll
        agTurn (colGroup o) (colBucket o) o.step
      | _ => skip

/-! ### Packets and deadlines -/

/-- A COL packet of a VALID group that has not failed here; others are consumed without effect. -/
def colArrive (p : Fin 8) (pk : Packet) (opc : Nat) (k : ColKey → Act s₀ Unit) : Act s₀ Unit := do
  let s ← st
  if pk.hdr.op.toNat ≠ opc ∨ pk.hdr.cls ≠ 4 ∨ 6 ≤ p.val then skip
  else portTake p.val pk do
    let key := keyOf s pk
    if !grpValid s key.g || groupLost s key.g || decide (grpBuckets s key.g ≤ key.b) then skip else k key

/-- STITCH (R235): the packet takes its slot, and everything that can move does. -/
def execStitch (p : Fin 8) (pk : Packet) (s : State) : Host.Outcome State Fault Refusal := perform s <|
  colArrive p pk 0xE0 fun key => do
    bkOpen key.g key.b key.step
    modCol fun c => { c with held := c.held ++ [pk] }
    ctxTurn
    colPump

/-- GRANT (R238): slots of the downstream context. Fewer than the 32 of an opening context are slots that
come back; those of a bucket that has ended here are of no use any more. -/
def execGrant (p : Fin 8) (pk : Packet) (s : State) : Host.Outcome State Fault Refusal := perform s <|
  colArrive p pk 0xE1 fun key => do
    let s ← st
    let n := fld pk.hdr.addr.toNat 0 16
    if n < 32 ∧ findBk s key.g key.b key.step = none then skip
    else do
      bkOpen key.g key.b key.step
      credAdd key n
      ctxTurn
      colPump

/-- GATHER (R249): weights are written at the own WEIGHT, factors of a thinned bucket kept. -/
def execColGather (p : Fin 8) (pk : Packet) (s : State) : Host.Outcome State Fault Refusal := perform s <|
  colArrive p pk 0xE2 fun _ =>
    match pk.body with
    | .raw _ => do
      modCol fun c => { c with held := c.held ++ [pk] }
      gathersAll
    | _ => skip

/-- VERDICT (R242): a bit of one axis line. -/
def execVerdict (p : Fin 8) (pk : Packet) (s : State) : Host.Outcome State Fault Refusal := perform s <|
  colArrive p pk 0xE3 fun key => do
    let add (v : ColVer) : ColVer := { v with got := v.got ++ [(key.phase, bit pk.hdr.addr.toNat 0)] }
    modCol fun c =>
      if c.ver.any fun v => v.g == key.g && v.step == key.step then
        { c with ver := mapIf (fun v => v.g == key.g && v.step == key.step) add c.ver }
      else { c with ver := c.ver ++ [add ⟨key.g, key.step, 0, false, 0, []⟩] }
    verGo key.g key.step 5

/-- STRAGGLER_DEADLINE (R244, R245): the terms still missing at T_exp are late. -/
def execStragglerDeadline (g : Fin 4) (s : State) : Host.Outcome State Fault Refusal := perform s do
  let s ← st
  if s.col.bk.any fun x => x.g == g.val && colExpired s g.val x.step then colPump else skip

/-- What of a group has made no progress for TIMEOUT_MS: the bucket of an open context, or an admitted all-gather (R250, R251). -/
def colStuck (s : State) (g : Nat) : Bool :=
  (s.col.ctx.any fun c => c.key.g == g && match findBk s g c.key.b c.key.step with
    | some x => due s x.since (grpTimeout s g)
    | none => false)
  || s.col.ag.any fun x => x.g == g && x.op.isSome && due s x.since (grpTimeout s g)

/-- COL_TIMEOUT (R251): a bucket of the group made no progress for TIMEOUT_MS. -/
def execColTimeout (g : Fin 4) (s : State) : Host.Outcome State Fault Refusal := perform s do
  let s ← st
  if colStuck s g.val then do
    oldTouch
    bump (COL + 0x20)
    colFail g.val REMOTE_TIMEOUT
    fltGroup g.val
  else skip

end Sys2Proof.Machine
end

