-- ==== Sys2Proof/Machine/Fabric.lean ====
section
/-! DEFINITION. Received fault records (R229, R230), redirects (R96, R220), the epoch switch (R226), and TIME (R307). -/

namespace Sys2Proof.Machine

variable {s₀ : State}

/-! ### Fault records, redirects, epochs -/

/-- FAULT (R229, R230): a record not seen before is entered, acted on and flooded on; others are consumed. -/
def execFault (p : Fin 8) (pk : Packet) (s : State) : Host.Outcome State Fault Refusal := perform s <|
  if pk.hdr.op ≠ 0xC0 ∨ pk.hdr.cls ≠ 3 ∨ 6 ≤ p.val then skip
  else portTake p.val pk do
    let s ← st
    match pk.body with
    | .fault f =>
      if s.rte.seen.contains (f.origin, f.oinc, f.fseq) then skip
      else do
        bump (RTE + 0x220)
        fltNew f (some p.val)
    | _ => skip

/-- The request of a slot goes out again, to the chip named: a new injection, which takes its epoch then (R225). -/
def reissue (q : Req) (dest : Coord) (redirects : Nat) : Act s₀ Unit := do
  let s ← st
  let pk : Packet := { q.pk with hdr := { q.pk.hdr with dst := dest } }
  modReq q.optag fun x => { x with
    dest := dest, inc := knownInc s dest.toNat, pk := pk, redirects := redirects, busy := false, since := s.ts }
  sendPk pk

/-- A redirect answers a part of a pool request that its owner forwarded: the part becomes a request of its own, and the
slot expects one answer fewer (R68, R96). -/
def splitReq (q : Req) (r : PoolReq) (part : List (Nat × Nat × Nat)) (owner : Coord) (pk : Packet) : Act s₀ Req := do
  let s ← st
  let t := freeTag s.reqs s.reqs.length s.rte.tag
  let h : Hdr := { q.pk.hdr with optag := t, dst := owner, len := BitVec.ofNat 13 (32 + 16 * part.length) }
  let x : Req := { q with
    optag := t, dest := owner, inc := none, pk := .of h (.poolReq { r with entries := part }), left := 1, direct := false, since := s.ts }
  modRte fun y => { y with tag := t + 1 }
  emit (.reqs (s.reqs ++ [x]))
  slotNext q pk 0
  pure x

/-- REDIRECT (R96, R220): BUSY has the request reissued 2 µs later and is not counted; another redirect
sends it to the owner named, and the fourth ends it REMOTE_TIMEOUT. -/
def execRedirect (p : Fin 8) (pk : Packet) (s : State) : Host.Outcome State Fault Refusal :=
  perform s <| answered p pk 0x96 fun q => do
    match pk.body with
    | .redirect owner busy part => do
      let q ← match q.pk.body with
        | .poolReq r => if part.isEmpty ∨ pk.hdr.src = q.dest then pure q else splitReq q r part owner pk
        | _ => pure q
      let s ← st
      if busy then modReq q.optag fun x => { x with busy := true, since := s.ts, pk := { x.pk with hdr := { x.pk.hdr with dst := owner } } }
      else if q.redirects + 1 ≥ 4 then reqFail q REMOTE_TIMEOUT 0
      else reissue q owner (q.redirects + 1)
    | _ => skip

/-- BUSY_REISSUE (R220). -/
def execBusyReissue (optag : BitVec 16) (s : State) : Host.Outcome State Fault Refusal := perform s do
  let s ← st
  match s.reqs.find? fun q => q.optag == optag && q.busy with
  | some q => if due s q.since 2000 then reissue q q.pk.hdr.dst q.redirects else skip
  | none => skip

/-- OLD_CLEAR (R226). -/
def execOldClear (s : State) : Host.Outcome State Fault Refusal := perform s do
  let s ← st
  if oldCount s = 0 ∧ due s s.rte.oldTs (1000 * fld (regOf s (RTE + 0xC)) 0 16) then regFld (RTE + 8) 2 1 1 else skip

/-! ### TIME (R307) -/

def timeRoot (s : State) : Bool := fld (regOf s (CLK + 0x20)) 0 18 == myCoord s

/-- HOPS as the neighbour on a port last gave it. -/
def portHops (s : State) (p : Nat) : Nat := if portUp s p then (linkAt s p (upHalf s p)).timeHops.toNat else 0xFFFF

/-- The upstream port. -/
def timeUp (s : State) : Option Nat :=
  let root := fld (regOf s (CLK + 0x20)) 0 18
  let esc := ((offs s root).find? fun x => x.2 != 0).bind fun x => dirPort s (offDir x)
  match esc.bind fun p => if portHops s p != 0xFFFF then some p else none with
  | some p => some p
  | none =>
    let l := [0, 1, 2, 3, 4, 5].filterMap fun d => (dirPort s d).bind fun p => if portHops s p != 0xFFFF then some (portHops s p, p) else none
    let m := l.foldl (fun a x => min a x.1) 0xFFFF
    (l.find? fun x => x.1 == m).map Prod.snd

/-- HOPS this chip sends. -/
def timeHops (s : State) : Nat :=
  if timeRoot s then 0
  else match timeUp s with
    | some p => portHops s p + 1
    | none => 0xFFFF

/-- TIME_SEND: every 1 ms on an UP torus port. -/
def execTimeSend (p : Fin 6) (s : State) : Host.Outcome State Fault Refusal := perform s do
  let s ← st
  let h := upHalf s p.val
  let x := linkAt s p.val h
  if !portUp s p.val ∨ (x.timeTs ≠ 0 ∧ !due s x.timeTs 1000000) then skip
  else do
    let hd := mkHdr s 3 0xC3 (hop s (myCoord s) (portDir s p.val)) 0 0 32 0 0 0 0 1
    send (.hop (portDir s p.val)) (.packet (.of hd (.time ⟨BitVec.ofNat 64 (256 * s.ts), x.timeTx, x.timeRx, BitVec.ofNat 16 (timeHops s)⟩)))
    setLink p.val h { x with timeTs := max 1 s.ts }

/-- The offset of R307, in units of 2^-8 ns. -/
def timeOffset (m : TimeMsg) (rx : BitVec 64) : Int :=
  ((m.echoRx - m.echoTx).toInt - (rx - m.tx).toInt) / 2

/-- TIME: the neighbour's times are kept; from upstream the offset is taken, and before READY TS steps
by one above 1 µs. -/
def execTime (p : Fin 6) (pk : Packet) (rx : BitVec 64) (s : State) : Host.Outcome State Fault Refusal := perform s <|
  if pk.hdr.op ≠ 0xC3 ∨ pk.hdr.cls ≠ 3 then skip
  else linkGate p.val pk do
    freeFl (some (bufOf p.val pk)) (flitsOf pk.hdr)
    match pk.body with
    | .time m => do
      modLink p.val (upHalf s p.val) fun x => { x with timeTx := m.tx, timeRx := rx, timeHops := m.hops }
      let s ← st
      if timeRoot s ∨ timeUp s ≠ some p.val then skip
      else do
        let o := timeOffset m rx
        regSet (CLK + 0x24) (toCode 32 (max (-2147483648) (min 2147483647 o)))
        regFld CLK 3 1 (b2n (decide (o.natAbs < 256000)))
        if !isReady s ∧ 256000 < o.natAbs then emit (.ts ((s.ts : Int) + o / 256).toNat) else skip
    | _ => skip

end Sys2Proof.Machine
end

