-- ==== Sys2Proof/Machine/Xfer.lean ====
section
/-! DEFINITION. The transfer engine (R257, R272), READ and WRITE between chips and from peers (R223, R252,
R258, R259), their answers, and the answers of pool requests. -/

namespace Sys2Proof.Machine

variable {s₀ : State}

/-! ### COPY (R272) -/

def cpHostSrc (o : Op) : Bool := o.flag 16 0
def cpHostDst (o : Op) : Bool := o.flag 16 1
def cpSrc (o : Op) : Nat := o.at 24 8
def cpDst (o : Op) : Nat := o.at 32 8
def cpBytes (o : Op) : Nat := o.at 40 4

def isFar (s : State) (d a n : Nat) : Bool := match place s d a n false with | .far _ _ => true | _ => false

/-- Admission of a COPY. -/
def admCopy (o : Op) : Act s₀ Adm := do
  let s ← st
  let n := cpBytes o
  match firstBad [
      mustZero o [(16, 2, 62), (44, 0, 160)],
      badIf (n == 0 || decide (268435456 < n)),
      badIf (cpHostSrc o && cpHostDst o),
      badIf (decide (2 ^ 64 < cpSrc o + n ∨ 2 ^ 64 < cpDst o + n)),
      badIf (!cpHostSrc o && !cpHostDst o && isFar s o.d (cpSrc o) n && isFar s o.d (cpDst o) n),
      if cpHostSrc o then badIf false else rangeChk s o (cpSrc o) n false,
      if cpHostDst o then badIf false else rangeChk s o (cpDst o) n false] with
  | some x => pure (some x)
  | none => do
    if cpHostSrc o then skip else captureAddr o.ref (cpSrc o) false
    if cpHostDst o then skip else captureAddr o.ref (cpDst o) false
    setRegion o.ref (if cpHostDst o then [(3, hostKey o.d (cpDst o), n)] else regionOf s o.d (cpDst o) n false)
    pure none

/-- The source of a transfer is in hand: all of it goes to the destination. -/
def copyOut (o : Op) (b : List Byte) : Act s₀ Unit := do
  if cpHostDst o then do
    outTo o.ref 3 (hostKey o.d (cpDst o)) b
    finish o.ref OK 0 0
  else do
    let e ← deliver o (cpDst o) b false
    if e ≠ OK then endOp o.ref e 0 else finish o.ref OK 0 0

/-- COPY: the admitted operation moves its bytes, or goes on when a remote source has answered. -/
def execCopy (r : OpRef) (s : State) : Host.Outcome State Fault Refusal := perform s do
  let s ← st
  match findOp s r with
  | none => skip
  | some o =>
    if o.code ≠ 8 ∨ !([OpPhase.ready, .running].contains o.phase) ∨ o.work = .xfer 0 then skip
    else if cpHostSrc o then copyOut o (hostRead s o.who o.d (cpSrc o) (cpBytes o))
    else match ← fetch o (cpSrc o) (cpBytes o) false with
      | .got b => copyOut o b
      | .wait => modOp r fun x => { x with phase := .running }
      | .fail e => endOp r e 0

/-! ### PEER_XFER (R257) -/

def pxPeer (o : Op) : Nat := o.at 16 1
def pxSub (o : Op) : Nat := o.bits 17 0 2
def pxLocal (o : Op) : Nat := o.at 24 8
def pxRemote (o : Op) : Nat := o.at 32 8
def pxBytes (o : Op) : Nat := o.at 40 4
def pxOutN (o : Op) : Nat := o.at 44 4
def pxOut (o : Op) : Nat := o.at 48 8

def peerValid (s : State) (n : Nat) : Bool := bit (regOf s (peerW n 0)) 0
def peerUp (s : State) (n : Nat) : Bool := fld (regOf s (peerW n 0)) 21 2 == 2

/-- REMOTE is no address a peer accepts from outside (R16, R258): local HBM, fabric-global or table-relative. -/
def remoteBad (a : Nat) : Bool :=
  match Loc.ofAddr a with
  | .hbm _ => false
  | .far _ _ => false
  | .table _ _ _ => false
  | _ => true

/-- Admission of a PEER_XFER. -/
def admPeer (o : Op) : Act s₀ Adm := do
  let s ← st
  let n := pxBytes o
  let pool := pxSub o == 2
  match firstBad [
      mustZero o [(17, 2, 6), (18, 0, 48), (56, 0, 64)],
      badIf (if pool then !o.zero 32 0 64 else !o.zero 44 0 96),
      badIf (pxSub o == 3 || n == 0 || decide (16777216 < n) || decide (2 ^ 64 < pxRemote o + n)),
      badIf (!pool && remoteBad (pxRemote o)),
      badIf (!o.zero 48 0 6),
      rangeChk s o (pxLocal o) n false,
      if pool then rangeChk s o (pxOut o) (pxOutN o) false else badIf false,
      badIf (!peerValid s (pxPeer o)),
      (!peerUp s (pxPeer o), REMOTE_TIMEOUT, 0)] with
  | some x => pure (some x)
  | none => do
    captureAddr o.ref (pxLocal o) false
    if pool then captureAddr o.ref (pxOut o) false else skip
    setRegion o.ref (match pxSub o with
      | 0 => regionOf s o.d (pxLocal o) n false
      | 2 => regionOf s o.d (pxOut o) (pxOutN o) false
      | _ => [])
    pure none

/-- The pieces of a range as packets carry it. -/
def piecesOf (cap n : Nat) : List (Nat × Nat) :=
  let c := max 1 cap
  (List.range (cdiv n c)).map fun i => (c * i, min c (n - c * i))

/-- PEER_XFER READ: requests to the peer, whose data are written at LOCAL. -/
def execPeerXferRead (r : OpRef) (s : State) : Host.Outcome State Fault Refusal :=
  perform s <| withOp r .ready 9 fun o => do
    if pxSub o ≠ 0 then skip
    else do
      let s ← st
      let ps := piecesOf (peerCap s (pxPeer o)) (pxBytes o)
      modOp r fun x => { x with phase := .running, work := .xfer 0 }
      each ((List.range ps.length).zip ps) fun x =>
        requestPeer (pxPeer o) r o.d 0x11 (pxRemote o + x.2.1) x.2.2 ps.length (.readMem (pxLocal o + x.2.1))
          (.raw (leBytes 8 (pxLocal o + x.2.1))) x.1

/-- PEER_XFER WRITE: the bytes at LOCAL go to the peer in acknowledged packets. -/
def execPeerXferWrite (r : OpRef) (s : State) : Host.Outcome State Fault Refusal := perform s do
  let s ← st
  match findOp s r with
  | none => skip
  | some o =>
    if o.code ≠ 9 ∨ pxSub o ≠ 1 ∨ !([OpPhase.ready, .running].contains o.phase) ∨ o.work = .xfer 0 then skip
    else match ← fetch o (pxLocal o) (pxBytes o) false with
      | .wait => modOp r fun x => { x with phase := .running }
      | .fail e => endOp r e 0
      | .got b => do
        let s ← st
        let ps := piecesOf (peerCap s (pxPeer o)) b.length
        each ((List.range ps.length).zip ps) fun x =>
          requestPeer (pxPeer o) r o.d 0x10 (pxRemote o + x.2.1) x.2.2 ps.length .write
            (.raw ((b.drop x.2.1).take x.2.2)) x.1
        finish r OK 0 0

/-! ### Pool request blocks (Table 14.3) -/

/-- A pool request block: its head and its arrays. -/
structure PoolBlk where
  reqId : Nat
  table : Nat
  agg   : Nat
  bf16  : Bool
  so    : List Nat
  idx   : List Nat
  ws    : List Nat
deriving DecidableEq, Repr

def numsAt (b : List Byte) (o w n : Nat) : List Nat := (List.range n).map fun i => leAt b (o + w * i) w

/-- The block a message spells; none where a field is out of range, a must-be-zero bit is set, the
segments are out of order or the arrays do not fit. -/
def blkOf (b : List Byte) : Option PoolBlk :=
  let h := leNat (b.take 64)
  let n := leAt b 8 4
  let k := leAt b 12 4
  let agg := fld h 44 3
  let iw := if bit h 48 then 8 else 4
  let ww := if bit h 49 then 2 else 4
  let io := 64 + align64 (4 * (k + 1))
  let wo_ := io + align64 (iw * n)
  let need := if agg = 4 then wo_ + ww * n else io + iw * n
  let so := numsAt b 64 4 (k + 1)
  if b.length < 64 ∨ fld h 50 14 ≠ 0 ∨ fld h 128 384 ≠ 0 ∨ n = 0 ∨ 32768 < n ∨ k = 0 ∨ 4096 < k ∨ b.length < need ∨ 4 < agg
      ∨ so.headD 1 ≠ 0 ∨ so.getLastD 0 ≠ n ∨ (so.zip (so.drop 1)).any (fun x => decide (x.2 < x.1)) then none
  else some ⟨leAt b 0 4, fld h 32 12, agg, bit h 47, so, numsAt b io iw n,
    if agg = 4 then (numsAt b wo_ ww n).map (fun w => if ww = 2 then w * 65536 else w) else []⟩

/-- The element format a request names: that of this chip's table of the same id; open without one. -/
def blkFmt (s : State) (t : Nat) : Nat :=
  match tdGet s t with | some d => d.fmt | none => (Config.freeWord s.nonce 0).toNat % 5

/-- Elements of a result row: as the answers have them; where none has any, of this chip's table, else open. -/
def pxElems (s : State) (t : Nat) (w : PoolWork) : Nat :=
  match (w.maxv.map (fun x => x.2.length) ++ w.sums.map fun x => x.2.length).head? with
  | some n => n
  | none => match tdGet s t with
    | some d => rowElems d
    | none => (Config.freeWord s.nonce 1).toNat % 1025

/-- The block of a PEER_XFER POOL as it was read. -/
def pxBlk (o : Op) : Option PoolBlk :=
  match cacheAt o.cache (2 ^ 64) (pxBytes o) with
  | some b => blkOf b
  | none => none

/-- All answers are in: the result rows are written at OUT. -/
def peerPoolGo (r : OpRef) : Act s₀ Unit := do
  let s ← st
  match findOp s r with
  | some o =>
    match o.work, pxBlk o with
    | .pool w, some k =>
      if (reqsOf s r).isEmpty then do
        let img := poolRows k.agg k.bf16 (pxElems s k.table w) w
        if pxOutN o < img.length then endClean r BAD_DESCRIPTOR 0
        else do
          let e ← deliver o (pxOut o) img false
          if e ≠ OK then endOp r e 0 else finish r OK 0 0
      else skip
    | _, _ => skip
  | none => skip

/-- The request packets of a block, `per` entries each. -/
def blkEnts (k : PoolBlk) : List PEnt := gthEnts k.so k.idx k.ws

/-- PEER_XFER POOL: the request block goes to the peer in pool requests, and the sums of its answers are
written at OUT. -/
def execPeerXferPool (r : OpRef) (s : State) : Host.Outcome State Fault Refusal := perform s do
  let s ← st
  match findOp s r with
  | none => skip
  | some o =>
    if o.code ≠ 9 ∨ pxSub o ≠ 2 ∨ !([OpPhase.ready, .running].contains o.phase) ∨ o.work = .xfer 0 then skip
    else match o.work with
      | .pool _ => peerPoolGo r
      | _ =>
        match ← fetch o (pxLocal o) (pxBytes o) false with
        | .wait => modOp r fun x => { x with phase := .running }
        | .fail e => endOp r e 0
        | .got b =>
          match blkOf b with
          | none => endClean r BAD_DESCRIPTOR 0
          | some k =>
            if k.agg = 0 then endClean r NOT_SUPPORTED 0
            else do
              let s ← st
              let per := max 1 (min (fld (regOf s (GTH + 12)) 0 8) ((peerCap s (pxPeer o) - 32) / 16))
              let w : PoolWork := ⟨[], [], (List.range (k.so.length - 1)).map fun g => k.so.getD (g + 1) 0 - k.so.getD g 0, [], [], [], 0, []⟩
              modOp r fun x => { x with
                phase := .running, work := .pool w,
                cache := (List.range b.length).foldl (fun c i => mapSet c (2 ^ 64 + i) (b.getD i 0)) x.cache }
              let fmt := blkFmt s k.table
              emit .nonce
              each (chunks per (blkEnts k)) fun es =>
                requestPeer (pxPeer o) r o.d 0x13 0 (32 + 16 * es.length) 1 .pool (gthReqBody k.table 0 k.agg fmt es)

/-! ### Serving READ and WRITE (R223, R252, R258, R259) -/

/-- Window `w` grants a right (0 READ, 1 WRITE) over `n` bytes at `off` of chip `c`. -/
def winMem (s : State) (w right c off n : Nat) : Bool :=
  let a := SVC + 0x3000 + 16 * w
  let x := regOf s a
  let base := 4096 * fld (regOf s (a + 4)) 12 20 + 2 ^ 32 * regOf s (a + 8)
  let len := 4096 * regOf s (a + 12)
  bit x 0 && !bit x 1 && bit x (2 + right) && match (Loc.ofAddr base).near s with
    | .hbm b => c == myCoord s && decide (b ≤ off ∧ off + n ≤ b + len)
    | .far k b => c == k && decide (b ≤ off ∧ off + n ≤ b + len)
    | _ => false

/-- The base of a table that a request reaches: of the version its operation captured (R27, R86), else the active one. -/
def capturedBase (d : TDesc) (pk : Packet) : Option Bool :=
  match pk.body with
  | .row (some v) _ _ => baseCaptured d v
  | _ => some d.active

/-- The place a request names: checked against the peer's window or the domain's quota, the capacity and
the table's rows; what belongs elsewhere goes on, or is refused, and a write into an inactive base waits for the drain
and the catch-up pass (R24). `pre` stands before all that happens here. -/
def memServe (v : Via) (pk : Packet) (n right : Nat) (pre : Act s₀ Unit → Act s₀ Unit)
    (k : Nat → Option (Nat × Nat × Bool) → Act s₀ Unit) : Act s₀ Unit := do
  let s ← st
  let ok (c off : Nat) : Bool := match v.peer with
    | none => true
    | some p => winMem s (peerWin s p) right c off n
  match (Loc.ofAddr pk.hdr.addr.toNat).near s with
  | .hbm o =>
    pre (if !(ok (myCoord s) o) then refuseV v pk REFUSED_QUOTA
      else if hbmCap s < o + n then refuseV v pk BAD_DESCRIPTOR
      else if !(inHbmQuota s v.dom o n) then refuseV v pk REFUSED_QUOTA
      else k o none)
  | .far c o =>
    match v.peer with
    | none => refuseV v pk BAD_DESCRIPTOR
    | some p =>
      if !inSlice s c ∨ 2 ^ 40 < o + n then refuseV v pk BAD_DESCRIPTOR
      else if !ok c o then refuseV v pk REFUSED_QUOTA
      else do
        let e ← relayReq p pk v.dom c pk.hdr.addr.toNat pk.body
        if e ≠ OK then refuseV v pk e else skip
  | .table t r b =>
    match tdGet s t with
    | none => refuseV v pk BAD_DESCRIPTOR
    | some d =>
      if r ≥ d.rows ∨ d.rowBytes < b + n then refuseV v pk BAD_DESCRIPTOR
      else if tblBad s t r then refuseV v pk DATA_FAULT
      else match capturedBase d pk with
        | none => refuseV v pk REFUSED_VERSION
        | some base => do
          let m ← mapChk t d r none
          let o := (rowAt s t d r).base base + b
          if m ≠ 0 then refuseV v pk m
          else match v.peer with
          | some _ =>
            if inTblRange s v.dom t && ownsRow s t d r && ok (myCoord s) o then pre (k o (some (t, r, base)))
            else refuseV v pk REFUSED_QUOTA
          | none =>
            let go := if right = 1 ∧ base ≠ d.active ∧ !writable s t d then parkPk pk else pre (k o (some (t, r, base)))
            rowServe pk t d r go
  | _ => refuseV v pk (if v.peer.isSome then REFUSED_QUOTA else BAD_DESCRIPTOR)

/-- The address a READ asks its data for, and the bytes of a packet. -/
def rawOf (pk : Packet) : List Byte := match pk.body with | .raw b => b | .row _ _ b => b | _ => []
def replyAddr (pk : Packet) : Nat := leAt (rawOf pk) 0 8

/-- The payload of an answer about a row carries the owner's entry, if it has one (R96). -/
def rowBody (s : State) (row : Option (Nat × Nat × Bool)) (b : List Byte) : Body :=
  match row.bind fun x => entryOf s x.1 x.2.1 with
  | some e => .row none (some e) b
  | none => .raw b

/-- The entry that an answer carries is cached (R96). -/
def entryIn (pk : Packet) : Act s₀ Unit :=
  match pk.body with
  | .row _ (some e) _ => cacheEntry e
  | .publish e => cacheEntry e
  | _ => skip

/-- A READ served here (R252, R258). -/
def serveRead (v : Via) (pk : Packet) : Act s₀ Unit :=
  let n := pk.hdr.len.toNat
  memServe v pk n 0 id fun o row => do
    match ← hbmRead o n none with
    | .error e => refuseV v pk e
    | .ok b => do
      let s ← st
      let cap := match v.peer with | some p => peerCap s p | none => 4096
      each (piecesOf cap n) fun x =>
        answer v.peer pk 0x91 (replyAddr pk + x.1) x.2 (rowBody s row ((b.drop x.1).take x.2))

/-- R223 step 1: the escapement a packet names belongs to the domain and has its generation, or the packet
is discarded. -/
def escChecked (dom : Nat) (pk : Packet) (k : Act s₀ Unit) : Act s₀ Unit := do
  let i := pk.hdr.esc.toNat
  escSram i
  let s ← st
  if escOwner s i ≠ some dom ∨ (escAt s i).gen ≠ pk.hdr.gen then bump (RTE + 0x218) else k

/-- R223 steps 2 and 3: ADD 1, and from SEQ 0 ARM, act on the escapement a packet names. -/
def escArrived (pk : Packet) : Act s₀ Unit := do
  let i := pk.hdr.esc.toNat
  let _ ← escDo i pk.hdr.gen.toNat (.add 1)
  if pk.hdr.seq = 0 then do
    let _ ← escDo i pk.hdr.gen.toNat (.arm pk.hdr.cnt.toNat)
    skip
  else skip

/-- The payload of a WRITE goes to its place, acts on its escapement and is acknowledged. -/
def writeAt (v : Via) (pk : Packet) (o : Nat) (row : Option (Nat × Nat × Bool)) : Act s₀ Unit := do
  let s ← st
  let b := (rawOf pk).take pk.hdr.len.toNat
  match row.bind fun x => (tdGet s x.1).map fun d => (x, d) with
  | some ((t, r, base), d) => do
    let e ← writePart t d r (o - (rowAt s t d r).base base) base (base != d.active) b none
    if e ≠ OK then refuseV v pk e
    else do
      escArrived pk
      ackRow v pk 0x90 t r
  | none => do
    let e ← hbmWrite o b none
    if e ≠ OK then refuseV v pk e
    else do
      noteFill o b.length
      escArrived pk
      answer v.peer pk 0x90 0 0 .none

/-- A WRITE served here (R223, R252, R258). A peer's WRITE that goes on to another chip meets its
escapement there. -/
def serveWrite (v : Via) (pk : Packet) : Act s₀ Unit :=
  memServe v pk pk.hdr.len.toNat 1 (escChecked v.dom pk) fun o row => writeAt v pk o row

/-- READ: a request for bytes of this chip's HBM. -/
def execRead (p : Fin 8) (pk : Packet) (s : State) : Host.Outcome State Fault Refusal :=
  perform s <| serving p pk 0x11 fun v => serveRead v pk

/-- WRITE: bytes for this chip's HBM. -/
def execWrite (p : Fin 8) (pk : Packet) (s : State) : Host.Outcome State Fault Refusal :=
  perform s <| serving p pk 0x10 fun v => serveWrite v pk

/-! ### Answers -/

/-- WRITE_ACK: one packet of an operation is acknowledged (R223); a peer's WRITE sent on is answered. -/
def execWriteAck (p : Fin 8) (pk : Packet) (s : State) : Host.Outcome State Fault Refusal :=
  perform s <| answered p pk 0x90 fun q =>
    if refusalOf pk ≠ 0 then reqFail q (refusalOf pk) (answerDetail (refusalOf pk))
    else match q.kind with
      | .write => do
        entryIn pk
        slotDone q.optag q.op
      | .relay n r => do
        dropReq q.optag
        answer (some n) r 0x90 0 0 .none
      | .roce n psn => do
        dropReq q.optag
        sendQp n (.roceAck n psn)
      | _ => skip

/-- Data that an operation reads from another chip enter its cache. -/
def cacheIn (r : OpRef) (a : Nat) (b : List Byte) : Act s₀ Unit :=
  modOp r fun o => { o with cache := ((List.range b.length).zip b).foldl (fun c x => mapSet c (a + x.1) x.2) o.cache }

/-- A READ that its target refuses ends its operation. An address outside the target's quota or capacity
leaves nothing read or written (R177, R252): the result region keeps its content. -/
def readRefused (q : Req) (status : Nat) : Act s₀ Unit := do
  match q.op with
  | some r =>
    if status = REFUSED_QUOTA ∨ status = BAD_DESCRIPTOR then modOp r fun o => { o with region := [] } else skip
  | none => skip
  reqFail q status (answerDetail status)

/-- READ_DATA (R223): data for an operation of this chip, under the escapement the packet names; data of a
peer's READ sent on go to the peer. -/
def execReadData (p : Fin 8) (pk : Packet) (s : State) : Host.Outcome State Fault Refusal :=
  perform s <| answered p pk 0x91 fun q =>
    if pk.hdr.len = 0 ∧ refusalOf pk ≠ 0 then readRefused q (refusalOf pk)
    else match q.kind, q.op with
      | .readCache a, some r => escChecked pk.hdr.hd.toNat pk do
        entryIn pk
        cacheIn r a (rawOf pk)
        dropReq q.optag
        escArrived pk
      | .readMem a, some r => escChecked pk.hdr.hd.toNat pk do
        let s ← st
        match findOp s r with
        | some o => do
          let e ← deliver o a (rawOf pk) false
          if e ≠ OK then reqFail q e 0
          else do
            escArrived pk
            slotDone q.optag q.op
        | none => skip
      | .relay n r, _ => do
        dropReq q.optag
        let s ← st
        each (piecesOf (peerCap s n) pk.hdr.len.toNat) fun x =>
          answer (some n) r 0x91 (replyAddr r + x.1) x.2 (.raw (((rawOf pk).drop x.1).take x.2))
      | .roce n psn, _ => do
        dropReq q.optag
        sendQp n (.roceRead n psn (rawOf pk))
      | .image fw a, _ => escChecked pk.hdr.hd.toNat pk do
        dropReq q.optag
        escArrived pk
        imgPiece fw a (rawOf pk)
      | _, _ => skip

def rawRows (rs : List (Nat × List Nat)) : List (Nat × List Byte) := rs.map fun r => (r.1, r.2.map (BitVec.ofNat 8))

/-- What an answered segment adds: a partial as it is, raw rows pooled here (R67). -/
def rspPart (q : PoolReq) (seg : Nat) (b : PartBody) : SegPart :=
  match b with
  | .maxv v => ⟨seg, v, [], 0⟩
  | .xp w v => ⟨seg, [], v.map (xpVal (8 * w - 8)), 0⟩
  | .rows rs =>
    let bytes := rawRows rs
    let val := match fmtOf q.fmt with
      | some f => fun r => rowVals f (lookRow bytes r)
      | none => fun _ => []
    let es := q.entries.filter fun e => e.2.1 == seg && bytes.any fun x => x.1 == e.1
    segPart q.agg val seg (es.map fun e => ⟨e.1, seg, 0, e.2.2⟩)

/-- Pieces of the rows an answer returned raw that had to be recomputed in XPW here (R65). -/
def rspWide (q : PoolReq) (parts : List (Nat × PartBody)) : Nat :=
  if q.agg = 0 then 0 else (parts.map fun x => (rspPart q x.1 x.2).wide).sum

/-- An answer's parts join what an operation has. -/
def joinParts (q : PoolReq) (parts : List (Nat × PartBody)) (w : PoolWork) : PoolWork :=
  if q.agg = 0 then
    { w with rowsIn := w.rowsIn ++ parts.flatMap fun x => match x.2 with | .rows rs => rawRows rs | _ => [] }
  else (parts.map fun x => rspPart q x.1 x.2).foldl addPart w

/-- POOL_RSP (R67, R68): an owner's partials or rows join the operation; forwarded sub-requests add to
the answers it expects. -/
def execPoolRsp (p : Fin 8) (pk : Packet) (s : State) : Host.Outcome State Fault Refusal :=
  perform s <| answered p pk 0x93 fun q => do
    match q.kind, pk.body, q.pk.body with
    | .pool, .poolRsp parts fwd entries, .poolReq r => do
      each entries cacheEntry
      slotNext q pk fwd
      match q.op with
      | none => skip
      | some ref => do
        let wide := rspWide r parts
        if wide = 0 then skip else bump (GTH + 0x20) wide
        let raws := (parts.filter fun x => match x.2 with | .rows _ => r.agg != 0 | _ => false).length
        if raws = 0 then skip else bump (GTH + 0x24) raws
        modOp ref fun o => match o.work with
          | .pool w => { o with work := .pool (joinParts r parts w) }
          | _ => o
        if q.via.isSome then peerPoolGo ref else gatherGo ref
    | .relay n r, .poolRsp parts fwd _, _ => do
      slotNext q pk fwd
      let s ← st
      answer (some n) r 0x93 0 (min (peerCap s n) pk.hdr.len.toNat) (.poolRsp parts fwd [])
    | _, .none, _ => reqFail q (failOf pk) (answerDetail (failOf pk))
    | _, _, _ => skip

end Sys2Proof.Machine
end

