-- ==== Sys2Proof/Machine/Migrate.lean ====
section
/-! DEFINITION. Moving rows between chips (R91 to R99): both ends of a move, publication, forwarded
requests, LOAD and the selection of hot rows. -/

namespace Sys2Proof.Machine

variable {s₀ : State}

/-! ### Forwarded and parked requests (R68, R95 step 6, R96) -/

/-- A request that FWD may carry, served at this chip. -/
def serveAny (pk : Packet) : Act s₀ Unit :=
  let v : Via := ⟨none, pk.hdr.hd.toNat⟩
  match pk.hdr.op.toNat, pk.body with
  | 0x10, _ => serveWrite v pk
  | 0x11, _ => serveRead v pk
  | 0x13, .poolReq q => servePool v pk q
  | 0x14, .contrib c t r g => if c < 16 then serveContrib v pk c t r g else refuseV v pk BAD_DESCRIPTOR
  | 0x16, .rowUpd u => serveRowUpd v pk u
  | _, _ => skip

/-- FWD (R68, R96): a forwarded request is served, parked or answered with a redirect. -/
def execFwd (p : Fin 8) (pk : Packet) (s : State) : Host.Outcome State Fault Refusal := perform s <|
  if pk.hdr.cls ≠ 2 ∨ 6 ≤ p.val then skip
  else arrive p.val pk fun v => do
    let s ← st
    if isReady s then serveAny pk else refuseV v pk TARGET_RESET

/-- Parked requests are looked at again; those whose row is still coming are parked again. -/
def unpark : Act s₀ Unit := do
  oldTouch
  let s ← st
  modTbl fun x => { x with park := [] }
  each s.tbl.park serveAny

/-- CATCH_UP_PASS (R24, R90): once the drain of every linked table is over; writes of rows that waited for it go on. -/
def execCatchUpPass (d : Fin 4) (s : State) : Host.Outcome State Fault Refusal := perform s do
  let s ← st
  let ts := linkedTables s d.val
  if s.hosts.catchUp.getLsbD d.val && ts.all fun x => drained s x.1 x.2 then do
    each ts fun x => catchTable x.1 x.2
    modHosts fun h => { h with catchUp := h.catchUp &&& ~~~(BitVec.ofNat 4 (2 ^ d.val)) }
    unpark
  else skip

/-! ### The new owner (R93, R95) -/

/-- Guest units of the heap (512 B each, 128 to a chunk). -/
def heapUnits (s : State) : Nat := 128 * fld (regOf s (TBL + 0x18)) 0 16

/-- The first unit where `n` units are free. -/
def heapFit (s : State) (n : Nat) : Option Nat :=
  let free (c : Nat) : Bool := decide (c + n ≤ heapUnits s) && s.tbl.guests.all fun g => decide (g.1 + g.2.1 ≤ c ∨ c + n ≤ g.1)
  ((0 :: s.tbl.guests.map fun g => g.1 + g.2.1).filter free).foldl (fun a c => match a with
    | none => some c
    | some b => some (min b c)) none

def guestOf (s : State) (t r : Nat) : Option Nat :=
  (s.tbl.guests.find? fun g => g.2.2.1 == t && g.2.2.2 == r).map Prod.fst

/-- The units and the entry of a guest row are free again. -/
def freeGuest (t r : Nat) : Act s₀ Unit :=
  modTbl fun x => { x with
    guests := x.guests.filter fun g => !(g.2.2.1 == t && g.2.2.2 == r)
    fwdTs := x.fwdTs.filter fun y => !(y.1 == t && y.2.1 == r) }

def inboundDrop (t r : Nat) : Act s₀ Unit :=
  modTbl fun x => { x with inbound := x.inbound.filter fun y => !(y.1 == t && y.2.1 == r) }

/-- Step 1 at N: guest units and a pinned entry, or nothing at the row's home. -/
def reserveHere (t : Nat) (d : TDesc) (r units : Nat) : Act s₀ Bool := do
  let s ← st
  let note : Act s₀ Unit := modTbl fun x => { x with inbound := (x.inbound.filter fun y => !(y.1 == t && y.2.1 == r)) ++ [(t, r, none)] }
  if homeChip s d r = myCoord s ∨ (guestOf s t r).isSome then do
    note
    pure true
  else if 262144 ≤ pinned s + s.tbl.inbound.length then pure false
  else match heapFit s units with
    | some c => do
      modTbl fun x => { x with guests := x.guests ++ [(c, units, t, r)] }
      note
      pure true
    | none => pure false

/-- The bytes of a row and its state are written where this chip keeps the row now. -/
def installBytes (t : Nat) (d : TDesc) (r : Nat) (x : Snap) : Act s₀ Unit := do
  let s ← st
  let p := rowAt s t d r
  let n := pitchOf d.rowBytes
  let put (a : Nat) (b : List Byte) : Act s₀ Unit := do
    let _ ← hbmWrite a b none
    skip
  if d.plink then do
    put p.a (padTo n x.a)
    put p.b (padTo n x.b)
    let _ ← touchRow d p.li
  else put (p.base d.active) (padTo n x.a)
  if stateBytes d = 0 then skip
  else put p.st (padTo (if p.li.isSome then pitchOf (stateBytes d) else stateBytes d) x.st)

/-- A table's layout as the state bytes of an arriving row say (R157; log entry 126). -/
def TDesc.forState (d : TDesc) (n : Nat) : TDesc := if d.rule = 0 then d else d.forMode (if n = ruleBytes d then 2 else 1)

/-- A multicast of an entry along an axis line (R219). -/
def castEntry (e : OvEntry) (a : Nat) : Act s₀ Unit := do
  let s ← st
  if dimOf s a = 1 then skip
  else do
    let h := mkHdr s 3 0xC2 (myCoord s) 0 0 16 0 0 0 0 1
    sendPk (.of { h with mcast := BitVec.ofNat 2 (a + 1) } (.publish e))

/-- Step 5: the entry goes to the home and along the axis lines. -/
def publishRow (e : OvEntry) (home : Nat) : Act s₀ Unit := do
  let s ← st
  if home = myCoord s then skip
  else sendPk (.of (mkHdr s 3 0xC2 home 0 0 16 0 0 0 0 1) (.publish e))
  each [0, 1, 2] (castEntry e)
  bump (TBL + 0x2C)
  modTbl fun x => { x with lastPub := (e.table, e.row, s.ts) :: x.lastPub.filter fun y => !(y.1 == e.table && y.2.1 == e.row) }

/-- Step 5 at N: the final copy is installed, the entry settled and published, held requests go on. -/
def installFinal (t : Nat) (d : TDesc) (r : Nat) (x : Snap) (oe : BitVec 16) : Act s₀ Unit := do
  let s ← st
  let home := homeChip s d r
  let slot := (guestOf s t r).getD 0
  let e : OvEntry := ⟨r, t, BitVec.ofNat 18 (myCoord s), oe, 3, 0, slot⟩
  if home = myCoord s then
    modTbl fun y => { y with ov := y.ov.filter fun z => !(z.table == t && z.row == r) }
  else modTbl fun y => { y with ov := ovPut y.ov e }
  installBytes t d r x
  inboundDrop t r
  modTbl fun y => { y with fwdTs := y.fwdTs.filter fun z => !(z.1 == t && z.2.1 == r) }
  publishRow e home
  unpark

/-- A MIG packet at N (R95 steps 1, 2, 4 and 5; R97). -/
def serveMig (v : Via) (pk : Packet) (t r : Nat) (m : MigStep) : Act s₀ Unit := do
  let s ← st
  let ack (ok : Bool) : Act s₀ Unit := answer v.peer pk 0x95 0 16 (.migAck t r ok)
  match tdGet s t with
  | none => ack false
  | some d =>
    let mine := s.tbl.inbound.find? fun x => x.1 == t && x.2.1 == r
    match m with
    | .reserve units =>
      if d.rows ≤ r ∨ ownsRow s t d r then ack false
      else do
        let ok ← reserveHere t d r units
        ack ok
    | .copy x =>
      if mine.isNone then ack false
      else do
        modTbl fun y => { y with inbound := mapIf (fun z => z.1 == t && z.2.1 == r) (fun z => (z.1, z.2.1, some x)) y.inbound }
        ack true
    | .final x oe =>
      match mine.map fun z => match x with | some y => some y | none => z.2.2 with
      | some (some y) => do
        let d' := d
        let d := d.forState y.st.length
        if d = d' then skip else tdSet t d
        installFinal t d r y oe
        ack true
      | _ => ack false
    | .cancel => do
      if mine.isSome then do
        inboundDrop t r
        if (ovFind s t r).any (fun e => e.kind == 3) then skip else freeGuest t r
        unpark
      else skip
      ack true

/-- MIG: a chip takes part in a move as its destination. -/
def execMig (p : Fin 8) (pk : Packet) (s : State) : Host.Outcome State Fault Refusal :=
  perform s <| serving p pk 0x15 fun v =>
    match pk.body with
    | .mig t r m => serveMig v pk t r m
    | _ => skip

/-! ### The old owner (R95 steps 2 to 4) -/

/-- A range of HBM as it stands, the results under way with it: the row's bytes, which the engine takes as one unit (R20). -/
def hbmTake (off len : Nat) : Act s₀ (Except Nat (List Byte)) := do
  let s ← st
  if hbmCap s < off + len then pure (.error BAD_DESCRIPTOR)
  else do
    let e ← hbmTouch off len none
    let s ← st
    pure (if e = 0 then .ok (s.hbm.getN off len) else .error e)

/-- The row as it stands: both bases when linked, else the active one, and its state; or the STATUS of a
sector that does not read. -/
def snapRow (t : Nat) (d : TDesc) (r : Nat) : Act s₀ (Except Nat Snap) := do
  let s ← st
  let p := rowAt s t d r
  match ← hbmTake (if d.plink then p.a else p.base d.active) d.rowBytes with
  | .error e => pure (.error e)
  | .ok a =>
    match ← (if stateBytes d = 0 then pure (.ok []) else hbmTake p.st (stateBytes d)) with
    | .error e => pure (.error e)
    | .ok x =>
      if d.plink then
        match ← hbmTake p.b d.rowBytes with
        | .error e => pure (.error e)
        | .ok b => pure (.ok ⟨a, b, x⟩)
      else pure (.ok ⟨a, [], x⟩)

/-- The record of a move, replaced. -/
def putMig (m : Mig) : Act s₀ Unit :=
  modTbl fun x => { x with migs := mapIf (fun y => y.table == m.table && y.row == m.row) (fun _ => m) x.migs }

/-- Step 2: the row is copied to N; a row that does not read, or has no way to N, stays. -/
def copyMove (m : Mig) (d : TDesc) : Act s₀ Unit := do
  match ← snapRow m.table d m.row with
  | .error e => cancelMove e m
  | .ok x => do
    putMig { m with reserved := true, copies := m.copies + 1, dirty := false }
    let e ← request none m.dest.toNat 0x15 0 0 4096 1 1 .mig (.mig m.table m.row (.copy x))
    if e ≠ OK then cancelMove e m else skip

/-- Step 4: FORWARDING and the final snapshot are one commit. A row that has no entry, as after its return home, starts
from OEPOCH 0 (DESIGN CHOICE, log entry 124). -/
def switchMove (m : Mig) (d : TDesc) : Act s₀ Unit := do
  let s ← st
  match ← (if m.dirty then snapRow m.table d m.row else pure (.ok ⟨[], [], []⟩)) with
  | .error e => cancelMove e m
  | .ok x =>
    if pathLost s (myCoord s) m.dest.toNat then cancelMove FABRIC_LOST m
    else do
      let old := ovFind s m.table m.row
      let oe : BitVec 16 := match old with | some e => e.oepoch | none => 0
      let kind := if homeChip s d m.row = myCoord s then 2 else 3
      let slot := match old with | some e => e.gslot | none => 0
      modTbl fun y => { y with
        migs := y.migs.filter fun z => !(z.table == m.table && z.row == m.row)
        ov := ovPut y.ov ⟨m.row, m.table, m.dest, oe, kind, 2, slot⟩
        fwdTs := (m.table, m.row, s.ts) :: y.fwdTs.filter fun z => !(z.1 == m.table && z.2.1 == m.row) }
      let _ ← request m.op m.dest.toNat 0x15 0 0 (if m.dirty then 4096 else 16) 1 1 .mig
        (.mig m.table m.row (.final (if m.dirty then some x else none) (oe + 1)))
      skip

/-- N has acknowledged, or refused, a step of a move. -/
def moveAcked (t r : Nat) (x : MigStep) (ok : Bool) (op : Option OpRef) : Act s₀ Unit := do
  let s ← st
  match x, s.tbl.migs.find? (fun m => m.table == t && m.row == r), tdGet s t with
  | .reserve _, some m, some d =>
    if ok then copyMove m d
    else do
      modTbl fun y => { y with migs := y.migs.filter fun z => !(z.table == t && z.row == r) }
      setMstate t r 0
      bump (TBL + 0x34)
      match m.op with
      | some o => endOp o OK 0
      | none => skip
  | .copy _, some m, some d =>
    if !ok then cancelMove TARGET_RESET m
    else if m.dirty ∧ m.copies < 3 then copyMove m d
    else switchMove m d
  | .final _ _, _, _ =>
    match op with
    | some o => endOp o (if ok then OK else FABRIC_LOST) 0
    | none => skip
  | _, _, _ => skip

/-- MIG_ACK (R95, R98): an acknowledged step of a move goes on to the next; an acknowledged row update
counts for its operation. -/
def execMigAck (p : Fin 8) (pk : Packet) (s : State) : Host.Outcome State Fault Refusal :=
  perform s <| answered p pk 0x95 fun q =>
    if refusalOf pk ≠ 0 then reqFail q (refusalOf pk) 0
    else match q.kind, q.pk.body with
      | .mig, .mig t r x => do
        dropReq q.optag
        let ok := match pk.body with | .migAck _ _ b => b | _ => true
        moveAcked t r x ok q.op
      | .rowUpd, _ => do
        entryIn pk
        slotDone q.optag q.op
      | _, _ => skip

/-- MIG_REPLY_TIMEOUT (R99): N gives no reply before step 4. -/
def execMigReplyTimeout (table : Fin 4096) (row : Nat) (s : State) : Host.Outcome State Fault Refusal := perform s do
  let s ← st
  match s.tbl.migs.find? fun m => m.table == table.val && m.row == row with
  | some m => cancelMove REMOTE_TIMEOUT m
  | none => skip

/-- GUEST_GRACE_EXPIRY (R95 step 7): a former guest owner has forwarded nothing for GRACE_US. -/
def execGuestGraceExpiry (table : Fin 4096) (row : Nat) (s : State) : Host.Outcome State Fault Refusal := perform s do
  let s ← st
  match ovFind s table.val row, s.tbl.fwdTs.find? (fun y => y.1 == table.val && y.2.1 == row) with
  | some e, some y =>
    if e.kind = 3 ∧ e.owner.toNat ≠ myCoord s ∧ due s y.2.2 (graceNs s) then do
      freeGuest table.val row
      modTbl fun x => { x with ov := x.ov.filter fun z => !(z.table == table.val && z.row == row) }
    else skip
  | _, _ => skip

/-! ### LOAD, selection and publication (R91, R92, R95 step 5) -/

/-- PUBLISH: the entry enters the override table; it goes on along Y when it came along X, and along Z
when it came along Y (R219). -/
def execPublish (p : Fin 8) (pk : Packet) (s : State) : Host.Outcome State Fault Refusal := perform s <|
  if pk.hdr.op ≠ 0xC2 ∨ pk.hdr.cls ≠ 3 ∨ 6 ≤ p.val then skip
  else portTake p.val pk do
    let s ← st
    if pk.hdr.mcast = 0 ∧ pk.hdr.dst.toNat ≠ myCoord s then skip
    else match pk.body with
      | .publish e => do
        cacheEntry e
        if pk.hdr.mcast = 1 then castEntry e 1 else if pk.hdr.mcast = 2 then castEntry e 2 else skip
      | _ => skip

/-- LOAD: a neighbour's count is kept for its direction. -/
def execLoad (p : Fin 8) (pk : Packet) (s : State) : Host.Outcome State Fault Refusal := perform s <|
  if pk.hdr.op ≠ 0xC1 ∨ pk.hdr.cls ≠ 3 ∨ 6 ≤ p.val then skip
  else portTake p.val pk do
    let s ← st
    match pk.body with
    | .load n => modTbl fun x => { x with nbr := mapSet x.nbr (portDir s p.val) n }
    | _ => skip

/-- Insertion into a list with falling counts; equal counts keep their order. -/
def insHot (x : Nat × Nat × Nat) : List (Nat × Nat × Nat) → List (Nat × Nat × Nat)
  | [] => [x]
  | y :: ys => if y.2.2 < x.2.2 then x :: y :: ys else y :: insHot x ys

/-- Directions of the torus that have an UP port, with the LOAD last heard there. -/
def nbrLoads (s : State) : List (Nat × Nat) :=
  s.tbl.nbr.filter fun x => match dirPort s x.1 with | some p => portUp s p | none => false

/-- The neighbour of the lowest LOAD; the lowest direction among equals. -/
def lowest (l : List (Nat × Nat)) : Option (Nat × Nat) :=
  l.foldl (fun a x => match a with
    | none => some x
    | some y => if x.2 < y.2 then some x else some y) none

/-- R92: hottest first, rows go to the neighbour of the lowest LOAD while the bound is exceeded. `own` and
`low` are the two estimates, `left` the rows that may still be chosen. -/
def selectRows (dest : Nat) : List (Nat × Nat × Nat) → Nat → Nat → Nat → Act s₀ Unit
  | [], _, _, _ => skip
  | (t, r, n) :: l, own, low, left => do
    let s ← st
    let c := regOf s (TBL + 4)
    if left = 0 ∨ n < fld c 16 16 ∨ 16 * own ≤ (16 + fld c 8 8) * low ∨ 64 ≤ s.tbl.migs.length then skip
    else match tdGet s t with
      | some d =>
        if d.migMode = 1 ∧ movable s t d r then do
          startMove t d r dest none
          selectRows dest l (own - n) (low + n) (left - 1)
        else selectRows dest l own low left
      | none => selectRows dest l own low left

/-- LOAD_WINDOW (R91, R92): the window ends, LOAD goes to the neighbours, hot rows are chosen. -/
def execLoadWindow (s : State) : Host.Outcome State Fault Refusal := perform s do
  let s ← st
  if !isReady s || !due s s.tbl.winTs (1000 * fld (regOf s (TBL + 8)) 0 16) then skip
  else do
    let own := s.tbl.load
    regSet (TBL + 0x24) (own % 2 ^ 32)
    regSet (TBL + 0x28) (own / 2 ^ 32)
    if bit (regOf s TBL) 1 then
      each ([0, 1, 2, 3, 4, 5].filter fun p => portRole s p == 1 && portUp s p) fun p =>
        send (.hop (portDir s p)) (.packet (.of (mkHdr s 3 0xC1 (hop s (myCoord s) (portDir s p)) 0 0 8 0 0 0 0 1) (.load own)))
    else skip
    match if bit (regOf s TBL) 0 && bit (regOf s TBL) 1 then lowest (nbrLoads s) else none with
    | some (d, low) =>
      selectRows (hop s (myCoord s) d) (s.tbl.hot.foldl (fun l x => insHot x l) []) own low (fld (regOf s (TBL + 4)) 0 8)
    | none => skip
    modTbl fun x => { x with load := 0, hot := [], winTs := s.ts }

end Sys2Proof.Machine
end

