-- ==== Sys2Proof/Machine/Sampler.lean ====
section
/-! DEFINITION. The neighbourhood sampler (R30 to R51): the descriptor's checks and captures, the
four modes, remote targets on both sides, and the output block. -/

namespace Sys2Proof.Machine

variable {s₀ : State}

/-- A graph header (Table 2.1). Its GRAPH_ID, reported in fault records by that table, has no field there: Table 18.4 gives
INFO its contents and 0 otherwise (log entry 127). -/
structure Graph where
  idw   : Nat
  ew    : Nat
  alias_ : Bool
  first : Nat
  count : Nat
  edges : Nat
  off   : Nat
  ids   : Nat
  wts   : Nat
  alt   : Nat
deriving DecidableEq, Repr

def graphOf (w : Nat) : Graph where
  idw := if bit w 1 then 8 else 4
  ew := 2 * fld w 2 2
  alias_ := bit w 4
  first := fld w 64 64
  count := fld w 128 64
  edges := fld w 192 64
  off := fld w 256 64
  ids := fld w 320 64
  wts := fld w 384 64
  alt := fld w 448 64

/-- What R30 refuses in a header. -/
def graphBad (w : Nat) : Bool :=
  let g := graphOf w
  fld w 2 2 == 3 || fld w 5 27 != 0 || decide (2 ^ 40 ≤ g.off) || decide (2 ^ 40 ≤ g.ids)
  || decide (2 ^ 40 ≤ g.wts) || decide (2 ^ 40 ≤ g.alt)
  || ((g.wts == 0) != (g.ew == 0)) || ((g.alt == 0) != !g.alias_)

def graphLo (g : Nat) : Nat := SMP + 0x400 + 8 * g

/-- The header in a graph slot, checked (R30, R45). -/
def graphGet (g : Nat) (who : Option Who) : Try s₀ Nat := do
  let s ← (st : Act s₀ State)
  let lo := regOf s (graphLo g)
  if !bit lo 0 then stop BAD_DESCRIPTOR
  else do
    let b ← attempt (hbmRead (fld lo 6 26 * 64 + 2 ^ 32 * regOf s (graphLo g + 4)) 64 who)
    if graphBad (leNat b) then stop BAD_DESCRIPTOR else pure (leNat b)

/-- What every draw of an operation shares (R33, R46). -/
structure Draw where
  mode    : Nat
  ew      : Bool
  fan     : Nat
  walks   : Nat
  seed    : Nat
  step    : Nat
  restart : Nat
deriving DecidableEq, Repr

/-- The generator's output for a draw (R33). -/
def drawOf (q : Draw) (hop node occ slot : Nat) : Quad :=
  cbg ⟨w32 q.seed, w32 (q.seed / 2 ^ 32), 1, hop % 16⟩
    ⟨q.step, w32 node, w32 (node / 2 ^ 32), occ % 65536 * 65536 + slot % 65536⟩

/-- Little-endian numbers of `w` bytes. -/
def numsOf (w : Nat) (b : List Byte) : List Nat := (chunks w b).map leNat

def rdNum (a n : Nat) (who : Option Who) : Try s₀ Nat := do
  let b ← attempt (hbmRead a n who)
  pure (leNat b)

/-- The first entry and the degree of a local node; a node outside the stretch stops (R47). Offsets
that do not rise or run past EDGE_COUNT give undefined samples (R31): none here. -/
def rowOf (g : Graph) (node : Nat) (who : Option Who) : Try s₀ (Option (Nat × Nat)) :=
  if node < g.first ∨ g.first + g.count ≤ node then stop BAD_DESCRIPTOR
  else do
    let b ← attempt (hbmRead (g.off + 8 * (node - g.first)) 16 who)
    let lo := leAt b 0 8
    let hi := leAt b 8 8
    pure (if lo ≤ hi ∧ hi ≤ g.edges then some (lo, hi - lo) else none)

/-- The neighbour at position `p` of a row from entry `lo`, with its weight when asked for. -/
def edgeAt (g : Graph) (ew : Bool) (lo p : Nat) (who : Option Who) : Try s₀ (Nat × Nat) := do
  let n ← rdNum (g.ids + g.idw * (lo + p)) g.idw who
  let w ← if ew then rdNum (g.wts + g.ew * (lo + p)) g.ew who else pure 0
  pure (n, w)

/-- An undefined neighbour (R31). -/
def freeEdge (g : Graph) (ew : Bool) (i : Nat) : Act s₀ (Nat × Nat) := do
  let s ← st
  let f := fun k => (Config.freeWord s.nonce (3 * i + k)).toNat
  pure ((f 0 + 2 ^ 32 * f 1) % 2 ^ (8 * g.idw), if ew then f 2 % 2 ^ (8 * g.ew) else 0)

/-- The samples of an inconsistent row: any number up to the fan-out, of any neighbours (R31). -/
def freeRow (g : Graph) (q : Draw) : Act s₀ (List (Nat × Nat)) := do
  let s ← st
  mapA (List.range ((Config.freeWord s.nonce 0).toNat % (q.fan + 1))) (fun i => freeEdge g q.ew (i + 1))

/-- A position by alias (R30, R39): t, or ALT[t] when the acceptance word is not below THR[t]. -/
def aliasPos (g : Graph) (lo d : Nat) (y : Quad) (who : Option Who) : Try s₀ Nat :=
  if 2 ^ 32 ≤ d then stop BAD_DESCRIPTOR
  else do
    let t := drawPos y d
    let e ← rdNum (g.alt + 8 * (lo + t)) 8 who
    pure (if y.c < fld e 0 32 then t else fld e 32 32)

/-- An edge by position, undefined where the alias table names none of the row (R31). -/
def edgeOr (g : Graph) (ew : Bool) (lo d p : Nat) (who : Option Who) : Try s₀ (Nat × Nat) :=
  if p < d then edgeAt g ew lo p who else liftM (freeEdge (s₀ := s₀) g ew p)

/-- Floyd's positions in slot order (R38). -/
def floyd (q : Draw) (hop node occ d k : Nat) : List Nat :=
  ((List.range k).foldl (fun acc slot =>
    let j := d - k + slot
    let t := drawPos (drawOf q hop node occ slot) (j + 1)
    (if acc.contains t then j else t) :: acc) []).reverse

/-- The draws a target of this degree makes (R38, R39, R41). -/
def drawsFor (q : Draw) (d : Nat) : Nat :=
  if q.mode = 1 then (if d = 0 then 0 else q.fan) else if d ≤ q.fan then 0 else q.fan

def countDraws (n : Nat) : Act s₀ Unit := if n = 0 then skip else bump64 (SMP + 0x10) n

/-- The edges of one target (R38, R39, R41). -/
def sampleTarget (g : Graph) (q : Draw) (hop node occ : Nat) (who : Option Who) : Try s₀ (List (Nat × Nat)) := do
  match ← rowOf g node who with
  | none => liftM (freeRow (s₀ := s₀) g q)
  | some (lo, d) => do
    liftM (countDraws (s₀ := s₀) (drawsFor q d))
    if q.mode = 1 then
      if d = 0 then pure []
      else (List.range q.fan).mapM fun slot => do
        let p ← aliasPos g lo d (drawOf q hop node occ slot) who
        edgeOr g q.ew lo d p who
    else
      let ps := if d ≤ q.fan then List.range d else floyd q hop node occ d q.fan
      ps.mapM fun p => edgeAt g q.ew lo p who

/-- One step of a walk from a local current node: the node reached, or none for a node of degree 0 (R40). -/
def walkDraw (g : Graph) (q : Draw) (cur start occ slot : Nat) (who : Option Who) : Try s₀ (Option (Nat × Nat)) := do
  match ← rowOf g cur who with
  | none => do
    let e ← liftM (freeEdge (s₀ := s₀) g q.ew slot)
    pure (some e)
  | some (lo, d) =>
    if d = 0 then pure none
    else do
      liftM (countDraws (s₀ := s₀) 1)
      let y := drawOf q 8 start occ slot
      let p ← if g.alias_ then aliasPos g lo d y who else pure (drawPos y d)
      let e ← edgeOr g q.ew lo d p who
      pure (some e)

/-! ### The descriptor (R43, R44) -/

def smpMode (o : Op) : Nat := o.bits 16 6 2
def smpHops (o : Op) : Nat := o.bits 17 0 3 + 1
def smpFan (o : Op) (h : Nat) : Nat := o.at (44 + 2 * h) 2
def smpFeat (o : Op) : Nat := o.bits 18 4 12
def smpCount (o : Op) : Nat := o.at 20 4
def smpRestart (o : Op) : Nat := o.at 60 4
def smpEw (o : Op) : Bool := o.flag 17 5
def smpOut (o : Op) : Nat := o.at 32 8

def smpDraw (o : Op) (h : Nat) : Draw :=
  ⟨smpMode o, smpEw o, smpFan o h, smpFan o 1, o.capB, o.step.toNat, smpRestart o⟩

/-- (targets, edges) of each section at their worst. -/
def smpWorst (o : Op) : List (Nat × Nat) :=
  if smpMode o = 2 then
    [(smpCount o * smpFan o 1, smpCount o * smpFan o 1 * smpFan o 0)]
  else
    ((List.range (smpHops o)).foldl (fun (a : Nat × List (Nat × Nat)) h =>
      (a.1 * smpFan o h, a.2 ++ [(a.1, a.1 * smpFan o h)])) (smpCount o, [])).2

/-- Bytes of a section (R48). -/
def secBytes (g : Graph) (ew : Bool) (t e : Nat) : Nat :=
  align64 (16 + 4 * (t + 1) + e * (g.idw + (if ew then g.ew else 0) + 4))

def smpSize (g : Graph) (ew : Bool) (secs : List (Nat × Nat)) (uniq : Nat) : Nat :=
  64 + (secs.map fun x => secBytes g ew x.1 x.2).sum + uniq * g.idw

/-- The descriptor's own checks (R43, R355); a fan-out that is not used must be 0. -/
def smpFieldsBad (o : Op) : Bool :=
  let fans := (List.range 8).map (smpFan o)
  !o.zero 17 6 2 || smpCount o == 0 || decide (1048576 < smpCount o) || !o.zero 32 0 6 ||
  (if smpMode o = 2 then
     smpHops o != 1 || smpFan o 0 == 0 || decide (256 < smpFan o 0) || smpFan o 1 == 0
       || decide (16 < smpFan o 1) || (fans.drop 2).any (· != 0)
   else
     smpRestart o != 0 || (fans.drop (smpHops o)).any (· != 0)
       || (fans.take (smpHops o)).any fun f => f == 0 || decide ((if smpMode o = 3 then 65535 else 1024) < f))

/-- Admission of a SAMPLE: its checks in order, then what it captures (R43 to R45, R86). -/
def admSample (o : Op) : Act s₀ Adm := do
  let s ← st
  match firstBad [badIf (smpFieldsBad o), (!bit (regOf s SMP) 0, NOT_SUPPORTED, 0), tableChk s o (smpFeat o)] with
  | some x => pure (some x)
  | none => do
    let r ← (graphGet (o.bits 16 0 6) o.who).run
    match r with
    | .error e => pure (some (e, 0))
    | .ok w =>
      let g := graphOf w
      let secs := smpWorst o
      let edges := (secs.getLastD (0, 0)).2
      let s ← st
      match firstBad [
          badIf (smpEw o && g.ew == 0), badIf (smpMode o == 1 && !g.alias_),
          badIf (decide (268435456 < edges)),
          badIf (decide (o.at 40 4 < smpSize g (smpEw o) secs (smpCount o + (secs.map Prod.snd).sum))),
          rangeChk s o (o.at 24 8) (smpCount o * g.idw) false,
          rangeChk s o (smpOut o) (o.at 40 4) false] with
      | some x => pure (some x)
      | none => do
        let sel := SMP + 0x1000 + 8 * o.bits 18 0 4
        modOp o.ref fun x =>
          { x with cap := BitVec.ofNat 512 w,
                   capB := privOf s o.d sel + 2 ^ 32 * privOf s o.d (sel + 4),
                   region := regionOf s o.d (smpOut o) (o.at 40 4) false }
        match tdGet s (smpFeat o) with
        | some d => captureTbl o.ref (smpFeat o) d false
        | none => skip
        pure none

/-! ### Hops -/

/-- OCCURRENCE of each target, and how often it wrapped (R36, R37). -/
def occursAux : List (Nat × Nat) → List Nat → List Nat
  | _, [] => []
  | seen, n :: ns =>
    let c := ((seen.find? fun x => x.1 == n).map Prod.snd).getD 0
    c :: occursAux ((n, c + 1) :: seen.filter fun x => x.1 != n) ns

def occurs (ns : List Nat) : List Nat := occursAux [] ns

def occWraps (ns : List Nat) : Nat := ((occurs ns).filter fun c => c != 0 && c % 65536 == 0).length

/-- A request's entries, after their common prefix (R46). -/
def smpPrefix (o : Op) (q : Draw) (n : Nat) : List Byte :=
  leBytes 8 q.seed ++ leBytes 4 q.step ++ leBytes 1 (o.at 16 1) ++ leBytes 1 (b2n q.ew) ++ leBytes 2 q.fan
  ++ leBytes 4 q.restart ++ leBytes 2 (smpFeat o) ++ leBytes 1 (if q.mode = 2 then q.walks else 0)
  ++ leBytes 1 n ++ leBytes 8 0

def smpEntry (node occ hop : Nat) : List Byte := leBytes 8 node ++ leBytes 2 occ ++ leBytes 1 hop ++ leBytes 5 0

def walkEntry (cur start occ slot : Nat) : List Byte :=
  leBytes 8 cur ++ leBytes 8 start ++ leBytes 2 occ ++ leBytes 1 8 ++ leBytes 1 0 ++ leBytes 2 slot ++ leBytes 10 0

/-- Positions grouped by owner, owners in order of first appearance, in packets of at most `n`. -/
def groupBy (n : Nat) (xs : List (Nat × Nat)) : List (Nat × List Nat) :=
  (uniqKeys [] (xs.map Prod.fst)).flatMap fun c =>
    (chunks n ((xs.filter fun x => x.1 == c).map Prod.snd)).map fun l => (c, l)

/-- Requests go out for the positions listed, each with its owner (R46). -/
def smpRequests (o : Op) (q : Draw) (hop : Nat) (xs : List (Nat × Nat)) (entry : Nat → List Byte) : Act s₀ Nat := do
  let s ← st
  let per := fld (regOf s (SMP + 8)) 0 8
  foldA (groupBy (if q.mode = 2 then min per 127 else per) xs) OK fun e x => do
    if e ≠ OK then pure e
    else
      let b := smpPrefix o q x.2.length ++ x.2.flatMap entry
      request (some o.ref) x.1 0x12 o.d 0 b.length 1 1 (.sample hop x.2) (.raw b)

/-- Owners of nodes by the stretch map of FEAT_TABLE (R32); a node at or above ROW_COUNT has none. -/
def smpOwner (s : State) (o : Op) (node : Nat) : Option Nat :=
  match tdGet s (smpFeat o) with
  | some d => if node < d.rows then some (homeChip s d node) else none
  | none => none

/-- A hop starts (R36, R42): its local targets are sampled, its remote ones requested. -/
def smpHop (o : Op) (g : Graph) (h : Nat) (nodes : List Nat) : Try s₀ HopWork := do
  let s ← (st : Act s₀ State)
  let dedup := h != 0 && o.flag 17 3
  let ns := if dedup then uniqKeys [] nodes else nodes
  let occ := if dedup then ns.map fun _ => 0 else (occurs ns).map (· % 65536)
  let q := smpDraw o h
  let own := ns.map (smpOwner s o)
  if own.any Option.isNone then stop BAD_DESCRIPTOR
  else do
    liftM (show Act s₀ Unit from if dedup || occWraps ns = 0 then skip else bump (SMP + 0x18) (occWraps ns))
    let ts := ns.zip occ
    let es ← (own.zip ts).mapM fun x =>
      if x.1 = some (myCoord s) then do
        let e ← sampleTarget g q h x.2.1 x.2.2 o.who
        pure (some e)
      else pure none
    let far := ((own.zip (List.range own.length)).filter fun x => x.1 != some (myCoord s)).map fun x => (x.1.getD 0, x.2)
    let e ← liftM (smpRequests (s₀ := s₀) o q h far fun i =>
      let t := ts.getD i (0, 0)
      smpEntry t.1 t.2 h)
    if e ≠ OK then stop e else pure ⟨ts, es⟩

/-! ### Walks (R40) -/

/-- How a walk's local steps end: finished, or at a node of another chip. -/
inductive WalkEnd where
  | done (steps : List (Nat × Nat))
  | far (owner : Nat) (steps : List (Nat × Nat))
deriving DecidableEq, Repr

/-- A walk of full length is finished; its last node, too, must have an owner (R32). -/
def walkDone (s : State) (o : Op) (l : List (Nat × Nat)) : Try s₀ WalkEnd :=
  match l.getLast? with
  | some e => if (smpOwner s o e.1).isNone then stop BAD_DESCRIPTOR else pure (.done l)
  | none => pure (.done l)

/-- A walk goes on from the steps it has, until it is finished or must ask another chip. A step that this chip decides to
return to the start from another chip's node counts a draw, as one at a node of its own does (DESIGN CHOICE, log entry 43). -/
def walkGo (o : Op) (g : Graph) (q : Draw) (start occ w : Nat) : Nat → List (Nat × Nat) → Try s₀ WalkEnd
  | 0, l => pure (.done l)
  | f + 1, l => do
    let s ← (st : Act s₀ State)
    if l.length = q.fan then walkDone s o l
    else
      let cur := (l.getLast?.map Prod.fst).getD start
      let slot := w * 256 + l.length
      let back := decide ((drawOf q 8 start occ slot).d < q.restart)
      match smpOwner s o cur with
      | none => stop BAD_DESCRIPTOR
      | some c =>
        if c ≠ myCoord s then
          if back then do
            liftM (countDraws (s₀ := s₀) 1)
            walkGo o g q start occ w f (l ++ [(start, 0)])
          else pure (.far c l)
        else do
          match ← rowOf g cur o.who with
          | some (_, 0) =>
            if l.isEmpty then pure (.done []) else walkGo o g q start occ w f (l ++ [(start, 0)])
          | _ =>
            if back then do
              liftM (countDraws (s₀ := s₀) 1)
              walkGo o g q start occ w f (l ++ [(start, 0)])
            else do
              match ← walkDraw g q cur start occ slot o.who with
              | some e => walkGo o g q start occ w f (l ++ [e])
              | none => walkGo o g q start occ w f (l ++ [(start, 0)])

/-- Walks with a request out. -/
def walksOut (s : State) (r : OpRef) : List Nat :=
  (reqsOf s r).flatMap fun q => match q.kind with | .sample _ p => p | _ => []

/-- Every walk that is neither finished nor waiting goes on; the requests of the others go out. The
first HopWork holds the finished walks, the second the steps so far. -/
def walksGo (o : Op) (g : Graph) (fin part : HopWork) : Try s₀ (HopWork × HopWork) := do
  let s ← (st : Act s₀ State)
  let q := smpDraw o 0
  let out := walksOut s o.ref
  let rs ← (List.range fin.targets.length).mapM fun i => do
    let t := fin.targets.getD i (0, 0)
    let l := ((part.edges.getD i none).getD [])
    match fin.edges.getD i none with
    | some e => pure (some e, l, none)
    | none =>
      if out.contains i then pure (none, l, none)
      else do
        match ← walkGo o g q t.1 t.2 (i % q.walks) (q.fan + 1) l with
        | .done e => pure (some e, e, none)
        | .far c e => pure (none, e, some c)
  let far := ((rs.zip (List.range rs.length)).filter fun x => x.1.2.2.isSome).map fun x => (x.1.2.2.getD 0, x.2)
  let e ← liftM (smpRequests (s₀ := s₀) o q 0 far fun i =>
    let t := fin.targets.getD i (0, 0)
    let l := (rs.getD i (none, [], none)).2.1
    walkEntry ((l.getLast?.map Prod.fst).getD t.1) t.1 t.2 (i % q.walks * 256 + l.length))
  if e ≠ OK then stop e
  else pure (⟨fin.targets, rs.map fun x => x.1⟩, ⟨[], rs.map fun x => some x.2.1⟩)

/-! ### The output block (R48 to R50) -/

def hopEdges (h : HopWork) : List (List (Nat × Nat)) := h.edges.map fun e => e.getD []

/-- The running edge offsets, from 0. -/
def offsetsFrom : Nat → List (List (Nat × Nat)) → List Nat
  | n, [] => [n]
  | n, e :: es => n :: offsetsFrom (n + e.length) es

/-- A section, padded to 64 B. -/
def secImage (g : Graph) (ew : Bool) (uniq : List Nat) (h : HopWork) : List Byte :=
  let es := hopEdges h
  let fl := es.flatten
  let b := leBytes 4 es.length ++ leBytes 4 fl.length ++ leBytes 8 0 ++ (offsetsFrom 0 es).flatMap (leBytes 4)
    ++ fl.flatMap (fun e => leBytes g.idw e.1) ++ (if ew then fl.flatMap fun e => leBytes g.ew e.2 else [])
    ++ fl.flatMap (fun e => leBytes 4 (slotOf uniq e.1))
  padTo (align64 b.length) b

/-- The block: header (Table 2.3), sections, unique-node list. -/
def smpBlock (o : Op) (g : Graph) (hops : List HopWork) (uniq : List Nat) (rounds wraps : Nat) : List Byte :=
  let secs := hops.map (secImage g (smpEw o) uniq)
  let offs := (List.range secs.length).map fun i => 64 + ((secs.take i).map List.length).sum
  let uoff := 64 + (secs.map List.length).sum
  let seg := smpMode o == 3 && hops.any fun h => (hopEdges h).any fun e => decide (4096 < e.length)
  let flags := hops.length + 16 * smpMode o + 64 * (if g.idw = 8 then 1 else 0) + 128 * b2n (smpEw o)
    + 256 * b2n seg + 512 * o.bits 17 3 1
  let body := secs.flatten ++ uniq.flatMap (leBytes g.idw)
  leBytes 4 flags ++ leBytes 4 uniq.length ++ leBytes 4 rounds ++ leBytes 4 wraps
    ++ (List.range 8).flatMap (fun i => leBytes 4 (offs.getD i 0)) ++ leBytes 4 uoff
    ++ leBytes 4 (64 + body.length) ++ leBytes 8 0 ++ body

/-- The hops whose target lists count towards OCC_WRAPS. -/
def smpWraps (o : Op) (hops : List HopWork) (first : List Nat) : Nat :=
  if smpMode o = 2 then occWraps first
  else if o.flag 17 3 then occWraps first
  else (hops.map fun h => occWraps (h.targets.map Prod.fst)).sum

/-- Every edge is final: slots are assigned through the unique-index table, and the block is written. -/
def smpFinish (o : Op) (g : Graph) (hops : List HopWork) : Act s₀ Unit := do
  let s ← st
  match uitLook s o false with
  | .wait => do
    waitRes o
  | _ => do
    let o := resumed s o
    putOp { o with phase := .running }
    uitDrop
    let first := if smpMode o = 2 then
        ((hops.headD ⟨[], []⟩).targets.zip (List.range (smpCount o * smpFan o 1))).filterMap
          fun x => if x.2 % smpFan o 1 = 0 then some x.1.1 else none
      else (hops.headD ⟨[], []⟩).targets.map Prod.fst
    let uniq := uniqKeys [] (first ++ hops.flatMap fun h => (hopEdges h).flatten.map Prod.fst)
    let rounds := uitRounds 0 uniq.length
    uitClear rounds
    let e ← deliver o (smpOut o) (smpBlock o g hops uniq rounds (smpWraps o hops first)) false
    if e ≠ OK then endOp o.ref e 0
    else do
      if o.flag 17 4 then
        modSac fun x => { x with uit := some ⟨o.d, smpFeat o, uniq.take uitSize, rounds, s.ts⟩ }
      else skip
      finish o.ref OK 0 0

/-- The edges of the last hop all have owners (R32). -/
def smpNodesOk (s : State) (o : Op) (h : HopWork) : Bool :=
  (hopEdges h).all fun e => e.all fun x => (smpOwner s o x.1).isSome

/-- Hops follow one another as each becomes final (R42). -/
def smpHops' (o : Op) (g : Graph) : Nat → List HopWork → Try s₀ (List HopWork)
  | 0, hs => pure hs
  | f + 1, hs => do
    let s ← (st : Act s₀ State)
    match hs.getLast? with
    | none => pure hs
    | some h =>
      if h.edges.any Option.isNone then pure hs
      else if !smpNodesOk s o h then stop BAD_DESCRIPTOR
      else if hs.length = smpHops o then pure hs
      else do
        let x ← smpHop o g hs.length ((hopEdges h).flatten.map Prod.fst)
        smpHops' o g f (hs ++ [x])

/-- What is kept between a SAMPLE's steps goes on: first its target list, then hops or walks. -/
def smpRun (o : Op) (g : Graph) : Try s₀ (Option (List HopWork)) := do
  let hs := match o.work with | .sample h => h | _ => []
  if smpMode o = 2 then
    match hs with
    | fin :: part :: _ => do
      let r ← walksGo o g fin part
      pure (some [r.1, r.2])
    | _ => do
      match ← liftM (fetch (s₀ := s₀) o (o.at 24 8) (smpCount o * g.idw) false) with
      | .wait => pure none
      | .fail e => stop e
      | .got b => do
        let ns := numsOf g.idw b
        let s ← (st : Act s₀ State)
        if ns.any fun n => (smpOwner s o n).isNone then stop BAD_DESCRIPTOR
        else do
          liftM (show Act s₀ Unit from if occWraps ns = 0 then skip else bump (SMP + 0x18) (occWraps ns))
          let ts := (ns.zip ((occurs ns).map (· % 65536))).flatMap fun t => List.replicate (smpFan o 1) t
          let r ← walksGo o g ⟨ts, ts.map fun _ => none⟩ ⟨[], ts.map fun _ => some []⟩
          pure (some [r.1, r.2])
  else
    match hs with
    | [] => do
      match ← liftM (fetch (s₀ := s₀) o (o.at 24 8) (smpCount o * g.idw) false) with
      | .wait => pure none
      | .fail e => stop e
      | .got b => do
        let x ← smpHop o g 0 (numsOf g.idw b)
        let l ← smpHops' o g 8 [x]
        pure (some l)
    | _ => do
      let l ← smpHops' o g 8 hs
      pure (some l)

/-- The hops are all final. -/
def smpReady (o : Op) (hs : List HopWork) : Bool :=
  if smpMode o = 2 then (hs.headD ⟨[], []⟩).edges.all Option.isSome
  else hs.length == smpHops o && hs.all fun h => h.edges.all Option.isSome

/-- A SAMPLE goes as far as it can without another chip's answer. -/
def sampleGo (r : OpRef) : Act s₀ Unit := do
  let s ← st
  match findOp s r with
  | none => skip
  | some o =>
    if o.code ≠ 1 ∨ !([OpPhase.ready, .running, .waitRes].contains o.phase) ∨ o.work = .xfer 0 then skip
    else do
      let g := graphOf o.cap.toNat
      match ← (smpRun o g).run with
      | .error e => endOp r e 0
      | .ok none => modOp r fun x => { x with phase := .running }
      | .ok (some hs) => do
        modOp r fun x => { x with phase := if x.phase = .waitRes then .waitRes else .running, work := .sample hs }
        if smpReady o hs then do
          let s ← st
          match findOp s r with
          | some o => smpFinish o g (if smpMode o = 2 then hs.take 1 else hs)
          | none => skip
        else skip

/-- SAMPLE (R43): the admitted operation runs, or goes on. -/
def execSample (r : OpRef) (s : State) : Host.Outcome State Fault Refusal := perform s (sampleGo r)

/-! ### Remote requests (R46, R47) -/

/-- The owner's answer to a request: for each entry its edges, or one step (empty for degree 0). -/
def sampleServe (b : List Byte) : Try s₀ (List (List (Nat × Nat))) := do
  let w ← graphGet (leAt b 12 1 % 64) none
  let g := graphOf w
  let q : Draw := ⟨leAt b 12 1 / 64, leAt b 13 1 % 2 == 1, leAt b 14 2, leAt b 22 1, leAt b 0 8, leAt b 8 4, leAt b 16 4⟩
  let n := leAt b 23 1
  if (q.ew && g.ew == 0) || (q.mode == 1 && !g.alias_) then stop BAD_DESCRIPTOR
  else if q.mode = 2 then
    (List.range n).mapM fun i => do
      let e := b.drop (32 + 32 * i)
      let x ← walkDraw g q (leAt e 0 8) (leAt e 8 8) (leAt e 16 2) (leAt e 20 2) none
      pure x.toList
  else
    (List.range n).mapM fun i => do
      let e := b.drop (32 + 16 * i)
      sampleTarget g q (leAt e 10 1 % 16) (leAt e 0 8) (leAt e 8 2) none

/-- The bytes of a sample answer: its neighbours and weights. -/
def sampleLen (xs : List (List (Nat × Nat))) : Nat := 16 * (xs.map List.length).sum + 4 * xs.length

def serveSample (v : Via) (pk : Packet) : Act s₀ Unit :=
  match pk.body with
  | .raw b => do
    match ← (sampleServe b).run with
    | .error e => refuseV v pk e
    | .ok xs => answer v.peer pk 0x92 0 (sampleLen xs) (.sampleRsp xs)
  | _ => skip

/-- SAMPLE_REQUEST (R46): the owner draws the entries of a request with the requester's keys. -/
def execSampleRequest (p : Fin 8) (pk : Packet) (s : State) : Host.Outcome State Fault Refusal :=
  perform s (serving p pk 0x12 fun v => serveSample v pk)

/-- The answered entries take their places in the hop. -/
def fillEdges (h : HopWork) : List (Nat × List (Nat × Nat)) → HopWork
  | [] => h
  | (i, e) :: l => fillEdges { h with edges := h.edges.set i (some e) } l

/-- A walk-step answer (R40): a step onto a neighbour, or, for a degree-0 marker, the start node. A marker for the start
node itself ends its walk, which records no steps, whatever returns to it stand before (log entry 128). -/
def fillSteps (fin part : HopWork) : List (Nat × List (Nat × Nat)) → HopWork × HopWork
  | [] => (fin, part)
  | (i, e) :: l =>
    let sofar := (part.edges.getD i none).getD []
    let start := (fin.targets.getD i (0, 0)).1
    match e with
    | x :: _ => fillSteps fin { part with edges := part.edges.set i (some (sofar ++ [x])) } l
    | [] =>
      if (sofar.getLast?.map Prod.fst).getD start = start then fillSteps { fin with edges := fin.edges.set i (some []) } part l
      else fillSteps fin { part with edges := part.edges.set i (some (sofar ++ [(start, 0)])) } l

/-- SAMPLE_RSP (R46, R47): an owner's answer; the operation goes on. -/
def execSampleRsp (p : Fin 8) (pk : Packet) (s : State) : Host.Outcome State Fault Refusal :=
  perform s <| answered p pk 0x92 fun q => do
    match q.kind, pk.body with
    | .sample hop pos, .sampleRsp xs => do
      dropReq q.optag
      match q.op with
      | none => skip
      | some r => do
        modOp r fun o => match o.work with
          | .sample hs =>
            if smpMode o = 2 then
              match hs with
              | fin :: part :: _ =>
                let y := fillSteps fin part (pos.zip xs)
                { o with work := .sample [y.1, y.2] }
              | _ => o
            else { o with work := .sample (hs.modify hop fun h => fillEdges h (pos.zip xs)) }
          | _ => o
        sampleGo r
    | .sample _ _, .none => reqFail q (failOf pk) (answerDetail (failOf pk))
    | _, _ => skip

/-- SAMPLE_REMOTE_TIMEOUT (R47): one of the operation's remote requests, for a list, for samples or with its block, has no
reply within TIMEOUT_US. -/
def execSampleRemoteTimeout (r : OpRef) (s : State) : Host.Outcome State Fault Refusal := perform s do
  let s ← st
  let t := 1000 * fld (regOf s (SMP + 8)) 16 16
  match findOp s r with
  | none => skip
  | some o =>
    if o.code = 1 ∧ (reqsOf s r).any (fun q => due s q.since t) then endOp r REMOTE_TIMEOUT 0
    else skip

end Sys2Proof.Machine
end

