-- ==== Sys2Proof/Machine/SvcBase.lean ====
section
/-! DEFINITION. Queue pairs (R260 to R264): their registers, and how the answer of a pool request leaves. -/

namespace Sys2Proof.Machine

variable {s₀ : State}

/-- An answer goes out as one SEND, its packets numbered from SQ_PSN on. -/
def qpSend (q : Nat) (b : List Byte) : Act s₀ Unit := do
  let s ← st
  let psn := BitVec.ofNat 24 (regOf s (qpW q 3))
  sendQp q (.roceSend q psn b)
  regFld (qpW q 3) 0 24 (psn.toNat + max 1 (cdiv b.length (qpPmtu s q)))
  let s ← st
  let x := qpAt s q
  setQp q { x with answers := x.answers ++ [⟨psn, b, 0, s.ts⟩] }

/-- The answers that are ready at the front of the queue leave, in request order (R264). -/
def qpDrain (q : Nat) : Nat → Act s₀ Unit
  | 0 => skip
  | f + 1 => do
    let s ← st
    let x := qpAt s q
    match x.reqs with
    | (_, some b) :: l => do
      setQp q { x with reqs := l }
      qpSend q b
      qpDrain q f
    | _ => skip

/-- The answer of a pool request (R264): REQ_ID, STATUS, ADMIT, SEG_COUNT, result bytes, rows. -/
def qpAnswer (o : Op) : Act s₀ Unit := do
  let s ← st
  let q := o.ref.idx.toNat / 2
  let rows := if o.status.toNat / 16 = 0 then o.out.flatMap OutPiece.bytes else []
  let b := leBytes 4 o.tag ++ [o.status, BitVec.ofNat 8 o.admitAs, 0, 0] ++ leBytes 4 (gthSegs o) ++ leBytes 4 rows.length ++ rows
  let x := qpAt s q
  setQp q { x with reqs := x.reqs.map fun r => if r.1 == o.ref.idx.toNat then (r.1, some b) else r }
  qpDrain q 3

end Sys2Proof.Machine
end

