-- ==== Sys2Proof/Machine/Rings.lean ====
section
/-! DEFINITION. Work rings (R268 to R271), admission (R280 to R282), completion (R275 to R279) and the KX
ring (R285 to R287). -/

namespace Sys2Proof.Machine

variable {s₀ : State}

/-! ### Ring registers -/

def ringEn (s : State) (d r : Nat) : Bool := bit (privOf s d (ringW d r 4)) 0
def ringLog2 (s : State) (d r : Nat) : Nat := max 6 (min 16 (fld (privOf s d (ringW d r 4)) 1 5))
def workSize (s : State) (d r : Nat) : Nat := 2 ^ ringLog2 s d r
def ringProd (s : State) (d r : Nat) : Nat := privOf s d (ringW d r 5)
def ringHead (s : State) (d r : Nat) : Nat := privOf s d (ringW d r 6)
def ringDone (s : State) (d r : Nat) : Nat := privOf s d (ringW d r 7)
def ringBase (s : State) (d r w : Nat) : Nat := privOf s d (ringW d r w) + 2 ^ 32 * privOf s d (ringW d r (w + 1))

/-- HDM_CTRL.LEVEL: the domain is at the basic level (R285). -/
def basicLevel (s : State) (d : Nat) : Bool := bit (regOf s (hdmW d 4)) 1

def kxSize (s : State) (d : Nat) : Nat := 2 ^ max 5 (min 12 (fld (privOf s d (KX + 4)) 0 4))
def kxHead (s : State) (d : Nat) : Nat := privOf s d (KX + 0x1C)
def kxBusy (s : State) (d : Nat) : Option Op := s.ops.find? fun o => o.d == d && o.ref.ring.val == 64
/-- The lowest KX index without a record. -/
def kxDone (s : State) (d : Nat) : Nat := match kxBusy s d with | some o => o.ref.idx.toNat | none => kxHead s d

/-! ### Operation codes (Table 15.4) -/

/-- The engine an operation takes an entry of; none for NOP, ESC_CTL and ABORT. -/
def engOf (code : Nat) : Option Nat :=
  match code with
  | 0x01 => some 0 | 0x02 => some 1 | 0x03 => some 1 | 0x04 => some 2 | 0x05 => some 3 | 0x06 => some 4
  | 0x07 => some 5 | 0x08 => some 6 | 0x09 => some 6 | 0x0A => some 7 | 0x0B => some 7 | _ => none

/-- Operations of the learning class (R22); a CELL_RUN's program says its own. -/
def learningOp (o : Op) : Bool :=
  o.code == 4 || o.code == 6 || o.code == 7 || o.code == 0x0B || (o.code == 0x0A && tcSub o == 4)

def escSub (o : Op) : Nat := o.bits 16 0 2
def escCtl (o : Op) : Nat := o.at 18 2
def escCtlGen (o : Op) : Nat := o.at 20 2
def escArg (o : Op) : Nat := o.at 24 4

/-- R355: a bit that must be 0 in this case is 1. -/
def zeroBad (o : Op) : Bool :=
  match o.code with
  | 0x00 => !o.zero 16 0 384
  | 0x01 => !o.zero 17 6 2 || (if smpMode o = 2 then ((List.range 8).drop 2).any (fun h => smpFan o h != 0)
      else smpRestart o != 0 || ((List.range 8).drop (smpHops o)).any fun h => smpFan o h != 0)
  | 0x02 => !o.zero 18 4 12 || (!gthSegd o && !o.zero 32 0 64) || !o.zero 56 0 64
  | 0x03 => !o.zero 18 4 12 || (!gthSegd o && !o.zero 32 0 64) || (gthAgg o != 4 && !o.zero 56 0 64)
  | 0x04 => !o.zero 18 7 1 || !o.zero 19 5 3 || (!scTarget o && (scDest o != 0 || scDest64 o != 0))
      || (!scSegd o && o.ptr 38 != 0) || (!scWeighted o && o.ptr 50 != 0)
  | 0x05 => !o.zero 44 0 160 || (crArgBytes o == 0 && crArgs o != 0)
  | 0x06 => !o.zero 18 6 2 || !o.zero 56 3 5 || !o.zero 57 0 24
      || (upTable o && (!o.zero 17 4 4 || upRows o != 0 || upRow0 o != 0 || upWeight o != 0 || upState o != 0 || upAux o != 0))
  | 0x07 => colFieldsBad o
  | 0x08 => !o.zero 16 2 62 || !o.zero 44 0 160
  | 0x09 => !o.zero 17 2 6 || !o.zero 18 0 48 || !o.zero 56 0 64 || (if pxSub o = 2 then !o.zero 32 0 64 else !o.zero 44 0 96)
  | 0x0A => !o.zero 18 0 48 || !o.zero 34 2 14 || !o.zero 36 0 224
      || ((tcSub o == 2 || tcSub o == 3) && tcArg o != 0) || (tcSub o != 4 && tcDest o != 0)
  | 0x0B => !o.zero 16 4 4 || !o.zero 17 3 5 || !o.zero 18 10 6 || !o.zero 20 11 5 || !o.zero 22 0 336
      || (bwSub o != 2 && (bwFirst o != 0 || bwCount o != 0))
  | 0x0C => !o.zero 16 2 6 || !o.zero 17 0 8 || !o.zero 22 0 16 || !o.zero 28 0 288
      || (escSub o == 2 && escArg o != 0) || (escSub o == 3 && decide (512 ≤ escArg o))
  | _ => !o.zero 16 6 2 || !o.zero 17 0 24 || !o.zero 24 0 320

/-- The checks of an operation's chapter at its admission, with what it captures there. -/
def admOp (o : Op) : Act s₀ Adm := do
  match o.code with
  | 0x01 => admSample o
  | 0x02 => admGather o
  | 0x03 => admGather o
  | 0x04 => admScatter o
  | 0x05 => admCellRun o
  | 0x06 => admUpdate o
  | 0x07 => admCol o
  | 0x08 => admCopy o
  | 0x09 => admPeer o
  | 0x0A => admTable o
  | 0x0B => admBwd o
  | 0x0C => do
    let s ← st
    pure (if escIn s o.d (escCtl o) then none else some (REFUSED_QUOTA, 3))
  | _ => pure none

/-- Addresses of arrays and outputs a descriptor names, which may be table-relative. -/
def opAddrs (o : Op) : List (Nat × Bool) :=
  match o.code with
  | 0x01 => [(o.at 24 8, false), (smpOut o, false)]
  | 0x02 => [(o.at 24 8, false), (o.at 32 8, false), (gthOut o, false)]
  | 0x03 => [(o.at 24 8, false), (o.at 32 8, false), (gthOut o, false), (o.at 56 8, false)]
  | 0x04 => [(scDest o, true)]
  | 0x05 => [(crProgram o, false), (crArgs o, false)]
  | 0x0A => if tcSub o = 0 then [(tcArg o, false)] else []
  | _ => []

/-! ### Admission (R280) -/

/-- GUAR, LIMIT, WAITQ of a domain on an engine. -/
def admitCfg (s : State) (d e : Nat) : Nat × Nat × Nat :=
  let w := regOf s (hdmW d (0x30 + 4 * e))
  (fld w 0 7, fld w 8 7, fld w 16 7)

def entries (s : State) (d e : Nat) : Nat := s.ops.countP fun o => o.d == d && o.eng == e
def waiting (s : State) (d e : Nat) : Nat := s.ops.countP fun o => o.d == d && o.phase == .waitCap && engOf o.code == some e

def guarFree (s : State) (d e : Nat) : Bool := decide (entries s d e < (admitCfg s d e).1)

/-- Borrowed entries in use, and those there are. -/
def borrowed (s : State) (e : Nat) : Nat := ([0, 1, 2, 3].map fun j => entries s j e - (admitCfg s j e).1).sum
def borrowable (s : State) (e : Nat) : Nat := 64 - ([0, 1, 2, 3].map fun j => (admitCfg s j e).1).sum

def mayBorrow (s : State) (d e : Nat) : Bool :=
  decide (entries s d e < (admitCfg s d e).2.1) && decide (borrowed s e < borrowable s e)

/-- Admission is held for a quiet point (R299). -/
def admHeld (s : State) : Bool := s.clb.st == .quiescing

/-- The waiters of an engine that may be admitted now, oldest first. -/
def eligible (s : State) (e : Nat) : Option Op :=
  if admHeld s then none
  else
    let l := s.ops.filter fun o => o.phase == .waitCap && engOf o.code == some e && (guarFree s o.d e || mayBorrow s o.d e)
    let m := l.foldl (fun a o => min a o.t0) ((l.map Op.t0).headD 0)
    l.find? fun o => o.t0 == m

/-- The operation is admitted: it takes its entry and captures the step index (R21); then the phase (R22) and
its chapter's checks. -/
def admitNow (r : OpRef) : Act s₀ Unit := do
  let s ← st
  match findOp s r with
  | none => skip
  | some o => do
    let waited := o.phase = .waitCap
    let gen := inGeneration s o.d
    let o := { o with
      phase := .ready, eng := (engOf o.code).getD 8, step := BitVec.ofNat 32 (privOf s o.d (hdmW o.d 0x60)), gener := gen,
      seq := nextSeq s, delayed := o.delayed || waited, delay := if waited then o.delay + (s.ts - o.t0) else o.delay }
    putOp o
    if r.ring.val < 64 then privSet r.dom.val (ringW r.dom.val r.ring.val 6) (r.idx.toNat + 1)
    else if r.ring.val = 64 then privSet r.dom.val (KX + 0x1C) (r.idx.toNat + 1)
    else skip
    if gen && learningOp o then endOp r REFUSED_PHASE 0
    else match ← admOp o with
      | some (e, c) => endClean r e c
      | none => do
        each (opAddrs o) fun a => captureAddr r a.1 a.2
        if o.code = 7 then colAdmitted r else skip

/-- A descriptor whose turn and wait allow it: R355, then R280. -/
def admitTry (r : OpRef) : Act s₀ Unit := do
  let s ← st
  match findOp s r with
  | none => skip
  | some o =>
    if zeroBad o then notAdmitted r BAD_DESCRIPTOR 0
    else match engOf o.code with
      | none => admitNow r
      | some e =>
        let (_, limit, waitq) := admitCfg s o.d e
        if limit = 0 then notAdmitted r REFUSED_QUOTA 5
        else if admHeld s then putOp { o with phase := .waitCap, t0 := s.ts }
        else if guarFree s o.d e ∨ (mayBorrow s o.d e ∧ (eligible s e).isNone) then admitNow r
        else if waiting s o.d e < waitq then putOp { o with phase := .waitCap, t0 := s.ts }
        else notAdmitted r REFUSED_FULL (0x10 + e)

/-! ### Fetching (R269 to R271) -/

/-- An operation just fetched. -/
def newOp (r : OpRef) (desc ts : Nat) : Op :=
  { ref := r, desc := BitVec.ofNat 512 desc, phase := .waitEsc, t0 := ts, delay := 0, delayed := false, eng := 8, step := 0,
    gener := false, cap := 0, capB := 0, hold := [], status := 0, admitAs := 0, detail := 0, detail64 := none, counts := 0,
    decTs := 0, cache := [], out := [], region := [], work := .none, seq := 0, uitLeft := none }

/-- The condition of R271 holds. -/
def waitOver (s : State) (o : Op) : Bool :=
  let e := escAt s o.waitEsc
  if o.waitVal = 0 then e.st == .fired else decide (o.waitVal ≤ e.count.toNat)

/-- A fetched descriptor's turn: a pending abort (R284), HDM_CTRL.ENABLE, the header (R267, R270), and the wait. -/
def takeTurn (r : OpRef) : Act s₀ Unit := do
  let s ← st
  match findOp s r with
  | none => skip
  | some o =>
    if s.marks.contains r then do
      emit (.marks (s.marks.filter (· != r)))
      notAdmitted r ABORTED 0
    else if !(bit (regOf s (hdmW o.d 4)) 0) || decide (0x0D < o.code) then notAdmitted r NOT_SUPPORTED 0
    else if !(o.zero 1 3 5) || (!o.waitEn && !(o.zero 10 0 48)) then notAdmitted r BAD_DESCRIPTOR 0
    else if (o.cplEn && !(escIn s o.d o.cplEsc)) || (o.waitEn && !(escIn s o.d o.waitEsc)) then notAdmitted r REFUSED_QUOTA 3
    else if o.waitEn then do
      escSram o.waitEsc
      let s ← st
      if waitDead s o then depAbort o
      else if waitOver s o then admitTry r
      else skip
    else admitTry r

/-- The next descriptor of a ring may be fetched. -/
def mayFetch (s : State) (d r : Nat) : Bool :=
  isReady s && ringEn s d r && !basicLevel s d
  && !(s.hosts.resetDom.getLsbD d)
  && !(s.ops.any fun o => o.d == d && o.ref.ring.val == r && (o.phase == .waitEsc || o.phase == .waitCap))
  && ringHead s d r != ringProd s d r && decide (sub32 (ringHead s d r) (ringDone s d r) < workSize s d r)

/-- Fetch while the ring's turn allows it. -/
def fetchAux (d : Fin 4) (r : Fin 64) : Nat → Act s₀ Unit
  | 0 => skip
  | f + 1 => do
    let s ← st
    if mayFetch s d.val r.val then do
      let i := ringHead s d.val r.val
      let a := ringBase s d.val r.val 0 + 64 * (i % workSize s d.val r.val)
      let ref : OpRef := ⟨d, ⟨r.val, by omega⟩, BitVec.ofNat 32 i⟩
      emit (.ops (s.ops ++ [newOp ref (leNat (hostRead s none d.val a 64)) s.ts]))
      takeTurn ref
      fetchAux d r f
    else skip

def fetchRing (d : Fin 4) (r : Fin 64) : Act s₀ Unit := do
  let s ← st
  fetchAux d r (sub32 (ringProd s d.val r.val) (ringHead s d.val r.val))

/-! ### The KX ring (R286, R287) -/

/-- The expert descriptor of a KX descriptor, and the segment offsets it stands for. -/
def kxDesc (s : State) (d k : Nat) : Nat :=
  let op := fld k 0 8
  let agg := fld k 8 3
  let bf := fld k 11 1
  let gbf := fld k 12 1
  let table := fld k 16 12
  let count := fld k 32 32
  let bag := fld k 64 16
  let tag := fld k 96 32
  let idx := fld k 128 40
  let data := fld k 192 40
  let seg := b2n (bag != 0)
  let segs := if bag = 0 then 1 else count / bag
  let c := privOf s d KX
  let hd := 2 ^ 16 * tag
  if op = 3 then
    4 + hd + 2 ^ 128 * (table + 2 ^ 12 * seg + 2 ^ 14 * gbf) + 2 ^ 144 * (fld c 6 4 + 16) + 2 ^ 152 * fld c 1 5
      + 2 ^ 168 * 128 + 2 ^ 192 * count + 2 ^ 224 * segs + 2 ^ 256 * idx
      + 2 ^ 304 * (seg * (2 ^ 46 + 255 * 2 ^ 32)) + 2 ^ 352 * data
  else
    (op + 1) + hd + 2 ^ 128 * (table + 2 ^ 12 * agg + 2 ^ 15 * bf) + 2 ^ 144 * (2 * seg) + 2 ^ 160 * count
      + 2 ^ 192 * idx + 2 ^ 256 * (seg * msgBase) + 2 ^ 320 * segs + 2 ^ 384 * data

/-- Reserved bits of a KX descriptor (Table 15.12). -/
def kxZeroBad (k : Nat) : Bool :=
  fld k 13 3 != 0 || fld k 28 4 != 0 || fld k 80 16 != 0 || fld k 168 24 != 0 || fld k 232 24 != 0

/-- The next KX descriptor is fetched and started once the one before has its record. -/
def fetchKx (d : Fin 4) : Act s₀ Unit := do
  let s ← st
  let i := kxHead s d.val
  if !(isReady s) || !(basicLevel s d.val) || s.hosts.resetDom.getLsbD d.val || (kxBusy s d.val).isSome
      || i == privOf s d.val (KX + 0x18) then skip
  else do
    let a := privOf s d.val (KX + 8) + 2 ^ 32 * privOf s d.val (KX + 12) + 32 * (i % kxSize s d.val)
    let k := leNat (hostRead s none d.val a 32)
    let ref : OpRef := ⟨d, 64, BitVec.ofNat 32 i⟩
    let bag := fld k 64 16
    let count := fld k 32 32
    let so := if bag = 0 then [] else (List.range (count / bag + 1)).flatMap fun j => leBytes 4 (bag * j)
    let cache := (List.range so.length).zip so |>.map fun x => (msgBase + x.1, x.2)
    emit (.ops (s.ops ++ [{ newOp ref (kxDesc s d.val k) s.ts with cache := cache }]))
    if !(bit (regOf s (hdmW d.val 4)) 0) || fld k 0 8 == 0 || decide (3 < fld k 0 8) then notAdmitted ref NOT_SUPPORTED 0
    else if kxZeroBad k then notAdmitted ref BAD_DESCRIPTOR 0
    else if fld k 8 3 == 4 && fld k 0 8 != 3 then notAdmitted ref NOT_SUPPORTED 0
    else if count == 0 || decide (1048576 < count) || (bag != 0 && count % bag != 0) then notAdmitted ref BAD_DESCRIPTOR 0
    else admitTry ref

/-- Every ring of the present domains goes on, as after READY. -/
def fetchAll : Act s₀ Unit :=
  each [(0 : Fin 4), 1, 2, 3] fun d => do
    each (List.finRange 64) fun r => fetchRing d r
    fetchKx d

/-- The ring of an operation goes on. -/
def fetchNext (r : OpRef) : Act s₀ Unit :=
  if h : r.ring.val < 64 then fetchRing r.dom ⟨r.ring.val, h⟩
  else if r.ring.val = 64 then fetchKx r.dom
  else skip

/-- KX_GATHER (R286). -/
def execKxGather (r : OpRef) (s : State) : Host.Outcome State Fault Refusal := perform s do
  let s ← st
  match findOp s r with
  | some o => if o.ref.ring.val = 64 ∧ o.code = 2 then gatherGo r else skip
  | none => skip

/-- KX_POOL (R286). -/
def execKxPool (r : OpRef) (s : State) : Host.Outcome State Fault Refusal := perform s do
  let s ← st
  match findOp s r with
  | some o => if o.ref.ring.val = 64 ∧ o.code = 3 then gatherGo r else skip
  | none => skip

/-- KX_SCATTER_ADD (R286). -/
def execKxScatterAdd (r : OpRef) (m : List EngMiss) (s : State) : Host.Outcome State Fault Refusal := perform s do
  let s ← st
  match findOp s r with
  | some o => if o.ref.ring.val = 64 ∧ o.code = 4 then scatterGo r m else skip
  | none => skip

/-! ### Host writes (R268) -/

/-- What the host wrote into its own memory before the write. -/
def hostPosted (d : Nat) (l : List Host.Cell) : Act s₀ Unit := each l fun c => hostWrite d c.1 [c.2]

def hdmReject (d : Nat) : Act s₀ Unit := bump (hdmW d 0x88)

/-- PROD_WRITE. -/
def execProdWrite (d : Fin 4) (r : Fin 64) (v : Word) (posted : List Host.Cell) (s : State) : Host.Outcome State Fault Refusal :=
  perform s do
    hostPosted d.val posted
    let s ← st
    if !(s.hosts.present.getLsbD d.val) || basicLevel s d.val then skip
    else if !(ringEn s d.val r.val) then privSet d.val (ringW d.val r.val 5) v.toNat
    else if sub32 v.toNat (ringDone s d.val r.val) ≤ workSize s d.val r.val then do
      privSet d.val (ringW d.val r.val 5) v.toNat
      fetchRing d r
    else hdmReject d.val

/-- A write of ring word 4: LOG2 is clamped and reported, and discarded while EN is 1; EN from 0 to 1 starts the
ring empty at PROD. -/
def ringWord4 (d : Fin 4) (r : Fin 64) (v : Nat) : Act s₀ Unit := do
  let s ← st
  let a := ringW d.val r.val 4
  let old := privOf s d.val a
  let en := bit old 0
  let l := max 6 (min 16 (fld v 1 5))
  if !en ∧ l ≠ fld v 1 5 then report 1 d.val 0 (fieldId a 1 5) (fld v 1 5) l 0 else skip
  privSet d.val a (fld v 0 1 + 2 * (if en then fld old 1 5 else l) + 2 ^ 8 * fld v 8 8)
  if !en && bit v 0 then do
    let p := ringProd s d.val r.val
    privSet d.val (ringW d.val r.val 6) p
    privSet d.val (ringW d.val r.val 7) p
    let mine (x : OpRef) : Bool := x.dom == d && x.ring.val == r.val
    emit (.recorded (s.recorded.filter fun x => !(mine x)))
    emit (.marks (s.marks.filter fun x => !(mine x)))
  else skip

/-- RING_ENABLE: a host write of a ring's word 4. -/
def execRingEnable (d : Fin 4) (r : Fin 64) (v : Word) (s : State) : Host.Outcome State Fault Refusal := perform s do
  let s ← st
  if !(s.hosts.present.getLsbD d.val) || basicLevel s d.val then skip
  else ringWord4 d r v.toNat

/-- KX_DOORBELL_WRITE: accepted as PROD is. -/
def execKxDoorbellWrite (d : Fin 4) (v : Word) (posted : List Host.Cell) (s : State) : Host.Outcome State Fault Refusal :=
  perform s do
    hostPosted d.val posted
    let s ← st
    if !(s.hosts.present.getLsbD d.val) || !(basicLevel s d.val) then skip
    else if sub32 v.toNat (kxDone s d.val) ≤ kxSize s d.val then do
      privSet d.val (KX + 0x18) v.toNat
      fetchKx d
    else hdmReject d.val

/-! ### Waiting and admission -/

/-- WAIT_RELEASE (R271): the condition holds, or can no longer hold. -/
def execWaitRelease (r : OpRef) (s : State) : Host.Outcome State Fault Refusal := perform s do
  let s ← st
  match findOp s r with
  | none => skip
  | some o =>
    if o.phase ≠ .waitEsc then skip
    else do
      escSram o.waitEsc
      let s ← st
      if waitDead s o then do
        depAbort o
        fetchNext r
      else if waitOver s o then do
        admitTry r
        fetchNext r
      else skip

/-- The oldest waiter that may take an entry is admitted. -/
def admitOne (e : Nat) : Act s₀ Unit := do
  let s ← st
  match eligible s e with
  | some o => do
    admitNow o.ref
    fetchNext o.ref
  | none => skip

/-- ADMIT_WAITER (R280). -/
def execAdmitWaiter (e : Fin 8) (s : State) : Host.Outcome State Fault Refusal := perform s (admitOne e.val)

/-! ### NOP, ESC_CTL, ABORT -/

/-- NOP. -/
def execNop (r : OpRef) (s : State) : Host.Outcome State Fault Refusal :=
  perform s <| withOp r .ready 0 fun _ => endOp r OK 0

/-- An ESC_CTL ends with what its escapement operation came to (R274). -/
def escCtlEnd (r : OpRef) (sub : Nat) (eff : Op → EscEff) : Act s₀ Unit :=
  withOp r .ready 0x0C fun o => do
    if escSub o ≠ sub then skip
    else do
      let x ← escDo (escCtl o) (escCtlGen o) (eff o)
      escWaiters (escCtl o)
      if x = 0 then endOp r OK 0 else endOp r REFUSED_VERSION x

/-- ESC_CTL_ADD. -/
def execEscCtlAdd (r : OpRef) (s : State) : Host.Outcome State Fault Refusal :=
  perform s <| escCtlEnd r 0 fun o => .add (escArg o)

/-- ESC_CTL_ARM. -/
def execEscCtlArm (r : OpRef) (s : State) : Host.Outcome State Fault Refusal :=
  perform s <| escCtlEnd r 1 fun o => .arm (escArg o)

/-- ESC_CTL_RESET. -/
def execEscCtlReset (r : OpRef) (s : State) : Host.Outcome State Fault Refusal :=
  perform s <| escCtlEnd r 2 fun _ => .reset

/-- ESC_CTL_NOTIFY. -/
def execEscCtlNotify (r : OpRef) (s : State) : Host.Outcome State Fault Refusal :=
  perform s <| escCtlEnd r 3 fun o => .notify (fld (escArg o) 0 8) (bit (escArg o) 8)

/-- The commit point of an operation is past (R62, R79, R116, R250, Table 15.13, chapter 8). -/
def committed (o : Op) : Bool :=
  match o.phase with
  | .decided => true
  | .waitEsc => false
  | .waitCap => false
  | _ =>
    match o.code with
    | 0x00 => true
    | 0x04 => if scFinal o then o.work == .xfer 0 || o.work == .xfer 2 else o.work == .xfer 1 || o.work == .xfer 0
    | 0x06 => o.work == .xfer 0
    | 0x07 => true
    | 0x09 => pxSub o == 1 && o.work == .xfer 0
    | 0x0A => tcSub o == 3 || (tcSub o == 4 && o.phase == .running)
    | _ => false

/-- What an ABORT of descriptor `i` of ring `r` comes to (R283, R284). -/
def abortTarget (d : Fin 4) (r : Fin 64) (i : Nat) : Act s₀ Nat := do
  let s ← st
  let ref : OpRef := ⟨d, ⟨r.val, by omega⟩, BitVec.ofNat 32 i⟩
  let low := sub32 (ringDone s d.val r.val) (workSize s d.val r.val)
  let k := sub32 i low
  if sub32 (ringProd s d.val r.val) low ≤ k then pure BAD_DESCRIPTOR
  else if k < workSize s d.val r.val ∨ s.recorded.contains ref then pure ABORT_TOO_LATE
  else match findOp s ref with
    | none => do
      emit (.marks (ref :: s.marks.filter (· != ref)))
      pure OK
    | some o =>
      if o.phase = .waitEsc ∨ o.phase = .waitCap then do
        notAdmitted ref ABORTED 0
        pure OK
      else if o.code = 0x0D then pure BAD_DESCRIPTOR
      else if committed o then pure ABORT_TOO_LATE
      else do
        endOp ref ABORTED 0
        pure OK

/-- ABORT. -/
def execAbort (r : OpRef) (s : State) : Host.Outcome State Fault Refusal :=
  perform s <| withOp r .ready 0x0D fun o => do
    let e ← abortTarget r.dom ⟨o.bits 16 0 6, Nat.mod_lt _ (by decide)⟩ (o.at 20 4)
    endOp r e 0

/-! ### ESC_CMD (R274) -/

/-- A write of ESC_CMD: discarded at the basic level; outside the domain's range counted in HDM_REJECT. -/
def escCmd (d : Fin 4) (i : Nat) (k : Act s₀ Unit) : Act s₀ Unit := do
  let s ← st
  if !(s.hosts.present.getLsbD d.val) || basicLevel s d.val then skip
  else if escIn s d.val i then k
  else hdmReject d.val

/-- An operation of ESC_CMD applied, with the waiters it ends. -/
def escCmdDo (i gen : Nat) (o : EscEff) : Act s₀ Unit := do
  let _ ← escDo i gen o
  escWaiters i

/-- ESC_CMD_ADD. -/
def execEscCmdAdd (d : Fin 4) (i gen : BitVec 16) (arg : BitVec 14) (s : State) : Host.Outcome State Fault Refusal :=
  perform s <| escCmd d i.toNat (escCmdDo i.toNat gen.toNat (.add arg.toNat))

/-- ESC_CMD_ARM. -/
def execEscCmdArm (d : Fin 4) (i gen : BitVec 16) (arg : BitVec 14) (s : State) : Host.Outcome State Fault Refusal :=
  perform s <| escCmd d i.toNat (escCmdDo i.toNat gen.toNat (.arm arg.toNat))

/-- ESC_CMD_RESET. -/
def execEscCmdReset (d : Fin 4) (i gen : BitVec 16) (_arg : BitVec 14) (s : State) : Host.Outcome State Fault Refusal :=
  perform s <| escCmd d i.toNat (escCmdDo i.toNat gen.toNat .reset)

/-- ESC_CMD_DISCARD: OP 3. -/
def execEscCmdDiscard (d : Fin 4) (i _gen : BitVec 16) (_arg : BitVec 14) (s : State) : Host.Outcome State Fault Refusal :=
  perform s <| escCmd d i.toNat (bump GLB_ESC_DISCARD)

/-! ### Completion (R275, R278) -/

/-- The held result bytes become visible. -/
def showOut (o : Op) : Act s₀ Unit := do
  putOp { o with region := [], out := [] }
  each o.out fun p => do
    match p.space with
    | 0 => do
      let _ ← hbmWrite p.addr p.bytes o.who
      noteFill p.addr p.bytes.length
    | 1 => emit (.mem .bench (.write p.addr p.bytes))
    | 2 => emit (.mem .well (.write p.addr p.bytes))
    | 3 => emit (.mem .host (.write p.addr p.bytes))
    | _ => skip

/-- CPL_ESC is acted on (R275): its generation then, and whether it was stale. The ADD 1 of a Success-class
STATUS under another generation is a discarded operation of R274. -/
def cplAct (o : Op) : Act s₀ (Nat × Bool) := do
  let s ← st
  if !o.cplEn || !(escIn s o.d o.cplEsc) then pure (0, false)
  else do
    let i := o.cplEsc
    escSram i
    let s ← st
    let e := escAt s i
    let c := o.status.toNat / 16
    let add : Bool := c == 0 || (o.status.toNat == ABORT_TOO_LATE && o.code == 0x0D)
    if e.gen.toNat ≠ o.cplGen then do
      if add then bump GLB_ESC_DISCARD else skip
      pure (e.gen.toNat, true)
    else do
      if add then do
        let _ ← escDo i o.cplGen (.add 1)
        skip
      else do
        emit (.esc i (.state (c == 2)))
        escWaiters i
      pure (e.gen.toNat, false)

/-- DETAIL of Table 15.8 (R277). -/
def recDetail (o : Op) : Nat :=
  match o.detail64 with
  | some x => x.toNat
  | none => o.detail.toNat + (if o.admitAs = 1 then 2 ^ 32 * min o.delay 0xFFFFFFFF else 0)

/-- PHASE of a record. -/
def recPhase (idx size : Nat) : Nat := 1 - (idx / size) % 2

/-- The 32-byte record (Table 15.8). -/
def record (o : Op) (size gen : Nat) (stale : Bool) : List Byte :=
  leBytes 4 o.tag ++ [o.status, BitVec.ofNat 8 (o.admitAs + 4 * b2n stale + 128 * recPhase o.ref.idx.toNat size)]
    ++ leBytes 2 gen ++ leBytes 8 o.decTs ++ leBytes 8 (recDetail o) ++ leBytes 8 o.counts.toNat

/-- The 16-byte KX record (R287). -/
def kxRecord (o : Op) (size : Nat) : List Byte :=
  leBytes 4 o.tag ++ [o.status, BitVec.ofNat 8 (o.admitAs + 128 * recPhase o.ref.idx.toNat size), 0, 0]
    ++ leBytes 4 (recDetail o % 2 ^ 32) ++ leBytes 4 (o.counts.toNat % 2 ^ 32)

/-- DONE moves past every index that has its record. -/
def doneAux (l : List OpRef) (d : Fin 4) (r : Fin 66) : Nat → Nat → Nat
  | 0, n => n
  | f + 1, n => if l.contains ⟨d, r, BitVec.ofNat 32 n⟩ then doneAux l d r f ((n + 1) % 2 ^ 32) else n

/-- The record of a work ring's descriptor, DONE, and the vector. -/
def ringRecord (o : Op) (gen : Nat) (stale : Bool) : Act s₀ Unit := do
  let s ← st
  let d := o.d
  let r := o.ref.ring.val
  let size := workSize s d r
  hostWrite d (ringBase s d r 2 + 32 * (o.ref.idx.toNat % size)) (record o size gen stale)
  let l := o.ref :: s.recorded
  let dn := doneAux l o.ref.dom o.ref.ring size (ringDone s d r)
  privSet d (ringW d r 7) dn
  emit (.recorded (l.filter fun x => !(x.dom == o.ref.dom && x.ring == o.ref.ring) || decide (sub32 x.idx.toNat dn < size)))
  if o.irq then signal d (fld (privOf s d (ringW d r 4)) 8 8) else skip

/-- The record of a KX descriptor, and its vector. -/
def kxComplete (o : Op) : Act s₀ Unit := do
  let s ← st
  let size := kxSize s o.d
  hostWrite o.d (privOf s o.d (KX + 0x10) + 2 ^ 32 * privOf s o.d (KX + 0x14) + 16 * (o.ref.idx.toNat % size)) (kxRecord o size)
  signal o.d (fld (privOf s o.d KX) 16 8)

/-- The results become visible, CPL_ESC is acted on, and the record and the vector follow. -/
def completeOp (o : Op) : Act s₀ Unit := do
  showOut o
  let (gen, stale) ← cplAct o
  drainAct o
  if o.hold.isEmpty then skip else unpark
  if o.admitAs = 2 then bump (hdmW o.d 0x80) else if o.admitAs = 1 then bump (hdmW o.d 0x84) else skip
  let s ← st
  emit (.ops (s.ops.filter fun x => x.ref != o.ref))
  if o.ref.ring.val < 64 then ringRecord o gen stale
  else if o.ref.ring.val = 64 then kxComplete o
  else qpAnswer o

/-- OPERATION_COMPLETE (R278). -/
def execOperationComplete (r : OpRef) (s : State) : Host.Outcome State Fault Refusal := perform s do
  let s ← st
  match findOp s r with
  | none => skip
  | some o =>
    if o.phase ≠ .decided then skip
    else do
      completeOp o
      fetchNext r

end Sys2Proof.Machine
end

