-- ==== Sys2Proof/Machine/Service.lean ====
section
/-! DEFINITION. Open ports and service (R203 to R207, R253 to R264): the receive filter, PFC, ECN, Crown's
answers, Ghedin peers and the RoCEv2 queue pairs. -/

namespace Sys2Proof.Machine

variable {s₀ : State}

/-! ### The receive filter (R204, Table 11.8) -/

/-- The Ethernet address of an IPv6 address' solicited-node group, and the group itself. -/
def solicitMac (a : Nat) : Nat := leNat (([0x33, 0x33, 0xFF, fld a 16 8, fld a 8 8, fld a 0 8]).map fun v => BitVec.ofNat 8 v)
def solicitIp (a : Nat) : Nat := 0xFF02 * 2 ^ 112 + 0x1FF * 2 ^ 24 + fld a 0 24

/-- What becomes of a frame. -/
inductive Filt where
  | drop (counter : Nat)
  | pfc | crown | service
  | ghedin (h : Hdr)
  | other
deriving DecidableEq, Repr

def ownMac (s : State) (p : Nat) (half : Bool) (m : Nat) : Bool :=
  m == portMac s p half || m == 0xFFFFFFFFFFFF || m == solicitMac (portIp6 s p) || m == solicitMac (linkLocal s p half)
  || m == leNat [0x01, 0x80, 0xC2, 0x00, 0x00, 0x01]

def ownIp (s : State) (p : Nat) (half : Bool) (i : IpInfo) : Bool :=
  let d := i.dst.toNat
  if i.v6 then d == portIp6 s p || d == linkLocal s p half || d == solicitIp (portIp6 s p) || d == solicitIp (linkLocal s p half)
  else d == portIp4 s p

/-- Steps 1 to 6 but for the peer checks. -/
def openFilter (s : State) (p : Nat) (half : Bool) (f : Frame) : Filt :=
  let c (o : Nat) : Filt := .drop (fabW p o)
  let six : Filt := match f.gh with
    | none => .drop (RTE + 0x210)
    | some h => if h.cls = 2 ∨ h.cls = 4 then c 0x11C else .ghedin h
  let e := f.etype.toNat
  if !f.fcsOk || decide (f.len < 64) || decide (4198 < f.len) then c 0x10C
  else if !ownMac s p half f.dmac.toNat then c 0x110
  else if e = 0x8808 then (if f.pfcOp = 0x0101 then .pfc else c 0x114)
  else if e = fabEtype s p then six
  else if e = 0x0806 then .crown
  else if e = 0x0800 ∨ e = 0x86DD then
    match f.ip with
    | none => c 0x118
    | some i =>
      if !ownIp s p half i || i.opts then c 0x118
      else match i.kind with
        | .echo => .crown
        | .echo6 => .crown
        | .solicit => .crown
        | .udp n => if n.toNat = fld (regOf s (fabW p 0x30)) 16 16 then six
            else if n.toNat = 4791 ∧ bit (regOf s SVC) 1 then .service else c 0x118
        | .other => c 0x118
  else c 0x114

/-- UNACCEPTED_FRAME (R195, R204): the frame is counted at the step that drops it. On a torus port a frame of a bad length, other
EtherTypes, and Ghedin frames but HELLO on an excluded port, are dropped (Table 11.3, R200). -/
def execUnacceptedFrame (p : Fin 8) (half : Bool) (f : Frame) (s : State) : Host.Outcome State Fault Refusal := perform s do
  let s ← st
  if !(linkAt s p.val half).aligned then skip
  else if portRole s p.val = 1 then
    if f.len < 64 ∨ 4198 < f.len then bump (fabW p.val 0x10C)
    else if f.etype.toNat ≠ fabEtype s p.val then bump (fabW p.val 0x114)
    else if (f.gh.map isHello) == some true then skip
    else offPort p.val half
  else match openFilter s p.val half f with
    | .drop c => bump c
    | .ghedin h =>
      match peerDrop s p.val half f.srcAddr.toNat h with
      | some c => bump c
      | none => skip
    | _ => skip

/-! ### PFC (R206) -/

/-- A quantum in units of 0.01 ns: 512 bit times of 1.6 or 0.8 Tb/s. -/
def quantum (s : State) (p : Nat) : Nat := if portSplit s p then 64 else 32

def prioOn (s : State) (p q : Nat) : Bool := bit (regOf s (fabW p 0x58)) q

/-- An open port half that is UP. -/
def openUp (s : State) (p : Nat) (half : Bool) : Bool := portRole s p == 2 && halfOk s p half && halfState s p half == UP

/-- Transmission resumes at a priority: what was held for it goes out. -/
def resume (p : Nat) (half : Bool) (q : Nat) : Act s₀ Unit := do
  let s ← st
  let x := linkAt s p half
  setLink p half { x with
    paused := x.paused.filter fun y => y.1 != q, storm := x.storm.filter (· != q), queue := x.queue.filter fun y => y.1 != q }
  let s ← st
  emit (.outs { s.outs with tx := s.outs.tx ++ (x.queue.filter fun y => y.1 == q).map Prod.snd })

/-- PFC_FRAME: each enabled priority is paused for its quanta, or resumes. -/
def execPfcFrame (p : Fin 8) (half : Bool) (quanta : List (Fin 8 × BitVec 16)) (s : State) : Host.Outcome State Fault Refusal :=
  perform s <| each quanta fun y => do
    let s ← st
    if !openUp s p.val half || !prioOn s p.val y.1.val then skip
    else if y.2 = 0 then resume p.val half y.1.val
    else modLink p.val half fun x =>
      let since := match x.paused.find? fun z => z.1 == y.1.val with | some z => z.2.2 | none => s.ts
      { x with paused := (y.1.val, s.ts + cdiv (y.2.toNat * quantum s p.val) 100, since) :: x.paused.filter fun z => z.1 != y.1.val }

/-- PFC_PAUSE_EXPIRY: the quanta have run out. -/
def execPfcPauseExpiry (p : Fin 8) (half : Bool) (q : Fin 8) (s : State) : Host.Outcome State Fault Refusal := perform s do
  let s ← st
  match (linkAt s p.val half).paused.find? fun z => z.1 == q.val with
  | some z => if due s z.2.1 0 then resume p.val half q.val else skip
  | none => skip

/-- PFC_WATCHDOG: a priority paused for PFC_WD.MS without a break. -/
def execPfcWatchdog (p : Fin 8) (half : Bool) (q : Fin 8) (s : State) : Host.Outcome State Fault Refusal := perform s do
  let s ← st
  let x := linkAt s p.val half
  match x.paused.find? fun z => z.1 == q.val with
  | some z =>
    if due s z.2.2 (1000000 * fld (regOf s (fabW p.val 0x5C)) 0 16) && !x.storm.contains q.val then do
      setLink p.val half { x with storm := q.val :: x.storm, queue := x.queue.filter fun y => y.1 != q.val }
      bump (fabW p.val 0x124)
    else skip
  | none => skip

/-- PFC_XOFF_REPEAT: 20 µs after the last PFC frame of a priority its partner is to pause, the buffer has drained as far as it has:
below XON the partner resumes, else it hears of the pause again. -/
def execPfcXoffRepeat (p : Fin 8) (half : Bool) (q : Fin 8) (s : State) : Host.Outcome State Fault Refusal := perform s do
  let s ← st
  let x := linkAt s p.val half
  match x.xoff.find? fun y => y.1 == q.val with
  | some y =>
    if !openUp s p.val half || !prioOn s p.val q.val || !due s y.2 20000 then skip
    else do
      let n := rxLevel s p.val half q.val 0
      emit .nonce
      rxSet p.val half q.val n
      if n < (rxMarks s p.val).2 then rxJudge p.val half q.val
      else do
        modLink p.val half fun x => { x with xoff := (q.val, s.ts) :: x.xoff.filter fun z => z.1 != q.val }
        sendFrame (.link p.val half) (.pfc q.val 0xFFFF) (openEth s p.val half 5 (.link p.val half) (.pfc q.val 0xFFFF))
  | none => skip

/-! ### ECN (R207) -/

/-- ECN_FLAG_TIMER: an ECN flag not carried within 10 µs goes in an empty RSP frame. -/
def execEcnFlagTimer (peer : Fin 256) (s : State) : Host.Outcome State Fault Refusal := perform s do
  let s ← st
  match (peerAt s peer.val).flagDue with
  | some t =>
    if ecnOn s (peerPort s peer.val) && due s t 10000 then do
      let k := (Config.freeWord s.nonce 2).toNat
      emit .nonce
      let h := mkHdr s 1 0x97 0 0 0 0 (k / 65536) 0 0 k 0
      sendToPeer peer.val (.of (peerHdr s peer.val { h with flags := 8 }) .none)
    else skip
  | none => skip

/-- ECN_RATE_RAISE: 50 µs without an ECN flag raise the rate by 5 % of the port rate. -/
def execEcnRateRaise (peer : Fin 256) (s : State) : Host.Outcome State Fault Refusal := perform s do
  let s ← st
  let x := peerAt s peer.val
  if x.rate < 10000 ∧ ecnOn s (peerPort s peer.val) ∧ due s x.ecnTs 50000 then
    setPeer peer.val { x with rate := min 10000 (x.rate + 500), ecnTs := s.ts }
  else skip

/-! ### Crown's answers (R205) -/

/-- Crown answers at most 1,024 frames a second per port; the excess, and every such frame while it is not running,
is counted. -/
def crownAnswer (p : Nat) (half : Bool) (m : TxMsg) : Act s₀ Unit := do
  let s ← st
  let x := linkAt s p false
  let x := if due s x.crownTs 1000000000 then { x with crownTs := s.ts, crownCnt := 0 } else x
  if !openUp s p half then skip
  else if !crownUp s || decide (1024 ≤ x.crownCnt) then bump (fabW p 0x128)
  else do
    setLink p false { x with crownCnt := x.crownCnt + 1 }
    sendFrame (.crown p half) m (openEth s p half 5 (.crown p half) m)

/-- ARP: a request for FAB_IPV4. -/
def execArp (p : Fin 8) (half : Bool) (target : BitVec 32) (sender : BitVec 48) (s : State) : Host.Outcome State Fault Refusal :=
  perform s do
    let s ← st
    if target.toNat = portIp4 s p.val then crownAnswer p.val half (.arpReply sender) else skip

/-- NEIGHBOUR_SOLICITATION: for FAB_IPV6 or the link-local address. -/
def execNeighbourSolicitation (p : Fin 8) (half : Bool) (target : BitVec 128) (sender : BitVec 128) (s : State) :
    Host.Outcome State Fault Refusal := perform s do
  let s ← st
  if target.toNat = portIp6 s p.val ∨ target.toNat = linkLocal s p.val half then crownAnswer p.val half (.neighAdvert sender)
  else skip

/-- ECHO_REQUEST: with up to 1,472 B of data, which go back with the answer. -/
def execEchoRequest (p : Fin 8) (half : Bool) (f : Frame) (data : List Byte) (s : State) : Host.Outcome State Fault Refusal :=
  perform s do
    let s ← st
    match openFilter s p.val half f with
    | .crown =>
      match f.ip with
      | some i =>
        if (i.kind == .echo || i.kind == .echo6) && decide (data.length ≤ 1472) && openUp s p.val half then do
          if ← rxTake p.val half (prioOf f.prio) then crownAnswer p.val half (.echoReply i.v6 f.srcAddr data) else skip
        else skip
      | none => skip
    | .drop c => if (linkAt s p.val half).aligned then bump c else skip
    | _ => skip

/-! ### Ghedin peers (R254 to R256) -/

/-- STATE and VER of an entry. -/
def peerSet (n state ver : Nat) : Act s₀ Unit := do
  let s ← st
  regSet (peerW n 0) (putFld (putFld (regOf s (peerW n 0)) 21 2 state) 23 4 ver)

def peerState (s : State) (n : Nat) : Nat := fld (regOf s (peerW n 0)) 21 2

/-- The header of a HELLO to a peer: DST and SRC as R253 has them. -/
def peerHelloHdr (s : State) (n : Nat) : Hdr := { peerHdr s n (bareHdr 0 64) with ver := 0 }

/-- PEER_HELLO_SEND: every 100 ms until a HELLO with SEEN arrives, then once per second. -/
def execPeerHelloSend (n : Fin 256) (s : State) : Host.Outcome State Fault Refusal := perform s do
  let s ← st
  let x := peerAt s n.val
  let gap := if x.seenRx then 1000000000 else 100000000
  if !peerValid s n.val || !openUp s (peerPort s n.val) (peerHalf s n.val) || (x.sent != 0 && !due s x.sent gap) then skip
  else do
    if peerState s n.val = 0 then peerSet n.val 1 0 else skip
    setPeer n.val { x with sent := max 1 s.ts, last := if peerState s n.val = 0 then s.ts else x.last }
    sendOpen (peerPort s n.val) (peerHalf s n.val) 3 (.peer n.val)
      (.hello (peerHelloHdr s n.val) (myHello s (peerPort s n.val) (peerHalf s n.val) x.hello.isSome 4096))

/-- Operations with a request out to a peer end. -/
def peerFail (n status : Nat) : Act s₀ Unit := do
  let s ← st
  each (s.reqs.filter fun q => q.via == some n) fun q => reqFail q status 0

/-- An entry has gone DOWN: every pending operation with that peer ends REMOTE_TIMEOUT, those with no request out too (R254). -/
def peerGone (n : Nat) : Act s₀ Unit := do
  peerFail n REMOTE_TIMEOUT
  let s ← st
  each (s.ops.filter fun o => o.code == 9 && o.at 16 1 == n && colPhase o.phase) fun o => endOp o.ref REMOTE_TIMEOUT 0

/-- A valid HELLO of a peer. Versions 2 and 3 are both in use; a new incarnation ends the operations that wait for the old
one (R317). A frame with a CE mark makes an ECN flag owed (R207). -/
def peerHello (n : Nat) (ce : Bool) (h : HelloRec) : Act s₀ Unit := do
  let s ← st
  let x := peerAt s n
  let v := topVersion 0xC h.versions.toNat
  setPeer n { x with hello := some h, seenRx := x.seenRx || h.seen == 1, last := s.ts,
                     flagDue := if ecnOn s (peerPort s n) ∧ ce ∧ x.flagDue.isNone then some s.ts else x.flagDue }
  if h.seen = 1 ∧ v ≠ 0 then peerSet n 2 v
  else if peerState s n = 2 ∧ v ≠ 0 then peerSet n 2 v
  else peerSet n 1 0
  match x.hello with
  | some o => if o.inc ≠ h.inc then peerFail n TARGET_RESET else skip
  | none => skip

/-- PEER_HELLO: a HELLO of an accepted peer frame. -/
def execPeerHello (p : Fin 8) (half : Bool) (f : Frame) (h : HelloRec) (s : State) : Host.Outcome State Fault Refusal := perform s do
  let s ← st
  if !openUp s p.val half then skip
  else match openFilter s p.val half f with
    | .ghedin g =>
      if !isHello g ∨ !h.chkOk then skip
      else match peerDrop s p.val half f.srcAddr.toNat g with
        | some c => bump c
        | none => do
          if ← rxTake p.val half (prioOf f.prio) then peerHello (fld g.src.toNat 0 8) f.ce h else skip
    | _ => skip

/-- PEER_DOWN: no valid HELLO for 5 s. -/
def execPeerDown (n : Fin 256) (s : State) : Host.Outcome State Fault Refusal := perform s do
  let s ← st
  let x := peerAt s n.val
  if peerState s n.val = 0 ∨ !due s x.last 5000000000 then skip
  else do
    peerSet n.val 0 0
    setPeer n.val { x with hello := none, seenRx := false, sent := 0, held := [], flagDue := none }
    peerGone n.val

/-- E2E_ACK (R256): the packet it names is not held any longer. -/
def execE2eAck (p : Fin 8) (pk : Packet) (s : State) : Host.Outcome State Fault Refusal := perform s <|
  if pk.hdr.op ≠ 0x97 ∨ pk.hdr.cls ≠ 1 ∨ p.val < 6 then skip
  else arrive p.val pk fun v => do
    match v.peer with
    | some n => do
      let s ← st
      let x := peerAt s n
      setPeer n { x with held := x.held.filter fun h => !(h.pk.hdr.optag == pk.hdr.optag && h.pk.hdr.seq == pk.hdr.seq) }
    | none => skip

/-- E2E_RETRANSMIT (R256): resent with RETRY set, or, after RETRIES resends, given up. -/
def execE2eRetransmit (n : Fin 256) (optag : BitVec 16) (seq : BitVec 24) (s : State) : Host.Outcome State Fault Refusal := perform s do
  let s ← st
  let x := peerAt s n.val
  let me (h : HeldPk) : Bool := h.pk.hdr.optag == optag && h.pk.hdr.seq == seq
  match x.held.find? me with
  | none => skip
  | some h =>
    if !due s h.since (1000 * fld (regOf s (SVC + 4)) 0 16) then skip
    else if h.tries < fld (regOf s (SVC + 4)) 16 4 then do
      let pk : Packet := { h.pk with hdr := { h.pk.hdr with flags := h.pk.hdr.flags ||| 2 } }
      setPeer n.val { x with held := mapIf me (fun y => { y with pk := pk, tries := y.tries + 1, since := s.ts }) x.held }
      bump (SVC + 0x20)
      sendToPeer n.val pk
    else do
      setPeer n.val { x with held := x.held.filter fun y => !me y }
      each (s.reqs.filter fun q => q.via == some n.val && q.optag == optag) fun q => reqFail q REMOTE_TIMEOUT 0

/-- DEDUP_KEY_EXPIRY (R256): 2 × (RETRIES + 1) × RETX_US after the packet. -/
def execDedupKeyExpiry (n : Fin 256) (optag : BitVec 16) (seq : BitVec 24) (s : State) : Host.Outcome State Fault Refusal := perform s do
  let s ← st
  let x := peerAt s n.val
  let w := regOf s (SVC + 4)
  let hold := 2 * (fld w 16 4 + 1) * (1000 * fld w 0 16)
  setPeer n.val { x with dedup := x.dedup.filter fun y => !(y.1 == optag && y.2.1 == seq && due s y.2.2 hold) }

/-! ### Queue pairs (R260 to R264) -/

/-- A NAK of the given code; the QP enters ERROR. -/
def roceBad (q : Nat) (psn : BitVec 24) (code : Nat) : Act s₀ Unit := do
  sendQp q (.roceNak q psn code)
  if code = 2 then bump (SVC + 0x1C) else skip
  qpError q

/-- A CNP for a CE-marked packet, at most once per 50 µs (R260). -/
def cnpSend (q : Nat) : Act s₀ Unit := do
  let s ← st
  let x := qpAt s q
  let soon := match x.cnpTs with | some t => !due s t 50000 | none => false
  if soon then skip
  else do
    setQp q { x with cnpTs := some s.ts }
    bump (SVC + 0x28)
    sendQp q (.roceCnp q)

/-- A request packet of a queue pair: dropped, refused, out of order, or taken; `f` hears whether it is a duplicate. -/
def roceIn (q : Nat) (k : RocePkt) (f : Bool → Act s₀ Unit) : Act s₀ Unit := do
  let s ← st
  let w := regOf s (qpW q 0)
  let exp := BitVec.ofNat 24 (regOf s (qpW q 2))
  let d := (k.psn - exp).toNat
  if !bit (regOf s SVC) 1 || halfState s (6 + b2n (bit w 1)) (bit w 2) != UP then skip
  else if !bit w 0 || k.srcIp.toNat != qpAddr s q then bump (SVC + 0x18)
  else if qpState s q ≠ 1 then skip
  else do
    if ← rxTake (6 + b2n (bit w 1)) (bit w 2) (prioOf k.prio) then do
      if k.ce then cnpSend q else skip
      if k.absent then roceBad q k.psn 1
      else if d = 0 then f false
      else if 8388608 ≤ d then f true
      else sendQp q (.roceNak q exp 0)
    else skip

/-- `n` packets have been taken in order. -/
def psnNext (q n : Nat) : Act s₀ Unit := do
  let s ← st
  regFld (qpW q 2) 0 24 (fld (regOf s (qpW q 2)) 0 24 + n)

/-- An ACK on the last packet of a message and at least every 16 packets. -/
def roceAckDue (q : Nat) (k : RocePkt) : Act s₀ Unit := do
  let s ← st
  let x := qpAt s q
  if k.last ∨ 16 ≤ x.unacked + 1 then do
    setQp q { x with unacked := 0 }
    sendQp q (.roceAck q k.psn)
  else setQp q { x with unacked := x.unacked + 1 }

/-- R262: the address in global memory that an R_Key and a virtual address give, if the window grants `right`. -/
def roceAddr (s : State) (rkey va n right : Nat) : Option Nat :=
  let a := SVC + 0x3000 + 16 * fld rkey 0 8
  let x := regOf s a
  let base := 4096 * fld (regOf s (a + 4)) 12 20 + 2 ^ 32 * regOf s (a + 8)
  if bit x 0 && !bit x 1 && fld x 8 24 == rkey / 256 && bit x (2 + right) && decide (va + n ≤ 4096 * regOf s (a + 12)) then
    some (base + va)
  else none

def svcDom (s : State) : Nat := fld (regOf s SVC) 2 2

/-- The bytes of an RDMA WRITE packet go to their place; answers whether they could. A window on another chip
sends them on. -/
def roceWrite (q : Nat) (psn : BitVec 24) (a : Nat) (b : List Byte) : Act s₀ (Option Bool) := do
  let s ← st
  match (Loc.ofAddr a).near s with
  | .hbm o =>
    if !inHbmQuota s (svcDom s) o b.length then pure none
    else do
      let e ← hbmWrite o b none
      pure (if e = OK then some true else none)
  | .far c _ =>
    if !inSlice s c then pure none
    else do
      let e ← request none c 0x10 (svcDom s) a b.length 1 1 (.roce q psn) (.raw b)
      pure (if e = OK then some false else none)
  | _ => pure none

/-- RDMA_WRITE (R262). -/
def execRdmaWrite (q : Fin 4096) (k : RocePkt) (s : State) : Host.Outcome State Fault Refusal :=
  perform s <| roceIn q.val k fun dup => do
    if dup then sendQp q.val (.roceAck q.val k.psn)
    else do
      let s ← st
      let n := k.data.length
      let at_ : Option (Nat × Nat × Nat) :=
        if k.first then some (k.rkey.toNat, k.va.toNat, max n k.dmaLen) else (qpAt s q.val).wr.map fun x => (x.1, x.2, n)
      match at_ with
      | none => roceBad q.val k.psn 1
      | some (key, va, len) =>
        match roceAddr s key va len 1 with
        | none => roceBad q.val k.psn 2
        | some a =>
          match ← roceWrite q.val k.psn a k.data with
          | none => roceBad q.val k.psn 2
          | some here => do
            psnNext q.val 1
            let s ← st
            setQp q.val { qpAt s q.val with wr := if k.last then none else some (key, va + n) }
            if here then roceAckDue q.val k else skip

/-- RDMA READ requests of a queue pair that wait for another chip. -/
def qpReads (s : State) (q : Nat) : Nat := s.reqs.countP fun x => match x.kind with
  | .roce n _ => n == q && x.pk.hdr.op == 0x11
  | _ => false

/-- RDMA_READ (R262); a duplicate is executed again. -/
def execRdmaRead (q : Fin 4096) (k : RocePkt) (s : State) : Host.Outcome State Fault Refusal :=
  perform s <| roceIn q.val k fun dup => do
    let s ← st
    if 16 ≤ qpReads s q.val then roceBad q.val k.psn 1
    else match roceAddr s k.rkey.toNat k.va.toNat k.dmaLen 0 with
    | none => roceBad q.val k.psn 2
    | some a => do
      let pm := qpPmtu s q.val
      let ok ← match (Loc.ofAddr a).near s with
        | .hbm o => do
          if !inHbmQuota s (svcDom s) o k.dmaLen then pure false
          else match ← hbmRead o k.dmaLen none with
            | .ok b => do
              sendQp q.val (.roceRead q.val k.psn b)
              pure true
            | .error _ => pure false
        | .far c _ => do
          if !inSlice s c then pure false
          else foldA (piecesOf 4096 k.dmaLen) true fun ok x => do
            if !ok then pure ok
            else do
              let e ← request none c 0x11 (svcDom s) (a + x.1) x.2 1 1 (.roce q.val (k.psn + BitVec.ofNat 24 (x.1 / pm)))
                (.raw (leBytes 8 (a + x.1)))
              pure (e == OK)
        | _ => pure false
      if !ok then roceBad q.val k.psn 2
      else if dup then skip
      else psnNext q.val (max 1 (cdiv k.dmaLen pm))

/-- The POOL a request message asks for, as a descriptor whose arrays stand in the message (Table 14.3, R263). -/
def roceDesc (b : List Byte) : Nat :=
  let h := leNat (b.take 64)
  let n := leAt b 8 4
  let k := leAt b 12 4
  let iw := if bit h 48 then 8 else 4
  let io := 64 + align64 (4 * (k + 1))
  let wo_ := io + align64 (iw * n)
  3 + 2 ^ 16 * leAt b 0 4 + 2 ^ 128 * (fld h 32 15 + 2 ^ 15 * fld h 47 1) + 2 ^ 144 * (fld h 48 1 + 2 + 8 * fld h 49 1)
    + 2 ^ 160 * n + 2 ^ 192 * (msgBase + io) + 2 ^ 256 * (msgBase + 64) + 2 ^ 320 * k + 2 ^ 384 * msgBase
    + (if fld h 44 3 = 4 then 2 ^ 448 * (msgBase + wo_) else 0)

/-- A whole request message runs as a POOL in domain SVC_CTRL.DOMAIN. -/
def roceRun (q : Nat) (b : List Byte) : Act s₀ Unit := do
  let s ← st
  let x := qpAt s q
  let idx := if x.reqs.any fun r => r.1 == 2 * q then 2 * q + 1 else 2 * q
  let ref : OpRef := ⟨⟨svcDom s % 4, Nat.mod_lt _ (by decide)⟩, 65, BitVec.ofNat 32 idx⟩
  setQp q { x with part := [], reqs := x.reqs ++ [(idx, none)] }
  emit (.ops (s.ops ++ [{ newOp ref (roceDesc b) s.ts with
    cache := (List.range b.length).zip b |>.map fun y => (msgBase + y.1, y.2) }]))
  match blkOf b with
  | none => notAdmitted ref BAD_DESCRIPTOR 0
  | some k =>
    if k.agg = 0 then notAdmitted ref NOT_SUPPORTED 0
    else if !winPool s (fld (regOf s (qpW q 0)) 5 8) k.table || !inTblRange s (svcDom s) k.table then
      notAdmitted ref REFUSED_QUOTA 4
    else admitTry ref

/-- SEND (R263): a piece of a pool request message; the last one starts it. -/
def execSend (q : Fin 4096) (k : RocePkt) (s : State) : Host.Outcome State Fault Refusal :=
  perform s <| roceIn q.val k fun dup => do
    let s ← st
    let x := qpAt s q.val
    let b := (if k.first then [] else x.part) ++ k.data
    if dup then sendQp q.val (.roceAck q.val k.psn)
    else if 2 ≤ x.reqs.length then sendQp q.val (.roceRnr q.val k.psn)
    else if 262144 < b.length ∨ (!k.first ∧ x.part.isEmpty) then roceBad q.val k.psn 1
    else do
      psnNext q.val 1
      setQp q.val { x with part := b }
      roceAckDue q.val k
      if k.last then roceRun q.val b else skip

/-- CNP (R260, R207): the rate of a queue pair is halved, after what it has risen since. -/
def execCnp (q : Fin 4096) (s : State) : Host.Outcome State Fault Refusal := perform s do
  let s ← st
  let x := qpAt s q.val
  if !bit (regOf s SVC) 1 || qpState s q.val != 1 || (x.cutTs != 0 && !due s x.cutTs 50000) then skip
  else do
    let up := min 10000 (x.rate + 500 * ((s.ts - x.cutTs) / 50000))
    setQp q.val { x with rate := max 100 (up / 2), cutTs := max 1 s.ts }

/-- Answers not acknowledged by a PSN. -/
def ansLeft (s : State) (q : Nat) (psn : BitVec 24) (l : List QpAnswer) : List QpAnswer :=
  l.filter fun a => decide (8388608 ≤ (psn - (a.psn + BitVec.ofNat 24 (max 1 (cdiv a.body.length (qpPmtu s q)) - 1))).toNat)

/-- Every answer still held is sent again, in order. -/
def ansResend (q : Nat) : Act s₀ Unit := do
  let s ← st
  each (qpAt s q).answers fun a => sendQp q (.roceSend q a.psn a.body)

/-- ROCE_ACK (R264): answers up to the PSN are acknowledged; a NAK sends the rest again. -/
def execRoceAck (q : Fin 4096) (psn : BitVec 24) (nak : Bool) (s : State) : Host.Outcome State Fault Refusal := perform s do
  let s ← st
  if !bit (regOf s SVC) 1 || qpState s q.val != 1 then skip
  else do
    let x := qpAt s q.val
    let l := ansLeft s q.val (if nak then psn - 1 else psn) x.answers
    setQp q.val { x with answers := if nak then l.map fun a => { a with since := s.ts } else l }
    if nak then ansResend q.val else skip

/-- ANSWER_RETRANSMIT (R264): go-back-N after TIMEOUT, RETRY_CNT times; then ERROR. -/
def execAnswerRetransmit (q : Fin 4096) (s : State) : Host.Outcome State Fault Refusal := perform s do
  let s ← st
  let x := qpAt s q.val
  let w := regOf s (qpW q.val 3)
  match x.answers with
  | [] => skip
  | a :: _ =>
    if qpState s q.val ≠ 1 ∨ !due s a.since (4096 * 2 ^ fld w 27 5) then skip
    else if a.tries < fld w 24 3 then do
      setQp q.val { x with answers := x.answers.map fun y => { y with tries := y.tries + 1, since := s.ts } }
      ansResend q.val
    else qpError q.val

end Sys2Proof.Machine
end

