-- ==== Sys2Proof/Machine/Quiet.lean ====
section
/-! DEFINITION. The quiet point (R299, R300): the phase commits and the configuration commit that wait for it, what a
commit does besides changing registers, and the commands of CLB_TXN and of the calibre image. -/

namespace Sys2Proof.Machine

variable {s₀ : State}

/-! ### What a commit does besides (each from the state before it) -/

def wasChanged (s t : State) (a : Nat) : Bool := regOf s a != regOf t a

/-- R161: the groups whose configuration changed are due. -/
def applySch (s : State) : Act s₀ Unit := do
  let t ← st
  emit (.schDue (t.schDue ||| BitVec.ofNat 16
    (((List.range 16).filter fun g => (List.range 9).any fun w => wasChanged s t (schW g w)).map fun g => 2 ^ g).sum))

/-- R171: what is done to an armed rule, and to LPE_CTRL.ENABLE, leaves a record. -/
def applyLpe (s : State) : Act s₀ Unit := do
  let t ← st
  each (List.range 32) fun n =>
    let w := ruleW s n 0
    let w' := ruleW t n 0
    if bit w 0 then do
      if bit w' 0 then skip else loupeNote 0 0x10 n
      if w / 2 = w' / 2 ∧ ruleW s n 1 = ruleW t n 1 ∧ ruleW s n 2 = ruleW t n 2 ∧ ruleW s n 3 = ruleW t n 3 then skip
      else loupeNote 0 0x11 n
    else skip
  if bit (regOf s LPE) 0 && !bit (regOf t LPE) 0 then loupeNote 0 0x10 0xFF else skip

/-- R226: a commit that changes INJ sets OTHER_LIVE; OLD_CLEAR reads 1 while OTHER_LIVE is 0. -/
def applyEpoch (s : State) : Act s₀ Unit := do
  let t ← st
  let e := regOf t (RTE + 8)
  if fld (regOf s (RTE + 8)) 0 1 ≠ fld e 0 1 then do
    regSet (RTE + 8) (putFld e 1 2 1)
    modRte fun x => { x with oldTs := t.ts }
  else if bit e 1 then skip
  else regFld (RTE + 8) 2 1 1

/-- A port whose FAB_CFG or FAB_EXPECT changed: a change of ROLE, SPLIT or PMD trains it anew (R196), and the checks of
Table 11.7 run again on a port discovery had excluded (R296). -/
def applyPort (s : State) (p : Nat) : Act s₀ Unit := do
  let t ← st
  let a := regOf s (fabW p 0)
  let b := regOf t (fabW p 0)
  if fld a 0 5 ≠ fld b 0 5 then
    if portRole t p = 0 then do
      modLink p false linkFresh
      modLink p true linkFresh
      regSet (fabW p 4) (stateWord t p 0 0)
    else if stage t < 6 ∨ stage t = 8 then skip
    else trainPort p
  else if a ≠ b ∨ wasChanged s t (fabW p 0x10) then
    each [false, true] fun h => do
      let t ← st
      let n := halfState t p h
      match (linkAt t p h).helloRx with
      | some r => if halfOk t p h ∧ (n = MISCABLED ∨ n = INCOMPATIBLE) then helloApply p h r else skip
      | none => skip
  else skip

/-- A peer entry taken out of use (R254). -/
def applyPeer (s : State) (n : Nat) : Act s₀ Unit := do
  let t ← st
  if peerValid s n && !peerValid t n then do
    peerSet n 0 0
    peerGone n
    let t ← st
    emit (.peers (mapDel t.peers n))
  else skip

/-- PHASE_EN cleared: the domain is in LEARNING (R22), and what it did in GENERATION is caught up. -/
def applyPhase (s : State) (d : Nat) : Act s₀ Unit := do
  let t ← st
  if bit (regOf s (hdmW d 0x50)) 0 && !bit (regOf t (hdmW d 0x50)) 0 then do
    let m := BitVec.ofNat 4 (2 ^ d)
    let gen := inGeneration t d
    regFld (hdmW d 0x50) 8 1 0
    modHosts fun h => { h with phaseReq := h.phaseReq &&& ~~~m, catchUp := if gen then h.catchUp ||| m else h.catchUp }
  else skip

/-- Crown keeps MEM_MAPOUT_REQ; without USE_RACK TCLK runs from REFCLK (R306). -/
def applyCrown (s : State) : Act s₀ Unit := do
  let t ← st
  modCrown fun c => { c with mapout := (List.range 8).map fun i => BitVec.ofNat 32 (regOf t (MEM + 0x3010 + 4 * i)) }
  if bit (regOf s (CLK + 0x20)) 18 && !bit (regOf t (CLK + 0x20)) 18 then regFld CLK 2 1 0 else skip

/-- An image's identity, partition, IMAGE_ID and tables (R293, R294). -/
def applyImage (i : ImgStage) : Act s₀ Unit := do
  modRte fun x => { x with kept := [] }
  regSet GLB_COORD i.coord.toNat
  regSet (GLB + 8) (i.sliceId.toNat % 2 ^ 32)
  regSet (GLB + 12) (i.sliceId.toNat / 2 ^ 32)
  regSet (CLB + 0x24) (i.imageId.toNat % 2 ^ 32)
  regSet (CLB + 0x28) (i.imageId.toNat / 2 ^ 32)
  modClb fun c => { c with part := i.part.getD c.part }
  each i.tables fun x => tdSet (fld x.2.2.toNat 0 12) (tdOfBits x.2.2.toNat x.2.1)

/-- Every shadowed change, in one step, with what follows of it. -/
def applyAll (s : State) : Act s₀ Unit := do
  each [0, 1, 2, 3] fun g =>
    if (txnAddrs s).any (fun a => decide (grpW g 0 ≤ a ∧ a ≤ grpW g 7)) then
      modCol fun c => { c with served := c.served.filter fun k => k.g != g }
    else skip
  each (txnAddrs s) fun a => regSet a (clamped s a)
  match s.clb.img with
  | some i => applyImage i
  | none => skip
  applySch s
  applyLpe s
  applyEpoch s
  each (List.range 8) (applyPort s)
  each (List.range 256) (applyPeer s)
  each (List.range 4) (applyPhase s)
  applyCrown s

/-! ### The quiet point -/

/-- Stage 6: the halves of ports with a role that are not UP train, FAILED ones too (R310, R196). -/
def enterLinks : Act s₀ Unit := do
  setStage 6 0
  each (List.range 8) fun p => do
    let s ← st
    if portRole s p = 0 then regSet (fabW p 4) (stateWord s p 0 0)
    else each (halves s p) fun h => do
      let s ← st
      if halfState s p h = UP then skip else trainHalf p h

/-- The waiters of an engine that may be admitted now. -/
def admitAll (e : Nat) : Nat → Act s₀ Unit
  | 0 => skip
  | f + 1 => do
    admitOne e
    admitAll e f

/-- The commit at the quiet point: state-dependent checks, then apply or roll back (R300, R301). -/
def commitNow : Act s₀ Unit := do
  let s ← st
  match quietFails s (candidate s) with
  | [] => do
    let cl := clampsOf s
    applyAll s
    let t ← st
    reportAll 1 (cl.map (finding s t))
    commitEnd (if cl.isEmpty then OK else OK_CLAMPED) 0 0
    if atBringup s then enterLinks else skip
  | l => rollback l
  let s ← st
  each (List.range 8) fun e => admitAll e s.ops.length

/-- QUIET_POINT (R299): the phase commits that wait come first. -/
def execQuietPoint (s : State) : Host.Outcome State Fault Refusal := perform s do
  let s ← st
  if s.clb.st ≠ .quiescing then skip
  else do
    each [0, 1, 2, 3] phaseCommit
    commitNow

/-! ### Commands of CLB_TXN and CLB_IMG_GO -/

/-- A command of the steward's: HD0's, from a domain that is present (R7, R298). -/
def steward (d : Fin 4) (k : Act s₀ Unit) : Act s₀ Unit := do
  let s ← st
  if d.val = 0 ∧ s.hosts.present.getLsbD 0 then k else skip

/-- BEGIN. -/
def execTxnBegin (d : Fin 4) (s : State) : Host.Outcome State Fault Refusal := perform s <| steward d txnBegin

/-- COMMIT. -/
def execTxnCommit (d : Fin 4) (s : State) : Host.Outcome State Fault Refusal := perform s <| steward d txnCommit

/-- TXN_ABORT. -/
def execTxnAbort (d : Fin 4) (s : State) : Host.Outcome State Fault Refusal := perform s <| steward d txnAbort

/-- TXN_IDLE_TIMEOUT: an open transaction without a command for IDLE_MS. -/
def execTxnIdleTimeout (s : State) : Host.Outcome State Fault Refusal := perform s do
  let s ← st
  if s.clb.st = .open ∧ due s s.clb.since (idleNs s) then txnStop ABORTED false else skip

/-- CLB_IMG_GO (R291). -/
def execClbImgGo (d : Fin 4) (v : Word) (s : State) : Host.Outcome State Fault Refusal :=
  perform s <| steward d (if bit v.toNat 0 then imgGo else skip)

/-- CALIBRE_LOAD (R291 to R293): at stage 5 Crown reads the image from flash and applies it. -/
def execCalibreLoad (img : List Byte) (s : State) : Host.Outcome State Fault Refusal := perform s do
  let s ← st
  if stage s ≠ 5 ∨ s.clb.st ≠ .idle ∨ !crownUp s then skip
  else do
    imgLoad img.length img false
    let s ← st
    if s.clb.st = .quiescing then commitNow else skip

end Sys2Proof.Machine
end

