-- ==== Sys2Proof/Machine/Reset.lean ====
section
/-! DEFINITION. Resets of every scope (R314 to R318, Table 17.4), and what stops the chip: power, the trip of R330 and the
loss of PLL lock (R303). -/

namespace Sys2Proof.Machine

variable {s₀ : State}

/-- A RESET record (class 8): its CODE by scope (0 cell, 1 channel, 2 port, 3 domain, 4 warm, 5 cold) is open. -/
def resetNote (scope kind unit inc : Nat) (who : Option Who) : Act s₀ Unit :=
  logFault 8 (freeCode 8 scope) kind unit (if who.isSome then TARGET_RESET else 0) who inc 0

/-- An operation ends TARGET_RESET, whether or not its STATUS was decided (R314: a reset is not an abort). -/
def resetOp (r : OpRef) : Act s₀ Unit := do
  failOp r TARGET_RESET
  let s ← st
  match findOp s r with
  | some o =>
    if o.status.toNat = TARGET_RESET then skip
    else do
      putOp { o with
        status := BitVec.ofNat 8 TARGET_RESET, detail := 0, detail64 := none, counts := 0, decTs := s.ts, out := [],
        admitAs := admitOf o TARGET_RESET }
      smearRegion o
  | none => skip

/-! ### Cells, channels and ports -/

/-- A cell reset: bench, flags (the local ones and VEC_FLAGS), accumulators and quarantine are cleared. -/
def resetCell (c : Nat) : Act s₀ Unit := do
  let s ← st
  let o := match (cellAt s c).holder with | some (r, _) => findOp s r | none => none
  match o with
  | some o => failOp o.ref TARGET_RESET
  | none => skip
  emit (.mem .bench (.clear (benchKey c 0) benchSize))
  sramWrite 0 (c * 1048576) 1048576
  setCell c { cellZero with resetting := true }
  regFld (celW c 4) 2 1 0
  regSet (celW c 0x100) 0
  incBump c
  let s ← st
  resetNote 0 1 c (incOf s c) (match o with | some o => o.who | none => none)

/-- A channel reset: every sector of it is written with POISON. -/
def resetChannel (c : Nat) : Act s₀ Unit := do
  let s ← st
  let mine (x : Nat) : Bool := chanOf s (64 * x) == c
  let m := BitVec.ofNat 256 (2 ^ c)
  emit (.ecc ⟨s.ecc.flips.filter fun x => !(mine x), s.ecc.chPoison ||| m, s.ecc.sym.filter fun x => !(mine x.1),
    s.ecc.od.filter fun x => !(mine x)⟩)
  modHosts fun h => { h with resetCh := h.resetCh ||| m, offlineCh := h.offlineCh &&& ~~~m }
  incBump (32 + c)
  let s ← st
  resetNote 1 2 c (incOf s (32 + c)) none

/-- A port reset: link loss, then training anew (R196). -/
def resetPort (p : Nat) : Act s₀ Unit := do
  incBump (288 + p)
  let s ← st
  resetNote 2 3 p (incOf s (288 + p)) none
  if portRole s p = 0 then skip
  else do
    if portRole s p = 1 ∧ portUp s p then linkLoss p
    else each (halves s p) (halfDown p)
    if stage s < 6 ∨ stage s = 8 then skip else trainPort p

/-! ### Host domains -/

/-- The groups a domain owns have nothing left under way. -/
def domainGroups (d : Nat) : Act s₀ Unit :=
  each [0, 1, 2, 3] fun g => do
    let s ← st
    if grpValid s g && grpOwner s g == d && groupOpen s g then colFail g TARGET_RESET else skip

/-- Every operation of a domain stops; with `records` a TARGET_RESET record is written for each. -/
def domainStop (d : Nat) (records : Bool) : Act s₀ Unit := do
  domainGroups d
  let s ← st
  each ((s.ops.filter fun o => o.d == d).map Op.ref) fun r => do
    resetOp r
    let s ← st
    match findOp s r with
    | none => skip
    | some o => do
      if o.code = 0x0A ∧ tcSub o = 3 then
        match tdGet s (tcTable o) with
        | some t => tdSet (tcTable o) { t with releasing := false }
        | none => skip
      else skip
      if records then completeOp o
      else do
        drainAct o
        let s ← st
        emit (.ops (s.ops.filter fun x => x.ref != r))
        if r.ring.val = 65 then qpAnswer o else skip

/-- The escapements of a domain's range are RESET (Table 15.7), which rewrites their words (Table 18.2). -/
def domainEscs (d : Nat) : Act s₀ Unit := do
  let s ← st
  each ((List.range (escLast s d + 1 - escFirst s d)).map (· + escFirst s d)) fun i => do
    escEff i .reset
    escWaiters i
  sramWrite 5 (2 * escFirst s d) (2 * (escLast s d + 1 - escFirst s d))

/-- A domain reset (Table 17.4). HD0's open transaction ends with it. -/
def domainReset (d : Nat) (records : Bool) : Act s₀ Unit := do
  let s ← st
  let o := (s.ops.find? fun o => o.d == d)
  if d = 0 ∧ s.clb.st = .open then txnStop ABORTED false else skip
  domainStop d records
  domainEscs d
  emit (.privKeep fun k => k / 0x4000000 != d)
  let s ← st
  emit (.recorded (s.recorded.filter fun r => r.dom.val != d))
  emit (.marks (s.marks.filter fun r => r.dom.val != d))
  modHosts fun h => { h with resetDom := h.resetDom ||| BitVec.ofNat 4 (2 ^ d) }
  incBump (296 + d)
  let s ← st
  resetNote 3 4 d (incOf s (296 + d)) (match o with | some o => o.who | none => none)

/-! ### The chip -/

/-- The chip incarnation goes on (R315). -/
def chipBump : Act s₀ Unit := do
  modCrown fun c => { c with chipInc := c.chipInc + 1 }
  let s ← st
  regFld RST_STATUS 8 8 (chipInc s)

/-- The four incarnations of RST_INC[k], each advanced. -/
def incWord (w : Nat) : Nat :=
  ([0, 8, 16, 24].map fun l => (fld w l 8 + 1) % 256 * 2 ^ l).sum

/-- What is inside the chip besides registers, Crown, links and the host's memory is as after reset; packets not yet on a
link are gone. -/
def clearInside : Act s₀ Unit := do
  let z := State.reset
  emit .shadowClear
  emit (.privKeep fun _ => false)
  emit (.mem .bench (.clear 0 (32 * benchSize)))
  emit (.mem .well (.clear 0 wellSize))
  emit (.mem .vreg (.clear 0 (32 * 65536)))
  emit (.ecc z.ecc)
  emit (.sram [])
  emit .escClear
  emit (.ops [])
  emit (.recorded [])
  emit (.marks [])
  emit (.reqs [])
  let s ← st
  emit (.outs { s.outs with tx := s.outs.tx.filter fun x => match x.dest with | .fabric => false | .hop _ => false | .transit _ => false | _ => true })
  emit (.tbl z.tbl)
  emit (.sac z.sac)
  emit (.cells [] [])
  emit (.rnd [])
  emit (.stash 0)
  emit (.schDue 0)
  emit (.lpe z.lpe)
  emit (.col z.col)
  emit (.peers [])
  emit (.qps [])
  emit (.clb z.clb)

/-- Registers a warm chip reset keeps (Table 17.4): the fault-log view, MEM_MAPOUT_REQ, the incarnations, the straps, what
the ports have learnt of their links, and the words that hold PLL lock and TJ_MAX. -/
def warmKeep (a : Nat) : Bool :=
  a == FLT_LOG_PROD || a == FLT_LOG_LOST || decide (MEM + 0x3010 ≤ a ∧ a < MEM + 0x3030)
  || decide (RST + 0x100 ≤ a ∧ a < RST + 0x22C) || a == GLB + 0x10 || a == CLK || a == CRN + 0x14 || a == RST_STATUS
  || (match inArr a FAB 0x8000 8 with
      | some (_, o) => o == 4 || o == 8 || o == 0xC || o == 0x14 || decide (0x200 ≤ o ∧ o < 0x240)
      | none => false)

/-- The settings that a chip in warm reset still goes by (R316), in ascending order of address. -/
def fabricSettings : List Nat :=
  [GLB_COORD, GLB + 8, GLB + 12] ++ (List.range 8).flatMap (fun p => [fabW p 0, fabW p 0x10]) ++ [RTE, RTE + 4, RTE + 8, RTE + 0x20, RTE + 0x24]
    ++ (List.range 24).map fun v => RTE + 0x100 + 4 * v

/-- A link over a warm reset: alignment, retry and credits stay; its time stamps start over. -/
def linkKept (ts : Nat) (x : Link) : Link :=
  { linkZero with
    aligned := x.aligned, attempts := x.attempts, downTs := x.downTs - ts, seenRx := x.seenRx, helloRx := x.helloRx,
    lseqTx := x.lseqTx, lseqRx := x.lseqRx, nakWait := x.nakWait, retry := x.retry, nakSeq := x.nakSeq, naks := x.naks,
    sentFl := x.sentFl, credFl := x.credFl, freed := x.freed, owed := x.owed.map fun w => { w with src := none }, overrun := x.overrun }

/-- Packets in the receive buffers are gone, and their flits free again (R316). -/
def buffersDrop : Act s₀ Unit := do
  let s ← st
  each s.outs.tx fun t => match t with
    | ⟨.transit p, .packet pk, _⟩ => freeFl (some (bufOf p pk)) (flitsOf pk.hdr)
    | _ => skip
  each s.links fun l => each l.2.owed fun w => freeFl w.src w.n

/-- R202: a chip whose incarnation changes sends HELLO on every UP port. -/
def helloAll : Act s₀ Unit :=
  each [0, 1, 2, 3, 4, 5] fun p => each [false, true] fun h => do
    let s ← st
    if portRole s p = 1 ∧ halfOk s p h ∧ halfState s p h = UP then do
      helloOut p h
      modLink p h fun x => { x with helloTs := max 1 s.ts }
    else skip

/-- A warm chip reset (Table 17.4). -/
def warmReset : Act s₀ Unit := do
  fwStop
  each [0, 1, 2, 3] fun d => domainStop d true
  buffersDrop
  let s ← st
  let kept := fabricSettings.map fun a => (a, BitVec.ofNat 32 (cfgOf s a))
  let clk := regOf s CLK
  let thr := regOf s (CRN + 0x14)
  let status := regOf s RST_STATUS
  clearInside
  emit (.regsKeep warmKeep)
  regSet CLK (fld clk 0 3)
  regSet (CRN + 0x14) (fld thr 8 8 * 256)
  regSet RST_STATUS (fld status 8 8 * 256)
  each (List.range 75) fun k => do
    let s ← st
    regSet (RST + 0x100 + 4 * k) (incWord (regOf s (RST + 0x100 + 4 * k)))
  emit (.hosts { State.reset.hosts with present := s.hosts.present })
  emit (.links (s.links.map fun x => (x.1, linkKept s.ts x.2)))
  emit (.rte { State.reset.rte with kept := kept })
  modCrown fun c => { c with
    ageing := none, mbx := none, fwBuf := [], bootTs := 0, sensorTs := 0, thrTs := 0, passTs := 0, passCe := [], sramTs := 0, ceAlert := false }
  emit (.ts 0)
  chipBump
  setStage 2 0
  let s ← st
  resetNote 4 0 0 (chipInc s) none
  helloAll

/-- A cold chip reset (Table 17.4): Crown's persistent store is all that stays; the straps are sampled again (R346). Its
operations are gone without a completion record (log entry 134). -/
def coldReset : Act s₀ Unit := do
  fwStop
  clearInside
  emit (.regsKeep fun _ => false)
  let s ← st
  emit (.hosts State.reset.hosts)
  emit (.links [])
  emit (.rte State.reset.rte)
  emit (.outs State.reset.outs)
  modCrown fun c => { c with
    held := [], ageing := none, mbx := none, fwBuf := [], bootTs := 0, sensorTs := 0, thrTs := 0, passTs := 0, passCe := [], sramTs := 0,
    ceAlert := false }
  emit (.ts 0)
  regSet (GLB + 0x10) s.crown.straps.toNat
  chipBump

/-! ### Commands -/

/-- RST_CELL: bit c resets cell c. -/
def execRstCell (d : Fin 4) (v : Word) (s : State) : Host.Outcome State Fault Refusal :=
  perform s <| steward d (each (bitsOf 32 v.toNat) resetCell)

/-- RST_CH[s]: bit i resets channel 32 s + i. -/
def execRstCh (d : Fin 4) (k : Fin 8) (v : Word) (s : State) : Host.Outcome State Fault Refusal :=
  perform s <| steward d (each (bitsOf 32 v.toNat) fun i => resetChannel (32 * k.val + i))

/-- RST_PORT: bit p resets port p. -/
def execRstPort (d : Fin 4) (v : Word) (s : State) : Host.Outcome State Fault Refusal :=
  perform s <| steward d (each (bitsOf 8 v.toNat) resetPort)

/-- RST_DOMAIN: bit d resets domain d, with its records. -/
def execRstDomain (d : Fin 4) (v : Word) (s : State) : Host.Outcome State Fault Refusal :=
  perform s <| steward d (each (bitsOf 4 v.toNat) fun i => domainReset i true)

/-- RST_CHIP.WARM. -/
def execWarmChipReset (d : Fin 4) (s : State) : Host.Outcome State Fault Refusal := perform s <| steward d warmReset

/-- RST_CHIP.COLD: with PWRGD high, stage 0 is over at once. -/
def coldRestart : Act s₀ Unit := do
  coldReset
  let s ← st
  if s.crown.pwrgd ∧ !s.crown.trip then setStage 1 0 else skip
  resetNote 5 0 0 (chipInc s) none

def execColdChipReset (d : Fin 4) (s : State) : Host.Outcome State Fault Refusal := perform s <| steward d coldRestart

/-- PERST of a PCIe port: both its domains are reset without records, and their links are down. -/
def execPerst (port : Fin 2) (s : State) : Host.Outcome State Fault Refusal := perform s do
  each [2 * port.val, 2 * port.val + 1] fun d => do
    domainReset d false
    modHosts fun h => { h with present := h.present &&& ~~~(BitVec.ofNat 4 (2 ^ d)) }

/-- FUNCTION_LEVEL_RESET of a domain that is present. -/
def execFunctionLevelReset (d : Fin 4) (s : State) : Host.Outcome State Fault Refusal := perform s do
  let s ← st
  if s.hosts.present.getLsbD d.val then domainReset d.val false else skip

/-- RESET_COMPLETE: the unit takes requests again; a channel that did not train stays offline. -/
def execResetComplete (u : ResetUnit) (s : State) : Host.Outcome State Fault Refusal := perform s do
  let s ← st
  match u with
  | .cell c => if (cellAt s c.val).resetting then setCell c.val { cellAt s c.val with resetting := false } else skip
  | .channel c ok =>
    let m := BitVec.ofNat 256 (2 ^ c.val)
    if s.hosts.resetCh.getLsbD c.val then
      modHosts fun h => { h with resetCh := h.resetCh &&& ~~~m, offlineCh := if ok then h.offlineCh else h.offlineCh ||| m }
    else skip
  | .domain d => modHosts fun h => { h with resetDom := h.resetDom &&& ~~~(BitVec.ofNat 4 (2 ^ d.val)) }

/-- PWRGD_RISE (R310, R346): the straps are sampled and the cold bring-up goes on to stage 1. -/
def execPwrgdRise (straps : BitVec 4) (s : State) : Host.Outcome State Fault Refusal := perform s do
  let s ← st
  if s.crown.pwrgd then skip
  else do
    modCrown fun c => { c with pwrgd := true, straps := straps }
    regSet (GLB + 0x10) straps.toNat
    setStage 1 0

/-- Records not yet in flash are lost with the power, or with a trip (R325, R330). -/
def logLose : Act s₀ Unit := modCrown fun c => { c with log := c.log.take (c.log.length - c.fresh), fresh := 0 }

/-- PWRGD_FALL (R351): a cold reset, held until PWRGD rises; THERM_TRIP_N goes high again (R330). -/
def execPwrgdFall (s : State) : Host.Outcome State Fault Refusal := perform s do
  let s ← st
  if !s.crown.pwrgd then skip
  else do
    coldReset
    logLose
    modCrown fun c => { c with pwrgd := false, trip := false }

/-- THERM_TRIP (R330): the core is held in cold reset until PWRGD falls. -/
def execThermTrip (s : State) : Host.Outcome State Fault Refusal := perform s do
  let s ← st
  if !s.crown.pwrgd ∨ s.crown.trip then skip
  else do
    coldReset
    logLose
    modCrown fun c => { c with trip := true }

/-- PLL_LOCK (R303, R310): stage 1 ends. -/
def execPllLock (s : State) : Host.Outcome State Fault Refusal := perform s do
  let s ← st
  if stage s ≠ 1 then skip
  else do
    regFld CLK 0 1 1
    setStage 2 0

/-- PLL_LOCK_TIMEOUT: the PLLs of a cold bring-up have not locked within 1 ms. After a loss of lock in service the chip
holds in stage 1 until lock returns (R303). -/
def execPllLockTimeout (s : State) : Host.Outcome State Fault Refusal := perform s do
  let s ← st
  if stage s = 1 ∧ !bit (regOf s CLK) 1 then halt 1 else skip

/-- PLL_UNLOCK (R303). -/
def execPllUnlock (s : State) : Host.Outcome State Fault Refusal := perform s do
  let s ← st
  if stage s < 2 ∨ !bit (regOf s CLK) 0 then skip
  else do
    warmReset
    regFld CLK 0 2 2
    logFault 9 (freeCode 9 0) 0 0 0 none 0 0
    setStage 1 0

end Sys2Proof.Machine
end

