-- ==== Sys2Proof/Machine/Crown.lean ====
section
/-! DEFINITION. Crown (R312, R313, R325, R328 to R337), the bring-up stages it runs (R186, R310) and the clock's own events
(R306, R309). -/

namespace Sys2Proof.Machine

variable {s₀ : State}

def CRN_THROTTLE : Nat := CRN + 0x14
def CLK_AGE : Nat := CLK + 8
def MEM_CAP : Nat := MEM + 0x3008
def sensorW (n : Nat) : Nat := CRN + 0x100 + 4 * n

/-- CRN_STATUS.STATE. -/
def crownState (s : State) : Nat := fld (regOf s CRN_STATUS) 0 2

/-- A CROWN record (class 13). -/
def crownNote (code unit : Nat) : Act s₀ Unit := logFault 13 code 0 unit 0 none 0 0

/-! ### Starting (R333 to R336) -/

/-- The sensors hold their last values, marked STALE (R336). -/
def sensorsStale : Act s₀ Unit :=
  each (List.range 96) fun n => regFld (sensorW n) 31 1 1

/-- Crown stops to start again. -/
def crownStop : Act s₀ Unit := do
  fwStop
  modCrown fun c => { c with ageing := none }
  sensorsStale
  regFld CRN_STATUS 0 2 2

/-- The held records enter the log (R325). -/
def heldFlush : Act s₀ Unit := do
  let s ← st
  modCrown fun c => { c with held := [] }
  each s.crown.held fun r => do
    let s ← st
    let r := { r with seq := BitVec.ofNat 32 (regOf s FLT_LOG_PROD) }
    modCrown fun c => { c with log := (c.log ++ [r]).drop (c.log.length + 1 - 4096), fresh := c.fresh + 1 }
    bump FLT_LOG_PROD
    smbOut [BitVec.ofNat 8 r.cls]

/-- The mailbox command written while Crown was away (R334, R336). -/
def mbxReturn : Act s₀ Unit := do
  let s ← st
  match s.crown.mbx with
  | some (_, true) => mbxEnd REFUSED_FULL
  | _ => skip

/-- Crown runs from a slot. -/
def crownRun (slot : Bool) (skipped : Bool) : Act s₀ Unit := do
  let s ← st
  let bringup := stage s = 2
  modCrown fun c => { c with active := slot, pendingFw := false }
  regSet CRN_STATUS (1 + 4 * b2n slot + 16 * b2n skipped)
  fwRegs
  if bringup then do
    if regOf s FLT_LOG_PROD = 0 then
      match s.crown.log.getLast? with
      | some r => regSet FLT_LOG_PROD (r.seq.toNat + 1)
      | none => skip
    else skip
    each ((List.range 8).zip s.crown.mapout) fun x => regSet (MEM + 0x3010 + 4 * x.1) x.2.toNat
    setStage 3 0
  else skip
  heldFlush
  if bringup then skip else crownNote 4 0
  imgResume
  mbxReturn

/-- No slot can run: the chip halts in stage 2, and goes on without Crown elsewhere. -/
def crownFail : Act s₀ Unit := do
  let s ← st
  if stage s = 2 then halt 2
  else do
    regFld CRN_STATUS 0 2 3
    imgResume
    mbxReturn

/-- The slots in the order of R333: the pending one first, else the active one. -/
def bootOrder (c : Crown) : List Bool := if c.pendingFw then [!c.active, c.active] else [c.active, !c.active]

def slotRuns (c : Crown) (aliveA aliveB slot : Bool) : Bool :=
  let x := if slot then c.fwB else c.fwA
  x.sigOk && decide (c.minSvn.toNat ≤ x.svn.toNat) && (if slot then aliveB else aliveA)

/-- R333, from the first slot that has not been tried on. -/
def bootFrom (aliveA aliveB : Bool) : List Bool → Bool → Act s₀ Unit
  | [], _ => crownFail
  | x :: xs, skipped => do
    let s ← st
    if slotRuns s.crown aliveA aliveB x then crownRun x skipped
    else do
      crownNote 3 (b2n x)
      regFld CRN_STATUS 4 1 1
      bootFrom aliveA aliveB xs true

/-- Crown's boot logic runs. -/
def crownBoot (aliveA aliveB : Bool) : Act s₀ Unit := do
  let s ← st
  modCrown fun c => { c with bootTs := s.ts }
  regFld CRN_STATUS 4 1 0
  bootFrom aliveA aliveB (bootOrder s.crown) false

/-- CROWN_BOOT: in stage 2 of bring-up, or as Crown restarts. -/
def execCrownBoot (aliveA aliveB : Bool) (s : State) : Host.Outcome State Fault Refusal := perform s do
  let s ← st
  if stage s = 2 ∨ crownState s = 2 then crownBoot aliveA aliveB else skip

/-- A write of CRN_CTRL: VEC, and RESTART of a Crown that runs or has failed. -/
def crownCtrl (v : Nat) : Act s₀ Unit := do
  regFld (CRN + 4) 8 8 (fld v 8 8)
  let s ← st
  if bit v 0 && (crownState s == 1 || crownState s == 3) then crownStop else skip

/-- CROWN_RESTART. -/
def execCrownRestart (d : Fin 4) (v : Word) (s : State) : Host.Outcome State Fault Refusal :=
  perform s <| steward d (crownCtrl v.toNat)

/-- CROWN_WATCHDOG: Crown has not served its watchdog for 2 s. -/
def execCrownWatchdog (s : State) : Host.Outcome State Fault Refusal := perform s do
  let s ← st
  if crownState s = 1 then crownStop else skip

/-- BOOT_RETRY (R334): every 60 s while Crown has failed. -/
def execBootRetry (aliveA aliveB : Bool) (s : State) : Host.Outcome State Fault Refusal := perform s do
  let s ← st
  if crownState s = 3 ∧ due s s.crown.bootTs 60000000000 then crownBoot aliveA aliveB else skip

/-! ### HBM bring-up (R186 to R188) -/

/-- A channel's RESULT: 0 pass, 1 training failed, 2 march failed after repair, 3 mapped out by request. -/
def chResult (s : State) (res : List ChTest) (c : Nat) : Nat × Nat :=
  let asked := bit (regOf s (MEM + 0x3010 + 4 * (c / 32))) (c % 32)
  match res.find? fun x => x.ch.val == c with
  | some x => (if !x.trained then 1 else if x.bad then 2 else if asked then 3 else 0, x.repairs.toNat)
  | none => (if asked then 3 else 0, 0)

/-- HBM_CHANNEL_TEST: stage 3. Every sector has been tested, so what HBM held is undefined (R187). -/
def execHbmChannelTest (res : List ChTest) (s : State) : Host.Outcome State Fault Refusal := perform s do
  let s ← st
  if stage s ≠ 3 then skip
  else do
    emit (.mem .hbm (.smear 0 (256 * chBytes)))
    emit (.ecc State.reset.ecc)
    modHosts fun h => { h with resetCh := 0, offlineCh := 0 }
    let out := (List.range 256).map fun c => (c, chResult s res c)
    let live := (out.filter fun x => x.2.1 == 0).map Prod.fst
    each (List.range 8) fun k =>
      regSet (memW k 0) ((live.filter fun c => c / 32 == k).map fun c => 2 ^ (c % 32)).sum
    each out fun x => regSet (memW (x.1 / 32) (0x400 + 4 * (x.1 % 32))) (x.2.1 + 256 * x.2.2)
    regSet MEM_CAP live.length
    each (out.filter fun x => x.2.1 != 0) fun x => do
      let s ← st
      logFault 12 (freeCode 12 1) 2 x.1 0 none (incOf s (32 + x.1)) 0
    if live.isEmpty then halt 3 else setStage 4 0

/-! ### Ageing and margin (R312, R313, R332) -/

/-- VDD_CORE of a margin step in mV. -/
def marginMv (m : Nat) : Nat := 750 + 5 * m

/-- The 7-bit SMBus address (R331). -/
def smbAddr (s : State) : Nat := 0x60 + fld s.crown.straps.toNat 2 2

/-- A setpoint is requested from the board by Host Notify: Crown's address and the setpoint in mV. -/
def setpointAsk : Act s₀ Unit := do
  let s ← st
  match s.crown.ageing with
  | some a => do
    modCrown fun c => { c with ageing := some { a with since := s.ts } }
    smbOut (BitVec.ofNat 8 (2 * smbAddr s) :: leBytes 2 (marginMv a.m))
  | none => skip

/-- The measurement begins at bin 0, margin 0. -/
def ageStart (pass : List (Nat × Nat)) (slow : Byte) (byMbx : Bool) : Act s₀ Unit := do
  modCrown fun c => { c with ageing := some ⟨0, 0, pass, slow, false, 0, byMbx⟩ }
  setpointAsk

/-- It ends without a point, or without the board (R313, R332). Which STATUS the mailbox then reads is open. -/
def ageFail (a : Ageing) : Act s₀ Unit := do
  modCrown fun c => { c with ageing := none }
  halt 4
  if a.byMbx then mbxEnd (failCode 256) else skip

/-- A point is chosen: CLK_AGE, and in bring-up the bin and the next stage. -/
def ageChoose (a : Ageing) : Act s₀ Unit := do
  modCrown fun c => { c with ageing := none }
  regSet CLK_AGE (a.slow.toNat + 256 * a.m)
  if a.byMbx then mbxEnd OK
  else do
    regFld CLK 4 2 a.bin
    setStage 5 0

/-- The board has applied a setpoint: the point passes, or the next one is tried. -/
def agePoint (a : Ageing) : Act s₀ Unit :=
  if a.pass.contains (a.bin, a.m) then ageChoose a
  else if a.m < 12 then do
    modCrown fun c => { c with ageing := some { a with m := a.m + 1, again := false } }
    setpointAsk
  else if a.bin < 2 then do
    modCrown fun c => { c with ageing := some { a with bin := a.bin + 1, m := 0, again := false } }
    setpointAsk
  else ageFail a

/-- A request that failed is repeated once (R332). -/
def setpointMiss (a : Ageing) : Act s₀ Unit :=
  if a.again then ageFail a
  else do
    modCrown fun c => { c with ageing := some { a with again := true } }
    setpointAsk

/-- AGEING_MEASUREMENT: stage 4. -/
def execAgeingMeasurement (pass : List (Nat × Nat)) (slow : Byte) (s : State) : Host.Outcome State Fault Refusal := perform s do
  let s ← st
  if stage s = 4 ∧ crownUp s ∧ s.crown.ageing.isNone then ageStart pass slow false else skip

/-- SETPOINT_ACK: the applied value is within 2 mV of the request, or the request has failed. -/
def execSetpointAck (mv : BitVec 16) (s : State) : Host.Outcome State Fault Refusal := perform s do
  let s ← st
  match s.crown.ageing with
  | some a =>
    if !crownUp s then skip
    else if mv.toNat ≤ marginMv a.m + 2 ∧ marginMv a.m ≤ mv.toNat + 2 then agePoint a
    else setpointMiss a
  | none => skip

/-- SETPOINT_TIMEOUT: no acknowledgement within 1 ms. -/
def execSetpointTimeout (s : State) : Host.Outcome State Fault Refusal := perform s do
  let s ← st
  match s.crown.ageing with
  | some a => if crownUp s ∧ due s a.since 1000000 then setpointMiss a else skip
  | none => skip

/-! ### The mailbox (R337) -/

/-- A write of CRN_MBX_CMD. -/
def mbxWrite (cmd : Nat) : Act s₀ Unit := do
  let s ← st
  if bit (regOf s CRN_MBX_STATUS) 0 then skip
  else match crownState s with
    | 1 =>
      if cmd = 1 then do
        modCrown fun c => { c with mbx := some (1, false) }
        regFld CRN_MBX_STATUS 0 1 1
      else if cmd = 2 then
        if stage s = 9 then do
          modCrown fun c => { c with mbx := some (2, false) }
          regFld CRN_MBX_STATUS 0 1 1
        else mbxEnd BAD_DESCRIPTOR
      else mbxEnd NOT_SUPPORTED
    | 3 => mbxEnd REFUSED_FULL
    | _ => do
      modCrown fun c => { c with mbx := some (cmd, true) }
      regFld CRN_MBX_STATUS 0 1 1

/-- A mailbox command runs; one not yet written is written first. -/
def mbxGo (d : Fin 4) (cmd : Nat) (k : Act s₀ Unit) : Act s₀ Unit := do
  let s ← st
  if s.crown.mbx.isNone then steward d (mbxWrite cmd) else skip
  let s ← st
  if s.crown.mbx = some (cmd, false) ∧ crownUp s then k else skip

/-- FW_STAGE (R335): the command in the mailbox runs. -/
def execFwStage (d : Fin 4) (s : State) : Host.Outcome State Fault Refusal := perform s <| mbxGo d 1 do
  let s ← st
  if s.reqs.any (imageReq true) then skip else fwStage

/-- AGE_MEASURE (R312, R337): the command in the mailbox of a HALTED chip runs. -/
def execAgeMeasure (d : Fin 4) (pass : List (Nat × Nat)) (slow : Byte) (s : State) : Host.Outcome State Fault Refusal :=
  perform s <| mbxGo d 2 do
    let s ← st
    if s.crown.ageing.isSome then skip else ageStart pass slow true

/-! ### Sensors and throttling (R328 to R330, R180) -/

/-- CRN_SENSOR[n].VALUE as a signed number. -/
def sensorVal (s : State) (n : Nat) : Int := (BitVec.ofNat 16 (regOf s (sensorW n))).toInt

/-- TJ in 0.125 °C: the highest of sensors 0 to 31 and 40 to 47. -/
def tjOf (s : State) : Int :=
  ((List.range 31).map (· + 1) ++ (List.range 8).map (· + 40)).foldl (fun t n => max t (sensorVal s n)) (sensorVal s 0)

def throttleL (s : State) : Nat := fld (regOf s CRN_THROTTLE) 0 3

/-- The throttle level takes a value; a record marks that it leaves 0 or returns to it. -/
def setThrottle (n : Nat) : Act s₀ Unit := do
  let s ← st
  let old := throttleL s
  regFld CRN_THROTTLE 0 3 n
  if old = 0 ∧ n ≠ 0 then crownNote 1 0 else if old ≠ 0 ∧ n = 0 then crownNote 2 0 else skip

/-- The hardware floor: TJ is 110 °C or more. -/
def hwFloor : Act s₀ Unit := do
  regFld CRN_THROTTLE 3 1 1
  let s ← st
  setThrottle (max 4 (throttleL s))

/-- HW_FORCED_THROTTLE. -/
def execHwForcedThrottle (s : State) : Host.Outcome State Fault Refusal := perform s hwFloor

/-- MEM_STACK_TEMP of a stack (R180): above 85 °C it refreshes twice as often, above 95 °C it issues at half rate. -/
def stackTemp (k t : Nat) : Act s₀ Unit :=
  regSet (memW k 4) (t % 256 + 256 * b2n (decide (85 < t % 256)) + 512 * b2n (decide (95 < t % 256)))

/-- STACK_TEMP_THRESHOLD. -/
def execStackTempThreshold (k : Fin 8) (temp : Byte) (s : State) : Host.Outcome State Fault Refusal :=
  perform s (stackTemp k.val temp.toNat)

/-- SENSOR_READ (R328): once per ms, while Crown runs. -/
def execSensorRead (vals : List (BitVec 16)) (s : State) : Host.Outcome State Fault Refusal := perform s do
  let s ← st
  if !crownUp s ∨ vals.length ≠ 96 ∨ (s.crown.sensorTs ≠ 0 ∧ !due s s.crown.sensorTs 1000000) then skip
  else do
    each ((List.range 96).zip vals) fun x => regSet (sensorW x.1) x.2.toNat
    each (List.range 8) fun k => stackTemp k ((vals.getD (32 + k) 0).toNat / 8)
    modCrown fun c => { c with sensorTs := max 1 s.ts }
    let s ← st
    let t := tjOf s
    regFld CRN_THROTTLE 8 8 (max (fld (regOf s CRN_THROTTLE) 8 8) (min 255 (t / 8).toNat))
    if 880 ≤ t then hwFloor else regFld CRN_THROTTLE 3 1 0

/-- THROTTLE_ADJUST (R329): at the end of each ms. -/
def execThrottleAdjust (s : State) : Host.Outcome State Fault Refusal := perform s do
  let s ← st
  if !crownUp s ∨ (s.crown.thrTs ≠ 0 ∧ !due s s.crown.thrTs 1000000) then skip
  else do
    modCrown fun c => { c with thrTs := max 1 s.ts }
    let lim : Int := 8 * (fld (regOf s (CRN + 0x10)) 0 8 : Nat)
    let t := tjOf s
    let l := throttleL s
    let floor := if bit (regOf s CRN_THROTTLE) 3 then 4 else 0
    if lim ≤ t then setThrottle (min 7 (l + 1))
    else if t < lim - 40 then setThrottle (max floor (l - 1))
    else skip

/-! ### The fault log and SMBus (R325, R331) -/

/-- FAULT_LOG_FLASH_WRITE: the oldest record not yet in flash is written there. -/
def execFaultLogFlashWrite (s : State) : Host.Outcome State Fault Refusal := perform s do
  let s ← st
  if crownUp s then modCrown fun c => { c with fresh := c.fresh - 1 } else skip

/-- The CRC-8 of SMBus packet error checking. -/
def pecByte (c : Nat) (b : Byte) : Nat :=
  (List.range 8).foldl (fun c _ => if 128 ≤ c then (2 * c % 256) ^^^ 7 else 2 * c) (c ^^^ b.toNat)

/-- An answer on SMBus: what is read, and its packet error code over the whole transfer. -/
def smbAnswer (cmd : List Byte) (read : List Byte) : Act s₀ Unit := do
  let s ← st
  let a := 2 * smbAddr s
  let all := BitVec.ofNat 8 a :: cmd ++ BitVec.ofNat 8 (a + 1) :: read
  if crownUp s then smbOut (read ++ [BitVec.ofNat 8 (all.foldl pecByte 0)]) else skip

/-- STATUS. -/
def execSmbusStatus (s : State) : Host.Outcome State Fault Refusal := perform s do
  let s ← st
  let t := regOf s CRN_THROTTLE
  smbAnswer [0x01] (leBytes 2 (regOf s RST_STATUS % 256 + 256 * fld t 0 4 + 4096 * crownState s))

/-- TJ. -/
def execSmbusTj (s : State) : Host.Outcome State Fault Refusal := perform s do
  let s ← st
  smbAnswer [0x02] (leBytes 2 (BitVec.ofInt 16 (tjOf s)).toNat)

/-- SENSOR; a number that names none does not fit Table 19.1. -/
def execSmbusSensor (n : Byte) (s : State) : Host.Outcome State Fault Refusal := perform s do
  let s ← st
  if n.toNat < 96 then smbAnswer [0x03, n] (leBytes 2 (fld (regOf s (sensorW n.toNat)) 0 16)) else skip

/-- LOG_PROD. -/
def execLogProd (s : State) : Host.Outcome State Fault Refusal := perform s do
  let s ← st
  smbAnswer [0x10] (4 :: leBytes 4 (regOf s FLT_LOG_PROD))

/-- The record in a slot of the log, while it is one of the last 4,096. -/
def logSlot (s : State) (i : Nat) : List Byte :=
  match s.crown.log.find? fun r =>
    r.seq.toNat % 4096 == i % 4096 && decide (1 ≤ sub32 (regOf s FLT_LOG_PROD) r.seq.toNat ∧ sub32 (regOf s FLT_LOG_PROD) r.seq.toNat ≤ 4096) with
  | some r => fltBytes r
  | none => List.replicate 32 0

/-- LOG_READ: zeros when i ≥ PROD or i + 4,096 ≤ PROD. -/
def execLogRead (i : Word) (s : State) : Host.Outcome State Fault Refusal := perform s do
  let s ← st
  let prod := regOf s FLT_LOG_PROD
  smbAnswer (0x11 :: 4 :: leBytes 4 i.toNat)
    (32 :: if prod ≤ i.toNat ∨ i.toNat + 4096 ≤ prod then List.replicate 32 0 else logSlot s i.toNat)

/-! ### Bring-up and the clock -/

/-- PCIE_LINK_UP (R265, R311): from stage 2 on; the upper half of a port is a domain only when its strap splits the port. -/
def execPcieLinkUp (d : Fin 4) (s : State) : Host.Outcome State Fault Refusal := perform s do
  let s ← st
  let split := bit (regOf s (GLB + 0x10)) (d.val / 2)
  if stage s < 2 ∨ (d.val % 2 = 1 ∧ !split) then skip
  else modHosts fun h => { h with present := h.present ||| BitVec.ofNat 4 (2 ^ d.val) }

/-- A port in use has settled, or has failed its first attempt (R310). -/
def portSettled (s : State) (p : Nat) : Bool :=
  portRole s p == 0 || [false, true].all fun h =>
    !halfOk s p h || [UP, MISCABLED, INCOMPATIBLE, FAILED].contains (halfState s p h) || decide (0 < (linkAt s p h).attempts)

/-- READY: stage 6 ends, and fetching begins (R311). -/
def execReady (s : State) : Host.Outcome State Fault Refusal := perform s do
  let s ← st
  if stage s = 6 ∧ (List.range 8).all (portSettled s) then do
    setStage 7 0
    fetchAll
  else skip

/-- STEP_MARK (R309, R348): latched, unless the last latched edge is less than 1 µs old; no edge counts while PWRGD is low. -/
def execStepMark (s : State) : Host.Outcome State Fault Refusal := perform s do
  let s ← st
  let last := regOf s (CLK + 0x18) + 2 ^ 32 * regOf s (CLK + 0x1C)
  if !s.crown.pwrgd then skip
  else if last ≠ 0 ∧ s.ts < last + 1000 then bump (CLK + 0x28)
  else do
    regSet (CLK + 0x18) (s.ts % 2 ^ 32)
    regSet (CLK + 0x1C) (s.ts / 2 ^ 32)

/-- RACK_REF_LOCK (R306). -/
def execRackRefLock (s : State) : Host.Outcome State Fault Refusal := perform s do
  let s ← st
  if s.crown.pwrgd ∧ bit (regOf s (CLK + 0x20)) 18 then regFld CLK 2 1 1 else skip

/-- RACK_REF_LOSS (R306). -/
def execRackRefLoss (s : State) : Host.Outcome State Fault Refusal := perform s (regFld CLK 2 1 0)

end Sys2Proof.Machine
end

