-- ==== Sys2Proof/Machine/Bar.lean ====
section
/-! DEFINITION. BAR0: host writes of registers under their access codes and marks (R5 to R7, R295, R297, R298, R338, R339,
R341), and what a host reads there (R8, R302, R338). -/

namespace Sys2Proof.Machine

variable {s₀ : State}

/-! ### Fields -/

/-- The RW fields of a register that are stored as written, or brought to a bound. -/
def rwFlds (r : RegInfo) : List Fld := r.flds.filter fun f => f.acc == .rw

/-- What a RW field stores of a written value (R295). -/
def rwStored (f : Fld) (v : Nat) : Nat :=
  match f.chk with
  | .clamp lo hi => max lo (min hi v)
  | _ => v

/-- The register's value after a write, its RW fields taken from `v`. -/
def rwMerge (r : RegInfo) (old v : Nat) : Nat :=
  (rwFlds r).foldl (fun w f => putFld w f.lsb f.width (rwStored f (fld v f.lsb f.width))) old

/-- R295: a CLAMP record for every RW field stored as another value. -/
def rwReport (d a : Nat) (r : RegInfo) (v : Nat) : Act s₀ Unit :=
  each (rwFlds r) fun f =>
    let w := fld v f.lsb f.width
    if rwStored f w = w then skip else report 1 d 0 (fieldId a f.lsb f.width) w (rwStored f w) 0

/-- An RWL write outside state OPEN: one DISCARD record for each field, in ascending LSB (R297). -/
def rwlDiscard (d a v : Nat) : Act s₀ Unit := do
  let s ← st
  each (rwlFlds a) fun f =>
    report 2 d (if s.clb.st = .idle then 0 else s.clb.id.toNat) (fieldId a f.lsb f.width) (fld v f.lsb f.width) (fld (regOf s a) f.lsb f.width) 0

/-- The RWL fields of a register as HD0 writes them (R298). -/
def rwlPart (a v : Nat) : Act s₀ Unit := do
  let s ← st
  if (rwlFlds a).isEmpty then skip
  else if s.clb.st = .open then shadowWrite a v
  else rwlDiscard 0 a v

/-- A consumer index beyond PROD is applied as PROD, and reported (R172, R295, R297). -/
def consStored (prod v : Nat) : Nat := if sub32 v prod ≠ 0 ∧ sub32 v prod < 2 ^ 31 then prod else v

def consReport (d a prod v : Nat) : Act s₀ Unit :=
  if consStored prod v = v then skip else report 1 d 0 (fieldId a 0 32) v (consStored prod v) 0

/-! ### Shared registers with actions -/

/-- QP_CONTEXT_APPLY (R262): word 0 of a queue pair takes its fields, STATE follows VALID, and the pair starts over. -/
def qpApply (q v : Nat) : Act s₀ Unit := do
  let s ← st
  let a := qpW q 0
  match regInfo a with
  | some r => regSet a (putFld (rwMerge r (regOf s a) v) 13 2 (fld v 0 1))
  | none => skip
  qpDrop q
  setQp q qpZero

/-- RTE_FAULT_CLEAR (R230). -/
def faultClear (v : Nat) : Act s₀ Unit :=
  if bit v 0 then do
    regSet (RTE + 0x300) 0
    each (List.range 128) fun k => regSet (RTE + 0x400 + 4 * k) 0
  else skip

/-- CLB_TXN.CMD. -/
def txnCmd (n : Nat) : Act s₀ Unit :=
  match n with
  | 1 => txnBegin
  | 2 => txnCommit
  | 3 => txnAbort
  | _ => skip

/-- RST_CHIP: COLD takes precedence over WARM. -/
def chipCmd (v : Nat) : Act s₀ Unit := if bit v 1 then coldRestart else if bit v 0 then warmReset else skip

/-- What HD0's write of a shared register does besides its RWL fields: the actions of WO and W1C fields and of words that
have an effect, else the RW fields. -/
def sharedWrite (a v : Nat) (r : RegInfo) : Act s₀ Unit := do
  let s ← st
  if a = CLB then txnCmd (fld v 0 2)
  else if a = CLB + 0x1C then if bit v 0 then imgGo else skip
  else if a = CLB_LOG_CONS then do
    consReport 0 a (regOf s CLB_LOG_PROD) v
    regSet a (consStored (regOf s CLB_LOG_PROD) v)
  else if a = FLT_SUMMARY then regSet a (regOf s a - (regOf s a &&& v &&& 0xFFFE))
  else if a = RST + 0x10 then each (bitsOf 32 v) resetCell
  else if a = RST + 0x14 then each (bitsOf 8 v) resetPort
  else if a = RST + 0x18 then each (bitsOf 4 v) fun i => domainReset i true
  else if a = RST + 0x1C then chipCmd v
  else if RST + 0x20 ≤ a ∧ a < RST + 0x40 then each (bitsOf 32 v) fun i => resetChannel (8 * (a - RST - 0x20) + i)
  else if a = RTE + 0x304 then faultClear v
  else if a = CRN + 4 then crownCtrl v
  else if a = CRN + 0x20 then mbxWrite (fld v 0 8)
  else match inArr a (SVC + 0x20000) 32 4096 with
    | some (q, 0) => qpApply q v
    | _ =>
      if (rwFlds r).isEmpty then skip
      else do
        rwReport 0 a r v
        regSet a (rwMerge r (regOf s a) v)

/-! ### Private and owned registers -/

/-- The KX registers (R285 to R287), live only at the basic level. -/
def kxWrite (d : Fin 4) (a v : Nat) (r : RegInfo) : Act s₀ Unit := do
  let s ← st
  if !basicLevel s d.val then skip
  else if a = KX + 0x18 then
    if sub32 v (kxDone s d.val) ≤ kxSize s d.val then do
      privSet d.val a v
      fetchKx d
    else hdmReject d.val
  else do
    rwReport d.val a r v
    privSet d.val a (rwMerge r (privOf s d.val a) v)

/-- Registers of which each domain has its own copy. -/
def privWrite (d : Fin 4) (a v : Nat) (r : RegInfo) : Act s₀ Unit := do
  let s ← st
  if KX ≤ a ∧ a < KX + 0x10000 then kxWrite d a v r
  else if a = LPE + 0x24 then do
    let prod := privOf s d.val (LPE + 0x20)
    consReport d.val a prod v
    privSet d.val a (consStored prod v)
  else do
    rwReport d.val a r v
    privSet d.val a (rwMerge r (privOf s d.val a) v)

/-- A word of a work ring: nothing at the basic level (R285), words 0 to 3 only while EN is 0. -/
def ringWrite (d : Fin 4) (k : Fin 64) (w v : Nat) (r : RegInfo) : Act s₀ Unit := do
  let s ← st
  let a := ringW d.val k.val w
  if basicLevel s d.val then skip
  else if w = 4 then ringWord4 d k v
  else if w = 5 then
    if !ringEn s d.val k.val then privSet d.val a v
    else if sub32 v (ringDone s d.val k.val) ≤ workSize s d.val k.val then do
      privSet d.val a v
      fetchRing d k
    else hdmReject d.val
  else if w < 4 ∧ !ringEn s d.val k.val then privSet d.val a (rwMerge r (privOf s d.val a) v)
  else skip

/-- Registers of a domain's own window. -/
def winWrite (d : Fin 4) (a v : Nat) (r : RegInfo) : Act s₀ Unit := do
  let s ← st
  match inArr a (hdmW d.val 0x1000) 32 64 with
  | some (k, b) => ringWrite d ⟨k % 64, Nat.mod_lt _ (by decide)⟩ (b / 4) v r
  | none =>
    if a = hdmW d.val 0x60 then stepSet d.val v
    else privSet d.val a (rwMerge r (privOf s d.val a) v)

/-- Registers the owner of a cell writes: VEC_FLAGS (W1C) and CEL_SPARSE_THR. -/
def ownerWrite (d c a v : Nat) (r : RegInfo) : Act s₀ Unit := do
  let s ← st
  if a = celW c 0x100 then regSet a (regOf s a &&& (0xFFFFFFFF - v))
  else do
    rwReport d a r v
    regSet a (rwMerge r (regOf s a) v)

/-- ESC_CMD (R274); the other words of an escapement are RO. Outside the domain's range every write is counted. -/
def escWrite (d : Fin 4) (a v : Nat) : Act s₀ Unit := do
  let s ← st
  let i := (a - ESC) / 16
  if !escIn s d.val i then if basicLevel s d.val then skip else hdmReject d.val
  else if a % 16 ≠ 12 then skip
  else escCmd d i (match fld v 16 2 with
    | 0 => escCmdDo i (fld v 0 16) (.add (fld v 18 14))
    | 1 => escCmdDo i (fld v 0 16) (.arm (fld v 18 14))
    | 2 => escCmdDo i (fld v 0 16) .reset
    | _ => bump GLB_ESC_DISCARD)

/-- A whole-dword write of BAR0 by a domain: of a shared register only HD0's counts (R7). -/
def barWrite (d : Fin 4) (a v : Nat) : Act s₀ Unit := do
  let s ← st
  match regInfo a with
  | none => bump GLB_BAD_ACCESS
  | some r =>
    match r.mark with
    | .esc => escWrite d a v
    | .shared =>
      if d.val ≠ 0 then skip
      else do
        rwlPart a v
        sharedWrite a v r
    | .priv => privWrite d a v r
    | .win k => if k = d.val then winWrite d a v r else skip
    | .owner c => if cellOwner s c = d.val then ownerWrite d.val c a v r else skip

/-- A command of a host whose domain is present. -/
def fromHost (d : Fin 4) (k : Act s₀ Unit) : Act s₀ Unit := do
  let s ← st
  if s.hosts.present.getLsbD d.val then k else skip

/-! ### Commands -/

/-- RWL_WRITE: of a register that has RWL fields. -/
def execRwlWrite (d : Fin 4) (a : BitVec 26) (v : Word) (s : State) : Host.Outcome State Fault Refusal :=
  perform s <| fromHost d (if (rwlFlds a.toNat).isEmpty then skip else barWrite d a.toNat v.toNat)

/-- REGISTER_WRITE. -/
def execRegisterWrite (d : Fin 4) (a : BitVec 26) (v : Word) (s : State) : Host.Outcome State Fault Refusal :=
  perform s <| fromHost d (barWrite d a.toNat v.toNat)

/-- CLB_VIEW.SHADOW of a domain (R302). -/
def shadowView (s : State) (d : Nat) : Bool := bit (privOf s d (CLB + 0x4C)) 0

/-- A BAR0 access the rules discard: a write that names no register or does not cover its dword; a read that names no
register, judged in the shadow view by the address it shadows. -/
def badAccess (s : State) (d a : Nat) (write : Bool) (be : BitVec 4) : Bool :=
  if write then (regInfo a).isNone || be != 15
  else if shadowView s d then decide (a < 0x8000) || (regInfo (a - 0x8000)).isNone
  else (regInfo a).isNone

/-- BAR0_BAD_ACCESS (R338, R339, R302). -/
def execBar0BadAccess (d : Fin 4) (a : BitVec 26) (write : Bool) (be : BitVec 4) (s : State) : Host.Outcome State Fault Refusal :=
  perform s <| fromHost d do
    let s ← st
    if badAccess s d.val a.toNat write be then bump GLB_BAD_ACCESS else skip

/-- QP_CONTEXT_APPLY. -/
def execQpContextApply (d : Fin 4) (q : Fin 4096) (v : Word) (s : State) : Host.Outcome State Fault Refusal :=
  perform s <| steward d (qpApply q.val v.toNat)

/-- RTE_FAULT_CLEAR. -/
def execRteFaultClear (d : Fin 4) (v : Word) (s : State) : Host.Outcome State Fault Refusal :=
  perform s <| steward d (faultClear v.toNat)

end Sys2Proof.Machine
end

