-- ==== Sys2Proof/Machine/Aperture.lean ====
section
/-! DEFINITION. The BAR2 aperture (R189, R190), the patrol scrub (R184, R185) and the sweep of static RAM (R322). -/

namespace Sys2Proof.Machine

variable {s₀ : State}

/-! ### BAR2 -/

/-- The local offset a BAR2 access names (R190). -/
def apOffset (s : State) (d off : Nat) : Nat := fld (privOf s d (MEM + 0x3040)) 0 10 * 2 ^ 30 + off

/-- The access lies inside the aperture, the capacity and the domain's quota. -/
def apInside (s : State) (d off n : Nat) : Bool :=
  decide (off + n ≤ 2 ^ 36 ∧ apOffset s d off + n ≤ hbmCap s) && inHbmQuota s d (apOffset s d off) n

/-- The part of a read that one sector holds: corrected, or all ones (R189). The content of a channel under reset or
offline is open, and the read changes nothing (R8). -/
def apSector (lo hi sec : Nat) : Act s₀ (List Byte) := do
  let s ← st
  let a := max lo (sec * 64)
  let n := min hi (sec * 64 + 64) - a
  if chDown s (sec * 64) 64 then
    pure ((List.range n).map fun i => Config.freeByte s.nonce (a + i))
  else match secState s sec with
    | 0 => do
      secOd sec
      pure (seen s none 0 s.hbm a n)
    | 1 => do
      secCe sec
      pure (seen s none 0 s.hbm a n)
    | _ => do
      secUe sec
      pure (List.replicate n 0xFF)

/-- BAR2_READ. -/
def execBar2Read (d : Fin 4) (off : BitVec 36) (n : Nat) (s : State) : Host.Outcome State Fault Refusal :=
  perform s <| fromHost d do
    let s ← st
    let o := apOffset s d.val off.toNat
    if apInside s d.val off.toNat n then do
      let l ← mapA (secList o n) (apSector o (o + n))
      let s ← st
      emit (.outs { s.outs with rdata := l.flatten })
    else do
      privBump d.val (MEM + 0x3044)
      emit (.outs { s.outs with rdata := List.replicate n 0xFF })

/-- BAR2_WRITE: each sector is written as one unit; a part of a bad sector is not written (R183). -/
def execBar2Write (d : Fin 4) (off : BitVec 36) (b : List Byte) (s : State) : Host.Outcome State Fault Refusal :=
  perform s <| fromHost d do
    let s ← st
    if apInside s d.val off.toNat b.length then do
      let _ ← hbmWrite (apOffset s d.val off.toNat) b none
      noteFill (apOffset s d.val off.toNat) b.length
    else privBump d.val (MEM + 0x3044)

/-! ### Patrol scrub -/

def sortNat (l : List Nat) : List Nat := (l.foldl (fun m x => mapSet m x ()) ([] : List (Nat × Unit))).map Prod.fst

/-- The sectors of live channels that do not read clean, or read so by a correction on-die, in ascending q (R184). -/
def scrubSecs (s : State) : List Nat :=
  let l := if s.ecc.chPoison = 0 then s.ecc.flips ++ s.ecc.sym.map Prod.fst ++ s.ecc.od else List.range (hbmCap s / 64)
  ((sortNat (l.map fun x => (hbmPlace s (64 * x)).q * 2 ^ 34 + x)).map (· % 2 ^ 34)).filter fun x =>
    decide (x * 64 < hbmCap s) && (secState s x != 0 || s.ecc.od.contains x) && !(chDown s (x * 64) 64)

/-- MEM_CH_CE of every channel. -/
def chCeAll (s : State) : List (Nat × Nat) := (List.range 256).map fun c => (c, regOf s (memW (c / 32) (0x100 + 4 * (c % 32))))

/-- A channel's MEM_CH_CE grew by more than 65,536 in the pass (R185). -/
def passAlert (s : State) : Bool :=
  (chCeAll s).any fun x => decide (65536 < sub32 x.2 ((mapGet s.crown.passCe x.1).getD 0))

/-- PATROL_SCRUB: one pass, INTERVAL_H hours after the one before it. -/
def execPatrolScrub (s : State) : Host.Outcome State Fault Refusal := perform s do
  let s ← st
  if !bit (regOf s (MEM + 0x3000)) 0 ∨ hbmCap s = 0 ∨ !due s s.crown.passTs (3600000000000 * fld (regOf s (MEM + 0x3004)) 0 8) then skip
  else do
    each (scrubSecs s) fun x => do
      let s ← st
      secOd x
      match secState s x with
      | 0 => skip
      | 1 => secCe x
      | _ => do
        secUe x
        secUeLog x none
    bump (MEM + 0x3058)
    let s ← st
    modCrown fun c => { c with passTs := s.ts, passCe := chCeAll s, ceAlert := c.ceAlert || passAlert s }

/-! ### Static RAM sweep -/

/-- What an uncorrectable word found by the sweep does at once (Table 18.2). The n-th word of arrays 2, 4 and 8 is taken as
the n-th entry they hold. -/
def sramOutcome (x : SramErr) : Act s₀ Unit := do
  let s ← st
  match x.array with
  | 0 =>
    match (cellAt s (x.word / 1048576)).holder with
    | some (r, 0) => failOp r DATA_FAULT
    | _ => skip
  | 2 => modSac fun y => { y with ents := (List.range y.ents.length).zip y.ents |>.map fun e => if e.1 = x.word then { e.2 with bad := true } else e.2 }
  | 3 => uitDrop
  | 4 =>
    match s.tbl.ov[x.word]? with
    | some e =>
      if e.kind = 2 ∨ e.kind = 3 then modTbl fun t => { t with ovBad := (e.table, e.row) :: t.ovBad }
      else modTbl fun t => { t with ov := t.ov.filter fun y => y != e }
    | none => skip
  | 5 => emit (.esc (x.word / 2) (.state false))
  | 6 =>
    match tdGet s (x.word / 8) with
    | some d => tdSet (x.word / 8) { d with bad := true }
    | none => skip
  | 8 => modCol fun c => { c with bk := (List.range c.bk.length).zip c.bk |>.map fun b => if b.1 = x.word then { b.2 with fault := true } else b.2 }
  | 11 => do
    warmReset
    logFault 10 11 5 11 0 none 0 x.word
  | _ => skip

/-- SRAM_SCRUB: every array but the link buffers and the engine queues, once per 16 ms (R322). -/
def execSramScrub (s : State) : Host.Outcome State Fault Refusal := perform s do
  let s ← st
  if !bit (regOf s FLT) 0 ∨ !due s s.crown.sramTs 16000000 then skip
  else do
    modCrown fun c => { c with sramTs := s.ts }
    each (s.sram.filter fun x => x.array != 7 && x.array != 10) fun x =>
      if x.ue then do
        sramUe x 0 none
        sramOutcome x
      else sramCe x

end Sys2Proof.Machine
end

