-- ==== Sys2Proof/Machine/Transit.lean ====
section
/-! DEFINITION. ROUTE_PACKET (R214, R215, R218 to R220, R228): packets that pass this chip, are injected, or leave a receive buffer for
their handler here. -/

namespace Sys2Proof.Machine

variable {s₀ : State}

/-- The packet at place n of what waits to be sent is gone from there. -/
def txDrop (n : Nat) : Act s₀ Unit := do
  let s ← st
  emit (.outs { s.outs with tx := s.outs.tx.take n ++ s.outs.tx.drop (n + 1) })

/-- A packet for this chip: unicast to it, or a multicast's copy. -/
def forHere (s : State) (pk : Packet) : Bool := pk.hdr.mcast != 0 || pk.hdr.dst.toNat == myCoord s

/-- A frame lost to a flit CRC failure inside the chip (R215, R229): counted, and a FRAME record flooded, which names it where its
header flits passed; on a COL VC a GROUP record too. -/
def flitLost (pk : Packet) (e : FlitErr) : Act s₀ Unit := do
  let s ← st
  bump (RTE + 0x204)
  let g := if pk.hdr.cls = 4 then vcGroup pk.hdr.vc.toNat else 0
  fltRaise 2 (myCoord s) 0 g (if e.headOk then hdrWord0 pk.hdr else 0) (if e.headOk then hdrWord3 pk.hdr else 0)
  if pk.hdr.cls = 4 then fltGroup g else skip

/-- What is sent on of such a frame: the stomp code, and POISON where the header flit had not left (R215). -/
def stomped (pk : Packet) (e : FlitErr) : Packet :=
  { pk with
    wire := { pk.wire with stomp := true },
    hdr := if e.early then { pk.hdr with flags := pk.hdr.flags ||| 4 } else pk.hdr }

/-- A packet on its way through: sent on, or not yet. -/
def goOn (p : Nat) (pk : Packet) : Act s₀ Bool := do
  let s ← st
  let src := some (bufOf p pk)
  match if pk.hdr.mcast ≠ 0 then lineRoute s p pk
        else if forHere s pk then none else some (routeOf s pk.hdr (cameBy s p pk)) with
  | some r => goTo r src pk
  | none => do
    freeFl src (flitsOf pk.hdr)
    pure true

/-- A packet that arrived to pass this chip: discarded in a chip under reset (R316), lost where its flits fail, else sent on or kept in
its VC's receive buffer, behind those that came before it. -/
def routeArrived (p : Nat) (pk : Packet) (err : Option FlitErr) : Act s₀ Unit := linkGate p pk do
  let s ← st
  let src := some (bufOf p pk)
  let behind := heldFl s p pk.wire.half pk.hdr.vc.toNat != 0
  if !isReady s then do
    bump RST_PASS_DISCARD
    freeFl src (flitsOf pk.hdr)
  else match err with
    | some e => do
      flitLost pk e
      if behind then freeFl src (flitsOf pk.hdr)
      else if ← goOn p (stomped pk e) then skip
      else freeFl src (flitsOf pk.hdr)
    | none =>
      if behind then bufKeep p pk
      else if ← goOn p pk then skip
      else bufKeep p pk

/-- A packet to be injected is sourced now: under the injection bank (R225). -/
def sourced (s : State) (pk : Packet) : Packet :=
  { pk with hdr := { pk.hdr with epoch := BitVec.ofNat 1 (fld (cfgOf s (RTE + 8)) 0 1) } }

/-- A waiting packet that is not for this chip is injected or goes on; one whose bank is not live any more is dropped (R225). -/
def routeWaiting (n : Nat) : Act s₀ Unit := do
  let s ← st
  match s.outs.tx[n]? with
  | some ⟨.fabric, .packet pk, _⟩ => do
    let pk := sourced s pk
    if pk.hdr.mcast ≠ 0 then do
      let ds := lineDirs s (pk.hdr.mcast.toNat - 1)
      if ds.all fun d => escapeVia s pk.hdr d.1 none != .wait then do
        txDrop n
        each ds fun d => do
          let s ← st
          let _ ← goTo (escapeVia s pk.hdr d.1 none) none pk
          skip
      else skip
    else if ← goTo (routeOf s pk.hdr none) none pk then txDrop n
    else skip
  | some ⟨.hop d, .packet pk, _⟩ =>
    if ← goTo (escapeVia s pk.hdr d none) none (sourced s pk) then txDrop n else skip
  | some ⟨.transit p, .packet pk, _⟩ => do
    oldTouch
    if (s.outs.tx.take n).any (inBuffer p pk.wire.half pk.hdr.vc.toNat) then skip
    else if !bankLive s pk.hdr then do
      txDrop n
      freeFl (some (bufOf p pk)) (flitsOf pk.hdr)
      bump (RTE + 0x214)
    else if ← goOn p pk then txDrop n
    else skip
  | _ => skip

/-- The packet for this chip at place n, if it stands first in its VC's receive buffer and can be taken. -/
def heldHere (s : State) (n : Nat) : Option (Nat × Packet) :=
  match s.outs.tx[n]? with
  | some ⟨.transit p, .packet pk, _⟩ =>
    if forHere s pk && bankLive s pk.hdr && !(s.outs.tx.take n).any (inBuffer p pk.wire.half pk.hdr.vc.toNat) then some (p, pk)
    else none
  | _ => none

/-- The command a packet for this chip is. -/
def takeAs (p : Fin 8) (pk : Packet) (s : State) : Host.Outcome State Fault Refusal :=
  match pk.hdr.cls.toNat, pk.hdr.op.toNat with
  | 0, 0x10 => execWrite p pk s
  | 0, 0x11 => execRead p pk s
  | 0, 0x12 => execSampleRequest p pk s
  | 0, 0x13 => execPoolRequest p pk s
  | 0, 0x14 => execContrib p pk s
  | 0, 0x15 => execMig p pk s
  | 0, 0x16 => execRowUpd p pk s
  | 1, 0x90 => execWriteAck p pk s
  | 1, 0x91 => execReadData p pk s
  | 1, 0x92 => execSampleRsp p pk s
  | 1, 0x93 => execPoolRsp p pk s
  | 1, 0x94 => execContribAck p pk s
  | 1, 0x95 => execMigAck p pk s
  | 1, 0x96 => execRedirect p pk s
  | 2, _ => execFwd p pk s
  | 3, 0xC0 => execFault p pk s
  | 3, 0xC1 => execLoad p pk s
  | 3, 0xC2 => execPublish p pk s
  | 4, 0xE0 => execStitch p pk s
  | 4, 0xE1 => execGrant p pk s
  | 4, 0xE2 => execColGather p pk s
  | 4, 0xE3 => execVerdict p pk s
  | _, _ => .next s

/-- A packet leaves the receive buffer for its handler (R219, R220). -/
def takeHeld (n p : Nat) (pk : Packet) : Act s₀ Unit := do
  oldTouch
  txDrop n
  passOn p pk

/-- ROUTE_PACKET (R218, R219, R228): a packet of this chip's own that arrives is the command its OP names; one that waited here is taken
once it can be. -/
def execRoutePacket (src : RouteSrc) (s : State) : Host.Outcome State Fault Refusal :=
  match src with
  | .arrived p pk err =>
    if err.isNone && forHere s pk then takeAs ⟨p.val, by omega⟩ pk s else perform s (routeArrived p.val pk err)
  | .injected n =>
    match heldHere s n with
    | some (p, pk) =>
      if copyWaits s p pk then .next s
      else match perform s (takeHeld n p pk) with
        | .next t => takeAs ⟨p % 8, Nat.mod_lt _ (by decide)⟩ pk t
        | o => o
    | none => perform s (routeWaiting n)

end Sys2Proof.Machine
end

