-- ==== Sys2Proof/Machine/Vector.lean ====
section
/-! DEFINITION. The vector engine (R120 to R137): element-wise arithmetic, conversion, approximations,
reductions and accumulators, and bench access. -/

namespace Sys2Proof.Machine

variable {s₀ : State}

/-! ### Element-wise operations (Table 6.1) -/

/-- The arithmetic formats of floating point, and the one their results have: 8-bit sources widen to bf16. -/
def arithFmt (f : Fmt) : Option Fmt :=
  match f with
  | .fp32 => some .fp32 | .bf16 => some .bf16 | .fp16 => some .fp16
  | .e4m3 => some .bf16 | .e5m2 => some .bf16 | _ => none

/-- Formats of Table 6.1 that a vector element may have. -/
def vecFmt (f : Fmt) : Bool := !subByte f

/-- R125: an integer result, saturated or wrapped. -/
def intRes (n : Nat) (sat : Bool) (i : Int) : Nat × VFlags :=
  if sat then let t := satInt n i; (toCode n t.1, VFlags.satIf t.2) else (toCode n i, VFlags.none)

/-- R126: shifts and rotates of an n-bit code by `amt`. -/
def shiftRes (op : VOp) (n c amt : Nat) : Nat :=
  let c := c % 2 ^ n
  match op with
  | .shl => if n ≤ amt then 0 else (c <<< amt) % 2 ^ n
  | .shr => if n ≤ amt then 0 else c >>> amt
  | .sar => toCode n (sInt n c / 2 ^ (min amt n))
  | .rotl => let k := amt % n; ((c <<< k) ||| (c >>> (n - k))) % 2 ^ n
  | _ => let k := amt % n; ((c >>> k) ||| (c <<< (n - k))) % 2 ^ n

def cmpRes (c : CmpOp) (a b : FV) : Bool :=
  match c with
  | .eq => a.eqv b | .ne => !a.eqv b | .lt => a.lt b | .le => a.le b | .gt => b.lt a | .ge => b.le a

/-- What kind of operation an instruction names, and the formats it takes. -/
inductive VKind where
  | float | integer | shift | logic | compare | select | mask | wide | clear
deriving DecidableEq, Repr

def vKind : VOp → VKind
  | .fadd => .float | .fsub => .float | .fmul => .float | .fma => .float | .fneg => .float | .fabs => .float
  | .fmin => .float | .fmax => .float | .fmaW => .wide
  | .iadd => .integer | .isub => .integer | .imul => .integer | .imin => .integer | .imax => .integer
  | .iabs => .integer
  | .shl => .shift | .shr => .shift | .sar => .shift | .rotl => .shift | .rotr => .shift
  | .and => .logic | .or => .logic | .xor => .logic | .not => .logic | .andn => .logic
  | .cmp _ _ => .compare | .select _ => .select
  | .mand _ _ _ => .mask | .mor _ _ _ => .mask | .mxor _ _ _ => .mask | .mnot _ _ => .mask | .mcount _ => .mask
  | .clearFlags => .clear | .readFlags => .clear

/-- An instruction that Table 6.1 and R122 know. -/
def vecOk (x : VecInstr) : Bool :=
  match vKind x.op with
  | .float => (arithFmt x.fmt).isSome && (!x.pair || x.fmt == .fp32)
  | .wide => x.fmt == .bf16
  | .integer => FmtOf.isInt x.fmt && (!x.pair || !(x.op == .imul || x.op == .iabs))
  | .shift => FmtOf.isInt x.fmt
  | .logic => vecFmt x.fmt && (!x.pair || FmtOf.isInt x.fmt)
  | .compare => vecFmt x.fmt && (!x.pair || FmtOf.isInt x.fmt)
  | .select => vecFmt x.fmt && (!x.pair || x.fmt == .fp32)
  | .mask => !x.pair
  | .clear => !x.pair

/-- The registers an instruction names in pair form. -/
def pairRegs (x : VecInstr) : List (Fin 64) :=
  let amt := if x.amount.isNone then [x.b] else []
  if x.op == .fmaW then [x.d, x.c]
  else if !x.pair then []
  else match x.op with
    | .cmp _ _ => [x.a, x.b]
    | .not => [x.d, x.a]
    | .fneg => [x.d, x.a]
    | .fabs => [x.d, x.a]
    | .fma => [x.d, x.a, x.b, x.c]
    | .shl => [x.d, x.a] ++ amt
    | .shr => [x.d, x.a] ++ amt
    | .sar => [x.d, x.a] ++ amt
    | .rotl => [x.d, x.a] ++ amt
    | .rotr => [x.d, x.a] ++ amt
    | _ => [x.d, x.a, x.b]

/-- The first odd one of registers named in pair form (cause 0x12). -/
def oddOf (l : List (Fin 64)) : Option Nat := (l.find? fun r => r.val % 2 == 1).map Fin.val

/-- An odd register named in pair form. -/
def pairOdd (x : VecInstr) : Bool := (oddOf (pairRegs x)).isSome

/-- One element of an arithmetic, shift or logic operation: its code and flags. `ca`, `cb`, `cc` are
the source codes. -/
def elemRes (x : VecInstr) (ca cb cc : Nat) : Nat × VFlags :=
  let n := FmtOf.bits x.fmt
  let va := codeVal x.fmt ca
  let vb := codeVal x.fmt cb
  let g := ((arithFmt x.fmt).bind FmtOf.spec).getD fp32
  let ia := sInt n ca
  let ib := sInt n cb
  let amt := match x.amount with | some w => w.toNat | none => cb % 256
  match x.op with
  | .fadd => fpRes g [va, vb] (va.add vb)
  | .fsub => fpRes g [va, vb] (va.sub vb)
  | .fmul => fpRes g [va, vb] (va.mul vb)
  | .fma => fpRes g [va, vb, codeVal x.fmt cc] ((va.mul vb).add (codeVal x.fmt cc))
  | .fmaW => fpRes fp32 [va, vb, v32 cc] ((va.mul vb).add (v32 cc))
  | .fneg => fpRes g [va] va.neg
  | .fabs => fpRes g [va] va.abs
  | .fmin => fpRes g [va, vb] (va.min vb)
  | .fmax => fpRes g [va, vb] (va.max vb)
  | .iadd => intRes n x.sat (ia + ib)
  | .isub => intRes n x.sat (ia - ib)
  | .imul => intRes n x.sat (ia * ib)
  | .imin => (toCode n (min ia ib), VFlags.none)
  | .imax => (toCode n (max ia ib), VFlags.none)
  | .iabs => intRes n x.sat ia.natAbs
  | .and => (ca &&& cb, VFlags.none)
  | .or => (ca ||| cb, VFlags.none)
  | .xor => (ca ^^^ cb, VFlags.none)
  | .not => (2 ^ n - 1 - ca % 2 ^ n, VFlags.none)
  | .andn => (ca &&& (2 ^ n - 1 - cb % 2 ^ n), VFlags.none)
  | op => (shiftRes op n ca amt, VFlags.none)

/-- Source and destination widths of an element-wise operation, and the number of its elements. -/
def vecShape (x : VecInstr) : Nat × Nat × Nat :=
  let w := FmtOf.bytes x.fmt
  if x.op == .fmaW then (2, 4, 2048)
  else if vKind x.op == .float then
    let d := FmtOf.bytes ((arithFmt x.fmt).getD .fp32)
    (w, d, (if x.pair then 2 else 1) * vregBytes / d)
  else (w, w, (if x.pair then 2 else 1) * vregBytes / w)

/-- Arithmetic, shift and logic over registers. -/
def vecElems (c : Nat) (x : VecInstr) : Act s₀ Unit := do
  let s ← st
  let (w, wd, n) := vecShape x
  let wide := x.op == .fmaW
  let pd := wide || x.pair
  let m := maskGet s c x.mask.val
  let as := elemsOf w (vregGet s c x.a.val x.pair)
  let bs := elemsOf w (vregGet s c x.b.val x.pair)
  let cs := elemsOf (if wide then wd else w) (vregGet s c x.c.val pd)
  let f := if wide then .fp32 else if vKind x.op == .float then (arithFmt x.fmt).getD .fp32 else x.fmt
  let res := (List.range n).map fun i =>
    if activeAt m wd i then some (elemRes x (as.getD i 0) (bs.getD i 0) (cs.getD i 0)) else none
  vregLay c x.d.val wd pd m x.zero (res.map fun r => r.map fun r => (r.1, rndMark f false r))
  flagsRaise c (res.filterMap fun r => r.map Prod.snd)

/-- The bits of a mask register that a list of (bit, value) sets. -/
def maskWith (old : BitVec 4096) (l : List (Nat × Bool)) : BitVec 4096 :=
  let t := l.foldl (fun (a : Nat × Nat) x => (a.1 ||| 2 ^ x.1, if x.2 then a.2 ||| 2 ^ x.1 else a.2)) (0, 0)
  (old &&& ~~~ BitVec.ofNat 4096 t.1) ||| BitVec.ofNat 4096 t.2

/-- Comparison into a mask register: the governing bit of each element. In pair form the two halves
share a bit; where they differ it is a free value (log entry 4). -/
def vecCompare (c : Nat) (x : VecInstr) (op : CmpOp) (md : Nat) : Act s₀ Unit := do
  let s ← st
  let w := FmtOf.bytes x.fmt
  let m := maskGet s c x.mask.val
  let as := elemsOf w (vregGet s c x.a.val x.pair)
  let bs := elemsOf w (vregGet s c x.b.val x.pair)
  let n := vregBytes / w
  let r (i : Nat) : Bool := cmpRes op (codeVal x.fmt (as.getD i 0)) (codeVal x.fmt (bs.getD i 0))
  maskPut c md (maskWith (maskGet s c md) ((List.range n).filterMap fun i =>
    if activeAt m w i then
      some (w * i, if x.pair && r i != r (i + n) then (Config.freeWord s.nonce i).getLsbD 0 else r i)
    else if x.zero then some (w * i, false) else none))
  emit .nonce

/-- Selection by mask, element by element; an element moves with what the loupe keeps of it. -/
def vecSelect (c : Nat) (x : VecInstr) (ms : Nat) : Act s₀ Unit := do
  let s ← st
  let w := FmtOf.bytes x.fmt
  let m := maskGet s c x.mask.val
  let k := maskGet s c ms
  let as := elemsOf w (vregGet s c x.a.val x.pair)
  let bs := elemsOf w (vregGet s c x.b.val x.pair)
  vregLay c x.d.val w x.pair m x.zero ((List.range ((if x.pair then 2 else 1) * vregBytes / w)).map fun i =>
    if activeAt m w i then
      some (if activeAt k w i then (as.getD i 0, rndAt s c x.a.val w i) else (bs.getD i 0, rndAt s c x.b.val w i))
    else none)

/-- A mask operation under the named mask, bit by bit. -/
def vecMask (c : Nat) (x : VecInstr) (md : Nat) (v : BitVec 4096) : Act s₀ Unit := do
  let s ← st
  let m := maskGet s c x.mask.val
  maskPut c md ((v &&& m) ||| (if x.zero then 0 else maskGet s c md &&& ~~~ m))

def popCount (v : BitVec 4096) : Nat := (List.range 4096).countP fun i => v.getLsbD i

/-- VECTOR_ARITHMETIC (R122 to R126). -/
def execVectorArithmetic (a : CellAt) (x : VecInstr) (s : State) : Host.Outcome State Fault Refusal :=
  perform s (onCell a fun o => do
    let s ← st
    let c := a.cell.val
    if !vecOk x then cellFault a o 2
    else if pairOdd x then vecFault0 a o 0x12 ((oddOf (pairRegs x)).getD 0)
    else if ← residueChk c 2 o x.misses then do
      match x.op with
      | .cmp op md => vecCompare c x op md.val
      | .select ms => vecSelect c x ms.val
      | .mand md p q => vecMask c x md.val (maskGet s c p.val &&& maskGet s c q.val)
      | .mor md p q => vecMask c x md.val (maskGet s c p.val ||| maskGet s c q.val)
      | .mxor md p q => vecMask c x md.val (maskGet s c p.val ^^^ maskGet s c q.val)
      | .mnot md p => vecMask c x md.val (~~~ maskGet s c p.val)
      | .mcount p => scalarPut c (popCount (maskGet s c p.val &&& maskGet s c x.mask.val))
      | .clearFlags => regSet (celW c 0x100) 0
      | .readFlags => scalarPut c (regOf s (celW c 0x100))
      | _ => vecElems c x
      vecRetire c
    else skip)

/-! ### Conversion (R124, R127) -/

def convFmt (f : Fmt) : Bool := !subByte f && f != .int64

def mxFmt (f : Fmt) : Bool := narrow f

/-- A value brought into a format: RNE, or RTZ to integers; saturating as R124 says. -/
def convVal (dst : Fmt) (rtz satfin : Bool) (v : FV) (fromFp : Bool) : Nat × VFlags :=
  match FmtOf.spec dst with
  | some g =>
    let r := g.round v (satfin && dst == .e5m2)
    (r.code, VFlags.ofRnd v [v] r)
  | none =>
    let n := FmtOf.bits dst
    match v with
    | .nan => (0, { VFlags.none with nv := true })
    | .inf neg => (toCode n (if neg then -2 ^ (n - 1) else 2 ^ (n - 1) - 1), VFlags.satIf true)
    | _ =>
      let (i, inx) := v.toInt rtz
      let t := satInt n i
      (toCode n t.1, { VFlags.satIf t.2 with inx := inx && !t.2 && fromFp })

/-- A conversion's source is a pair where 2,048 of its elements take one. -/
def convSrcPair (x : ConvInstr) : Bool := x.pair && x.mx == .plain && FmtOf.bytes x.src == 4

/-- Elements of a plain conversion. -/
def convCount (x : ConvInstr) : Nat :=
  if x.pair then 2 * vregBytes / 4 else vregBytes / max (FmtOf.bytes x.src) (FmtOf.bytes x.dst)

/-- Element codes of a plain conversion; where the widths differ the destination's governs (log entry 130). -/
def convPlain (c : Nat) (x : ConvInstr) : Act s₀ Unit := do
  let s ← st
  let ws := FmtOf.bytes x.src
  let wd := FmtOf.bytes x.dst
  let m := maskGet s c x.mask.val
  let as := elemsOf ws (vregGet s c x.a.val (convSrcPair x))
  let res := (List.range (convCount x)).map fun i =>
    if activeAt m wd i then
      some (convVal x.dst x.rtz x.satfin (codeVal x.src (as.getD i 0)) (!FmtOf.isInt x.src))
    else none
  vregLay c x.d.val wd x.pair m x.zero (res.map fun r => r.map fun r => (r.1, rndMark x.dst true r))
  flagsRaise c (res.filterMap fun r => r.map Prod.snd)

/-- A packed element's governing bit: the byte in which it begins. -/
def packedActive (mask : BitVec 4096) (f : Fmt) (i : Nat) : Bool := mask.getLsbD (i * FmtOf.bits f / 8)

/-- MX packing: runs of 32 source elements share a scale, written to a byte of the scale register. -/
def convPack (c : Nat) (x : ConvInstr) : Act s₀ Unit := do
  let s ← st
  let ws := FmtOf.bytes x.src
  let m := maskGet s c x.mask.val
  let vs := (elemsOf ws (vregGet s c x.a.val false)).map (codeVal x.src)
  let old := vregGet s c x.d.val false
  let bl := (chunks 32 vs).map (mxBlock x.dst 0)
  let es := (bl.flatMap Prod.snd).map fun e => e.2
  let idx := List.range es.length
  let new := (idx.zip es).map fun e =>
    if packedActive m x.dst e.1 then e.2.code
    else if x.zero then 0 else packedAt x.dst old e.1
  vregPut c x.d.val (packAll x.dst new ++ old.drop (packBytes x.dst new.length)) (if FmtOf.bits x.dst ≠ 8 then [] else
    (idx.zip (bl.flatMap Prod.snd)).filterMap fun e =>
      if packedActive m x.dst e.1 then
        (if e.2.2.ofl then some (e.1, 2) else if e.2.2.code % 128 = 0 && !e.2.1.isZero then some (e.1, 1) else none)
      else none)
  vregPut c x.sreg.val ((bl.map fun b => BitVec.ofNat 8 b.1) ++ (vregGet s c x.sreg.val false).drop bl.length)
  flagsRaise c ((idx.zip es).filterMap fun e =>
    if packedActive m x.dst e.1 then some { VFlags.none with ofl := e.2.ofl, ufl := e.2.ufl, inx := e.2.inx } else none)

/-- MX unpacking under the scale register. -/
def convUnpack (c : Nat) (x : ConvInstr) : Act s₀ Unit := do
  let s ← st
  let wd := FmtOf.bytes x.dst
  let m := maskGet s c x.mask.val
  let b := vregGet s c x.a.val false
  let sc := vregGet s c x.sreg.val false
  let n := min ((if x.pair then 2 else 1) * vregBytes / wd) (vregBytes * 8 / FmtOf.bits x.src)
  let res := (List.range n).map fun i =>
    if activeAt m wd i then
      some (convVal x.dst x.rtz x.satfin (mxVal x.src (leAt sc (i / 32) 1) (packedAt x.src b i)) true)
    else none
  vregLay c x.d.val wd x.pair m x.zero (res.map fun r => r.map fun r => (r.1, rndMark x.dst true r))
  flagsRaise c (res.filterMap fun r => r.map Prod.snd)

/-- A conversion that Table 6.1 and R122 know. -/
def convOk (x : ConvInstr) : Bool :=
  let fp := fun f => convFmt f && !FmtOf.isInt f
  (match x.mx with
    | .plain => convFmt x.src && convFmt x.dst
    | .pack => fp x.src && mxFmt x.dst
    | .unpack => mxFmt x.src && fp x.dst) && (!x.pair || x.dst == .fp32)

/-- The registers a conversion names in pair form. -/
def convPairs (x : ConvInstr) : List (Fin 64) :=
  if !x.pair then [] else if convSrcPair x then [x.d, x.a] else [x.d]

def execConversion (a : CellAt) (x : ConvInstr) (s : State) : Host.Outcome State Fault Refusal :=
  perform s (onCell a fun o =>
    if x.stoch then vecFault0 a o 0x13 x.d.val
    else if !convOk x then cellFault a o 2
    else match oddOf (convPairs x) with
      | some r => vecFault0 a o 0x12 r
      | none => do
        match x.mx with
        | .plain => convPlain a.cell.val x
        | .pack => convPack a.cell.val x
        | .unpack => convUnpack a.cell.val x
        vecRetire a.cell.val)

/-! ### Transcendental functions (R128, Table 6.2) -/

def tranOf (f : TransFn) (x : Nat) : Tran :=
  match f with
  | .exp2 => tExp2 x | .log2 => tLog2 x | .recip => tRecip x | .rsqrt => tRsqrt x | .tanh => tTanh x

/-- The exact result of a function is no fp32 value and no special value of Table 6.2 (log entry 5). -/
def tranInexact (f : TransFn) (v : FV) : Bool :=
  match v with
  | .fin n m e =>
    if m = 0 then false
    else
      let pow2 := decide (m = 2 ^ (bitLen m - 1))
      let top := (bitLen m : Int) - 1 + e
      match f with
      | .exp2 =>
        let t := v.toInt true
        t.2 || decide (t.1 < -149) || decide (127 < t.1)
      | .log2 => !n && !pow2
      | .recip => !pow2 || decide (top < -127)
      | .rsqrt => !n && !(pow2 && top % 2 == 0)
      | .tanh => !(FV.lt v.abs (.fin false 1 (-12))) && FV.lt v.abs (.fin false 10 0)
  | _ => false

/-- One element: the fp32 function on the widened input, rounded once to the format. -/
def tranRes (fn : TransFn) (f : Fmt) (c : Nat) : Nat × VFlags :=
  let v := codeVal f c
  let t := tranOf fn (r32 v)
  let inx := tranInexact fn v
  let r := ((FmtOf.spec f).getD fp32).round (v32 t.code) false
  let tiny := inx && decide (t.code % 2 ^ 31 < 2 ^ 23)
  (r.code, ⟨t.nv, t.dz, t.ofl || r.ofl, tiny || r.ufl, inx || r.inx, false⟩)

def execTranscendental (a : CellAt) (x : TransInstr) (s : State) : Host.Outcome State Fault Refusal :=
  perform s (onCell a fun o =>
    if !(x.fmt == .fp32 || !x.pair && (x.fmt == .bf16 || x.fmt == .fp16)) then cellFault a o 2
    else match oddOf (if x.pair then [x.d, x.a] else []) with
      | some r => vecFault0 a o 0x12 r
      | none => do
        let s ← st
        let c := a.cell.val
        let w := FmtOf.bytes x.fmt
        let m := maskGet s c x.mask.val
        let as := elemsOf w (vregGet s c x.a.val x.pair)
        let res := (List.range ((if x.pair then 2 else 1) * vregBytes / w)).map fun i =>
          if activeAt m w i then some (tranRes x.fn x.fmt (as.getD i 0)) else none
        vregLay c x.d.val w x.pair m x.zero (res.map fun r => r.map fun r => (r.1, rndMark x.fmt false r))
        flagsRaise c (res.filterMap fun r => r.map Prod.snd)
        vecRetire c)

/-! ### Reductions (R130, R131) -/

/-- The result of a reduction over active element codes: its bytes, its scalar, and SAT. -/
structure RedRes where
  width : Nat
  code  : Nat
  fl    : VFlags
deriving DecidableEq, Repr

/-- Total of the active elements: exactly, as the accumulators hold it. -/
def redTotal (f : Fmt) (cs : List Nat) : XSum := sumXS (cs.map fun c => xsOf (codeVal f c))

def redRes (op : RedOp) (f : Fmt) (cs : List Nat) : RedRes :=
  let n := FmtOf.bits f
  let vs := cs.map (codeVal f)
  let g := ((arithFmt f).bind FmtOf.spec).getD fp32
  let wf := FmtOf.bytes ((arithFmt f).getD f)
  let is := cs.map (sInt n)
  let fold (d : Nat) (h : Nat → Nat → Nat) : RedRes := ⟨n / 8, cs.foldl h d, VFlags.none⟩
  match op with
  | .sum =>
    if FmtOf.isInt f then
      let k := if f = .int64 then 64 else 32
      let t := satInt k is.sum
      ⟨k / 8, toCode k t.1, VFlags.satIf t.2⟩
    else
      let v := sumFV vs
      let r := fp32.round v false
      ⟨4, r.code, VFlags.ofRnd v vs r⟩
  | .max =>
    if FmtOf.isInt f then ⟨n / 8, toCode n (is.foldl max (-2 ^ (n - 1))), VFlags.none⟩
    else ⟨wf, (g.round (vs.foldl FV.max (.inf true)) false).code, VFlags.none⟩
  | .min =>
    if FmtOf.isInt f then ⟨n / 8, toCode n (is.foldl min (2 ^ (n - 1) - 1)), VFlags.none⟩
    else ⟨wf, (g.round (vs.foldl FV.min (.inf false)) false).code, VFlags.none⟩
  | .and => fold (2 ^ n - 1) (· &&& ·)
  | .or => fold 0 (· ||| ·)
  | .xor => fold 0 (· ^^^ ·)

def accGet (s : State) (c i : Nat) : XSum := (cellAt s c).acc.getD i xsZero
def accPut (c i : Nat) (x : XSum) : Act s₀ Unit := do
  let s ← st
  let l := (cellAt s c).acc
  setCell c { cellAt s c with acc := l.take i ++ [x] ++ l.drop (i + 1) }

/-- Format of a reduction's result. -/
def redFmt (op : RedOp) (f : Fmt) : Fmt :=
  if FmtOf.isInt f then (if op = .sum && f ≠ .int64 then .int32 else f)
  else match op with
    | .sum => .fp32
    | .max => (arithFmt f).getD f
    | .min => (arithFmt f).getD f
    | _ => f

/-- A reduction that Table 6.1 and R122 know: only a sum is accumulated, and pair form is that of a floating-point
reduction with an fp32 destination (log entry 132). -/
def redOk (x : RedInstr) : Bool :=
  vecFmt x.fmt && (x.acc.isNone || x.op == .sum) &&
    (!x.pair || (x.acc.isNone && !FmtOf.isInt x.fmt && redFmt x.op x.fmt == .fp32 && [RedOp.sum, .max, .min].contains x.op))

def execReduction (a : CellAt) (x : RedInstr) (s : State) : Host.Outcome State Fault Refusal :=
  perform s (onCell a fun o => do
    let s ← st
    let c := a.cell.val
    let w := FmtOf.bytes x.fmt
    if !redOk x then cellFault a o 2
    else if x.pair && x.a.val % 2 == 1 then vecFault0 a o 0x12 x.a.val
    else if (x.acc.map Fin.val).getD 0 ≥ 4 then vecFault0 a o 0x14 x.d.val
    else if ← residueChk c 2 o x.misses then do
      let m := maskGet s c x.mask.val
      let es := elemsOf w (vregGet s c x.a.val x.pair)
      let cs := ((List.range es.length).zip es).filterMap fun e => if activeAt m w e.1 then some e.2 else none
      match x.acc with
      | some i => accPut c i.val (xsAdd (accGet s c i.val) (redTotal x.fmt cs))
      | none => do
        let r := redRes x.op x.fmt cs
        let mk := rndMark (redFmt x.op x.fmt) false (r.code, r.fl)
        vregPut c x.d.val (leBytes r.width r.code) (if mk = 0 then [] else [(0, mk)])
        scalarPut c r.code
        flagsRaise c [r.fl]
      vecRetire c
    else skip)

/-- An accumulator read as int32: the nearest integer, saturated. -/
def accInt (v : FV) : Int × VFlags :=
  match v with
  | .nan => (0, { VFlags.none with nv := true })
  | .inf n => (if n then -2 ^ 31 else 2 ^ 31 - 1, VFlags.satIf true)
  | _ =>
    let (i, inx) := v.toInt false
    let t := satInt 32 i
    (t.1, { VFlags.satIf t.2 with inx := inx && !t.2 })

/-- An accumulator as a read gives it: its code and flags. Infinities of both signs make a NaN that no NaN went into. -/
def accCode (asInt : Bool) (y : XSum) : Nat × VFlags :=
  let v := xsVal y
  if asInt then let t := accInt v; (toCode 32 t.1, t.2)
  else let r := fp32.round v false; (r.code, VFlags.ofRnd v (if y.nan then [v] else []) r)

/-- ACCUMULATOR_READ (R131): one rounding to fp32, or one saturation to int32, and perhaps a clear. The mask governs element 0
of the destination. -/
def execAccumulatorRead (a : CellAt) (x : AccReadInstr) (s : State) : Host.Outcome State Fault Refusal :=
  perform s (onCell a fun o => do
    let s ← st
    let c := a.cell.val
    if 4 ≤ x.acc.val then vecFault0 a o 0x14 x.d.val
    else do
      let y := accCode x.asInt (accGet s c x.acc.val)
      let m := maskGet s c x.mask.val
      let on := activeAt m 4 0
      if x.clear then accPut c x.acc.val xsZero else skip
      vregLay c x.d.val 4 false m x.zero [if on then some (y.1, rndMark (if x.asInt then .int32 else .fp32) false y) else none]
      scalarPut c y.1
      flagsRaise c (if on then [y.2] else [])
      vecRetire c)

/-! ### Bench access (R132, R133, R110, R111) -/

/-- Element codes stored, as the loupe judges them with what it kept of their last rounding: a store rounds nothing. -/
def storeJudged (f : Fmt) (cs : List (Nat × Nat)) : List Judged := cs.map fun c => judge f c.1 0 (c.2 != 1) (c.2 == 2)

/-- A tile as the sparse-tile unit stores it (R110, R111): the slot's bytes and the directory entry. -/
def tileStore (compress : Bool) (thr : Nat) (cs : List Nat) : List Byte × Nat :=
  let nnz := cs.countP fun c => c % 32768 != 0
  if compress && decide (nnz ≤ thr) then
    let bm := ((List.range cs.length).zip cs).foldl (fun n x => if x.2 % 32768 != 0 then n ||| 2 ^ x.1 else n) 0
    let body := leBytes 128 bm ++ ((cs.filter fun c => c % 32768 != 0).flatMap (leBytes 2))
    (padTo (cdiv body.length 64 * 64) body, nnz + 2048)
  else (cs.flatMap (leBytes 2), nnz)

/-- The 64-bit words of a bench that elements of width `w`, given as (number, address), occupy, each once. -/
def benchWords (c w : Nat) (es : List (Nat × Nat)) : List Nat :=
  es.foldl (fun l e => (idxWords e.2).foldl (fun l k => if l.contains k then l else l ++ [k]) l) []
where
  idxWords (ad : Nat) : List Nat :=
    let lo := (c * benchSize + ad) / 8
    (List.range ((c * benchSize + ad + w + 7) / 8 - lo)).map (· + lo)

/-- The words of active elements are read (R135: of no others); an uncorrectable one stops the run. -/
def benchElems (c w : Nat) (o : Op) (es : List (Nat × Nat)) (k : Act s₀ Unit) : Act s₀ Unit := do
  let s ← st
  if s.sram.isEmpty then k
  else do
    let bad ← foldA (benchWords c w es) false fun b x => do
      let r ← sramRead 0 x 1 o.who
      pure (b || r)
    if bad then endOp o.ref DATA_FAULT 0 else k

/-- Active elements of a contiguous access, with their addresses. -/
def lsElems (s : State) (c : Nat) (x : LsInstr) : List (Nat × Nat) :=
  let w := FmtOf.bytes x.fmt
  ((List.range (vregBytes / w)).filter (activeAt (maskGet s c x.mask.val) w)).map fun i => (i, x.addr + w * i)

/-- CONTIGUOUS_LOAD_STORE (R132, R135): masked elements are not read, not written and cause no fault; a tile store takes the
whole register (log entry 22). -/
def execContiguousLoadStore (a : CellAt) (x : LsInstr) (s : State) : Host.Outcome State Fault Refusal :=
  perform s (onCell a fun o => do
    let s ← st
    let c := a.cell.val
    let need := (cellAt s c).need
    let w := FmtOf.bytes x.fmt
    let tag := watchTag s o.d x.watch
    match x.form with
    | .tileStore base dir tile =>
      if x.fmt ≠ .bf16 then cellFault a o 2
      else if base % 64 ≠ 0 ∨ dir % 4 ≠ 0 then cellFault a o 3
      else if need < base + tileSlot * (tile + 1) ∨ need < dir + 4 * (tile + 1) then cellFault a o 1
      else do
        let cs := (elemsOf 2 (vregGet s c x.reg.val false)).take 1024
        let (b, e) := tileStore (bit (regOf s (celW c 0)) 1) (fld (regOf s (celW c 8)) 0 11) cs
        benchPut c (base + tileSlot * tile) b
        benchPut c (dir + 4 * tile) (leBytes 4 e)
        if bit e 11 then bump64 (celW c 0x18) 1 else skip
        lpeCount tag o.d o.step (storeJudged .bf16 (((List.range 1024).zip cs).map fun e => (e.2, rndAt s c x.reg.val 2 e.1)))
        vecRetire c
    | f =>
      let es := lsElems s c x
      let m := maskGet s c x.mask.val
      if !vecFmt x.fmt then cellFault a o 2
      else if x.addr % 4096 ≠ 0 then cellFault a o 3
      else match es.find? fun e => decide (need < e.2 + w) with
        | some e => vecFault a o 0x10 e.1 x.reg.val e.2
        | none =>
          if f = .load then
            benchElems c w o es do
              let s ← st
              let vs := elemsOf w (seen s o.who 1 s.bench (benchKey c x.addr) vregBytes)
              vregLay c x.reg.val w false m x.zero
                (((List.range vs.length).zip vs).map fun e => if activeAt m w e.1 then some (e.2, 0) else none)
              vecRetire c
          else do
            let b := vregGet s c x.reg.val false
            let vs := elemsOf w b
            each (runsOf 0 ((List.range vs.length).map (activeAt m w))) fun r =>
              benchPut c (x.addr + w * r.1) ((b.drop (w * r.1)).take (w * r.2))
            lpeCount tag o.d o.step (storeJudged x.fmt (((List.range vs.length).zip vs).filterMap fun e =>
              if activeAt m w e.1 then some (e.2, rndAt s c x.reg.val w e.1) else none))
            vecRetire c)

/-- An element's address (R132): a signed 32-bit index, formed in 64 bits. -/
def gsAddr (x : GsInstr) (i : Nat) : Nat := toCode 64 (x.base.toNat + sInt 32 i * 2 ^ x.scale.val)

/-- Active elements with their addresses, in ascending order. -/
def gsElems (s : State) (c : Nat) (x : GsInstr) : List (Nat × Nat) :=
  let w := FmtOf.bytes x.fmt
  let m := maskGet s c x.mask.val
  let ix := elemsOf 4 (vregGet s c x.index.val false)
  ((List.range (min 1024 (vregBytes / w))).zip ix).filterMap fun e =>
    if activeAt m w e.1 then some (e.1, gsAddr x e.2) else none

/-- The first faulting element: its number, address and cause. An aligned element that begins inside BENCH_NEED and ends past
it is outside too (log entry 133). -/
def gsFault (need w : Nat) (es : List (Nat × Nat)) : Option (Nat × Nat × Nat) :=
  es.findSome? fun e =>
    if need ≤ e.2 then some (e.1, e.2, 0x10)
    else if e.2 % w ≠ 0 then some (e.1, e.2, 0x11)
    else if need < e.2 + w then some (e.1, e.2, 0x10)
    else none

/-- The checks of bench gather, scatter and scatter-add, then the access. -/
def gsDo (a : CellAt) (x : GsInstr) (o : Op) (k : List (Nat × Nat) → Act s₀ Unit) : Act s₀ Unit := do
  let s ← st
  let c := a.cell.val
  if !vecFmt x.fmt then cellFault a o 2
  else
    let es := gsElems s c x
    match gsFault (cellAt s c).need (FmtOf.bytes x.fmt) es with
    | some (i, ad, cause) => vecFault a o cause i x.reg.val ad
    | none => k es

def execBenchGather (a : CellAt) (x : GsInstr) (s : State) : Host.Outcome State Fault Refusal :=
  perform s (onCell a fun o => gsDo a x o fun es => do
    let c := a.cell.val
    let w := FmtOf.bytes x.fmt
    benchElems c w o es do
      let s ← st
      let m := maskGet s c x.mask.val
      let n := min 1024 (vregBytes / w)
      let new := (List.range n).map fun i =>
        (es.find? fun e => e.1 == i).map fun e => (leNat (seen s o.who 1 s.bench (benchKey c e.2) w), 0)
      vregLay c x.reg.val w false m x.zero new
      vecRetire c)

def execBenchScatter (a : CellAt) (x : GsInstr) (s : State) : Host.Outcome State Fault Refusal :=
  perform s (onCell a fun o => gsDo a x o fun es => do
    let s ← st
    let c := a.cell.val
    let w := FmtOf.bytes x.fmt
    let vs := elemsOf w (vregGet s c x.reg.val false)
    each es fun e => benchPut c e.2 (leBytes w (vs.getD e.1 0))
    lpeCount (watchTag s o.d x.watch) o.d o.step (storeJudged x.fmt (es.map fun e => (vs.getD e.1 0, rndAt s c x.reg.val w e.1)))
    vecRetire c)

/-- One addition of a scatter-add. -/
def gsAdd (f : Fmt) (p q : Nat) : Nat × VFlags :=
  if FmtOf.isInt f then intRes (FmtOf.bits f) true (sInt (FmtOf.bits f) p + sInt (FmtOf.bits f) q)
  else fpRes fp32 [v32 p, v32 q] ((v32 p).add (v32 q))

/-- Addresses in the order in which an element first names each. -/
def gsAddrs (es : List (Nat × Nat)) : List Nat :=
  es.foldl (fun l e => if l.contains e.2 then l else l ++ [e.2]) []

def execBenchScatterAdd (a : CellAt) (x : GsInstr) (s : State) : Host.Outcome State Fault Refusal :=
  perform s (onCell a fun o =>
    if !(x.fmt == .fp32 || FmtOf.isInt x.fmt) then cellFault a o 2
    else gsDo a x o fun es => benchElems a.cell.val (FmtOf.bytes x.fmt) o es do
      let s ← st
      let c := a.cell.val
      let w := FmtOf.bytes x.fmt
      let vs := elemsOf w (vregGet s c x.reg.val false)
      let out ← mapA (gsAddrs es) fun ad => do
        let s ← st
        let t := (es.filter fun e => e.2 == ad).foldl (fun (a : Nat × Nat × VFlags) e =>
            let r := gsAdd x.fmt a.1 (vs.getD e.1 0)
            (r.1, rndMark x.fmt false r, a.2.2.or r.2))
          (leNat (seen s o.who 1 s.bench (benchKey c ad) w), 0, VFlags.none)
        benchPut c ad (leBytes w t.1)
        pure t
      flagsRaise c (out.map fun t => t.2.2)
      lpeCount (watchTag s o.d x.watch) o.d o.step (storeJudged x.fmt (out.map fun t => (t.1, t.2.1)))
      vecRetire c)

end Sys2Proof.Machine
end

