-- ==== Sys2Proof/Machine/Dispatch.lean ====
section
/-! DEFINITION. The dispatch: one arm for each command, a direct call of its meaning. -/

namespace Sys2Proof.Machine

def exec (i : Instr) (s : State) : Host.Outcome State Fault Refusal :=
  match i with
  | .nop o => Sys2Proof.Machine.execNop o s
  | .sample o => Sys2Proof.Machine.execSample o s
  | .gather o => Sys2Proof.Machine.execGather o s
  | .pool o => Sys2Proof.Machine.execPool o s
  | .scatterAdd o m => Sys2Proof.Machine.execScatterAdd o m s
  | .cellRun o => Sys2Proof.Machine.execCellRun o s
  | .update o m => Sys2Proof.Machine.execUpdate o m s
  | .reduceScatter o m => Sys2Proof.Machine.execReduceScatter o m s
  | .allGather o => Sys2Proof.Machine.execAllGather o s
  | .copy o => Sys2Proof.Machine.execCopy o s
  | .peerXferRead o => Sys2Proof.Machine.execPeerXferRead o s
  | .peerXferWrite o => Sys2Proof.Machine.execPeerXferWrite o s
  | .peerXferPool o => Sys2Proof.Machine.execPeerXferPool o s
  | .define o => Sys2Proof.Machine.execDefine o s
  | .setInactive o => Sys2Proof.Machine.execSetInactive o s
  | .inactiveBaseReplace o => Sys2Proof.Machine.execInactiveBaseReplace o s
  | .flip o => Sys2Proof.Machine.execFlip o s
  | .release o => Sys2Proof.Machine.execRelease o s
  | .releaseFree o => Sys2Proof.Machine.execReleaseFree o s
  | .migrate o => Sys2Proof.Machine.execMigrate o s
  | .stashOpen o => Sys2Proof.Machine.execStashOpen o s
  | .stashRelease o => Sys2Proof.Machine.execStashRelease o s
  | .wellClear o => Sys2Proof.Machine.execWellClear o s
  | .escCtlAdd o => Sys2Proof.Machine.execEscCtlAdd o s
  | .escCtlArm o => Sys2Proof.Machine.execEscCtlArm o s
  | .escCtlReset o => Sys2Proof.Machine.execEscCtlReset o s
  | .escCtlNotify o => Sys2Proof.Machine.execEscCtlNotify o s
  | .abort o => Sys2Proof.Machine.execAbort o s
  | .kxGather o => Sys2Proof.Machine.execKxGather o s
  | .kxPool o => Sys2Proof.Machine.execKxPool o s
  | .kxScatterAdd o m => Sys2Proof.Machine.execKxScatterAdd o m s
  | .prodWrite d r v posted => Sys2Proof.Machine.execProdWrite d r v posted s
  | .ringEnable d r v => Sys2Proof.Machine.execRingEnable d r v s
  | .kxDoorbellWrite d v posted => Sys2Proof.Machine.execKxDoorbellWrite d v posted s
  | .waitRelease o => Sys2Proof.Machine.execWaitRelease o s
  | .admitWaiter e => Sys2Proof.Machine.execAdmitWaiter e s
  | .operationComplete o => Sys2Proof.Machine.execOperationComplete o s
  | .escCmdAdd d x gen arg => Sys2Proof.Machine.execEscCmdAdd d x gen arg s
  | .escCmdArm d x gen arg => Sys2Proof.Machine.execEscCmdArm d x gen arg s
  | .escCmdReset d x gen arg => Sys2Proof.Machine.execEscCmdReset d x gen arg s
  | .escCmdDiscard d x gen arg => Sys2Proof.Machine.execEscCmdDiscard d x gen arg s
  | .phaseCommit d => Sys2Proof.Machine.execPhaseCommit d s
  | .catchUpPass d => Sys2Proof.Machine.execCatchUpPass d s
  | .txnBegin d => Sys2Proof.Machine.execTxnBegin d s
  | .txnCommit d => Sys2Proof.Machine.execTxnCommit d s
  | .txnAbort d => Sys2Proof.Machine.execTxnAbort d s
  | .txnIdleTimeout => Sys2Proof.Machine.execTxnIdleTimeout s
  | .quietPoint => Sys2Proof.Machine.execQuietPoint s
  | .rwlWrite d a v => Sys2Proof.Machine.execRwlWrite d a v s
  | .clbImgGo d v => Sys2Proof.Machine.execClbImgGo d v s
  | .registerWrite d a v => Sys2Proof.Machine.execRegisterWrite d a v s
  | .bar0BadAccess d a write be => Sys2Proof.Machine.execBar0BadAccess d a write be s
  | .bar2Read d off n => Sys2Proof.Machine.execBar2Read d off n s
  | .bar2Write d off b => Sys2Proof.Machine.execBar2Write d off b s
  | .qpContextApply d q v => Sys2Proof.Machine.execQpContextApply d q v s
  | .rteFaultClear d v => Sys2Proof.Machine.execRteFaultClear d v s
  | .rstCell d v => Sys2Proof.Machine.execRstCell d v s
  | .rstCh d k v => Sys2Proof.Machine.execRstCh d k v s
  | .rstPort d v => Sys2Proof.Machine.execRstPort d v s
  | .rstDomain d v => Sys2Proof.Machine.execRstDomain d v s
  | .warmChipReset d => Sys2Proof.Machine.execWarmChipReset d s
  | .coldChipReset d => Sys2Proof.Machine.execColdChipReset d s
  | .perst port => Sys2Proof.Machine.execPerst port s
  | .functionLevelReset d => Sys2Proof.Machine.execFunctionLevelReset d s
  | .pwrgdRise straps => Sys2Proof.Machine.execPwrgdRise straps s
  | .pwrgdFall => Sys2Proof.Machine.execPwrgdFall s
  | .pllLock => Sys2Proof.Machine.execPllLock s
  | .pllUnlock => Sys2Proof.Machine.execPllUnlock s
  | .crownBoot aliveA aliveB => Sys2Proof.Machine.execCrownBoot aliveA aliveB s
  | .hbmChannelTest res => Sys2Proof.Machine.execHbmChannelTest res s
  | .ageingMeasurement pass slow => Sys2Proof.Machine.execAgeingMeasurement pass slow s
  | .setpointTimeout => Sys2Proof.Machine.execSetpointTimeout s
  | .calibreLoad img => Sys2Proof.Machine.execCalibreLoad img s
  | .ready => Sys2Proof.Machine.execReady s
  | .stepMark => Sys2Proof.Machine.execStepMark s
  | .rackRefLock => Sys2Proof.Machine.execRackRefLock s
  | .thermTrip => Sys2Proof.Machine.execThermTrip s
  | .hwForcedThrottle => Sys2Proof.Machine.execHwForcedThrottle s
  | .sensorRead vals => Sys2Proof.Machine.execSensorRead vals s
  | .throttleAdjust => Sys2Proof.Machine.execThrottleAdjust s
  | .crownRestart d v => Sys2Proof.Machine.execCrownRestart d v s
  | .crownWatchdog => Sys2Proof.Machine.execCrownWatchdog s
  | .bootRetry aliveA aliveB => Sys2Proof.Machine.execBootRetry aliveA aliveB s
  | .fwStage d => Sys2Proof.Machine.execFwStage d s
  | .ageMeasure d pass slow => Sys2Proof.Machine.execAgeMeasure d pass slow s
  | .faultLogFlashWrite => Sys2Proof.Machine.execFaultLogFlashWrite s
  | .smbusStatus => Sys2Proof.Machine.execSmbusStatus s
  | .smbusTj => Sys2Proof.Machine.execSmbusTj s
  | .smbusSensor n => Sys2Proof.Machine.execSmbusSensor n s
  | .logProd => Sys2Proof.Machine.execLogProd s
  | .logRead x => Sys2Proof.Machine.execLogRead x s
  | .setpointAck mv => Sys2Proof.Machine.execSetpointAck mv s
  | .arrayInstruction c x => Sys2Proof.Machine.execArrayInstruction c x s
  | .wgrad c x => Sys2Proof.Machine.execWgrad c x s
  | .wellAdd c x => Sys2Proof.Machine.execWellAdd c x s
  | .stashStore c x => Sys2Proof.Machine.execStashStore c x s
  | .stashTest c region layer => Sys2Proof.Machine.execStashTest c region layer s
  | .stashLoad c x => Sys2Proof.Machine.execStashLoad c x s
  | .vectorArithmetic c x => Sys2Proof.Machine.execVectorArithmetic c x s
  | .conversion c x => Sys2Proof.Machine.execConversion c x s
  | .transcendental c x => Sys2Proof.Machine.execTranscendental c x s
  | .reduction c x => Sys2Proof.Machine.execReduction c x s
  | .accumulatorRead c x => Sys2Proof.Machine.execAccumulatorRead c x s
  | .contiguousLoadStore c x => Sys2Proof.Machine.execContiguousLoadStore c x s
  | .benchGather c x => Sys2Proof.Machine.execBenchGather c x s
  | .benchScatter c x => Sys2Proof.Machine.execBenchScatter c x s
  | .benchScatterAdd c x => Sys2Proof.Machine.execBenchScatterAdd c x s
  | .cellEscapementOp c x gen op => Sys2Proof.Machine.execCellEscapementOp c x gen op s
  | .uitHoldExpiry => Sys2Proof.Machine.execUitHoldExpiry s
  | .regulatorRecompute g => Sys2Proof.Machine.execRegulatorRecompute g s
  | .loupeLatch d => Sys2Proof.Machine.execLoupeLatch d s
  | .patrolScrub => Sys2Proof.Machine.execPatrolScrub s
  | .sramScrub => Sys2Proof.Machine.execSramScrub s
  | .linkAligned p half => Sys2Proof.Machine.execLinkAligned p half s
  | .trainingTimeout p half => Sys2Proof.Machine.execTrainingTimeout p half s
  | .trainingRetry p half => Sys2Proof.Machine.execTrainingRetry p half s
  | .alignmentLoss p half => Sys2Proof.Machine.execAlignmentLoss p half s
  | .helloSend p half => Sys2Proof.Machine.execHelloSend p half s
  | .hello p half h => Sys2Proof.Machine.execHello p half h s
  | .discoveryTimeout p => Sys2Proof.Machine.execDiscoveryTimeout p s
  | .adoption => Sys2Proof.Machine.execAdoption s
  | .linkControlFrame p half f => Sys2Proof.Machine.execLinkControlFrame p half f s
  | .lcfSend p half => Sys2Proof.Machine.execLcfSend p half s
  | .llrAckTimeout p half => Sys2Proof.Machine.execLlrAckTimeout p half s
  | .badHeaderFrame p w h frameLen => Sys2Proof.Machine.execBadHeaderFrame p w h frameLen s
  | .routePacket src => Sys2Proof.Machine.execRoutePacket src s
  | .fault p pk => Sys2Proof.Machine.execFault p pk s
  | .load p pk => Sys2Proof.Machine.execLoad p pk s
  | .loadWindow => Sys2Proof.Machine.execLoadWindow s
  | .publish p pk => Sys2Proof.Machine.execPublish p pk s
  | .guestGraceExpiry table row => Sys2Proof.Machine.execGuestGraceExpiry table row s
  | .timeSend p => Sys2Proof.Machine.execTimeSend p s
  | .time p pk rx => Sys2Proof.Machine.execTime p pk rx s
  | .write p pk => Sys2Proof.Machine.execWrite p pk s
  | .read p pk => Sys2Proof.Machine.execRead p pk s
  | .sampleRequest p pk => Sys2Proof.Machine.execSampleRequest p pk s
  | .poolRequest p pk => Sys2Proof.Machine.execPoolRequest p pk s
  | .contrib p pk => Sys2Proof.Machine.execContrib p pk s
  | .mig p pk => Sys2Proof.Machine.execMig p pk s
  | .rowUpd p pk => Sys2Proof.Machine.execRowUpd p pk s
  | .fwd p pk => Sys2Proof.Machine.execFwd p pk s
  | .writeAck p pk => Sys2Proof.Machine.execWriteAck p pk s
  | .readData p pk => Sys2Proof.Machine.execReadData p pk s
  | .sampleRsp p pk => Sys2Proof.Machine.execSampleRsp p pk s
  | .poolRsp p pk => Sys2Proof.Machine.execPoolRsp p pk s
  | .contribAck p pk => Sys2Proof.Machine.execContribAck p pk s
  | .migAck p pk => Sys2Proof.Machine.execMigAck p pk s
  | .redirect p pk => Sys2Proof.Machine.execRedirect p pk s
  | .busyReissue optag => Sys2Proof.Machine.execBusyReissue optag s
  | .sampleRemoteTimeout o => Sys2Proof.Machine.execSampleRemoteTimeout o s
  | .poolRemoteTimeout o => Sys2Proof.Machine.execPoolRemoteTimeout o s
  | .contribAckTimeout o => Sys2Proof.Machine.execContribAckTimeout o s
  | .stitch p pk => Sys2Proof.Machine.execStitch p pk s
  | .grant p pk => Sys2Proof.Machine.execGrant p pk s
  | .colGather p pk => Sys2Proof.Machine.execColGather p pk s
  | .verdict p pk => Sys2Proof.Machine.execVerdict p pk s
  | .stragglerDeadline g => Sys2Proof.Machine.execStragglerDeadline g s
  | .colTimeout g => Sys2Proof.Machine.execColTimeout g s
  | .oldClear => Sys2Proof.Machine.execOldClear s
  | .unacceptedFrame p half f => Sys2Proof.Machine.execUnacceptedFrame p half f s
  | .pfcFrame p half quanta => Sys2Proof.Machine.execPfcFrame p half quanta s
  | .pfcXoffRepeat p half q => Sys2Proof.Machine.execPfcXoffRepeat p half q s
  | .pfcWatchdog p half q => Sys2Proof.Machine.execPfcWatchdog p half q s
  | .ecnFlagTimer peer => Sys2Proof.Machine.execEcnFlagTimer peer s
  | .ecnRateRaise peer => Sys2Proof.Machine.execEcnRateRaise peer s
  | .arp p half target sender => Sys2Proof.Machine.execArp p half target sender s
  | .neighbourSolicitation p half target sender => Sys2Proof.Machine.execNeighbourSolicitation p half target sender s
  | .echoRequest p half f data => Sys2Proof.Machine.execEchoRequest p half f data s
  | .peerHelloSend n => Sys2Proof.Machine.execPeerHelloSend n s
  | .peerHello p half f h => Sys2Proof.Machine.execPeerHello p half f h s
  | .peerDown n => Sys2Proof.Machine.execPeerDown n s
  | .e2eAck p pk => Sys2Proof.Machine.execE2eAck p pk s
  | .e2eRetransmit n optag seq => Sys2Proof.Machine.execE2eRetransmit n optag seq s
  | .dedupKeyExpiry n optag seq => Sys2Proof.Machine.execDedupKeyExpiry n optag seq s
  | .rdmaWrite q k => Sys2Proof.Machine.execRdmaWrite q k s
  | .rdmaRead q k => Sys2Proof.Machine.execRdmaRead q k s
  | .send q k => Sys2Proof.Machine.execSend q k s
  | .cnp q => Sys2Proof.Machine.execCnp q s
  | .roceAck q psn nak => Sys2Proof.Machine.execRoceAck q psn nak s
  | .answerRetransmit q => Sys2Proof.Machine.execAnswerRetransmit q s
  | .verdictWaitTimeout o => Sys2Proof.Machine.execVerdictWaitTimeout o s
  | .stackTempThreshold k temp => Sys2Proof.Machine.execStackTempThreshold k temp s
  | .pfcPauseExpiry p half q => Sys2Proof.Machine.execPfcPauseExpiry p half q s
  | .rackRefLoss => Sys2Proof.Machine.execRackRefLoss s
  | .pcieLinkUp d => Sys2Proof.Machine.execPcieLinkUp d s
  | .pllLockTimeout => Sys2Proof.Machine.execPllLockTimeout s
  | .uncorrectableCodeword p half lseq => Sys2Proof.Machine.execUncorrectableCodeword p half lseq s
  | .stompedFrame p half seq vc flits => Sys2Proof.Machine.execStompedFrame p half seq vc flits s
  | .resetComplete u => Sys2Proof.Machine.execResetComplete u s
  | .migReplyTimeout table row => Sys2Proof.Machine.execMigReplyTimeout table row s

end Sys2Proof.Machine
end

