-- ==== Sys2Proof/Machine/Step.lean ====
section
/-! DEFINITION. One step: the command at the front of the queue, on the state with the queue's rest;
on an empty queue one TCLK cycle passes (R305, log entry 9). -/

namespace Sys2Proof.Machine

/-- An empty queue lets one cycle of TCLK pass: TS is a 64-bit count. -/
def tick (s : State) : State := { s with ts := (s.ts + 1) % 2 ^ 64 }

def step (s : State) : Host.Outcome State Fault Refusal :=
  match s.pending with
  | [] => .next (tick s)
  | c :: rest => exec c { s with pending := rest }

/-- The state with the command a word spells put at the front of its queue. -/
def State.withFetchWord (s : State) (nbits w : Nat) : State :=
  match Sys2Proof.decodeTableWord nbits w with
  | some c => { s with pending := c :: s.pending }
  | none => s

end Sys2Proof.Machine
end

