-- ==== Sys2Proof/Machine/Read.lean ====
section
/-! DEFINITION. What a host reads in BAR0 (R5, R8, R302, R338). A read is no command, since it changes nothing; it is a
function of the state. Registers that report other state are computed from it; every other register reads what is stored. -/

namespace Sys2Proof.Machine

/-- Word `w` of a record. -/
def recWord (b : List Byte) (w : Nat) : Nat := leAt b (4 * w) 4

/-- Admitted operations of an engine. -/
def engQueued (s : State) (e : Nat) : Nat := s.ops.countP fun o => o.eng == e

def escStCode (x : EscState) : Nat :=
  match x with | .idle => 0 | .armed => 1 | .fired => 2 | .faulted => 3 | .aborted => 4

/-- The words of an escapement; outside the domain's range they read 0. -/
def escRead (s : State) (d i b : Nat) : Nat :=
  let e := escAt s i
  if !escIn s d i then 0
  else if b = 0 then e.count.toNat
  else if b = 4 then e.target.toNat
  else if b = 8 then
    e.gen.toNat + 2 ^ 16 * escStCode e.st + 2 ^ 20 * (escOwner s i).getD 0 + 2 ^ 22 * b2n e.notify + 2 ^ 24 * e.vec.toNat
  else 0

/-- HDM_ID: the domain, whether its link is up, and its lanes. -/
def hdmIdRead (s : State) (d : Nat) : Nat :=
  let split := bit (regOf s (GLB + 0x10)) (d / 2)
  d + 4 * b2n (s.hosts.present.getLsbD d) + 8 * (if split || d % 2 == 1 then 8 else 16)

def txnStCode (x : TxnSt) : Nat :=
  match x with | .idle => 0 | .open => 1 | .checking => 2 | .quiescing => 3 | .image => 4

def celStatus (s : State) (c : Nat) : Nat :=
  let x := cellAt s c
  let pre : Bool := match x.holder with | some (_, 1) => true | _ => false
  b2n x.holder.isSome + 2 * b2n pre + 4 * b2n (quarantined s c) + 16 * cellOwner s c + 256 * x.waiting.toNat

/-- Targets of a SAMPLE in flight: those whose edges, or one of whose walks, are still to come. -/
def smpFlight (o : Op) : Nat :=
  match o.work with
  | .sample hs =>
    if smpMode o = 2 then
      let l := (hs.headD ⟨[], []⟩).edges
      (chunks (smpFan o 1) l).countP fun c => c.any Option.isNone
    else (hs.map fun h => h.edges.countP Option.isNone).sum
  | _ => 0

/-- BUSY_UNITS of SMP_STATUS (R51): none without a target in flight, else at most 16 and at most the targets in flight. How
many of them share a unit is open (log entry 4). -/
def smpStatus (s : State) : Nat :=
  let n := min 16 ((s.ops.filter fun o => o.code == 1 && o.phase == .running).map smpFlight).sum
  (if n = 0 then 0 else 1 + (Config.freeWord s.nonce 0).toNat % n) + 256 * engQueued s 0

def gthStatus (s : State) : Nat :=
  (match s.sac.uit with | some h => 2 + 4 * h.dom | none => 0) + 256 * engQueued s 1

/-- Operations that hold cells for an update. -/
def updRunning (s : State) : Nat := s.ops.countP fun o => o.code == 6 && s.cells.st.any fun c => c.2.holder == some (o.ref, 2)

/-- SAC_STATUS: the context whose retirement pass holds the accumulator (R78), and the resident entries. -/
def sacStatus (s : State) : Nat :=
  (match retiring s with | some c => 1 + 16 * c | none => 0) + 256 * (s.sac.ents.length + (transients s).length)

def ctxState (s : State) (c : Nat) : Nat :=
  match mapGet s.sac.ctx c with
  | some x => x.st + 65536 * x.used
  | none => 0

/-- Registers of the engines that report other state. -/
def engineRead (s : State) (a : Nat) : Option Nat :=
  if a = SMP + 4 then some (smpStatus s)
  else if a = GTH + 4 then some (gthStatus s)
  else if a = SAC + 8 then some (sacStatus s)
  else if a = TBL + 0x20 then some (s.tbl.migs.length + 256 * pinned s)
  else if a = BWD + 4 then some (s.stash.toNat + 256 * (List.range 1024).countP (fun i => bit (regOf s (BWD + 0x2000 + 4 * i)) 16))
  else if a = UPD + 4 then some (engQueued s 4 + 256 * updRunning s)
  else if a = LPE + 4 then
    some (s.regs.countP fun x => decide (LPE + 0x10000 ≤ x.1 ∧ x.1 < LPE + 0x20000) && x.1 % 8 == 0 && bit x.2.toNat 0)
  else if a = COL + 4 then
    some (([0, 1, 2, 3].map fun g => if s.col.ctx.any fun x => x.key.g == g then 2 ^ g else 0).sum + 256 * engQueued s 5)
  else if a = SVC + 8 then
    some ((List.range 256).countP (fun n => fld (regOf s (SVC + 0x1000 + 32 * n)) 21 2 == 2)
      + 65536 * (s.regs.countP fun x => decide (SVC + 0x20000 ≤ x.1) && decide (x.1 < SVC + 0x40000) && x.1 % 32 == 0 && fld x.2.toNat 13 2 == 2))
  else match inArr a (SAC + 0x200) 4 16, inArr a (BWD + 0x100) 16 8, inArr a (TBL + 0x10000) 64 4096, inArr a CEL 0x2000 32 with
    | some (c, _), _, _, _ => some (ctxState s c)
    | _, some (r, 0), _, _ => some (putFld (regOf s a) 8 1 (b2n (s.stash.getLsbD r)))
    | _, _, some (t, b), _ => some (match tdGet s t with | some d => fld (tdBits t d) (8 * b) 32 | none => 0)
    | _, _, _, some (c, 4) => some (celStatus s c)
    | _, _, _, _ => none

/-- A sensor's VALUE, with STALE once it is older than 2 ms (R328, R336). -/
def sensorRead (s : State) (a : Nat) : Nat :=
  if s.crown.sensorTs ≠ 0 ∧ s.crown.sensorTs + 2000000 < s.ts then putFld (regOf s a) 31 1 1 else regOf s a

/-- Shared registers of the other blocks that report other state. -/
def systemRead (s : State) (a : Nat) : Option Nat :=
  if a = CLB + 4 then some (txnStCode s.clb.st + 256 * s.clb.last.toNat + 65536 * s.clb.id.toNat)
  else if a = RTE + 0x10 then some (oldCount s)
  else if a = CLK + 0x10 then some (s.ts % 2 ^ 32)
  else if a = CLK + 0x14 then some (s.ts / 2 ^ 32)
  else if let some (p, o) := inArr a FAB 0x8000 6 then
    if o = 0x20 then some (torusMac (myCoord s) p % 2 ^ 32) else if o = 0x24 then some (torusMac (myCoord s) p / 2 ^ 32) else none
  else match inArr a (CLB + 0x1000) 32 512, inArr a (FLT + 0x10000) 32 4096, inArr a (CRN + 0x100) 4 96 with
    | some (i, b), _, _ => some (match s.clb.log.reverse.find? fun r => r.seq.toNat % 512 == i with
        | some r => recWord (repBytes r) (b / 4) | none => 0)
    | _, some (i, b), _ => some (recWord (logSlot s i) (b / 4))
    | _, _, some _ => some (sensorRead s a)
    | _, _, _ => none

/-- A domain's own copy of a private register; KX reads 0 at the expert level (R285). -/
def privRead (s : State) (d a : Nat) : Nat :=
  if KX ≤ a ∧ a < KX + 0x10000 then
    if basicLevel s d then (if a = KX then putFld (privOf s d a) 0 1 1 else privOf s d a) else 0
  else if a = FLT + 0x24 then regOf s FLT_LOG_PROD - privOf s d (FLT + 0x20) - 4096
  else privOf s d a

/-- A domain's own window; its rings read 0 at the basic level (R285). -/
def winRead (s : State) (d a : Nat) : Nat :=
  if (inArr a (hdmW d 0x1000) 32 64).isSome && basicLevel s d then 0 else privOf s d a

/-- The normal view. -/
def normalRead (s : State) (d a : Nat) : Nat :=
  match regInfo a with
  | none => 0
  | some r =>
    match r.mark with
    | .esc => escRead s d ((a - ESC) / 16) (a % 16)
    | .priv => privRead s d a
    | .win k => if k = d then winRead s d a else 0
    | _ =>
      match inArr a HDM 0x4000 4, engineRead s a, systemRead s a with
      | some (k, 0), _, _ => hdmIdRead s k
      | _, some v, _ => v
      | _, _, some v => v
      | _, _, _ => regOf s a

/-- The shadow view (R302): the shadow of the RWL fields at X − 0x8000. -/
def shadowRead (s : State) (x : Nat) : Nat :=
  if x < 0x8000 then 0 else mergeFlds (rwlFlds (x - 0x8000)) 0 (shadowOf s (x - 0x8000))

/-- What domain `d` reads at a BAR0 address. -/
def barRead (s : State) (d : Fin 4) (a : Nat) : Nat :=
  if shadowView s d.val then shadowRead s a else normalRead s d.val a

end Sys2Proof.Machine
end

