-- ==== Sys2Proof/Safety.lean ====
section
/-! DEFINITION. What every step keeps, and the parts of the state by name. The statements over runs rest on these
conditions; none of them names a program. -/

namespace Sys2Proof

open Machine

/-- Every memory and register map is in canonical form. -/
def Canonical (s : State) : Prop :=
  s.hbm.wf = true ∧ s.bench.wf = true ∧ s.well.wf = true ∧ s.host.wf = true ∧ s.cells.vreg.wf = true
  ∧ regsWf keyShared s.regs = true ∧ regsWf keyPriv s.priv = true

/-- Escapements stand at strictly rising indices, and an ARMED one has not reached its TARGET (R274). -/
def EscOk (s : State) : Prop :=
  mapOrd none s.esc = true ∧ ∀ i e, (i, e) ∈ s.esc → e.st = .armed → e.count.toNat < e.target.toNat

/-- The invariant of the block. -/
def Inv (s : State) : Prop := Canonical s ∧ EscOk s

/-- A step is safe when it answers a next state, which keeps the invariant. -/
def SafeStep (s : State) : Prop := ∃ t, step s = .next t ∧ (Inv s → Inv t)

/-- The parts of the state, but for the queue, which no command changes, and the count of free values (`nonce`), which is the
model's own. -/
inductive Part where
  | time | regs | priv | shadow | hbm | bench | well | host | vreg | ecc | sram | esc | ops | recorded | marks | reqs
  | outs | hosts | tbl | sac | cells | stash | schDue | lpe | col | rte | links | peers | qps | clb | crown
deriving DecidableEq, Repr

/-- A part is the same in two states. -/
def Same (k : Part) (s t : State) : Prop :=
  match k with
  | .time => t.ts = s.ts
  | .regs => t.regs = s.regs
  | .priv => t.priv = s.priv
  | .shadow => t.shadow = s.shadow
  | .hbm => t.hbm = s.hbm
  | .bench => t.bench = s.bench
  | .well => t.well = s.well
  | .host => t.host = s.host
  | .vreg => t.cells.vreg = s.cells.vreg ∧ t.cells.rnd = s.cells.rnd
  | .ecc => t.ecc = s.ecc
  | .sram => t.sram = s.sram
  | .esc => t.esc = s.esc
  | .ops => t.ops = s.ops
  | .recorded => t.recorded = s.recorded
  | .marks => t.marks = s.marks
  | .reqs => t.reqs = s.reqs
  | .outs => t.outs = s.outs
  | .hosts => t.hosts = s.hosts
  | .tbl => t.tbl = s.tbl
  | .sac => t.sac = s.sac
  | .cells => t.cells.st = s.cells.st ∧ t.cells.masks = s.cells.masks
  | .stash => t.stash = s.stash
  | .schDue => t.schDue = s.schDue
  | .lpe => t.lpe = s.lpe
  | .col => t.col = s.col
  | .rte => t.rte = s.rte
  | .links => t.links = s.links
  | .peers => t.peers = s.peers
  | .qps => t.qps = s.qps
  | .clb => t.clb = s.clb
  | .crown => t.crown = s.crown

/-! ### Words the statements are written with -/

/-- The command answers a next state, and `P` holds of it. -/
def Runs (c : Instr) (s : State) (P : State → Prop) : Prop := ∃ t, exec c s = .next t ∧ P t

/-- The parts listed are the same in two states. -/
def Keeps (ks : List Part) (s t : State) : Prop := ∀ k ∈ ks, Same k s t

/-- Every part but those listed is the same in two states. -/
def OnlyParts (ks : List Part) (s t : State) : Prop := ∀ k, k ∉ ks → Same k s t

/-- The operation stands in this phase, and its descriptor has this operation code. -/
abbrev OpAt (s : State) (r : OpRef) (o : Op) (p : OpPhase) (code : Nat) : Prop :=
  findOp s r = some o ∧ o.phase = p ∧ o.code = code

/-- STATUS of the operation is decided, with this STATUS and DETAIL (R278). -/
def Ended (t : State) (r : OpRef) (status detail : Nat) : Prop :=
  ∃ o, findOp t r = some o ∧ o.phase = .decided ∧ o.status = BitVec.ofNat 8 status ∧ o.detail = BitVec.ofNat 32 detail

/-- The operation holds no request slot and no cell. -/
abbrev Released (t : State) (r : OpRef) : Prop :=
  (∀ q ∈ t.reqs, q.op ≠ some r) ∧ ∀ c ∈ t.cells.st, (c.2.holder.map Prod.fst) ≠ some r

/-- Every shared register but those listed reads as before. -/
def RegsBut (l : List Nat) (s t : State) : Prop := ∀ a, a ∉ l → regOf t a = regOf s a

/-- No uncorrectable word of the escapement store lies under the escapement (Table 18.2). -/
abbrev EscSound (s : State) (i : Nat) : Prop :=
  (s.sram.any fun x => x.array == 5 && x.word / 2 == i && x.ue) = false

/-- No operation waits on the escapement. -/
abbrev NoWaiter (s : State) (i : Nat) : Prop := ∀ o ∈ s.ops, o.phase = .waitEsc → o.waitEsc ≠ i

/-- An ADD of `n` was applied (Table 15.7). -/
def EscAdded (e e' : Esc) (n : Nat) : Prop :=
  e'.count.toNat = min (e.count.toNat + n) 0xFFFFFFFF ∧ e'.target = e.target ∧ e'.gen = e.gen ∧ e'.notify = e.notify
  ∧ e'.vec = e.vec ∧ e'.st = (if e.st = .armed ∧ e.target.toNat ≤ e'.count.toNat then .fired else e.st)

/-- An ARM to `x` was applied (Table 15.7). -/
def EscArmed (e e' : Esc) (x : Nat) : Prop :=
  e'.count = e.count ∧ e'.target = BitVec.ofNat 32 x ∧ e'.gen = e.gen ∧ e'.notify = e.notify ∧ e'.vec = e.vec
  ∧ e'.st = (if e'.target.toNat ≤ e.count.toNat then .fired else .armed)

/-- A RESET was applied (Table 15.7). -/
def EscWasReset (e e' : Esc) : Prop :=
  e'.count = 0 ∧ e'.target = 0 ∧ e'.st = .idle ∧ e'.gen = e.gen + 1 ∧ e'.notify = e.notify ∧ e'.vec = e.vec

/-- A NOTIFY was applied (Table 15.7). -/
def EscNotified (e e' : Esc) (vec : Nat) (on : Bool) : Prop :=
  e'.count = e.count ∧ e'.target = e.target ∧ e'.st = e.st ∧ e'.gen = e.gen ∧ e'.notify = on ∧ e'.vec = BitVec.ofNat 8 vec

/-- Every other escapement is as it was. -/
def OtherEscs (i : Nat) (s t : State) : Prop := ∀ j, j ≠ i → escAt t j = escAt s j

/-- A host of domain `d` is present at the expert level. -/
abbrev HostExpert (s : State) (d : Nat) : Prop := s.hosts.present.getLsbD d = true ∧ basicLevel s d = false

/-- The operation holds no result region and no work of its engine. -/
abbrev Bare (o : Op) : Prop := o.region = [] ∧ o.work = .none

/-- Every domain's registers but those listed read as before. -/
def PrivBut (l : List (Nat × Nat)) (s t : State) : Prop :=
  ∀ d a, d < 4 → a < 0x4000000 → (d, a) ∉ l → privOf t d a = privOf s d a

/-- Every other operation is as it was. -/
def OtherOps (l : List OpRef) (s t : State) : Prop := ∀ q, q ∉ l → findOp t q = findOp s q

/-- Bytes of a memory outside `n` bytes at `a` read as before. -/
def MemBut (a n : Nat) (m m' : Mem) : Prop := ∀ k, (k < a ∨ a + n ≤ k) → m'.get k = m.get k

/-- The descriptor an ABORT names (Table 15.4). -/
def abortRef (o : Op) : OpRef := ⟨o.ref.dom, ⟨o.bits 16 0 6, Nat.lt_trans (Nat.mod_lt _ (by decide)) (by decide)⟩, BitVec.ofNat 32 (o.at 20 4)⟩

/-- The index an ABORT names, counted from the low end of its ring's window (R283). -/
def abortPlace (s : State) (o : Op) : Nat :=
  sub32 (o.at 20 4) (sub32 (ringDone s o.d (o.bits 16 0 6)) (workSize s o.d (o.bits 16 0 6)))

/-- How far PROD of the ring an ABORT names lies above that low end. -/
def abortTop (s : State) (o : Op) : Nat :=
  sub32 (ringProd s o.d (o.bits 16 0 6)) (sub32 (ringDone s o.d (o.bits 16 0 6)) (workSize s o.d (o.bits 16 0 6)))

/-- The descriptor an ABORT names is posted and has no record. -/
abbrev AbortOpen (s : State) (o : Op) : Prop :=
  abortPlace s o < abortTop s o ∧ workSize s o.d (o.bits 16 0 6) ≤ abortPlace s o ∧ s.recorded.contains (abortRef o) = false

/-- No descriptor of the operation's work ring follows it. -/
abbrev LastPosted (s : State) (r : OpRef) : Prop :=
  r.ring.val < 64 ∧ ringProd s r.dom.val r.ring.val = (r.idx.toNat + 1) % 2 ^ 32

/-- The bytes a reader finds at a local place. -/
def bytesAt (s : State) (who : Option Who) (l : Loc) (n : Nat) : List Byte :=
  match l with
  | .hbm o => seen s who 0 s.hbm o n
  | .bench c o => seen s who 1 s.bench (benchKey c o) n
  | .well o => seen s who 2 s.well o n
  | _ => []

/-- No sector of HBM reads wrong and no channel is under reset or offline. -/
abbrev HbmSound (s : State) : Prop := eccClean s = true ∧ s.hosts.resetCh = 0 ∧ s.hosts.offlineCh = 0

/-- No operation but this one is producing anything (R19, R279). -/
abbrev Shown (s : State) (r : Option OpRef) : Prop := ∀ p ∈ s.ops, some p.ref = r ∨ p.veil = []

/-- A local place of `n` bytes reads without an error (R177, R182). -/
abbrev Readable (s : State) (l : Loc) (n : Nat) : Prop :=
  match l with
  | .hbm o => HbmSound s ∧ o + n ≤ hbmCap s
  | .bench _ _ => True
  | .well _ => True
  | _ => False

/-- An input array of an operation stands at a local place and reads without an error. -/
abbrev FetchesAt (s : State) (o : Op) (lrn : Bool) (a n : Nat) (l : Loc) : Prop :=
  0 < n ∧ given o a n = false ∧ placeHeld o.hold s o.d a n lrn = .here l ∧ Readable s l n

/-- A place is given as a row of a table. -/
def isRow (l : Loc) : Bool :=
  match l with
  | .table _ _ _ => true
  | _ => false

/-- `n` bytes of a result of an operation go to a local place that is no row of a table, where no sector hinders them. -/
abbrev LandsAt (s : State) (o : Op) (lrn : Bool) (a n : Nat) (l : Loc) : Prop :=
  0 < n ∧ o.ref.ring.val ≠ 65 ∧ isRow (Loc.ofAddr a) = false ∧ placeHeld o.hold s o.d a n lrn = .here l ∧ outBad s l n = false

/-- The operation holds these pieces of its result, for the record to make visible (R278). -/
def HoldsOut (t : State) (r : OpRef) (l : List OutPiece) : Prop := ∃ x, findOp t r = some x ∧ x.out = l

/-- A multicast packet of the epoch in force is the next frame in order at a torus port, with nothing before it in its VC's buffer, and
goes on along its line (R211, R216, R219). -/
abbrev PassesLine (s : State) (p : Nat) (pk : Packet) : Prop :=
  p < 6 ∧ pk.hdr.mcast ≠ 0 ∧ pk.wire.taken = false ∧ halfState s p pk.wire.half = 4 ∧ inOrder s p pk.wire = true ∧ pk.wire.stomp = false
    ∧ bit pk.hdr.flags.toNat 2 = false ∧ heldFl s p pk.wire.half pk.hdr.vc.toNat = 0 ∧ 0 < vcCred s p pk.hdr.vc.toNat
    ∧ pk.hdr.epoch.toNat = fld (cfgOf s (RTE + 8)) 0 1

/-- Nothing at a torus port keeps a packet from being taken at once: its half is UP, it is the next frame in order and not marked as
failed, nothing stands before it in its VC's buffer, and it goes no further (R209, R211, R215, R216, R219). -/
abbrev Passes (s : State) (p : Nat) (pk : Packet) : Prop :=
  pk.wire.taken = false ∧ halfState s p pk.wire.half = 4 ∧ inOrder s p pk.wire = true ∧ pk.wire.stomp = false
    ∧ bit pk.hdr.flags.toNat 2 = false ∧ heldFl s p pk.wire.half pk.hdr.vc.toNat = 0 ∧ 0 < vcCred s p pk.hdr.vc.toNat
    ∧ (pk.hdr.mcast = 0 ∨ lineRoute s p pk = none)

/-- What the link has done with a packet taken at once: the next frame is expected, and the packet's flits are free again (R213, R216). -/
def LinkTook (s t : State) (p : Nat) (pk : Packet) : Prop :=
  let x := linkAt s p pk.wire.half
  t.links = mapSet s.links (linkKey p pk.wire.half) { x with
    lseqRx := x.lseqRx + 1, nakWait := false, freed := bvAdd x.freed pk.hdr.vc.toNat (flitsOf pk.hdr) }

/-- A torus packet of this class and OP reaches this chip by port `p`, under the epoch in force. -/
abbrev FromTorus (s : State) (p : Nat) (pk : Packet) (cls opc : Nat) : Prop :=
  p < 6 ∧ Passes s p pk ∧ pk.hdr.epoch.toNat = fld (cfgOf s (RTE + 8)) 0 1 ∧ (cls ≠ 4 → pk.hdr.dst.toNat = myCoord s)
    ∧ pk.hdr.cls.toNat = cls ∧ pk.hdr.op.toNat = opc

/-- A request of the torus reaches this chip after READY, and finds a request slot (R220). -/
abbrev Asked (s : State) (p : Nat) (pk : Packet) (opc : Nat) : Prop := FromTorus s p pk 0 opc ∧ isReady s = true ∧ slotFree s = true

/-- An answer of the torus finds the slot that waits for it, from the chip that was asked, in its known incarnation (R317). -/
abbrev Answers (s : State) (p : Nat) (pk : Packet) (opc : Nat) (q : Req) : Prop :=
  FromTorus s p pk 1 opc ∧ s.reqs.find? (fun q => q.optag == pk.hdr.optag && q.via == none) = some q
    ∧ q.inc = some pk.hdr.inc ∧ pk.hdr.src = q.dest

/-- The slots of all other tags, and no others. -/
def SlotGone (s t : State) (tag : BitVec 16) : Prop := t.reqs = s.reqs.filter fun q => q.optag != tag

/-- One packet went out into the torus after what had gone out before: an answer to `pk` on RSP. -/
def SentAnswer (s t : State) (pk : Packet) (opc addr len : Nat) (body : Body) : Prop :=
  ∃ h : Hdr, t.outs.tx = s.outs.tx ++ [⟨.fabric, .packet (.of h body), none⟩] ∧ h.cls = 1 ∧ h.op.toNat = opc
    ∧ h.dst = pk.hdr.src ∧ h.optag = pk.hdr.optag ∧ h.seq = pk.hdr.seq ∧ h.addr.toNat = addr ∧ h.len.toNat = len

/-- A refusal with this STATUS went out (R258). -/
def SentRefusal (s t : State) (pk : Packet) (status : Nat) : Prop :=
  SentAnswer s t pk (answerOp pk.hdr.op.toNat) status 0 .none

/-- One request slot was taken for the operation: its packet's OP, address and length, where it went and what it waits for. -/
def SlotTaken (s t : State) (op : Option OpRef) (via : Option Nat) (kind : ReqKind) (opc addr len : Nat) (body : Body) : Prop :=
  ∃ q : Req, t.reqs = s.reqs ++ [q] ∧ q.op = op ∧ q.via = via ∧ q.kind = kind ∧ q.pk.hdr.op.toNat = opc
    ∧ q.pk.hdr.addr = BitVec.ofNat 64 addr ∧ q.pk.hdr.len = BitVec.ofNat 13 len ∧ q.pk.body = body ∧ q.busy = false ∧ q.redirects = 0

/-- The tables are as they were, but for the mark that an inactive base has been written (R88). -/
def SameButTags (s t : State) : Prop :=
  t.tbl = { s.tbl with desc := t.tbl.desc }
    ∧ ∀ id, (tdGet t id).map (fun d => { d with inactNew := false }) = (tdGet s id).map fun d => { d with inactNew := false }

/-- Every other table is as it was. -/
def OtherTables (id : Nat) (s t : State) : Prop := ∀ j, j ≠ id → tdGet t j = tdGet s j

/-- The operation's program runs on the cell, and the sequencer that issues does not wait (R116, R118). -/
abbrev OnCell (s : State) (a : CellAt) (o : Op) : Prop :=
  runOf s a.cell.val = some o ∧ (cellAt s a.cell.val).waiting.getLsbD a.strm.val = false

/-- Every vector register but the listed ones of (cell, register) is as it was. -/
def VregBut (l : List (Nat × Nat)) (s t : State) : Prop :=
  ∀ c r, c < 32 → r < 64 → (c, r) ∉ l → vregGet t c r false = vregGet s c r false

/-- The first `n` tiles of a tiled tensor as the bench holds them, through their directory (R110). -/
def tilesAt (s : State) (c : Nat) (o : Op) (base dir n : Nat) : List (Option (List Nat)) :=
  (List.range n).map fun t =>
    let e := leAt (bytesAt s o.who (.bench c dir) (4 * n)) (4 * t) 4
    tileCodes e (bytesAt s o.who (.bench c (base + tileSlot * t)) (tileSpan e))

/-- The operand of an array instruction as the bench holds it (R103, R105, R110). -/
def operandOf (s : State) (c : Nat) (o : Op) (x : ArrOperand) (rows cols kdim : Nat) : OpData :=
  let b (off n : Nat) : List Byte := bytesAt s o.who (.bench c off) n
  match x.dir with
  | some dp => ⟨cols, x.fmt, [], none, some (tilesAt s c o x.base dp (tileCount rows cols))⟩
  | none => ⟨cols, x.fmt, b x.base (packBytes x.fmt (rows * cols)), x.scale.map fun p => b p ((rows * cols / max 1 kdim) * cdiv kdim 32), none⟩

/-- A fault of R118 or R137 stopped the run: cause and instruction are recorded and the operation ends CELL_FAULT. -/
def Faulted (s t : State) (a : CellAt) (o : Op) (cause : Nat) : Prop :=
  Ended t o.ref CELL_FAULT (a.cell.val + 256 * cause) ∧ regOf t (celW a.cell.val 0x20) = cause + 256 * a.strm.val
    ∧ regOf t (celW a.cell.val 0x24) = a.pc.toNat ∧ Released t o.ref ∧ OtherOps [o.ref] s t

/-- A vector instruction retired: VEC_INSTR counts it (R137). -/
def VecRetired (s t : State) (c : Nat) : Prop :=
  regOf t (celW c 0x110) + 2 ^ 32 * regOf t (celW c 0x114)
    = (regOf s (celW c 0x110) + 2 ^ 32 * regOf s (celW c 0x114) + 1) % 2 ^ 64

/-- The registers in which vector instructions count and keep flags: VEC_FLAGS and VEC_INSTR. -/
def vecRegs (c : Nat) : List Nat := [celW c 0x100, celW c 0x110, celW c 0x114]

/-- Elements of a well slot, all of it in the well and not in the extension. -/
def wellWord (s : State) (m : Mem) (slot e : Nat) : Nat := leNat (m.getN (4 * (slotBase s slot + e)) 4)

/-- A plain bucket of this chip stands whole in the well, its entry and its DEST apart in sound memory (Table 13.1), and no
operation but `r` is producing anything. -/
abbrev BucketAt (s : State) (r : OpRef) (g b dst : Nat) : Prop :=
  let e := bktSee s g b
  let n := max e.destB (4 * e.elems)
  e.thin = false ∧ e.slot < 1024 ∧ 0 < e.elems ∧ e.off + e.elems ≤ slotLen s e.slot ∧ Loc.ofAddr e.dest = .hbm dst
  ∧ dst + n ≤ hbmCap s ∧ (dst + n ≤ bktAddr s g b ∨ bktAddr s g b + 64 ≤ dst) ∧ HbmSound s ∧ s.sram = []
  ∧ grpZero s g = false ∧ Shown s (some r)

/-- One bucket is under way here, in its first phase with nothing received, and no packet waits. -/
abbrev OneBucket (s : State) (x : ColBk) : Prop :=
  s.col.bk = [x] ∧ x.stage = 0 ∧ x.done = false ∧ x.halves = [] ∧ x.vecs = [] ∧ x.res = [] ∧ x.accs = [(0, pfxZero)]
  ∧ s.col.held = [] ∧ 0 < (grpPhases s x.g).length ∧ s.col.seen.any (fun y => y.1 == x.g && y.2.1 == x.step) = true

/-- A COL packet of an open group reaches this chip for a bucket. -/
abbrev FromRing (s : State) (p : Nat) (pk : Packet) (opc : Nat) (key : ColKey) : Prop :=
  FromTorus s p pk 4 opc ∧ keyOf s pk = key ∧ grpValid s key.g = true ∧ groupLost s key.g = false ∧ key.b < grpBuckets s key.g

/-- A frame of this class leaves an open half at once: it is UP, and its priority is neither paused nor in a storm. -/
abbrev OpenSends (s : State) (p : Nat) (half : Bool) (cls : Nat) : Prop :=
  halfState s p half = UP ∧ ∀ x, mapGet s.links (2 * p + b2n half) = some x →
    x.storm.contains (openPrio s p cls) = false ∧ (x.paused.any fun y => y.1 == openPrio s p cls) = false

/-- A frame of this priority finds room in the receive buffer of an open port half (R206). -/
abbrev RxRoom (s : State) (p : Nat) (half : Bool) (q : Nat) : Prop :=
  bit (regOf s (fabW p 0x58)) q = true ∨ (linkAt s p half).fill.getD q 0 + 4198 ≤ rxCap s p

/-- The queue pair is in service and its frames leave at once. -/
abbrev QpServes (s : State) (q : Nat) : Prop :=
  bit (regOf s SVC) 1 = true ∧ bit (regOf s (qpW q 0)) 0 = true ∧ qpState s q = 1
  ∧ OpenSends s (6 + b2n (bit (regOf s (qpW q 0)) 1)) (bit (regOf s (qpW q 0)) 2) 5

/-- What an open port sends, in its frame (R204). -/
def openTx (s : State) (p : Nat) (half : Bool) (cls : Nat) (d : TxTo) (m : TxMsg) : Tx := ⟨d, m, some (openEth s p half cls d m)⟩

/-- A frame of the queue pair, as it stands among what the chip sends. -/
def qpFrame (s : State) (q : Nat) (m : TxMsg) : Tx :=
  let p := 6 + b2n (bit (regOf s (qpW q 0)) 1)
  let half := bit (regOf s (qpW q 0)) 2
  openTx s p half 5 (.link p half) m

/-- What left the chip, after PFC frames of a port half that took a frame in (R206). -/
def SentAfterPfc (s t : State) (p : Nat) (half : Bool) (l : List Tx) : Prop :=
  ∃ f : List Tx, t.outs.tx = s.outs.tx ++ f ++ l ∧ ∀ x ∈ f, ∃ q v, x = openTx s p half 5 (.link p half) (.pfc q v)

/-- The port half of a queue pair sent these frames, after PFC frames of its own. -/
def QpSent (s t : State) (q : Nat) (l : List Tx) : Prop :=
  SentAfterPfc s t (6 + b2n (bit (regOf s (qpW q 0)) 1)) (bit (regOf s (qpW q 0)) 2) l

/-- What a half of a torus port sends, in its frame. -/
def torusTx (s : State) (p : Nat) (half : Bool) (m : TxMsg) : Tx := ⟨.link p half, m, some (torusEth s p)⟩

/-- The PSN a queue pair expects. -/
def qpPsn (s : State) (q : Nat) : BitVec 24 := BitVec.ofNat 24 (regOf s (qpW q 2))

/-- A request packet of the queue pair's partner, without a mark, to a queue pair that is served and has room for it. -/
abbrev FromPartner (s : State) (q : Nat) (k : RocePkt) : Prop :=
  QpServes s q ∧ k.srcIp.toNat = qpAddr s q ∧ k.ce = false ∧ k.absent = false
    ∧ RxRoom s (6 + b2n (bit (regOf s (qpW q 0)) 1)) (bit (regOf s (qpW q 0)) 2) (prioOf k.prio)

/-- HD0's host is present, so the steward's commands count (R7). -/
abbrev Steward (s : State) : Prop := s.hosts.present.getLsbD 0 = true

/-- A vector of a domain was signalled, and nothing else left the chip. -/
def Signalled (s t : State) (d vec : Nat) : Prop := t.outs = { s.outs with msi := s.outs.msi ++ [(d, vec)] }

/-- One fault record of this class about this unit was taken: into the log, or while Crown is away among the records held
(R325). -/
def Noted (s t : State) (cls kind unit : Nat) : Prop :=
  ∃ r : FltRec, r.cls = cls ∧ r.unitKind = kind ∧ r.unit = unit ∧
    if crownUp s then t.crown.log = (s.crown.log ++ [r]).drop (s.crown.log.length + 1 - 4096)
    else t.crown.held = s.crown.held ++ [r]

/-- Registers that a fault record writes. -/
def noteRegs : List Nat := [FLT_SUMMARY, FLT_LOG_PROD, FLT_LOG_LOST]

/-- A register whose change at a commit has no effect besides the register's. -/
def plainReg (a : Nat) : Bool :=
  !(decide (FAB ≤ a ∧ a < FAB + 0x40000) || decide (LPE ≤ a ∧ a < LPE + 0x10000) || decide (SVC ≤ a ∧ a < SVC + 0x60000)
    || a == RTE + 8 || a == CLK + 0x20 || [0, 1, 2, 3].any fun d => a == hdmW d 0x50)

/-- A shared register that a write acts through. -/
def actionReg (a : Nat) : Bool :=
  [CLB, CLB + 0x1C, CLB_LOG_CONS, FLT_SUMMARY, RTE + 0x304, CRN + 4, CRN + 0x20].contains a || decide (RST + 0x10 ≤ a ∧ a < RST + 0x40)
    || (match inArr a (SVC + 0x20000) 32 4096 with | some (_, b) => b == 0 | none => false)

/-- Every RWL register but MEM_MAPOUT_REQ holds its reset value, as at a bring-up (R293). -/
def Unconfigured (s : State) : Prop :=
  ∀ a, rwlFlds a ≠ [] → ¬(MEM + 0x3010 ≤ a ∧ a < MEM + 0x3030) → regOf s a = resetOf a

/-- A host domain is as a reset leaves it (Table 17.4): its private registers, its escapements, its records and its
incarnation. -/
def DomainCleared (s t : State) (d : Nat) : Prop :=
  (∀ a, a < 0x4000000 → privOf t d a = resetOf a)
  ∧ (∀ i, escIn s d i = true → EscWasReset (escAt s i) (escAt t i))
  ∧ (∀ r ∈ t.recorded, r.dom.val ≠ d) ∧ t.hosts.resetDom.getLsbD d = true
  ∧ incOf t (296 + d) = (incOf s (296 + d) + 1) % 256

/-- Nothing of the domain is under way: no operation, no collective of a group it owns, and no transaction of the steward's. -/
abbrev DomainQuiet (s : State) (d : Nat) : Prop :=
  (∀ o ∈ s.ops, o.d ≠ d) ∧ (∀ g, g < 4 → grpOwner s g = d → groupOpen s g = false) ∧ (d = 0 → s.clb.st ≠ .open)

/-! ### The footprint of each command -/

/-- The parts of the state that a command may change, through every case of it: what its own effect writes, what the end of
an operation writes, and what the records and reports it can raise write. -/
def footprint : Instr → List Part
  | .nop .. => [.hbm, .bench, .well, .host, .ops, .reqs, .cells]
  | .sample .. => [.regs, .hbm, .bench, .well, .host, .ecc, .ops, .reqs, .outs, .hosts, .tbl, .sac, .cells, .rte, .crown]
  | .gather .. => [.regs, .hbm, .bench, .well, .host, .ecc, .ops, .reqs, .outs, .hosts, .tbl, .sac, .cells, .rte, .crown]
  | .pool .. => [.regs, .hbm, .bench, .well, .host, .ecc, .ops, .reqs, .outs, .hosts, .tbl, .sac, .cells, .rte, .crown]
  | .scatterAdd .. => [.regs, .hbm, .bench, .well, .host, .ecc, .ops, .reqs, .outs, .hosts, .tbl, .sac, .cells, .lpe, .rte, .crown]
  | .cellRun .. => [.regs, .hbm, .bench, .well, .host, .ecc, .sram, .ops, .reqs, .outs, .hosts, .tbl, .cells, .rte, .crown]
  | .update .. => [.regs, .hbm, .bench, .well, .host, .ecc, .ops, .reqs, .outs, .hosts, .tbl, .cells, .lpe, .rte, .crown]
  | .reduceScatter .. => [.regs, .hbm, .bench, .well, .host, .ecc, .sram, .ops, .reqs, .outs, .hosts, .cells, .lpe, .col, .rte, .crown]
  | .allGather .. => [.regs, .hbm, .bench, .well, .host, .ecc, .sram, .ops, .reqs, .outs, .hosts, .tbl, .cells, .lpe, .col, .rte, .crown]
  | .copy .. => [.regs, .hbm, .bench, .well, .host, .ecc, .ops, .reqs, .outs, .hosts, .tbl, .cells, .rte, .crown]
  | .peerXferRead .. => [.ops, .reqs, .outs, .rte, .links, .peers]
  | .peerXferWrite .. => [.regs, .hbm, .bench, .well, .host, .ecc, .ops, .reqs, .outs, .hosts, .tbl, .cells, .rte, .links, .peers, .crown]
  | .peerXferPool .. => [.regs, .hbm, .bench, .well, .host, .ecc, .ops, .reqs, .outs, .hosts, .tbl, .cells, .rte, .links, .peers, .crown]
  | .define .. => [.regs, .hbm, .bench, .well, .host, .ecc, .ops, .reqs, .outs, .hosts, .tbl, .cells, .rte, .crown]
  | .setInactive .. => [.hbm, .bench, .well, .host, .ops, .reqs, .tbl, .cells]
  | .inactiveBaseReplace .. => [.hbm, .bench, .well, .host, .ops, .reqs, .tbl, .cells]
  | .flip .. => [.regs, .priv, .hbm, .bench, .well, .host, .esc, .ops, .reqs, .outs, .hosts, .tbl, .cells, .schDue, .lpe]
  | .release .. => [.regs, .hbm, .bench, .well, .host, .ops, .reqs, .outs, .tbl, .cells, .rte]
  | .releaseFree .. => [.regs, .hbm, .bench, .well, .host, .ops, .reqs, .outs, .tbl, .cells, .rte]
  | .migrate .. => [.regs, .hbm, .bench, .well, .host, .ops, .reqs, .outs, .tbl, .cells, .rte]
  | .stashOpen .. => [.regs, .hbm, .bench, .well, .host, .ecc, .ops, .reqs, .outs, .hosts, .cells, .stash, .crown]
  | .stashRelease .. => [.hbm, .bench, .well, .host, .ops, .reqs, .cells, .stash]
  | .wellClear .. => [.regs, .hbm, .bench, .well, .host, .ecc, .sram, .ops, .reqs, .outs, .hosts, .cells, .crown]
  | .escCtlAdd .. => [.regs, .priv, .hbm, .bench, .well, .host, .sram, .esc, .ops, .reqs, .outs, .hosts, .cells, .schDue, .lpe, .crown]
  | .escCtlArm .. => [.regs, .priv, .hbm, .bench, .well, .host, .sram, .esc, .ops, .reqs, .outs, .hosts, .cells, .schDue, .lpe, .crown]
  | .escCtlReset .. => [.regs, .priv, .hbm, .bench, .well, .host, .sram, .esc, .ops, .reqs, .outs, .hosts, .cells, .schDue, .lpe, .crown]
  | .escCtlNotify .. => [.regs, .priv, .hbm, .bench, .well, .host, .sram, .esc, .ops, .reqs, .outs, .hosts, .cells, .schDue, .lpe, .crown]
  | .abort .. => [.priv, .hbm, .bench, .well, .host, .ops, .marks, .reqs, .cells]
  | .kxGather .. => [.regs, .hbm, .bench, .well, .host, .ecc, .ops, .reqs, .outs, .hosts, .tbl, .sac, .cells, .rte, .crown]
  | .kxPool .. => [.regs, .hbm, .bench, .well, .host, .ecc, .ops, .reqs, .outs, .hosts, .tbl, .sac, .cells, .rte, .crown]
  | .kxScatterAdd .. => [.regs, .hbm, .bench, .well, .host, .ecc, .ops, .reqs, .outs, .hosts, .tbl, .sac, .cells, .lpe, .rte, .crown]
  | .prodWrite .. => [.regs, .priv, .hbm, .bench, .well, .host, .ecc, .sram, .esc, .ops, .marks, .reqs, .outs, .hosts, .tbl, .cells, .col, .crown]
  | .ringEnable .. => [.regs, .priv, .recorded, .marks, .clb]
  | .kxDoorbellWrite .. => [.regs, .priv, .hbm, .bench, .well, .host, .ecc, .sram, .ops, .reqs, .outs, .hosts, .tbl, .cells, .col, .crown]
  | .waitRelease .. => [.regs, .priv, .hbm, .bench, .well, .host, .ecc, .sram, .esc, .ops, .marks, .reqs, .outs, .hosts, .tbl, .cells, .col, .crown]
  | .admitWaiter .. => [.regs, .priv, .hbm, .bench, .well, .host, .ecc, .sram, .esc, .ops, .marks, .reqs, .outs, .hosts, .tbl, .cells, .col, .crown]
  | .operationComplete .. => [.regs, .priv, .hbm, .bench, .well, .host, .ecc, .sram, .esc, .ops, .recorded, .marks, .reqs, .outs, .hosts, .tbl, .sac, .cells, .schDue, .lpe, .col, .rte, .links, .peers, .qps, .crown]
  | .escCmdAdd .. => [.regs, .priv, .hbm, .bench, .well, .host, .sram, .esc, .ops, .reqs, .outs, .hosts, .cells, .schDue, .lpe, .crown]
  | .escCmdArm .. => [.regs, .priv, .hbm, .bench, .well, .host, .sram, .esc, .ops, .reqs, .outs, .hosts, .cells, .schDue, .lpe, .crown]
  | .escCmdReset .. => [.regs, .priv, .hbm, .bench, .well, .host, .sram, .esc, .ops, .reqs, .outs, .hosts, .cells, .schDue, .lpe, .crown]
  | .escCmdDiscard .. => [.regs]
  | .phaseCommit .. => [.regs, .priv, .hbm, .bench, .well, .host, .sram, .esc, .ops, .reqs, .outs, .hosts, .tbl, .cells, .schDue, .lpe, .crown]
  | .catchUpPass .. => [.regs, .priv, .hbm, .bench, .well, .host, .ecc, .sram, .esc, .ops, .reqs, .outs, .hosts, .tbl, .sac, .cells, .schDue, .lpe, .rte, .links, .peers, .crown]
  | .txnBegin .. => [.shadow, .outs, .clb]
  | .txnCommit .. => [.regs, .shadow, .outs, .hosts, .clb, .crown]
  | .txnAbort .. => [.shadow, .outs, .clb]
  | .txnIdleTimeout => [.shadow, .outs, .clb]
  | .quietPoint => [.regs, .priv, .shadow, .hbm, .bench, .well, .host, .ecc, .sram, .esc, .ops, .marks, .reqs, .outs, .hosts, .tbl, .sac, .cells, .schDue, .lpe, .col, .rte, .links, .peers, .qps, .clb, .crown]
  | .rwlWrite .. => [.time, .regs, .priv, .shadow, .hbm, .bench, .well, .host, .vreg, .ecc, .sram, .esc, .ops, .recorded, .marks, .reqs, .outs, .hosts, .tbl, .sac, .cells, .stash, .schDue, .lpe, .col, .rte, .links, .peers, .qps, .clb, .crown]
  | .clbImgGo .. => [.regs, .shadow, .hbm, .ecc, .reqs, .outs, .hosts, .tbl, .rte, .clb, .crown]
  | .registerWrite .. => [.time, .regs, .priv, .shadow, .hbm, .bench, .well, .host, .vreg, .ecc, .sram, .esc, .ops, .recorded, .marks, .reqs, .outs, .hosts, .tbl, .sac, .cells, .stash, .schDue, .lpe, .col, .rte, .links, .peers, .qps, .clb, .crown]
  | .bar0BadAccess .. => [.regs]
  | .bar2Read .. => [.regs, .priv, .ecc, .outs]
  | .bar2Write .. => [.regs, .priv, .hbm, .ecc, .outs, .hosts, .tbl, .crown]
  | .qpContextApply .. => [.regs, .priv, .hbm, .bench, .well, .host, .sram, .esc, .ops, .reqs, .outs, .hosts, .cells, .schDue, .lpe, .qps, .crown]
  | .rteFaultClear .. => [.regs]
  | .rstCell .. => [.regs, .hbm, .bench, .well, .host, .sram, .ops, .reqs, .outs, .hosts, .cells, .crown]
  | .rstCh .. => [.regs, .ecc, .outs, .hosts, .crown]
  | .rstPort .. => [.regs, .priv, .hbm, .bench, .well, .host, .sram, .esc, .ops, .reqs, .outs, .hosts, .tbl, .sac, .cells, .schDue, .lpe, .col, .rte, .links, .peers, .qps, .clb, .crown]
  | .rstDomain .. => [.regs, .priv, .shadow, .hbm, .bench, .well, .host, .ecc, .sram, .esc, .ops, .recorded, .marks, .reqs, .outs, .hosts, .tbl, .sac, .cells, .schDue, .lpe, .col, .rte, .links, .peers, .qps, .clb, .crown]
  | .warmChipReset .. => [.time, .regs, .priv, .shadow, .hbm, .bench, .well, .host, .vreg, .ecc, .sram, .esc, .ops, .recorded, .marks, .reqs, .outs, .hosts, .tbl, .sac, .cells, .stash, .schDue, .lpe, .col, .rte, .links, .peers, .qps, .clb, .crown]
  | .coldChipReset .. => [.time, .regs, .priv, .shadow, .bench, .well, .vreg, .ecc, .sram, .esc, .ops, .recorded, .marks, .reqs, .outs, .hosts, .tbl, .sac, .cells, .stash, .schDue, .lpe, .col, .rte, .links, .peers, .qps, .clb, .crown]
  | .perst .. => [.regs, .priv, .shadow, .hbm, .bench, .well, .host, .ecc, .sram, .esc, .ops, .recorded, .marks, .reqs, .outs, .hosts, .tbl, .sac, .cells, .schDue, .lpe, .col, .rte, .links, .peers, .qps, .clb, .crown]
  | .functionLevelReset .. => [.regs, .priv, .shadow, .hbm, .bench, .well, .host, .ecc, .sram, .esc, .ops, .recorded, .marks, .reqs, .outs, .hosts, .tbl, .sac, .cells, .schDue, .lpe, .col, .rte, .links, .peers, .qps, .clb, .crown]
  | .pwrgdRise .. => [.regs, .crown]
  | .pwrgdFall => [.time, .regs, .priv, .shadow, .bench, .well, .vreg, .ecc, .sram, .esc, .ops, .recorded, .marks, .reqs, .outs, .hosts, .tbl, .sac, .cells, .stash, .schDue, .lpe, .col, .rte, .links, .peers, .qps, .clb, .crown]
  | .pllLock => [.regs]
  | .pllUnlock => [.time, .regs, .priv, .shadow, .hbm, .bench, .well, .host, .vreg, .ecc, .sram, .esc, .ops, .recorded, .marks, .reqs, .outs, .hosts, .tbl, .sac, .cells, .stash, .schDue, .lpe, .col, .rte, .links, .peers, .qps, .clb, .crown]
  | .crownBoot .. => [.regs, .shadow, .hbm, .ecc, .reqs, .outs, .hosts, .tbl, .rte, .clb, .crown]
  | .hbmChannelTest .. => [.regs, .hbm, .ecc, .outs, .hosts, .crown]
  | .ageingMeasurement .. => [.outs, .crown]
  | .setpointTimeout => [.regs, .outs, .hosts, .crown]
  | .calibreLoad .. => [.regs, .priv, .shadow, .hbm, .bench, .well, .host, .ecc, .sram, .esc, .ops, .marks, .reqs, .outs, .hosts, .tbl, .sac, .cells, .schDue, .lpe, .col, .rte, .links, .peers, .qps, .clb, .crown]
  | .ready => [.regs, .priv, .hbm, .bench, .well, .host, .ecc, .sram, .esc, .ops, .marks, .reqs, .outs, .hosts, .tbl, .cells, .col, .crown]
  | .stepMark => [.regs]
  | .rackRefLock => [.regs]
  | .thermTrip => [.time, .regs, .priv, .shadow, .bench, .well, .vreg, .ecc, .sram, .esc, .ops, .recorded, .marks, .reqs, .outs, .hosts, .tbl, .sac, .cells, .stash, .schDue, .lpe, .col, .rte, .links, .peers, .qps, .clb, .crown]
  | .hwForcedThrottle => [.regs, .outs, .hosts, .crown]
  | .sensorRead .. => [.regs, .outs, .hosts, .crown]
  | .throttleAdjust => [.regs, .outs, .hosts, .crown]
  | .crownRestart .. => [.regs, .reqs, .crown]
  | .crownWatchdog => [.regs, .reqs, .crown]
  | .bootRetry .. => [.regs, .shadow, .hbm, .ecc, .reqs, .outs, .hosts, .tbl, .rte, .clb, .crown]
  | .fwStage .. => [.regs, .ecc, .reqs, .outs, .hosts, .tbl, .rte, .crown]
  | .ageMeasure .. => [.regs, .outs, .crown]
  | .faultLogFlashWrite => [.crown]
  | .smbusStatus => [.outs]
  | .smbusTj => [.outs]
  | .smbusSensor .. => [.outs]
  | .logProd => [.outs]
  | .logRead .. => [.outs]
  | .setpointAck .. => [.regs, .outs, .hosts, .crown]
  | .arrayInstruction .. => [.regs, .hbm, .bench, .well, .host, .sram, .ops, .reqs, .outs, .hosts, .cells, .lpe, .crown]
  | .wgrad .. => [.regs, .hbm, .bench, .well, .host, .ecc, .sram, .ops, .reqs, .outs, .hosts, .cells, .crown]
  | .wellAdd .. => [.regs, .hbm, .bench, .well, .host, .ecc, .sram, .ops, .reqs, .outs, .hosts, .cells, .crown]
  | .stashStore .. => [.regs, .hbm, .bench, .well, .host, .ecc, .sram, .ops, .reqs, .outs, .hosts, .cells, .lpe, .crown]
  | .stashTest .. => [.regs, .hbm, .bench, .well, .host, .ecc, .ops, .reqs, .outs, .hosts, .cells, .crown]
  | .stashLoad .. => [.regs, .hbm, .bench, .well, .host, .ecc, .sram, .ops, .reqs, .outs, .hosts, .cells, .crown]
  | .vectorArithmetic .. => [.regs, .hbm, .bench, .well, .host, .vreg, .ops, .reqs, .outs, .hosts, .cells, .crown]
  | .conversion .. => [.regs, .hbm, .bench, .well, .host, .vreg, .ops, .reqs, .cells]
  | .transcendental .. => [.regs, .hbm, .bench, .well, .host, .vreg, .ops, .reqs, .cells]
  | .reduction .. => [.regs, .hbm, .bench, .well, .host, .vreg, .ops, .reqs, .outs, .hosts, .cells, .crown]
  | .accumulatorRead .. => [.regs, .hbm, .bench, .well, .host, .vreg, .ops, .reqs, .cells]
  | .contiguousLoadStore .. => [.regs, .hbm, .bench, .well, .host, .vreg, .sram, .ops, .reqs, .outs, .hosts, .cells, .lpe, .crown]
  | .benchGather .. => [.regs, .hbm, .bench, .well, .host, .vreg, .sram, .ops, .reqs, .outs, .hosts, .cells, .crown]
  | .benchScatter .. => [.regs, .hbm, .bench, .well, .host, .sram, .ops, .reqs, .cells, .lpe]
  | .benchScatterAdd .. => [.regs, .hbm, .bench, .well, .host, .sram, .ops, .reqs, .outs, .hosts, .cells, .lpe, .crown]
  | .cellEscapementOp .. => [.regs, .priv, .hbm, .bench, .well, .host, .sram, .esc, .ops, .reqs, .outs, .hosts, .cells, .schDue, .lpe, .crown]
  | .uitHoldExpiry => [.sac]
  | .regulatorRecompute .. => [.regs, .ops, .schDue]
  | .loupeLatch .. => [.regs, .priv, .hbm, .ecc, .outs, .hosts, .lpe, .crown]
  | .patrolScrub => [.regs, .ecc, .outs, .hosts, .crown]
  | .sramScrub => [.time, .regs, .priv, .shadow, .hbm, .bench, .well, .host, .vreg, .ecc, .sram, .esc, .ops, .recorded, .marks, .reqs, .outs, .hosts, .tbl, .sac, .cells, .stash, .schDue, .lpe, .col, .rte, .links, .peers, .qps, .clb, .crown]
  | .linkAligned .. => [.regs, .links]
  | .trainingTimeout .. => [.regs, .outs, .hosts, .links, .crown]
  | .trainingRetry .. => [.regs, .links]
  | .alignmentLoss .. => [.regs, .priv, .hbm, .bench, .well, .host, .sram, .esc, .ops, .reqs, .outs, .hosts, .tbl, .sac, .cells, .schDue, .lpe, .col, .rte, .links, .peers, .qps, .clb, .crown]
  | .helloSend .. => [.outs, .links]
  | .hello .. => [.regs, .priv, .hbm, .bench, .well, .host, .sram, .esc, .ops, .reqs, .outs, .hosts, .tbl, .sac, .cells, .schDue, .lpe, .col, .rte, .links, .peers, .qps, .clb, .crown]
  | .discoveryTimeout .. => [.regs]
  | .adoption => [.regs, .outs, .hosts, .clb, .crown]
  | .linkControlFrame .. => [.regs, .priv, .hbm, .bench, .well, .host, .sram, .esc, .ops, .reqs, .outs, .hosts, .tbl, .sac, .cells, .schDue, .lpe, .col, .rte, .links, .peers, .qps, .clb, .crown]
  | .lcfSend .. => [.regs, .priv, .hbm, .bench, .well, .host, .sram, .esc, .ops, .reqs, .outs, .hosts, .tbl, .sac, .cells, .schDue, .lpe, .col, .rte, .links, .peers, .qps, .clb, .crown]
  | .llrAckTimeout .. => [.regs, .priv, .hbm, .bench, .well, .host, .sram, .esc, .ops, .reqs, .outs, .hosts, .tbl, .sac, .cells, .schDue, .lpe, .col, .rte, .links, .peers, .qps, .clb, .crown]
  | .badHeaderFrame .. => [.regs, .outs, .links]
  | .routePacket .. => [.regs, .priv, .hbm, .bench, .well, .host, .sram, .esc, .ops, .reqs, .outs, .hosts, .tbl, .sac, .cells, .schDue, .lpe, .col, .rte, .links, .peers, .qps, .clb, .crown]
  | .fault .. => [.regs, .priv, .hbm, .bench, .well, .host, .sram, .esc, .ops, .reqs, .outs, .hosts, .tbl, .sac, .cells, .schDue, .lpe, .col, .rte, .links, .peers, .qps, .clb, .crown]
  | .load .. => [.regs, .outs, .tbl, .rte, .links]
  | .loadWindow => [.regs, .hbm, .bench, .well, .host, .ops, .reqs, .outs, .tbl, .cells, .rte]
  | .publish .. => [.regs, .outs, .tbl, .rte, .links]
  | .guestGraceExpiry .. => [.tbl]
  | .timeSend .. => [.outs, .links]
  | .time .. => [.time, .regs, .outs, .rte, .links]
  | .write .. => [.regs, .priv, .hbm, .ecc, .sram, .esc, .reqs, .outs, .hosts, .tbl, .schDue, .lpe, .rte, .links, .peers, .crown]
  | .read .. => [.regs, .ecc, .reqs, .outs, .hosts, .tbl, .rte, .links, .peers, .crown]
  | .sampleRequest .. => [.regs, .ecc, .outs, .hosts, .rte, .links, .peers, .crown]
  | .poolRequest .. => [.regs, .ecc, .reqs, .outs, .hosts, .tbl, .rte, .links, .peers, .crown]
  | .contrib .. => [.regs, .hbm, .bench, .well, .host, .ecc, .ops, .reqs, .outs, .hosts, .tbl, .sac, .cells, .rte, .links, .peers, .crown]
  | .mig .. => [.regs, .priv, .hbm, .bench, .well, .host, .ecc, .sram, .esc, .ops, .reqs, .outs, .hosts, .tbl, .sac, .cells, .schDue, .lpe, .rte, .links, .peers, .crown]
  | .rowUpd .. => [.regs, .hbm, .bench, .well, .ecc, .outs, .hosts, .tbl, .lpe, .rte, .links, .peers, .crown]
  | .fwd .. => [.regs, .priv, .hbm, .bench, .well, .host, .ecc, .sram, .esc, .ops, .reqs, .outs, .hosts, .tbl, .sac, .cells, .schDue, .lpe, .rte, .links, .peers, .crown]
  | .writeAck .. => [.regs, .priv, .hbm, .bench, .well, .host, .sram, .esc, .ops, .reqs, .outs, .hosts, .tbl, .sac, .cells, .schDue, .lpe, .rte, .links, .peers, .qps, .clb, .crown]
  | .readData .. => [.regs, .priv, .shadow, .hbm, .bench, .well, .host, .ecc, .sram, .esc, .ops, .reqs, .outs, .hosts, .tbl, .sac, .cells, .schDue, .lpe, .rte, .links, .peers, .qps, .clb, .crown]
  | .sampleRsp .. => [.regs, .priv, .hbm, .bench, .well, .host, .ecc, .sram, .esc, .ops, .reqs, .outs, .hosts, .tbl, .sac, .cells, .schDue, .lpe, .rte, .links, .peers, .qps, .clb, .crown]
  | .poolRsp .. => [.regs, .priv, .hbm, .bench, .well, .host, .ecc, .sram, .esc, .ops, .reqs, .outs, .hosts, .tbl, .sac, .cells, .schDue, .lpe, .rte, .links, .peers, .qps, .clb, .crown]
  | .contribAck .. => [.regs, .priv, .hbm, .bench, .well, .host, .ecc, .sram, .esc, .ops, .reqs, .outs, .hosts, .tbl, .sac, .cells, .schDue, .lpe, .rte, .links, .peers, .qps, .clb, .crown]
  | .migAck .. => [.regs, .priv, .hbm, .bench, .well, .host, .ecc, .sram, .esc, .ops, .reqs, .outs, .hosts, .tbl, .sac, .cells, .schDue, .lpe, .rte, .links, .peers, .qps, .clb, .crown]
  | .redirect .. => [.regs, .priv, .hbm, .bench, .well, .host, .sram, .esc, .ops, .reqs, .outs, .hosts, .tbl, .sac, .cells, .schDue, .lpe, .rte, .links, .peers, .qps, .clb, .crown]
  | .busyReissue .. => [.reqs, .outs]
  | .sampleRemoteTimeout .. => [.hbm, .bench, .well, .host, .ops, .reqs, .cells]
  | .poolRemoteTimeout .. => [.hbm, .bench, .well, .host, .ops, .reqs, .cells]
  | .contribAckTimeout .. => [.hbm, .bench, .well, .host, .ops, .reqs, .sac, .cells]
  | .stitch .. => [.regs, .hbm, .bench, .well, .host, .ecc, .sram, .ops, .reqs, .outs, .hosts, .cells, .lpe, .col, .rte, .links, .crown]
  | .grant .. => [.regs, .hbm, .bench, .well, .host, .ecc, .sram, .ops, .reqs, .outs, .hosts, .cells, .lpe, .col, .rte, .links, .crown]
  | .colGather .. => [.regs, .hbm, .bench, .well, .host, .ecc, .sram, .ops, .reqs, .outs, .hosts, .tbl, .cells, .lpe, .col, .rte, .links, .crown]
  | .verdict .. => [.regs, .ops, .outs, .col, .rte, .links]
  | .stragglerDeadline .. => [.regs, .hbm, .bench, .well, .host, .ecc, .sram, .ops, .reqs, .outs, .hosts, .cells, .lpe, .col, .rte, .crown]
  | .colTimeout .. => [.regs, .priv, .hbm, .bench, .well, .host, .sram, .esc, .ops, .reqs, .outs, .hosts, .tbl, .sac, .cells, .schDue, .lpe, .col, .rte, .links, .peers, .qps, .clb, .crown]
  | .oldClear => [.regs]
  | .unacceptedFrame .. => [.regs]
  | .pfcFrame .. => [.outs, .links]
  | .pfcXoffRepeat .. => [.outs, .links]
  | .pfcWatchdog .. => [.regs, .links]
  | .ecnFlagTimer .. => [.outs, .links, .peers]
  | .ecnRateRaise .. => [.peers]
  | .arp .. => [.regs, .outs, .links]
  | .neighbourSolicitation .. => [.regs, .outs, .links]
  | .echoRequest .. => [.regs, .outs, .links]
  | .peerHelloSend .. => [.regs, .outs, .links, .peers]
  | .peerHello .. => [.regs, .priv, .hbm, .bench, .well, .host, .sram, .esc, .ops, .reqs, .outs, .hosts, .tbl, .sac, .cells, .schDue, .lpe, .rte, .links, .peers, .qps, .clb, .crown]
  | .peerDown .. => [.regs, .priv, .hbm, .bench, .well, .host, .sram, .esc, .ops, .reqs, .outs, .hosts, .tbl, .sac, .cells, .schDue, .lpe, .rte, .links, .peers, .qps, .clb, .crown]
  | .e2eAck .. => [.regs, .outs, .rte, .links, .peers]
  | .e2eRetransmit .. => [.regs, .priv, .hbm, .bench, .well, .host, .sram, .esc, .ops, .reqs, .outs, .hosts, .tbl, .sac, .cells, .schDue, .lpe, .rte, .links, .peers, .qps, .clb, .crown]
  | .dedupKeyExpiry .. => [.peers]
  | .rdmaWrite .. => [.regs, .priv, .hbm, .bench, .well, .host, .ecc, .sram, .esc, .ops, .reqs, .outs, .hosts, .cells, .schDue, .lpe, .rte, .links, .qps, .crown]
  | .rdmaRead .. => [.regs, .priv, .hbm, .bench, .well, .host, .ecc, .sram, .esc, .ops, .reqs, .outs, .hosts, .cells, .schDue, .lpe, .rte, .links, .qps, .crown]
  | .send .. => [.regs, .priv, .hbm, .bench, .well, .host, .ecc, .sram, .esc, .ops, .reqs, .outs, .hosts, .tbl, .cells, .schDue, .lpe, .col, .links, .qps, .crown]
  | .cnp .. => [.qps]
  | .roceAck .. => [.outs, .links, .qps]
  | .answerRetransmit .. => [.regs, .priv, .hbm, .bench, .well, .host, .sram, .esc, .ops, .reqs, .outs, .hosts, .cells, .schDue, .lpe, .links, .qps, .crown]
  | .verdictWaitTimeout .. => [.hbm, .bench, .well, .host, .ops, .reqs, .cells]
  | .stackTempThreshold .. => [.regs]
  | .pfcPauseExpiry .. => [.outs, .links]
  | .rackRefLoss => [.regs]
  | .pcieLinkUp .. => [.hosts]
  | .pllLockTimeout => [.regs, .outs, .hosts, .crown]
  | .uncorrectableCodeword .. => [.regs, .outs, .links]
  | .stompedFrame .. => [.regs, .outs, .links]
  | .resetComplete .. => [.hosts, .cells]
  | .migReplyTimeout .. => [.regs, .hbm, .bench, .well, .host, .ops, .reqs, .outs, .tbl, .cells, .rte]

end Sys2Proof
end

