-- ==== Sys2Proof/Certificates/Slice0/Obligations.lean ====
section
/-! DEFINITION. The statements for the provers. Each says what a command does in a case given by conditions on the state
and the operands alone; its docstring names the rules of the spec it formalises, or says that it is the model's choice. -/

section

open Sys2Proof Sys2Proof.Machine

/-! ### The queue and the machine as a whole -/

/-- The step on a queue that is not empty is the meaning of its front command on the state with the queue's rest. -/
def Obligations.StepRunsTheFrontCommand : Prop :=
  ∀ (c : Instr) (rest : List Instr) (s : State), s.pending = c :: rest → step s = exec c { s with pending := rest }

/-- No command faults or is refused, and none touches the queue. Every command changes only the parts of the state that its row of
`footprint` lists. The model's choice of log entry 9: on an empty queue one nanosecond of TS passes and nothing else changes. -/
def Obligations.EveryStepStaysInItsFootprint : Prop :=
  (∀ (c : Instr) (s : State), Runs c s fun t => t.pending = s.pending)
  ∧ (∀ (c : Instr) (s : State), Runs c s fun t => OnlyParts (footprint c) s t)
  ∧ (∀ s : State, s.pending = [] →
    ∃ t, step s = .next t ∧ t.ts = (s.ts + 1) % 2 ^ 64 ∧ t.pending = [] ∧ t.nonce = s.nonce ∧ OnlyParts [.time] s t)

/-- The invariant holds right after reset. -/
def Obligations.InvariantHoldsAtReset : Prop :=
 Inv State.reset

/-- Every step keeps the invariant: memories and register maps in canonical form, and no ARMED escapement at its TARGET. -/
def Obligations.EveryStepKeepsTheInvariant : Prop :=
  ∀ s t : State, Inv s → step s = .next t → Inv t

/-! ### Operations without an engine -/

/-- NOP ends OK with DETAIL 0, gives up what it holds and changes no memory, register or escapement. -/
def Obligations.NopEndsOk : Prop :=
  ∀ (s : State) (r : OpRef) (o : Op), OpAt s r o .ready 0 →
    Runs (.nop r) s fun t => Ended t r OK 0 ∧ Released t r ∧ OnlyParts [.ops, .reqs, .cells] s t
      ∧ ∀ q, q ≠ r → findOp t q = findOp s q

/-- ESC_CTL under the generation of its escapement has the effect of Table 15.7 and ends OK. ESC_CTL under another generation, or in
a state its operation does not apply in, changes no escapement, counts in GLB_ESC_DISCARD and ends REFUSED_VERSION with DETAIL 1 or
2. -/
def Obligations.EscCtlAppliesTheTable : Prop :=
  (∀ (s : State) (r : OpRef) (o : Op), OpAt s r o .ready 0x0C → EscSound s (escCtl o) → NoWaiter s (escCtl o) →
    (escAt s (escCtl o)).gen.toNat = escCtlGen o →
    (escSub o = 0 → (escAt s (escCtl o)).st ∈ [EscState.idle, .armed, .fired] →
      Runs (.escCtlAdd r) s fun t => Ended t r OK 0 ∧ EscAdded (escAt s (escCtl o)) (escAt t (escCtl o)) (escArg o)
        ∧ OtherEscs (escCtl o) s t ∧ OnlyParts [.priv, .esc, .ops, .reqs, .outs, .hosts, .cells, .schDue, .lpe] s t)
    ∧ (escSub o = 1 → (escAt s (escCtl o)).st ∈ [EscState.idle, .armed] →
      Runs (.escCtlArm r) s fun t => Ended t r OK 0 ∧ EscArmed (escAt s (escCtl o)) (escAt t (escCtl o)) (escArg o)
        ∧ OtherEscs (escCtl o) s t ∧ OnlyParts [.priv, .esc, .ops, .reqs, .outs, .hosts, .cells, .schDue, .lpe] s t)
    ∧ (escSub o = 2 →
      Runs (.escCtlReset r) s fun t => Ended t r OK 0 ∧ EscWasReset (escAt s (escCtl o)) (escAt t (escCtl o))
        ∧ OtherEscs (escCtl o) s t ∧ OnlyParts [.esc, .ops, .reqs, .cells] s t)
    ∧ (escSub o = 3 →
      Runs (.escCtlNotify r) s fun t => Ended t r OK 0
        ∧ EscNotified (escAt s (escCtl o)) (escAt t (escCtl o)) (fld (escArg o) 0 8) (bit (escArg o) 8)
        ∧ OtherEscs (escCtl o) s t ∧ OnlyParts [.esc, .ops, .reqs, .cells] s t))
  ∧ (∀ (s : State) (r : OpRef) (o : Op), Inv s → OpAt s r o .ready 0x0C → EscSound s (escCtl o) → NoWaiter s (escCtl o) →
    ((escAt s (escCtl o)).gen.toNat ≠ escCtlGen o →
      ∀ c ∈ [(0, Instr.escCtlAdd r), (1, .escCtlArm r), (2, .escCtlReset r), (3, .escCtlNotify r)], escSub o = c.1 →
        Runs c.2 s fun t => Ended t r REFUSED_VERSION 1 ∧ t.esc = s.esc
          ∧ regOf t GLB_ESC_DISCARD = (regOf s GLB_ESC_DISCARD + 1) % 2 ^ 32 ∧ RegsBut [GLB_ESC_DISCARD] s t)
    ∧ ((escAt s (escCtl o)).gen.toNat = escCtlGen o →
      ∀ c ∈ [(0, Instr.escCtlAdd r, [EscState.faulted, .aborted]), (1, .escCtlArm r, [EscState.fired, .faulted, .aborted])],
        escSub o = c.1 → (escAt s (escCtl o)).st ∈ c.2.2 →
        Runs c.2.1 s fun t => Ended t r REFUSED_VERSION 2 ∧ t.esc = s.esc
          ∧ regOf t GLB_ESC_DISCARD = (regOf s GLB_ESC_DISCARD + 1) % 2 ^ 32 ∧ RegsBut [GLB_ESC_DISCARD] s t))

/-- ESC_CMD has the effects of Table 15.7 on an escapement of its domain; its fourth code is a discard. A write of ESC_CMD by an
escapement outside the domain's range counts in HDM_REJECT and does nothing else; by a domain at the basic level, or one whose host
is not present, it does nothing. -/
def Obligations.EscCmdAppliesTheTable : Prop :=
  (∀ (s : State) (d : Fin 4) (i gen : BitVec 16) (arg : BitVec 14), Inv s → HostExpert s d.val → escIn s d.val i.toNat = true →
    EscSound s i.toNat → NoWaiter s i.toNat →
    ((escAt s i.toNat).gen = gen → (escAt s i.toNat).st ∈ [EscState.idle, .armed, .fired] →
      Runs (.escCmdAdd d i gen arg) s fun t => EscAdded (escAt s i.toNat) (escAt t i.toNat) arg.toNat
        ∧ OtherEscs i.toNat s t ∧ OnlyParts [.priv, .esc, .outs, .hosts, .schDue, .lpe] s t)
    ∧ ((escAt s i.toNat).gen = gen → (escAt s i.toNat).st ∈ [EscState.idle, .armed] →
      Runs (.escCmdArm d i gen arg) s fun t => EscArmed (escAt s i.toNat) (escAt t i.toNat) arg.toNat
        ∧ OtherEscs i.toNat s t ∧ OnlyParts [.priv, .esc, .outs, .hosts, .schDue, .lpe] s t)
    ∧ ((escAt s i.toNat).gen = gen →
      Runs (.escCmdReset d i gen arg) s fun t => EscWasReset (escAt s i.toNat) (escAt t i.toNat)
        ∧ OtherEscs i.toNat s t ∧ OnlyParts [.esc] s t)
    ∧ (∀ c ∈ [Instr.escCmdAdd d i gen arg, .escCmdArm d i gen arg, .escCmdReset d i gen arg],
        (escAt s i.toNat).gen ≠ gen →
        Runs c s fun t => regOf t GLB_ESC_DISCARD = (regOf s GLB_ESC_DISCARD + 1) % 2 ^ 32
          ∧ RegsBut [GLB_ESC_DISCARD] s t ∧ OnlyParts [.regs] s t)
    ∧ Runs (.escCmdDiscard d i gen arg) s fun t => regOf t GLB_ESC_DISCARD = (regOf s GLB_ESC_DISCARD + 1) % 2 ^ 32
        ∧ RegsBut [GLB_ESC_DISCARD] s t ∧ OnlyParts [.regs] s t)
  ∧ (∀ (s : State) (d : Fin 4) (i gen : BitVec 16) (arg : BitVec 14),
    ∀ c ∈ [Instr.escCmdAdd d i gen arg, .escCmdArm d i gen arg, .escCmdReset d i gen arg, .escCmdDiscard d i gen arg],
      (Inv s → HostExpert s d.val → escIn s d.val i.toNat = false →
        Runs c s fun t => regOf t (hdmW d.val 0x88) = (regOf s (hdmW d.val 0x88) + 1) % 2 ^ 32
          ∧ RegsBut [hdmW d.val 0x88] s t ∧ OnlyParts [.regs] s t)
      ∧ (¬ HostExpert s d.val → exec c s = .next s))

/-- ABORT, by where the descriptor it names stands (R283, R284): not posted; recorded; posted and not fetched; waiting; uncommitted;
committed; itself an ABORT. -/
def Obligations.AbortFollowsItsTarget : Prop :=
  ∀ (s : State) (r : OpRef) (o : Op), Inv s → OpAt s r o .ready 0x0D → Bare o →
    (abortTop s o ≤ abortPlace s o → Runs (.abort r) s fun t => Ended t r BAD_DESCRIPTOR 0 ∧ OtherOps [r] s t
      ∧ OnlyParts [.ops, .reqs, .cells] s t)
    ∧ (abortPlace s o < abortTop s o →
        (abortPlace s o < workSize s o.d (o.bits 16 0 6) ∨ s.recorded.contains (abortRef o) = true) →
        Runs (.abort r) s fun t => Ended t r ABORT_TOO_LATE 0 ∧ OtherOps [r] s t ∧ OnlyParts [.ops, .reqs, .cells] s t)
    ∧ (AbortOpen s o → findOp s (abortRef o) = none → Runs (.abort r) s fun t => Ended t r OK 0 ∧ abortRef o ∈ t.marks
        ∧ OtherOps [r] s t ∧ OnlyParts [.marks, .ops, .reqs, .cells] s t)
    ∧ (AbortOpen s o → ∀ x, findOp s (abortRef o) = some x → Bare x →
        (x.phase ∈ [OpPhase.waitEsc, .waitCap] → Runs (.abort r) s fun t => Ended t r OK 0 ∧ Ended t (abortRef o) ABORTED 0
          ∧ privOf t o.d (ringW o.d (o.bits 16 0 6) 6) = (o.at 20 4 + 1) % 2 ^ 32
          ∧ PrivBut [(o.d, ringW o.d (o.bits 16 0 6) 6)] s t
          ∧ OtherOps [r, abortRef o] s t ∧ OnlyParts [.priv, .ops, .reqs, .cells] s t)
        ∧ (x.phase ∈ [OpPhase.ready, .running, .waitRes] → x.code ≠ 0x0D → committed x = false →
          Runs (.abort r) s fun t => Ended t r OK 0 ∧ Ended t (abortRef o) ABORTED 0 ∧ Released t (abortRef o)
            ∧ OtherOps [r, abortRef o] s t ∧ OnlyParts [.ops, .reqs, .cells] s t)
        ∧ (x.code ≠ 0x0D → committed x = true → Runs (.abort r) s fun t => Ended t r ABORT_TOO_LATE 0
          ∧ OtherOps [r] s t ∧ OnlyParts [.ops, .reqs, .cells] s t)
        ∧ (x.phase ∈ [OpPhase.ready, .running, .waitRes, .decided] → x.code = 0x0D →
          Runs (.abort r) s fun t => Ended t r BAD_DESCRIPTOR 0 ∧ OtherOps [r] s t ∧ OnlyParts [.ops, .reqs, .cells] s t))

/-- PROD_WRITE sets PROD while EN is 0, and while EN is 1 when it stays within the ring; else it counts in HDM_REJECT (R268). Before
READY nothing is fetched. KX_DOORBELL_WRITE sets the KX ring's PROD when it stays within the ring, and else counts in HDM_REJECT
(R285); before READY nothing is fetched. -/
def Obligations.DoorbellsSetProdOrAreRejected : Prop :=
  (∀ (s : State) (d : Fin 4) (n : Fin 64) (v : Word) (posted : List Host.Cell), Inv s → HostExpert s d.val →
    ((ringEn s d.val n.val = false ∨ (isReady s = false ∧ sub32 v.toNat (ringDone s d.val n.val) ≤ workSize s d.val n.val)) →
      Runs (.prodWrite d n v posted) s fun t => privOf t d.val (ringW d.val n.val 5) = v.toNat
        ∧ PrivBut [(d.val, ringW d.val n.val 5)] s t ∧ OnlyParts [.priv, .host] s t)
    ∧ (ringEn s d.val n.val = true → workSize s d.val n.val < sub32 v.toNat (ringDone s d.val n.val) →
      Runs (.prodWrite d n v posted) s fun t => regOf t (hdmW d.val 0x88) = (regOf s (hdmW d.val 0x88) + 1) % 2 ^ 32
        ∧ RegsBut [hdmW d.val 0x88] s t ∧ OnlyParts [.regs, .host] s t))
  ∧ (∀ (s : State) (d : Fin 4) (v : Word) (posted : List Host.Cell), Inv s → s.hosts.present.getLsbD d.val = true →
    basicLevel s d.val = true →
    (isReady s = false → sub32 v.toNat (kxDone s d.val) ≤ kxSize s d.val →
      Runs (.kxDoorbellWrite d v posted) s fun t => privOf t d.val (KX + 0x18) = v.toNat
        ∧ PrivBut [(d.val, KX + 0x18)] s t ∧ OnlyParts [.priv, .host] s t)
    ∧ (kxSize s d.val < sub32 v.toNat (kxDone s d.val) →
      Runs (.kxDoorbellWrite d v posted) s fun t => regOf t (hdmW d.val 0x88) = (regOf s (hdmW d.val 0x88) + 1) % 2 ^ 32
        ∧ RegsBut [hdmW d.val 0x88] s t ∧ OnlyParts [.regs, .host] s t))

/-- A NOP posted by PROD_WRITE after READY is fetched, takes its turn and is admitted with the step index of its domain; HEAD
follows (R269). RING_ENABLE: EN from 0 to 1 starts the ring empty at PROD with LOG2 clamped to 6 … 16; while EN is 1, LOG2 keeps its
value. -/
def Obligations.RingsStartAndFetch : Prop :=
  (∀ (s : State) (d : Fin 4) (n : Fin 64) (v : Word), Inv s → HostExpert s d.val → isReady s = true → ringEn s d.val n.val = true →
    s.hosts.resetDom.getLsbD d.val = false → bit (regOf s (hdmW d.val 4)) 0 = true →
    v.toNat = (ringHead s d.val n.val + 1) % 2 ^ 32 → sub32 (ringHead s d.val n.val) (ringDone s d.val n.val) < workSize s d.val n.val →
    sub32 v.toNat (ringDone s d.val n.val) ≤ workSize s d.val n.val →
    (∀ o ∈ s.ops, o.d = d.val → o.ref.ring.val = n.val → o.phase ≠ .waitEsc ∧ o.phase ≠ .waitCap) →
    let ref : OpRef := ⟨d, ⟨n.val, Nat.lt_trans n.isLt (by decide)⟩, BitVec.ofNat 32 (ringHead s d.val n.val)⟩
    let desc := leNat (hostRead s none d.val
      (ringBase s d.val n.val 0 + 64 * (ringHead s d.val n.val % workSize s d.val n.val)) 64)
    findOp s ref = none → s.marks.contains ref = false → desc % 2 ^ 16 = 0 → desc / 2 ^ 48 = 0 →
    Runs (.prodWrite d n v []) s fun t => (∃ o, OpAt t ref o .ready 0 ∧ o.desc = BitVec.ofNat 512 desc
        ∧ o.step = BitVec.ofNat 32 (privOf s d.val (hdmW d.val 0x60)))
      ∧ privOf t d.val (ringW d.val n.val 5) = v.toNat ∧ privOf t d.val (ringW d.val n.val 6) = v.toNat
      ∧ PrivBut [(d.val, ringW d.val n.val 5), (d.val, ringW d.val n.val 6)] s t ∧ OtherOps [ref] s t
      ∧ OnlyParts [.priv, .ops] s t)
  ∧ (∀ (s : State) (d : Fin 4) (n : Fin 64) (v : Word), Inv s → HostExpert s d.val →
    (ringEn s d.val n.val = false → bit v.toNat 0 = true →
      Runs (.ringEnable d n v) s fun t =>
        privOf t d.val (ringW d.val n.val 4) = 1 + 2 * max 6 (min 16 (fld v.toNat 1 5)) + 2 ^ 8 * fld v.toNat 8 8
        ∧ ringHead t d.val n.val = ringProd s d.val n.val ∧ ringDone t d.val n.val = ringProd s d.val n.val
        ∧ ringProd t d.val n.val = ringProd s d.val n.val
        ∧ (∀ x ∈ t.recorded, x ∈ s.recorded ∧ ¬(x.dom = d ∧ x.ring.val = n.val))
        ∧ OnlyParts [.regs, .priv, .recorded, .marks, .clb] s t)
    ∧ (ringEn s d.val n.val = true →
      Runs (.ringEnable d n v) s fun t =>
        privOf t d.val (ringW d.val n.val 4) =
          fld v.toNat 0 1 + 2 * fld (privOf s d.val (ringW d.val n.val 4)) 1 5 + 2 ^ 8 * fld v.toNat 8 8
        ∧ PrivBut [(d.val, ringW d.val n.val 4)] s t ∧ OnlyParts [.priv] s t))

/-- WAIT_RELEASE (R271): a wait that can no longer end is a dependency abort; one whose condition holds lets the descriptor take its
turn (here a NOP, the last one posted); one that still stands changes nothing. -/
def Obligations.WaitReleaseJudgesTheCondition : Prop :=
  ∀ (s : State) (r : OpRef) (o : Op), Inv s → findOp s r = some o → o.phase = .waitEsc → EscSound s o.waitEsc → Bare o →
    (LastPosted s r → waitDead s o = true → Runs (.waitRelease r) s fun t => Ended t r ABORTED (o.waitEsc + 2 ^ 16)
      ∧ regOf t (hdmW r.dom.val 0x8C) = (regOf s (hdmW r.dom.val 0x8C) + 1) % 2 ^ 32 ∧ RegsBut [hdmW r.dom.val 0x8C] s t
      ∧ ringHead t r.dom.val r.ring.val = (r.idx.toNat + 1) % 2 ^ 32
      ∧ PrivBut [(r.dom.val, ringW r.dom.val r.ring.val 6)] s t ∧ OtherOps [r] s t
      ∧ OnlyParts [.regs, .priv, .ops, .reqs, .cells] s t)
    ∧ (LastPosted s r → waitDead s o = false → waitOver s o = true → o.code = 0 → zeroBad o = false →
      Runs (.waitRelease r) s fun t => (∃ x, OpAt t r x .ready 0 ∧ x.desc = o.desc)
      ∧ ringHead t r.dom.val r.ring.val = (r.idx.toNat + 1) % 2 ^ 32
      ∧ PrivBut [(r.dom.val, ringW r.dom.val r.ring.val 6)] s t ∧ OtherOps [r] s t ∧ OnlyParts [.priv, .ops] s t)
    ∧ (waitDead s o = false → waitOver s o = false → exec (.waitRelease r) s = .next s)

/-- ADMIT_WAITER (R280, R21): the oldest waiter that may take an entry of the engine takes it, whatever operation it is, with the
step index of its domain, and HEAD passes it. An operation of the learning class in the GENERATION phase is then refused, with ADMIT
SERVED (R22, R13); a COPY is ready to run. -/
def Obligations.AdmitWaiterAdmitsTheOldest : Prop :=
  ∀ (s : State) (e : Fin 8) (o : Op), Inv s → eligible s e.val = some o → findOp s o.ref = some o → LastPosted s o.ref →
    (Runs (.admitWaiter e) s fun t => (∃ x, findOp t o.ref = some x ∧ x.eng = e.val ∧ x.desc = o.desc ∧ x.delayed = true
          ∧ x.step = BitVec.ofNat 32 (privOf s o.d (hdmW o.d 0x60)) ∧ x.phase ≠ .waitCap ∧ x.phase ≠ .waitEsc)
        ∧ ringHead t o.d o.ref.ring.val = (o.ref.idx.toNat + 1) % 2 ^ 32)
    ∧ (Bare o → inGeneration s o.d = true → learningOp o = true →
      Runs (.admitWaiter e) s fun t => Ended t o.ref REFUSED_PHASE 0 ∧ (∃ x, findOp t o.ref = some x ∧ x.eng = e.val ∧ x.admitAs = 0)
        ∧ ringHead t o.d o.ref.ring.val = (o.ref.idx.toNat + 1) % 2 ^ 32
        ∧ PrivBut [(o.d, ringW o.d o.ref.ring.val 6)] s t ∧ OtherOps [o.ref] s t ∧ OnlyParts [.priv, .ops, .reqs, .cells] s t)
    ∧ (∀ w, Bare o → o.code = 8 → zeroBad o = false → cpHostSrc o = true → cpHostDst o = false → Loc.ofAddr (cpDst o) = .well w →
        0 < cpBytes o → cpBytes o ≤ 268435456 → w + cpBytes o ≤ wellSize → cpSrc o + cpBytes o ≤ 2 ^ 64 → cpDst o + cpBytes o ≤ 2 ^ 64 →
      Runs (.admitWaiter e) s fun t => (∃ x, OpAt t o.ref x .ready 8 ∧ x.eng = e.val ∧ x.delayed = true
          ∧ x.step = BitVec.ofNat 32 (privOf s o.d (hdmW o.d 0x60)) ∧ x.region = [(2, w, cpBytes o)])
        ∧ ringHead t o.d o.ref.ring.val = (o.ref.idx.toNat + 1) % 2 ^ 32
        ∧ PrivBut [(o.d, ringW o.d o.ref.ring.val 6)] s t ∧ OtherOps [o.ref] s t ∧ OnlyParts [.priv, .ops] s t)

/-- OPERATION_COMPLETE (R278): the record of Table 15.8 stands at the descriptor's place of the completion ring, the operation is
gone, and DONE passes its index (here the last one posted, without an escapement, a vector, a wait or a result). R275: a completion
in class 0x0_ adds 1 to CPL_ESC; one in class 0x2_ makes it ABORTED, any other FAULTED, with COUNT kept; under another generation
nothing happens to it. -/
def Obligations.CompletionWritesTheRecord : Prop :=
  (∀ (s : State) (r : OpRef) (o : Op), Inv s → findOp s r = some o → o.phase = .decided → LastPosted s r →
    o.out = [] → o.hold = [] → o.cplEn = false → o.irq = false → o.admitAs = 0 → o.ref.idx.toNat = ringDone s r.dom.val r.ring.val →
    (∀ x ∈ s.recorded, ¬(x.dom = r.dom ∧ x.ring = r.ring)) → ringHead s r.dom.val r.ring.val = ringProd s r.dom.val r.ring.val →
    let size := workSize s r.dom.val r.ring.val
    let place := hostKey r.dom.val (ringBase s r.dom.val r.ring.val 2 + 32 * (r.idx.toNat % size))
    Runs (.operationComplete r) s fun t => t.host.getN place 32 = record o size 0 false ∧ MemBut place 32 s.host t.host
      ∧ findOp t r = none ∧ OtherOps [r] s t ∧ ringDone t r.dom.val r.ring.val = (r.idx.toNat + 1) % 2 ^ 32
      ∧ PrivBut [(r.dom.val, ringW r.dom.val r.ring.val 7)] s t ∧ OnlyParts [.priv, .host, .ops, .recorded] s t)
  ∧ (∀ (s : State) (r : OpRef) (o : Op), Inv s → findOp s r = some o → o.phase = .decided → LastPosted s r → o.out = [] → o.hold = [] →
    o.cplEn = true → escIn s o.d o.cplEsc = true → EscSound s o.cplEsc → NoWaiter s o.cplEsc → o.admitAs = 0 → o.code ≠ 0x0D →
    ringHead s r.dom.val r.ring.val = ringProd s r.dom.val r.ring.val →
    ((escAt s o.cplEsc).gen.toNat = o.cplGen → o.status.toNat / 16 = 0 →
      (escAt s o.cplEsc).st ∈ [EscState.idle, .armed, .fired] →
      Runs (.operationComplete r) s fun t => EscAdded (escAt s o.cplEsc) (escAt t o.cplEsc) 1 ∧ OtherEscs o.cplEsc s t
        ∧ findOp t r = none)
    ∧ ((escAt s o.cplEsc).gen.toNat = o.cplGen → o.status.toNat / 16 ≠ 0 →
      Runs (.operationComplete r) s fun t => escAt t o.cplEsc =
          { escAt s o.cplEsc with st := if o.status.toNat / 16 = 2 then .aborted else .faulted }
        ∧ OtherEscs o.cplEsc s t ∧ findOp t r = none)
    ∧ ((escAt s o.cplEsc).gen.toNat ≠ o.cplGen →
      Runs (.operationComplete r) s fun t => t.esc = s.esc ∧ findOp t r = none))

/-! ### Transfers -/

/-- COPY (R272): the bytes of the source, host memory or a local place, are held for the destination, and the operation ends OK;
what goes to a row of a table here is a write of that row, in the base captured for it (R83, R86). PEER_XFER (R257): a READ and a
WRITE that one packet carries take one request slot towards the peer, and the operation waits for its answer; a POOL whose answers
are all in writes its result rows at OUT. -/
def Obligations.CopyAndPeerXferMoveTheBytes : Prop :=
  (∀ (s : State) (r : OpRef) (o : Op) (l : Loc), OpAt s r o .ready 8 → o.work = .none → reqsOf s r = [] →
    (cpHostSrc o = true → cpHostDst o = false → LandsAt s o false (cpDst o) (cpBytes o) l →
      Runs (.copy r) s fun t => Ended t r OK 0
        ∧ HoldsOut t r (o.out ++ [⟨l.space.1, l.space.2, hostRead s o.who o.d (cpSrc o) (cpBytes o)⟩])
        ∧ OtherOps [r] s t ∧ OnlyParts [.ops, .reqs, .cells] s t)
    ∧ (cpHostSrc o = false → cpHostDst o = true → FetchesAt s o false (cpSrc o) (cpBytes o) l →
      Runs (.copy r) s fun t => Ended t r OK 0
        ∧ HoldsOut t r (o.out ++ [⟨3, hostKey o.d (cpDst o), bytesAt s o.who l (cpBytes o)⟩])
        ∧ OtherOps [r] s t ∧ OnlyParts [.ops, .reqs, .cells] s t)
    ∧ (∀ m, cpHostSrc o = false → cpHostDst o = false → FetchesAt s o false (cpSrc o) (cpBytes o) l →
        LandsAt s o false (cpDst o) (cpBytes o) m →
      Runs (.copy r) s fun t => Ended t r OK 0 ∧ HoldsOut t r (o.out ++ [⟨m.space.1, m.space.2, bytesAt s o.who l (cpBytes o)⟩])
        ∧ OtherOps [r] s t ∧ OnlyParts [.ops, .reqs, .cells] s t)
    ∧ (∀ tb row f d v m, Inv s → cpHostSrc o = true → cpHostDst o = false → 0 < cpBytes o → r.ring.val ≠ 65 →
        Loc.ofAddr (cpDst o) = .table tb row f → tdGet s tb = some d → (o.hold.find? fun h => h.1 == tb) = some (tb, d.active, v) →
        placeHeld o.hold s o.d (cpDst o) (cpBytes o) false = .here (.hbm m) → HbmSound s →
        (∀ g ∈ s.tbl.migs, ¬(g.table = tb ∧ g.row = row)) →
      Runs (.copy r) s fun t => Ended t r OK 0 ∧ t.hbm.getN m (cpBytes o) = hostRead s o.who o.d (cpSrc o) (cpBytes o)
        ∧ MemBut m (cpBytes o) s.hbm t.hbm ∧ OtherOps [r] s t ∧ OnlyParts [.hbm, .ops, .reqs, .cells] s t))
  ∧ (∀ (s : State) (r : OpRef) (o : Op) (l : Loc),
    (OpAt s r o .ready 9 → pxSub o = 0 → 0 < pxBytes o → pxBytes o ≤ peerCap s (pxPeer o) →
      Runs (.peerXferRead r) s fun t => OpAt t r { o with phase := .running, work := .xfer 0 } .running 9 ∧ OtherOps [r] s t
        ∧ SlotTaken s t (some r) (some (pxPeer o)) (.readMem (pxLocal o)) 0x11 (pxRemote o) (pxBytes o)
            (.raw (leBytes 8 (pxLocal o)))
        ∧ OnlyParts [.ops, .reqs, .outs, .rte, .links, .peers] s t)
    ∧ (OpAt s r o .ready 9 → pxSub o = 1 → o.work = .none → pxBytes o ≤ peerCap s (pxPeer o) →
        FetchesAt s o false (pxLocal o) (pxBytes o) l →
      Runs (.peerXferWrite r) s fun t => (∃ x, OpAt t r x .running 9 ∧ x.work = .xfer 0) ∧ OtherOps [r] s t
        ∧ SlotTaken s t (some r) (some (pxPeer o)) .write 0x10 (pxRemote o) (pxBytes o) (.raw (bytesAt s o.who l (pxBytes o)))
        ∧ OnlyParts [.ops, .reqs, .outs, .rte, .links, .peers] s t)
    ∧ (∀ w k, OpAt s r o .running 9 → pxSub o = 2 → o.work = .pool w → pxBlk o = some k → reqsOf s r = [] →
        let img := poolRows k.agg k.bf16 (pxElems s k.table w) w
        img.length ≤ pxOutN o → LandsAt s o false (pxOut o) img.length l →
      Runs (.peerXferPool r) s fun t => Ended t r OK 0 ∧ HoldsOut t r (o.out ++ [⟨l.space.1, l.space.2, img⟩])
        ∧ OtherOps [r] s t ∧ OnlyParts [.ops, .reqs, .cells] s t))

/-! ### GATHER and POOL -/

/-- A GATHER or POOL, of a work ring or of the KX ring, whose rounds and answers are all in writes its result in the layout of R60
and ends OK (R62). -/
def Obligations.GatherAndPoolWriteTheirResult : Prop :=
  ∀ (s : State) (r : OpRef) (o : Op) (d : TDesc) (w : PoolWork), findOp s r = some o →
    o.phase ∈ [OpPhase.ready, .running, .waitRes] → o.work = .pool w → o.uitLeft = some 0 → tdGet s (gthTable o) = some d →
    reqsOf s r = [] →
    (∀ l, o.code = 3 → LandsAt s o false (gthOut o) (poolImage o d w).length l →
      ∀ c ∈ [Instr.pool r, .kxPool r], (c = .kxPool r → r.ring.val = 64) →
      Runs c s fun t => Ended t r OK 0 ∧ HoldsOut t r (o.out ++ [⟨l.space.1, l.space.2, poolImage o d w⟩])
        ∧ OtherOps [r] s t ∧ OnlyParts [.ops, .reqs, .cells] s t)
    ∧ (∀ b, o.code = 2 → (∀ x ∈ gathPieces d w, LandsAt s o false (gthOut o + x.1) x.2.length (.hbm (b + x.1))) →
      ∀ c ∈ [Instr.gather r, .kxGather r], (c = .kxGather r → r.ring.val = 64) →
      Runs c s fun t => Ended t r OK 0 ∧ HoldsOut t r (o.out ++ (gathPieces d w).map fun x => ⟨0, b + x.1, x.2⟩)
        ∧ OtherOps [r] s t ∧ OnlyParts [.ops, .reqs, .cells] s t)

/-- POOL_REQUEST, and FWD of one (R66 to R68): the owner of a row answers a request for it, asked or forwarded, with the bytes of
the version asked for, and counts the look-up; a version that neither base holds is refused (R69), and so is a row the table does
not have. POOL_RSP (R67): an answer's rows or partials join what the operation has, and its slot is free. -/
def Obligations.PoolRequestsAreServedAndJoined : Prop :=
  (∀ (s : State) (p : Fin 8) (pk : Packet) (q : PoolReq) (d : TDesc), pk.body = .poolReq q → tdGet s q.table = some d → isReady s = true →
    ∀ c ∈ [(0, Instr.poolRequest p pk), (2, .fwd p pk)], FromTorus s p.val pk c.1 0x13 → (c.1 = 0 → slotFree s = true) →
    (∀ row seg w b, q.agg = 0 → q.entries = [(row, seg, w)] → baseOfVersion d q.ver.toNat = some b → row < d.rows →
        0 < d.rowBytes → d.rowBytes ≤ 4096 →
        ownsRow s q.table d row = true → tblBad s q.table row = false → ovFind s q.table row = none →
        Readable s (.hbm ((rowAt s q.table d row).base b)) d.rowBytes →
      Runs c.2 s fun t => SentAnswer s t pk 0x93 0 d.rowBytes
          (.poolRsp [(seg, .rows [(row, (bytesAt s none (.hbm ((rowAt s q.table d row).base b)) d.rowBytes).map BitVec.toNat)])] 0 [])
        ∧ OnlyParts [.regs, .outs, .tbl, .links] s t ∧ RegsBut [GTH + 0x18, GTH + 0x1C] s t)
    ∧ (baseOfVersion d q.ver.toNat = none → Runs c.2 s fun t => SentRefusal s t pk REFUSED_VERSION
        ∧ OnlyParts [.outs, .links] s t)
    ∧ (∀ b, baseOfVersion d q.ver.toNat = some b → (∃ e ∈ q.entries, d.rows ≤ e.1) →
        Runs c.2 s fun t => SentRefusal s t pk BAD_DESCRIPTOR ∧ OnlyParts [.outs, .links] s t))
  ∧ (∀ (s : State) (p : Fin 8) (pk : Packet) (q : Req) (rq : PoolReq) (parts : List (Nat × PartBody)) (ref : OpRef) (o : Op)
    (w : PoolWork) (d : TDesc), Answers s p.val pk 0x93 q → q.kind = .pool → q.via = none → q.left = 1 → q.pk.body = .poolReq rq →
    pk.body = .poolRsp parts 0 [] → q.op = some ref → findOp s ref = some o → o.code ∈ [2, 3] → o.phase = .running →
    o.work = .pool w → o.uitLeft = some 0 → tdGet s (gthTable o) = some d → (rq.agg = 0 ∨ ∀ x ∈ parts, ∀ l, x.2 ≠ .rows l) →
    (∃ y ∈ s.reqs, y.op = some ref ∧ y.optag ≠ q.optag) →
    Runs (.poolRsp p pk) s fun t => OpAt t ref { o with work := .pool (joinParts rq parts w) } .running o.code
      ∧ SlotGone s t q.optag ∧ OtherOps [ref] s t ∧ OnlyParts [.ops, .reqs, .links] s t)

/-- SAMPLE_, POOL_REMOTE_TIMEOUT and CONTRIB_ACK_TIMEOUT (R47, R69, R73): an operation with a request unanswered for TIMEOUT_US ends
REMOTE_TIMEOUT and gives up its slots; a SAMPLE does for each of its requests, and the sums of a contribution's context for its
table become undefined. -/
def Obligations.RemoteTimeoutsEndTheOperation : Prop :=
  ∀ (s : State) (r : OpRef) (o : Op) (q : Req), findOp s r = some o → o.phase ≠ .decided → q ∈ s.reqs → q.op = some r →
    (q.kind = .pool → q.since + 1000 * fld (regOf s (GTH + 12)) 16 16 ≤ s.ts →
      Runs (.poolRemoteTimeout r) s fun t => Ended t r REMOTE_TIMEOUT 0 ∧ Released t r ∧ OtherOps [r] s t)
    ∧ (q.kind = .contrib → q.since + 1000 * fld (regOf s (GTH + 12)) 16 16 ≤ s.ts →
      Runs (.contribAckTimeout r) s fun t => Ended t r REMOTE_TIMEOUT 0 ∧ Released t r ∧ OtherOps [r] s t
        ∧ ∀ c tb row g, q.pk.body = .contrib c tb row g → tb ∈ (ctxAt t c).lost)
    ∧ (o.code = 1 → q.since + 1000 * fld (regOf s (SMP + 8)) 16 16 ≤ s.ts →
      Runs (.sampleRemoteTimeout r) s fun t => Ended t r REMOTE_TIMEOUT 0 ∧ Released t r ∧ OtherOps [r] s t)

/-! ### Tables -/

/-- DEFINE (R85): a sound image becomes the descriptor of a free id, owned by the operation's domain; an id in use or an image that
R85 refuses is BAD_DESCRIPTOR and changes no table. -/
def Obligations.DefineTakesTheImage : Prop :=
  ∀ (s : State) (r : OpRef) (o : Op) (l : Loc), OpAt s r o .ready 0x0A → tcSub o = 0 → FetchesAt s o false (tcArg o) 64 l → Bare o →
    let img := leNat (bytesAt s o.who l 64)
    let d := tdOfBits img o.d
    (tdGet s (tcTable o) = none → imgBad s o.d (some (tcTable o)) img = false → 0 < mapCount d.rows d.stretch →
        Readable s (.hbm d.map) (4 * mapCount d.rows d.stretch) →
        mapBad s ((chunks 4 (bytesAt s o.who (.hbm d.map) (4 * mapCount d.rows d.stretch))).map leNat) = false →
      Runs (.define r) s fun t => Ended t r OK 0 ∧ tdGet t (tcTable o) = some d ∧ OtherTables (tcTable o) s t
        ∧ OtherOps [r] s t ∧ OnlyParts [.ops, .reqs, .tbl, .cells] s t)
    ∧ ((tdGet s (tcTable o) ≠ none ∨ imgBad s o.d (some (tcTable o)) img = true) →
      Runs (.define r) s fun t => Ended t r BAD_DESCRIPTOR 0 ∧ OtherOps [r] s t ∧ OnlyParts [.ops, .reqs, .cells] s t)

/-- SET_INACTIVE (R88): the base that is not active is replaced, at once when the table has drained, else the operation waits and
INACTIVE_BASE_REPLACE replaces it. FLIP (R87): ACTIVE changes sides, VERSION advances, and DRAIN_ESC is reset and armed with the
operations that hold the old base, so it has fired at once when there are none. RELEASE (R89): the id of a table that nobody holds
is free; else the operation waits, and RELEASE_FREE frees it when the last holder has gone. -/
def Obligations.TablesFlipReplaceAndRelease : Prop :=
  (∀ (s : State) (r : OpRef) (o : Op) (d : TDesc), tdGet s (tcTable o) = some d → tcSub o = 1 →
    let d' := if d.active then { d with baseA := tcArg o, inactNew := false } else { d with baseB := tcArg o, inactNew := false }
    (OpAt s r o .ready 0x0A → drained s (tcTable o) d = true →
      Runs (.setInactive r) s fun t => Ended t r OK 0 ∧ tdGet t (tcTable o) = some d' ∧ OtherTables (tcTable o) s t
        ∧ OtherOps [r] s t ∧ OnlyParts [.ops, .reqs, .tbl, .cells] s t)
    ∧ (OpAt s r o .ready 0x0A → drained s (tcTable o) d = false →
      Runs (.setInactive r) s fun t => OpAt t r { o with phase := .waitRes, delayed := true, t0 := s.ts } .waitRes 0x0A
        ∧ OtherOps [r] s t ∧ OnlyParts [.ops] s t)
    ∧ (OpAt s r o .waitRes 0x0A → drained s (tcTable o) d = true →
      Runs (.inactiveBaseReplace r) s fun t => Ended t r OK 0 ∧ tdGet t (tcTable o) = some d' ∧ OtherTables (tcTable o) s t
        ∧ OtherOps [r] s t ∧ OnlyParts [.ops, .reqs, .tbl, .cells] s t))
  ∧ (∀ (s : State) (r : OpRef) (o : Op) (d : TDesc), OpAt s r o .ready 0x0A → tcSub o = 2 → tdGet s (tcTable o) = some d →
    NoWaiter s d.drain →
    Runs (.flip r) s fun t => Ended t r OK 0
      ∧ tdGet t (tcTable o) = some { d with active := !d.active, ver := d.ver + 1, inactNew := false }
      ∧ OtherTables (tcTable o) s t
      ∧ (let n := holders s (tcTable o) d.active
         let e := escAt s d.drain
         escAt t d.drain = { e with count := 0, target := BitVec.ofNat 32 n, gen := e.gen + 1,
                                    st := if n % 2 ^ 32 = 0 then .fired else .armed })
      ∧ OtherEscs d.drain s t ∧ OtherOps [r] s t
      ∧ OnlyParts [.priv, .esc, .ops, .reqs, .outs, .hosts, .tbl, .cells, .schDue, .lpe] s t)
  ∧ (∀ (s : State) (r : OpRef) (o : Op), Inv s → tcSub o = 3 → mapOrd none s.tbl.desc = true →
    (∀ m ∈ s.tbl.migs, m.table ≠ tcTable o) →
    (unheld s (tcTable o) = true →
      ∀ c ∈ [(Instr.release r, OpPhase.ready), (.releaseFree r, .waitRes)], OpAt s r o c.2 0x0A →
      Runs c.1 s fun t => Ended t r OK 0 ∧ tdGet t (tcTable o) = none ∧ OtherTables (tcTable o) s t
        ∧ (∀ e ∈ t.tbl.ov, e.table ≠ tcTable o) ∧ OtherOps [r] s t ∧ OnlyParts [.ops, .reqs, .tbl, .cells] s t)
    ∧ (unheld s (tcTable o) = false → OpAt s r o .ready 0x0A →
      Runs (.release r) s fun t => OpAt t r { o with phase := .waitRes, delayed := true, t0 := s.ts } .waitRes 0x0A
        ∧ OtherOps [r] s t ∧ OnlyParts [.ops] s t))

/-- MIGRATE (R92): the move of a row that may start takes one of the 64 places, and asks the new owner to reserve; a row that is not
here counts in TBL_MIG_SKIP and the operation ends OK; a move that may not start yet waits; while MIG_ENABLE is 0 none starts and
the operation, waiting or not, ends NOT_SUPPORTED. -/
def Obligations.MigrateStartsTheMove : Prop :=
  ∀ (s : State) (r : OpRef) (o : Op) (d : TDesc), Inv s → tcSub o = 4 → tdGet s (tcTable o) = some d →
    (bit (regOf s TBL) 0 = false → ∀ ph ∈ [OpPhase.ready, .waitRes], OpAt s r o ph 0x0A →
      Runs (.migrate r) s fun t => Ended t r NOT_SUPPORTED 0 ∧ OtherOps [r] s t ∧ OnlyParts [.ops, .reqs, .cells] s t)
    ∧ (OpAt s r o .ready 0x0A → bit (regOf s TBL) 0 = true →
    (ownsRow s (tcTable o) d (tcArg o) = true → s.tbl.migs.length < 64 → movable s (tcTable o) d (tcArg o) = true →
        tcDest o ≠ myCoord s → pinned s < 262144 → pathLost s (myCoord s) (tcDest o) = false →
      Runs (.migrate r) s fun t => (∃ x, OpAt t r x .running 0x0A)
        ∧ t.tbl.migs = s.tbl.migs ++ [⟨tcTable o, tcArg o, BitVec.ofNat 18 (tcDest o), 0, false, false, some r⟩]
        ∧ SlotTaken s t none none .mig 0x15 0 8 (.mig (tcTable o) (tcArg o) (.reserve (guestUnits d)))
        ∧ OtherOps [r] s t ∧ OnlyParts [.ops, .reqs, .outs, .tbl, .rte] s t)
    ∧ (ownsRow s (tcTable o) d (tcArg o) = false →
      Runs (.migrate r) s fun t => Ended t r OK 0 ∧ regOf t (TBL + 0x34) = (regOf s (TBL + 0x34) + 1) % 2 ^ 32
        ∧ RegsBut [TBL + 0x34] s t ∧ OtherOps [r] s t ∧ OnlyParts [.regs, .ops, .reqs, .cells] s t)
    ∧ (ownsRow s (tcTable o) d (tcArg o) = true → (64 ≤ s.tbl.migs.length ∨ movable s (tcTable o) d (tcArg o) = false) →
      Runs (.migrate r) s fun t => OpAt t r { o with phase := .waitRes, delayed := true, t0 := s.ts } .waitRes 0x0A
        ∧ OtherOps [r] s t ∧ OnlyParts [.ops] s t))

/-- PHASE_COMMIT (R26): a requested switch of a domain's phase is made: from GENERATION to LEARNING the catch-up pass becomes due;
from LEARNING to GENERATION every linked table flips. PHASE_SWITCHED counts 1. CATCH_UP_PASS (R24, R90): after the drain, a touched
row of the domain's one linked table is copied from the active base into the inactive one, with padding 0 (R81), its touched bits
are cleared, and learning may write again. -/
def Obligations.PhasesSwitchAndCatchUp : Prop :=
  (∀ (s : State) (d : Fin 4), Inv s → s.hosts.phaseReq.getLsbD d.val = true →
    let e := fld (regOf s (hdmW d.val 0x54)) 16 16
    EscSound s e → (escAt s e).st = .idle → (∀ x ∈ linkedTables s d.val, x.2.drain ≠ e) →
    (inGeneration s d.val = true →
      Runs (.phaseCommit d) s fun t => inGeneration t d.val = false ∧ t.hosts.catchUp.getLsbD d.val = true
        ∧ t.hosts.phaseReq.getLsbD d.val = false ∧ EscAdded (escAt s e) (escAt t e) 1 ∧ OtherEscs e s t
        ∧ RegsBut [hdmW d.val 0x50] s t ∧ OnlyParts [.regs, .hosts, .esc] s t)
    ∧ (inGeneration s d.val = false → (∀ x ∈ linkedTables s d.val, tdGet s x.1 = some x.2) →
        ((linkedTables s d.val).map Prod.fst).Nodup →
      Runs (.phaseCommit d) s fun t => inGeneration t d.val = true ∧ EscAdded (escAt s e) (escAt t e) 1
        ∧ (∀ x ∈ linkedTables s d.val,
            tdGet t x.1 = some { x.2 with active := !x.2.active, ver := x.2.ver + 1, inactNew := false })
        ∧ (∀ j, j ∉ (linkedTables s d.val).map Prod.fst → tdGet t j = tdGet s j)))
  ∧ (∀ (s : State) (d : Fin 4) (id row li : Nat) (td : TDesc), Inv s → s.hosts.catchUp.getLsbD d.val = true →
    linkedTables s d.val = [(id, td)] → tdGet s id = some td → drained s id td = true → localRows s td = [(row, li)] →
    ownsRow s id td row = true → s.tbl.ov = [] → s.tbl.park = [] → HbmSound s → Shown s none →
    let n := pitchOf td.rowBytes
    let src := (rowAt s id td row).base td.active
    let dst := (rowAt s id td row).base (!td.active)
    let bits := td.touch + li / 8
    src + n ≤ hbmCap s → dst + n ≤ hbmCap s → bits / 64 * 64 + 64 ≤ hbmCap s → (bits < dst ∨ dst + n ≤ bits) →
    bit (s.hbm.get bits).toNat (li % 8) = true →
    Runs (.catchUpPass d) s fun t => t.hosts.catchUp.getLsbD d.val = false ∧ t.hbm.getN dst n = padTo n (s.hbm.getN src td.rowBytes)
      ∧ t.hbm.get bits = 0 ∧ (∀ a, (a < dst ∨ dst + n ≤ a) → a ≠ bits → t.hbm.get a = s.hbm.get a)
      ∧ tdGet t id = some { td with inactNew := true } ∧ OtherTables id s t ∧ OnlyParts [.hbm, .hosts, .tbl, .rte] s t)

/-! ### SAMPLE -/

/-- SAMPLE (R48 to R50): a fan-out sample whose hops are all final writes its block, with every node's slot in order of first
appearance, and ends OK; with the hold flag its slots stay in the table until UIT_HOLD_EXPIRY (R57). SAMPLE_REQUEST (R38, R46): the
owner of a node of a degree not above the fan-out answers with all its neighbours, in the order of the graph, and draws nothing.
SAMPLE_RSP puts the neighbours of each entry into their places in the hop. -/
def Obligations.SamplesAreDrawnAndAnswered : Prop :=
  ((∀ (s : State) (r : OpRef) (o : Op) (hs : List HopWork) (l : Loc), OpAt s r o .running 1 → o.work = .sample hs → smpMode o ≠ 2 →
    hs.length = smpHops o → (∀ h ∈ hs, h.edges.all Option.isSome = true) → (∀ h, hs.getLast? = some h → smpNodesOk s o h = true) →
    uitLook s o false = .empty → reqsOf s r = [] →
    let first := (hs.headD ⟨[], []⟩).targets.map Prod.fst
    let uniq := uniqKeys [] (first ++ hs.flatMap fun h => (hopEdges h).flatten.map Prod.fst)
    let block := smpBlock o (graphOf o.cap.toNat) hs uniq (uitRounds 0 uniq.length) (smpWraps o hs first)
    LandsAt s o false (smpOut o) block.length l →
    Runs (.sample r) s fun t => Ended t r OK 0 ∧ HoldsOut t r (o.out ++ [⟨l.space.1, l.space.2, block⟩])
      ∧ t.sac.uit = (if o.flag 17 4 then some ⟨o.d, smpFeat o, uniq.take uitSize, uitRounds 0 uniq.length, s.ts⟩ else none)
      ∧ OtherOps [r] s t ∧ OnlyParts [.ops, .reqs, .sac, .cells] s t)
  ∧ ∀ (s : State) (h : UitHold), s.sac.uit = some h → h.since + 1000 * fld (regOf s (GTH + 8)) 0 16 ≤ s.ts →
    Runs .uitHoldExpiry s fun t => t.sac = { s.sac with uit := none, uitClr := s.sac.uitClr + 1 } ∧ OnlyParts [.sac] s t)
  ∧ ((∀ (s : State) (p : Fin 8) (pk : Packet) (b : List Byte), Asked s p.val pk 0x12 → pk.body = .raw b → leAt b 12 1 / 64 = 0 →
    leAt b 13 1 % 2 = 0 → leAt b 23 1 = 1 →
    let slot := graphLo (leAt b 12 1 % 64)
    let head := fld (regOf s slot) 6 26 * 64 + 2 ^ 32 * regOf s (slot + 4)
    let w := leNat (bytesAt s none (.hbm head) 64)
    let g := graphOf w
    let node := leAt (b.drop 32) 0 8
    let at_ := g.off + 8 * (node - g.first)
    let offs := bytesAt s none (.hbm at_) 16
    let lo := leAt offs 0 8
    let n := leAt offs 8 8 - lo
    bit (regOf s slot) 0 = true → Readable s (.hbm head) 64 → graphBad w = false → g.first ≤ node → node < g.first + g.count →
    Readable s (.hbm at_) 16 → lo ≤ leAt offs 8 8 → leAt offs 8 8 ≤ g.edges → n ≤ leAt b 14 2 → 16 * n + 4 < 2 ^ 13 →
    (∀ i < n, Readable s (.hbm (g.ids + g.idw * (lo + i))) g.idw) →
    Runs (.sampleRequest p pk) s fun t => SentAnswer s t pk 0x92 0 (16 * n + 4)
        (.sampleRsp [(List.range n).map fun i => (leNat (bytesAt s none (.hbm (g.ids + g.idw * (lo + i))) g.idw), 0)])
      ∧ OnlyParts [.outs, .links] s t)
  ∧ ∀ (s : State) (p : Fin 8) (pk : Packet) (q : Req) (hop : Nat) (pos : List Nat) (xs : List (List (Nat × Nat))) (r : OpRef)
      (o : Op) (hs : List HopWork) (last : HopWork), Answers s p.val pk 0x92 q → q.kind = .sample hop pos → q.op = some r →
    pk.body = .sampleRsp xs → OpAt s r o .running 1 → o.work = .sample hs → smpMode o ≠ 2 →
    (hs.modify hop fun h => fillEdges h (pos.zip xs)).getLast? = some last → last.edges.any Option.isNone = true →
    Runs (.sampleRsp p pk) s fun t =>
      OpAt t r { o with work := .sample (hs.modify hop fun h => fillEdges h (pos.zip xs)) } .running 1
      ∧ SlotGone s t q.optag ∧ OtherOps [r] s t ∧ OnlyParts [.ops, .reqs, .links] s t)

/-! ### SCATTER_ADD -/

/-- SCATTER_ADD (R71 to R78): one index of a local row puts its gradient exactly into the empty accumulator, the scratch of its cell
becomes undefined, and the operation ends OK. A FINAL operation over a context that holds nothing ends OK and leaves the context
IDLE; so does a KX_SCATTER_ADD. Over a context with records its retirement pass begins, and the context is RETIRING. CONTRIB and
CONTRIB_ACK (R71, R73): the owner takes a contribution into the context and row it names and acknowledges it; a refusal comes for a
context that is not enabled. The last acknowledgement ends a SCATTER_ADD that is not FINAL. -/
def Obligations.ScatterAddAccumulatesWhereOwned : Prop :=
  (∀ (s : State) (r : OpRef) (o : Op) (d : TDesc), tdGet s (scTable o) = some d →
    (∀ li lg, OpAt s r o .ready 4 → o.work = .none → scFinal o = false → scSegd o = false → scWeighted o = false → scCount o = 1 →
        cellBusy s (scCell o) = false → HbmSound s → retiring s = none → transients s = [] → 0 < fld (regOf s (SAC + 4)) 0 16 →
        FetchesAt s o true (ptrAddr (o.ptr 32)) (scIdxB o) li →
        FetchesAt s o true (ptrAddr (o.ptr 44)) (rowElems d * scGradB o) lg → uitLook s o false = .empty → reqsOf s r = [] →
        s.sac.ents = [] → (ctxAt s (scCtx o)).st ≠ 2 → (∀ m ∈ s.tbl.migs, m.table ≠ scTable o) →
        let row := leNat (bytesAt s o.who li (scIdxB o))
        let grad := (chunks (scGradB o) (bytesAt s o.who lg (rowElems d * scGradB o))).map fun b =>
          (if scGradB o = 2 then bf16 else fp32).val (leNat b)
        row < d.rows → ownsRow s (scTable o) d row = true →
      Runs (.scatterAdd r []) s fun t => Ended t r OK 0
        ∧ (∃ e, t.sac.ents = [e] ∧ e.ctx = scCtx o ∧ e.table = scTable o ∧ e.row = row
            ∧ e.sums = (groupGrad false [0] grad).map fun v => xsOf (v32 v))
        ∧ (ctxAt t (scCtx o)).st = 1 ∧ scTable o ∈ (ctxAt t (scCtx o)).mask ∧ Released t r ∧ OtherOps [r] s t
        ∧ MemBut (benchKey (scCell o) (65536 * scOff o)) (65536 * scLen o) s.bench t.bench
        ∧ OnlyParts [.bench, .ops, .reqs, .sac, .cells] s t)
    ∧ (OpAt s r o .running 4 → o.work = .xfer 1 → reqsOf s r = [] → scFinal o = true → scTarget o = false → s.sac.ents = [] →
        (ctxAt s (scCtx o)).st ≠ 2 → retiring s = none → transients s = [] → retireReady s o = true →
      ((ctxAt s (scCtx o)).spills ≠ [] → Runs (.scatterAdd r []) s fun t =>
          OpAt t r { o with phase := .running, work := .xfer 2 } .running 4 ∧ ctxAt t (scCtx o) = { ctxAt s (scCtx o) with st := 3 }
          ∧ OtherOps [r] s t ∧ OnlyParts [.ops, .sac, .cells] s t)
      ∧ ((ctxAt s (scCtx o)).spills = [] →
      ∀ c ∈ [Instr.scatterAdd r [], .kxScatterAdd r []], (c = .kxScatterAdd r [] → r.ring.val = 64) →
      Runs c s fun t => Ended t r OK 0 ∧ ctxAt t (scCtx o) = ⟨0, 0, [], [], [], []⟩ ∧ OtherOps [r] s t
        ∧ OnlyParts [.ops, .reqs, .sac, .cells] s t)))
  ∧ ((∀ (s : State) (p : Fin 8) (pk : Packet) (c id row : Nat) (g : List Nat), Asked s p.val pk 0x14 → pk.body = .contrib c id row g →
    c < 16 → HbmSound s → retiring s = none → transients s = [] → 0 < fld (regOf s (SAC + 4)) 0 16 →
    (bit (regOf s (sacCtxW c 0)) 0 = true → (∀ d, tdGet s id = some d → ownsRow s id d row = true) → s.sac.ents = [] →
        (ctxAt s c).st ≠ 2 → (∀ m ∈ s.tbl.migs, m.table ≠ id) → ovFind s id row = none →
      Runs (.contrib p pk) s fun t => SentAnswer s t pk 0x94 0 0 .none
        ∧ (∃ e, t.sac.ents = [e] ∧ e.ctx = c ∧ e.table = id ∧ e.row = row ∧ e.sums = g.map fun v => xsOf (v32 v))
        ∧ (ctxAt t c).st = 1 ∧ id ∈ (ctxAt t c).mask ∧ OnlyParts [.outs, .sac, .links] s t)
    ∧ (bit (regOf s (sacCtxW c 0)) 0 = false →
      Runs (.contrib p pk) s fun t => SentRefusal s t pk BAD_DESCRIPTOR ∧ OnlyParts [.outs, .links] s t))
  ∧ ∀ (s : State) (p : Fin 8) (pk : Packet) (q : Req) (r : OpRef) (o : Op), Answers s p.val pk 0x94 q → q.kind = .contrib →
    refusalOf pk = 0 → pk.body = .none → q.op = some r → OpAt s r o .running 4 → o.work = .xfer 1 → scFinal o = false →
    (∀ y ∈ s.reqs, y.op = some r → y.optag = q.optag) →
    Runs (.contribAck p pk) s fun t => Ended t r OK 0 ∧ Released t r ∧ OtherOps [r] s t ∧ OnlyParts [.ops, .reqs, .cells, .links] s t)

/-! ### Cells -/

/-- CELL_RUN (R115, R116, R131, R136): with a sound image and idle cells, every selected cell starts the program, its text at bench
offset 0 and its arguments at the top of BENCH_NEED; with a busy cell it waits (R100); and the retirement of a run is its end, OK. A
fault of a cell instruction stops its run (R118, R137): cause and instruction are recorded, and the operation ends CELL_FAULT with
the cell and the cause in DETAIL; a vector fault records its register and, where it has one, its first faulting element. -/
def Obligations.CellRunsStartAndFault : Prop :=
  (∀ (s : State) (r : OpRef) (o : Op),
    (∀ lh lt args, OpAt s r o .ready 5 → FetchesAt s o false (crProgram o) 64 lh →
        let h := bytesAt s o.who lh 64
        let need := leAt h 24 4
        imgChk s o h = none → (rangeChk s o (crProgram o) (64 + leAt h 4 4) false).1 = false →
        FetchesAt s o false (crProgram o + 64) (leAt h 4 4) lt →
        let text := bytesAt s o.who lt (leAt h 4 4)
        crc32 text = leAt h 28 4 →
        ((crArgSpan o = 0 ∧ args = []) ∨ ∃ la, FetchesAt s (crArgOp s o (leAt h 2 2)) (bit (leAt h 2 2) 0) (crArgs o) (crArgSpan o) la
          ∧ args = bytesAt s o.who la (crArgSpan o)) →
        s.sram = [] → Inv s →
      ((∀ c ∈ crList o, cellBusy s c = false) → Runs (.cellRun r) s fun t => (∃ x, OpAt t r x .running 5) ∧ OtherOps [r] s t
        ∧ (∀ c ∈ crList o, cellAt t c = { cellZero with holder := some (r, 0), need := need, learning := bit (leAt h 2 2) 0, well := bit (leAt h 2 2) 1 }
            ∧ t.bench.getN (benchKey c 0) text.length = text ∧ regOf t (celW c 0x100) = 0)
        ∧ (∀ i c, (crList o)[i]? = some c → t.bench.getN (benchKey c (need - crArgBytes o)) (crArgBytes o)
            = (args.drop (i * crStride o)).take (crArgBytes o))
        ∧ OnlyParts [.regs, .bench, .ops, .cells] s t)
      ∧ ((∃ c ∈ crList o, cellBusy s c = true) → Runs (.cellRun r) s fun t =>
          OpAt t r { o with phase := .waitRes, delayed := true, t0 := s.ts } .waitRes 5 ∧ OtherOps [r] s t ∧ OnlyParts [.ops] s t))
    ∧ (OpAt s r o .running 5 → (∀ c ∈ crList o, (cellAt s c).waiting = 0) →
      Runs (.cellRun r) s fun t => Ended t r OK 0 ∧ Released t r ∧ OtherOps [r] s t ∧ OnlyParts [.ops, .reqs, .cells] s t))
  ∧ (∀ (s : State) (a : CellAt) (o : Op), Inv s → OnCell s a o →
    (∀ x, (pairOk x.a x.b = false ∨ outOk x.a.fmt x.outFmt x.outMx x.oscale = false) →
      Runs (.arrayInstruction a x) s fun t => Faulted s t a o 2)
    ∧ (∀ x, vecOk x = false → Runs (.vectorArithmetic a x) s fun t => Faulted s t a o 2)
    ∧ (∀ x, vecOk x = true → pairOdd x = true → Runs (.vectorArithmetic a x) s fun t => Faulted s t a o 0x12
        ∧ fld (regOf t (celW a.cell.val 0x104)) 13 6 = (oddOf (pairRegs x)).getD 0)
    ∧ (∀ x, x.stoch = true → Runs (.conversion a x) s fun t => Faulted s t a o 0x13
        ∧ fld (regOf t (celW a.cell.val 0x104)) 13 6 = x.d.val)
    ∧ (∀ x, 4 ≤ x.acc.val → Runs (.accumulatorRead a x) s fun t => Faulted s t a o 0x14
        ∧ fld (regOf t (celW a.cell.val 0x104)) 13 6 = x.d.val)
    ∧ (∀ x e, x.form ∈ [LsForm.load, .store] → vecFmt x.fmt = true → x.addr % 4096 = 0 →
        (lsElems s a.cell.val x).find? (fun e => decide ((cellAt s a.cell.val).need < e.2 + FmtOf.bytes x.fmt)) = some e →
      Runs (.contiguousLoadStore a x) s fun t => Faulted s t a o 0x10
        ∧ regOf t (celW a.cell.val 0x104) = e.1 % 8192 + 8192 * x.reg.val)
    ∧ (∀ x i ad cause, vecFmt x.fmt = true → gsFault (cellAt s a.cell.val).need (FmtOf.bytes x.fmt) (gsElems s a.cell.val x) = some (i, ad, cause) →
      ∀ c ∈ [Instr.benchGather a x, .benchScatter a x], Runs c s fun t => Faulted s t a o cause
        ∧ regOf t (celW a.cell.val 0x104) = i % 8192 + 8192 * x.reg.val)
    ∧ (∀ rg ly, stashOpenB s rg.val = false → Runs (.stashTest a rg ly) s fun t => Faulted s t a o 0x22)
    ∧ (∀ x, (cellAt s a.cell.val).learning = false → Runs (.wellAdd a x) s fun t => Faulted s t a o 5)
    ∧ (∀ i gen op, escIn s o.d i.toNat = false → Runs (.cellEscapementOp a i gen op) s fun t => Faulted s t a o 4))

/-- CELL_ESCAPEMENT_OP (R274, Table 15.7): the operations of a cell program on an escapement of its domain; a WAIT_GE holds its
sequencer exactly while GEN matches and COUNT is below the value. -/
def Obligations.CellEscapementOpAppliesTheTable : Prop :=
  ∀ (s : State) (a : CellAt) (o : Op) (i gen : BitVec 16), OnCell s a o → escIn s o.d i.toNat = true → EscSound s i.toNat →
    NoWaiter s i.toNat →
    (∀ n : Word, (escAt s i.toNat).gen = gen → (escAt s i.toNat).st ∈ [EscState.idle, .armed, .fired] →
      Runs (.cellEscapementOp a i gen (.add n)) s fun t => EscAdded (escAt s i.toNat) (escAt t i.toNat) n.toNat
        ∧ OtherEscs i.toNat s t ∧ OnlyParts [.priv, .esc, .ops, .outs, .hosts, .schDue, .lpe] s t)
    ∧ (∀ x : Word, (escAt s i.toNat).gen = gen → (escAt s i.toNat).st ∈ [EscState.idle, .armed] →
      Runs (.cellEscapementOp a i gen (.arm x)) s fun t => EscArmed (escAt s i.toNat) (escAt t i.toNat) x.toNat
        ∧ OtherEscs i.toNat s t ∧ OnlyParts [.priv, .esc, .outs, .hosts, .schDue, .lpe] s t)
    ∧ ((escAt s i.toNat).gen = gen →
      Runs (.cellEscapementOp a i gen .reset) s fun t => EscWasReset (escAt s i.toNat) (escAt t i.toNat)
        ∧ OtherEscs i.toNat s t ∧ OnlyParts [.esc] s t)
    ∧ (∀ (v : Byte) (on : Bool), (escAt s i.toNat).gen = gen →
      Runs (.cellEscapementOp a i gen (.notify v on)) s fun t => EscNotified (escAt s i.toNat) (escAt t i.toNat) v.toNat on
        ∧ OtherEscs i.toNat s t ∧ OnlyParts [.esc] s t)
    ∧ (∀ v : BitVec 16, Runs (.cellEscapementOp a i gen (.waitGe v)) s fun t =>
        (cellAt t a.cell.val).waiting.getLsbD a.strm.val
          = ((escAt s i.toNat).gen == gen && decide ((escAt s i.toNat).count.toNat < v.toNat))
        ∧ (∀ j, j ≠ a.strm.val → (cellAt t a.cell.val).waiting.getLsbD j = (cellAt s a.cell.val).waiting.getLsbD j)
        ∧ (∀ c, c ≠ a.cell.val → cellAt t c = cellAt s c) ∧ OnlyParts [.cells] s t)

/-- ARRAY_INSTRUCTION (R103 to R109): every element of a product of at most one block stands in the bench as the array computes and
converts it, and nothing outside the output and its scales changes. -/
def Obligations.ArrayInstructionWritesTheProduct : Prop :=
  ∀ (s : State) (a : CellAt) (o : Op) (x : ArrayInstr), Inv s → OnCell s a o → s.sram = [] → x.misses = 0 → 0 < x.m → x.m ≤ 128 →
    0 < x.n → x.n ≤ 128 → pairOk x.a x.b = true → outOk x.a.fmt x.outFmt x.outMx x.oscale = true →
    rangesFault (cellAt s a.cell.val).need (arrRanges x) = none → x.scales + scaleArray x ≤ (cellAt s a.cell.val).need →
    (cellAt s a.cell.val).need ≤ benchSize →
    let c := a.cell.val
    let w := FmtOf.bytes x.outFmt
    let da := storedDims x.a.trans x.m x.k
    let db := storedDims x.b.trans x.k x.n
    (x.out + w * x.m * x.n ≤ x.scales ∨ x.scales + scaleArray x ≤ x.out ∨ scaleArray x = 0) →
    let init (i j : Nat) : Nat := match x.init with
      | some p => leAt (bytesAt s o.who (.bench c p) (4 * x.m * x.n)) (4 * (i * x.n + j)) 4
      | none => 0
    let y := (blockVal (operandOf s c o x.a da.1 da.2 x.k) (operandOf s c o x.b db.1 db.2 x.k) x.a.trans x.b.trans x.k x.outFmt
      x.outMx (sInt 8 x.oscale.toNat) (narrow x.a.fmt || narrow x.b.fmt) 2 s.nonce init ⟨0, 0, x.m, x.n⟩).1
    Runs (.arrayInstruction a x) s fun t =>
      (∀ i j e, i < x.m → j < x.n → (y.rows[i]?.bind fun l => l[j]?) = some e →
        leNat (t.bench.getN (benchKey c (x.out + w * (i * x.n + j))) w) = e.code % 2 ^ (8 * w))
      ∧ (∀ k, (k < benchKey c x.out ∨ benchKey c (x.out + w * x.m * x.n) ≤ k) →
          (k < benchKey c x.scales ∨ benchKey c (x.scales + scaleArray x) ≤ k) → t.bench.get k = s.bench.get k)
      ∧ RegsBut [celW c 0x10, celW c 0x14] s t ∧ OnlyParts [.regs, .bench, .lpe] s t

/-! ### The backward pass -/

/-- WELL_ADD, WGRAD and WELL_CLEAR (R121, R136, R145, R147 to R149) on slots that lie in the well: one rounded addition for each
element the mask governs, and its flags; the block product added to what stands there; and elements of +0 with the claim released.
The first two claim the slot. STASH_OPEN, STASH_RELEASE and the stash instructions (R140 to R143): the directory is filled in and
the region opens; stores, of dense tiles or by a tile directory, and loads of planned layers move the tiles and statistics; a store
to a layer that was left out is counted and writes nothing; a test gives the layer's STATE. -/
def Obligations.WellSlotsAndStashRegionsHold : Prop :=
  (∀ (s : State), Inv s → s.sram = [] →
    (∀ (a : CellAt) (o : Op) (x : WellAddInstr), OnCell s a o → (cellAt s a.cell.val).learning = true →
        slotValid s x.slot.val = true → slotOwner s x.slot.val = o.d → x.first + min x.count 1024 ≤ slotLen s x.slot.val →
        (claimed s x.slot.val = false ∨ claimOf s x.slot.val = x.prod.toNat) → Shown s (some o.ref) →
        rivals s o a.cell.val 2 (4 * (slotBase s x.slot.val + x.first)) (4 * min x.count 1024) = [] →
        let c := a.cell.val
        let on := activeAt (maskGet s c x.mask.val) 4
        let old := fun i => wellWord s s.well x.slot.val (x.first + i)
        let add := fun i => (elemsOf 4 (vregGet s c x.reg.val false)).getD i 0
      Runs (.wellAdd a x) s fun t =>
        (∀ i, i < min x.count 1024 → wellWord s t.well x.slot.val (x.first + i)
          = if on i then fadd (old i) (add i) % 2 ^ 32 else old i)
        ∧ MemBut (4 * (slotBase s x.slot.val + x.first)) (4 * min x.count 1024) s.well t.well
        ∧ ((∃ i, i < min x.count 1024 ∧ on i = true) → claimed t x.slot.val = true ∧ claimOf t x.slot.val = x.prod.toNat)
        ∧ regOf t (celW c 0x100) = ((List.range (min x.count 1024)).filter on).foldl
            (fun n i => n ||| (fpRes fp32 [v32 (old i), v32 (add i)] ((v32 (old i)).add (v32 (add i)))).2.bits) (regOf s (celW c 0x100))
        ∧ VecRetired s t c ∧ RegsBut (claimW x.slot.val :: vecRegs c) s t ∧ OnlyParts [.regs, .well, .ops] s t)
    ∧ (∀ (a : CellAt) (o : Op) (x : WgradInstr), OnCell s a o → x.misses = 0 → 0 < x.m → x.m ≤ 128 → 0 < x.n → x.n ≤ 128 →
        pairOk x.a x.dy = true → FmtOf.isInt x.a.fmt = false →
        let c := a.cell.val
        let da := storedDims x.a.trans x.m x.k
        let db := storedDims x.dy.trans x.k x.n
        rangesFault (cellAt s c).need (operandRanges x.a da.1 da.2 x.k ++ operandRanges x.dy db.1 db.2 x.k) = none →
        (cellAt s c).learning = true → slotValid s x.slot.val = true → slotOwner s x.slot.val = o.d →
        x.first + x.m * x.n ≤ slotLen s x.slot.val → (claimed s x.slot.val = false ∨ claimOf s x.slot.val = x.prod.toNat) →
        Shown s (some o.ref) → rivals s o c 2 (4 * (slotBase s x.slot.val + x.first)) (4 * (x.m * x.n)) = [] →
        let y := (blockVal (operandOf s c o x.a da.1 da.2 x.k) (operandOf s c o x.dy db.1 db.2 x.k) x.a.trans x.dy.trans x.k .fp32
          false 0 false 0 s.nonce (fun i j => wellWord s s.well x.slot.val (x.first + i * x.n + j)) ⟨0, 0, x.m, x.n⟩).1
      Runs (.wgrad a x) s fun t =>
        (∀ i j e, i < x.m → j < x.n → (y.rows[i]?.bind fun l => l[j]?) = some e →
          wellWord s t.well x.slot.val (x.first + i * x.n + j) = e.code % 2 ^ 32)
        ∧ MemBut (4 * (slotBase s x.slot.val + x.first)) (4 * x.m * x.n) s.well t.well
        ∧ claimed t x.slot.val = true ∧ claimOf t x.slot.val = x.prod.toNat
        ∧ RegsBut [claimW x.slot.val] s t ∧ OnlyParts [.regs, .well, .ops] s t)
    ∧ ∀ (r : OpRef) (o : Op), OpAt s r o .ready 11 → bwSub o = 2 → bwFirst o + bwCount o ≤ 1024 →
        runsWith s o.d CellSt.well = false → (∀ i, bwFirst o ≤ i → i < bwFirst o + bwCount o → slotExt s i = 0) →
      Runs (.wellClear r) s fun t => Ended t r OK 0
        ∧ (∀ i, bwFirst o ≤ i → i < bwFirst o + bwCount o → claimed t i = false
            ∧ ∀ e, e < slotLen s i → wellWord s t.well i e = 0)
        ∧ (∀ k, (∀ i, bwFirst o ≤ i → i < bwFirst o + bwCount o →
            k < 4 * slotBase s i ∨ 4 * (slotBase s i + slotLen s i) ≤ k) → t.well.get k = s.well.get k)
        ∧ OtherOps [r] s t ∧ OnlyParts [.regs, .well, .ops, .reqs, .cells] s t)
  ∧ (∀ (s : State), Inv s → HbmSound s → s.sram = [] →
    (∀ (r : OpRef) (o : Op), OpAt s r o .ready 11 → Shown s (some r) → bwSub o = 0 → stashOpenB s (bwRegion o) = false →
        stashBase s (bwRegion o) + 4096 ≤ hbmCap s →
        let b := s.hbm.getN (stashBase s (bwRegion o)) 4096
        stashDirBad b = false →
        let es := stashAlloc (stashSize s (bwRegion o)) 4096 false ((stashEntries b).map stashDirOf)
      Runs (.stashOpen r) s fun t => Ended t r OK ((findIdx (fun e => e.state == 3) es).getD 0xFFFF)
        ∧ t.stash = s.stash ||| BitVec.ofNat 8 (2 ^ bwRegion o)
        ∧ t.hbm.getN (stashBase s (bwRegion o)) 4096 = ((stashEntries b).zip es).flatMap (fun x => stashImage x.1 x.2)
        ∧ MemBut (stashBase s (bwRegion o)) 4096 s.hbm t.hbm
        ∧ regOf t (BWD + 0x20) = (regOf s (BWD + 0x20) + es.countP fun e => e.state == 3) % 2 ^ 32 ∧ RegsBut [BWD + 0x20] s t
        ∧ OtherOps [r] s t ∧ OnlyParts [.regs, .hbm, .ops, .reqs, .cells, .stash] s t)
    ∧ (∀ (r : OpRef) (o : Op), OpAt s r o .ready 11 → bwSub o = 1 →
        runsWith s o.d (fun c => c.stash.getLsbD (bwRegion o)) = false →
      Runs (.stashRelease r) s fun t => Ended t r OK 0 ∧ t.stash = s.stash &&& ~~~ BitVec.ofNat 8 (2 ^ bwRegion o)
        ∧ OtherOps [r] s t ∧ OnlyParts [.ops, .reqs, .cells, .stash] s t)
    ∧ ∀ (a : CellAt) (o : Op) (region layer : Nat), OnCell s a o → Shown s (some o.ref) → stashOpenB s region = true → stashMine s o.d region = true →
        stashBase s region + 16 * layer + 16 ≤ hbmCap s →
        let e := stashDirOf (s.hbm.getN (stashBase s region + 16 * layer) 16)
        let base := stashBase s region + 64 * e.off
        (∀ (rg : Fin 8) (ly : Fin 256), rg.val = region → ly.val = layer →
          Runs (.stashTest a rg ly) s fun t => (cellAt t a.cell.val).scalar = BitVec.ofNat 64 e.state
            ∧ (∀ c, c ≠ a.cell.val → cellAt t c = cellAt s c) ∧ OnlyParts [.cells] s t)
        ∧ ∀ (x : StashInstr), x.region.val = region → x.layer.val = layer → stashBeyond e x = false →
          (e.state = 3 → (cellAt s a.cell.val).learning = true → stashBench s a x true = none →
            Runs (.stashStore a x) s fun t => regOf t (BWD + 0x24) = (regOf s (BWD + 0x24) + stashUnits e x) % 2 ^ 32
              ∧ RegsBut [BWD + 0x24] s t ∧ OnlyParts [.regs, .cells] s t)
          ∧ (e.state = 2 → base + stashBytes e ≤ hbmCap s → 0 < x.count →
            let ts := x.dir.map fun p => tilesAt s a.cell.val o x.bench p x.count
            let b := match x.stats, ts with
              | false, some l => l.flatMap fun t => (t.getD []).flatMap (leBytes 2)
              | _, _ => s.bench.getN (benchKey a.cell.val x.bench) (stashNeed x)
            let nar := stashNarrow e.fmt ((chunks 2 b).map leNat)
            let rows := base + stashElB e + stashScB e + 8 * x.first
            ((cellAt s a.cell.val).learning = true → stashBench s a x true = none → x.stats = true →
              Runs (.stashStore a x) s fun t => t.hbm.getN rows (8 * x.count) = b ∧ MemBut rows (8 * x.count) s.hbm t.hbm
                ∧ OnlyParts [.hbm, .ops, .cells] s t)
            ∧ ((cellAt s a.cell.val).learning = true → stashBench s a x true = none → x.stats = false →
                (∀ l ∈ ts, ∀ t ∈ l, t.isSome = true) →
              Runs (.stashStore a x) s fun t =>
                t.hbm.getN (base + (if e.fmt = 2 then 2048 else 1024) * x.first) nar.1.length = nar.1
                ∧ t.hbm.getN (base + stashElB e + 32 * x.first) nar.2.1.length = nar.2.1
                ∧ MemBut base (stashElB e + stashScB e) s.hbm t.hbm ∧ OnlyParts [.hbm, .ops, .cells, .lpe] s t)
            ∧ (stashBench s a x false = none → stashOpenStores s base e = false →
             (x.stats = true →
              Runs (.stashLoad a x) s fun t => t.bench.getN (benchKey a.cell.val x.bench) (8 * x.count) = s.hbm.getN rows (8 * x.count)
                ∧ MemBut (benchKey a.cell.val x.bench) (8 * x.count) s.bench t.bench ∧ OnlyParts [.bench, .cells] s t)
            ∧ (x.stats = false → e.fmt = 2 →
              Runs (.stashLoad a x) s fun t => t.bench.getN (benchKey a.cell.val x.bench) (2048 * x.count)
                  = s.hbm.getN (base + 2048 * x.first) (2048 * x.count)
                ∧ MemBut (benchKey a.cell.val x.bench) (2048 * x.count) s.bench t.bench ∧ OnlyParts [.bench, .cells] s t)
            ∧ (x.stats = false → e.fmt ≠ 2 →
              Runs (.stashLoad a x) s fun t => (∀ i, i < 1024 * x.count →
                  leNat (t.bench.getN (benchKey a.cell.val (x.bench + 2 * i)) 2)
                    = rbf (mxVal (if e.fmt = 0 then .e4m3 else .e5m2) (s.hbm.get (base + stashElB e + 32 * x.first + i / 32)).toNat
                        (s.hbm.get (base + 1024 * x.first + i)).toNat) % 65536)
                ∧ MemBut (benchKey a.cell.val x.bench) (2048 * x.count) s.bench t.bench ∧ OnlyParts [.bench, .cells] s t))))

/-! ### The vector engine -/

/-- VECTOR_ARITHMETIC, CONVERSION and TRANSCENDENTAL (R121 to R128): each active element of the destination takes the result of the
operation, a masked one keeps its code or becomes 0, VEC_FLAGS takes the flags of the active elements, and no other register
changes. REDUCTION and ACCUMULATOR_READ (R130, R131): a reduction of the active elements goes to the low bytes of the destination
and to the scalar file, or is added exactly into an accumulator; a read gives the accumulator rounded once, as the mask of element 0
lets it, and may clear it. -/
def Obligations.VectorOperationsGiveTheirResult : Prop :=
  (∀ (s : State) (a : CellAt) (o : Op), Inv s → OnCell s a o →
    let c := a.cell.val
    (∀ (x : VecInstr), vecOk x = true → pairOdd x = false → x.misses = 0 → x.pair = false → x.op ≠ .fmaW →
        vKind x.op ∈ [VKind.float, .integer, .shift, .logic] →
        let w := (vecShape x).1
        let wd := (vecShape x).2.1
        let m := maskGet s c x.mask.val
        let el (r : Fin 64) (k i : Nat) : Nat := (elemsOf k (vregGet s c r.val false)).getD i 0
        let res (i : Nat) := elemRes x (el x.a w i) (el x.b w i) (el x.c w i)
      Runs (.vectorArithmetic a x) s fun t =>
        (∀ i, i < (vecShape x).2.2 → (elemsOf wd (vregGet t c x.d.val false)).getD i 0
          = (if activeAt m wd i then (res i).1 % 2 ^ (8 * wd) else if x.zero then 0 else el x.d wd i))
        ∧ regOf t (celW c 0x100) = ((List.range (vecShape x).2.2).filter fun i => activeAt m wd i).foldl
            (fun n i => n ||| (res i).2.bits) (regOf s (celW c 0x100))
        ∧ VecRetired s t c ∧ VregBut [(c, x.d.val)] s t ∧ RegsBut (vecRegs c) s t ∧ OnlyParts [.regs, .vreg] s t)
    ∧ (∀ (x : ConvInstr), x.stoch = false → x.mx = .plain → convFmt x.src = true → convFmt x.dst = true → x.pair = false →
        let ws := FmtOf.bytes x.src
        let wd := FmtOf.bytes x.dst
        let m := maskGet s c x.mask.val
        let el (r : Fin 64) (k i : Nat) : Nat := (elemsOf k (vregGet s c r.val false)).getD i 0
        let res (i : Nat) := convVal x.dst x.rtz x.satfin (codeVal x.src (el x.a ws i)) (!FmtOf.isInt x.src)
      Runs (.conversion a x) s fun t =>
        (∀ i, i < vregBytes / max ws wd → (elemsOf wd (vregGet t c x.d.val false)).getD i 0
          = (if activeAt m wd i then (res i).1 % 2 ^ (8 * wd) else if x.zero then 0 else el x.d wd i))
        ∧ regOf t (celW c 0x100) = ((List.range (vregBytes / max ws wd)).filter fun i => activeAt m wd i).foldl
            (fun n i => n ||| (res i).2.bits) (regOf s (celW c 0x100))
        ∧ VecRetired s t c ∧ VregBut [(c, x.d.val)] s t ∧ RegsBut (vecRegs c) s t ∧ OnlyParts [.regs, .vreg] s t)
    ∧ (∀ (x : TransInstr), x.fmt ∈ [Fmt.fp32, .bf16, .fp16] → x.pair = false →
        let w := FmtOf.bytes x.fmt
        let m := maskGet s c x.mask.val
        let el (r : Fin 64) (i : Nat) : Nat := (elemsOf w (vregGet s c r.val false)).getD i 0
      Runs (.transcendental a x) s fun t =>
        (∀ i, i < vregBytes / w → (elemsOf w (vregGet t c x.d.val false)).getD i 0
          = (if activeAt m w i then (tranRes x.fn x.fmt (el x.a i)).1 % 2 ^ (8 * w) else if x.zero then 0 else el x.d i))
        ∧ regOf t (celW c 0x100) = ((List.range (vregBytes / w)).filter fun i => activeAt m w i).foldl
            (fun n i => n ||| (tranRes x.fn x.fmt (el x.a i)).2.bits) (regOf s (celW c 0x100))
        ∧ VecRetired s t c ∧ VregBut [(c, x.d.val)] s t ∧ RegsBut (vecRegs c) s t ∧ OnlyParts [.regs, .vreg] s t))
  ∧ (∀ (s : State) (a : CellAt) (o : Op), Inv s → OnCell s a o →
    let c := a.cell.val
    (∀ (x : RedInstr), redOk x = true → x.misses = 0 → (x.pair = true → x.a.val % 2 = 0) →
        let es := elemsOf (FmtOf.bytes x.fmt) (vregGet s c x.a.val x.pair)
        let cs := ((List.range es.length).zip es).filterMap fun e =>
          if activeAt (maskGet s c x.mask.val) (FmtOf.bytes x.fmt) e.1 then some e.2 else none
      (x.acc = none → Runs (.reduction a x) s fun t =>
          (vregGet t c x.d.val false).take (redRes x.op x.fmt cs).width = leBytes (redRes x.op x.fmt cs).width (redRes x.op x.fmt cs).code
          ∧ (vregGet t c x.d.val false).drop (redRes x.op x.fmt cs).width = (vregGet s c x.d.val false).drop (redRes x.op x.fmt cs).width
          ∧ (cellAt t c).scalar = BitVec.ofNat 64 (redRes x.op x.fmt cs).code
          ∧ regOf t (celW c 0x100) = regOf s (celW c 0x100) ||| (redRes x.op x.fmt cs).fl.bits
          ∧ VecRetired s t c ∧ VregBut [(c, x.d.val)] s t ∧ RegsBut (vecRegs c) s t ∧ OnlyParts [.regs, .vreg, .cells] s t)
      ∧ (∀ i, x.acc = some i → i.val < 4 → (cellAt s c).acc.length = 4 →
          Runs (.reduction a x) s fun t => accGet t c i.val = xsAdd (accGet s c i.val) (redTotal x.fmt cs)
            ∧ (∀ j, j ≠ i.val → accGet t c j = accGet s c j) ∧ VecRetired s t c
            ∧ RegsBut (vecRegs c) s t ∧ OnlyParts [.regs, .cells] s t))
    ∧ ∀ (x : AccReadInstr), x.acc.val < 4 → (cellAt s c).acc.length = 4 →
        let v := xsVal (accGet s c x.acc.val)
        let code := if x.asInt then toCode 32 (accInt v).1 else (fp32.round v false).code
        let on := activeAt (maskGet s c x.mask.val) 4 0
      Runs (.accumulatorRead a x) s fun t =>
        (vregGet t c x.d.val false).take 4 = (if on then leBytes 4 code else if x.zero then [0, 0, 0, 0]
          else (vregGet s c x.d.val false).take 4)
        ∧ regOf t (celW c 0x100) = (if on then regOf s (celW c 0x100) ||| (accCode x.asInt (accGet s c x.acc.val)).2.bits
          else regOf s (celW c 0x100))
        ∧ (vregGet t c x.d.val false).drop 4 = (vregGet s c x.d.val false).drop 4
        ∧ (cellAt t c).scalar = BitVec.ofNat 64 code
        ∧ accGet t c x.acc.val = (if x.clear then xsZero else accGet s c x.acc.val)
        ∧ (∀ j, j ≠ x.acc.val → accGet t c j = accGet s c j) ∧ VecRetired s t c ∧ VregBut [(c, x.d.val)] s t
        ∧ RegsBut (vecRegs c) s t ∧ OnlyParts [.regs, .vreg, .cells] s t)

/-- Bench access (R110, R132, R133, R135): contiguous loads and stores of the active elements, and tile stores; a gather reads each
active element at its address; a scatter writes them, the highest-numbered element winning; a scatter-add adds the elements that
name an address in ascending order. Nothing else of the bench or the registers changes. -/
def Obligations.BenchAccessMovesTheElements : Prop :=
  ∀ (s : State) (a : CellAt) (o : Op), Inv s → OnCell s a o → s.sram = [] → Shown s (some o.ref) →
    let c := a.cell.val
    let need := (cellAt s c).need
    need ≤ benchSize →
    (∀ (x : LsInstr), vecFmt x.fmt = true → x.addr % 4096 = 0 →
      let w := FmtOf.bytes x.fmt
      let on := activeAt (maskGet s c x.mask.val) w
      let reg (t : State) (i : Nat) : Nat := (elemsOf w (vregGet t c x.reg.val false)).getD i 0
      let cell (t : State) (i : Nat) : Nat := leNat (t.bench.getN (benchKey c (x.addr + w * i)) w)
      (∀ i, i < vregBytes / w → on i = true → x.addr + w * i + w ≤ need) →
      (x.form = .load → Runs (.contiguousLoadStore a x) s fun t =>
          (∀ i, i < vregBytes / w → reg t i = if on i then cell s i else if x.zero then 0 else reg s i)
          ∧ VecRetired s t c ∧ VregBut [(c, x.reg.val)] s t
          ∧ RegsBut (vecRegs c) s t ∧ OnlyParts [.regs, .vreg] s t)
      ∧ (x.form = .store → Runs (.contiguousLoadStore a x) s fun t =>
          (∀ i, i < vregBytes / w → cell t i = if on i then reg s i else cell s i) ∧ MemBut (benchKey c x.addr) 4096 s.bench t.bench
          ∧ VecRetired s t c ∧ RegsBut (vecRegs c) s t ∧ OnlyParts [.regs, .bench, .lpe] s t))
    ∧ (∀ (x : LsInstr) (base dir tile : Nat), x.form = .tileStore base dir tile → x.fmt = .bf16 → base % 64 = 0 → dir % 4 = 0 →
        base + tileSlot * (tile + 1) ≤ need → dir + 4 * (tile + 1) ≤ need →
        fld (regOf s (celW c 8)) 0 11 ≤ 960 → (dir + 4 * (tile + 1) ≤ base + tileSlot * tile ∨ base + tileSlot * (tile + 1) ≤ dir + 4 * tile) →
        let y := tileStore (bit (regOf s (celW c 0)) 1) (fld (regOf s (celW c 8)) 0 11)
          ((elemsOf 2 (vregGet s c x.reg.val false)).take 1024)
      Runs (.contiguousLoadStore a x) s fun t =>
        t.bench.getN (benchKey c (base + tileSlot * tile)) y.1.length = y.1
        ∧ leNat (t.bench.getN (benchKey c (dir + 4 * tile)) 4) = y.2 % 2 ^ 32 ∧ VecRetired s t c
        ∧ RegsBut (celW c 0x18 :: celW c 0x1C :: vecRegs c) s t ∧ OnlyParts [.regs, .bench, .lpe] s t)
    ∧ ∀ (x : GsInstr), vecFmt x.fmt = true →
        let w := FmtOf.bytes x.fmt
        let es := gsElems s c x
        let el (r : Fin 64) (i : Nat) : Nat := (elemsOf w (vregGet s c r.val false)).getD i 0
        gsFault need w es = none →
        Runs (.benchGather a x) s (fun t =>
          (∀ i, i < min 1024 (vregBytes / w) → (elemsOf w (vregGet t c x.reg.val false)).getD i 0
            = (match es.find? fun e => e.1 == i with
              | some e => leNat (s.bench.getN (benchKey c e.2) w)
              | none => if x.zero && !activeAt (maskGet s c x.mask.val) w i then 0 else el x.reg i))
          ∧ VecRetired s t c ∧ VregBut [(c, x.reg.val)] s t ∧ RegsBut (vecRegs c) s t ∧ OnlyParts [.regs, .vreg] s t)
        ∧ Runs (.benchScatter a x) s (fun t =>
          (∀ e ∈ es, (∀ e' ∈ es, e'.2 = e.2 → e'.1 ≤ e.1) →
            leNat (t.bench.getN (benchKey c e.2) w) = el x.reg e.1)
          ∧ (∀ k, (∀ e ∈ es, k < benchKey c e.2 ∨ benchKey c e.2 + w ≤ k) → t.bench.get k = s.bench.get k)
          ∧ VecRetired s t c ∧ RegsBut (vecRegs c) s t ∧ OnlyParts [.regs, .bench, .lpe] s t)
        ∧ (x.fmt = .fp32 ∨ FmtOf.isInt x.fmt = true →
          Runs (.benchScatterAdd a x) s fun t =>
          (∀ e ∈ es, leNat (t.bench.getN (benchKey c e.2) w)
            = ((es.filter fun y => y.2 == e.2).foldl (fun n y => (gsAdd x.fmt n (el x.reg y.1)).1)
                (leNat (s.bench.getN (benchKey c e.2) w))) % 2 ^ (8 * w))
          ∧ (∀ k, (∀ e ∈ es, k < benchKey c e.2 ∨ benchKey c e.2 + w ≤ k) → t.bench.get k = s.bench.get k)
          ∧ VecRetired s t c ∧ RegsBut (vecRegs c) s t ∧ OnlyParts [.regs, .bench, .lpe] s t)

/-! ### UPDATE, the regulator and the loupe -/

/-- UPDATE (R151 to R158): it waits while its verdict, its regulator, a cell or its table is not ready; with a non-finite gradient
its step is skipped; a second residue mismatch before the write pass ends it RESIDUE_FAULT with nothing written (R321); else each
weight of a dense shard becomes what its rule and storage mode give, and nothing outside its weights and state changes. A verdict
that stays out for TIMEOUT_MS ends it REMOTE_TIMEOUT, one of a group that is lost FABRIC_LOST (R153). ROW_UPD (R98, R27): the chip
that a row has moved to applies the rule to the row it holds, in the base of the version the UPDATE captured, and acknowledges; a
version that no base holds is REFUSED_VERSION, and a table it does not know or a row the table does not have is BAD_DESCRIPTOR. -/
def Obligations.UpdatesApplyTheirRule : Prop :=
  (∀ (s : State) (r : OpRef) (o : Op), Inv s → Shown s (some r) →
    (OpAt s r o .ready 6 → (∀ c ∈ bitsOf 32 (upCells o), (cellAt s c).resetting = false) → upVerdict o = true →
        takenVerdict s o = none → groupLost s (upCol o) = true →
      Runs (.update r []) s fun t => Ended t r FABRIC_LOST 0 ∧ Released t r ∧ OtherOps [r] s t ∧ OnlyParts [.ops, .reqs, .cells] s t)
    ∧ (OpAt s r o .ready 6 → (∀ c ∈ bitsOf 32 (upCells o), (cellAt s c).resetting = false) → upWaits s o = true →
        groupLost s (upCol o) = false →
      Runs (.update r []) s fun t => OpAt t r { o with phase := .waitRes, delayed := true, t0 := s.ts } .waitRes 6
        ∧ OtherOps [r] s t ∧ OnlyParts [.ops] s t)
    ∧ (∀ gl wl sl, OpAt s r o .ready 6 → (∀ c ∈ bitsOf 32 (upCells o), (cellAt s c).resetting = false) → upWaits s o = false →
        upTable o = false → HbmSound s → 0 < upElems o → upLoc s o (upGrad o) (4 * upElems o) = some gl →
        upLoc s o (upWeight o) (upWB o * upElems o) = some (.hbm wl) →
        upLoc s o (upState o) (upStateBytes (upRule o) (upRows o) (upCols o) (upMom s o)) = some (.hbm sl) →
        let gs := (chunks 4 (bytesAt s o.who gl (4 * upElems o))).map leNat
        let stLen := upStateBytes (upRule o) (upRows o) (upCols o) (upMom s o)
        (upVerdict o = false → (∃ g ∈ gs, (v32 g).isFin = false) →
          Runs (.update r []) s fun t => Ended t r OK_STEP_SKIPPED 0 ∧ regOf t (UPD + 0x10) = (regOf s (UPD + 0x10) + 1) % 2 ^ 32
            ∧ RegsBut [UPD + 0x10] s t ∧ Released t r ∧ OtherOps [r] s t ∧ OnlyParts [.regs, .ops, .reqs, .cells] s t)
        ∧ (upSkips s o gs = false → upRule o ∈ [2, 3, 4] → upMode o ∈ [0, 2] → upAux o = 0 →
            (∀ x ∈ s.ops, x.ref ≠ r → x.code ≠ 6) → o.upWork.race = [] →
            (wl + upWB o * upElems o ≤ sl ∨ sl + stLen ≤ wl) →
            let h := upHyper s o
            let p : Piece := ⟨upRows o, upCols o, gs, [], .hbm wl, .hbm sl, stLen, none, none, upRow0 o * upCols o, false⟩
            let st := s.hbm.getN sl stLen
            let aux (i : Nat) : Res := (rowAux h p st [] [] 0 (i / upCols o)).getD (i % upCols o) ⟨0, false⟩
            let out (i : Nat) : ElOut := elOut h p i (loadW h.mode (leAt (s.hbm.getN wl (upWB o * upElems o)) (upWB o * i) (upWB o)) 0)
              ((stOffs h p i).map fun off => leAt st off 4) (aux i)
          Runs (.update r []) s fun t => Ended t r OK 0
            ∧ (∀ i, i < upElems o → leNat (t.hbm.getN (wl + upWB o * i) (upWB o)) = (out i).w.code % 2 ^ (8 * upWB o))
            ∧ (∀ k, (k < wl ∨ wl + upWB o * upElems o ≤ k) → (k < sl ∨ sl + stLen ≤ k) → t.hbm.get k = s.hbm.get k)
            ∧ RegsBut [UPD + 0x14, UPD + 0x18, UPD + 0x1C] s t ∧ Released t r ∧ OtherOps [r] s t
            ∧ OnlyParts [.regs, .hbm, .ops, .reqs, .cells, .lpe] s t)
        ∧ (∀ m : EngMiss, upSkips s o gs = false → upRule o ∈ [2, 3, 4] → m.cell.val ∈ bitsOf 32 (upCells o) → m.again = true →
            m.begun = 0 → (∀ x ∈ s.ops, x.ref ≠ r → x.code ≠ 6) → o.upWork.race = [] →
          Runs (.update r [m]) s fun t => Ended t r RESIDUE_FAULT (residueDetail m.cell.val 2) ∧ quarantined t m.cell.val = true
            ∧ t.hbm = s.hbm ∧ Released t r ∧ OtherOps [r] s t))
    ∧ (OpAt s r o .waitRes 6 → upVerdict o = true → takenVerdict s o = none →
        o.t0 + 1000000 * fld (regOf s (COL + 0x108 + 32 * upCol o)) 0 16 ≤ s.ts →
      Runs (.verdictWaitTimeout r) s fun t => Ended t r REMOTE_TIMEOUT 0 ∧ Released t r ∧ OtherOps [r] s t))
  ∧ (∀ (s : State) (p : Fin 8) (pk : Packet) (u : RowUpdMsg), Inv s → Asked s p.val pk 0x16 → pk.body = .rowUpd u →
    (tdGet s u.table = none → Runs (.rowUpd p pk) s fun t => SentRefusal s t pk BAD_DESCRIPTOR ∧ OnlyParts [.outs, .links] s t)
    ∧ ∀ d, tdGet s u.table = some d →
      (d.rows ≤ u.row → Runs (.rowUpd p pk) s fun t => SentRefusal s t pk BAD_DESCRIPTOR ∧ OnlyParts [.outs, .links] s t)
      ∧ (u.row < d.rows → d.fmt ≤ 1 → u.grad.length ≤ rowElems d → baseCaptured d u.ver = none →
          Runs (.rowUpd p pk) s fun t => SentRefusal s t pk REFUSED_VERSION ∧ OnlyParts [.outs, .links] s t)
      ∧ (∀ b, u.row < d.rows → d.fmt ≤ 1 → u.grad.length ≤ rowElems d → 0 < u.grad.length → d.plink = false →
          baseCaptured d u.ver = some b → u.race = false → ownsRow s u.table d u.row = true → tblBad s u.table u.row = false → ovFind s u.table u.row = none →
          (∀ m ∈ s.tbl.migs, m.table ≠ u.table) → HbmSound s → Shown s none →
          u.rule ∈ [2, 3, 4] → u.mode = 0 → d.fmt = 0 →
          let d' := d.forMode u.mode
          let wl := (rowAt s u.table d' u.row).base b
          let sl := (rowAt s u.table d' u.row).st
          wl + pitchOf d.rowBytes ≤ hbmCap s → sl + 8 * u.grad.length ≤ hbmCap s →
          (wl + pitchOf d.rowBytes ≤ sl ∨ sl + 8 * u.grad.length ≤ wl) →
          let n := u.grad.length
          let h := hyperOf s u.group u.rule u.mode u.step.toNat (0x10000 + u.table) u.seed.toNat u.eta.toNat u.lam.toNat
          let q := rowPiece s u.table d' u.row b h n u.grad
          let st := s.hbm.getN sl q.stLen
          let aux (i : Nat) : Res := (rowAux h q st [] [] 0 0).getD i ⟨0, false⟩
          let out (i : Nat) : ElOut := elOut h q i (leNat (s.hbm.getN (wl + 4 * i) 4)) ((stOffs h q i).map fun off => leAt st off 4) (aux i)
        Runs (.rowUpd p pk) s fun t => SentAnswer s t pk 0x95 0 0 .none
          ∧ (∀ i, i < n → leNat (t.hbm.getN (wl + 4 * i) 4) = (out i).w.code % 2 ^ 32)
          ∧ (∀ k, (k < wl ∨ wl + pitchOf d.rowBytes ≤ k) → (k < sl ∨ sl + q.stLen ≤ k) → t.hbm.get k = s.hbm.get k)
          ∧ tdGet t u.table = some d' ∧ OtherTables u.table s t
          ∧ RegsBut [UPD + 0x14, UPD + 0x18, UPD + 0x1C] s t ∧ OnlyParts [.regs, .hbm, .outs, .tbl, .lpe, .links] s t))

/-- REGULATOR_RECOMPUTE (R161, R162): the learning rate LR_MAX times the schedule factor, the weight decay and the step of a VALID
group that is due go to SCH_OUT, and to the UPDATEs of the group that wait for them. LOUPE_LATCH (R167, R168): once no operation of
the step writes a watched tensor, or late, which its record and the LATE count show, every watch entry of the domain has its
snapshot record in the step's frame, and the step's counter sets are free; with no rule VALID, nothing but the frame is written. -/
def Obligations.RegulatorAndLoupeFollowTheStep : Prop :=
  (∀ (s : State) (g : Fin 16), Inv s → bit (regOf s SCH) 0 = true → bit (regOf s (schW g.val 0)) 0 = true →
    s.schDue.getLsbD g.val = true →
    let w0 := regOf s (schW g.val 0)
    let step := privOf s (fld w0 1 2) (hdmW (fld w0 1 2) 0x60)
    let f := schF s g.val step
    let wd := regOf s (schW g.val 8)
    Runs (.regulatorRecompute g) s fun t =>
      regOf t (schW g.val 9) = fmul (regOf s (schW g.val 5)) f % 2 ^ 32
      ∧ regOf t (schW g.val 10) = (if bit w0 7 then fmul wd f else wd) % 2 ^ 32 ∧ regOf t (schW g.val 11) = step
      ∧ t.schDue.getLsbD g.val = false ∧ (∀ i, i ≠ g.val → t.schDue.getLsbD i = s.schDue.getLsbD i)
      ∧ (∀ q o, findOp s q = some o → findOp t q = some (
          if o.code = 6 ∧ upGroup o = g.val ∧ o.phase = .waitRes ∧ o.upWork.sch = none then
            { o with work := .update { o.upWork with sch := some (BitVec.ofNat 32 (fmul (regOf s (schW g.val 5)) f),
                BitVec.ofNat 32 (if bit w0 7 then fmul wd f else wd)) } }
          else o))
      ∧ RegsBut [schW g.val 9, schW g.val 10, schW g.val 11] s t ∧ OnlyParts [.regs, .ops, .schDue] s t)
  ∧ (∀ (s : State) (d : Fin 4) (n : Word) (late : Bool), Inv s → s.lpe.due.find? (fun x => x.1 == d.val) = some (d.val, n, late) →
    bit (regOf s LPE) 0 = true → (late = true ∨ s.ops.any (writesWatched s d.val n) = false) → HbmSound s → s.sram = [] →
    (∀ y ∈ s.lpe.sets, y.cnt.length = 6 ∧ y.hist.length = 16) →
    let frames := fld (regOf s (LPE + 0x10)) 0 7
    let base := regOf s (LPE + 8) + 2 ^ 32 * regOf s (LPE + 0xC)
    let frame := base + 1048576 * (n.toNat % frames)
    0 < frames → frame + 1048576 ≤ hbmCap s →
    Runs (.loupeLatch d) s fun t =>
      (∀ x ∈ watchList s, fld x.2 1 2 = d.val → ∀ y ∈ t.lpe.sets, ¬(y.watch = x.1 ∧ y.step = n))
      ∧ t.lpe.due = s.lpe.due.erase (d.val, n, late)
      ∧ regOf t (LPE + 0x14) = (if late then (regOf s (LPE + 0x14) + 1) % 2 ^ 32 else regOf s (LPE + 0x14))
      ∧ ((∀ i, i < 32 → bit (ruleW s i 0) 0 = false) →
        (∀ x ∈ watchList s, fld x.2 1 2 = d.val →
          t.hbm.getN (frame + 128 * x.1) 128 = snapRecord { setOf s x.1 n with late := late })
        ∧ MemBut frame 1048576 s.hbm t.hbm ∧ RegsBut [LPE + 0x14] s t ∧ OnlyParts [.regs, .hbm, .lpe] s t))

/-! ### Moves of rows, and requests between chips -/

/-- MIG at the chip a row moves to (R93, R95, R97): a reservation takes guest units, and is refused for a row that this chip has; a
copy is kept; the final one is installed, the row's entry settled and published; a cancelled move gives its units up. Each is
acknowledged. The old owner's side of a move (R95, R97 to R99): a reservation granted has the row copied; one refused ends the move
and its operation OK; the final acknowledgement ends the operation OK, as the last answer does an update's. A chip that gives no
reply has the move cancelled. A guest's units are free when nothing was forwarded for GRACE_US. -/
def Obligations.MovesReachTheirDestination : Prop :=
  (∀ (s : State) (p : Fin 8) (pk : Packet) (tb r : Nat) (m : MigStep) (d : TDesc), Inv s → Asked s p.val pk 0x15 →
    pk.body = .mig tb r m → tdGet s tb = some d →
    (∀ u, m = .reserve u → (d.rows ≤ r ∨ ownsRow s tb d r = true) →
      Runs (.mig p pk) s fun t => SentAnswer s t pk 0x95 0 16 (.migAck tb r false) ∧ OnlyParts [.outs, .links] s t)
    ∧ (∀ u c, m = .reserve u → r < d.rows → ownsRow s tb d r = false → homeChip s d r ≠ myCoord s → guestOf s tb r = none →
        pinned s + s.tbl.inbound.length < 262144 → heapFit s u = some c →
      Runs (.mig p pk) s fun t => SentAnswer s t pk 0x95 0 16 (.migAck tb r true)
        ∧ t.tbl.guests = s.tbl.guests ++ [(c, u, tb, r)] ∧ (tb, r, none) ∈ t.tbl.inbound ∧ OnlyParts [.outs, .tbl, .links] s t)
    ∧ (∀ x, m = .copy x → (∃ y ∈ s.tbl.inbound, y.1 = tb ∧ y.2.1 = r) →
      Runs (.mig p pk) s fun t => SentAnswer s t pk 0x95 0 16 (.migAck tb r true)
        ∧ t.tbl = { s.tbl with inbound := s.tbl.inbound.map fun z => if z.1 = tb ∧ z.2.1 = r then (z.1, z.2.1, some x) else z }
        ∧ OnlyParts [.outs, .tbl, .links] s t)
    ∧ (∀ x oe c, m = .final (some x) oe → (∃ y ∈ s.tbl.inbound, y.1 = tb ∧ y.2.1 = r) → guestOf s tb r = some c →
        homeChip s d r ≠ myCoord s → d.plink = false → d.rule = 0 → HbmSound s → s.tbl.park = [] → s.tbl.ov.length < 262144 →
        x.a.length = d.rowBytes → 0 < d.rowBytes →
        let a := guestBase s + 512 * c
        let n := pitchOf d.rowBytes
        a + n ≤ hbmCap s →
      Runs (.mig p pk) s fun t => t.hbm.getN a n = padTo n x.a ∧ MemBut a n s.hbm t.hbm
        ∧ ovFind t tb r = some ⟨r, tb, BitVec.ofNat 18 (myCoord s), oe, 3, 0, c⟩
        ∧ (∀ y ∈ t.tbl.inbound, ¬(y.1 = tb ∧ y.2.1 = r))
        ∧ (∃ h : Hdr, ⟨.fabric, .packet (.of h (.publish ⟨r, tb, BitVec.ofNat 18 (myCoord s), oe, 3, 0, c⟩)), none⟩ ∈ t.outs.tx
            ∧ h.dst = BitVec.ofNat 18 (homeChip s d r))
        ∧ regOf t (TBL + 0x2C) = (regOf s (TBL + 0x2C) + 1) % 2 ^ 32 ∧ RegsBut [TBL + 0x2C] s t
        ∧ OnlyParts [.regs, .hbm, .outs, .tbl, .rte, .links] s t)
    ∧ (m = .cancel → (∃ y ∈ s.tbl.inbound, y.1 = tb ∧ y.2.1 = r) → ovFind s tb r = none → s.tbl.park = [] →
      Runs (.mig p pk) s fun t => SentAnswer s t pk 0x95 0 16 (.migAck tb r true) ∧ guestOf t tb r = none
        ∧ (∀ y ∈ t.tbl.inbound, ¬(y.1 = tb ∧ y.2.1 = r)) ∧ OnlyParts [.outs, .tbl, .rte, .links] s t))
  ∧ (∀ (s : State) (p : Fin 8) (pk : Packet) (q : Req), Inv s →
    (∀ tb r u m d, Answers s p.val pk 0x95 q → q.kind = .mig → q.pk.body = .mig tb r (.reserve u) → tdGet s tb = some d →
        s.tbl.migs.find? (fun m => m.table == tb && m.row == r) = some m → pk.hdr.len ≠ 0 →
      (∀ o x, pk.body = .migAck tb r false → m.op = some o → findOp s o = some x → x.phase ≠ .decided → Bare x →
        Runs (.migAck p pk) s fun t => Ended t o OK 0 ∧ (∀ y ∈ t.tbl.migs, ¬(y.table = tb ∧ y.row = r))
          ∧ regOf t (TBL + 0x34) = (regOf s (TBL + 0x34) + 1) % 2 ^ 32 ∧ RegsBut [TBL + 0x34] s t ∧ OtherOps [o] s t
          ∧ OnlyParts [.regs, .ops, .reqs, .tbl, .cells, .links] s t)
      ∧ (pk.body = .migAck tb r true → d.plink = false → stateBytes d = 0 → pathLost s (myCoord s) m.dest.toNat = false →
          let a := (rowAt s tb d r).base d.active
          Readable s (.hbm a) d.rowBytes →
        Runs (.migAck p pk) s fun t =>
          (∃ y : Req, t.reqs = s.reqs.filter (fun x => x.optag != q.optag) ++ [y] ∧ y.kind = .mig ∧ y.dest = m.dest
            ∧ y.pk.body = .mig tb r (.copy ⟨s.hbm.getN a d.rowBytes, [], []⟩))
          ∧ (∀ y ∈ t.tbl.migs, y.table = tb → y.row = r → y = { m with reserved := true, copies := m.copies + 1, dirty := false })
          ∧ OnlyParts [.reqs, .outs, .tbl, .rte, .links] s t))
    ∧ (∀ tb r sn oe o x, Answers s p.val pk 0x95 q → q.kind = .mig → q.pk.body = .mig tb r (.final sn oe) → pk.hdr.len ≠ 0 →
        pk.body = .migAck tb r true → q.op = some o → findOp s o = some x → x.phase ≠ .decided → Bare x →
      Runs (.migAck p pk) s fun t => Ended t o OK 0 ∧ OtherOps [o] s t ∧ OnlyParts [.ops, .reqs, .cells, .links] s t)
    ∧ (∀ tb r m o x, s.tbl.migs.find? (fun m => m.table == tb.val && m.row == r) = some m → m.op = some o →
        findOp s o = some x → x.phase ≠ .decided →
      Runs (.migReplyTimeout tb r) s fun t => Ended t o REMOTE_TIMEOUT 0 ∧ (∀ y ∈ t.tbl.migs, ¬(y.table = tb.val ∧ y.row = r))
        ∧ regOf t (TBL + 0x30) = (regOf s (TBL + 0x30) + 1) % 2 ^ 32 ∧ RegsBut [TBL + 0x30] s t ∧ OtherOps [o] s t)
    ∧ ∀ (tb : Fin 4096) r e y, ovFind s tb.val r = some e → s.tbl.fwdTs.find? (fun y => y.1 == tb.val && y.2.1 == r) = some y →
        e.kind = 3 → e.owner.toNat ≠ myCoord s → y.2.2 + graceNs s ≤ s.ts →
      Runs (.guestGraceExpiry tb r) s fun t => guestOf t tb.val r = none ∧ ovFind t tb.val r = none
        ∧ t.tbl.desc = s.tbl.desc ∧ OnlyParts [.tbl] s t)

/-- WRITE and READ of HBM from another chip (R223, R252): the bytes land, the escapement the packet names counts 1, is armed by
packet 0, and the packet is acknowledged; one that names an escapement of another generation is discarded and counted; a READ is
answered with the bytes. Their acknowledgement and their data end the operation that waited for them. -/
def Obligations.WritesAndReadsReachTheMemory : Prop :=
  ∀ (s : State) (p : Fin 8) (pk : Packet) (b : List Byte) (o : Nat), Inv s →
    (Loc.ofAddr pk.hdr.addr.toNat).near s = .hbm o →
    let i := pk.hdr.esc.toNat
    let n := pk.hdr.len.toNat
    (Asked s p.val pk 0x10 → pk.body = .raw b → b.length = n → 0 < n → o + n ≤ hbmCap s → HbmSound s → EscSound s i →
      (escOwner s i = some pk.hdr.hd.toNat → (escAt s i).gen = pk.hdr.gen → NoWaiter s i → inHbmQuota s pk.hdr.hd.toNat o n = true →
        (pk.hdr.seq ≠ 0 → (escAt s i).st ∈ [EscState.idle, .armed, .fired] →
          Runs (.write p pk) s fun t => t.hbm.getN o n = b ∧ MemBut o n s.hbm t.hbm ∧ EscAdded (escAt s i) (escAt t i) 1
            ∧ OtherEscs i s t ∧ SentAnswer s t pk 0x90 0 0 .none ∧ (mapOrd none s.tbl.desc = true → SameButTags s t)
            ∧ OnlyParts [.priv, .hbm, .esc, .outs, .hosts, .schDue, .lpe, .tbl, .links] s t)
        ∧ (pk.hdr.seq = 0 → (escAt s i).st = .idle →
          Runs (.write p pk) s fun t => t.hbm.getN o n = b ∧ MemBut o n s.hbm t.hbm
            ∧ (∃ e, EscAdded (escAt s i) e 1 ∧ EscArmed e (escAt t i) pk.hdr.cnt.toNat)
            ∧ OtherEscs i s t ∧ SentAnswer s t pk 0x90 0 0 .none ∧ (mapOrd none s.tbl.desc = true → SameButTags s t)
            ∧ OnlyParts [.priv, .hbm, .esc, .outs, .hosts, .schDue, .lpe, .tbl, .links] s t))
      ∧ ((escOwner s i ≠ some pk.hdr.hd.toNat ∨ (escAt s i).gen ≠ pk.hdr.gen) →
          Runs (.write p pk) s fun t => regOf t (RTE + 0x218) = (regOf s (RTE + 0x218) + 1) % 2 ^ 32
            ∧ RegsBut [RTE + 0x218] s t ∧ OnlyParts [.regs, .links] s t)
      ∧ (escOwner s i = some pk.hdr.hd.toNat → (escAt s i).gen = pk.hdr.gen → inHbmQuota s pk.hdr.hd.toNat o n = false →
          Runs (.write p pk) s fun t => SentRefusal s t pk REFUSED_QUOTA ∧ OnlyParts [.outs, .links] s t))
    ∧ (Asked s p.val pk 0x11 → 0 < n → n ≤ 4096 → (inHbmQuota s pk.hdr.hd.toNat o n = true → Readable s (.hbm o) n →
          Runs (.read p pk) s fun t => SentAnswer s t pk 0x91 (replyAddr pk % 2 ^ 64) n (.raw (bytesAt s none (.hbm o) n))
            ∧ OnlyParts [.outs, .links] s t)
        ∧ (inHbmQuota s pk.hdr.hd.toNat o n = false → o + n ≤ hbmCap s →
          Runs (.read p pk) s fun t => SentRefusal s t pk REFUSED_QUOTA ∧ OnlyParts [.outs, .links] s t))

/-- The last answer that an operation waits for ends it with what it has decided (R223): of a WRITE, of a row update, and the data
of a READ, which go to the operation's destination; a refusal ends it with the STATUS it carries. REDIRECT (R96, R220): the request
goes out again to the owner named; the fourth ends its operation REMOTE_TIMEOUT; BUSY is not counted and has it go out again after 2
µs (BUSY_REISSUE). -/
def Obligations.AnswersEndOrReissueTheRequest : Prop :=
  (∀ (s : State) (p : Fin 8) (pk : Packet) (q : Req) (r : OpRef) (o : Op), q.op = some r → OpAt s r o .running o.code →
    o.work = .xfer 0 → o.region = [] → (∀ y ∈ s.reqs, y.op = some r → y.optag = q.optag) →
    (Answers s p.val pk 0x90 q → q.kind = .write →
      (refusalOf pk = 0 → pk.body = .none → Runs (.writeAck p pk) s fun t => Ended t r o.status.toNat o.detail.toNat ∧ Released t r
        ∧ OtherOps [r] s t ∧ OnlyParts [.ops, .reqs, .cells, .links] s t)
      ∧ (refusalOf pk ≠ 0 → (∀ a b c, q.pk.body ≠ .mig a b c) → (∀ a b c g, q.pk.body ≠ .contrib a b c g) → Runs (.writeAck p pk) s fun t =>
          Ended t r (refusalOf pk) (if refusalOf pk = REFUSED_QUOTA then 2 else 0) ∧ Released t r ∧ OtherOps [r] s t
          ∧ OnlyParts [.ops, .reqs, .cells, .links] s t))
    ∧ (Answers s p.val pk 0x95 q → q.kind = .rowUpd → refusalOf pk = 0 → pk.body = .none →
      Runs (.migAck p pk) s fun t => Ended t r o.status.toNat o.detail.toNat ∧ Released t r
        ∧ OtherOps [r] s t ∧ OnlyParts [.ops, .reqs, .cells, .links] s t)
    ∧ (∀ a b l, Answers s p.val pk 0x91 q → q.kind = .readMem a → pk.body = .raw b → 0 < b.length → pk.hdr.len.toNat = b.length →
        o.status.toNat / 16 = 0 → LandsAt s o false a b.length l → EscSound s pk.hdr.esc.toNat → NoWaiter s pk.hdr.esc.toNat →
        escOwner s pk.hdr.esc.toNat = some pk.hdr.hd.toNat → (escAt s pk.hdr.esc.toNat).gen = pk.hdr.gen → pk.hdr.seq ≠ 0 →
        (escAt s pk.hdr.esc.toNat).st ∈ [EscState.idle, .armed, .fired] →
      Runs (.readData p pk) s fun t => Ended t r o.status.toNat o.detail.toNat
        ∧ HoldsOut t r (o.out ++ [⟨l.space.1, l.space.2, b⟩])
        ∧ EscAdded (escAt s pk.hdr.esc.toNat) (escAt t pk.hdr.esc.toNat) 1 ∧ OtherEscs pk.hdr.esc.toNat s t
        ∧ OtherOps [r] s t ∧ OnlyParts [.priv, .esc, .ops, .reqs, .outs, .hosts, .cells, .schDue, .lpe, .links] s t))
  ∧ (∀ (s : State) (p : Fin 8) (pk : Packet) (q : Req) (owner : Coord),
    (∀ part, Answers s p.val pk 0x96 q → pk.body = .redirect owner false part → q.redirects < 3 →
      Runs (.redirect p pk) s fun t => (∀ y ∈ t.reqs, y.optag = q.optag → y.dest = owner ∧ y.pk.hdr.dst = owner
            ∧ y.redirects = q.redirects + 1 ∧ y.busy = false)
        ∧ t.outs.tx = s.outs.tx ++ [⟨.fabric, .packet { q.pk with hdr := { q.pk.hdr with dst := owner } }, none⟩]
        ∧ t.reqs.length = s.reqs.length ∧ (∀ y ∈ s.reqs, y.optag ≠ q.optag → y ∈ t.reqs) ∧ OnlyParts [.reqs, .outs, .links] s t)
    ∧ (∀ r o part, Answers s p.val pk 0x96 q → pk.body = .redirect owner false part → 3 ≤ q.redirects → q.kind ∈ [ReqKind.pool, .contrib, .write] →
        (∀ a b c, q.pk.body ≠ .mig a b c) → q.op = some r → findOp s r = some o → o.phase ≠ .decided →
      Runs (.redirect p pk) s fun t => Ended t r REMOTE_TIMEOUT 0 ∧ Released t r ∧ OtherOps [r] s t)
    ∧ (∀ part, Answers s p.val pk 0x96 q → pk.body = .redirect owner true part →
      Runs (.redirect p pk) s fun t => (∀ y ∈ t.reqs, y.optag = q.optag → y.busy = true ∧ y.since = s.ts ∧ y.pk.hdr.dst = owner)
        ∧ t.reqs.length = s.reqs.length ∧ (∀ y ∈ s.reqs, y.optag ≠ q.optag → y ∈ t.reqs) ∧ OnlyParts [.reqs, .links] s t)
    ∧ (s.reqs.find? (fun y => y.optag == q.optag && y.busy) = some q →
      (q.since + 2000 ≤ s.ts → Runs (.busyReissue q.optag) s fun t =>
        (∀ y ∈ t.reqs, y.optag = q.optag → y.busy = false ∧ y.redirects = q.redirects ∧ y.dest = q.pk.hdr.dst)
        ∧ t.outs.tx = s.outs.tx ++ [⟨.fabric, .packet q.pk, none⟩] ∧ OnlyParts [.reqs, .outs] s t)
      ∧ (s.ts < q.since + 2000 → exec (.busyReissue q.optag) s = .next s)))

/-! ### The torus -/

/-- ROUTE_PACKET (R211, R215, R216, R218, R225, R228, R316): a packet of another chip that arrived goes out on the link and VC that
its route gives, under the next LSEQ of that link, and stays in its retry buffer; it waits in its receive buffer while none is free,
is discarded and counted at a port that is down and in a chip under reset, and with a flit error is counted and goes on under the
stomp code. A packet for this chip is the command its OP names. A multicast packet is taken only when its next link takes it too,
and goes on there; one of this chip's own leaves along its line in every direction at once. A packet of this chip's own is sent,
under the injection bank, when its route is free. -/
def Obligations.PacketsTakeTheirRoute : Prop :=
  ∀ (s : State) (pk : Packet), Inv s →
    let sent (o v : Nat) (q : Packet) : Packet := { q with
      hdr := { q.hdr with vc := BitVec.ofNat 5 v },
      wire := linkWire (nextHalf s o) (linkAt s o (nextHalf s o)).lseqTx q.wire.stomp }
    (∀ (p : Fin 6) err, pk.hdr.mcast = 0 → pk.hdr.dst.toNat ≠ myCoord s → Passes s p.val pk → pk.hdr.epoch.toNat = fld (cfgOf s (RTE + 8)) 0 1 →
      (isReady s = true →
        (∀ o v, routeOf s pk.hdr (cameBy s p.val pk) = .out o v →
          (Runs (.routePacket (.arrived p pk none)) s fun t =>
            t.outs.tx = s.outs.tx ++ [torusTx s o (nextHalf s o) (.packet (sent o v pk))]
            ∧ (linkAt t o (nextHalf s o)).retry
                = (linkAt s o (nextHalf s o)).retry ++ [((linkAt s o (nextHalf s o)).lseqTx, sent o v pk)]
            ∧ OnlyParts [.outs, .links, .rte] s t)
          ∧ (∀ e, pk.hdr.cls ≠ 4 → (∀ q ∈ s.reqs, q.optag ≠ pk.hdr.optag) → err = some e →
            Runs (.routePacket (.arrived p pk err)) s fun t =>
              t.outs.tx.getLast? = some (torusTx s o (nextHalf s o) (.packet (sent o v (stomped pk e))))
              ∧ regOf t (RTE + 0x204) = (regOf s (RTE + 0x204) + 1) % 2 ^ 32 ∧ t.rte.fseq = s.rte.fseq + 1))
        ∧ (routeOf s pk.hdr (cameBy s p.val pk) = .wait → Runs (.routePacket (.arrived p pk none)) s fun t =>
          t.outs.tx = s.outs.tx ++ [⟨.transit p.val, .packet { pk with wire := { pk.wire with taken := true } }, none⟩]
          ∧ OnlyParts [.outs, .links] s t)
        ∧ (routeOf s pk.hdr (cameBy s p.val pk) = .dead → Runs (.routePacket (.arrived p pk none)) s fun t =>
          regOf t (RTE + 0x21C) = (regOf s (RTE + 0x21C) + 1) % 2 ^ 32 ∧ RegsBut [RTE + 0x21C] s t ∧ LinkTook s t p.val pk
          ∧ OnlyParts [.regs, .links] s t))
      ∧ (isReady s = false → Runs (.routePacket (.arrived p pk err)) s fun t =>
          regOf t (RST + 0x88) = (regOf s (RST + 0x88) + 1) % 2 ^ 32 ∧ RegsBut [RST + 0x88] s t ∧ LinkTook s t p.val pk
          ∧ OnlyParts [.regs, .links] s t))
    ∧ (∀ p : Fin 6, (pk.hdr.mcast ≠ 0 ∨ pk.hdr.dst.toNat = myCoord s) →
        exec (.routePacket (.arrived p pk none)) s = takeAs ⟨p.val, by omega⟩ pk s)
    ∧ (∀ (p : Fin 8) e r, PassesLine s p.val pk → lineRoute s p.val pk = some r → isReady s = true → pk.hdr.cls = 3 → pk.hdr.op = 0xC2 →
        pk.body = .publish e → e.owner.toNat ≠ myCoord s → ovFind s e.table e.row = none →
        (∀ d, tdGet s e.table = some d → homeChip s d e.row ≠ myCoord s) → s.tbl.ov.length < 262144 →
      let kept := { s.tbl with ov := s.tbl.ov ++ [{ e with kind := 1, mstate := 0, gslot := 0 }] }
      (∀ o v, r = .out o v → Runs (.publish p pk) s fun t => t.tbl = kept
        ∧ (∃ l, t.outs.tx = s.outs.tx ++ torusTx s o (nextHalf s o) (.packet (sent o v pk)) :: l)
        ∧ (linkAt t o (nextHalf s o)).retry
            = (linkAt s o (nextHalf s o)).retry ++ [((linkAt s o (nextHalf s o)).lseqTx, sent o v pk)]
        ∧ OnlyParts [.outs, .tbl, .links, .rte] s t)
      ∧ (r = .dead → Runs (.publish p pk) s fun t => t.tbl = kept
        ∧ regOf t (RTE + 0x21C) = (regOf s (RTE + 0x21C) + 1) % 2 ^ 32 ∧ RegsBut [RTE + 0x21C] s t
        ∧ OnlyParts [.regs, .outs, .tbl, .links] s t)
      ∧ (r = .wait → Runs (.publish p pk) s fun t =>
        t.outs.tx = s.outs.tx ++ [⟨.transit p.val, .packet { pk with wire := { pk.wire with taken := true } }, none⟩]
        ∧ OnlyParts [.outs, .links] s t))
    ∧ (∀ n b, s.outs.tx[n]? = some ⟨.fabric, .packet pk, b⟩ → pk.hdr.mcast ≠ 0 →
      let ways := (lineDirs s (pk.hdr.mcast.toNat - 1)).map fun d => escapeVia s (sourced s pk).hdr d.1 none
      (.wait ∈ ways → exec (.routePacket (.injected n)) s = .next s)
      ∧ (.wait ∉ ways → Runs (.routePacket (.injected n)) s fun t =>
        (∀ o v, .out o v ∈ ways → torusTx s o (nextHalf s o) (.packet (sent o v (sourced s pk))) ∈ t.outs.tx)
        ∧ t.outs.tx.length + 1 = s.outs.tx.length + ways.countP (fun r => r != .dead)
        ∧ regOf t (RTE + 0x21C) = (regOf s (RTE + 0x21C) + ways.countP fun r => r == .dead) % 2 ^ 32
        ∧ RegsBut [RTE + 0x21C] s t ∧ OnlyParts [.regs, .outs, .links, .rte] s t))
    ∧ ∀ n b, s.outs.tx[n]? = some ⟨.fabric, .packet pk, b⟩ → pk.hdr.mcast = 0 →
      (∀ o v, routeOf s (sourced s pk).hdr none = .out o v → Runs (.routePacket (.injected n)) s fun t =>
        t.outs.tx = s.outs.tx.take n ++ s.outs.tx.drop (n + 1) ++ [torusTx s o (nextHalf s o) (.packet (sent o v (sourced s pk)))]
        ∧ OnlyParts [.outs, .links, .rte] s t)
      ∧ (routeOf s (sourced s pk).hdr none = .dead → Runs (.routePacket (.injected n)) s fun t =>
        t.outs.tx = s.outs.tx.take n ++ s.outs.tx.drop (n + 1)
        ∧ regOf t (RTE + 0x21C) = (regOf s (RTE + 0x21C) + 1) % 2 ^ 32 ∧ RegsBut [RTE + 0x21C] s t ∧ OnlyParts [.regs, .outs] s t)
      ∧ (routeOf s (sourced s pk).hdr none = .wait → exec (.routePacket (.injected n)) s = .next s)

/-- FAULT (R229, R230): a record not seen before enters the fault table and goes on to every other UP port; the operation of a lost
frame that this chip waits for ends FABRIC_LOST; a record seen before is consumed. RTE_FAULT_CLEAR empties the table. -/
def Obligations.FaultRecordsSpread : Prop :=
  ∀ (s : State) (p : Fin 8) (pk : Packet) (f : FabFault), Inv s → FromTorus s p.val pk 3 0xC0 → pk.body = .fault f →
    (s.rte.seen.contains (f.origin, f.oinc, f.fseq) = true → Runs (.fault p pk) s fun t => OnlyParts [.links] s t)
    ∧ (s.rte.seen.contains (f.origin, f.oinc, f.fseq) = false →
      (Runs (.fault p pk) s fun t => t.rte.seen = s.rte.seen ++ [(f.origin, f.oinc, f.fseq)]
        ∧ regOf t (RTE + 0x220) = (regOf s (RTE + 0x220) + 1) % 2 ^ 32
        ∧ ∀ o ∈ [0, 1, 2, 3, 4, 5], o ≠ p.val → portRole s o = 1 → portUp s o = true →
            ∃ h : Hdr, ⟨.hop (portDir s o), .packet (.of h (.fault f)), none⟩ ∈ t.outs.tx ∧ h.cls = 3 ∧ h.op = 0xC0)
      ∧ (f.kind = 1 → fltHas s f = false → fltEntries s < 64 → f.dir < 8 →
        Runs (.fault p pk) s fun t => fld (regOf t (RTE + 0x300)) 0 7 = fltEntries s + 1
          ∧ regOf t (RTE + 0x400 + 8 * fltEntries s) = f.chip.toNat + f.dir * 2 ^ 18 + 2 ^ 23
          ∧ regOf t (RTE + 0x404 + 8 * fltEntries s) = f.time.toNat % 2 ^ 32)
      ∧ (∀ q r o, f.kind = 2 → fld f.word0.toNat 60 4 = 3 → fld f.word0.toNat 56 4 = 0 → fld f.word0.toNat 12 18 = myCoord s →
          s.reqs.find? (fun q => q.via.isNone && q.optag.toNat == fld f.word3.toNat 32 16) = some q →
          q.kind ∈ [ReqKind.pool, .contrib, .write] → (∀ a b c, q.pk.body ≠ .mig a b c) →
          q.op = some r → findOp s r = some o → o.phase ≠ .decided →
        Runs (.fault p pk) s fun t => Ended t r FABRIC_LOST 0 ∧ Released t r ∧ OtherOps [r] s t))
    ∧ ∀ v : Word, s.hosts.present.getLsbD 0 = true → bit v.toNat 0 = true →
      Runs (.rteFaultClear 0 v) s fun t => fltEntries t = 0 ∧ fltOverflow t = false
        ∧ (∀ a, (a < RTE + 0x300 ∨ (RTE + 0x300 < a ∧ a < RTE + 0x400) ∨ RTE + 0x600 ≤ a) → regOf t a = regOf s a)
        ∧ OnlyParts [.regs] s t

/-- Packets of MGT that keep this chip's tables: PUBLISH (R94) enters a row's entry, and replaces a held one only when newer; LOAD
(R91) keeps the neighbour's count; LOAD_WINDOW gives this chip's count to its neighbours, moves a hot row to the neighbour of the
lowest LOAD (R92) and starts to count anew. TIME (R307) and OLD_CLEAR (R226): TIME_SEND gives the neighbour TS and what it last
heard; TIME keeps what the neighbour gave and, from upstream, takes the offset; OLD_CLEAR is set once no packet of the other epoch
was held for its delay. -/
def Obligations.NeighboursShareLoadEntriesAndTime : Prop :=
  (∀ (s : State) (p : Fin 8) (pk : Packet), Inv s →
    (∀ e, FromTorus s p.val pk 3 0xC2 → pk.hdr.mcast = 0 → pk.body = .publish e → e.owner.toNat ≠ myCoord s →
        s.tbl.ov.length < 262144 →
      (ovFind s e.table e.row = none → (∀ d, tdGet s e.table = some d → homeChip s d e.row ≠ myCoord s) →
        Runs (.publish p pk) s fun t => t.tbl = { s.tbl with ov := s.tbl.ov ++ [{ e with kind := 1, mstate := 0, gslot := 0 }] }
          ∧ OnlyParts [.tbl, .links] s t)
      ∧ ∀ h, ovFind s e.table e.row = some h → h.owner.toNat ≠ myCoord s →
        Runs (.publish p pk) s fun t => (∃ x, ovFind t e.table e.row = some x
            ∧ x.oepoch = (if newerEpoch e.oepoch h.oepoch then e.oepoch else h.oepoch)
            ∧ x.owner = (if newerEpoch e.oepoch h.oepoch then e.owner else h.owner) ∧ x.kind = h.kind ∧ x.gslot = h.gslot)
          ∧ (∀ tb r, (tb ≠ e.table ∨ r ≠ e.row) → ovFind t tb r = ovFind s tb r) ∧ OnlyParts [.tbl, .links] s t)
    ∧ (∀ n, FromTorus s p.val pk 3 0xC1 → pk.body = .load n →
      Runs (.load p pk) s fun t => mapGet t.tbl.nbr (portDir s p.val) = some n
        ∧ t.tbl = { s.tbl with nbr := t.tbl.nbr } ∧ OnlyParts [.tbl, .links] s t)
    ∧ (isReady s = true → s.tbl.winTs + 1000 * fld (regOf s (TBL + 8)) 0 16 ≤ s.ts → bit (regOf s TBL) 1 = false →
      Runs .loadWindow s fun t => t.tbl = { s.tbl with load := 0, hot := [], winTs := s.ts }
        ∧ regOf t (TBL + 0x24) = s.tbl.load % 2 ^ 32 ∧ regOf t (TBL + 0x28) = s.tbl.load / 2 ^ 32 % 2 ^ 32
        ∧ RegsBut [TBL + 0x24, TBL + 0x28] s t ∧ OnlyParts [.regs, .tbl] s t)
    ∧ (isReady s = true → s.tbl.winTs + 1000 * fld (regOf s (TBL + 8)) 0 16 ≤ s.ts → bit (regOf s TBL) 1 = true →
      (bit (regOf s TBL) 0 = false → Runs .loadWindow s fun t => t.tbl = { s.tbl with load := 0, hot := [], winTs := s.ts }
        ∧ regOf t (TBL + 0x24) = s.tbl.load % 2 ^ 32 ∧ regOf t (TBL + 0x28) = s.tbl.load / 2 ^ 32 % 2 ^ 32
        ∧ RegsBut [TBL + 0x24, TBL + 0x28] s t
        ∧ (∀ o ∈ [0, 1, 2, 3, 4, 5], portRole s o = 1 → portUp s o = true →
            ∃ h : Hdr, ⟨.hop (portDir s o), .packet (.of h (.load s.tbl.load)), none⟩ ∈ t.outs.tx ∧ h.cls = 3 ∧ h.op = 0xC1)
        ∧ OnlyParts [.regs, .outs, .tbl] s t)
      ∧ (∀ dir low tb r n d, bit (regOf s TBL) 0 = true → lowest (nbrLoads s) = some (dir, low) → s.tbl.hot = [(tb, r, n)] →
          s.tbl.migs = [] → tdGet s tb = some d → d.migMode = 1 → movable s tb d r = true → 0 < fld (regOf s (TBL + 4)) 0 8 →
          fld (regOf s (TBL + 4)) 16 16 ≤ n → (16 + fld (regOf s (TBL + 4)) 8 8) * low < 16 * s.tbl.load →
          hop s (myCoord s) dir ≠ myCoord s → pinned s < 262144 → pathLost s (myCoord s) (hop s (myCoord s) dir) = false →
        Runs .loadWindow s fun t => t.tbl.migs = [⟨tb, r, BitVec.ofNat 18 (hop s (myCoord s) dir), 0, false, false, none⟩]
          ∧ SlotTaken s t none none .mig 0x15 0 8 (.mig tb r (.reserve (guestUnits d)))
          ∧ t.tbl.load = 0 ∧ t.tbl.hot = [] ∧ t.tbl.winTs = s.ts)))
  ∧ (∀ (s : State) (p : Fin 6), Inv s → portUp s p.val = true →
    let l := linkAt s p.val (upHalf s p.val)
    ((l.timeTs = 0 ∨ l.timeTs + 1000000 ≤ s.ts) → Runs (.timeSend p) s fun t =>
      (∃ h : Hdr, t.outs.tx = s.outs.tx ++ [⟨.hop (portDir s p.val),
          .packet (.of h (.time ⟨BitVec.ofNat 64 (256 * s.ts), l.timeTx, l.timeRx, BitVec.ofNat 16 (timeHops s)⟩)), none⟩]
        ∧ h.cls = 3 ∧ h.op = 0xC3)
      ∧ linkAt t p.val (upHalf s p.val) = { l with timeTs := max 1 s.ts } ∧ OnlyParts [.outs, .links] s t)
    ∧ (∀ pk m rx, FromTorus s p.val pk 3 0xC3 → pk.body = .time m →
      (Runs (.time p pk rx) s fun t => (let x := linkAt t p.val (upHalf s p.val)
          x.timeTx = m.tx ∧ x.timeRx = rx ∧ x.timeHops = m.hops)
          ∧ (linkAt t p.val pk.wire.half).lseqRx = (linkAt s p.val pk.wire.half).lseqRx + 1)
      ∧ (timeRoot s = true → Runs (.time p pk rx) s fun t => OnlyParts [.links] s t)
      ∧ (timeRoot s = false → m.hops ≠ 0xFFFF → (∀ o, o < 6 → o ≠ p.val → portUp s o = false) → dirPort s (portDir s p.val) = some p.val →
          portDir s p.val < 6 → isReady s = true →
        Runs (.time p pk rx) s fun t => regOf t (CLK + 0x24) = toCode 32 (max (-2147483648) (min 2147483647 (timeOffset m rx)))
          ∧ bit (regOf t CLK) 3 = decide ((timeOffset m rx).natAbs < 256000)
          ∧ RegsBut [CLK, CLK + 0x24] s t ∧ OnlyParts [.regs, .links] s t))
    ∧ (oldCount s = 0 → s.rte.oldTs + 1000 * fld (regOf s (RTE + 0xC)) 0 16 ≤ s.ts →
      Runs .oldClear s fun t => bit (regOf t (RTE + 8)) 2 = true
        ∧ (∀ i, i ≠ 2 → bit (regOf t (RTE + 8)) i = bit (regOf s (RTE + 8)) i) ∧ RegsBut [RTE + 8] s t ∧ OnlyParts [.regs] s t))

/-! ### Links -/

/-- Training (R196, R197, R203): an aligned half goes on to discovery, or on an open port is UP; one not aligned within 500 ms is
DOWN for 1 s and FAILED at the eighth attempt; a DOWN half trains again; an open half that loses its alignment is DOWN, and so is a
torus port that was UP, whose loss is flooded (R227); a FAILED half stays FAILED. Every aligned half counts its uncorrectable
codewords (R193). Discovery and adoption (R198 to R202): HELLO is sent each 1 ms in discovery and each second after it; the second
HELLO of a neighbour that has seen this chip decides the port's state and cause by Table 11.7; another record on an UP port is a
link loss; a port not discovered after 100 ms is MISCABLED; an excluded port counts what it drops, and applies the table again when
the record changes; adoption takes a miscabled port into the one free direction of its neighbour. -/
def Obligations.PortsTrainAndDiscover : Prop :=
  (∀ (s : State) (p : Fin 8) (half : Bool), Inv s → halfOk s p.val half = true →
    let l := linkAt s p.val half
    (halfState s p.val half = TRAINING →
      (Runs (.linkAligned p half) s fun t =>
        halfState t p.val half = (if portRole s p.val = 1 then DISCOVERY else UP)
        ∧ linkAt t p.val half = { linkFresh l with aligned := true, alignTs := s.ts, attempts := l.attempts }
        ∧ RegsBut [fabW p.val 4] s t ∧ OnlyParts [.regs, .links] s t)
      ∧ (l.alignTs + 500000000 ≤ s.ts → Runs (.trainingTimeout p half) s fun t =>
          regOf t (fabW p.val 0x12C) = (regOf s (fabW p.val 0x12C) + 1) % 2 ^ 32
          ∧ halfState t p.val half = (if l.attempts + 1 < 8 then DOWN else FAILED)
          ∧ linkAt t p.val half = { l with attempts := l.attempts + 1, downTs := s.ts + 1000000000 }
          ∧ (l.attempts + 1 < 8 → RegsBut [fabW p.val 4, fabW p.val 0x12C] s t ∧ OnlyParts [.regs, .links] s t)))
    ∧ (halfState s p.val half = DOWN → l.downTs ≤ s.ts → 6 ≤ stage s → portRole s p.val ≠ 0 →
      Runs (.trainingRetry p half) s fun t => halfState t p.val half = TRAINING
        ∧ linkAt t p.val half = { l with alignTs := s.ts, aligned := false }
        ∧ RegsBut [fabW p.val 4] s t ∧ OnlyParts [.regs, .links] s t)
    ∧ (l.aligned = true → portRole s p.val ≠ 1 → halfState s p.val half ≠ FAILED →
      Runs (.alignmentLoss p half) s fun t => halfState t p.val half = DOWN
        ∧ linkAt t p.val half = { linkFresh l with downTs := s.ts } ∧ RegsBut [fabW p.val 4] s t
        ∧ OnlyParts [.regs, .links, .rte] s t)
    ∧ (l.aligned = true → portRole s p.val ≠ 1 → halfState s p.val half = FAILED → exec (.alignmentLoss p half) s = .next s)
    ∧ (∀ n, l.aligned = true → (6 ≤ p.val ∨ halfState s p.val half ≠ UP) → Runs (.uncorrectableCodeword p half n) s fun t =>
        regOf t (fabW p.val 0x108) = (regOf s (fabW p.val 0x108) + 1) % 2 ^ 32
        ∧ regOf t (fabW p.val 0x10C) = (if 6 ≤ p.val then (regOf s (fabW p.val 0x10C) + 1) % 2 ^ 32 else regOf s (fabW p.val 0x10C))
        ∧ RegsBut [fabW p.val 0x100, fabW p.val 0x104, fabW p.val 0x108, fabW p.val 0x10C] s t ∧ OnlyParts [.regs] s t)
    ∧ (p.val < 6 → l.aligned = true → portRole s p.val = 1 → portUp s p.val = true → halfState s p.val half ≠ FAILED →
      Runs (.alignmentLoss p half) s fun t => halfState t p.val half = DOWN ∧ portUp t p.val = false
        ∧ linkAt t p.val half = { linkFresh l with downTs := s.ts }
        ∧ (BitVec.ofNat 18 (myCoord s), BitVec.ofNat 8 (chipInc s), s.rte.fseq) ∈ t.rte.seen))
  ∧ (∀ (s : State) (p : Fin 6) (half : Bool), Inv s → halfOk s p.val half = true → portRole s p.val = 1 →
    let l := linkAt s p.val half
    (l.aligned = true →
      (l.helloTs = 0 ∨ l.helloTs + (if halfState s p.val half = DISCOVERY then 1000000 else 1000000000) ≤ s.ts) →
      Runs (.helloSend p half) s fun t =>
        t.outs.tx = s.outs.tx ++ [⟨.link p.val half, .hello (bareHdr 0 64) (myHello s p.val half l.seenRx 4096), some (helloEth s p.val)⟩]
        ∧ linkAt t p.val half = { l with helloTs := max 1 s.ts } ∧ OnlyParts [.outs, .links] s t)
    ∧ (∀ h : HelloRec, l.aligned = true → h.chkOk = true →
      let kept := (List.range 16).map fun k => fabW p.val (0x200 + 4 * k)
      (halfState s p.val half = DISCOVERY → l.helloRx = none →
        Runs (.hello p half h) s fun t => linkAt t p.val half = { l with seenRx := true, helloRx := some h }
          ∧ RegsBut kept s t ∧ OnlyParts [.regs, .links] s t)
      ∧ (halfState s p.val half = DISCOVERY → l.helloRx ≠ none → h.seen = 1 →
        Runs (.hello p half h) s fun t => halfState t p.val half = (helloChecks s p.val half h).1
          ∧ fld (regOf t (fabW p.val 4)) 8 8 = (helloChecks s p.val half h).2
          ∧ fld (regOf t (fabW p.val 4)) 16 4 = topVersion 0xC h.versions.toNat
          ∧ regOf t (fabW p.val 8) = h.coord.toNat + 2 ^ 18 * h.port.toNat + 2 ^ 24 * h.inc.toNat
          ∧ regOf t (fabW p.val 0xC) = h.features.toNat
          ∧ RegsBut (fabW p.val 4 :: fabW p.val 8 :: fabW p.val 0xC :: fabW p.val 0x14 :: kept) s t
          ∧ OnlyParts [.regs, .links] s t)
      ∧ (∀ old, halfState s p.val half = UP → l.helloRx = some old → sameHello old h = false →
        Runs (.hello p half h) s fun t => halfState t p.val half = DOWN ∧ portUp t p.val = false)
      ∧ (∀ old q r o, halfState s p.val half = UP → l.helloRx = some old → sameHello old h = true → old.inc ≠ h.inc →
          s.reqs = [q] → q.via = none → q.dest.toNat = fld (regOf s (fabW p.val 8)) 0 18 → q.kind ∈ [ReqKind.pool, .contrib, .write] →
          (∀ a b c, q.pk.body ≠ .mig a b c) → q.op = some r → findOp s r = some o → o.phase ≠ .decided →
        Runs (.hello p half h) s fun t => Ended t r TARGET_RESET 0 ∧ Released t r ∧ OtherOps [r] s t
          ∧ fld (regOf t (fabW p.val 8)) 24 8 = h.inc.toNat))
    ∧ (∀ f (w : Wire) vc n, excluded s p.val half = true → w.half = half →
      ∀ c ∈ [Instr.linkControlFrame p half f, .stompedFrame p w.half (w.lseq, w.crc) vc n],
        Runs c s fun t => regOf t (fabW p.val 0x11C) = (regOf s (fabW p.val 0x11C) + 1) % 2 ^ 32
          ∧ RegsBut [fabW p.val 0x11C] s t ∧ OnlyParts [.regs] s t)
    ∧ (∀ h : HelloRec, l.aligned = true → h.chkOk = true → excluded s p.val half = true → l.helloRx ≠ some h →
        fld (regOf s (fabW p.val 4)) 8 8 ≠ 1 ∨ h.seen = 1 →
      Runs (.hello p half h) s fun t => halfState t p.val half = (helloChecks s p.val half h).1
        ∧ fld (regOf t (fabW p.val 4)) 8 8 = (helloChecks s p.val half h).2)
    ∧ (halfState s p.val half = DISCOVERY → l.alignTs + 100000000 ≤ s.ts →
      Runs (.discoveryTimeout p) s fun t => halfState t p.val half = MISCABLED ∧ fld (regOf t (fabW p.val 4)) 8 8 = 1
        ∧ RegsBut [fabW p.val 4] s t ∧ OnlyParts [.regs] s t)
    ∧ (∀ d, (linkAt s p.val false).aligned = true → (linkAt s p.val false).alignTs + 100000000 ≤ s.ts →
        bit (regOf s (fabW p.val 0)) 5 = true → halfState s p.val false = MISCABLED →
        fld (regOf s (fabW p.val 4)) 8 8 ∈ [0x11, 0x12] → adoptDir s p.val = some d →
        (∀ o b, o < 6 → o ≠ p.val → halfState s o b ≠ MISCABLED) →
      Runs .adoption s fun t => halfState t p.val false = UP
        ∧ (portSplit s p.val = true → halfState s p.val true = MISCABLED → halfState t p.val true = UP) ∧ fld (regOf t (fabW p.val 0)) 6 3 = d
        ∧ bit (regOf t (fabW p.val 4)) 21 = true
        ∧ fld (regOf t (fabW p.val 0x10)) 0 21 = fld (regOf s (fabW p.val 8)) 0 21
        ∧ (∀ o, o < 6 → o ≠ p.val → regOf t (fabW o 0) = regOf s (fabW o 0) ∧ halfState t o false = halfState s o false)))

/-- Link control and retry of an UP half (R193, R209, R213, R215 to R217): an LCF's credits and acknowledgements are taken; a NAK
has what it names sent again; the NAK_MAXth of one LSEQ and an acknowledgement that stays out for LLR_US are a link loss. Codewords
that fail are NAKed once; a stomped frame and one with a bad header are dropped, counted, and their credits returned. -/
def Obligations.LinkRetryKeepsTheOrder : Prop :=
  ∀ (s : State) (p : Fin 6) (half : Bool), Inv s → halfState s p.val half = UP → portRole s p.val = 1 →
    let l := linkAt s p.val half
    let lcfTx (nak : Bool) : Tx :=
      torusTx s p.val half (.lcf ⟨l.lseqRx - 1, nak, l.freed⟩ (lcfFrame s p.val ⟨l.lseqRx - 1, nak, l.freed⟩))
    (∀ f : Lcf,
      let left := afterAck f.ack l.retry
      let cred := (List.range 24).map fun v => f.cred.getD v (l.credFl.getD v 0)
      let moved := left.length < l.retry.length
      let naks := if l.nakSeq = f.ack + 1 ∧ l.naks ≠ 0 ∧ ¬moved then l.naks + 1 else 1
      let next : Link := { l with credFl := cred, retry := left, ackTs := if moved then s.ts else l.ackTs, nakSeq := f.ack + 1 }
      (f.nak = false → l.owed = [] → Runs (.linkControlFrame p half f) s fun t =>
        linkAt t p.val half = { next with naks := 0 }
        ∧ RegsBut [fabW p.val 0x100, fabW p.val 0x104] s t ∧ OnlyParts [.regs, .links, .rte] s t)
      ∧ (∀ w : Owed, f.nak = false → l.owed = [w] → w.src = none → 0 < w.n → Runs (.linkControlFrame p half f) s fun t =>
        let k := min w.n (vcCred s p.val w.vc - (l.sentFl.getD w.vc 0 + 65536 - (cred.getD w.vc 0).toNat) % 65536)
        linkAt t p.val half = { next with
          naks := 0, sentFl := listAdd l.sentFl w.vc k, owed := if k = w.n then [] else [{ w with n := w.n - k }] }
        ∧ RegsBut [fabW p.val 0x100, fabW p.val 0x104] s t ∧ OnlyParts [.regs, .links, .rte] s t)
      ∧ (f.nak = true → l.owed = [] → naks < max 1 (fld (regOf s (RTE + 0xC)) 24 4) → Runs (.linkControlFrame p half f) s fun t =>
        linkAt t p.val half = { next with naks := naks }
        ∧ t.outs.tx = s.outs.tx ++ left.map (fun r =>
            torusTx s p.val half (.packet { r.2 with hdr := { r.2.hdr with flags := r.2.hdr.flags ||| 2 } }))
        ∧ regOf t (RTE + 0x20C) = (regOf s (RTE + 0x20C) + (left.map fun r => flitsOf r.2.hdr).sum) % 2 ^ 32
        ∧ RegsBut [RTE + 0x20C, fabW p.val 0x100, fabW p.val 0x104] s t ∧ OnlyParts [.regs, .outs, .links, .rte] s t)
      ∧ (f.nak = true → max 1 (fld (regOf s (RTE + 0xC)) 24 4) ≤ naks → halfOk s p.val half = true →
        Runs (.linkControlFrame p half f) s fun t => halfState t p.val half = DOWN ∧ linkAt t p.val half = { linkFresh l with downTs := s.ts }))
    ∧ (l.overrun = true → halfOk s p.val half = true → Runs (.lcfSend p half) s fun t =>
        halfState t p.val half = DOWN ∧ linkAt t p.val half = { linkFresh l with downTs := s.ts })
    ∧ (l.overrun = false → Runs (.lcfSend p half) s fun t =>
        t.outs.tx = s.outs.tx ++ [lcfTx l.nakWait]
        ∧ linkAt t p.val half = { l with lcfTs := s.ts } ∧ OnlyParts [.regs, .outs, .links] s t
        ∧ regOf t (RTE + 0x208) = (if l.nakWait then (regOf s (RTE + 0x208) + 1) % 2 ^ 32 else regOf s (RTE + 0x208)))
    ∧ (l.retry ≠ [] → l.ackTs + 1000 * fld (regOf s (RTE + 0xC)) 16 8 ≤ s.ts → halfOk s p.val half = true →
      Runs (.llrAckTimeout p half) s fun t => halfState t p.val half = DOWN ∧ linkAt t p.val half = { linkFresh l with downTs := s.ts })
    ∧ (∀ (q : Fin 8) n, q.val = p.val → halfOk s p.val half = true → l.aligned = true →
      (l.nakWait = false → Runs (.uncorrectableCodeword q half n) s fun t =>
        regOf t (fabW p.val 0x108) = (regOf s (fabW p.val 0x108) + 1) % 2 ^ 32
        ∧ regOf t (RTE + 0x208) = (regOf s (RTE + 0x208) + 1) % 2 ^ 32
        ∧ t.outs.tx = s.outs.tx ++ [lcfTx true]
        ∧ linkAt t p.val half = { l with nakWait := true, lcfTs := s.ts }
        ∧ RegsBut [fabW p.val 0x100, fabW p.val 0x104, fabW p.val 0x108, RTE + 0x208] s t ∧ OnlyParts [.regs, .outs, .links] s t)
      ∧ (l.nakWait = true → Runs (.uncorrectableCodeword q half n) s fun t =>
        regOf t (fabW p.val 0x108) = (regOf s (fabW p.val 0x108) + 1) % 2 ^ 32
        ∧ RegsBut [fabW p.val 0x100, fabW p.val 0x104, fabW p.val 0x108] s t ∧ OnlyParts [.regs] s t))
    ∧ (∀ (w : Wire) vc n, w.half = half → (inOrder s p.val w = true → Runs (.stompedFrame p w.half (w.lseq, w.crc) vc n) s fun t =>
        regOf t (RTE + 0x200) = (regOf s (RTE + 0x200) + 1) % 2 ^ 32
        ∧ linkAt t p.val half = { l with lseqRx := l.lseqRx + 1, nakWait := false, freed := bvAdd l.freed vc.val n }
        ∧ RegsBut [RTE + 0x200] s t ∧ OnlyParts [.regs, .links] s t)
      ∧ (inOrder s p.val w = false → l.nakWait = false → Runs (.stompedFrame p w.half (w.lseq, w.crc) vc n) s fun t =>
        t.outs.tx = s.outs.tx ++ [lcfTx true] ∧ linkAt t p.val half = { l with nakWait := true, lcfTs := s.ts }
        ∧ regOf t (RTE + 0x208) = (regOf s (RTE + 0x208) + 1) % 2 ^ 32
        ∧ RegsBut [RTE + 0x208] s t ∧ OnlyParts [.regs, .outs, .links] s t)
      ∧ (inOrder s p.val w = false → l.nakWait = true → exec (.stompedFrame p w.half (w.lseq, w.crc) vc n) s = .next s))
    ∧ (∀ (q : Fin 8) w h n, q.val = p.val → w.half = half →
      (hdrBad s p.val h n = true → inOrder s p.val w = true → Runs (.badHeaderFrame q w h n) s fun t =>
        regOf t (RTE + 0x210) = (regOf s (RTE + 0x210) + 1) % 2 ^ 32
        ∧ linkAt t p.val half = { l with lseqRx := l.lseqRx + 1, nakWait := false, freed := bvAdd l.freed (h.vc.toNat % 24) (flitsOf h) }
        ∧ RegsBut [RTE + 0x210] s t ∧ OnlyParts [.regs, .links] s t)
      ∧ (hdrBad s p.val h n = false → exec (.badHeaderFrame q w h n) s = .next s))

/-! ### Collectives -/

/-- REDUCE_SCATTER on a group without a ring writes its terms at DEST, clears its slot and ends OK (R234, R247); GRANT adds slots,
or has the partial that starts here go out in bf16 (R236, R238); STITCH at the owner of the chunk adds the term and writes the sum
at DEST (R241); STRAGGLER_DEADLINE has a late term counted and goes on without it (R245). -/
def Obligations.CollectivesReduce : Prop :=
  ∀ (s : State) (p : Fin 8), Inv s →
    (∀ r o dst x, OpAt s r o .ready 7 → colSub o = 0 → colCells o = 0 → grpPhases s (colGroup o) = [] →
        BucketAt s r (colGroup o) (colBucket o) dst → s.col.bk = [x] → isBk (colGroup o) (colBucket o) o.step x = true →
        x.op = some r → x.stage = 0 → x.done = false → x.fault = false → x.lateSelf = false → x.ended = false →
        s.col.held = [] → s.col.ctx = [] →
        let e := bktSee s (colGroup o) (colBucket o)
        let term := fun i => wellWord s s.well e.slot (e.off + i)
        (∀ i, i < e.elems → codeFin (term i) = true) →
      Runs (.reduceScatter r []) s fun t => Ended t r OK (lateReport pfxZero false % 2 ^ 32)
        ∧ (∀ i, i < e.elems → leNat (t.hbm.getN (dst + 4 * i) 4) = term i)
        ∧ (∀ i, i < e.elems → wellWord s t.well e.slot (e.off + i) = 0) ∧ claimed t e.slot = false
        ∧ MemBut dst (4 * e.elems) s.hbm t.hbm
        ∧ MemBut (4 * (slotBase s e.slot + e.off)) (4 * e.elems) s.well t.well
        ∧ ∀ q, q ≠ r → (∀ y, findOp s q = some y → y.code ≠ 6) → findOp t q = findOp s q)
    ∧ (∀ pk x key, FromRing s p.val pk 0xE1 key → OneBucket s x → isBk key.g key.b key.step x = true → s.col.cred = [] →
      (bkOp s x = none → colExpired s key.g key.step = false →
        Runs (.grant p pk) s fun t => credOf t key = fld pk.hdr.addr.toNat 0 16 ∧ (∃ n, t.col.bk = [{ x with since := n }])
          ∧ OnlyParts [.outs, .col, .links, .rte] s t)
      ∧ (∀ r o dst, key.phase = 0 → x.op = some r → findOp s r = some o → BucketAt s r key.g key.b dst →
          fld pk.hdr.addr.toNat 0 16 = 1 →
          let e := bktSee s key.g key.b
          let j := originChunk s key.g 0 key.minus
          let span := halfSpan s x 0 key.minus j
          let term := (List.range (min 2040 span.2)).map fun i => wellWord s s.well e.slot (e.off + span.1 + i)
          (∀ v ∈ term, codeFin v = true ∧ (vbf (rbf (v32 v))).isFin = true) →
        Runs (.grant p pk) s fun t =>
          (∃ h : Hdr, ⟨.hop (ringDir s key.g 0 key.minus),
              .packet (.of h (.stitch pfxZero (term.map fun v => rbf (v32 v)))), none⟩ ∈ t.outs.tx
            ∧ h.cls = 4 ∧ h.op = 0xE0 ∧ h.seq = 0 ∧ h.cnt.toNat = packetsOf span.2)
          ∧ credOf t key = 0
          ∧ (∀ i, i < min 2040 span.2 → wellWord s t.well e.slot (e.off + span.1 + i) = 0)
          ∧ MemBut (4 * (slotBase s e.slot + e.off + span.1)) (4 * min 2040 span.2) s.well t.well ∧ t.hbm = s.hbm))
    ∧ (∀ pk x key r o dst q cs, FromRing s p.val pk 0xE0 key → OneBucket s x → isBk key.g key.b key.step x = true →
        key.phase = 0 → s.col.cred = [] → x.op = some r → findOp s r = some o → BucketAt s r key.g key.b dst →
        pk.body = .stitch q cs → fld pk.hdr.addr.toNat 24 5 = ringPos s key.g 0 →
        let e := bktSee s key.g key.b
        let off := fld pk.hdr.addr.toNat 0 24
        let j := ringPos s key.g 0
        let span := halfSpan s x 0 key.minus j
        let at_ := (halfOf (chunkOf e.elems (ringSize s key.g 0) j).2 key.minus).1 + off
        let term := fun i => wellWord s s.well e.slot (e.off + span.1 + off + i)
        0 < cs.length → off + cs.length ≤ span.2 → 4 * (at_ + cs.length) ≤ e.destB →
      Runs (.stitch p pk) s fun t =>
        (∀ i c, cs[i]? = some c → leNat (t.hbm.getN (dst + 4 * (at_ + i)) 4) = r32 ((vbf c).add (v32 (term i))) % 2 ^ 32
          ∧ wellWord s t.well e.slot (e.off + span.1 + off + i) = 0)
        ∧ MemBut (dst + 4 * at_) (4 * cs.length) s.hbm t.hbm
        ∧ MemBut (4 * (slotBase s e.slot + e.off + span.1 + off)) (4 * cs.length) s.well t.well ∧ t.col.held = [])
    ∧ ∀ (g : Fin 4) x key, OneBucket s x → key = ⟨g.val, x.b, x.step, 0, key.minus⟩ → x.g = g.val → bkOp s x = none →
        colExpired s g.val x.step = true → s.col.cred = [(key, 1)] →
        let n := min 2040 (halfSpan s x 0 key.minus (originChunk s g.val 0 key.minus)).2
      Runs (.stragglerDeadline g) s fun t =>
        regOf t (COL + 0x18) = (regOf s (COL + 0x18) + 1) % 2 ^ 32
        ∧ (∃ h : Hdr, ⟨.hop (ringDir s g.val 0 key.minus), .packet (.of h (.stitch (pfxLate s pfxZero) (List.replicate n 0))), none⟩
            ∈ t.outs.tx ∧ h.cls = 4 ∧ h.op = 0xE0)
        ∧ t.hbm = s.hbm ∧ t.well = s.well

/-- ALL_GATHER ends OK in a group without a ring and else sends its shard along the axis line (R249); COL_GATHER writes what it
carries at this chip's own WEIGHT; VERDICT keeps the bit of its line, and the last one publishes the step's verdict (R242);
COL_TIMEOUT ends the group's operations REMOTE_TIMEOUT and floods the loss (R251). -/
def Obligations.CollectivesGatherAndJudge : Prop :=
  ∀ (s : State) (p : Fin 8), Inv s →
    (∀ r o, OpAt s r o .ready 7 → colSub o = 1 →
      let g := colGroup o
      let e := bktSee s g (colBucket o)
      findAg s g (colBucket o) o.step 0 = none → s.col.seen.any (fun y => y.1 == g && y.2.1 == o.step) = true → s.col.held = [] →
      (grpPhases s g = [] → Runs (.allGather r) s fun t => Ended t r OK 0 ∧ t.col = s.col ∧ OtherOps [r] s t
        ∧ OnlyParts [.ops, .reqs, .cells, .col, .rte] s t)
      ∧ (∀ a l, grpPhases s g = [a] →
          let sh := shardOf s g e.elems
          let n := e.wb * sh.2
          0 < n → n ≤ 4096 → sh.2 < e.elems → weightParts (e.weight + e.wb * sh.1) n = [(0, n)] →
          placeHeld o.hold s (grpOwner s g) (e.weight + e.wb * sh.1) n true = .here l → Readable s l n →
        Runs (.allGather r) s fun t => (∃ x, OpAt t r x .running 7) ∧ OtherOps [r] s t
          ∧ (∃ h : Hdr, t.outs.tx = s.outs.tx ++ [⟨.fabric, .packet (.of h (.raw (bytesAt s o.who l n))), none⟩]
            ∧ h.cls = 4 ∧ h.op = 0xE2 ∧ h.mcast = BitVec.ofNat 2 (a + 1) ∧ h.cnt = 1
            ∧ fld h.addr.toNat 0 28 = e.wb * sh.1 % 2 ^ 28)
          ∧ OnlyParts [.ops, .outs, .col, .rte] s t))
    ∧ (∀ pk key b x a, FromRing s p.val pk 0xE2 key → pk.body = .raw b → 0 < b.length → s.col.bk = [] → s.col.held = [] →
        s.col.seen.any (fun y => y.1 == key.g && y.2.1 == key.step) = true →
        findAg s key.g key.b key.step 0 = some x → x.op = none → x.sent = [] → grpPhases s key.g ≠ [] →
        let off := fld pk.hdr.addr.toNat 0 28
        isRow (Loc.ofAddr ((bktSee s key.g key.b).weight + off)) = false →
        weightFree s (bktSee s key.g key.b).weight = true →
        place s (grpOwner s key.g) ((bktSee s key.g key.b).weight + off) b.length true = .here (.hbm a) → HbmSound s →
      Runs (.colGather p pk) s fun t => t.hbm.getN a b.length = b ∧ MemBut a b.length s.hbm t.hbm
        ∧ findAg t key.g key.b key.step 0 = some { x with
            recv := mapSet x.recv key.phase ((mapGet x.recv key.phase).getD 0 + b.length), since := s.ts }
        ∧ t.col.held = [] ∧ OnlyParts [.hbm, .col, .links, .rte] s t)
    ∧ (∀ pk key v, FromRing s p.val pk 0xE3 key →
        s.col.ver.find? (fun v => v.g == key.g && v.step == key.step) = some v →
      (v.shards < grpBuckets s key.g → Runs (.verdict p pk) s fun t =>
        t.col.ver.find? (fun v => v.g == key.g && v.step == key.step)
          = some { v with got := v.got ++ [(key.phase, bit pk.hdr.addr.toNat 0)] } ∧ OnlyParts [.col, .links] s t)
      ∧ (grpBuckets s key.g ≤ v.shards → v.line = (grpPhases s key.g).length → key.phase + 1 = v.line →
          (v.got.filter fun x => x.1 + 1 == v.line).length + 2 = ringSize s key.g key.phase →
        Runs (.verdict p pk) s fun t => regOf t (grpW key.g 6) = key.step.toNat
          ∧ regOf t (grpW key.g 7)
            = 1 + 2 * b2n (v.bit || bit pk.hdr.addr.toNat 0 || (v.got.filter fun x => x.1 + 1 == v.line).any Prod.snd)
          ∧ (∀ y ∈ t.col.ver, ¬(y.g = key.g ∧ y.step = key.step)) ∧ RegsBut [grpW key.g 6, grpW key.g 7] s t
          ∧ OnlyParts [.regs, .ops, .col, .links] s t))
    ∧ ∀ g : Fin 4, ((∃ c x, c ∈ s.col.ctx ∧ c.key.g = g.val ∧ findBk s g.val c.key.b c.key.step = some x
          ∧ x.since + grpTimeout s g.val ≤ s.ts)
        ∨ ∃ x ∈ s.col.ag, x.g = g.val ∧ x.op.isSome = true ∧ x.since + grpTimeout s g.val ≤ s.ts) →
      Runs (.colTimeout g) s fun t => (∀ r o, findOp s r = some o → o ∈ grpOps s g.val → Ended t r REMOTE_TIMEOUT 0)
        ∧ regOf t (COL + 0x20) = (regOf s (COL + 0x20) + 1) % 2 ^ 32
        ∧ (∀ y ∈ t.col.bk, y.g ≠ g.val) ∧ (∀ y ∈ t.col.ag, y.g ≠ g.val)
        ∧ (BitVec.ofNat 18 (myCoord s), BitVec.ofNat 8 (chipInc s), s.rte.fseq) ∈ t.rte.seen

/-! ### Open ports and service -/

/-- Open ports (R204 to R206): PFC pauses a priority for its quanta, and what was held goes out when it resumes; the watchdog ends a
pause that lasts too long; XOFF is sent again while the buffer stays above XON; Crown answers ARP, neighbour solicitation and echo,
1,024 a second; a frame that the filter drops is counted at its step. -/
def Obligations.OpenPortsPauseAndAnswer : Prop :=
  ∀ (s : State) (p : Fin 8) (half : Bool), Inv s → openUp s p.val half = true →
    let l := linkAt s p.val half
    (∀ q : Fin 8,
      let resumed := { l with paused := l.paused.filter fun y => y.1 != q.val, storm := l.storm.filter (· != q.val),
                              queue := l.queue.filter fun y => y.1 != q.val }
      let freed := (l.queue.filter fun y => y.1 == q.val).map Prod.snd
      (∀ n : BitVec 16, prioOn s p.val q.val = true → n ≠ 0 → (l.paused.any fun y => y.1 == q.val) = false →
        Runs (.pfcFrame p half [(q, n)]) s fun t =>
          linkAt t p.val half = { l with paused := (q.val, s.ts + cdiv (n.toNat * quantum s p.val) 100, s.ts) :: l.paused }
          ∧ OnlyParts [.links] s t)
      ∧ (prioOn s p.val q.val = true → Runs (.pfcFrame p half [(q, 0)]) s fun t =>
          linkAt t p.val half = resumed ∧ t.outs.tx = s.outs.tx ++ freed ∧ OnlyParts [.outs, .links] s t)
      ∧ (prioOn s p.val q.val = false → ∀ n, exec (.pfcFrame p half [(q, n)]) s = .next s)
      ∧ (∀ z, l.paused.find? (fun z => z.1 == q.val) = some z →
        (z.2.1 ≤ s.ts → Runs (.pfcPauseExpiry p half q) s fun t =>
          linkAt t p.val half = resumed ∧ t.outs.tx = s.outs.tx ++ freed ∧ OnlyParts [.outs, .links] s t)
        ∧ (z.2.2 + 1000000 * fld (regOf s (fabW p.val 0x5C)) 0 16 ≤ s.ts → l.storm.contains q.val = false →
          Runs (.pfcWatchdog p half q) s fun t =>
            linkAt t p.val half = { l with storm := q.val :: l.storm, queue := l.queue.filter fun y => y.1 != q.val }
            ∧ regOf t (fabW p.val 0x124) = (regOf s (fabW p.val 0x124) + 1) % 2 ^ 32 ∧ RegsBut [fabW p.val 0x124] s t
            ∧ OnlyParts [.regs, .links] s t))
      ∧ (∀ y, prioOn s p.val q.val = true → l.xoff.find? (fun y => y.1 == q.val) = some y → y.2 + 20000 ≤ s.ts →
        Runs (.pfcXoffRepeat p half q) s fun t =>
          let n := (linkAt t p.val half).fill.getD q.val 0
          let low := decide (n < (rxMarks s p.val).2)
          n ≤ l.fill.getD q.val 0
          ∧ t.outs.tx = s.outs.tx ++ [openTx s p.val half 5 (.link p.val half) (.pfc q.val (if low then 0 else 0xFFFF))]
          ∧ (linkAt t p.val half).xoff
            = (if low then [] else [(q.val, s.ts)]) ++ l.xoff.filter (fun y => y.1 != q.val)
          ∧ OnlyParts [.outs, .links] s t))
    ∧ (∀ f i data, openFilter s p.val half f = .crown → f.ip = some i → (i.kind = .echo ∨ i.kind = .echo6) → data.length ≤ 1472 →
        RxRoom s p.val half (prioOf f.prio) →
      let k := linkAt s p.val false
      (crownUp s = true → s.ts < k.crownTs + 1000000000 → k.crownCnt < 1024 → Runs (.echoRequest p half f data) s fun t =>
        SentAfterPfc s t p.val half [openTx s p.val half 5 (.crown p.val half) (.echoReply i.v6 f.srcAddr data)]
        ∧ (linkAt t p.val false).crownCnt = k.crownCnt + 1 ∧ OnlyParts [.outs, .links] s t)
      ∧ ((crownUp s = false ∨ (s.ts < k.crownTs + 1000000000 ∧ 1024 ≤ k.crownCnt)) → Runs (.echoRequest p half f data) s fun t =>
        regOf t (fabW p.val 0x128) = (regOf s (fabW p.val 0x128) + 1) % 2 ^ 32 ∧ RegsBut [fabW p.val 0x128] s t
        ∧ OnlyParts [.regs, .outs, .links] s t))
    ∧ (∀ target sender t6 sender6, target.toNat = portIp4 s p.val → (t6.toNat = portIp6 s p.val ∨ t6.toNat = linkLocal s p.val half) →
      let k := linkAt s p.val false
      ∀ c ∈ [(Instr.arp p half target sender, TxMsg.arpReply sender),
          (.neighbourSolicitation p half t6 sender6, .neighAdvert sender6)],
        (crownUp s = true → s.ts < k.crownTs + 1000000000 → k.crownCnt < 1024 → Runs c.1 s fun t =>
          t.outs.tx = s.outs.tx ++ [openTx s p.val half 5 (.crown p.val half) c.2]
          ∧ linkAt t p.val false = { k with crownCnt := k.crownCnt + 1 } ∧ OnlyParts [.outs, .links] s t)
        ∧ ((crownUp s = false ∨ (s.ts < k.crownTs + 1000000000 ∧ 1024 ≤ k.crownCnt)) → Runs c.1 s fun t =>
          regOf t (fabW p.val 0x128) = (regOf s (fabW p.val 0x128) + 1) % 2 ^ 32 ∧ RegsBut [fabW p.val 0x128] s t
          ∧ OnlyParts [.regs] s t))
    ∧ ∀ f c, l.aligned = true → (openFilter s p.val half f = .drop c
        ∨ ∃ h, openFilter s p.val half f = .ghedin h ∧ peerDrop s p.val half f.srcAddr.toNat h = some c) →
      Runs (.unacceptedFrame p half f) s fun t => regOf t c = (regOf s c + 1) % 2 ^ 32 ∧ RegsBut [c] s t ∧ OnlyParts [.regs] s t

/-- Ghedin peers (R207, R254 to R256): HELLO goes out each 100 ms until the peer has seen this chip, and each second after it; a
HELLO with SEEN brings the entry UP in the highest common version, one under a new incarnation ends what waited for the old; 5 s
without one, and the last resend of a packet that is not acknowledged, end operations REMOTE_TIMEOUT; ECN raises the rate again,
where FAB_ECN.EN is set. -/
def Obligations.PeersComeUpAndGoDown : Prop :=
  ∀ (s : State) (n : Fin 256), Inv s →
    let x := peerAt s n.val
    let p := peerPort s n.val
    let half := peerHalf s n.val
    (peerValid s n.val = true → openUp s p half = true → OpenSends s p half 3 →
        (x.sent = 0 ∨ x.sent + (if x.seenRx then 1000000000 else 100000000) ≤ s.ts) →
      Runs (.peerHelloSend n) s fun t =>
        t.outs.tx = s.outs.tx ++ [openTx s p half 3 (.peer n.val) (.hello (peerHelloHdr s n.val) (myHello s p half x.hello.isSome 4096))]
        ∧ (peerAt t n.val).sent = max 1 s.ts ∧ peerState t n.val = (if peerState s n.val = 0 then 1 else peerState s n.val)
        ∧ RegsBut [peerW n.val 0] s t ∧ OnlyParts [.regs, .outs, .peers] s t)
    ∧ (∀ (q : Fin 8) hf f h g, openUp s q.val hf = true → openFilter s q.val hf f = .ghedin g → isHello g = true →
        h.chkOk = true → peerDrop s q.val hf f.srcAddr.toNat g = none → RxRoom s q.val hf (prioOf f.prio) →
        fld g.src.toNat 0 8 = n.val →
      (h.seen = 1 → topVersion 0xC h.versions.toNat ≠ 0 → (∀ o, x.hello = some o → o.inc = h.inc) →
        Runs (.peerHello q hf f h) s fun t => peerState t n.val = 2
          ∧ fld (regOf t (peerW n.val 0)) 23 4 = topVersion 0xC h.versions.toNat
          ∧ (peerAt t n.val).hello = some h ∧ (peerAt t n.val).last = s.ts
          ∧ RegsBut [peerW n.val 0] s t ∧ OnlyParts [.regs, .outs, .links, .peers] s t)
      ∧ (∀ old y r o, x.hello = some old → old.inc ≠ h.inc → s.reqs = [y] → y.via = some n.val →
          y.kind ∈ [ReqKind.pool, .write] → (∀ a b c, y.pk.body ≠ .mig a b c) → y.op = some r → findOp s r = some o →
          o.phase ≠ .decided →
        Runs (.peerHello q hf f h) s fun t => Ended t r TARGET_RESET 0 ∧ Released t r ∧ OtherOps [r] s t
          ∧ (peerAt t n.val).hello = some h))
    ∧ (peerState s n.val ≠ 0 → x.last + 5000000000 ≤ s.ts →
      ∀ y r o, s.reqs = [y] → y.via = some n.val → y.kind ∈ [ReqKind.pool, .write] → (∀ a b c, y.pk.body ≠ .mig a b c) →
        y.op = some r → findOp s r = some o → o.phase ≠ .decided →
      Runs (.peerDown n) s fun t => peerState t n.val = 0 ∧ (peerAt t n.val).hello = none ∧ (peerAt t n.val).held = []
        ∧ Ended t r REMOTE_TIMEOUT 0 ∧ Released t r
        ∧ ∀ u v, u ≠ r → findOp s u = some v →
          if v.code = 9 ∧ v.at 16 1 = n.val ∧ colPhase v.phase = true then Ended t u REMOTE_TIMEOUT 0 else findOp t u = some v)
    ∧ (∀ (q : Fin 8) pk, 6 ≤ q.val → pk.wire.taken = false → halfState s q.val pk.wire.half = UP →
        RxRoom s q.val pk.wire.half (prioOf pk.wire.prio) → peerDrop s q.val pk.wire.half pk.wire.src.toNat pk.hdr = none →
        fld pk.hdr.src.toNat 0 8 = n.val →
        pk.hdr.op = 0x97 → pk.hdr.cls = 1 → pk.ce = false → bit pk.hdr.flags.toNat 0 = false →
      Runs (.e2eAck q pk) s fun t =>
        peerAt t n.val = { x with held := x.held.filter fun h => !(h.pk.hdr.optag == pk.hdr.optag && h.pk.hdr.seq == pk.hdr.seq) }
        ∧ OnlyParts [.outs, .links, .peers] s t)
    ∧ (∀ tag seq h, x.held.find? (fun h => h.pk.hdr.optag == tag && h.pk.hdr.seq == seq) = some h →
        h.since + 1000 * fld (regOf s (SVC + 4)) 0 16 ≤ s.ts →
      (h.tries < fld (regOf s (SVC + 4)) 16 4 → x.flagDue = none → OpenSends s p half h.pk.hdr.cls.toNat →
        Runs (.e2eRetransmit n tag seq) s fun t =>
          t.outs.tx = s.outs.tx ++ [openTx s p half h.pk.hdr.cls.toNat (.peer n.val)
            (.packet { h.pk with hdr := { h.pk.hdr with flags := h.pk.hdr.flags ||| 2 } })]
          ∧ regOf t (SVC + 0x20) = (regOf s (SVC + 0x20) + 1) % 2 ^ 32 ∧ RegsBut [SVC + 0x20] s t
          ∧ (peerAt t n.val).held.length = x.held.length ∧ OnlyParts [.regs, .outs, .peers] s t)
      ∧ (fld (regOf s (SVC + 4)) 16 4 ≤ h.tries →
        ∀ y r o, s.reqs = [y] → y.via = some n.val → y.optag = tag → y.kind ∈ [ReqKind.pool, .write] →
          (∀ a b c, y.pk.body ≠ .mig a b c) → y.op = some r → findOp s r = some o → o.phase ≠ .decided →
        Runs (.e2eRetransmit n tag seq) s fun t => Ended t r REMOTE_TIMEOUT 0 ∧ Released t r ∧ OtherOps [r] s t
          ∧ ∀ z ∈ (peerAt t n.val).held, ¬(z.pk.hdr.optag = tag ∧ z.pk.hdr.seq = seq)))
    ∧ (∀ tag seq, Runs (.dedupKeyExpiry n tag seq) s fun t =>
        (∀ y, y ∈ (peerAt t n.val).dedup ↔ y ∈ x.dedup ∧ ¬(y.1 = tag ∧ y.2.1 = seq
          ∧ y.2.2 + 2 * (fld (regOf s (SVC + 4)) 16 4 + 1) * (1000 * fld (regOf s (SVC + 4)) 0 16) ≤ s.ts))
        ∧ OnlyParts [.peers] s t)
    ∧ (∀ t0, ecnOn s p = true → x.flagDue = some t0 → t0 + 10000 ≤ s.ts → OpenSends s p half 1 →
      Runs (.ecnFlagTimer n) s fun t => (∃ h : Hdr, t.outs.tx = s.outs.tx ++ [openTx s p half 1 (.peer n.val) (.packet (.of h .none))]
          ∧ h.cls = 1 ∧ h.len = 0 ∧ bit h.flags.toNat 0 = true)
        ∧ peerAt t n.val = { x with flagDue := none } ∧ OnlyParts [.outs, .peers] s t)
    ∧ (ecnOn s p = false → ∀ c ∈ [Instr.ecnFlagTimer n, .ecnRateRaise n], exec c s = .next s)
    ∧ (ecnOn s p = true → x.rate < 10000 → x.ecnTs + 50000 ≤ s.ts →
      Runs (.ecnRateRaise n) s fun t => peerAt t n.val = { x with rate := min 10000 (x.rate + 500), ecnTs := s.ts }
        ∧ OnlyParts [.peers] s t)

/-- Queue pairs (R260 to R264): RDMA WRITE and READ of a window move the bytes, are acknowledged and advance the PSN; a duplicate is
acknowledged, a gap NAKed, and a window that does not grant the access puts the pair in ERROR; SEND collects a message, and one that
is no request ends BAD_DESCRIPTOR; answers are held until ROCE_ACK, sent again after TIMEOUT, RETRY_CNT times; CNP halves the rate;
a context is applied by its first word. -/
def Obligations.QueuePairsServeTheirPartner : Prop :=
  ∀ (s : State) (q : Fin 4096) (k : RocePkt), Inv s →
    let x := qpAt s q.val
    let next (t : State) (n : Nat) : Prop := fld (regOf t (qpW q.val 2)) 0 24 = (fld (regOf s (qpW q.val 2)) 0 24 + n) % 2 ^ 24
    (FromPartner s q.val k →
      (∀ a o, k.psn = qpPsn s q.val → k.first = true → k.last = true → 0 < k.data.length →
          roceAddr s k.rkey.toNat k.va.toNat (max k.data.length k.dmaLen) 1 = some a → (Loc.ofAddr a).near s = .hbm o →
          inHbmQuota s (svcDom s) o k.data.length = true → HbmSound s → o + k.data.length ≤ hbmCap s →
        Runs (.rdmaWrite q k) s fun t => t.hbm.getN o k.data.length = k.data ∧ MemBut o k.data.length s.hbm t.hbm ∧ next t 1
          ∧ QpSent s t q.val [qpFrame s q.val (.roceAck q.val k.psn)] ∧ (qpAt t q.val).wr = none
          ∧ RegsBut [qpW q.val 2] s t ∧ OnlyParts [.regs, .hbm, .outs, .links, .qps] s t)
      ∧ (8388608 ≤ (k.psn - qpPsn s q.val).toNat → ∀ c ∈ [Instr.rdmaWrite q k, .send q k],
        Runs c s fun t => QpSent s t q.val [qpFrame s q.val (.roceAck q.val k.psn)] ∧ OnlyParts [.outs, .links] s t)
      ∧ (k.psn ≠ qpPsn s q.val → (k.psn - qpPsn s q.val).toNat < 8388608 →
        ∀ c ∈ [Instr.rdmaWrite q k, .rdmaRead q k, .send q k], Runs c s fun t =>
          QpSent s t q.val [qpFrame s q.val (.roceNak q.val (qpPsn s q.val) 0)] ∧ OnlyParts [.outs, .links] s t)
      ∧ (k.psn = qpPsn s q.val → k.first = true → roceAddr s k.rkey.toNat k.va.toNat (max k.data.length k.dmaLen) 1 = none → qpOps s q.val = [] →
        Runs (.rdmaWrite q k) s fun t => qpFrame s q.val (.roceNak q.val k.psn 2) ∈ t.outs.tx ∧ qpState t q.val = 2
          ∧ regOf t (SVC + 0x1C) = (regOf s (SVC + 0x1C) + 1) % 2 ^ 32 ∧ t.hbm = s.hbm)
      ∧ (∀ a o, k.psn = qpPsn s q.val → qpReads s q.val < 16 → roceAddr s k.rkey.toNat k.va.toNat k.dmaLen 0 = some a →
          (Loc.ofAddr a).near s = .hbm o → inHbmQuota s (svcDom s) o k.dmaLen = true → Readable s (.hbm o) k.dmaLen →
        Runs (.rdmaRead q k) s fun t =>
          QpSent s t q.val [qpFrame s q.val (.roceRead q.val k.psn (bytesAt { s with nonce := s.nonce + 1 } none (.hbm o) k.dmaLen))]
          ∧ next t (max 1 (cdiv k.dmaLen (qpPmtu s q.val))) ∧ RegsBut [qpW q.val 2] s t ∧ OnlyParts [.regs, .outs, .links] s t)
      ∧ (k.psn = qpPsn s q.val → k.first = true → k.data.length ≤ 262144 → x.reqs = [] →
        (k.last = false → x.unacked + 1 < 16 → Runs (.send q k) s fun t => (qpAt t q.val).part = k.data ∧ next t 1
          ∧ RegsBut [qpW q.val 2] s t ∧ OnlyParts [.regs, .outs, .links, .qps] s t)
        ∧ (∀ ref : OpRef, k.last = true → blkOf k.data = none → ref.dom.val = svcDom s % 4 → ref.ring.val = 65 →
            ref.idx.toNat = 2 * q.val → findOp s ref = none →
          Runs (.send q k) s fun t => Ended t ref BAD_DESCRIPTOR 0 ∧ OtherOps [ref] s t ∧ next t 1
            ∧ QpSent s t q.val [qpFrame s q.val (.roceAck q.val k.psn)])))
    ∧ (bit (regOf s SVC) 1 = true → qpState s q.val = 1 → (x.cutTs = 0 ∨ x.cutTs + 50000 ≤ s.ts) →
      Runs (.cnp q) s fun t => (qpAt t q.val).rate = max 100 (min 10000 (x.rate + 500 * ((s.ts - x.cutTs) / 50000)) / 2)
        ∧ OnlyParts [.qps] s t)
    ∧ (∀ psn, bit (regOf s SVC) 1 = true → qpState s q.val = 1 →
      (Runs (.roceAck q psn false) s fun t => qpAt t q.val = { x with answers := ansLeft s q.val psn x.answers } ∧ OnlyParts [.qps] s t)
      ∧ (QpServes s q.val → Runs (.roceAck q psn true) s fun t =>
        t.outs.tx = s.outs.tx ++ (ansLeft s q.val (psn - 1) x.answers).map (fun a => qpFrame s q.val (.roceSend q.val a.psn a.body))
        ∧ (qpAt t q.val).answers.length = (ansLeft s q.val (psn - 1) x.answers).length ∧ OnlyParts [.outs, .qps] s t))
    ∧ (∀ a l, x.answers = a :: l → qpState s q.val = 1 → a.since + 4096 * 2 ^ fld (regOf s (qpW q.val 3)) 27 5 ≤ s.ts →
      (a.tries < fld (regOf s (qpW q.val 3)) 24 3 → QpServes s q.val → Runs (.answerRetransmit q) s fun t =>
        t.outs.tx = s.outs.tx ++ x.answers.map (fun a => qpFrame s q.val (.roceSend q.val a.psn a.body))
        ∧ (qpAt t q.val).answers = x.answers.map (fun y => { y with tries := y.tries + 1, since := s.ts })
        ∧ OnlyParts [.outs, .qps] s t)
      ∧ (fld (regOf s (qpW q.val 3)) 24 3 ≤ a.tries → Runs (.answerRetransmit q) s fun t => qpState t q.val = 2
        ∧ (qpAt t q.val).answers = [] ∧ regOf t (SVC + 0x2C) = (regOf s (SVC + 0x2C) + 1) % 2 ^ 32))
    ∧ ∀ v : Word, s.hosts.present.getLsbD 0 = true →
      Runs (.qpContextApply 0 q v) s fun t => fld (regOf t (qpW q.val 0)) 0 13 = fld v.toNat 0 13
        ∧ qpState t q.val = fld v.toNat 0 1 ∧ bit (regOf t (qpW q.val 0)) 15 = bit v.toNat 15
        ∧ qpAt t q.val = qpZero ∧ RegsBut [qpW q.val 0] s t
        ∧ (∀ y ∈ t.reqs, ∀ psn, y.kind ≠ .roce q.val psn)

/-! ### Configuration transactions, the calibre image and registers -/

/-- Table 16.6 (R298): the commands of CLB_TXN and the idle time, in every state of a transaction; a commit that fails a check rolls
back with its FAIL records (R301). RWL_WRITE (R298, R297, R7): in an open transaction the steward's write reaches the shadow of the
register's RWL fields and of no other register; in every other state it is discarded with one DISCARD record for each of them; of
another domain it does nothing. RW fields of the same register take their values at once. -/
def Obligations.TransactionsFollowTheirTable : Prop :=
  (∀ s : State, Inv s → Steward s →
    let vec := fld (regOf s CLB_TXN_CFG) 16 8
    let bad := (staticFails s (candidate s)).length
    (s.clb.st = .idle →
      (Runs (.txnBegin 0) s fun t => t.clb = { s.clb with
            st := .open, id := if s.clb.id = 0xFFFF then 1 else s.clb.id + 1, since := s.ts, img := none, last := BitVec.ofNat 8 OK }
          ∧ t.shadow = [] ∧ OnlyParts [.shadow, .clb] s t)
      ∧ ∀ c ∈ [Instr.txnCommit 0, .txnAbort 0],
        Runs c s fun t => t.clb = { s.clb with last := BitVec.ofNat 8 BAD_DESCRIPTOR } ∧ Signalled s t 0 vec ∧ OnlyParts [.outs, .clb] s t)
    ∧ (s.clb.st = .open →
      (Runs (.txnBegin 0) s fun t => t.clb = { s.clb with since := s.ts, last := BitVec.ofNat 8 REFUSED_FULL } ∧ OnlyParts [.clb] s t)
      ∧ (Runs (.txnAbort 0) s fun t => t.clb = { s.clb with st := .idle, img := none, last := BitVec.ofNat 8 ABORTED }
          ∧ t.shadow = [] ∧ Signalled s t 0 vec ∧ OnlyParts [.shadow, .outs, .clb] s t)
      ∧ (s.clb.since + 1000000 * fld (regOf s CLB_TXN_CFG) 0 16 ≤ s.ts →
        Runs .txnIdleTimeout s fun t => t.clb = { s.clb with st := .idle, img := none, last := BitVec.ofNat 8 ABORTED }
          ∧ t.shadow = [] ∧ OnlyParts [.shadow, .clb] s t)
      ∧ (bad = 0 → Runs (.txnCommit 0) s fun t => t.clb = { s.clb with st := .quiescing } ∧ OnlyParts [.clb] s t)
      ∧ (0 < bad → s.clb.img = none →
        Runs (.txnCommit 0) s fun t => t.clb.st = .idle ∧ t.clb.last = BitVec.ofNat 8 BAD_DESCRIPTOR ∧ t.shadow = []
          ∧ (sub32 (regOf s CLB_LOG_PROD) (regOf s CLB_LOG_CONS) + bad ≤ 512 →
              regOf t CLB_LOG_PROD = (regOf s CLB_LOG_PROD + bad) % 2 ^ 32 ∧ regOf t CLB_LOG_LOST = regOf s CLB_LOG_LOST)
          ∧ Signalled s t 0 vec ∧ RegsBut [CLB_LOG_PROD, CLB_LOG_LOST] s t ∧ OnlyParts [.regs, .shadow, .outs, .clb] s t))
    ∧ (s.clb.st ∈ [TxnSt.checking, .quiescing, .image] →
      (Runs (.txnBegin 0) s fun t => t.clb = { s.clb with last := BitVec.ofNat 8 REFUSED_FULL } ∧ OnlyParts [.clb] s t)
      ∧ ∀ c ∈ [Instr.txnCommit 0, .txnAbort 0],
        Runs c s fun t => t.clb = { s.clb with last := BitVec.ofNat 8 REFUSED_FULL } ∧ Signalled s t 0 vec ∧ OnlyParts [.outs, .clb] s t))
  ∧ (∀ (s : State) (a : BitVec 26) (v : Word) (r : RegInfo), Inv s → mapOrd none s.shadow = true →
    regInfo a.toNat = some r → r.mark = .shared → rwlFlds a.toNat ≠ [] →
    let n := (rwlFlds a.toNat).length
    (Steward s → s.clb.st = .open →
      Runs (.rwlWrite 0 a v) s fun t => shadowOf t a.toNat = mergeFlds (rwlFlds a.toNat) (shadowOf s a.toNat) v.toNat % 2 ^ 32
        ∧ (∀ b, b ≠ a.toNat → mapGet t.shadow b = mapGet s.shadow b)
        ∧ regOf t a.toNat = rwMerge r (regOf s a.toNat) v.toNat % 2 ^ 32
        ∧ RegsBut [a.toNat, CLB_LOG_PROD, CLB_LOG_LOST] s t ∧ OnlyParts [.regs, .shadow, .clb] s t)
    ∧ (Steward s → s.clb.st ≠ .open →
      Runs (.rwlWrite 0 a v) s fun t => regOf t a.toNat = rwMerge r (regOf s a.toNat) v.toNat % 2 ^ 32
        ∧ (rwFlds r = [] → sub32 (regOf s CLB_LOG_PROD) (regOf s CLB_LOG_CONS) + n ≤ 512 →
            regOf t CLB_LOG_PROD = (regOf s CLB_LOG_PROD + n) % 2 ^ 32 ∧ regOf t CLB_LOG_LOST = regOf s CLB_LOG_LOST)
        ∧ RegsBut [a.toNat, CLB_LOG_PROD, CLB_LOG_LOST] s t ∧ OnlyParts [.regs, .clb] s t)
    ∧ ∀ d : Fin 4, d ≠ 0 → exec (.rwlWrite d a v) s = .next s)

/-- QUIET_POINT (R300, R301): a commit of registers without further effects, whose state-dependent checks pass, sets every one of
them to its pending value after clamping and ends OK or OK_CLAMPED; one whose checks fail leaves every active value as it was. -/
def Obligations.QuietPointAppliesTheCommit : Prop :=
  ∀ s : State, Inv s → s.clb.st = .quiescing → s.clb.img = none → s.hosts.phaseReq = 0 → (∀ o ∈ s.ops, o.phase ≠ .waitCap) →
    (∀ x ∈ s.shadow, rwlFlds x.1 ≠ []) →
    let vec := fld (regOf s CLB_TXN_CFG) 16 8
    (quietFails s (candidate s) = [] → (∀ a ∈ txnAddrs s, plainReg a = true) →
      Runs .quietPoint s fun t => (∀ a ∈ txnAddrs s, regOf t a = clamped s a % 2 ^ 32)
        ∧ RegsBut (CLB_LOG_PROD :: CLB_LOG_LOST :: (RTE + 8) :: txnAddrs s) s t
        ∧ t.clb.st = .idle ∧ t.clb.last = BitVec.ofNat 8 (if clampsOf s = [] then OK else OK_CLAMPED) ∧ t.shadow = []
        ∧ Signalled s t 0 vec ∧ OnlyParts [.regs, .shadow, .outs, .schDue, .clb, .crown] s t)
    ∧ (quietFails s (candidate s) ≠ [] →
      Runs .quietPoint s fun t => t.clb.st = .idle ∧ t.clb.last = BitVec.ofNat 8 BAD_DESCRIPTOR ∧ t.shadow = []
        ∧ Signalled s t 0 vec ∧ RegsBut [CLB_LOG_PROD, CLB_LOG_LOST] s t ∧ OnlyParts [.regs, .shadow, .outs, .clb] s t)

/-- CLB_IMG_GO (R291 to R293, R334, R336): a load of the steward's reads its source, here host memory or in one request another
chip, and ends with the first check of Table 16.3 that fails; with a transaction open or a load running it is REFUSED_FULL, without
Crown it waits or is REFUSED_FULL. CALIBRE_LOAD (R291 to R293, R310, R311): at stage 5 of a bring-up an image that passes every
check is committed: the identity and IMAGE_ID are its own, the registers its records name hold their values, and stage 6 begins; one
that fails a check leaves the chip in WAIT_IMAGE with a fault record. -/
def Obligations.ImagesAreCheckedAndApplied : Prop :=
  (∀ (s : State) (v : Word), Inv s → Steward s →
    let n := imgBytes s
    let vec := fld (regOf s CLB_TXN_CFG) 16 8
    (bit v.toNat 0 = false → exec (.clbImgGo 0 v) s = .next s)
    ∧ (bit v.toNat 0 = true → (s.clb.st ≠ .idle ∨ bit (regOf s CLB_IMG_STATUS) 0 = true) →
      Runs (.clbImgGo 0 v) s fun t =>
        regOf t CLB_IMG_STATUS = regOf s CLB_IMG_STATUS % 2 + 14 + 256 * REFUSED_FULL ∧ RegsBut [CLB_IMG_STATUS] s t
        ∧ t.clb = { s.clb with last := BitVec.ofNat 8 REFUSED_FULL } ∧ Signalled s t 0 vec ∧ OnlyParts [.regs, .outs, .clb] s t)
    ∧ (bit v.toNat 0 = true → s.clb.st = .idle → bit (regOf s CLB_IMG_STATUS) 0 = false → s.reqs.any (imageReq false) = false →
      (crownState s = 2 → Runs (.clbImgGo 0 v) s fun t => regOf t CLB_IMG_STATUS = 1 ∧ RegsBut [CLB_IMG_STATUS] s t ∧ OnlyParts [.regs] s t)
      ∧ (crownState s = 3 → Runs (.clbImgGo 0 v) s fun t => regOf t CLB_IMG_STATUS = 256 * REFUSED_FULL ∧ RegsBut [CLB_IMG_STATUS] s t
          ∧ t.clb = { s.clb with last := BitVec.ofNat 8 REFUSED_FULL, buf := [] } ∧ Signalled s t 0 vec ∧ OnlyParts [.regs, .outs, .clb] s t)
      ∧ (crownState s = 1 → s.clb.buf = [] →
        (∀ e k i, bit (regOf s (CLB + 0x10)) 0 = true → imgChecks s n (hostRead s none 0 (imgSrc s) n) = some (e, k, i) →
          Runs (.clbImgGo 0 v) s fun t => regOf t CLB_IMG_STATUS = 2 * k + 256 * e + 65536 * i ∧ RegsBut [CLB_IMG_STATUS] s t
            ∧ t.clb = { s.clb with last := BitVec.ofNat 8 e } ∧ Signalled s t 0 vec ∧ OnlyParts [.regs, .outs, .clb] s t)
        ∧ (∀ c a, bit (regOf s (CLB + 0x10)) 0 = false → imgPlace s (imgSrc s) n = .far c a → 0 < n → n ≤ 4096 →
            pathLost s (myCoord s) c = false →
          Runs (.clbImgGo 0 v) s fun t => regOf t CLB_IMG_STATUS = 1 ∧ RegsBut [CLB_IMG_STATUS] s t
            ∧ SlotTaken s t none none (.image false 0) 0x11 a n (.raw (leBytes 8 a)) ∧ OnlyParts [.regs, .reqs, .outs, .rte] s t))))
  ∧ (∀ (s : State) (img : List Byte), Inv s → stage s = 5 → s.clb.st = .idle → crownUp s = true →
    (imgChecks s img.length img = none → Unconfigured s → s.links = [] → s.ops = [] → s.shadow = [] →
      let u := runAct s (imgLoad img.length img false)
      u.clb.st = .quiescing → quietFails u (candidate u) = [] →
      Runs (.calibreLoad img) s fun t => stage t = 6
        ∧ regOf t GLB_COORD = leAt img 36 4 % 2 ^ 18 ∧ regOf t (GLB + 8) + 2 ^ 32 * regOf t (GLB + 12) = leAt img 24 8
        ∧ regOf t (CLB + 0x24) + 2 ^ 32 * regOf t (CLB + 0x28) = leAt img 16 8
        ∧ (∀ a ∈ txnAddrs u, plainReg a = true → regOf t a = clamped u a % 2 ^ 32)
        ∧ regOf t CLB_IMG_STATUS = 256 * (if clampsOf u = [] then OK else OK_CLAMPED)
        ∧ t.clb.st = .idle ∧ t.clb.last = BitVec.ofNat 8 (if clampsOf u = [] then OK else OK_CLAMPED) ∧ t.shadow = [])
    ∧ (∀ e k i, imgChecks s img.length img = some (e, k, i) →
      Runs (.calibreLoad img) s fun t => stage t = 8 ∧ regOf t CLB_IMG_STATUS = 2 * k + 256 * e + 65536 * i
        ∧ t.clb = { s.clb with last := BitVec.ofNat 8 e, buf := [] } ∧ Noted s t 12 0 0
        ∧ RegsBut (RST_STATUS :: CLB_IMG_STATUS :: noteRegs) s t ∧ OnlyParts [.regs, .outs, .hosts, .clb, .crown] s t))

/-- REGISTER_WRITE and BAR0_BAD_ACCESS (R5 to R8, R338, R339, R341): a write of no register, or of part of one, counts in
GLB_BAD_ACCESS; the steward's write of a shared register stores its RW fields at once, another domain's does nothing; the step index
is written in the domain's own window alone (R21), and its regulator groups are due (R161). -/
def Obligations.RegisterWritesFollowTheMap : Prop :=
  ∀ (s : State) (d : Fin 4) (a : BitVec 26) (v : Word), Inv s →
    (s.hosts.present.getLsbD d.val = true → regInfo a.toNat = none →
      Runs (.registerWrite d a v) s fun t => regOf t GLB_BAD_ACCESS = (regOf s GLB_BAD_ACCESS + 1) % 2 ^ 32
        ∧ RegsBut [GLB_BAD_ACCESS] s t ∧ OnlyParts [.regs] s t)
    ∧ (∀ r, regInfo a.toNat = some r → r.mark = .shared →
      (d ≠ 0 → exec (.registerWrite d a v) s = .next s)
      ∧ (d = 0 → Steward s → actionReg a.toNat = false → rwlFlds a.toNat = [] →
        (∀ f ∈ rwFlds r, rwStored f (fld v.toNat f.lsb f.width) = fld v.toNat f.lsb f.width) →
        Runs (.registerWrite d a v) s fun t => regOf t a.toNat = rwMerge r (regOf s a.toNat) v.toNat % 2 ^ 32
          ∧ RegsBut [a.toNat] s t ∧ OnlyParts [.regs] s t))
    ∧ (d = 0 → Steward s → a.toNat = FLT_SUMMARY →
      Runs (.registerWrite d a v) s fun t => regOf t FLT_SUMMARY = regOf s FLT_SUMMARY - (regOf s FLT_SUMMARY &&& v.toNat &&& 0xFFFE)
        ∧ RegsBut [FLT_SUMMARY] s t ∧ OnlyParts [.regs] s t)
    ∧ (∀ k : Fin 4, a.toNat = hdmW k.val 0x60 →
      (k ≠ d → exec (.registerWrite d a v) s = .next s)
      ∧ (k = d → s.hosts.present.getLsbD d.val = true →
        Runs (.registerWrite d a v) s fun t => privOf t d.val (hdmW d.val 0x60) = v.toNat ∧ PrivBut [(d.val, hdmW d.val 0x60)] s t
          ∧ t.schDue = s.schDue ||| schDueFor s d.val ∧ OnlyParts [.priv, .schDue, .lpe] s t))
    ∧ (∀ (w : Bool) (be : BitVec 4), s.hosts.present.getLsbD d.val = true →
      (badAccess s d.val a.toNat w be = true →
        Runs (.bar0BadAccess d a w be) s fun t => regOf t GLB_BAD_ACCESS = (regOf s GLB_BAD_ACCESS + 1) % 2 ^ 32
          ∧ RegsBut [GLB_BAD_ACCESS] s t ∧ OnlyParts [.regs] s t)
      ∧ (badAccess s d.val a.toNat w be = false → exec (.bar0BadAccess d a w be) s = .next s))

/-- BAR2 (R189, R190): an access inside the aperture, the capacity and the domain's quota moves its bytes at the offset the aperture
register gives; any other counts, writes nothing and reads all ones; a sector with an uncorrectable error reads all ones.
PATROL_SCRUB and SRAM_SCRUB (R184, R185, R322, R323): a pass corrects a sector with one bad symbol, and counts it for its channel;
one uncorrectable is left so, counted and logged; a pass counts. The sweep of static RAM corrects and counts a correctable word, and
counts and logs one that is not. -/
def Obligations.ApertureAndScrubsReachTheMemory : Prop :=
  (∀ (s : State) (d : Fin 4) (off : BitVec 36), Inv s → s.hosts.present.getLsbD d.val = true →
    let o := apOffset s d.val off.toNat
    (∀ n, apInside s d.val off.toNat n = true → HbmSound s →
      Runs (.bar2Read d off n) s fun t => t.outs = { s.outs with rdata := bytesAt s none (.hbm o) n } ∧ OnlyParts [.outs] s t)
    ∧ (∀ b, apInside s d.val off.toNat b.length = true → HbmSound s →
      Runs (.bar2Write d off b) s fun t => t.hbm.getN o b.length = b ∧ MemBut o b.length s.hbm t.hbm ∧ SameButTags s t
        ∧ OnlyParts [.hbm, .tbl] s t)
    ∧ (∀ n, apInside s d.val off.toNat n = true → o % 64 + n ≤ 64 → 0 < n → s.hosts.resetCh = 0 → s.hosts.offlineCh = 0 →
        secState s (o / 64) = 2 →
      let w := memW (chanOf s (o / 64 * 64) / 32) (0x200 + 4 * (chanOf s (o / 64 * 64) % 32))
      Runs (.bar2Read d off n) s fun t => t.outs = { s.outs with rdata := List.replicate n 0xFF }
        ∧ regOf t w = (regOf s w + 1) % 2 ^ 32 ∧ RegsBut [w] s t ∧ OnlyParts [.regs, .ecc, .outs] s t)
    ∧ (∀ n, apInside s d.val off.toNat n = false →
      Runs (.bar2Read d off n) s fun t => t.outs = { s.outs with rdata := List.replicate n 0xFF }
        ∧ privOf t d.val (MEM + 0x3044) = (privOf s d.val (MEM + 0x3044) + 1) % 2 ^ 32
        ∧ PrivBut [(d.val, MEM + 0x3044)] s t ∧ OnlyParts [.priv, .outs] s t)
    ∧ (∀ b, apInside s d.val off.toNat b.length = false →
      Runs (.bar2Write d off b) s fun t => privOf t d.val (MEM + 0x3044) = (privOf s d.val (MEM + 0x3044) + 1) % 2 ^ 32
        ∧ PrivBut [(d.val, MEM + 0x3044)] s t ∧ OnlyParts [.priv] s t))
  ∧ (∀ s : State, Inv s →
    (bit (regOf s (MEM + 0x3000)) 0 = true → 0 < hbmCap s →
      s.crown.passTs + 3600000000000 * fld (regOf s (MEM + 0x3004)) 0 8 ≤ s.ts → s.hosts.resetCh = 0 → s.hosts.offlineCh = 0 →
      let ce (x : Nat) : Nat := memW (chanOf s (64 * x) / 32) (0x100 + 4 * (chanOf s (64 * x) % 32))
      let ue (x : Nat) : Nat := memW (chanOf s (64 * x) / 32) (0x200 + 4 * (chanOf s (64 * x) % 32))
      (∀ x, x * 64 < hbmCap s → s.ecc = ⟨[], 0, [(x, 1)], []⟩ →
        Runs .patrolScrub s fun t => t.ecc = ⟨[], 0, [], []⟩ ∧ regOf t (ce x) = (regOf s (ce x) + 1) % 2 ^ 32
          ∧ regOf t (MEM + 0x3058) = (regOf s (MEM + 0x3058) + 1) % 2 ^ 32 ∧ t.crown.passTs = s.ts
          ∧ RegsBut [ce x, MEM + 0x3058] s t ∧ OnlyParts [.regs, .ecc, .crown] s t)
      ∧ (∀ x n, x * 64 < hbmCap s → 2 ≤ n → s.ecc = ⟨[], 0, [(x, n)], []⟩ →
        Runs .patrolScrub s fun t => secState t x = 2 ∧ regOf t (ue x) = (regOf s (ue x) + 1) % 2 ^ 32
          ∧ regOf t (MEM + 0x3050) + 2 ^ 32 * regOf t (MEM + 0x3054) = 64 * x
          ∧ regOf t (MEM + 0x3058) = (regOf s (MEM + 0x3058) + 1) % 2 ^ 32 ∧ Noted s t 2 2 (chanOf s (64 * x))
          ∧ RegsBut (ue x :: (MEM + 0x3050) :: (MEM + 0x3054) :: (MEM + 0x3058) :: noteRegs) s t
          ∧ OnlyParts [.regs, .ecc, .outs, .hosts, .crown] s t))
    ∧ (∀ x : SramErr, bit (regOf s FLT) 0 = true → s.crown.sramTs + 16000000 ≤ s.ts → s.sram = [x] → x.array < 16 →
        x.array ≠ 7 → x.array ≠ 10 →
      (x.ue = false → (regOf s (sramCeW x.array) + 1) % 2 ^ 32 % max 1 (fld (regOf s (FLT + 0xC)) 0 16) ≠ 0 →
        Runs .sramScrub s fun t => t.sram = [] ∧ regOf t (sramCeW x.array) = (regOf s (sramCeW x.array) + 1) % 2 ^ 32
          ∧ t.crown = { s.crown with sramTs := s.ts } ∧ RegsBut [sramCeW x.array] s t ∧ OnlyParts [.regs, .sram, .crown] s t)
      ∧ (x.ue = true → x.array = 6 → ∀ d, tdGet s (x.word / 8) = some d →
        Runs .sramScrub s fun t => tdGet t (x.word / 8) = some { d with bad := true } ∧ OtherTables (x.word / 8) s t ∧ t.sram = [x]
          ∧ regOf t (sramUeW 6) = (regOf s (sramUeW 6) + 1) % 2 ^ 32 ∧ Noted s t 4 5 6
          ∧ RegsBut (sramUeW 6 :: noteRegs) s t ∧ OnlyParts [.regs, .outs, .hosts, .tbl, .crown] s t)
      ∧ (x.ue = true → x.array = 5 →
        Runs .sramScrub s fun t => (escAt t (x.word / 2)).st = .faulted ∧ OtherEscs (x.word / 2) s t ∧ t.sram = [x]
          ∧ regOf t (sramUeW 5) = (regOf s (sramUeW 5) + 1) % 2 ^ 32 ∧ Noted s t 4 5 5
          ∧ RegsBut (sramUeW 5 :: noteRegs) s t ∧ OnlyParts [.regs, .outs, .hosts, .esc, .crown] s t)))

/-! ### Resets -/

/-- RST_CELL, RST_CH, RST_PORT and RESET_COMPLETE (Table 17.4, R314, R315): a cell's bench, flags, accumulators and quarantine are
cleared and the operation on it ends TARGET_RESET; every sector of a channel is poisoned; a port loses its link and trains anew;
each unit's incarnation goes on. At the end a unit serves again, and a channel that did not train stays offline. -/
def Obligations.UnitResetsClearTheirUnit : Prop :=
  ∀ (s : State) (v : Word), Inv s → Steward s →
    (Runs (.rstCell 0 v) s fun t => ∀ c, c < 32 → incOf t c = (if bit v.toNat c then (incOf s c + 1) % 256 else incOf s c)
        ∧ (bit v.toNat c = true → cellAt t c = { cellZero with resetting := true } ∧ fld (regOf t (celW c 4)) 2 1 = 0
          ∧ regOf t (celW c 0x100) = 0))
    ∧ (Runs (.rstPort 0 v) s fun t => ∀ p, p < 8 →
        incOf t (288 + p) = (if bit v.toNat p then (incOf s (288 + p) + 1) % 256 else incOf s (288 + p)))
    ∧ ((∀ c, c < 32 → (cellAt s c).holder = none) →
      Runs (.rstCell 0 v) s fun t =>
        (∀ c, c < 32 → bit v.toNat c = true → cellAt t c = { cellZero with resetting := true } ∧ fld (regOf t (celW c 4)) 2 1 = 0
          ∧ incOf t c = (incOf s c + 1) % 256 ∧ ∀ k, k < benchSize → t.bench.get (benchKey c k) = 0)
        ∧ (∀ c, c < 32 → bit v.toNat c = false → cellAt t c = cellAt s c ∧ incOf t c = incOf s c
          ∧ ∀ k, k < benchSize → t.bench.get (benchKey c k) = s.bench.get (benchKey c k))
        ∧ RegsBut (noteRegs ++ (List.range 32).flatMap fun c => [celW c 4, celW c 0x100, incAddr c]) s t
        ∧ OnlyParts [.regs, .bench, .sram, .outs, .hosts, .cells, .crown] s t)
    ∧ (∀ c r n o, c < 32 → v.toNat = 2 ^ c → (cellAt s c).holder = some (r, n) → findOp s r = some o → o.phase ≠ .decided →
      Runs (.rstCell 0 v) s fun t => Ended t r TARGET_RESET 0 ∧ Released t r ∧ OtherOps [r] s t
        ∧ cellAt t c = { cellZero with resetting := true } ∧ incOf t c = (incOf s c + 1) % 256)
    ∧ (∀ k : Fin 8,
      let down (c : Nat) : Bool := c / 32 == k.val && bit v.toNat (c % 32)
      Runs (.rstCh 0 k v) s fun t =>
        (∀ sec, secState t sec = if down (chanOf s (64 * sec)) then 2 else secState s sec)
        ∧ (∀ c, c < 256 → t.hosts.resetCh.getLsbD c = (s.hosts.resetCh.getLsbD c || down c)
          ∧ t.hosts.offlineCh.getLsbD c = (s.hosts.offlineCh.getLsbD c && !(down c))
          ∧ incOf t (32 + c) = (if down c then (incOf s (32 + c) + 1) % 256 else incOf s (32 + c)))
        ∧ RegsBut (noteRegs ++ (List.range 32).map fun i => incAddr (32 + (32 * k.val + i))) s t
        ∧ OnlyParts [.regs, .ecc, .outs, .hosts, .crown] s t)
    ∧ (∀ p : Fin 8, v.toNat % 256 = 2 ^ p.val →
      (portRole s p.val = 0 → Runs (.rstPort 0 v) s fun t => incOf t (288 + p.val) = (incOf s (288 + p.val) + 1) % 256
        ∧ RegsBut (incAddr (288 + p.val) :: noteRegs) s t ∧ OnlyParts [.regs, .outs, .hosts, .crown] s t)
      ∧ (portRole s p.val ≠ 0 → 6 ≤ stage s → stage s ≠ 8 →
        Runs (.rstPort 0 v) s fun t => incOf t (288 + p.val) = (incOf s (288 + p.val) + 1) % 256
          ∧ (∀ h, halfOk s p.val h = true → halfState t p.val h = TRAINING ∧ linkAt t p.val h = { linkFresh (linkAt s p.val h) with alignTs := s.ts })
          ∧ (portRole s p.val = 1 → portUp s p.val = true →
              (BitVec.ofNat 18 (myCoord s), BitVec.ofNat 8 (chipInc s), s.rte.fseq) ∈ t.rte.seen)))
    ∧ (∀ c : Fin 32, (cellAt s c.val).resetting = true →
      Runs (.resetComplete (.cell c)) s fun t => cellAt t c.val = { cellAt s c.val with resetting := false }
        ∧ (∀ k, k ≠ c.val → cellAt t k = cellAt s k) ∧ OnlyParts [.cells] s t)
    ∧ (∀ (c : Fin 256) (ok : Bool), s.hosts.resetCh.getLsbD c.val = true →
      Runs (.resetComplete (.channel c ok)) s fun t =>
        (∀ k, t.hosts.resetCh.getLsbD k = (s.hosts.resetCh.getLsbD k && k != c.val)
          ∧ t.hosts.offlineCh.getLsbD k = (s.hosts.offlineCh.getLsbD k || (k == c.val && !ok)))
        ∧ OnlyParts [.hosts] s t)
    ∧ (∀ c : Fin 32, (cellAt s c.val).resetting = false → exec (.resetComplete (.cell c)) s = .next s)
    ∧ (∀ (c : Fin 256) (ok : Bool), s.hosts.resetCh.getLsbD c.val = false → exec (.resetComplete (.channel c ok)) s = .next s)
    ∧ (∀ d : Fin 4, Runs (.resetComplete (.domain d)) s fun t =>
        (∀ k, t.hosts.resetDom.getLsbD k = (s.hosts.resetDom.getLsbD k && k != d.val)) ∧ OnlyParts [.hosts] s t)

/-- RST_DOMAIN, PERST and a function-level reset (Table 17.4): a domain's rings, KX ring and private registers are as after reset,
the escapements of its range are RESET, and no other domain's; its operations stop, with a TARGET_RESET record under RST_DOMAIN
alone; an open transaction ends with a reset of HD0 (Table 16.6). -/
def Obligations.DomainResetsClearTheDomain : Prop :=
  ∀ s : State, Inv s → (∀ o ∈ s.ops, o.phase ≠ .waitEsc) →
    (∀ (d : Fin 4) (v : Word), v.toNat % 16 = 2 ^ d.val → DomainQuiet s d.val →
      ∀ c ∈ [(Steward s, Instr.rstDomain 0 v), (s.hosts.present.getLsbD d.val = true, .functionLevelReset d)], c.1 →
        Runs c.2 s fun t => DomainCleared s t d.val ∧ (∀ e a, e < 4 → e ≠ d.val → a < 0x4000000 → privOf t e a = privOf s e a)
          ∧ (∀ i, escIn s d.val i = false → escAt t i = escAt s i) ∧ t.hosts.present = s.hosts.present
          ∧ RegsBut (incAddr (296 + d.val) :: noteRegs) s t
          ∧ OnlyParts [.regs, .priv, .sram, .esc, .recorded, .marks, .outs, .hosts, .crown] s t)
    ∧ (∀ p : Fin 2, DomainQuiet s (2 * p.val) → DomainQuiet s (2 * p.val + 1) →
        (∀ i, ¬(escIn s (2 * p.val) i = true ∧ escIn s (2 * p.val + 1) i = true)) →
      Runs (.perst p) s fun t => DomainCleared s t (2 * p.val) ∧ DomainCleared s t (2 * p.val + 1)
        ∧ (∀ k, k < 4 → t.hosts.present.getLsbD k = (s.hosts.present.getLsbD k && k / 2 != p.val))
        ∧ (∀ e a, e < 4 → e / 2 ≠ p.val → a < 0x4000000 → privOf t e a = privOf s e a)
        ∧ (∀ i, escIn s (2 * p.val) i = false → escIn s (2 * p.val + 1) i = false → escAt t i = escAt s i)
        ∧ RegsBut (incAddr 296 :: noteRegs) s t
        ∧ OnlyParts [.regs, .priv, .sram, .esc, .recorded, .marks, .outs, .hosts, .crown] s t)
    ∧ (∀ (d : Fin 4) (v : Word) (o : Op), v.toNat % 16 = 2 ^ d.val → s.ops = [o] → o.d = d.val → o.ref.ring.val < 64 → o.phase = .ready →
        o.code = 0 → Bare o → o.out = [] → o.cplEn = false → o.irq = false →
        (∀ g, g < 4 → grpOwner s g = d.val → groupOpen s g = false) → (d = 0 → s.clb.st ≠ .open) →
      let size := workSize s d.val o.ref.ring.val
      let place := hostKey d.val (ringBase s d.val o.ref.ring.val 2 + 32 * (o.ref.idx.toNat % size))
      (Steward s → Runs (.rstDomain 0 v) s fun t => t.ops = []
        ∧ (∃ x : Op, x.ref = o.ref ∧ x.status = BitVec.ofNat 8 TARGET_RESET ∧ t.host.getN place 32 = record x size 0 false)
        ∧ MemBut place 32 s.host t.host)
      ∧ (s.hosts.present.getLsbD d.val = true → Runs (.functionLevelReset d) s fun t => t.ops = [] ∧ t.host = s.host))
    ∧ (∀ v : Word, v.toNat % 16 = 1 → Steward s → s.clb.st = .open → (∀ o ∈ s.ops, o.d ≠ 0) →
        (∀ g, g < 4 → grpOwner s g = 0 → groupOpen s g = false) →
      Runs (.rstDomain 0 v) s fun t => t.clb = { s.clb with st := .idle, img := none, last := BitVec.ofNat 8 ABORTED } ∧ t.shadow = [])

/-- Resets of the chip (Table 17.4, R303, R315, R330, R346, R351): a warm one keeps PLL lock, the PCIe links, port alignment and
link-level retry, MEM_MAPOUT_REQ, the fault-log view and Crown's persistent store, and goes to stage 2; a cold one keeps Crown's
persistent store alone, samples the straps and goes to stage 1, or while power is low or after a trip stays in stage 0. Both advance
the chip's incarnation. -/
def Obligations.ChipResetsKeepWhatTheTableSays : Prop :=
  ∀ s : State, Inv s → s.ops = [] → (∀ g, g < 4 → groupOpen s g = false) → s.crown.mbx = none →
    (Steward s →
      Runs (.warmChipReset 0) s fun t => stage t = 2 ∧ chipInc t = (chipInc s + 1) % 256 ∧ fld (regOf t RST_STATUS) 8 8 = chipInc t
        ∧ (∀ d a, d < 4 → a < 0x4000000 → privOf t d a = resetOf a) ∧ t.shadow = [] ∧ t.esc = [] ∧ t.ops = [] ∧ t.reqs = []
        ∧ t.recorded = [] ∧ t.tbl = State.reset.tbl ∧ t.sac = State.reset.sac ∧ t.cells.st = [] ∧ t.col = State.reset.col
        ∧ t.clb = State.reset.clb ∧ (∀ a, warmKeep a = false → a ≠ FLT_SUMMARY → regOf t a = resetOf a)
        ∧ (∀ a, warmKeep a = true → ¬(RST ≤ a ∧ a < RST + 0x22C) → a ∉ [CLK, CRN + 0x14, FLT_LOG_LOST] → regOf t a = regOf s a)
        ∧ fld (regOf t CLK) 0 3 = fld (regOf s CLK) 0 3 ∧ (∀ u, u < 300 → incOf t u = (incOf s u + 1) % 256)
        ∧ t.hosts.present = s.hosts.present
        ∧ (∀ p h, (linkAt t p h).aligned = (linkAt s p h).aligned ∧ (linkAt t p h).retry = (linkAt s p h).retry
          ∧ (linkAt t p h).lseqTx = (linkAt s p h).lseqTx ∧ (linkAt t p h).lseqRx = (linkAt s p h).lseqRx)
        ∧ t.crown.log = s.crown.log ∧ t.crown.keys = s.crown.keys ∧ t.crown.fwA = s.crown.fwA ∧ t.crown.fwB = s.crown.fwB)
    ∧ (2 ≤ stage s → bit (regOf s CLK) 0 = true →
      Runs .pllUnlock s fun t => stage t = 1 ∧ chipInc t = (chipInc s + 1) % 256 ∧ fld (regOf t CLK) 0 2 = 2 ∧ alertN t = true
        ∧ t.esc = [] ∧ t.ops = [] ∧ t.reqs = [])
    ∧ (∀ c ∈ [(Instr.coldChipReset 0, 1, s.crown.log, s.crown.trip, s.crown.pwrgd),
          (.pwrgdFall, 0, s.crown.log.take (s.crown.log.length - s.crown.fresh), false, false),
          (.thermTrip, 0, s.crown.log.take (s.crown.log.length - s.crown.fresh), true, s.crown.pwrgd)],
        s.crown.pwrgd = true → (c.1 = .pwrgdFall ∨ s.crown.trip = false) → (c.1 = .coldChipReset 0 → Steward s) →
      Runs c.1 s fun t => stage t = c.2.1 ∧ chipInc t = (chipInc s + 1) % 256
        ∧ (∀ a, a ∉ [RST_STATUS, GLB + 0x10, FLT_SUMMARY] → regOf t a = resetOf a) ∧ regOf t (GLB + 0x10) = s.crown.straps.toNat
        ∧ (∀ d a, d < 4 → a < 0x4000000 → privOf t d a = resetOf a) ∧ t.shadow = [] ∧ t.esc = [] ∧ t.ops = [] ∧ t.reqs = []
        ∧ t.recorded = [] ∧ t.links = [] ∧ t.peers = [] ∧ t.qps = [] ∧ t.hosts = State.reset.hosts ∧ t.tbl = State.reset.tbl
        ∧ t.crown.log = c.2.2.1 ∧ t.crown.trip = c.2.2.2.1 ∧ t.crown.pwrgd = c.2.2.2.2 ∧ t.crown.keys = s.crown.keys
        ∧ t.crown.fwA = s.crown.fwA ∧ t.crown.fwB = s.crown.fwB ∧ t.crown.minSvn = s.crown.minSvn)
    ∧ (∀ straps : BitVec 4, s.crown.pwrgd = false →
      Runs (.pwrgdRise straps) s fun t => stage t = 1 ∧ regOf t (GLB + 0x10) = straps.toNat
        ∧ t.crown = { s.crown with pwrgd := true, straps := straps } ∧ RegsBut [GLB + 0x10, RST_STATUS] s t ∧ OnlyParts [.regs, .crown] s t)

/-! ### Bring-up and the clock -/

/-- PLL lock, PCIe links and READY of bring-up (R265, R303, R310, R311), the first STEP_MARK edge (a CLK_MARK of 0 says that none
has been latched: the model's choice, log entry 12) and RACK_REF (R306): stage 1 ends with lock, or halts with cause 1; stage 6 ends
when every port in use has settled. -/
def Obligations.BringupAndClockEvents : Prop :=
  ∀ s : State, Inv s →
    let mark := regOf s (CLK + 0x18) + 2 ^ 32 * regOf s (CLK + 0x1C)
    (stage s = 1 → Runs .pllLock s fun t => stage t = 2 ∧ fld (regOf t CLK) 0 1 = 1 ∧ RegsBut [CLK, RST_STATUS] s t ∧ OnlyParts [.regs] s t)
    ∧ (stage s = 1 → bit (regOf s CLK) 1 = false →
      Runs .pllLockTimeout s fun t => stage t = 9 ∧ fld (regOf t RST_STATUS) 4 4 = 1 ∧ alertN t = true
        ∧ RegsBut (RST_STATUS :: noteRegs) s t ∧ OnlyParts [.regs, .outs, .hosts, .crown] s t)
    ∧ (∀ d : Fin 4, 2 ≤ stage s → (d.val % 2 = 0 ∨ bit (regOf s (GLB + 0x10)) (d.val / 2) = true) →
      Runs (.pcieLinkUp d) s fun t => t.hosts = { s.hosts with present := s.hosts.present ||| BitVec.ofNat 4 (2 ^ d.val) }
        ∧ OnlyParts [.hosts] s t)
    ∧ (stage s = 6 → (List.range 8).all (portSettled s) = true → s.priv = [] →
      Runs .ready s fun t => isReady t = true ∧ RegsBut [RST_STATUS] s t ∧ OnlyParts [.regs] s t)
    ∧ (s.crown.pwrgd = true → s.ts < 2 ^ 64 → mark = 0 →
      Runs .stepMark s fun t => regOf t (CLK + 0x18) + 2 ^ 32 * regOf t (CLK + 0x1C) = s.ts
        ∧ RegsBut [CLK + 0x18, CLK + 0x1C] s t ∧ OnlyParts [.regs] s t)
    ∧ (s.crown.pwrgd = true → bit (regOf s (CLK + 0x20)) 18 = true →
      Runs .rackRefLock s fun t => regOf t CLK = putFld (regOf s CLK) 2 1 1 ∧ RegsBut [CLK] s t ∧ OnlyParts [.regs] s t)
    ∧ Runs .rackRefLoss s fun t => regOf t CLK = putFld (regOf s CLK) 2 1 0 ∧ RegsBut [CLK] s t ∧ OnlyParts [.regs] s t

/-! ### Crown -/

/-- How Crown starts and stops (R333, R334, R336): the pending slot first, else the active one; a slot that cannot run is skipped
with a record and FALLBACK; with none the chip halts with cause 2 in stage 2, and Crown is FAILED elsewhere. A restart marks every
sensor STALE and keeps its value; when Crown returns it writes a record (CODE 4). What stops Crown (R333, R336): its watchdog, and
the steward's write of CRN_CTRL.RESTART, which also stores VEC. -/
def Obligations.CrownStartsAndStops : Prop :=
  (∀ (s : State) (a b x y : Bool), Inv s → bootOrder s.crown = [x, y] → s.crown.held = [] → s.crown.mbx = none →
    bit (regOf s CLB_IMG_STATUS) 0 = false → crownState s ≠ 1 →
    let runs (z : Bool) : Bool := slotRuns s.crown a b z
    (stage s = 2 →
      (∀ z, (runs x = true ∧ z = x) ∨ (runs x = false ∧ runs y = true ∧ z = y) →
        Runs (.crownBoot a b) s fun t => crownState t = 1 ∧ fld (regOf t CRN_STATUS) 2 1 = b2n z ∧ fld (regOf t CRN_STATUS) 3 1 = 0
          ∧ fld (regOf t CRN_STATUS) 4 1 = b2n (runs x == false) ∧ stage t = 3 ∧ t.crown.active = z ∧ t.crown.pendingFw = false
          ∧ (∀ i w, s.crown.mapout[i]? = some w → i < 8 → regOf t (MEM + 0x3010 + 4 * i) = w.toNat)
          ∧ t.crown.bootTs = s.ts
          ∧ (runs x = false → ∃ r, t.crown.log.getLast? = some r ∧ r.cls = 13 ∧ r.code = 3 ∧ r.unit = b2n x))
      ∧ (runs x = false → runs y = false →
        Runs (.crownBoot a b) s fun t => stage t = 9 ∧ fld (regOf t RST_STATUS) 4 4 = 2 ∧ fld (regOf t CRN_STATUS) 4 1 = 1
          ∧ alertN t = true))
    ∧ (stage s ≠ 2 → ∀ c ∈ [(crownState s = 2, Instr.crownBoot a b), (crownState s = 3 ∧ s.crown.bootTs + 60000000000 ≤ s.ts, .bootRetry a b)],
        c.1 →
      (∀ z, (runs x = true ∧ z = x) ∨ (runs x = false ∧ runs y = true ∧ z = y) →
        Runs c.2 s fun t => crownState t = 1 ∧ fld (regOf t CRN_STATUS) 2 1 = b2n z ∧ fld (regOf t CRN_STATUS) 4 1 = b2n (runs x == false)
          ∧ stage t = stage s ∧ t.crown.active = z ∧ t.crown.pendingFw = false
          ∧ (∃ r, t.crown.log.getLast? = some r ∧ r.cls = 13 ∧ r.code = 4) ∧ OnlyParts [.regs, .outs, .hosts, .crown] s t)
      ∧ (runs x = false → runs y = false →
        Runs c.2 s fun t => crownState t = 3 ∧ stage t = stage s ∧ alertN t = true ∧ OnlyParts [.regs, .outs, .hosts, .crown] s t)))
  ∧ (∀ s : State, Inv s → s.crown.mbx = none →
    let stopped (t : State) : Prop := crownState t = 2 ∧ t.crown = { s.crown with ageing := none }
      ∧ (∀ n, n < 96 → regOf t (sensorW n) = putFld (regOf s (sensorW n)) 31 1 1)
    (crownState s = 1 → Runs .crownWatchdog s fun t => stopped t
      ∧ RegsBut (CRN_STATUS :: (List.range 96).map sensorW) s t ∧ OnlyParts [.regs, .crown] s t)
    ∧ (∀ v : Word, Steward s → crownState s ∈ [1, 3] → bit v.toNat 0 = true →
      Runs (.crownRestart 0 v) s fun t => stopped t ∧ fld (regOf t (CRN + 4)) 8 8 = fld v.toNat 8 8
        ∧ RegsBut (CRN_STATUS :: (CRN + 4) :: (List.range 96).map sensorW) s t ∧ OnlyParts [.regs, .crown] s t)
    ∧ (∀ v : Word, Steward s → bit v.toNat 0 = false →
      Runs (.crownRestart 0 v) s fun t => regOf t (CRN + 4) = putFld (regOf s (CRN + 4)) 8 8 (fld v.toNat 8 8)
        ∧ RegsBut [CRN + 4] s t ∧ OnlyParts [.regs] s t))

/-- HBM_CHANNEL_TEST (R186 to R188): each channel's RESULT and repairs, the live channels and the capacity; no sector stays
poisoned; stage 4 follows, or with no live channel HALTED with cause 3. The ageing measurement (R313, R332): setpoints are requested
from bin 0, margin 0 on; the first point that passes is chosen and stage 5 follows; a request that fails is repeated once; without a
point, or after a second failure, the chip halts with cause 4. -/
def Obligations.BringupMeasuresTheChip : Prop :=
  (∀ (s : State) (res : List ChTest), Inv s → stage s = 3 →
    let live := (List.range 256).filter fun c => (chResult s res c).1 == 0
    Runs (.hbmChannelTest res) s fun t => regOf t MEM_CAP = live.length
      ∧ (∀ k, k < 8 → regOf t (memW k 0) = ((live.filter fun c => c / 32 == k).map fun c => 2 ^ (c % 32)).sum)
      ∧ (∀ c, c < 256 → regOf t (memW (c / 32) (0x400 + 4 * (c % 32))) = (chResult s res c).1 + 256 * (chResult s res c).2)
      ∧ eccClean t = true ∧ t.hosts.resetCh = 0 ∧ t.hosts.offlineCh = 0
      ∧ stage t = (if live = [] then 9 else 4) ∧ fld (regOf t RST_STATUS) 4 4 = (if live = [] then 3 else 0)
      ∧ RegsBut (RST_STATUS :: MEM_CAP :: noteRegs ++ (List.range 8).map (memW · 0)
          ++ (List.range 256).map fun c => memW (c / 32) (0x400 + 4 * (c % 32))) s t
      ∧ OnlyParts [.regs, .hbm, .ecc, .outs, .hosts, .crown] s t)
  ∧ (∀ s : State, Inv s → crownUp s = true →
    let asks (t : State) (a : Ageing) : Prop := t.crown = { s.crown with ageing := some { a with since := s.ts } }
      ∧ t.outs = { s.outs with smb := s.outs.smb ++ [BitVec.ofNat 8 (2 * smbAddr s) :: leBytes 2 (marginMv a.m)] }
      ∧ OnlyParts [.outs, .crown] s t
    let halts (t : State) : Prop := stage t = 9 ∧ fld (regOf t RST_STATUS) 4 4 = 4 ∧ t.crown.ageing = none
      ∧ RegsBut (RST_STATUS :: noteRegs) s t ∧ OnlyParts [.regs, .outs, .hosts, .crown] s t
    (∀ pass slow, stage s = 4 → s.crown.ageing = none →
      Runs (.ageingMeasurement pass slow) s fun t => asks t ⟨0, 0, pass, slow, false, 0, false⟩)
    ∧ ∀ a : Ageing, s.crown.ageing = some a → a.byMbx = false → a.bin ≤ 2 → a.m ≤ 12 →
      (∀ mv : BitVec 16, mv.toNat ≤ marginMv a.m + 2 → marginMv a.m ≤ mv.toNat + 2 →
        (a.pass.contains (a.bin, a.m) = true → Runs (.setpointAck mv) s fun t => regOf t CLK_AGE = a.slow.toNat + 256 * a.m
          ∧ regOf t CLK = putFld (regOf s CLK) 4 2 a.bin ∧ stage t = 5 ∧ t.crown = { s.crown with ageing := none }
          ∧ RegsBut [CLK_AGE, CLK, RST_STATUS] s t ∧ OnlyParts [.regs, .crown] s t)
        ∧ (a.pass.contains (a.bin, a.m) = false → a.m < 12 → Runs (.setpointAck mv) s fun t => asks t { a with m := a.m + 1, again := false })
        ∧ (a.pass.contains (a.bin, a.m) = false → a.m = 12 → a.bin < 2 →
          Runs (.setpointAck mv) s fun t => asks t { a with bin := a.bin + 1, m := 0, again := false })
        ∧ (a.pass.contains (a.bin, a.m) = false → a.m = 12 → a.bin = 2 → Runs (.setpointAck mv) s halts))
      ∧ (∀ mv : BitVec 16, ¬(mv.toNat ≤ marginMv a.m + 2 ∧ marginMv a.m ≤ mv.toNat + 2) →
        (a.again = false → Runs (.setpointAck mv) s fun t => asks t { a with again := true })
        ∧ (a.again = true → Runs (.setpointAck mv) s halts))
      ∧ (a.since + 1000000 ≤ s.ts →
        (a.again = false → Runs .setpointTimeout s fun t => asks t { a with again := true })
        ∧ (a.again = true → Runs .setpointTimeout s halts)))

/-- Sensors and throttling (R180, R328, R329): SENSOR_READ stores every sensor, raises TJ_MAX and sets or clears the hardware floor
at 110 °C; THROTTLE_ADJUST moves the level by one, with a record as it leaves 0 or returns; a stack's temperature sets its refresh.
-/
def Obligations.ThermalControlFollowsTheSensors : Prop :=
  ∀ s : State, Inv s →
    let floored (t : State) : Prop := bit (regOf t CRN_THROTTLE) 3 = true ∧ throttleL t = max 4 (throttleL s)
    (∀ vals : List (BitVec 16), crownUp s = true → vals.length = 96 → (s.crown.sensorTs = 0 ∨ s.crown.sensorTs + 1000000 ≤ s.ts) →
      Runs (.sensorRead vals) s fun t => (∀ n v, vals[n]? = some v → regOf t (sensorW n) = v.toNat)
        ∧ fld (regOf t CRN_THROTTLE) 8 8 = max (fld (regOf s CRN_THROTTLE) 8 8) (min 255 (tjOf t / 8).toNat)
        ∧ (880 ≤ tjOf t → floored t) ∧ (tjOf t < 880 → bit (regOf t CRN_THROTTLE) 3 = false ∧ throttleL t = throttleL s)
        ∧ RegsBut (CRN_THROTTLE :: noteRegs ++ (List.range 96).map sensorW ++ (List.range 8).map (memW · 4)) s t
        ∧ OnlyParts [.regs, .outs, .hosts, .crown] s t)
    ∧ (Runs .hwForcedThrottle s fun t => floored t ∧ RegsBut (CRN_THROTTLE :: noteRegs) s t ∧ OnlyParts [.regs, .outs, .hosts, .crown] s t)
    ∧ (crownUp s = true → (s.crown.thrTs = 0 ∨ s.crown.thrTs + 1000000 ≤ s.ts) →
      let lim : Int := 8 * (fld (regOf s (CRN + 0x10)) 0 8 : Nat)
      let l := throttleL s
      let l' := if lim ≤ tjOf s then min 7 (l + 1)
        else if tjOf s < lim - 40 then max (if bit (regOf s CRN_THROTTLE) 3 then 4 else 0) (l - 1) else l
      Runs .throttleAdjust s fun t => throttleL t = l' ∧ t.crown.thrTs = max 1 s.ts
        ∧ (l = 0 → 0 < l' → ∃ r, t.crown.log.getLast? = some r ∧ r.cls = 13 ∧ r.code = 1)
        ∧ (0 < l → l' = 0 → ∃ r, t.crown.log.getLast? = some r ∧ r.cls = 13 ∧ r.code = 2)
        ∧ RegsBut (CRN_THROTTLE :: noteRegs) s t ∧ OnlyParts [.regs, .outs, .hosts, .crown] s t)
    ∧ (∀ (k : Fin 8) (temp : Byte),
      Runs (.stackTempThreshold k temp) s fun t => regOf t (memW k.val 4) = temp.toNat + (if 85 < temp.toNat then 256 else 0)
          + (if 95 < temp.toNat then 512 else 0)
        ∧ RegsBut [memW k.val 4] s t ∧ OnlyParts [.regs] s t)

/-- The SMBus commands that read (Table 19.1, R331) answer their content, here with a packet error code after it (its value is the
model's, log entry 13), and change nothing else; LOG_READ gives the record of its index while it is one of the last 4,096. The
mailbox and the log in flash (R312, R325, R335, R337): FW_STAGE of an image in host memory fills the inactive slot and ends OK with
PENDING set, or BAD_DESCRIPTOR (what the image says is a free value, log entry 6); AGE_MEASURE of a HALTED chip begins the
measurement, else BAD_DESCRIPTOR; the oldest record not in flash is written there. -/
def Obligations.BoardAndMailboxAreServed : Prop :=
  (∀ s : State, crownUp s = true →
    let answers (t : State) (l : List Byte) : Prop :=
      (∃ pec : Byte, t.outs = { s.outs with smb := s.outs.smb ++ [l ++ [pec]] }) ∧ OnlyParts [.outs] s t
    let prod := regOf s FLT_LOG_PROD
    (Runs .smbusStatus s fun t => answers t (leBytes 2 (stage s + 16 * fld (regOf s RST_STATUS) 4 4 + 256 * throttleL s
        + 2048 * fld (regOf s CRN_THROTTLE) 3 1 + 4096 * crownState s)))
    ∧ (Runs .smbusTj s fun t => answers t (leBytes 2 (BitVec.ofInt 16 (tjOf s)).toNat))
    ∧ (∀ n : Byte, n.toNat < 96 → Runs (.smbusSensor n) s fun t => answers t (leBytes 2 (fld (regOf s (sensorW n.toNat)) 0 16)))
    ∧ (Runs .logProd s fun t => answers t (4 :: leBytes 4 prod))
    ∧ (∀ i : Word, (prod ≤ i.toNat ∨ i.toNat + 4096 ≤ prod) → Runs (.logRead i) s fun t => answers t (32 :: List.replicate 32 0))
    ∧ (∀ (i : Word) (r : FltRec), i.toNat < prod → prod < i.toNat + 4096 → prod < 2 ^ 32 → s.crown.log.find? (fun x => x.seq == i) = some r →
      Runs (.logRead i) s fun t => answers t (32 :: fltBytes r)))
  ∧ (∀ s : State, Inv s → crownUp s = true →
    let seq := fld (regOf s CRN_MBX_STATUS) 16 16
    let ready (cmd : Nat) : Prop := s.crown.mbx = some (cmd, false)
      ∨ (s.crown.mbx = none ∧ Steward s ∧ bit (regOf s CRN_MBX_STATUS) 0 = false)
    let ended (t : State) (status : Nat) : Prop := regOf t CRN_MBX_STATUS = 256 * status + 65536 * ((seq + 1) % 65536)
      ∧ t.crown.mbx = none ∧ Signalled s t 0 (fld (regOf s (CRN + 4)) 8 8)
    let src := regOf s (CRN + 0x24) / 64 * 64 + 2 ^ 32 * regOf s (CRN + 0x28)
    let n := regOf s (CRN + 0x2C)
    (ready 1 → s.reqs.any (imageReq true) = false →
      (4194304 < n → Runs (.fwStage 0) s fun t => ended t BAD_DESCRIPTOR ∧ t.crown.fwA = s.crown.fwA ∧ t.crown.fwB = s.crown.fwB
        ∧ t.crown.pendingFw = s.crown.pendingFw ∧ RegsBut [CRN_MBX_STATUS] s t ∧ OnlyParts [.regs, .outs, .crown] s t)
      ∧ (n ≤ 4194304 → bit (regOf s (CRN + 0x24)) 0 = true →
        let p := Config.freeFwParse (hostRead s none 0 src n)
        let slot : FwSlot := ⟨BitVec.ofNat 16 p.1, BitVec.ofNat 8 p.2.1, p.2.2⟩
        let good := p.2.2 && decide (s.crown.minSvn.toNat ≤ p.2.1 % 256)
        Runs (.fwStage 0) s fun t => ended t (if good then OK else BAD_DESCRIPTOR) ∧ t.crown.pendingFw = good
          ∧ (if s.crown.active then t.crown.fwA = slot ∧ t.crown.fwB = s.crown.fwB else t.crown.fwB = slot ∧ t.crown.fwA = s.crown.fwA)
          ∧ t.crown.active = s.crown.active ∧ fld (regOf t CRN_STATUS) 3 1 = b2n good
          ∧ RegsBut [CRN_MBX_STATUS, CRN_STATUS, CRN + 8, CRN + 12] s t ∧ OnlyParts [.regs, .outs, .crown] s t))
    ∧ (∀ pass slow, stage s = 9 → ready 2 → s.crown.ageing = none →
      Runs (.ageMeasure 0 pass slow) s fun t => t.crown = { s.crown with mbx := some (2, false), ageing := some ⟨0, 0, pass, slow, false, s.ts, true⟩ }
        ∧ t.outs = { s.outs with smb := s.outs.smb ++ [BitVec.ofNat 8 (2 * smbAddr s) :: leBytes 2 750] }
        ∧ (s.crown.mbx = none → bit (regOf t CRN_MBX_STATUS) 0 = true) ∧ RegsBut [CRN_MBX_STATUS] s t ∧ OnlyParts [.regs, .outs, .crown] s t)
    ∧ (∀ pass slow, stage s ≠ 9 → s.crown.mbx = none → Steward s → bit (regOf s CRN_MBX_STATUS) 0 = false →
      Runs (.ageMeasure 0 pass slow) s fun t => ended t BAD_DESCRIPTOR ∧ RegsBut [CRN_MBX_STATUS] s t ∧ OnlyParts [.regs, .outs, .crown] s t)
    ∧ Runs .faultLogFlashWrite s fun t => t.crown = { s.crown with fresh := s.crown.fresh - 1 } ∧ OnlyParts [.crown] s t)

/-! ### Rules stated whole -/

/-- R309: with PWRGD high (R348), an edge at least 1 µs after the latched one latches TS into CLK_MARK; one that comes earlier is
ignored and counted in CLK_MARK_SKIP. The event is an edge held high for at least 50 ns. -/
def Obligations.StepMarkLatchesTheTime : Prop :=
  ∀ s : State, s.crown.pwrgd = true → s.ts < 2 ^ 64 → Inv s →
    let mark := regOf s (CLK + 0x18) + 2 ^ 32 * regOf s (CLK + 0x1C)
    0 < mark →
    (mark + 1000 ≤ s.ts →
      Runs .stepMark s fun t => regOf t (CLK + 0x18) + 2 ^ 32 * regOf t (CLK + 0x1C) = s.ts
        ∧ RegsBut [CLK + 0x18, CLK + 0x1C] s t ∧ OnlyParts [.regs] s t)
    ∧ (s.ts < mark + 1000 →
      Runs .stepMark s fun t => regOf t (CLK + 0x28) = (regOf s (CLK + 0x28) + 1) % 2 ^ 32
        ∧ RegsBut [CLK + 0x28] s t ∧ OnlyParts [.regs] s t)

/-- R7: of another domain than HD0 a write of a shared register, by whatever command, changes nothing at all, and the register reads
as it does for HD0. -/
def Obligations.SharedRegistersBelongToTheSteward : Prop :=
  ∀ (s : State) (d : Fin 4) (a : BitVec 26) (v : Word) (r : RegInfo), d ≠ 0 → regInfo a.toNat = some r → r.mark = .shared →
    (∀ c ∈ [Instr.registerWrite d a v, .rwlWrite d a v, .txnBegin d, .txnCommit d, .txnAbort d, .clbImgGo d v, .rteFaultClear d v,
        .rstCell d v, .rstPort d v, .rstDomain d v, .warmChipReset d, .coldChipReset d, .crownRestart d v],
      exec c s = .next s)
    ∧ (∀ q : Fin 4096, exec (.qpContextApply d q v) s = .next s) ∧ (∀ k : Fin 8, exec (.rstCh d k v) s = .next s)
    ∧ normalRead s d.val a.toNat = normalRead s 0 a.toNat

/-- R125 and R126, of one element of an instruction on integers of n bits: the exact result of add, subtract, multiply and absolute
value, saturated with the SAT flag or wrapped without; a shift by n or more, a rotate modulo n, by bits [7:0] of the amount, without
flags. -/
def Obligations.IntegerElementsFollowTheirRules : Prop :=
  ∀ (x : VecInstr) (ca cb cc : Nat), FmtOf.isInt x.fmt = true →
    let n := FmtOf.bits x.fmt
    let i := sInt n ca
    let j := sInt n cb
    let lo : Int := -(2 ^ (n - 1))
    let hi : Int := 2 ^ (n - 1) - 1
    let res := elemRes x ca cb cc
    (∀ e ∈ [(VOp.iadd, i + j), (.isub, i - j), (.imul, i * j), (.iabs, (i.natAbs : Int))], x.op = e.1 →
      (x.sat = true → lo ≤ e.2 → e.2 ≤ hi → sInt n res.1 = e.2 ∧ res.2 = VFlags.none)
      ∧ (x.sat = true → hi < e.2 → sInt n res.1 = hi ∧ res.2 = { VFlags.none with sat := true })
      ∧ (x.sat = true → e.2 < lo → sInt n res.1 = lo ∧ res.2 = { VFlags.none with sat := true })
      ∧ (x.sat = false → BitVec.ofNat n res.1 = BitVec.ofInt n e.2 ∧ res.2 = VFlags.none))
    ∧ ∀ amt : Nat, (∀ w, x.amount = some w → amt = w.toNat) → (x.amount = none → amt = cb % 256) →
      let c := BitVec.ofNat n ca
      let r := BitVec.ofNat n res.1
      (vKind x.op = .shift → res.2 = VFlags.none)
      ∧ (x.op = .shl → r = if n ≤ amt then 0 else c <<< amt)
      ∧ (x.op = .shr → r = if n ≤ amt then 0 else c >>> amt)
      ∧ (x.op = .sar → r = if n ≤ amt then (if c.msb then BitVec.allOnes n else 0) else c.sshiftRight amt)
      ∧ (x.op = .rotl → r = c.rotateLeft (amt % n)) ∧ (x.op = .rotr → r = c.rotateRight (amt % n))

end
end

