-- ==== Sys2Proof/Laws/Act.lean ====
section
/-! SUPPORT. What an action does: how it is evaluated, that it reaches its state by effects alone, and which parts of the
state its effects touch. Every later law cites these and opens no action. -/

namespace Sys2Proof.Laws

open Machine

variable {s₀ : State} {α β : Type}

/-! ### Evaluation: an action is run from its first effect on -/

@[simp] theorem act_pure (x : α) (p : {s : State // Reach s₀ s}) : (pure x : Act s₀ α) p = (x, p) := rfl

@[simp] theorem act_st (p : {s : State // Reach s₀ s}) : (st : Act s₀ State) p = (p.val, p) := rfl

@[simp] theorem act_skip (p : {s : State // Reach s₀ s}) : (skip : Act s₀ Unit) p = ((), p) := rfl

@[simp] theorem act_emit (e : Eff) (p : {s : State // Reach s₀ s}) :
    (emit e : Act s₀ Unit) p = ((), ⟨e.apply p.val, p.property.step e⟩) := rfl

theorem act_bind (a : Act s₀ α) (f : α → Act s₀ β) (p : {s : State // Reach s₀ s}) :
    (a >>= f) p = f (a p).1 (a p).2 := rfl

@[simp] theorem act_bind_assoc {γ : Type} (a : Act s₀ α) (f : α → Act s₀ β) (g : β → Act s₀ γ) :
    (a >>= f) >>= g = a >>= fun x => f x >>= g := rfl

@[simp] theorem act_st_bind (f : State → Act s₀ β) (p : {s : State // Reach s₀ s}) : (st >>= f) p = f p.val p := rfl

@[simp] theorem act_emit_bind (e : Eff) (f : Unit → Act s₀ β) (p : {s : State // Reach s₀ s}) :
    (emit e >>= f) p = f () ⟨e.apply p.val, p.property.step e⟩ := rfl

@[simp] theorem act_pure_bind (x : α) (f : α → Act s₀ β) : (pure x : Act s₀ α) >>= f = f x := rfl

@[simp] theorem act_skip_bind (f : Unit → Act s₀ β) : (skip : Act s₀ Unit) >>= f = f () := rfl

@[simp] theorem act_ite_bind (c : Prop) [Decidable c] (a b : Act s₀ α) (f : α → Act s₀ β) :
    (if c then a else b) >>= f = if c then a >>= f else b >>= f := by split <;> rfl

@[simp] theorem act_ite (c : Prop) [Decidable c] (a b : Act s₀ α) (p : {s : State // Reach s₀ s}) :
    (if c then a else b) p = if c then a p else b p := by split <;> rfl

theorem perform_next (s : State) (a : Act s Unit) : perform s a = .next (runAct s a) := rfl

/-! ### The parts an effect touches -/

/-- The part an effect changes; none for the count of free values. -/
def partOf : Eff → Option Part
  | .ts _ => some .time
  | .nonce => none
  | .reg _ _ | .regsKeep _ => some .regs
  | .priv _ _ _ | .privKeep _ => some .priv
  | .shadow _ _ | .shadowClear => some .shadow
  | .mem .hbm _ => some .hbm
  | .mem .bench _ => some .bench
  | .mem .well _ => some .well
  | .mem .host _ => some .host
  | .mem .vreg _ | .rnd _ => some .vreg
  | .ecc _ => some .ecc
  | .sram _ => some .sram
  | .esc _ _ | .escClear => some .esc
  | .ops _ => some .ops
  | .recorded _ => some .recorded
  | .marks _ => some .marks
  | .reqs _ => some .reqs
  | .outs _ => some .outs
  | .hosts _ => some .hosts
  | .tbl _ => some .tbl
  | .sac _ => some .sac
  | .cells _ _ => some .cells
  | .stash _ => some .stash
  | .schDue _ => some .schDue
  | .lpe _ => some .lpe
  | .col _ => some .col
  | .rte _ => some .rte
  | .links _ => some .links
  | .peers _ => some .peers
  | .qps _ => some .qps
  | .clb _ => some .clb
  | .crown _ => some .crown

/-- An effect touches only the listed parts. -/
def within (ks : List Part) (e : Eff) : Bool :=
  match partOf e with
  | none => true
  | some k => ks.contains k

/-- Every listed part of the first list is in the second. -/
def subParts (js ks : List Part) : Bool := js.all ks.contains

theorem same_refl (k : Part) (s : State) : Same k s s := by cases k <;> simp [Same]

theorem same_trans {k : Part} {s t u : State} (h : Same k s t) (h' : Same k t u) : Same k s u := by
  cases k <;> simp_all [Same]

/-- An effect changes its own part and no other. -/
theorem apply_same (e : Eff) (k : Part) (s : State) (h : partOf e ≠ some k) : Same k s (e.apply s) := by
  cases e with
  | mem m o => cases m <;> cases k <;> first | rfl | exact ⟨rfl, rfl⟩ | exact absurd rfl h
  | _ => cases k <;> first | rfl | exact ⟨rfl, rfl⟩ | exact absurd rfl h

theorem apply_pending (e : Eff) (s : State) : (e.apply s).pending = s.pending := by
  cases e with
  | mem m o => cases m <;> rfl
  | _ => rfl

theorem reach_pending {s t : State} (h : Reach s t) : t.pending = s.pending := by
  induction h with
  | refl => rfl
  | step e _ ih => rw [apply_pending, ih]

/-- What an action reaches keeps every property of states that each effect keeps. -/
theorem reach_keeps (Q : State → Prop) (hQ : ∀ (e : Eff) s, Q s → Q (e.apply s)) {s t : State} (h : Reach s t) (hs : Q s) : Q t := by
  induction h with
  | refl => exact hs
  | step e _ ih => exact hQ e _ ih

/-- The action's effects touch only the listed parts, wherever it is run from. -/
structure Only (ks : List Part) (a : Act s₀ α) : Prop where
  same : ∀ p k, k ∉ ks → Same k p.val (a p).2.val

variable {ks js : List Part}

theorem subParts_mem {k : Part} (hs : subParts js ks = true) (h : k ∈ js) : k ∈ ks := by
  simpa using List.all_eq_true.mp hs k h

theorem subParts_trans {is : List Part} (h : subParts is js = true) (hs : subParts js ks = true) : subParts is ks = true :=
  List.all_eq_true.mpr fun k hk => by simpa using subParts_mem hs (subParts_mem h hk)

theorem within_nonce : within ks .nonce = true := rfl

theorem within_mono {e : Eff} (h : within js e = true) (hs : subParts js ks = true) : within ks e = true := by
  unfold within at *
  split <;> simp_all
  exact subParts_mem hs h

theorem Only.mono {a : Act s₀ α} (h : Only js a) (hs : subParts js ks = true) : Only ks a :=
  ⟨fun p k hk => h.same p k fun hj => hk (subParts_mem hs hj)⟩

theorem only_pure (x : α) : Only ks (pure x : Act s₀ α) := ⟨fun p k _ => same_refl k p.val⟩
theorem only_skip : Only ks (skip : Act s₀ Unit) := ⟨fun p k _ => same_refl k p.val⟩
theorem only_st : Only ks (st : Act s₀ State) := ⟨fun p k _ => same_refl k p.val⟩

theorem only_emit {e : Eff} (h : within ks e = true) : Only ks (emit e : Act s₀ Unit) := by
  refine ⟨fun p k hk => apply_same e k p.val fun he => hk ?_⟩
  simp only [within, he] at h
  simpa using h

theorem only_bind {a : Act s₀ α} {f : α → Act s₀ β} (ha : Only ks a) (hf : ∀ x, Only ks (f x)) : Only ks (a >>= f) :=
  ⟨fun p k hk => same_trans (ha.same p k hk) ((hf (a p).1).same (a p).2 k hk)⟩

theorem only_ite {c : Prop} [Decidable c] {a b : Act s₀ α} (ha : Only ks a) (hb : Only ks b) :
    Only ks (if c then a else b) := by
  split
  · exact ha
  · exact hb

theorem only_each {l : List α} {f : α → Act s₀ Unit} (hf : ∀ x, Only ks (f x)) : Only ks (each l f) := by
  induction l with
  | nil => exact only_skip
  | cons x xs ih => exact only_bind (hf x) fun _ => ih

theorem only_firstA {l : List α} {f : α → Act s₀ (Option β)} (hf : ∀ x, Only ks (f x)) : Only ks (firstA l f) := by
  induction l with
  | nil => exact only_pure _
  | cons x xs ih =>
    refine only_bind (hf x) fun y => ?_
    cases y with
    | some b => exact only_pure _
    | none => exact ih

theorem only_mapA {l : List α} {f : α → Act s₀ β} (hf : ∀ x, Only ks (f x)) : Only ks (mapA l f) := by
  induction l with
  | nil => exact only_pure _
  | cons x xs ih => exact only_bind (hf x) fun _ => only_bind ih fun _ => only_pure _

theorem only_foldA {l : List α} {b : β} {f : β → α → Act s₀ β} (hf : ∀ b x, Only ks (f b x)) : Only ks (foldA l b f) := by
  induction l generalizing b with
  | nil => exact only_pure _
  | cons x xs ih => exact only_bind (hf b x) fun _ => ih

/-- The same of an action that may stop with a STATUS. -/
structure OnlyT (ks : List Part) (a : Try s₀ α) : Prop where
  run : Only ks a.run

theorem onlyT_run {a : Try s₀ α} (h : OnlyT ks a) : Only ks a.run := h.run

theorem OnlyT.mono {a : Try s₀ α} (h : OnlyT js a) (hs : subParts js ks = true) : OnlyT ks a := ⟨h.run.mono hs⟩

theorem onlyT_pure (x : α) : OnlyT ks (pure x : Try s₀ α) := ⟨only_pure _⟩
theorem onlyT_stop (e : Nat) : OnlyT ks (stop e : Try s₀ α) := ⟨only_pure _⟩
theorem onlyT_attempt {a : Act s₀ (Except Nat α)} (h : Only ks a) : OnlyT ks (attempt a) := ⟨h⟩

theorem onlyT_lift {a : Act s₀ α} (h : Only ks a) : OnlyT ks (liftM a : Try s₀ α) :=
  ⟨only_bind h fun _ => only_pure _⟩

theorem onlyT_bind {a : Try s₀ α} {f : α → Try s₀ β} (ha : OnlyT ks a) (hf : ∀ x, OnlyT ks (f x)) : OnlyT ks (a >>= f) := by
  refine ⟨?_⟩
  show Only ks (a.run >>= fun y => ExceptT.bindCont f y)
  refine only_bind ha.run fun y => ?_
  cases y with
  | ok x => exact (hf x).run
  | error e => exact only_pure _

theorem onlyT_ite {c : Prop} [Decidable c] {a b : Try s₀ α} (ha : OnlyT ks a) (hb : OnlyT ks b) :
    OnlyT ks (if c then a else b) := by
  split
  · exact ha
  · exact hb

theorem onlyT_mapM {l : List α} {f : α → Try s₀ β} (hf : ∀ x, OnlyT ks (f x)) : OnlyT ks (l.mapM f) := by
  induction l with
  | nil => exact onlyT_pure _
  | cons x xs ih =>
    rw [List.mapM_cons]
    exact onlyT_bind (hf x) fun _ => onlyT_bind ih fun _ => onlyT_pure _

/-- A meaning touches only the parts its action does. -/
def ExecOnly (ks : List Part) (s : State) (r : Host.Outcome State Fault Refusal) : Prop :=
  ∃ t, r = .next t ∧ ∀ k, k ∉ ks → Same k s t

theorem execOnly_perform {s : State} {a : Act s Unit} (h : Only ks a) : ExecOnly ks s (perform s a) :=
  ⟨_, rfl, fun k hk => h.same ⟨s, .refl⟩ k hk⟩

end Sys2Proof.Laws
end

