-- ==== Sys2Proof/Laws/Foot/Ops.lean ====
section
/-! SUPPORT. The parts of the state that each operation of Machine/Ops.lean can touch. -/

namespace Sys2Proof.Laws

open Machine

variable {s₀ : State} {ks : List Part}

theorem only_regSet (a v : Nat) (hs : subParts [.regs] ks = true) :
    Only ks (regSet a v : Act s₀ Unit) := by
  unfold regSet
  try dsimp only
  repeat'
    first
    | with_reducible
      first
      | apply only_bind | apply only_ite | apply only_pure | apply only_st | apply only_skip | apply only_emit
    | intro _ | split | exact within_mono (by with_unfolding_all rfl) hs

theorem only_privSet (d a v : Nat) (hs : subParts [.priv] ks = true) :
    Only ks (privSet d a v : Act s₀ Unit) := by
  unfold privSet
  try dsimp only
  repeat'
    first
    | with_reducible
      first
      | apply only_bind | apply only_ite | apply only_pure | apply only_st | apply only_skip | apply only_emit
    | intro _ | split | exact within_mono (by with_unfolding_all rfl) hs

theorem only_regFld (a l w v : Nat) (hs : subParts [.regs] ks = true) :
    Only ks (regFld a l w v : Act s₀ Unit) := by
  unfold regFld
  try dsimp only
  repeat'
    first
    | with_reducible
      first
      | apply only_bind | apply only_ite | apply only_pure | apply only_st | apply only_skip | apply only_regSet
    | intro _ | split | exact subParts_trans (by decide) hs

theorem only_bump (a : Nat) (n : Nat) (hs : subParts [.regs] ks = true) :
    Only ks (bump a n : Act s₀ Unit) := by
  unfold bump
  try dsimp only
  repeat'
    first
    | with_reducible
      first
      | apply only_bind | apply only_ite | apply only_pure | apply only_st | apply only_skip | apply only_regSet
    | intro _ | split | exact subParts_trans (by decide) hs

theorem only_bump64 (a : Nat) (n : Nat) (hs : subParts [.regs] ks = true) :
    Only ks (bump64 a n : Act s₀ Unit) := by
  unfold bump64
  try dsimp only
  repeat'
    first
    | with_reducible
      first
      | apply only_bind | apply only_ite | apply only_pure | apply only_st | apply only_skip | apply only_regSet
    | intro _ | split | exact subParts_trans (by decide) hs

theorem only_privBump (d a : Nat) (n : Nat) (hs : subParts [.priv] ks = true) :
    Only ks (privBump d a n : Act s₀ Unit) := by
  unfold privBump
  try dsimp only
  repeat'
    first
    | with_reducible
      first
      | apply only_bind | apply only_ite | apply only_pure | apply only_st | apply only_skip | apply only_privSet
    | intro _ | split | exact subParts_trans (by decide) hs

theorem only_setStage (n cause : Nat) (hs : subParts [.regs] ks = true) :
    Only ks (setStage n cause : Act s₀ Unit) := by
  unfold setStage
  try dsimp only
  repeat'
    first
    | with_reducible
      first
      | apply only_bind | apply only_ite | apply only_pure | apply only_st | apply only_skip | apply only_regSet
    | intro _ | split | exact subParts_trans (by decide) hs

theorem only_incBump (u : Nat) (hs : subParts [.regs] ks = true) :
    Only ks (incBump u : Act s₀ Unit) := by
  unfold incBump
  try dsimp only
  repeat'
    first
    | with_reducible
      first
      | apply only_bind | apply only_ite | apply only_pure | apply only_st | apply only_skip | apply only_regFld
    | intro _ | split | exact subParts_trans (by decide) hs

theorem only_send (d : TxTo) (m : TxMsg) (hs : subParts [.outs] ks = true) :
    Only ks (send d m : Act s₀ Unit) := by
  unfold send
  try dsimp only
  repeat'
    first
    | with_reducible
      first
      | apply only_bind | apply only_ite | apply only_pure | apply only_st | apply only_skip | apply only_emit
    | intro _ | split | exact within_mono (by with_unfolding_all rfl) hs

theorem only_sendFrame (d : TxTo) (m : TxMsg) (e : Eth) (hs : subParts [.outs] ks = true) :
    Only ks (sendFrame d m e : Act s₀ Unit) := by
  unfold sendFrame
  try dsimp only
  repeat'
    first
    | with_reducible
      first
      | apply only_bind | apply only_ite | apply only_pure | apply only_st | apply only_skip | apply only_emit
    | intro _ | split | exact within_mono (by with_unfolding_all rfl) hs

theorem only_signal (d vec : Nat) (hs : subParts [.outs] ks = true) :
    Only ks (signal d vec : Act s₀ Unit) := by
  unfold signal
  try dsimp only
  repeat'
    first
    | with_reducible
      first
      | apply only_bind | apply only_ite | apply only_pure | apply only_st | apply only_skip | apply only_emit
    | intro _ | split | exact within_mono (by with_unfolding_all rfl) hs

theorem only_smbOut (b : List Byte) (hs : subParts [.outs] ks = true) :
    Only ks (smbOut b : Act s₀ Unit) := by
  unfold smbOut
  try dsimp only
  repeat'
    first
    | with_reducible
      first
      | apply only_bind | apply only_ite | apply only_pure | apply only_st | apply only_skip | apply only_emit
    | intro _ | split | exact within_mono (by with_unfolding_all rfl) hs

theorem only_fltSignal (cls : Nat) (hs : subParts [.outs, .hosts] ks = true) :
    Only ks (fltSignal cls : Act s₀ Unit) := by
  unfold fltSignal
  try dsimp only
  repeat'
    first
    | with_reducible
      first
      | apply only_bind | apply only_ite | apply only_pure | apply only_st | apply only_skip | apply only_each
      | apply only_emit | apply only_signal
    | intro _ | split | exact subParts_trans (by decide) hs | exact within_mono (by with_unfolding_all rfl) hs

theorem only_logFault (cls code unitKind unit status : Nat) (who : Option Who) (unitInc info : Nat) (hs : subParts [.regs, .outs, .hosts, .crown] ks = true) :
    Only ks (logFault cls code unitKind unit status who unitInc info : Act s₀ Unit) := by
  unfold logFault
  try dsimp only
  repeat'
    first
    | with_reducible
      first
      | apply only_bind | apply only_ite | apply only_pure | apply only_st | apply only_skip | apply only_emit
      | apply only_regSet | apply only_bump | apply only_smbOut | apply only_fltSignal
    | intro _ | split | exact subParts_trans (by decide) hs | exact within_mono (by with_unfolding_all rfl) hs

theorem only_secCe (sec : Nat) (hs : subParts [.regs, .ecc] ks = true) :
    Only ks (secCe sec : Act s₀ Unit) := by
  unfold secCe
  try dsimp only
  repeat'
    first
    | with_reducible
      first
      | apply only_bind | apply only_ite | apply only_pure | apply only_st | apply only_skip | apply only_emit
      | apply only_bump
    | intro _ | split | exact subParts_trans (by decide) hs | exact within_mono (by with_unfolding_all rfl) hs

theorem only_secOd (sec : Nat) (hs : subParts [.regs] ks = true) :
    Only ks (secOd sec : Act s₀ Unit) := by
  unfold secOd
  try dsimp only
  repeat'
    first
    | with_reducible
      first
      | apply only_bind | apply only_ite | apply only_pure | apply only_st | apply only_skip | apply only_bump
    | intro _ | split | exact subParts_trans (by decide) hs

theorem only_secUe (sec : Nat) (hs : subParts [.regs, .ecc] ks = true) :
    Only ks (secUe sec : Act s₀ Unit) := by
  unfold secUe
  try dsimp only
  repeat'
    first
    | with_reducible
      first
      | apply only_bind | apply only_ite | apply only_pure | apply only_st | apply only_skip | apply only_emit
      | apply only_bump
    | intro _ | split | exact subParts_trans (by decide) hs | exact within_mono (by with_unfolding_all rfl) hs

theorem only_secUeLog (sec : Nat) (who : Option Who) (hs : subParts [.regs, .outs, .hosts, .crown] ks = true) :
    Only ks (secUeLog sec who : Act s₀ Unit) := by
  unfold secUeLog
  try dsimp only
  repeat'
    first
    | with_reducible
      first
      | apply only_bind | apply only_ite | apply only_pure | apply only_st | apply only_skip | apply only_regSet
      | apply only_logFault
    | intro _ | split | exact subParts_trans (by decide) hs

theorem only_hbmTouch (off len : Nat) (who : Option Who) (hs : subParts [.regs, .ecc, .outs, .hosts, .crown] ks = true) :
    Only ks (hbmTouch off len who : Act s₀ Nat) := by
  unfold hbmTouch
  try dsimp only
  repeat'
    first
    | with_reducible
      first
      | apply only_bind | apply only_ite | apply only_pure | apply only_st | apply only_skip | apply only_each
      | apply only_secCe | apply only_secOd | apply only_secUe | apply only_secUeLog
    | intro _ | split | exact subParts_trans (by decide) hs

theorem only_hbmRead (off len : Nat) (who : Option Who) (hs : subParts [.regs, .ecc, .outs, .hosts, .crown] ks = true) :
    Only ks (hbmRead off len who : Act s₀ (Except Nat (List Byte))) := by
  unfold hbmRead
  try dsimp only
  repeat'
    first
    | with_reducible
      first
      | apply only_bind | apply only_ite | apply only_pure | apply only_st | apply only_skip | apply only_hbmTouch
    | intro _ | split | exact subParts_trans (by decide) hs

theorem only_hbmWrite (off : Nat) (b : List Byte) (who : Option Who) (hs : subParts [.regs, .hbm, .ecc, .outs, .hosts, .crown] ks = true) :
    Only ks (hbmWrite off b who : Act s₀ Nat) := by
  unfold hbmWrite
  try dsimp only
  repeat'
    first
    | with_reducible
      first
      | apply only_bind | apply only_ite | apply only_pure | apply only_st | apply only_skip | apply only_foldA
      | apply only_emit | apply only_secCe | apply only_secOd | apply only_secUe | apply only_secUeLog
    | intro _ | split | exact subParts_trans (by decide) hs | exact within_mono (by with_unfolding_all rfl) hs

theorem only_hostWrite (d a : Nat) (b : List Byte) (hs : subParts [.host] ks = true) :
    Only ks (hostWrite d a b : Act s₀ Unit) := by
  unfold hostWrite
  try dsimp only
  repeat'
    first
    | with_reducible
      first
      | apply only_bind | apply only_ite | apply only_pure | apply only_st | apply only_skip | apply only_emit
    | intro _ | split | exact within_mono (by with_unfolding_all rfl) hs

theorem only_setCell (c : Nat) (x : CellSt) (hs : subParts [.cells] ks = true) :
    Only ks (setCell c x : Act s₀ Unit) := by
  unfold setCell
  try dsimp only
  repeat'
    first
    | with_reducible
      first
      | apply only_bind | apply only_ite | apply only_pure | apply only_st | apply only_skip | apply only_emit
    | intro _ | split | exact within_mono (by with_unfolding_all rfl) hs

theorem only_locRead (l : Loc) (n : Nat) (who : Option Who) (hs : subParts [.regs, .ecc, .outs, .hosts, .crown] ks = true) :
    Only ks (locRead l n who : Act s₀ (Except Nat (List Byte))) := by
  unfold locRead
  try dsimp only
  repeat'
    first
    | with_reducible
      first
      | apply only_bind | apply only_ite | apply only_pure | apply only_st | apply only_skip | apply only_hbmRead
    | intro _ | split | exact subParts_trans (by decide) hs

theorem only_locWrite (l : Loc) (b : List Byte) (who : Option Who) (hs : subParts [.regs, .hbm, .bench, .well, .ecc, .outs, .hosts, .crown] ks = true) :
    Only ks (locWrite l b who : Act s₀ Nat) := by
  unfold locWrite
  try dsimp only
  repeat'
    first
    | with_reducible
      first
      | apply only_bind | apply only_ite | apply only_pure | apply only_st | apply only_skip | apply only_emit
      | apply only_hbmWrite
    | intro _ | split | exact subParts_trans (by decide) hs | exact within_mono (by with_unfolding_all rfl) hs

theorem only_locSmear (l : Loc) (n : Nat) (hs : subParts [.hbm, .bench, .well] ks = true) :
    Only ks (locSmear l n : Act s₀ Unit) := by
  unfold locSmear
  try dsimp only
  repeat'
    first
    | with_reducible
      first
      | apply only_bind | apply only_ite | apply only_pure | apply only_st | apply only_skip | apply only_emit
    | intro _ | split | exact within_mono (by with_unfolding_all rfl) hs

theorem only_modTbl (f : Tbl → Tbl) (hs : subParts [.tbl] ks = true) :
    Only ks (modTbl f : Act s₀ Unit) := by
  unfold modTbl
  try dsimp only
  repeat'
    first
    | with_reducible
      first
      | apply only_bind | apply only_ite | apply only_pure | apply only_st | apply only_skip | apply only_emit
    | intro _ | split | exact within_mono (by with_unfolding_all rfl) hs

theorem only_modSac (f : Sac → Sac) (hs : subParts [.sac] ks = true) :
    Only ks (modSac f : Act s₀ Unit) := by
  unfold modSac
  try dsimp only
  repeat'
    first
    | with_reducible
      first
      | apply only_bind | apply only_ite | apply only_pure | apply only_st | apply only_skip | apply only_emit
    | intro _ | split | exact within_mono (by with_unfolding_all rfl) hs

theorem only_modCol (f : Col → Col) (hs : subParts [.col] ks = true) :
    Only ks (modCol f : Act s₀ Unit) := by
  unfold modCol
  try dsimp only
  repeat'
    first
    | with_reducible
      first
      | apply only_bind | apply only_ite | apply only_pure | apply only_st | apply only_skip | apply only_emit
    | intro _ | split | exact within_mono (by with_unfolding_all rfl) hs

theorem only_modClb (f : Clb → Clb) (hs : subParts [.clb] ks = true) :
    Only ks (modClb f : Act s₀ Unit) := by
  unfold modClb
  try dsimp only
  repeat'
    first
    | with_reducible
      first
      | apply only_bind | apply only_ite | apply only_pure | apply only_st | apply only_skip | apply only_emit
    | intro _ | split | exact within_mono (by with_unfolding_all rfl) hs

theorem only_modCrown (f : Crown → Crown) (hs : subParts [.crown] ks = true) :
    Only ks (modCrown f : Act s₀ Unit) := by
  unfold modCrown
  try dsimp only
  repeat'
    first
    | with_reducible
      first
      | apply only_bind | apply only_ite | apply only_pure | apply only_st | apply only_skip | apply only_emit
    | intro _ | split | exact within_mono (by with_unfolding_all rfl) hs

theorem only_modHosts (f : Hosts → Hosts) (hs : subParts [.hosts] ks = true) :
    Only ks (modHosts f : Act s₀ Unit) := by
  unfold modHosts
  try dsimp only
  repeat'
    first
    | with_reducible
      first
      | apply only_bind | apply only_ite | apply only_pure | apply only_st | apply only_skip | apply only_emit
    | intro _ | split | exact within_mono (by with_unfolding_all rfl) hs

theorem only_modRte (f : Rte → Rte) (hs : subParts [.rte] ks = true) :
    Only ks (modRte f : Act s₀ Unit) := by
  unfold modRte
  try dsimp only
  repeat'
    first
    | with_reducible
      first
      | apply only_bind | apply only_ite | apply only_pure | apply only_st | apply only_skip | apply only_emit
    | intro _ | split | exact within_mono (by with_unfolding_all rfl) hs

theorem only_modLpe (f : Lpe → Lpe) (hs : subParts [.lpe] ks = true) :
    Only ks (modLpe f : Act s₀ Unit) := by
  unfold modLpe
  try dsimp only
  repeat'
    first
    | with_reducible
      first
      | apply only_bind | apply only_ite | apply only_pure | apply only_st | apply only_skip | apply only_emit
    | intro _ | split | exact within_mono (by with_unfolding_all rfl) hs

end Sys2Proof.Laws
end

