-- ==== Sys2Proof/Laws/Foot/Opn.lean ====
section
/-! SUPPORT. The parts of the state that each operation of Machine/Opn.lean can touch. -/

namespace Sys2Proof.Laws

open Machine

variable {s₀ : State} {ks : List Part}

theorem only_putOp (o : Op) (hs : subParts [.ops] ks = true) :
    Only ks (putOp o : Act s₀ Unit) := by
  unfold putOp
  try dsimp only
  repeat'
    first
    | with_reducible
      first
      | apply only_bind | apply only_ite | apply only_pure | apply only_st | apply only_skip | apply only_emit
    | intro _ | split | exact within_mono (by with_unfolding_all rfl) hs

theorem only_modOp (r : OpRef) (f : Op → Op) (hs : subParts [.ops] ks = true) :
    Only ks (modOp r f : Act s₀ Unit) := by
  unfold modOp
  try dsimp only
  repeat'
    first
    | with_reducible
      first
      | apply only_bind | apply only_ite | apply only_pure | apply only_st | apply only_skip | apply only_emit
    | intro _ | split | exact within_mono (by with_unfolding_all rfl) hs

theorem only_withOp (r : OpRef) (p : OpPhase) (code : Nat) (f : Op → Act s₀ Unit) (hf : ∀ x, Only ks (f x)) :
    Only ks (withOp r p code f : Act s₀ Unit) := by
  unfold withOp
  try dsimp only
  repeat'
    first
    | with_reducible
      first
      | apply only_bind | apply only_ite | apply hf | apply only_pure | apply only_st | apply only_skip
    | intro _ | split

theorem only_freeCells (r : OpRef) (hs : subParts [.cells] ks = true) :
    Only ks (freeCells r : Act s₀ Unit) := by
  unfold freeCells
  try dsimp only
  repeat'
    first
    | with_reducible
      first
      | apply only_bind | apply only_ite | apply only_pure | apply only_st | apply only_skip | apply only_emit
    | intro _ | split | exact within_mono (by with_unfolding_all rfl) hs

theorem within_memOf (sp : Nat) (o : MemOp) : within [.hbm, .bench, .well, .host] (.mem (memOf sp) o) = true := by
  unfold memOf
  split <;> rfl

theorem only_smearRegion (o : Op) (hs : subParts [.hbm, .bench, .well, .host] ks = true) :
    Only ks (smearRegion o : Act s₀ Unit) := by
  unfold smearRegion
  try dsimp only
  repeat'
    first
    | with_reducible
      first
      | apply only_bind | apply only_ite | apply only_pure | apply only_st | apply only_skip | apply only_each
      | apply only_emit
    | intro _ | split | exact within_mono (within_mono (within_memOf ..) (by decide)) hs | exact within_mono (by with_unfolding_all rfl) hs

theorem only_spoil (o : Op) (status : Nat) (hs : subParts [.hbm, .bench, .well, .host] ks = true) :
    Only ks (spoil o status : Act s₀ Unit) := by
  unfold spoil
  try dsimp only
  repeat'
    first
    | with_reducible
      first
      | apply only_bind | apply only_ite | apply only_pure | apply only_st | apply only_skip | apply only_smearRegion
    | intro _ | split | exact subParts_trans (by decide) hs

theorem only_dropReqsOf (r : OpRef) (hs : subParts [.reqs] ks = true) :
    Only ks (dropReqsOf r : Act s₀ Unit) := by
  unfold dropReqsOf
  try dsimp only
  repeat'
    first
    | with_reducible
      first
      | apply only_bind | apply only_ite | apply only_pure | apply only_st | apply only_skip | apply only_emit
    | intro _ | split | exact within_mono (by with_unfolding_all rfl) hs

theorem only_endOp (r : OpRef) (status detail : Nat) (counts : Nat) (admitAs : Option Nat) (hs : subParts [.hbm, .bench, .well, .host, .ops, .reqs, .cells] ks = true) :
    Only ks (endOp r status detail counts admitAs : Act s₀ Unit) := by
  unfold endOp
  try dsimp only
  repeat'
    first
    | with_reducible
      first
      | apply only_bind | apply only_ite | apply only_pure | apply only_st | apply only_skip | apply only_putOp
      | apply only_freeCells | apply only_spoil | apply only_dropReqsOf
    | intro _ | split | exact subParts_trans (by decide) hs

theorem only_notAdmitted (r : OpRef) (status detail : Nat) (hs : subParts [.priv, .hbm, .bench, .well, .host, .ops, .reqs, .cells] ks = true) :
    Only ks (notAdmitted r status detail : Act s₀ Unit) := by
  unfold notAdmitted
  try dsimp only
  repeat'
    first
    | with_reducible
      first
      | apply only_bind | apply only_ite | apply only_pure | apply only_st | apply only_skip | apply only_privSet
      | apply only_endOp
    | intro _ | split | exact subParts_trans (by decide) hs

theorem only_depAbort (o : Op) (hs : subParts [.regs, .priv, .hbm, .bench, .well, .host, .ops, .reqs, .cells] ks = true) :
    Only ks (depAbort o : Act s₀ Unit) := by
  unfold depAbort
  try dsimp only
  repeat'
    first
    | with_reducible
      first
      | apply only_bind | apply only_ite | apply only_pure | apply only_st | apply only_skip | apply only_bump
      | apply only_notAdmitted
    | intro _ | split | exact subParts_trans (by decide) hs

theorem only_escWaiters (i : Nat) (hs : subParts [.regs, .priv, .hbm, .bench, .well, .host, .ops, .reqs, .cells] ks = true) :
    Only ks (escWaiters i : Act s₀ Unit) := by
  unfold escWaiters
  try dsimp only
  repeat'
    first
    | with_reducible
      first
      | apply only_bind | apply only_ite | apply only_pure | apply only_st | apply only_skip | apply only_each
      | apply only_depAbort
    | intro _ | split | exact subParts_trans (by decide) hs

theorem only_endClean (r : OpRef) (status detail : Nat) (admitAs : Option Nat) (hs : subParts [.hbm, .bench, .well, .host, .ops, .reqs, .cells] ks = true) :
    Only ks (endClean r status detail admitAs : Act s₀ Unit) := by
  unfold endClean
  try dsimp only
  repeat'
    first
    | with_reducible
      first
      | apply only_bind | apply only_ite | apply only_pure | apply only_st | apply only_skip | apply only_modOp
      | apply only_endOp
    | intro _ | split | exact subParts_trans (by decide) hs

theorem only_failOp (r : OpRef) (status : Nat) (hs : subParts [.hbm, .bench, .well, .host, .ops, .reqs, .cells] ks = true) :
    Only ks (failOp r status : Act s₀ Unit) := by
  unfold failOp
  try dsimp only
  repeat'
    first
    | with_reducible
      first
      | apply only_bind | apply only_ite | apply only_pure | apply only_st | apply only_skip | apply only_endOp
    | intro _ | split | exact subParts_trans (by decide) hs

theorem only_waitRes (o : Op) (hs : subParts [.ops] ks = true) :
    Only ks (waitRes o : Act s₀ Unit) := by
  unfold waitRes
  try dsimp only
  repeat'
    first
    | with_reducible
      first
      | apply only_bind | apply only_ite | apply only_pure | apply only_st | apply only_skip | apply only_putOp
    | intro _ | split | exact subParts_trans (by decide) hs

theorem only_outTo (r : OpRef) (space addr : Nat) (b : List Byte) (hs : subParts [.ops] ks = true) :
    Only ks (outTo r space addr b : Act s₀ Unit) := by
  unfold outTo
  try dsimp only
  repeat'
    first
    | with_reducible
      first
      | apply only_bind | apply only_ite | apply only_pure | apply only_st | apply only_skip | apply only_modOp
    | intro _ | split | exact subParts_trans (by decide) hs

theorem only_outLoc (r : OpRef) (l : Loc) (b : List Byte) (hs : subParts [.ops] ks = true) :
    Only ks (outLoc r l b : Act s₀ Unit) := by
  unfold outLoc
  try dsimp only
  repeat'
    first
    | with_reducible
      first
      | apply only_bind | apply only_ite | apply only_pure | apply only_st | apply only_skip | apply only_outTo
    | intro _ | split | exact subParts_trans (by decide) hs

theorem only_setRegion (r : OpRef) (l : List (Nat × Nat × Nat)) (hs : subParts [.ops] ks = true) :
    Only ks (setRegion r l : Act s₀ Unit) := by
  unfold setRegion
  try dsimp only
  repeat'
    first
    | with_reducible
      first
      | apply only_bind | apply only_ite | apply only_pure | apply only_st | apply only_skip | apply only_modOp
    | intro _ | split | exact subParts_trans (by decide) hs

theorem only_sendPk (p : Packet) (hs : subParts [.outs] ks = true) :
    Only ks (sendPk p : Act s₀ Unit) := by
  unfold sendPk
  try dsimp only
  repeat'
    first
    | with_reducible
      first
      | apply only_bind | apply only_ite | apply only_pure | apply only_st | apply only_skip | apply only_send
    | intro _ | split | exact subParts_trans (by decide) hs

theorem only_request (o : Option OpRef) (dest opc hd addr len cnt left : Nat) (kind : ReqKind) (body : Body) (seq : Nat) (hs : subParts [.reqs, .outs, .rte] ks = true) :
    Only ks (request o dest opc hd addr len cnt left kind body seq : Act s₀ Nat) := by
  unfold request
  try dsimp only
  repeat'
    first
    | with_reducible
      first
      | apply only_bind | apply only_ite | apply only_pure | apply only_st | apply only_skip | apply only_emit
      | apply only_modRte | apply only_sendPk
    | intro _ | split | exact subParts_trans (by decide) hs | exact within_nonce | exact within_mono (by with_unfolding_all rfl) hs

theorem only_setPeer (n : Nat) (x : Peer) (hs : subParts [.peers] ks = true) :
    Only ks (setPeer n x : Act s₀ Unit) := by
  unfold setPeer
  try dsimp only
  repeat'
    first
    | with_reducible
      first
      | apply only_bind | apply only_ite | apply only_pure | apply only_st | apply only_skip | apply only_emit
    | intro _ | split | exact within_mono (by with_unfolding_all rfl) hs

theorem only_sendOpen (p : Nat) (half : Bool) (cls : Nat) (t : TxTo) (m : TxMsg) (hs : subParts [.outs, .links] ks = true) :
    Only ks (sendOpen p half cls t m : Act s₀ Unit) := by
  unfold sendOpen
  try dsimp only
  repeat'
    first
    | with_reducible
      first
      | apply only_bind | apply only_ite | apply only_pure | apply only_st | apply only_skip | apply only_emit
      | apply only_sendFrame
    | intro _ | split | exact subParts_trans (by decide) hs | exact within_mono (by with_unfolding_all rfl) hs

theorem only_sendToPeer (n : Nat) (p : Packet) (hs : subParts [.outs, .links, .peers] ks = true) :
    Only ks (sendToPeer n p : Act s₀ Unit) := by
  unfold sendToPeer
  try dsimp only
  repeat'
    first
    | with_reducible
      first
      | apply only_bind | apply only_ite | apply only_pure | apply only_st | apply only_skip | apply only_setPeer
      | apply only_sendOpen
    | intro _ | split | exact subParts_trans (by decide) hs

theorem only_sendQp (q : Nat) (m : TxMsg) (hs : subParts [.outs, .links] ks = true) :
    Only ks (sendQp q m : Act s₀ Unit) := by
  unfold sendQp
  try dsimp only
  repeat'
    first
    | with_reducible
      first
      | apply only_bind | apply only_ite | apply only_pure | apply only_st | apply only_skip | apply only_sendOpen
    | intro _ | split | exact subParts_trans (by decide) hs

theorem only_sendPeer (n : Nat) (p : Packet) (hs : subParts [.outs, .links, .peers] ks = true) :
    Only ks (sendPeer n p : Act s₀ Unit) := by
  unfold sendPeer
  try dsimp only
  repeat'
    first
    | with_reducible
      first
      | apply only_bind | apply only_ite | apply only_pure | apply only_st | apply only_skip | apply only_setPeer
      | apply only_sendToPeer
    | intro _ | split | exact subParts_trans (by decide) hs

theorem only_requestPeer (n : Nat) (o : OpRef) (hd opc addr len cnt : Nat) (kind : ReqKind) (body : Body) (seq : Nat) (hs : subParts [.reqs, .outs, .rte, .links, .peers] ks = true) :
    Only ks (requestPeer n o hd opc addr len cnt kind body seq : Act s₀ Unit) := by
  unfold requestPeer
  try dsimp only
  repeat'
    first
    | with_reducible
      first
      | apply only_bind | apply only_ite | apply only_pure | apply only_st | apply only_skip | apply only_emit
      | apply only_modRte | apply only_sendPeer
    | intro _ | split | exact subParts_trans (by decide) hs | exact within_nonce | exact within_mono (by with_unfolding_all rfl) hs

theorem only_relayReq (n : Nat) (q : Packet) (hd dest addr : Nat) (body : Body) (hs : subParts [.reqs, .outs, .rte] ks = true) :
    Only ks (relayReq n q hd dest addr body : Act s₀ Nat) := by
  unfold relayReq
  try dsimp only
  repeat'
    first
    | with_reducible
      first
      | apply only_bind | apply only_ite | apply only_pure | apply only_st | apply only_skip | apply only_emit
      | apply only_modRte | apply only_sendPk
    | intro _ | split | exact subParts_trans (by decide) hs | exact within_mono (by with_unfolding_all rfl) hs

theorem only_answer (via : Option Nat) (q : Packet) (opc addr len : Nat) (body : Body) (hs : subParts [.outs, .links, .peers] ks = true) :
    Only ks (answer via q opc addr len body : Act s₀ Unit) := by
  unfold answer
  try dsimp only
  repeat'
    first
    | with_reducible
      first
      | apply only_bind | apply only_ite | apply only_pure | apply only_st | apply only_skip | apply only_sendPk
      | apply only_sendPeer
    | intro _ | split | exact subParts_trans (by decide) hs

theorem only_refuse (via : Option Nat) (q : Packet) (status : Nat) (hs : subParts [.outs, .links, .peers] ks = true) :
    Only ks (refuse via q status : Act s₀ Unit) := by
  unfold refuse
  try dsimp only
  repeat'
    first
    | with_reducible
      first
      | apply only_bind | apply only_ite | apply only_pure | apply only_st | apply only_skip | apply only_answer
    | intro _ | split | exact subParts_trans (by decide) hs

theorem only_dropReq (t : BitVec 16) (hs : subParts [.reqs] ks = true) :
    Only ks (dropReq t : Act s₀ Unit) := by
  unfold dropReq
  try dsimp only
  repeat'
    first
    | with_reducible
      first
      | apply only_bind | apply only_ite | apply only_pure | apply only_st | apply only_skip | apply only_emit
    | intro _ | split | exact within_mono (by with_unfolding_all rfl) hs

theorem only_modReq (t : BitVec 16) (f : Req → Req) (hs : subParts [.reqs] ks = true) :
    Only ks (modReq t f : Act s₀ Unit) := by
  unfold modReq
  try dsimp only
  repeat'
    first
    | with_reducible
      first
      | apply only_bind | apply only_ite | apply only_pure | apply only_st | apply only_skip | apply only_emit
    | intro _ | split | exact within_mono (by with_unfolding_all rfl) hs

end Sys2Proof.Laws
end

