-- ==== Sys2Proof/Laws/Foot/Watch.lean ====
section
/-! SUPPORT. The parts of the state that each operation of Machine/Watch.lean can touch. -/

namespace Sys2Proof.Laws

open Machine

variable {s₀ : State} {ks : List Part}

theorem only_lpeCount (w : Option Nat) (d : Nat) (step : Word) (js : List Judged) (hs : subParts [.lpe] ks = true) :
    Only ks (lpeCount w d step js : Act s₀ Unit) := by
  unfold lpeCount
  try dsimp only
  repeat'
    first
    | with_reducible
      first
      | apply only_bind | apply only_ite | apply only_pure | apply only_st | apply only_skip | apply only_modLpe
    | intro _ | split | exact subParts_trans (by decide) hs

end Sys2Proof.Laws
end

