-- ==== Sys2Proof/Laws/Foot/Escape.lean ====
section
/-! SUPPORT. The parts of the state that each operation of Machine/Escape.lean can touch. -/

namespace Sys2Proof.Laws

open Machine

variable {s₀ : State} {ks : List Part}

theorem only_stepSet (d v : Nat) (hs : subParts [.priv, .schDue, .lpe] ks = true) :
    Only ks (stepSet d v : Act s₀ Unit) := by
  unfold stepSet
  try dsimp only
  repeat'
    first
    | with_reducible
      first
      | apply only_bind | apply only_ite | apply only_pure | apply only_st | apply only_skip | apply only_emit
      | apply only_privSet
    | intro _ | split | exact subParts_trans (by decide) hs | exact within_mono (by with_unfolding_all rfl) hs

theorem only_stepAdvance (d : Nat) (hs : subParts [.priv, .schDue, .lpe] ks = true) :
    Only ks (stepAdvance d : Act s₀ Unit) := by
  unfold stepAdvance
  try dsimp only
  repeat'
    first
    | with_reducible
      first
      | apply only_bind | apply only_ite | apply only_pure | apply only_st | apply only_skip | apply only_stepSet
    | intro _ | split | exact subParts_trans (by decide) hs

theorem only_escFired (i : Nat) (hs : subParts [.priv, .outs, .hosts, .schDue, .lpe] ks = true) :
    Only ks (escFired i : Act s₀ Unit) := by
  unfold escFired
  try dsimp only
  repeat'
    first
    | with_reducible
      first
      | apply only_bind | apply only_ite | apply only_pure | apply only_st | apply only_skip | apply only_emit
      | apply only_signal | apply only_stepAdvance
    | intro _ | split | exact subParts_trans (by decide) hs | exact within_mono (by with_unfolding_all rfl) hs

theorem only_escEff (i : Nat) (o : EscEff) (hs : subParts [.priv, .esc, .outs, .hosts, .schDue, .lpe] ks = true) :
    Only ks (escEff i o : Act s₀ Unit) := by
  unfold escEff
  try dsimp only
  repeat'
    first
    | with_reducible
      first
      | apply only_bind | apply only_ite | apply only_pure | apply only_st | apply only_skip | apply only_emit
      | apply only_escFired
    | intro _ | split | exact subParts_trans (by decide) hs | exact within_mono (by with_unfolding_all rfl) hs

theorem only_escSram (i : Nat) (hs : subParts [.regs, .sram, .esc, .outs, .hosts, .crown] ks = true) :
    Only ks (escSram i : Act s₀ Unit) := by
  unfold escSram
  try dsimp only
  repeat'
    first
    | with_reducible
      first
      | apply only_bind | apply only_ite | apply only_pure | apply only_st | apply only_skip | apply only_emit
      | apply only_bump | apply only_logFault
    | intro _ | split | exact subParts_trans (by decide) hs | exact within_mono (by with_unfolding_all rfl) hs

theorem only_escDo (i gen : Nat) (o : EscEff) (hs : subParts [.regs, .priv, .sram, .esc, .outs, .hosts, .schDue, .lpe, .crown] ks = true) :
    Only ks (escDo i gen o : Act s₀ Nat) := by
  unfold escDo
  try dsimp only
  repeat'
    first
    | with_reducible
      first
      | apply only_bind | apply only_ite | apply only_pure | apply only_st | apply only_skip | apply only_bump
      | apply only_escEff | apply only_escSram
    | intro _ | split | exact subParts_trans (by decide) hs

end Sys2Proof.Laws
end

