-- ==== Sys2Proof/Laws/Foot/LinkBase.lean ====
section
/-! SUPPORT. The parts of the state that each operation of Machine/LinkBase.lean can touch. -/

namespace Sys2Proof.Laws

open Machine

variable {s₀ : State} {ks : List Part}

theorem only_setLink (p : Nat) (half : Bool) (x : Link) (hs : subParts [.links] ks = true) :
    Only ks (setLink p half x : Act s₀ Unit) := by
  unfold setLink
  try dsimp only
  repeat'
    first
    | with_reducible
      first
      | apply only_bind | apply only_ite | apply only_pure | apply only_st | apply only_skip | apply only_emit
    | intro _ | split | exact within_mono (by with_unfolding_all rfl) hs

theorem only_modLink (p : Nat) (half : Bool) (f : Link → Link) (hs : subParts [.links] ks = true) :
    Only ks (modLink p half f : Act s₀ Unit) := by
  unfold modLink
  try dsimp only
  repeat'
    first
    | with_reducible
      first
      | apply only_bind | apply only_ite | apply only_pure | apply only_st | apply only_skip | apply only_setLink
    | intro _ | split | exact subParts_trans (by decide) hs

theorem only_offPort (p : Nat) (half : Bool) (hs : subParts [.regs] ks = true) :
    Only ks (offPort p half : Act s₀ Unit) := by
  unfold offPort
  try dsimp only
  repeat'
    first
    | with_reducible
      first
      | apply only_bind | apply only_ite | apply only_pure | apply only_st | apply only_skip | apply only_bump
    | intro _ | split | exact subParts_trans (by decide) hs

theorem only_freeFl (src : Option (Nat × Bool × Nat)) (n : Nat) (hs : subParts [.links] ks = true) :
    Only ks (freeFl src n : Act s₀ Unit) := by
  unfold freeFl
  try dsimp only
  repeat'
    first
    | with_reducible
      first
      | apply only_bind | apply only_ite | apply only_pure | apply only_st | apply only_skip | apply only_modLink
    | intro _ | split | exact subParts_trans (by decide) hs

theorem only_linkSend (p : Nat) (half : Bool) (src : Option (Nat × Bool × Nat)) (pk : Packet) (hs : subParts [.outs, .rte, .links] ks = true) :
    Only ks (linkSend p half src pk : Act s₀ Unit) := by
  unfold linkSend
  try dsimp only
  repeat'
    first
    | with_reducible
      first
      | apply only_bind | apply only_ite | apply only_pure | apply only_st | apply only_skip | apply only_sendFrame
      | apply only_modRte | apply only_setLink | apply only_freeFl
    | intro _ | split | exact subParts_trans (by decide) hs

theorem only_tailsOn (p : Nat) (half : Bool) (hs : subParts [.links] ks = true) :
    Only ks (tailsOn p half : Act s₀ Unit) := by
  unfold tailsOn
  try dsimp only
  repeat'
    first
    | with_reducible
      first
      | apply only_bind | apply only_ite | apply only_pure | apply only_st | apply only_skip | apply only_each
      | apply only_modLink | apply only_freeFl
    | intro _ | split | exact subParts_trans (by decide) hs

theorem only_bufKeep (p : Nat) (pk : Packet) (hs : subParts [.outs] ks = true) :
    Only ks (bufKeep p pk : Act s₀ Unit) := by
  unfold bufKeep
  try dsimp only
  repeat'
    first
    | with_reducible
      first
      | apply only_bind | apply only_ite | apply only_pure | apply only_st | apply only_skip | apply only_send
    | intro _ | split | exact subParts_trans (by decide) hs

theorem only_lcfOut (p : Nat) (half : Bool) (hs : subParts [.regs, .outs, .links] ks = true) :
    Only ks (lcfOut p half : Act s₀ Unit) := by
  unfold lcfOut
  try dsimp only
  repeat'
    first
    | with_reducible
      first
      | apply only_bind | apply only_ite | apply only_pure | apply only_st | apply only_skip | apply only_bump
      | apply only_sendFrame | apply only_setLink
    | intro _ | split | exact subParts_trans (by decide) hs

theorem only_linkNak (p : Nat) (half : Bool) (hs : subParts [.regs, .outs, .links] ks = true) :
    Only ks (linkNak p half : Act s₀ Unit) := by
  unfold linkNak
  try dsimp only
  repeat'
    first
    | with_reducible
      first
      | apply only_bind | apply only_ite | apply only_pure | apply only_st | apply only_skip | apply only_modLink
      | apply only_lcfOut
    | intro _ | split | exact subParts_trans (by decide) hs

theorem only_linkTake (p : Nat) (half : Bool) (hs : subParts [.links] ks = true) :
    Only ks (linkTake p half : Act s₀ Unit) := by
  unfold linkTake
  try dsimp only
  repeat'
    first
    | with_reducible
      first
      | apply only_bind | apply only_ite | apply only_pure | apply only_st | apply only_skip | apply only_modLink
    | intro _ | split | exact subParts_trans (by decide) hs

theorem only_oldNote (h : Hdr) (hs : subParts [.regs, .rte] ks = true) :
    Only ks (oldNote h : Act s₀ Unit) := by
  unfold oldNote
  try dsimp only
  repeat'
    first
    | with_reducible
      first
      | apply only_bind | apply only_ite | apply only_pure | apply only_st | apply only_skip | apply only_regFld
      | apply only_modRte
    | intro _ | split | exact subParts_trans (by decide) hs

theorem only_oldTouch  (hs : subParts [.rte] ks = true) :
    Only ks (oldTouch  : Act s₀ Unit) := by
  unfold oldTouch
  try dsimp only
  repeat'
    first
    | with_reducible
      first
      | apply only_bind | apply only_ite | apply only_pure | apply only_st | apply only_skip | apply only_modRte
    | intro _ | split | exact subParts_trans (by decide) hs

theorem only_linkVoid (p : Nat) (pk : Packet) (hs : subParts [.links] ks = true) :
    Only ks (linkVoid p pk : Act s₀ Unit) := by
  unfold linkVoid
  try dsimp only
  repeat'
    first
    | with_reducible
      first
      | apply only_bind | apply only_ite | apply only_pure | apply only_st | apply only_skip | apply only_freeFl
      | apply only_linkTake
    | intro _ | split | exact subParts_trans (by decide) hs

theorem only_linkGate (p : Nat) (pk : Packet) (k : Act s₀ Unit) (hk : Only ks k) (hs : subParts [.regs, .outs, .rte, .links] ks = true) :
    Only ks (linkGate p pk k : Act s₀ Unit) := by
  unfold linkGate
  try dsimp only
  repeat'
    first
    | with_reducible
      first
      | apply only_bind | apply only_ite | apply hk | apply only_pure | apply only_st | apply only_skip | apply only_bump
      | apply only_modLink | apply only_offPort | apply only_linkNak | apply only_linkTake | apply only_oldNote
      | apply only_linkVoid
    | intro _ | split | exact subParts_trans (by decide) hs

theorem only_rxJudge (p : Nat) (half : Bool) (q : Nat) (hs : subParts [.outs, .links] ks = true) :
    Only ks (rxJudge p half q : Act s₀ Unit) := by
  unfold rxJudge
  try dsimp only
  repeat'
    first
    | with_reducible
      first
      | apply only_bind | apply only_ite | apply only_pure | apply only_st | apply only_skip | apply only_sendFrame
      | apply only_setLink
    | intro _ | split | exact subParts_trans (by decide) hs

theorem only_rxSet (p : Nat) (half : Bool) (q n : Nat) (hs : subParts [.links] ks = true) :
    Only ks (rxSet p half q n : Act s₀ Unit) := by
  unfold rxSet
  try dsimp only
  repeat'
    first
    | with_reducible
      first
      | apply only_bind | apply only_ite | apply only_pure | apply only_st | apply only_skip | apply only_modLink
    | intro _ | split | exact subParts_trans (by decide) hs

theorem only_rxTake (p : Nat) (half : Bool) (q : Nat) (hs : subParts [.regs, .outs, .links] ks = true) :
    Only ks (rxTake p half q : Act s₀ Bool) := by
  unfold rxTake
  try dsimp only
  repeat'
    first
    | with_reducible
      first
      | apply only_bind | apply only_ite | apply only_pure | apply only_st | apply only_skip | apply only_each
      | apply only_emit | apply only_bump | apply only_rxJudge | apply only_rxSet
    | intro _ | split | exact subParts_trans (by decide) hs | exact within_nonce

end Sys2Proof.Laws
end

