-- ==== Sys2Proof/Laws/Foot/Report.lean ====
section
/-! SUPPORT. The parts of the state that each operation of Machine/Report.lean can touch. -/

namespace Sys2Proof.Laws

open Machine

variable {s₀ : State} {ks : List Part}

theorem only_report (kind dom txn field written applied section_ : Nat) (hs : subParts [.regs, .clb] ks = true) :
    Only ks (report kind dom txn field written applied section_ : Act s₀ Unit) := by
  unfold report
  try dsimp only
  repeat'
    first
    | with_reducible
      first
      | apply only_bind | apply only_ite | apply only_pure | apply only_st | apply only_skip | apply only_bump
      | apply only_modClb
    | intro _ | split | exact subParts_trans (by decide) hs

end Sys2Proof.Laws
end

