-- ==== Sys2Proof/Laws/Foot/Route.lean ====
section
/-! SUPPORT. The parts of the state that each operation of Machine/Route.lean can touch. -/

namespace Sys2Proof.Laws

open Machine

variable {s₀ : State} {ks : List Part}

theorem only_goTo (r : Route) (src : Option (Nat × Bool × Nat)) (pk : Packet) (hs : subParts [.regs, .outs, .rte, .links] ks = true) :
    Only ks (goTo r src pk : Act s₀ Bool) := by
  unfold goTo
  try dsimp only
  repeat'
    first
    | with_reducible
      first
      | apply only_bind | apply only_ite | apply only_pure | apply only_st | apply only_skip | apply only_bump
      | apply only_freeFl | apply only_linkSend
    | intro _ | split | exact subParts_trans (by decide) hs

theorem only_passOn (p : Nat) (pk : Packet) (hs : subParts [.regs, .outs, .rte, .links] ks = true) :
    Only ks (passOn p pk : Act s₀ Unit) := by
  unfold passOn
  try dsimp only
  repeat'
    first
    | with_reducible
      first
      | apply only_bind | apply only_ite | apply only_pure | apply only_st | apply only_skip | apply only_bump
      | apply only_freeFl | apply only_goTo
    | intro _ | split | exact subParts_trans (by decide) hs

theorem only_portTake (p : Nat) (pk : Packet) (k : Act s₀ Unit) (hk : Only ks k) (hs : subParts [.regs, .outs, .rte, .links] ks = true) :
    Only ks (portTake p pk k : Act s₀ Unit) := by
  unfold portTake
  try dsimp only
  repeat'
    first
    | with_reducible
      first
      | apply only_bind | apply only_ite | apply hk | apply only_pure | apply only_st | apply only_skip | apply only_bufKeep
      | apply only_linkGate | apply only_rxTake | apply only_passOn
    | intro _ | split | exact subParts_trans (by decide) hs

end Sys2Proof.Laws
end

