-- ==== Sys2Proof/Laws/Foot/TxnBase.lean ====
section
/-! SUPPORT. The parts of the state that each operation of Machine/TxnBase.lean can touch. -/

namespace Sys2Proof.Laws

open Machine

variable {s₀ : State} {ks : List Part}

theorem only_txnLast (status : Nat) (sig : Bool) (hs : subParts [.outs, .clb] ks = true) :
    Only ks (txnLast status sig : Act s₀ Unit) := by
  unfold txnLast
  try dsimp only
  repeat'
    first
    | with_reducible
      first
      | apply only_bind | apply only_ite | apply only_pure | apply only_st | apply only_skip | apply only_signal
      | apply only_modClb
    | intro _ | split | exact subParts_trans (by decide) hs

theorem only_txnStart (t : TxnSt) (hs : subParts [.shadow, .clb] ks = true) :
    Only ks (txnStart t : Act s₀ Unit) := by
  unfold txnStart
  try dsimp only
  repeat'
    first
    | with_reducible
      first
      | apply only_bind | apply only_ite | apply only_pure | apply only_st | apply only_skip | apply only_emit
      | apply only_modClb
    | intro _ | split | exact subParts_trans (by decide) hs | exact within_mono (by with_unfolding_all rfl) hs

theorem only_txnStop (status : Nat) (sig : Bool) (hs : subParts [.shadow, .outs, .clb] ks = true) :
    Only ks (txnStop status sig : Act s₀ Unit) := by
  unfold txnStop
  try dsimp only
  repeat'
    first
    | with_reducible
      first
      | apply only_bind | apply only_ite | apply only_pure | apply only_st | apply only_skip | apply only_emit
      | apply only_modClb | apply only_txnLast
    | intro _ | split | exact subParts_trans (by decide) hs | exact within_mono (by with_unfolding_all rfl) hs

theorem only_loadEnd (status step section_ : Nat) (host : Bool) (hs : subParts [.regs, .outs, .hosts, .clb, .crown] ks = true) :
    Only ks (loadEnd status step section_ host : Act s₀ Unit) := by
  unfold loadEnd
  try dsimp only
  repeat'
    first
    | with_reducible
      first
      | apply only_bind | apply only_ite | apply only_pure | apply only_st | apply only_skip | apply only_regSet
      | apply only_setStage | apply only_logFault | apply only_modClb | apply only_txnLast
    | intro _ | split | exact subParts_trans (by decide) hs

theorem only_mbxEnd (status : Nat) (hs : subParts [.regs, .outs, .crown] ks = true) :
    Only ks (mbxEnd status : Act s₀ Unit) := by
  unfold mbxEnd
  try dsimp only
  repeat'
    first
    | with_reducible
      first
      | apply only_bind | apply only_ite | apply only_pure | apply only_st | apply only_skip | apply only_regSet
      | apply only_signal | apply only_modCrown
    | intro _ | split | exact subParts_trans (by decide) hs

theorem only_shadowWrite (a v : Nat) (hs : subParts [.shadow] ks = true) :
    Only ks (shadowWrite a v : Act s₀ Unit) := by
  unfold shadowWrite
  try dsimp only
  repeat'
    first
    | with_reducible
      first
      | apply only_bind | apply only_ite | apply only_pure | apply only_st | apply only_skip | apply only_emit
    | intro _ | split | exact within_mono (by with_unfolding_all rfl) hs

theorem only_txnBegin  (hs : subParts [.shadow, .outs, .clb] ks = true) :
    Only ks (txnBegin  : Act s₀ Unit) := by
  unfold txnBegin
  try dsimp only
  repeat'
    first
    | with_reducible
      first
      | apply only_bind | apply only_ite | apply only_pure | apply only_st | apply only_skip | apply only_modClb
      | apply only_txnLast | apply only_txnStart
    | intro _ | split | exact subParts_trans (by decide) hs

theorem only_txnAbort  (hs : subParts [.shadow, .outs, .clb] ks = true) :
    Only ks (txnAbort  : Act s₀ Unit) := by
  unfold txnAbort
  try dsimp only
  repeat'
    first
    | with_reducible
      first
      | apply only_bind | apply only_ite | apply only_pure | apply only_st | apply only_skip | apply only_txnLast
      | apply only_txnStop
    | intro _ | split | exact subParts_trans (by decide) hs

end Sys2Proof.Laws
end

