-- ==== Sys2Proof/Laws/Foot/Serve.lean ====
section
/-! SUPPORT. The parts of the state that each operation of Machine/Serve.lean can touch. -/

namespace Sys2Proof.Laws

open Machine

variable {s₀ : State} {ks : List Part}

theorem only_refuseV (v : Via) (q : Packet) (status : Nat) (hs : subParts [.regs, .outs, .links, .peers] ks = true) :
    Only ks (refuseV v q status : Act s₀ Unit) := by
  unfold refuseV
  try dsimp only
  repeat'
    first
    | with_reducible
      first
      | apply only_bind | apply only_ite | apply only_pure | apply only_st | apply only_skip | apply only_bump
      | apply only_refuse
    | intro _ | split | exact subParts_trans (by decide) hs

theorem only_e2eAck (n : Nat) (q : Packet) (hs : subParts [.outs, .links, .peers] ks = true) :
    Only ks (e2eAck n q : Act s₀ Unit) := by
  unfold e2eAck
  try dsimp only
  repeat'
    first
    | with_reducible
      first
      | apply only_bind | apply only_ite | apply only_pure | apply only_st | apply only_skip | apply only_sendToPeer
    | intro _ | split | exact subParts_trans (by decide) hs

theorem only_ecnIn (n : Nat) (pk : Packet) (hs : subParts [.peers] ks = true) :
    Only ks (ecnIn n pk : Act s₀ Unit) := by
  unfold ecnIn
  try dsimp only
  repeat'
    first
    | with_reducible
      first
      | apply only_bind | apply only_ite | apply only_pure | apply only_st | apply only_skip | apply only_setPeer
    | intro _ | split | exact subParts_trans (by decide) hs

theorem only_arrive (p : Nat) (pk : Packet) (k : Via → Act s₀ Unit) (hk : ∀ x, Only ks (k x)) (hs : subParts [.regs, .outs, .rte, .links, .peers] ks = true) :
    Only ks (arrive p pk k : Act s₀ Unit) := by
  unfold arrive
  try dsimp only
  repeat'
    first
    | with_reducible
      first
      | apply only_bind | apply only_ite | apply hk | apply only_pure | apply only_st | apply only_skip | apply only_bump
      | apply only_setPeer | apply only_portTake | apply only_e2eAck | apply only_ecnIn
    | intro _ | split | exact subParts_trans (by decide) hs

theorem only_serving (p : Fin 8) (pk : Packet) (opc : Nat) (k : Via → Act s₀ Unit) (hk : ∀ x, Only ks (k x)) (hs : subParts [.regs, .outs, .rte, .links, .peers] ks = true) :
    Only ks (serving p pk opc k : Act s₀ Unit) := by
  unfold serving
  try dsimp only
  repeat'
    first
    | with_reducible
      first
      | apply only_bind | apply only_ite | apply hk | apply only_pure | apply only_st | apply only_skip | apply only_refuse
      | apply only_refuseV | apply only_arrive
    | intro _ | split | exact subParts_trans (by decide) hs

theorem only_setMstate (t r m : Nat) (hs : subParts [.tbl] ks = true) :
    Only ks (setMstate t r m : Act s₀ Unit) := by
  unfold setMstate
  try dsimp only
  repeat'
    first
    | with_reducible
      first
      | apply only_bind | apply only_ite | apply only_pure | apply only_st | apply only_skip | apply only_modTbl
    | intro _ | split | exact subParts_trans (by decide) hs

theorem only_dropMig (t r : Nat) (hs : subParts [.reqs] ks = true) :
    Only ks (dropMig t r : Act s₀ Unit) := by
  unfold dropMig
  try dsimp only
  repeat'
    first
    | with_reducible
      first
      | apply only_bind | apply only_ite | apply only_pure | apply only_st | apply only_skip | apply only_emit
    | intro _ | split | exact within_mono (by with_unfolding_all rfl) hs

theorem only_cancelMove (status : Nat) (m : Mig) (hs : subParts [.regs, .hbm, .bench, .well, .host, .ops, .reqs, .outs, .tbl, .cells, .rte] ks = true) :
    Only ks (cancelMove status m : Act s₀ Unit) := by
  unfold cancelMove
  try dsimp only
  repeat'
    first
    | with_reducible
      first
      | apply only_bind | apply only_ite | apply only_pure | apply only_st | apply only_skip | apply only_bump
      | apply only_modTbl | apply only_endOp | apply only_request | apply only_setMstate | apply only_dropMig
    | intro _ | split | exact subParts_trans (by decide) hs

theorem only_moveOff (status t r : Nat) (x : MigStep) (hs : subParts [.regs, .hbm, .bench, .well, .host, .ops, .reqs, .outs, .tbl, .cells, .rte] ks = true) :
    Only ks (moveOff status t r x : Act s₀ Unit) := by
  unfold moveOff
  try dsimp only
  repeat'
    first
    | with_reducible
      first
      | apply only_bind | apply only_ite | apply only_pure | apply only_st | apply only_skip | apply only_cancelMove
    | intro _ | split | exact subParts_trans (by decide) hs

theorem only_setQp (q : Nat) (x : Qp) (hs : subParts [.qps] ks = true) :
    Only ks (setQp q x : Act s₀ Unit) := by
  unfold setQp
  try dsimp only
  repeat'
    first
    | with_reducible
      first
      | apply only_bind | apply only_ite | apply only_pure | apply only_st | apply only_skip | apply only_emit
    | intro _ | split | exact within_mono (by with_unfolding_all rfl) hs

theorem only_drainAct (o : Op) (hs : subParts [.regs, .priv, .sram, .esc, .outs, .hosts, .schDue, .lpe, .crown] ks = true) :
    Only ks (drainAct o : Act s₀ Unit) := by
  unfold drainAct
  try dsimp only
  repeat'
    first
    | with_reducible
      first
      | apply only_bind | apply only_ite | apply only_pure | apply only_st | apply only_skip | apply only_each
      | apply only_escDo
    | intro _ | split | exact subParts_trans (by decide) hs

theorem only_qpDrop (q : Nat) (hs : subParts [.regs, .priv, .hbm, .bench, .well, .host, .sram, .esc, .ops, .reqs, .outs, .hosts, .cells, .schDue, .lpe, .qps, .crown] ks = true) :
    Only ks (qpDrop q : Act s₀ Unit) := by
  unfold qpDrop
  try dsimp only
  repeat'
    first
    | with_reducible
      first
      | apply only_bind | apply only_ite | apply only_pure | apply only_st | apply only_skip | apply only_each
      | apply only_emit | apply only_endOp | apply only_setQp | apply only_drainAct
    | intro _ | split | exact subParts_trans (by decide) hs | exact within_mono (by with_unfolding_all rfl) hs

theorem only_qpError (q : Nat) (hs : subParts [.regs, .priv, .hbm, .bench, .well, .host, .sram, .esc, .ops, .reqs, .outs, .hosts, .cells, .schDue, .lpe, .qps, .crown] ks = true) :
    Only ks (qpError q : Act s₀ Unit) := by
  unfold qpError
  try dsimp only
  repeat'
    first
    | with_reducible
      first
      | apply only_bind | apply only_ite | apply only_pure | apply only_st | apply only_skip | apply only_regFld
      | apply only_bump | apply only_qpDrop
    | intro _ | split | exact subParts_trans (by decide) hs

theorem only_contribLost (q : Req) (hs : subParts [.sac] ks = true) :
    Only ks (contribLost q : Act s₀ Unit) := by
  unfold contribLost
  try dsimp only
  repeat'
    first
    | with_reducible
      first
      | apply only_bind | apply only_ite | apply only_pure | apply only_st | apply only_skip | apply only_modSac
    | intro _ | split | exact subParts_trans (by decide) hs

theorem only_reqFail (q : Req) (status detail : Nat) (hs : subParts [.regs, .priv, .hbm, .bench, .well, .host, .sram, .esc, .ops, .reqs, .outs, .hosts, .tbl, .sac, .cells, .schDue, .lpe, .rte, .links, .peers, .qps, .clb, .crown] ks = true) :
    Only ks (reqFail q status detail : Act s₀ Unit) := by
  unfold reqFail
  try dsimp only
  repeat'
    first
    | with_reducible
      first
      | apply only_bind | apply only_ite | apply only_pure | apply only_st | apply only_skip | apply only_emit
      | apply only_bump | apply only_endOp | apply only_sendQp | apply only_refuse | apply only_dropReq | apply only_loadEnd
      | apply only_mbxEnd | apply only_moveOff | apply only_qpError | apply only_contribLost
    | intro _ | split | exact subParts_trans (by decide) hs | exact within_mono (by with_unfolding_all rfl) hs

theorem only_slotNext (q : Req) (pk : Packet) (fwd : Nat) (hs : subParts [.reqs] ks = true) :
    Only ks (slotNext q pk fwd : Act s₀ Unit) := by
  unfold slotNext
  try dsimp only
  repeat'
    first
    | with_reducible
      first
      | apply only_bind | apply only_ite | apply only_pure | apply only_st | apply only_skip | apply only_dropReq
      | apply only_modReq
    | intro _ | split | exact subParts_trans (by decide) hs

theorem only_answered (p : Fin 8) (pk : Packet) (opc : Nat) (k : Req → Act s₀ Unit) (hk : ∀ x, Only ks (k x)) (hs : subParts [.regs, .priv, .hbm, .bench, .well, .host, .sram, .esc, .ops, .reqs, .outs, .hosts, .tbl, .sac, .cells, .schDue, .lpe, .rte, .links, .peers, .qps, .clb, .crown] ks = true) :
    Only ks (answered p pk opc k : Act s₀ Unit) := by
  unfold answered
  try dsimp only
  repeat'
    first
    | with_reducible
      first
      | apply only_bind | apply only_ite | apply hk | apply only_pure | apply only_st | apply only_skip | apply only_bump
      | apply only_modReq | apply only_arrive | apply only_reqFail
    | intro _ | split | exact subParts_trans (by decide) hs

theorem only_finish (r : OpRef) (status detail counts : Nat) (hs : subParts [.hbm, .bench, .well, .host, .ops, .reqs, .cells] ks = true) :
    Only ks (finish r status detail counts : Act s₀ Unit) := by
  unfold finish
  try dsimp only
  repeat'
    first
    | with_reducible
      first
      | apply only_bind | apply only_ite | apply only_pure | apply only_st | apply only_skip | apply only_modOp
      | apply only_endOp
    | intro _ | split | exact subParts_trans (by decide) hs

theorem only_slotDone (t : BitVec 16) (o : Option OpRef) (hs : subParts [.hbm, .bench, .well, .host, .ops, .reqs, .cells] ks = true) :
    Only ks (slotDone t o : Act s₀ Unit) := by
  unfold slotDone
  try dsimp only
  repeat'
    first
    | with_reducible
      first
      | apply only_bind | apply only_ite | apply only_pure | apply only_st | apply only_skip | apply only_endOp
      | apply only_dropReq
    | intro _ | split | exact subParts_trans (by decide) hs

end Sys2Proof.Laws
end

