-- ==== Sys2Proof/Laws/Foot/Sram.lean ====
section
/-! SUPPORT. The parts of the state that each operation of Machine/Sram.lean can touch. -/

namespace Sys2Proof.Laws

open Machine

variable {s₀ : State} {ks : List Part}

theorem only_sramCe (x : SramErr) (hs : subParts [.regs, .sram, .outs, .hosts, .crown] ks = true) :
    Only ks (sramCe x : Act s₀ Unit) := by
  unfold sramCe
  try dsimp only
  repeat'
    first
    | with_reducible
      first
      | apply only_bind | apply only_ite | apply only_pure | apply only_st | apply only_skip | apply only_emit
      | apply only_bump | apply only_logFault
    | intro _ | split | exact subParts_trans (by decide) hs | exact within_mono (by with_unfolding_all rfl) hs

theorem only_sramUe (x : SramErr) (status : Nat) (who : Option Who) (hs : subParts [.regs, .outs, .hosts, .crown] ks = true) :
    Only ks (sramUe x status who : Act s₀ Unit) := by
  unfold sramUe
  try dsimp only
  repeat'
    first
    | with_reducible
      first
      | apply only_bind | apply only_ite | apply only_pure | apply only_st | apply only_skip | apply only_bump
      | apply only_logFault
    | intro _ | split | exact subParts_trans (by decide) hs

theorem only_sramRead (arr lo n : Nat) (who : Option Who) (hs : subParts [.regs, .sram, .outs, .hosts, .crown] ks = true) :
    Only ks (sramRead arr lo n who : Act s₀ Bool) := by
  unfold sramRead
  try dsimp only
  repeat'
    first
    | with_reducible
      first
      | apply only_bind | apply only_ite | apply only_pure | apply only_st | apply only_skip | apply only_each
      | apply only_sramCe | apply only_sramUe
    | intro _ | split | exact subParts_trans (by decide) hs

theorem only_sramWrite (arr lo n : Nat) (hs : subParts [.sram] ks = true) :
    Only ks (sramWrite arr lo n : Act s₀ Unit) := by
  unfold sramWrite
  try dsimp only
  repeat'
    first
    | with_reducible
      first
      | apply only_bind | apply only_ite | apply only_pure | apply only_st | apply only_skip | apply only_emit
    | intro _ | split | exact within_mono (by with_unfolding_all rfl) hs

end Sys2Proof.Laws
end

