-- ==== Sys2Proof/Laws/Foot/TblOps.lean ====
section
/-! SUPPORT. The parts of the state that each operation of Machine/TblOps.lean can touch. -/

namespace Sys2Proof.Laws

open Machine

variable {s₀ : State} {ks : List Part}

theorem only_tdSet (t : Nat) (d : TDesc) (hs : subParts [.tbl] ks = true) :
    Only ks (tdSet t d : Act s₀ Unit) := by
  unfold tdSet
  try dsimp only
  repeat'
    first
    | with_reducible
      first
      | apply only_bind | apply only_ite | apply only_pure | apply only_st | apply only_skip | apply only_modTbl
    | intro _ | split | exact subParts_trans (by decide) hs

theorem only_useRow (t r : Nat) (hs : subParts [.tbl] ks = true) :
    Only ks (useRow t r : Act s₀ Unit) := by
  unfold useRow
  try dsimp only
  repeat'
    first
    | with_reducible
      first
      | apply only_bind | apply only_ite | apply only_pure | apply only_st | apply only_skip | apply only_modTbl
    | intro _ | split | exact subParts_trans (by decide) hs

theorem only_useAddr (a : Nat) (hs : subParts [.tbl] ks = true) :
    Only ks (useAddr a : Act s₀ Unit) := by
  unfold useAddr
  try dsimp only
  repeat'
    first
    | with_reducible
      first
      | apply only_bind | apply only_ite | apply only_pure | apply only_st | apply only_skip | apply only_useRow
    | intro _ | split | exact subParts_trans (by decide) hs

theorem only_markInactive (t : Nat) (hs : subParts [.tbl] ks = true) :
    Only ks (markInactive t : Act s₀ Unit) := by
  unfold markInactive
  try dsimp only
  repeat'
    first
    | with_reducible
      first
      | apply only_bind | apply only_ite | apply only_pure | apply only_st | apply only_skip | apply only_tdSet
    | intro _ | split | exact subParts_trans (by decide) hs

theorem only_touchRow (d : TDesc) (li : Option Nat) (hs : subParts [.regs, .hbm, .ecc, .outs, .hosts, .crown] ks = true) :
    Only ks (touchRow d li : Act s₀ Nat) := by
  unfold touchRow
  try dsimp only
  repeat'
    first
    | with_reducible
      first
      | apply only_bind | apply only_ite | apply only_pure | apply only_st | apply only_skip | apply only_hbmWrite
    | intro _ | split | exact subParts_trans (by decide) hs

theorem only_mapChk (t : Nat) (d : TDesc) (r : Nat) (who : Option Who) (hs : subParts [.regs, .ecc, .outs, .hosts, .crown] ks = true) :
    Only ks (mapChk t d r who : Act s₀ Nat) := by
  unfold mapChk
  try dsimp only
  repeat'
    first
    | with_reducible
      first
      | apply only_bind | apply only_ite | apply only_pure | apply only_st | apply only_skip | apply only_hbmTouch
    | intro _ | split | exact subParts_trans (by decide) hs

theorem only_mapChks (t : Nat) (d : TDesc) (rs : List Nat) (who : Option Who) (hs : subParts [.regs, .ecc, .outs, .hosts, .crown] ks = true) :
    Only ks (mapChks t d rs who : Act s₀ Nat) := by
  unfold mapChks
  try dsimp only
  repeat'
    first
    | with_reducible
      first
      | apply only_bind | apply only_ite | apply only_pure | apply only_st | apply only_skip | apply only_foldA
      | apply only_mapChk
    | intro _ | split | exact subParts_trans (by decide) hs

theorem only_dirtyRow (t r : Nat) (hs : subParts [.tbl] ks = true) :
    Only ks (dirtyRow t r : Act s₀ Unit) := by
  unfold dirtyRow
  try dsimp only
  repeat'
    first
    | with_reducible
      first
      | apply only_bind | apply only_ite | apply only_pure | apply only_st | apply only_skip | apply only_modTbl
    | intro _ | split | exact subParts_trans (by decide) hs

theorem only_readRow (t : Nat) (d : TDesc) (r : Nat) (b : Bool) (who : Option Who) (hs : subParts [.regs, .ecc, .outs, .hosts, .crown] ks = true) :
    Only ks (readRow t d r b who : Act s₀ (Except Nat (List Byte))) := by
  unfold readRow
  try dsimp only
  repeat'
    first
    | with_reducible
      first
      | apply only_bind | apply only_ite | apply only_pure | apply only_st | apply only_skip | apply only_hbmRead
      | apply only_mapChk
    | intro _ | split | exact subParts_trans (by decide) hs

theorem only_writeRow (t : Nat) (d : TDesc) (r : Nat) (b : Bool) (bs : List Byte) (who : Option Who) (hs : subParts [.regs, .hbm, .ecc, .outs, .hosts, .tbl, .crown] ks = true) :
    Only ks (writeRow t d r b bs who : Act s₀ Nat) := by
  unfold writeRow
  try dsimp only
  repeat'
    first
    | with_reducible
      first
      | apply only_bind | apply only_ite | apply only_pure | apply only_st | apply only_skip | apply only_hbmWrite
      | apply only_markInactive | apply only_touchRow | apply only_mapChk | apply only_dirtyRow
    | intro _ | split | exact subParts_trans (by decide) hs

theorem only_writePart (t : Nat) (d : TDesc) (r off : Nat) (b lrn : Bool) (bs : List Byte) (who : Option Who) (hs : subParts [.regs, .hbm, .ecc, .outs, .hosts, .tbl, .crown] ks = true) :
    Only ks (writePart t d r off b lrn bs who : Act s₀ Nat) := by
  unfold writePart
  try dsimp only
  repeat'
    first
    | with_reducible
      first
      | apply only_bind | apply only_ite | apply only_pure | apply only_st | apply only_skip | apply only_hbmWrite
      | apply only_markInactive | apply only_touchRow | apply only_dirtyRow
    | intro _ | split | exact subParts_trans (by decide) hs

theorem only_noteFill (off n : Nat) (hs : subParts [.tbl] ks = true) :
    Only ks (noteFill off n : Act s₀ Unit) := by
  unfold noteFill
  try dsimp only
  repeat'
    first
    | with_reducible
      first
      | apply only_bind | apply only_ite | apply only_pure | apply only_st | apply only_skip | apply only_each
      | apply only_markInactive
    | intro _ | split | exact subParts_trans (by decide) hs

theorem only_countLoad (t r n : Nat) (hs : subParts [.tbl] ks = true) :
    Only ks (countLoad t r n : Act s₀ Unit) := by
  unfold countLoad
  try dsimp only
  repeat'
    first
    | with_reducible
      first
      | apply only_bind | apply only_ite | apply only_pure | apply only_st | apply only_skip | apply only_modTbl
    | intro _ | split | exact subParts_trans (by decide) hs

theorem only_addrChk (o : Op) (a : Nat) (hs : subParts [.regs, .ecc, .outs, .hosts, .crown] ks = true) :
    Only ks (addrChk o a : Act s₀ Nat) := by
  unfold addrChk
  try dsimp only
  repeat'
    first
    | with_reducible
      first
      | apply only_bind | apply only_ite | apply only_pure | apply only_st | apply only_skip | apply only_mapChk
    | intro _ | split | exact subParts_trans (by decide) hs

theorem only_fetch (o : Op) (a n : Nat) (lrn : Bool) (hs : subParts [.regs, .ecc, .reqs, .outs, .hosts, .tbl, .rte, .crown] ks = true) :
    Only ks (fetch o a n lrn : Act s₀ Fetch) := by
  unfold fetch
  try dsimp only
  repeat'
    first
    | with_reducible
      first
      | apply only_bind | apply only_ite | apply only_pure | apply only_st | apply only_skip | apply only_foldA
      | apply only_locRead | apply only_request | apply only_useAddr | apply only_addrChk
    | intro _ | split | exact subParts_trans (by decide) hs

theorem only_forward (q : Packet) (chip t r : Nat) (hs : subParts [.regs, .outs, .tbl, .links, .peers] ks = true) :
    Only ks (forward q chip t r : Act s₀ Unit) := by
  unfold forward
  try dsimp only
  repeat'
    first
    | with_reducible
      first
      | apply only_bind | apply only_ite | apply only_pure | apply only_st | apply only_skip | apply only_bump
      | apply only_modTbl | apply only_sendPk | apply only_refuse
    | intro _ | split | exact subParts_trans (by decide) hs

theorem only_redirect (q : Packet) (owner : Nat) (busy : Bool) (hs : subParts [.regs, .outs, .links, .peers] ks = true) :
    Only ks (redirect q owner busy : Act s₀ Unit) := by
  unfold redirect
  try dsimp only
  repeat'
    first
    | with_reducible
      first
      | apply only_bind | apply only_ite | apply only_pure | apply only_st | apply only_skip | apply only_bump
      | apply only_answer
    | intro _ | split | exact subParts_trans (by decide) hs

theorem only_parkPk (q : Packet) (hs : subParts [.regs, .outs, .tbl, .links, .peers] ks = true) :
    Only ks (parkPk q : Act s₀ Unit) := by
  unfold parkPk
  try dsimp only
  repeat'
    first
    | with_reducible
      first
      | apply only_bind | apply only_ite | apply only_pure | apply only_st | apply only_skip | apply only_modTbl
      | apply only_redirect
    | intro _ | split | exact subParts_trans (by decide) hs

theorem only_rowServe (q : Packet) (t : Nat) (d : TDesc) (r : Nat) (k : Act s₀ Unit) (hk : Only ks k) (hs : subParts [.regs, .ecc, .outs, .hosts, .tbl, .links, .peers, .crown] ks = true) :
    Only ks (rowServe q t d r k : Act s₀ Unit) := by
  unfold rowServe
  try dsimp only
  repeat'
    first
    | with_reducible
      first
      | apply only_bind | apply only_ite | apply hk | apply only_pure | apply only_st | apply only_skip | apply only_refuse
      | apply only_useRow | apply only_mapChk | apply only_forward | apply only_redirect | apply only_parkPk
    | intro _ | split | exact subParts_trans (by decide) hs

theorem only_cacheEntry (e : OvEntry) (hs : subParts [.tbl] ks = true) :
    Only ks (cacheEntry e : Act s₀ Unit) := by
  unfold cacheEntry
  try dsimp only
  repeat'
    first
    | with_reducible
      first
      | apply only_bind | apply only_ite | apply only_pure | apply only_st | apply only_skip | apply only_modTbl
    | intro _ | split | exact subParts_trans (by decide) hs

theorem only_cancelMoves (t : Nat) (hs : subParts [.regs, .hbm, .bench, .well, .host, .ops, .reqs, .outs, .tbl, .cells, .rte] ks = true) :
    Only ks (cancelMoves t : Act s₀ Unit) := by
  unfold cancelMoves
  try dsimp only
  repeat'
    first
    | with_reducible
      first
      | apply only_bind | apply only_ite | apply only_pure | apply only_st | apply only_skip | apply only_each
      | apply only_cancelMove
    | intro _ | split | exact subParts_trans (by decide) hs

theorem only_ackRow (v : Via) (pk : Packet) (opc t r : Nat) (hs : subParts [.outs, .links, .peers] ks = true) :
    Only ks (ackRow v pk opc t r : Act s₀ Unit) := by
  unfold ackRow
  try dsimp only
  repeat'
    first
    | with_reducible
      first
      | apply only_bind | apply only_ite | apply only_pure | apply only_st | apply only_skip | apply only_answer
    | intro _ | split | exact subParts_trans (by decide) hs

theorem only_outFault (l : Loc) (n : Nat) (who : Option Who) (hs : subParts [.regs, .ecc, .outs, .hosts, .crown] ks = true) :
    Only ks (outFault l n who : Act s₀ Unit) := by
  unfold outFault
  try dsimp only
  repeat'
    first
    | with_reducible
      first
      | apply only_bind | apply only_ite | apply only_pure | apply only_st | apply only_skip | apply only_each
      | apply only_secUe | apply only_secUeLog
    | intro _ | split | exact subParts_trans (by decide) hs

theorem only_deliver (o : Op) (a : Nat) (b : List Byte) (lrn : Bool) (hs : subParts [.regs, .hbm, .ecc, .ops, .reqs, .outs, .hosts, .tbl, .rte, .crown] ks = true) :
    Only ks (deliver o a b lrn : Act s₀ Nat) := by
  unfold deliver
  try dsimp only
  repeat'
    first
    | with_reducible
      first
      | apply only_bind | apply only_ite | apply only_pure | apply only_st | apply only_skip | apply only_foldA
      | apply only_outTo | apply only_outLoc | apply only_request | apply only_writePart | apply only_addrChk
      | apply only_outFault
    | intro _ | split | exact subParts_trans (by decide) hs

theorem only_captureTbl (r : OpRef) (t : Nat) (d : TDesc) (lrn : Bool) (hs : subParts [.ops] ks = true) :
    Only ks (captureTbl r t d lrn : Act s₀ Unit) := by
  unfold captureTbl
  try dsimp only
  repeat'
    first
    | with_reducible
      first
      | apply only_bind | apply only_ite | apply only_pure | apply only_st | apply only_skip | apply only_modOp
    | intro _ | split | exact subParts_trans (by decide) hs

theorem only_captureAddr (r : OpRef) (a : Nat) (lrn : Bool) (hs : subParts [.ops] ks = true) :
    Only ks (captureAddr r a lrn : Act s₀ Unit) := by
  unfold captureAddr
  try dsimp only
  repeat'
    first
    | with_reducible
      first
      | apply only_bind | apply only_ite | apply only_pure | apply only_st | apply only_skip | apply only_captureTbl
    | intro _ | split | exact subParts_trans (by decide) hs

end Sys2Proof.Laws
end

