-- ==== Sys2Proof/Laws/Foot/Cells.lean ====
section
/-! SUPPORT. The parts of the state that each operation of Machine/Cells.lean can touch. -/

namespace Sys2Proof.Laws

open Machine

variable {s₀ : State} {ks : List Part}

theorem only_onCell (a : CellAt) (k : Op → Act s₀ Unit) (hk : ∀ x, Only ks (k x)) :
    Only ks (onCell a k : Act s₀ Unit) := by
  unfold onCell
  try dsimp only
  repeat'
    first
    | with_reducible
      first
      | apply only_bind | apply only_ite | apply hk | apply only_pure | apply only_st | apply only_skip
    | intro _ | split

theorem only_wrote (r : OpRef) (sp lo n : Nat) (hs : subParts [.ops] ks = true) :
    Only ks (wrote r sp lo n : Act s₀ Unit) := by
  unfold wrote
  try dsimp only
  repeat'
    first
    | with_reducible
      first
      | apply only_bind | apply only_ite | apply only_pure | apply only_st | apply only_skip | apply only_modOp
    | intro _ | split | exact subParts_trans (by decide) hs

theorem only_cellFault (a : CellAt) (o : Op) (cause : Nat) (hs : subParts [.regs, .hbm, .bench, .well, .host, .ops, .reqs, .cells] ks = true) :
    Only ks (cellFault a o cause : Act s₀ Unit) := by
  unfold cellFault
  try dsimp only
  repeat'
    first
    | with_reducible
      first
      | apply only_bind | apply only_ite | apply only_pure | apply only_st | apply only_skip | apply only_regSet
      | apply only_endOp
    | intro _ | split | exact subParts_trans (by decide) hs

theorem only_residueNote (c unit : Nat) (o : Op) (again : Bool) (hs : subParts [.regs, .outs, .hosts, .crown] ks = true) :
    Only ks (residueNote c unit o again : Act s₀ Unit) := by
  unfold residueNote
  try dsimp only
  repeat'
    first
    | with_reducible
      first
      | apply only_bind | apply only_ite | apply only_pure | apply only_st | apply only_skip | apply only_regFld
      | apply only_bump | apply only_logFault
    | intro _ | split | exact subParts_trans (by decide) hs

theorem only_residueChk (c unit : Nat) (o : Op) (misses : Fin 3) (hs : subParts [.regs, .hbm, .bench, .well, .host, .ops, .reqs, .outs, .hosts, .cells, .crown] ks = true) :
    Only ks (residueChk c unit o misses : Act s₀ Bool) := by
  unfold residueChk
  try dsimp only
  repeat'
    first
    | with_reducible
      first
      | apply only_bind | apply only_ite | apply only_pure | apply only_st | apply only_skip | apply only_endOp
      | apply only_residueNote
    | intro _ | split | exact subParts_trans (by decide) hs

theorem only_engMiss (cells : List Nat) (o : Op) (ms : List EngMiss) (hs : subParts [.regs, .outs, .hosts, .crown] ks = true) :
    Only ks (engMiss cells o ms : Act s₀ (Option EngMiss)) := by
  unfold engMiss
  try dsimp only
  repeat'
    first
    | with_reducible
      first
      | apply only_bind | apply only_ite | apply only_pure | apply only_st | apply only_skip | apply only_each
      | apply only_residueNote
    | intro _ | split | exact subParts_trans (by decide) hs

theorem only_benchGet (c off n : Nat) (o : Op) (k : List Byte → Act s₀ Unit) (hk : ∀ x, Only ks (k x)) (hs : subParts [.regs, .hbm, .bench, .well, .host, .sram, .ops, .reqs, .outs, .hosts, .cells, .crown] ks = true) :
    Only ks (benchGet c off n o k : Act s₀ Unit) := by
  unfold benchGet
  try dsimp only
  repeat'
    first
    | with_reducible
      first
      | apply only_bind | apply only_ite | apply hk | apply only_pure | apply only_st | apply only_skip | apply only_endOp
      | apply only_sramRead
    | intro _ | split | exact subParts_trans (by decide) hs

theorem only_benchPut (c off : Nat) (b : List Byte) (hs : subParts [.bench, .sram] ks = true) :
    Only ks (benchPut c off b : Act s₀ Unit) := by
  unfold benchPut
  try dsimp only
  repeat'
    first
    | with_reducible
      first
      | apply only_bind | apply only_ite | apply only_pure | apply only_st | apply only_skip | apply only_emit
      | apply only_sramWrite
    | intro _ | split | exact subParts_trans (by decide) hs | exact within_mono (by with_unfolding_all rfl) hs

theorem only_admCellRun (o : Op) :
    Only ks (admCellRun o : Act s₀ Adm) := by
  unfold admCellRun
  try dsimp only
  repeat'
    first
    | with_reducible
      first
      | apply only_bind | apply only_ite | apply only_pure | apply only_st | apply only_skip
    | intro _ | split

theorem only_cellStart (o : Op) (c fl need : Nat) (text args : List Byte) (hs : subParts [.regs, .bench, .sram, .cells] ks = true) :
    Only ks (cellStart o c fl need text args : Act s₀ Unit) := by
  unfold cellStart
  try dsimp only
  repeat'
    first
    | with_reducible
      first
      | apply only_bind | apply only_ite | apply only_pure | apply only_st | apply only_skip | apply only_regSet
      | apply only_setCell | apply only_benchPut
    | intro _ | split | exact subParts_trans (by decide) hs

theorem only_cellRunGo (r : OpRef) (hs : subParts [.regs, .hbm, .bench, .well, .host, .ecc, .sram, .ops, .reqs, .outs, .hosts, .tbl, .cells, .rte, .crown] ks = true) :
    Only ks (cellRunGo r : Act s₀ Unit) := by
  unfold cellRunGo
  try dsimp only
  repeat'
    first
    | with_reducible
      first
      | apply only_bind | apply only_ite | apply only_pure | apply only_st | apply only_skip | apply only_each
      | apply only_putOp | apply only_endClean | apply only_waitRes | apply only_fetch | apply only_cellStart
    | intro _ | split | exact subParts_trans (by decide) hs

end Sys2Proof.Laws
end

