-- ==== Sys2Proof/Laws/Foot/Flags.lean ====
section
/-! SUPPORT. The parts of the state that each operation of Machine/Flags.lean can touch. -/

namespace Sys2Proof.Laws

open Machine

variable {s₀ : State} {ks : List Part}

theorem only_flagsRaise (c : Nat) (fs : List VFlags) (hs : subParts [.regs] ks = true) :
    Only ks (flagsRaise c fs : Act s₀ Unit) := by
  unfold flagsRaise
  try dsimp only
  repeat'
    first
    | with_reducible
      first
      | apply only_bind | apply only_ite | apply only_pure | apply only_st | apply only_skip | apply only_regSet
    | intro _ | split | exact subParts_trans (by decide) hs

end Sys2Proof.Laws
end

