-- ==== Sys2Proof/Laws/Foot/Operands.lean ====
section
/-! SUPPORT. The parts of the state that each operation of Machine/Operands.lean can touch. -/

namespace Sys2Proof.Laws

open Machine

variable {s₀ : State} {ks : List Part}

theorem only_readTiles (c : Nat) (o : Op) (k : List (Option (List Nat)) → Act s₀ Unit) (n : List (Nat × Nat)) (acc : List (Option (List Nat))) (hk : ∀ x, Only ks (k x)) (hs : subParts [.regs, .hbm, .bench, .well, .host, .sram, .ops, .reqs, .outs, .hosts, .cells, .crown] ks = true) :
    Only ks (readTiles c o k n acc : Act s₀ Unit) := by
  induction n generalizing acc with
  | nil =>
    unfold readTiles
    try dsimp only
    repeat'
        first
        | with_reducible
          first
          | apply only_bind | apply only_ite | apply hk | apply only_pure | apply only_st | apply only_skip
          | apply only_benchGet
        | intro _ | split | exact subParts_trans (by decide) hs
  | cons x _ ih =>
    unfold readTiles
    try dsimp only
    repeat'
        first
        | with_reducible
          first
          | apply ih | apply only_bind | apply only_ite | apply hk | apply only_pure | apply only_st | apply only_skip
          | apply only_benchGet
        | intro _ | split | exact subParts_trans (by decide) hs

theorem only_readTiled (c : Nat) (o : Op) (base dir n : Nat) (k : List (Option (List Nat)) → Act s₀ Unit) (hk : ∀ x, Only ks (k x)) (hs : subParts [.regs, .hbm, .bench, .well, .host, .sram, .ops, .reqs, .outs, .hosts, .cells, .crown] ks = true) :
    Only ks (readTiled c o base dir n k : Act s₀ Unit) := by
  unfold readTiled
  try dsimp only
  repeat'
    first
    | with_reducible
      first
      | apply only_bind | apply only_ite | apply hk | apply only_pure | apply only_st | apply only_skip | apply only_benchGet
      | apply only_readTiles
    | intro _ | split | exact subParts_trans (by decide) hs

theorem only_readOperand (c : Nat) (o : Op) (x : ArrOperand) (rows cols kdim : Nat) (k : OpData → Act s₀ Unit) (hk : ∀ x, Only ks (k x)) (hs : subParts [.regs, .hbm, .bench, .well, .host, .sram, .ops, .reqs, .outs, .hosts, .cells, .crown] ks = true) :
    Only ks (readOperand c o x rows cols kdim k : Act s₀ Unit) := by
  unfold readOperand
  try dsimp only
  repeat'
    first
    | with_reducible
      first
      | apply only_bind | apply only_ite | apply hk | apply only_pure | apply only_st | apply only_skip | apply only_benchGet
      | apply only_readTiled
    | intro _ | split | exact subParts_trans (by decide) hs

theorem only_rndPut (k n : Nat) (gone : Nat → Bool) (new : List (Nat × Nat)) (hs : subParts [.vreg] ks = true) :
    Only ks (rndPut k n gone new : Act s₀ Unit) := by
  unfold rndPut
  try dsimp only
  repeat'
    first
    | with_reducible
      first
      | apply only_bind | apply only_ite | apply only_pure | apply only_st | apply only_skip | apply only_emit
    | intro _ | split | exact within_mono (by with_unfolding_all rfl) hs

theorem only_vregPut (c r : Nat) (b : List Byte) (new : List (Nat × Nat)) (hs : subParts [.vreg] ks = true) :
    Only ks (vregPut c r b new : Act s₀ Unit) := by
  unfold vregPut
  try dsimp only
  repeat'
    first
    | with_reducible
      first
      | apply only_bind | apply only_ite | apply only_pure | apply only_st | apply only_skip | apply only_emit
      | apply only_rndPut
    | intro _ | split | exact subParts_trans (by decide) hs | exact within_mono (by with_unfolding_all rfl) hs

theorem only_maskPut (c m : Nat) (v : BitVec 4096) (hs : subParts [.cells] ks = true) :
    Only ks (maskPut c m v : Act s₀ Unit) := by
  unfold maskPut
  try dsimp only
  repeat'
    first
    | with_reducible
      first
      | apply only_bind | apply only_ite | apply only_pure | apply only_st | apply only_skip | apply only_emit
    | intro _ | split | exact within_mono (by with_unfolding_all rfl) hs

theorem only_vregLay (c r w : Nat) (pair : Bool) (mask : BitVec 4096) (zero : Bool) (new : List (Option (Nat × Nat))) (hs : subParts [.vreg] ks = true) :
    Only ks (vregLay c r w pair mask zero new : Act s₀ Unit) := by
  unfold vregLay
  try dsimp only
  repeat'
    first
    | with_reducible
      first
      | apply only_bind | apply only_ite | apply only_pure | apply only_st | apply only_skip | apply only_emit
      | apply only_rndPut
    | intro _ | split | exact subParts_trans (by decide) hs | exact within_mono (by with_unfolding_all rfl) hs

theorem only_vecFault (a : CellAt) (o : Op) (cause elem reg addr : Nat) (hs : subParts [.regs, .hbm, .bench, .well, .host, .ops, .reqs, .cells] ks = true) :
    Only ks (vecFault a o cause elem reg addr : Act s₀ Unit) := by
  unfold vecFault
  try dsimp only
  repeat'
    first
    | with_reducible
      first
      | apply only_bind | apply only_ite | apply only_pure | apply only_st | apply only_skip | apply only_regSet
      | apply only_cellFault
    | intro _ | split | exact subParts_trans (by decide) hs

theorem only_vecFault0 (a : CellAt) (o : Op) (cause reg : Nat) (hs : subParts [.regs, .hbm, .bench, .well, .host, .ops, .reqs, .cells] ks = true) :
    Only ks (vecFault0 a o cause reg : Act s₀ Unit) := by
  unfold vecFault0
  try dsimp only
  repeat'
    first
    | with_reducible
      first
      | apply only_bind | apply only_ite | apply only_pure | apply only_st | apply only_skip | apply only_regFld
      | apply only_cellFault
    | intro _ | split | exact subParts_trans (by decide) hs

theorem only_vecRetire (c : Nat) (hs : subParts [.regs] ks = true) :
    Only ks (vecRetire c : Act s₀ Unit) := by
  unfold vecRetire
  try dsimp only
  repeat'
    first
    | with_reducible
      first
      | apply only_bind | apply only_ite | apply only_pure | apply only_st | apply only_skip | apply only_bump64
    | intro _ | split | exact subParts_trans (by decide) hs

theorem only_scalarPut (c v : Nat) (hs : subParts [.cells] ks = true) :
    Only ks (scalarPut c v : Act s₀ Unit) := by
  unfold scalarPut
  try dsimp only
  repeat'
    first
    | with_reducible
      first
      | apply only_bind | apply only_ite | apply only_pure | apply only_st | apply only_skip | apply only_setCell
    | intro _ | split | exact subParts_trans (by decide) hs

end Sys2Proof.Laws
end

