-- ==== Sys2Proof/Laws/Foot/Array.lean ====
section
/-! SUPPORT. The parts of the state that each operation of Machine/Array.lean can touch. -/

namespace Sys2Proof.Laws

open Machine

variable {s₀ : State} {ks : List Part}

theorem only_arrWrite (c : Nat) (x : ArrayInstr) (idx : Nat) (b : Blk) (t : BlkTry) (applied : Int) (hs : subParts [.bench, .sram] ks = true) :
    Only ks (arrWrite c x idx b t applied : Act s₀ Unit) := by
  unfold arrWrite
  try dsimp only
  repeat'
    first
    | with_reducible
      first
      | apply only_bind | apply only_ite | apply only_pure | apply only_st | apply only_skip | apply only_each
      | apply only_benchPut
    | intro _ | split | exact subParts_trans (by decide) hs

theorem only_arrRun (a : CellAt) (x : ArrayInstr) (o : Op) (va vb : OpData) (ib : List Byte) (hs : subParts [.regs, .hbm, .bench, .well, .host, .sram, .ops, .reqs, .outs, .hosts, .cells, .lpe, .crown] ks = true) :
    Only ks (arrRun a x o va vb ib : Act s₀ Unit) := by
  unfold arrRun
  try dsimp only
  repeat'
    first
    | with_reducible
      first
      | apply only_bind | apply only_ite | apply only_pure | apply only_st | apply only_skip | apply only_each
      | apply only_emit | apply only_bump | apply only_lpeCount | apply only_residueChk | apply only_arrWrite
    | intro _ | split | exact subParts_trans (by decide) hs | exact within_nonce

end Sys2Proof.Laws
end

