-- ==== Sys2Proof/Laws/Foot/Backward.lean ====
section
/-! SUPPORT. The parts of the state that each operation of Machine/Backward.lean can touch. -/

namespace Sys2Proof.Laws

open Machine

variable {s₀ : State} {ks : List Part}

theorem only_slotRead (i lo n : Nat) (who : Option Who) (hs : subParts [.regs, .ecc, .sram, .outs, .hosts, .crown] ks = true) :
    Only ks (slotRead i lo n who : Act s₀ (Except Nat (List Nat))) := by
  unfold slotRead
  try dsimp only
  repeat'
    first
    | with_reducible
      first
      | apply only_bind | apply only_ite | apply only_pure | apply only_st | apply only_skip | apply only_foldA
      | apply only_locRead | apply only_sramRead
    | intro _ | split | exact subParts_trans (by decide) hs

theorem only_slotWrite (i lo : Nat) (cs : List Nat) (who : Option Who) (hs : subParts [.regs, .hbm, .bench, .well, .ecc, .sram, .outs, .hosts, .crown] ks = true) :
    Only ks (slotWrite i lo cs who : Act s₀ Nat) := by
  unfold slotWrite
  try dsimp only
  repeat'
    first
    | with_reducible
      first
      | apply only_bind | apply only_ite | apply only_pure | apply only_st | apply only_skip | apply only_foldA
      | apply only_locWrite | apply only_sramWrite
    | intro _ | split | exact subParts_trans (by decide) hs

theorem only_admBwd (o : Op) :
    Only ks (admBwd o : Act s₀ Adm) := by
  unfold admBwd
  try dsimp only
  repeat'
    first
    | with_reducible
      first
      | apply only_bind | apply only_ite | apply only_pure | apply only_st | apply only_skip
    | intro _ | split

theorem only_slotClear (i : Nat) (who : Option Who) (hs : subParts [.regs, .hbm, .bench, .well, .ecc, .sram, .outs, .hosts, .crown] ks = true) :
    Only ks (slotClear i who : Act s₀ Nat) := by
  unfold slotClear
  try dsimp only
  repeat'
    first
    | with_reducible
      first
      | apply only_bind | apply only_ite | apply only_pure | apply only_st | apply only_skip | apply only_foldA
      | apply only_emit | apply only_regSet | apply only_locWrite | apply only_sramWrite
    | intro _ | split | exact subParts_trans (by decide) hs | exact within_mono (by with_unfolding_all rfl) hs

theorem only_stashDo (a : CellAt) (o : Op) (region layer : Nat) (store : Bool) (k : StashDir → Act s₀ Unit) (hk : ∀ x, Only ks (k x)) (hs : subParts [.regs, .hbm, .bench, .well, .host, .ecc, .ops, .reqs, .outs, .hosts, .cells, .crown] ks = true) :
    Only ks (stashDo a o region layer store k : Act s₀ Unit) := by
  unfold stashDo
  try dsimp only
  repeat'
    first
    | with_reducible
      first
      | apply only_bind | apply only_ite | apply hk | apply only_pure | apply only_st | apply only_skip | apply only_hbmRead
      | apply only_setCell | apply only_endOp | apply only_cellFault
    | intro _ | split | exact subParts_trans (by decide) hs

theorem only_stashSource (a : CellAt) (x : StashInstr) (o : Op) (k : List Byte → Act s₀ Unit) (hk : ∀ x, Only ks (k x)) (hs : subParts [.regs, .hbm, .bench, .well, .host, .sram, .ops, .reqs, .outs, .hosts, .cells, .crown] ks = true) :
    Only ks (stashSource a x o k : Act s₀ Unit) := by
  unfold stashSource
  try dsimp only
  repeat'
    first
    | with_reducible
      first
      | apply only_bind | apply only_ite | apply hk | apply only_pure | apply only_st | apply only_skip | apply only_emit
      | apply only_benchGet | apply only_readTiled
    | intro _ | split | exact subParts_trans (by decide) hs | exact within_nonce

theorem only_stashPost (o : Op) (l : List (Nat × List Byte)) (hs : subParts [.regs, .hbm, .bench, .well, .host, .ecc, .ops, .reqs, .outs, .hosts, .cells, .crown] ks = true) :
    Only ks (stashPost o l : Act s₀ Unit) := by
  unfold stashPost
  try dsimp only
  repeat'
    first
    | with_reducible
      first
      | apply only_bind | apply only_ite | apply only_pure | apply only_st | apply only_skip | apply only_foldA
      | apply only_hbmWrite | apply only_endOp | apply only_wrote
    | intro _ | split | exact subParts_trans (by decide) hs

theorem only_stashPut (a : CellAt) (x : StashInstr) (base : Nat) (e : StashDir) (b : List Byte) (hs : subParts [.hbm, .bench, .well, .sram] ks = true) :
    Only ks (stashPut a x base e b : Act s₀ Unit) := by
  unfold stashPut
  try dsimp only
  repeat'
    first
    | with_reducible
      first
      | apply only_bind | apply only_ite | apply only_pure | apply only_st | apply only_skip | apply only_locSmear
      | apply only_benchPut
    | intro _ | split | exact subParts_trans (by decide) hs

theorem only_wellDo (a : CellAt) (o : Op) (slot first n prod : Nat) (k : Act s₀ Unit) (hk : Only ks k) (hs : subParts [.regs, .hbm, .bench, .well, .host, .ops, .reqs, .cells] ks = true) :
    Only ks (wellDo a o slot first n prod k : Act s₀ Unit) := by
  unfold wellDo
  try dsimp only
  repeat'
    first
    | with_reducible
      first
      | apply only_bind | apply only_ite | apply hk | apply only_pure | apply only_st | apply only_skip | apply only_bump
      | apply only_endOp | apply only_cellFault
    | intro _ | split | exact subParts_trans (by decide) hs

theorem only_wellPut (a : CellAt) (o : Op) (slot prod lo : Nat) (cs : List Nat) (hs : subParts [.regs, .hbm, .bench, .well, .host, .ecc, .sram, .ops, .outs, .hosts, .crown] ks = true) :
    Only ks (wellPut a o slot prod lo cs : Act s₀ Nat) := by
  unfold wellPut
  try dsimp only
  repeat'
    first
    | with_reducible
      first
      | apply only_bind | apply only_ite | apply only_pure | apply only_st | apply only_skip | apply only_each
      | apply only_emit | apply only_regSet | apply only_wrote | apply only_slotWrite
    | intro _ | split | exact subParts_trans (by decide) hs | exact within_mono (within_mono (within_memOf ..) (by decide)) hs | exact within_mono (by with_unfolding_all rfl) hs

theorem only_wgradBlock (a : CellAt) (x : WgradInstr) (o : Op) (va vb : OpData) (b : Blk) (hs : subParts [.regs, .hbm, .bench, .well, .host, .ecc, .sram, .ops, .outs, .hosts, .crown] ks = true) :
    Only ks (wgradBlock a x o va vb b : Act s₀ Nat) := by
  unfold wgradBlock
  try dsimp only
  repeat'
    first
    | with_reducible
      first
      | apply only_bind | apply only_ite | apply only_pure | apply only_st | apply only_skip | apply only_mapA
      | apply only_foldA | apply only_emit | apply only_bump | apply only_slotRead | apply only_wellPut
    | intro _ | split | exact subParts_trans (by decide) hs | exact within_nonce

end Sys2Proof.Laws
end

