-- ==== Sys2Proof/Laws/Foot/ColBase.lean ====
section
/-! SUPPORT. The parts of the state that each operation of Machine/ColBase.lean can touch. -/

namespace Sys2Proof.Laws

open Machine

variable {s₀ : State} {ks : List Part}

theorem only_bktSmear (g b : Nat) (hs : subParts [.hbm, .bench, .well] ks = true) :
    Only ks (bktSmear g b : Act s₀ Unit) := by
  unfold bktSmear
  try dsimp only
  repeat'
    first
    | with_reducible
      first
      | apply only_bind | apply only_ite | apply only_pure | apply only_st | apply only_skip | apply only_each
      | apply only_locSmear
    | intro _ | split | exact subParts_trans (by decide) hs

theorem only_colFail (g status : Nat) (hs : subParts [.hbm, .bench, .well, .host, .ops, .reqs, .cells, .col] ks = true) :
    Only ks (colFail g status : Act s₀ Unit) := by
  unfold colFail
  try dsimp only
  repeat'
    first
    | with_reducible
      first
      | apply only_bind | apply only_ite | apply only_pure | apply only_st | apply only_skip | apply only_each
      | apply only_modCol | apply only_endOp | apply only_bktSmear
    | intro _ | split | exact subParts_trans (by decide) hs

end Sys2Proof.Laws
end

