-- ==== Sys2Proof/Laws/Foot/Faults.lean ====
section
/-! SUPPORT. The parts of the state that each operation of Machine/Faults.lean can touch. -/

namespace Sys2Proof.Laws

open Machine

variable {s₀ : State} {ks : List Part}

theorem only_fltEnter (f : FabFault) (hs : subParts [.regs] ks = true) :
    Only ks (fltEnter f : Act s₀ Unit) := by
  unfold fltEnter
  try dsimp only
  repeat'
    first
    | with_reducible
      first
      | apply only_bind | apply only_ite | apply only_pure | apply only_st | apply only_skip | apply only_regSet
      | apply only_regFld
    | intro _ | split | exact subParts_trans (by decide) hs

theorem only_reqLost (q : Req) (hs : subParts [.regs, .priv, .hbm, .bench, .well, .host, .sram, .esc, .ops, .reqs, .outs, .hosts, .tbl, .sac, .cells, .schDue, .lpe, .rte, .links, .peers, .qps, .clb, .crown] ks = true) :
    Only ks (reqLost q : Act s₀ Unit) := by
  unfold reqLost
  try dsimp only
  repeat'
    first
    | with_reducible
      first
      | apply only_bind | apply only_ite | apply only_pure | apply only_st | apply only_skip | apply only_reqFail
    | intro _ | split | exact subParts_trans (by decide) hs

theorem only_fltEnds (f : FabFault) (hs : subParts [.regs, .priv, .hbm, .bench, .well, .host, .sram, .esc, .ops, .reqs, .outs, .hosts, .tbl, .sac, .cells, .schDue, .lpe, .col, .rte, .links, .peers, .qps, .clb, .crown] ks = true) :
    Only ks (fltEnds f : Act s₀ Unit) := by
  unfold fltEnds
  try dsimp only
  repeat'
    first
    | with_reducible
      first
      | apply only_bind | apply only_ite | apply only_pure | apply only_st | apply only_skip | apply only_each
      | apply only_oldTouch | apply only_colFail | apply only_reqLost
    | intro _ | split | exact subParts_trans (by decide) hs

theorem only_fltSend (f : FabFault) (p : Nat) (hs : subParts [.outs] ks = true) :
    Only ks (fltSend f p : Act s₀ Unit) := by
  unfold fltSend
  try dsimp only
  repeat'
    first
    | with_reducible
      first
      | apply only_bind | apply only_ite | apply only_pure | apply only_st | apply only_skip | apply only_send
    | intro _ | split | exact subParts_trans (by decide) hs

theorem only_fltNew (f : FabFault) (from_ : Option Nat) (hs : subParts [.regs, .priv, .hbm, .bench, .well, .host, .sram, .esc, .ops, .reqs, .outs, .hosts, .tbl, .sac, .cells, .schDue, .lpe, .col, .rte, .links, .peers, .qps, .clb, .crown] ks = true) :
    Only ks (fltNew f from_ : Act s₀ Unit) := by
  unfold fltNew
  try dsimp only
  repeat'
    first
    | with_reducible
      first
      | apply only_bind | apply only_ite | apply only_pure | apply only_st | apply only_skip | apply only_each
      | apply only_logFault | apply only_modRte | apply only_fltEnter | apply only_fltEnds | apply only_fltSend
    | intro _ | split | exact subParts_trans (by decide) hs

theorem only_fltRaise (kind chip dir group word0 word3 : Nat) (hs : subParts [.regs, .priv, .hbm, .bench, .well, .host, .sram, .esc, .ops, .reqs, .outs, .hosts, .tbl, .sac, .cells, .schDue, .lpe, .col, .rte, .links, .peers, .qps, .clb, .crown] ks = true) :
    Only ks (fltRaise kind chip dir group word0 word3 : Act s₀ Unit) := by
  unfold fltRaise
  try dsimp only
  repeat'
    first
    | with_reducible
      first
      | apply only_bind | apply only_ite | apply only_pure | apply only_st | apply only_skip | apply only_modRte
      | apply only_fltNew
    | intro _ | split | exact subParts_trans (by decide) hs

theorem only_fltGroup (g : Nat) (hs : subParts [.regs, .priv, .hbm, .bench, .well, .host, .sram, .esc, .ops, .reqs, .outs, .hosts, .tbl, .sac, .cells, .schDue, .lpe, .col, .rte, .links, .peers, .qps, .clb, .crown] ks = true) :
    Only ks (fltGroup g : Act s₀ Unit) := by
  unfold fltGroup
  try dsimp only
  repeat'
    first
    | with_reducible
      first
      | apply only_bind | apply only_ite | apply only_pure | apply only_st | apply only_skip | apply only_fltRaise
    | intro _ | split | exact subParts_trans (by decide) hs

end Sys2Proof.Laws
end

