-- ==== Sys2Proof/Laws/Foot/Uit.lean ====
section
/-! SUPPORT. The parts of the state that each operation of Machine/Uit.lean can touch. -/

namespace Sys2Proof.Laws

open Machine

variable {s₀ : State} {ks : List Part}

theorem only_uitClear (n : Nat) (hs : subParts [.sac] ks = true) :
    Only ks (uitClear n : Act s₀ Unit) := by
  unfold uitClear
  try dsimp only
  repeat'
    first
    | with_reducible
      first
      | apply only_bind | apply only_ite | apply only_pure | apply only_st | apply only_skip | apply only_modSac
    | intro _ | split | exact subParts_trans (by decide) hs

theorem only_uitPass (r : OpRef) (n : Nat) (left : Nat) (hs : subParts [.ops, .sac] ks = true) :
    Only ks (uitPass r n left : Act s₀ Bool) := by
  induction n generalizing left with
  | zero =>
    unfold uitPass
    try dsimp only
    repeat'
        first
        | with_reducible
          first
          | apply only_bind | apply only_ite | apply only_pure | apply only_st | apply only_skip
          | apply only_modOp | apply only_uitClear
        | intro _ | split | exact subParts_trans (by decide) hs
  | succ _ ih =>
    unfold uitPass
    try dsimp only
    repeat'
        first
        | with_reducible
          first
          | apply ih | apply only_bind | apply only_ite | apply only_pure | apply only_st | apply only_skip
          | apply only_modOp | apply only_uitClear
        | intro _ | split | exact subParts_trans (by decide) hs

theorem only_uitDrop  (hs : subParts [.sac] ks = true) :
    Only ks (uitDrop  : Act s₀ Unit) := by
  unfold uitDrop
  try dsimp only
  repeat'
    first
    | with_reducible
      first
      | apply only_bind | apply only_ite | apply only_pure | apply only_st | apply only_skip | apply only_modSac
    | intro _ | split | exact subParts_trans (by decide) hs

end Sys2Proof.Laws
end

