-- ==== Sys2Proof/Laws/Foot/Sac.lean ====
section
/-! SUPPORT. The parts of the state that each operation of Machine/Sac.lean can touch. -/

namespace Sys2Proof.Laws

open Machine

variable {s₀ : State} {ks : List Part}

theorem only_setCtx (c : Nat) (x : SacCtx) (hs : subParts [.sac] ks = true) :
    Only ks (setCtx c x : Act s₀ Unit) := by
  unfold setCtx
  try dsimp only
  repeat'
    first
    | with_reducible
      first
      | apply only_bind | apply only_ite | apply only_pure | apply only_st | apply only_skip | apply only_modSac
    | intro _ | split | exact subParts_trans (by decide) hs

theorem only_spillOut (c t r : Nat) (xs : List XSum) (bad : Bool) (hs : subParts [.regs, .hbm, .ecc, .outs, .hosts, .sac, .crown] ks = true) :
    Only ks (spillOut c t r xs bad : Act s₀ Unit) := by
  unfold spillOut
  try dsimp only
  repeat'
    first
    | with_reducible
      first
      | apply only_bind | apply only_ite | apply only_pure | apply only_st | apply only_skip | apply only_each
      | apply only_bump64 | apply only_hbmWrite | apply only_setCtx
    | intro _ | split | exact subParts_trans (by decide) hs

theorem only_spillAll  (hs : subParts [.regs, .hbm, .ecc, .outs, .hosts, .sac, .crown] ks = true) :
    Only ks (spillAll  : Act s₀ Unit) := by
  unfold spillAll
  try dsimp only
  repeat'
    first
    | with_reducible
      first
      | apply only_bind | apply only_ite | apply only_pure | apply only_st | apply only_skip | apply only_each
      | apply only_modSac | apply only_spillOut
    | intro _ | split | exact subParts_trans (by decide) hs

theorem only_sacRoom (n bank set : Nat) (hs : subParts [.regs, .hbm, .ecc, .outs, .hosts, .sac, .crown] ks = true) :
    Only ks (sacRoom n bank set : Act s₀ Bool) := by
  unfold sacRoom
  try dsimp only
  repeat'
    first
    | with_reducible
      first
      | apply only_bind | apply only_ite | apply only_pure | apply only_st | apply only_skip | apply only_modSac
      | apply only_spillOut
    | intro _ | split | exact subParts_trans (by decide) hs

theorem only_sacAlloc (e : SacEnt) (hs : subParts [.regs, .hbm, .ecc, .outs, .hosts, .sac, .crown] ks = true) :
    Only ks (sacAlloc e : Act s₀ Unit) := by
  unfold sacAlloc
  try dsimp only
  repeat'
    first
    | with_reducible
      first
      | apply only_bind | apply only_ite | apply only_pure | apply only_st | apply only_skip | apply only_modSac
      | apply only_spillOut | apply only_sacRoom
    | intro _ | split | exact subParts_trans (by decide) hs

theorem only_sacPut (e : SacEnt) (hs : subParts [.sac] ks = true) :
    Only ks (sacPut e : Act s₀ Unit) := by
  unfold sacPut
  try dsimp only
  repeat'
    first
    | with_reducible
      first
      | apply only_bind | apply only_ite | apply only_pure | apply only_st | apply only_skip | apply only_modSac
    | intro _ | split | exact subParts_trans (by decide) hs

theorem only_sacSplit (e : SacEnt) (hs : subParts [.regs, .hbm, .ecc, .outs, .hosts, .sac, .crown] ks = true) :
    Only ks (sacSplit e : Act s₀ Unit) := by
  unfold sacSplit
  try dsimp only
  repeat'
    first
    | with_reducible
      first
      | apply only_bind | apply only_ite | apply only_pure | apply only_st | apply only_skip | apply only_each
      | apply only_bump | apply only_sacAlloc | apply only_sacPut
    | intro _ | split | exact subParts_trans (by decide) hs

theorem only_sacInto (c t r bank : Nat) (xs : List XSum) (hs : subParts [.regs, .hbm, .ecc, .outs, .hosts, .sac, .crown] ks = true) :
    Only ks (sacInto c t r bank xs : Act s₀ Unit) := by
  unfold sacInto
  try dsimp only
  repeat'
    first
    | with_reducible
      first
      | apply only_bind | apply only_ite | apply only_pure | apply only_st | apply only_skip | apply only_sacAlloc
      | apply only_sacPut
    | intro _ | split | exact subParts_trans (by decide) hs

theorem only_sacTake (c t r : Nat) (xs : List XSum) (hs : subParts [.regs, .hbm, .ecc, .outs, .hosts, .sac, .crown] ks = true) :
    Only ks (sacTake c t r xs : Act s₀ Unit) := by
  unfold sacTake
  try dsimp only
  repeat'
    first
    | with_reducible
      first
      | apply only_bind | apply only_ite | apply only_pure | apply only_st | apply only_skip | apply only_sacPut
      | apply only_sacSplit | apply only_sacInto
    | intro _ | split | exact subParts_trans (by decide) hs

theorem only_sacAdd (c t r : Nat) (g : List Nat) (hs : subParts [.regs, .hbm, .bench, .well, .host, .ecc, .ops, .reqs, .outs, .hosts, .tbl, .sac, .cells, .rte, .crown] ks = true) :
    Only ks (sacAdd c t r g : Act s₀ Unit) := by
  unfold sacAdd
  try dsimp only
  repeat'
    first
    | with_reducible
      first
      | apply only_bind | apply only_ite | apply only_pure | apply only_st | apply only_skip | apply only_cancelMoves
      | apply only_setCtx | apply only_spillOut | apply only_spillAll | apply only_sacTake
    | intro _ | split | exact subParts_trans (by decide) hs

theorem only_mergeRoom (hashes : List Nat) (n : Nat) (hs : subParts [.regs, .hbm, .ecc, .outs, .hosts, .sac, .crown] ks = true) :
    Only ks (mergeRoom hashes n : Act s₀ Unit) := by
  unfold mergeRoom
  try dsimp only
  repeat'
    first
    | with_reducible
      first
      | apply only_bind | apply only_ite | apply only_pure | apply only_st | apply only_skip | apply only_each
      | apply only_spillAll | apply only_sacRoom
    | intro _ | split | exact subParts_trans (by decide) hs

end Sys2Proof.Laws
end

