-- ==== Sys2Proof/Laws/Foot/Gather.lean ====
section
/-! SUPPORT. The parts of the state that each operation of Machine/Gather.lean can touch. -/

namespace Sys2Proof.Laws

open Machine

variable {s₀ : State} {ks : List Part}

theorem only_admGather (o : Op) (hs : subParts [.ops] ks = true) :
    Only ks (admGather o : Act s₀ Adm) := by
  unfold admGather
  try dsimp only
  repeat'
    first
    | with_reducible
      first
      | apply only_bind | apply only_ite | apply only_pure | apply only_st | apply only_skip | apply only_setRegion
      | apply only_captureTbl
    | intro _ | split | exact subParts_trans (by decide) hs

theorem only_readRows (t : Nat) (d : TDesc) (b : Bool) (who : Option Who) (rs : List Nat) (hs : subParts [.regs, .ecc, .outs, .hosts, .crown] ks = true) :
    OnlyT ks (readRows t d b who rs : Try s₀ (List (Nat × List Byte))) := by
  unfold readRows
  try dsimp only
  repeat'
    first
    | with_reducible
      first
      | apply onlyT_bind | apply onlyT_ite | apply onlyT_attempt | apply onlyT_lift | apply only_bind | apply only_ite
      | apply only_pure | apply only_st | apply only_skip | apply onlyT_pure | apply onlyT_stop | apply onlyT_mapM
      | apply only_readRow
    | intro _ | split | exact subParts_trans (by decide) hs

theorem only_gthRequests (o : Op) (t : Nat) (d : TDesc) (agg : Nat) (es : List (Nat × PEnt)) (hs : subParts [.reqs, .outs, .rte] ks = true) :
    Only ks (gthRequests o t d agg es : Act s₀ Nat) := by
  unfold gthRequests
  try dsimp only
  repeat'
    first
    | with_reducible
      first
      | apply only_bind | apply only_ite | apply only_pure | apply only_st | apply only_skip | apply only_foldA
      | apply only_request
    | intro _ | split | exact subParts_trans (by decide) hs

theorem only_gthWrite (o : Op) (d : TDesc) (w : PoolWork) (hs : subParts [.regs, .hbm, .bench, .well, .host, .ecc, .ops, .reqs, .outs, .hosts, .tbl, .cells, .rte, .crown] ks = true) :
    Only ks (gthWrite o d w : Act s₀ Unit) := by
  unfold gthWrite
  try dsimp only
  repeat'
    first
    | with_reducible
      first
      | apply only_bind | apply only_ite | apply only_pure | apply only_st | apply only_skip | apply only_foldA
      | apply only_endOp | apply only_finish | apply only_deliver
    | intro _ | split | exact subParts_trans (by decide) hs

theorem only_gthEnd (o : Op) (d : TDesc) (w : OpWork) (hs : subParts [.regs, .hbm, .bench, .well, .host, .ecc, .ops, .reqs, .outs, .hosts, .tbl, .cells, .rte, .crown] ks = true) :
    Only ks (gthEnd o d w : Act s₀ Unit) := by
  unfold gthEnd
  try dsimp only
  repeat'
    first
    | with_reducible
      first
      | apply only_bind | apply only_ite | apply only_pure | apply only_st | apply only_skip | apply only_gthWrite
    | intro _ | split | exact subParts_trans (by decide) hs

theorem only_gthStart (o : Op) (d : TDesc) (idx so ws : List Nat) (held : List Nat) (rounds : Nat) (hs : subParts [.regs, .hbm, .bench, .well, .host, .ecc, .ops, .reqs, .outs, .hosts, .tbl, .sac, .cells, .rte, .crown] ks = true) :
    Only ks (gthStart o d idx so ws held rounds : Act s₀ Unit) := by
  unfold gthStart
  try dsimp only
  repeat'
    first
    | with_reducible
      first
      | apply only_bind | apply only_ite | apply only_pure | apply only_st | apply only_skip | apply only_each
      | apply only_bump | apply only_bump64 | apply only_modOp | apply only_endOp | apply only_useRow | apply only_countLoad
      | apply only_mergeRoom | apply only_readRows | apply onlyT_run | apply only_gthRequests | apply only_gthWrite
    | intro _ | split | exact subParts_trans (by decide) hs

theorem only_gthRounds (o : Op) (d : TDesc) (idx so ws held : List Nat) (hs : subParts [.regs, .hbm, .bench, .well, .host, .ecc, .ops, .reqs, .outs, .hosts, .tbl, .sac, .cells, .rte, .crown] ks = true) :
    Only ks (gthRounds o d idx so ws held : Act s₀ Unit) := by
  unfold gthRounds
  try dsimp only
  repeat'
    first
    | with_reducible
      first
      | apply only_bind | apply only_ite | apply only_pure | apply only_st | apply only_skip | apply only_modOp
      | apply only_endOp | apply only_endClean | apply only_waitRes | apply only_mapChks | apply only_uitPass
      | apply only_gthStart
    | intro _ | split | exact subParts_trans (by decide) hs

theorem only_gatherGo (r : OpRef) (hs : subParts [.regs, .hbm, .bench, .well, .host, .ecc, .ops, .reqs, .outs, .hosts, .tbl, .sac, .cells, .rte, .crown] ks = true) :
    Only ks (gatherGo r : Act s₀ Unit) := by
  unfold gatherGo
  try dsimp only
  repeat'
    first
    | with_reducible
      first
      | apply only_bind | apply only_ite | apply only_pure | apply only_st | apply only_skip | apply only_putOp
      | apply only_modOp | apply only_endOp | apply only_endClean | apply only_waitRes | apply only_fetch
      | apply only_uitDrop | apply only_gthEnd | apply only_gthRounds
    | intro _ | split | exact subParts_trans (by decide) hs

theorem only_servePool (v : Via) (pk : Packet) (q : PoolReq) (hs : subParts [.regs, .ecc, .reqs, .outs, .hosts, .tbl, .rte, .links, .peers, .crown] ks = true) :
    Only ks (servePool v pk q : Act s₀ Unit) := by
  unfold servePool
  try dsimp only
  repeat'
    first
    | with_reducible
      first
      | apply only_bind | apply only_ite | apply only_pure | apply only_st | apply only_skip | apply only_each
      | apply only_emit | apply only_bump | apply only_bump64 | apply only_relayReq | apply only_answer | apply only_refuse
      | apply only_refuseV | apply only_useRow | apply only_mapChks | apply only_countLoad | apply only_forward
      | apply only_redirect | apply only_parkPk | apply only_readRows | apply onlyT_run
    | intro _ | split | exact subParts_trans (by decide) hs | exact within_nonce

end Sys2Proof.Laws
end

