-- ==== Sys2Proof/Laws/Foot/Regulator.lean ====
section
/-! SUPPORT. The parts of the state that each operation of Machine/Regulator.lean can touch. -/

namespace Sys2Proof.Laws

open Machine

variable {s₀ : State} {ks : List Part}

theorem only_schTake (g : Nat) (eta lam : Word) (hs : subParts [.ops] ks = true) :
    Only ks (schTake g eta lam : Act s₀ Unit) := by
  unfold schTake
  try dsimp only
  repeat'
    first
    | with_reducible
      first
      | apply only_bind | apply only_ite | apply only_pure | apply only_st | apply only_skip | apply only_emit
      | apply only_waitRes
    | intro _ | split | exact subParts_trans (by decide) hs | exact within_mono (by with_unfolding_all rfl) hs

end Sys2Proof.Laws
end

