-- ==== Sys2Proof/Laws/Foot/Scatter.lean ====
section
/-! SUPPORT. The parts of the state that each operation of Machine/Scatter.lean can touch. -/

namespace Sys2Proof.Laws

open Machine

variable {s₀ : State} {ks : List Part}

theorem only_admScatter (o : Op) (hs : subParts [.ops] ks = true) :
    Only ks (admScatter o : Act s₀ Adm) := by
  unfold admScatter
  try dsimp only
  repeat'
    first
    | with_reducible
      first
      | apply only_bind | apply only_ite | apply only_pure | apply only_st | apply only_skip | apply only_each
      | apply only_setRegion | apply only_captureTbl
    | intro _ | split | exact subParts_trans (by decide) hs

theorem only_spillRead (c : Nat) (x : SacCtx) (p : Spill) (who : Option Who) (hs : subParts [.regs, .ecc, .outs, .hosts, .crown] ks = true) :
    Only ks (spillRead c x p who : Act s₀ (Option (List XSum))) := by
  unfold spillRead
  try dsimp only
  repeat'
    first
    | with_reducible
      first
      | apply only_bind | apply only_ite | apply only_pure | apply only_st | apply only_skip | apply only_mapA
      | apply only_hbmRead
    | intro _ | split | exact subParts_trans (by decide) hs

theorem only_retireRow (o : Op) (t : Touched) (hs : subParts [.regs, .hbm, .ecc, .outs, .hosts, .tbl, .crown] ks = true) :
    Only ks (retireRow o t : Act s₀ Nat) := by
  unfold retireRow
  try dsimp only
  repeat'
    first
    | with_reducible
      first
      | apply only_bind | apply only_ite | apply only_pure | apply only_st | apply only_skip | apply only_readRow
      | apply only_writeRow | apply only_countLoad
    | intro _ | split | exact subParts_trans (by decide) hs

theorem only_freeCtx (c : Nat) (hs : subParts [.sac] ks = true) :
    Only ks (freeCtx c : Act s₀ Unit) := by
  unfold freeCtx
  try dsimp only
  repeat'
    first
    | with_reducible
      first
      | apply only_bind | apply only_ite | apply only_pure | apply only_st | apply only_skip | apply only_modSac
      | apply only_setCtx
    | intro _ | split | exact subParts_trans (by decide) hs

theorem only_retirePass (o : Op) (hs : subParts [.regs, .hbm, .bench, .well, .host, .ecc, .ops, .reqs, .outs, .hosts, .tbl, .sac, .cells, .lpe, .rte, .crown] ks = true) :
    Only ks (retirePass o : Act s₀ Unit) := by
  unfold retirePass
  try dsimp only
  repeat'
    first
    | with_reducible
      first
      | apply only_bind | apply only_ite | apply only_pure | apply only_st | apply only_skip | apply only_each
      | apply only_foldA | apply only_emit | apply only_endOp | apply only_lpeCount | apply only_finish | apply only_deliver
      | apply only_spillRead | apply only_retireRow | apply only_freeCtx
    | intro _ | split | exact subParts_trans (by decide) hs | exact within_nonce

theorem only_retire (o : Op) (hs : subParts [.regs, .hbm, .bench, .well, .host, .ecc, .ops, .reqs, .outs, .hosts, .tbl, .sac, .cells, .lpe, .rte, .crown] ks = true) :
    Only ks (retire o : Act s₀ Unit) := by
  unfold retire
  try dsimp only
  repeat'
    first
    | with_reducible
      first
      | apply only_bind | apply only_ite | apply only_pure | apply only_st | apply only_skip | apply only_putOp
      | apply only_freeCells | apply only_endOp | apply only_endClean | apply only_waitRes | apply only_setCtx
      | apply only_spillAll | apply only_freeCtx | apply only_retirePass
    | intro _ | split | exact subParts_trans (by decide) hs

theorem only_scContribute (o : Op) (d : TDesc) (gs : List (Nat × List Nat)) (hs : subParts [.regs, .hbm, .bench, .well, .host, .ecc, .ops, .reqs, .outs, .hosts, .tbl, .sac, .cells, .rte, .crown] ks = true) :
    Only ks (scContribute o d gs : Act s₀ Nat) := by
  unfold scContribute
  try dsimp only
  repeat'
    first
    | with_reducible
      first
      | apply only_bind | apply only_ite | apply only_pure | apply only_st | apply only_skip | apply only_foldA
      | apply only_request | apply only_useRow | apply only_sacAdd
    | intro _ | split | exact subParts_trans (by decide) hs

theorem only_scRounds (o : Op) (d : TDesc) (idx so : List Nat) (hs : subParts [.regs, .hbm, .bench, .well, .host, .ecc, .ops, .reqs, .outs, .hosts, .sac, .cells, .crown] ks = true) :
    Only ks (scRounds o d idx so : Act s₀ Bool) := by
  unfold scRounds
  try dsimp only
  repeat'
    first
    | with_reducible
      first
      | apply only_bind | apply only_ite | apply only_pure | apply only_st | apply only_skip | apply only_modOp
      | apply only_endClean | apply only_waitRes | apply only_mapChks | apply only_uitPass | apply only_uitDrop
    | intro _ | split | exact subParts_trans (by decide) hs

theorem only_scStart (o : Op) (ms : List EngMiss) (d : TDesc) (bi bs bg bw : List Byte) (hs : subParts [.regs, .hbm, .bench, .well, .host, .ecc, .ops, .reqs, .outs, .hosts, .tbl, .sac, .cells, .rte, .crown] ks = true) :
    Only ks (scStart o ms d bi bs bg bw : Act s₀ Unit) := by
  unfold scStart
  try dsimp only
  repeat'
    first
    | with_reducible
      first
      | apply only_bind | apply only_ite | apply only_pure | apply only_st | apply only_skip | apply only_emit
      | apply only_setCell | apply only_putOp | apply only_endOp | apply only_waitRes | apply only_engMiss
      | apply only_scContribute | apply only_scRounds
    | intro _ | split | exact subParts_trans (by decide) hs | exact within_mono (by with_unfolding_all rfl) hs

theorem only_scatterGo (r : OpRef) (ms : List EngMiss) (hs : subParts [.regs, .hbm, .bench, .well, .host, .ecc, .ops, .reqs, .outs, .hosts, .tbl, .sac, .cells, .lpe, .rte, .crown] ks = true) :
    Only ks (scatterGo r ms : Act s₀ Unit) := by
  unfold scatterGo
  try dsimp only
  repeat'
    first
    | with_reducible
      first
      | apply only_bind | apply only_ite | apply only_pure | apply only_st | apply only_skip | apply only_putOp
      | apply only_endOp | apply only_waitRes | apply only_fetch | apply only_retirePass | apply only_retire
      | apply only_scStart
    | intro _ | split | exact subParts_trans (by decide) hs

theorem only_serveContrib (v : Via) (pk : Packet) (c t r : Nat) (g : List Nat) (hs : subParts [.regs, .hbm, .bench, .well, .host, .ecc, .ops, .reqs, .outs, .hosts, .tbl, .sac, .cells, .rte, .links, .peers, .crown] ks = true) :
    Only ks (serveContrib v pk c t r g : Act s₀ Unit) := by
  unfold serveContrib
  try dsimp only
  repeat'
    first
    | with_reducible
      first
      | apply only_bind | apply only_ite | apply only_pure | apply only_st | apply only_skip | apply only_refuseV
      | apply only_rowServe | apply only_ackRow | apply only_sacAdd
    | intro _ | split | exact subParts_trans (by decide) hs

end Sys2Proof.Laws
end

