-- ==== Sys2Proof/Laws/Foot/Stitch.lean ====
section
/-! SUPPORT. The parts of the state that each operation of Machine/Stitch.lean can touch. -/

namespace Sys2Proof.Laws

open Machine

variable {s₀ : State} {ks : List Part}

theorem only_putBk (x : ColBk) (hs : subParts [.col] ks = true) :
    Only ks (putBk x : Act s₀ Unit) := by
  unfold putBk
  try dsimp only
  repeat'
    first
    | with_reducible
      first
      | apply only_bind | apply only_ite | apply only_pure | apply only_st | apply only_skip | apply only_modCol
    | intro _ | split | exact subParts_trans (by decide) hs

theorem only_colSeen (g : Nat) (step : Word) (hs : subParts [.col] ks = true) :
    Only ks (colSeen g step : Act s₀ Unit) := by
  unfold colSeen
  try dsimp only
  repeat'
    first
    | with_reducible
      first
      | apply only_bind | apply only_ite | apply only_pure | apply only_st | apply only_skip | apply only_modCol
    | intro _ | split | exact subParts_trans (by decide) hs

theorem only_bkOpen (g b : Nat) (step : Word) (hs : subParts [.col] ks = true) :
    Only ks (bkOpen g b step : Act s₀ Unit) := by
  unfold bkOpen
  try dsimp only
  repeat'
    first
    | with_reducible
      first
      | apply only_bind | apply only_ite | apply only_pure | apply only_st | apply only_skip | apply only_modCol
      | apply only_colSeen
    | intro _ | split | exact subParts_trans (by decide) hs

theorem only_grantSend (key : ColKey) (n : Nat) (hs : subParts [.outs] ks = true) :
    Only ks (grantSend key n : Act s₀ Unit) := by
  unfold grantSend
  try dsimp only
  repeat'
    first
    | with_reducible
      first
      | apply only_bind | apply only_ite | apply only_pure | apply only_st | apply only_skip | apply only_send
    | intro _ | split | exact subParts_trans (by decide) hs

theorem only_credAdd (key : ColKey) (n : Nat) (hs : subParts [.col] ks = true) :
    Only ks (credAdd key n : Act s₀ Unit) := by
  unfold credAdd
  try dsimp only
  repeat'
    first
    | with_reducible
      first
      | apply only_bind | apply only_ite | apply only_pure | apply only_st | apply only_skip | apply only_modCol
    | intro _ | split | exact subParts_trans (by decide) hs

theorem only_credTake (key : ColKey) (hs : subParts [.col] ks = true) :
    Only ks (credTake key : Act s₀ Unit) := by
  unfold credTake
  try dsimp only
  repeat'
    first
    | with_reducible
      first
      | apply only_bind | apply only_ite | apply only_pure | apply only_st | apply only_skip | apply only_modCol
    | intro _ | split | exact subParts_trans (by decide) hs

theorem only_stitchSend (key : ColKey) (j off seq tot : Nat) (p : StitchPfx) (cs : List Nat) (hs : subParts [.regs, .outs, .col] ks = true) :
    Only ks (stitchSend key j off seq tot p cs : Act s₀ Unit) := by
  unfold stitchSend
  try dsimp only
  repeat'
    first
    | with_reducible
      first
      | apply only_bind | apply only_ite | apply only_pure | apply only_st | apply only_skip | apply only_bump64
      | apply only_send | apply only_credTake
    | intro _ | split | exact subParts_trans (by decide) hs

theorem only_ctxOpen (key : ColKey) (hs : subParts [.outs, .col] ks = true) :
    Only ks (ctxOpen key : Act s₀ Unit) := by
  unfold ctxOpen
  try dsimp only
  repeat'
    first
    | with_reducible
      first
      | apply only_bind | apply only_ite | apply only_pure | apply only_st | apply only_skip | apply only_modCol
      | apply only_grantSend
    | intro _ | split | exact subParts_trans (by decide) hs

theorem only_slotFreed (key : ColKey) (hs : subParts [.outs, .col] ks = true) :
    Only ks (slotFreed key : Act s₀ Unit) := by
  unfold slotFreed
  try dsimp only
  repeat'
    first
    | with_reducible
      first
      | apply only_bind | apply only_ite | apply only_pure | apply only_st | apply only_skip | apply only_modCol
      | apply only_grantSend
    | intro _ | split | exact subParts_trans (by decide) hs

theorem only_ctxClose (c : ColCtx) (hs : subParts [.outs, .col] ks = true) :
    Only ks (ctxClose c : Act s₀ Unit) := by
  unfold ctxClose
  try dsimp only
  repeat'
    first
    | with_reducible
      first
      | apply only_bind | apply only_ite | apply only_pure | apply only_st | apply only_skip | apply only_modCol
      | apply only_grantSend
    | intro _ | split | exact subParts_trans (by decide) hs

theorem only_wellTake (slot lo n : Nat) (who : Option Who) (hs : subParts [.regs, .hbm, .bench, .well, .ecc, .sram, .outs, .hosts, .crown] ks = true) :
    Only ks (wellTake slot lo n who : Act s₀ (List Nat × Bool)) := by
  unfold wellTake
  try dsimp only
  repeat'
    first
    | with_reducible
      first
      | apply only_bind | apply only_ite | apply only_pure | apply only_st | apply only_skip | apply only_slotRead
      | apply only_slotWrite
    | intro _ | split | exact subParts_trans (by decide) hs

theorem only_takeTerm (x : ColBk) (k lo n : Nat) (hs : subParts [.regs, .hbm, .bench, .well, .ecc, .sram, .outs, .hosts, .crown] ks = true) :
    Only ks (takeTerm x k lo n : Act s₀ (List Nat × Bool)) := by
  unfold takeTerm
  try dsimp only
  repeat'
    first
    | with_reducible
      first
      | apply only_bind | apply only_ite | apply only_pure | apply only_st | apply only_skip | apply only_wellTake
    | intro _ | split | exact subParts_trans (by decide) hs

theorem only_halfOpen (x : ColBk) (k : Nat) (minus : Bool) (j : Nat) (late : Bool) (hs : subParts [.regs] ks = true) :
    Only ks (halfOpen x k minus j late : Act s₀ (ColBk × ColHalf)) := by
  unfold halfOpen
  try dsimp only
  repeat'
    first
    | with_reducible
      first
      | apply only_bind | apply only_ite | apply only_pure | apply only_st | apply only_skip | apply only_bump
    | intro _ | split | exact subParts_trans (by decide) hs

theorem only_verShard (g : Nat) (step : Word) (nf : Bool) (hs : subParts [.col] ks = true) :
    Only ks (verShard g step nf : Act s₀ Unit) := by
  unfold verShard
  try dsimp only
  repeat'
    first
    | with_reducible
      first
      | apply only_bind | apply only_ite | apply only_pure | apply only_st | apply only_skip | apply only_modCol
    | intro _ | split | exact subParts_trans (by decide) hs

theorem only_takeVerdict (g : Nat) (step : Word) (nf : Bool) (hs : subParts [.ops] ks = true) :
    Only ks (takeVerdict g step nf : Act s₀ Unit) := by
  unfold takeVerdict
  try dsimp only
  repeat'
    first
    | with_reducible
      first
      | apply only_bind | apply only_ite | apply only_pure | apply only_st | apply only_skip | apply only_each
      | apply only_putOp | apply only_waitRes
    | intro _ | split | exact subParts_trans (by decide) hs

theorem only_verGo (g : Nat) (step : Word) (n : Nat) (hs : subParts [.regs, .ops, .outs, .col] ks = true) :
    Only ks (verGo g step n : Act s₀ Unit) := by
  induction n with
  | zero =>
    unfold verGo
    try dsimp only
    repeat'
        first
        | with_reducible
          first
          | apply only_bind | apply only_ite | apply only_pure | apply only_st | apply only_skip
          | apply only_regSet | apply only_send | apply only_modCol | apply only_takeVerdict
        | intro _ | split | exact subParts_trans (by decide) hs
  | succ _ ih =>
    unfold verGo
    try dsimp only
    repeat'
        first
        | with_reducible
          first
          | apply ih | apply only_bind | apply only_ite | apply only_pure | apply only_st | apply only_skip
          | apply only_regSet | apply only_send | apply only_modCol | apply only_takeVerdict
        | intro _ | split | exact subParts_trans (by decide) hs

theorem only_bkEnd (x : ColBk) (hs : subParts [.regs, .hbm, .bench, .well, .host, .ops, .reqs, .cells, .col] ks = true) :
    Only ks (bkEnd x : Act s₀ Unit) := by
  unfold bkEnd
  try dsimp only
  repeat'
    first
    | with_reducible
      first
      | apply only_bind | apply only_ite | apply only_pure | apply only_st | apply only_skip | apply only_regSet
      | apply only_modOp | apply only_endOp | apply only_putBk
    | intro _ | split | exact subParts_trans (by decide) hs

theorem only_bkFinish (g b : Nat) (step : Word) (hs : subParts [.regs, .hbm, .bench, .well, .host, .ops, .reqs, .cells, .col] ks = true) :
    Only ks (bkFinish g b step : Act s₀ Unit) := by
  unfold bkFinish
  try dsimp only
  repeat'
    first
    | with_reducible
      first
      | apply only_bind | apply only_ite | apply only_pure | apply only_st | apply only_skip | apply only_modCol
      | apply only_bkEnd
    | intro _ | split | exact subParts_trans (by decide) hs

theorem only_shardDone (x : ColBk) (hs : subParts [.regs, .hbm, .bench, .well, .ecc, .ops, .outs, .hosts, .col, .crown] ks = true) :
    Only ks (shardDone x : Act s₀ Unit) := by
  unfold shardDone
  try dsimp only
  repeat'
    first
    | with_reducible
      first
      | apply only_bind | apply only_ite | apply only_pure | apply only_st | apply only_skip | apply only_bump
      | apply only_locWrite | apply only_putBk | apply only_verShard | apply only_verGo
    | intro _ | split | exact subParts_trans (by decide) hs

theorem only_ownerPhase (x : ColBk) (k : Nat) :
    Only ks (ownerPhase x k : Act s₀ ColBk) := by
  unfold ownerPhase
  try dsimp only
  repeat'
    first
    | with_reducible
      first
      | apply only_bind | apply only_ite | apply only_pure | apply only_st | apply only_skip
    | intro _ | split

theorem only_ownerTake (x : ColBk) (h : ColHalf) (off seq : Nat) (p : StitchPfx) (cs : List Nat) (hs : subParts [.regs, .hbm, .bench, .well, .ecc, .sram, .outs, .hosts, .lpe, .crown] ks = true) :
    Only ks (ownerTake x h off seq p cs : Act s₀ ColBk) := by
  unfold ownerTake
  try dsimp only
  repeat'
    first
    | with_reducible
      first
      | apply only_bind | apply only_ite | apply only_pure | apply only_st | apply only_skip | apply only_locWrite
      | apply only_lpeCount | apply only_takeTerm | apply only_ownerPhase
    | intro _ | split | exact subParts_trans (by decide) hs

theorem only_passTake (x : ColBk) (h : ColHalf) (key : ColKey) (off seq : Nat) (p : StitchPfx) (cs : List Nat) (hs : subParts [.regs, .hbm, .bench, .well, .ecc, .sram, .outs, .hosts, .col, .crown] ks = true) :
    Only ks (passTake x h key off seq p cs : Act s₀ ColBk) := by
  unfold passTake
  try dsimp only
  repeat'
    first
    | with_reducible
      first
      | apply only_bind | apply only_ite | apply only_pure | apply only_st | apply only_skip | apply only_stitchSend
      | apply only_takeTerm
    | intro _ | split | exact subParts_trans (by decide) hs

theorem only_originTake (x : ColBk) (h : ColHalf) (key : ColKey) (hs : subParts [.regs, .hbm, .bench, .well, .ecc, .sram, .outs, .hosts, .col, .crown] ks = true) :
    Only ks (originTake x h key : Act s₀ ColBk) := by
  unfold originTake
  try dsimp only
  repeat'
    first
    | with_reducible
      first
      | apply only_bind | apply only_ite | apply only_pure | apply only_st | apply only_skip | apply only_stitchSend
      | apply only_takeTerm
    | intro _ | split | exact subParts_trans (by decide) hs

theorem only_bkAfter (x : ColBk) (hs : subParts [.regs, .hbm, .bench, .well, .host, .ecc, .ops, .reqs, .outs, .hosts, .cells, .col, .crown] ks = true) :
    Only ks (bkAfter x : Act s₀ Unit) := by
  unfold bkAfter
  try dsimp only
  repeat'
    first
    | with_reducible
      first
      | apply only_bind | apply only_ite | apply only_pure | apply only_st | apply only_skip | apply only_putBk
      | apply only_bkFinish | apply only_shardDone
    | intro _ | split | exact subParts_trans (by decide) hs

theorem only_stitchTry (pk : Packet) (hs : subParts [.regs, .hbm, .bench, .well, .host, .ecc, .sram, .ops, .reqs, .outs, .hosts, .cells, .lpe, .col, .crown] ks = true) :
    Only ks (stitchTry pk : Act s₀ Bool) := by
  unfold stitchTry
  try dsimp only
  repeat'
    first
    | with_reducible
      first
      | apply only_bind | apply only_ite | apply only_pure | apply only_st | apply only_skip | apply only_putBk
      | apply only_slotFreed | apply only_halfOpen | apply only_ownerTake | apply only_passTake | apply only_bkAfter
    | intro _ | split | exact subParts_trans (by decide) hs

theorem only_originTry (g b : Nat) (step : Word) (k : Nat) (minus : Bool) (hs : subParts [.regs, .hbm, .bench, .well, .host, .ecc, .sram, .ops, .reqs, .outs, .hosts, .cells, .col, .crown] ks = true) :
    Only ks (originTry g b step k minus : Act s₀ Bool) := by
  unfold originTry
  try dsimp only
  repeat'
    first
    | with_reducible
      first
      | apply only_bind | apply only_ite | apply only_pure | apply only_st | apply only_skip | apply only_halfOpen
      | apply only_originTake | apply only_bkAfter
    | intro _ | split | exact subParts_trans (by decide) hs

theorem only_ctxTurn  (hs : subParts [.outs, .col] ks = true) :
    Only ks (ctxTurn  : Act s₀ Unit) := by
  unfold ctxTurn
  try dsimp only
  repeat'
    first
    | with_reducible
      first
      | apply only_bind | apply only_ite | apply only_pure | apply only_st | apply only_skip | apply only_each
      | apply only_ctxOpen | apply only_ctxClose
    | intro _ | split | exact subParts_trans (by decide) hs

theorem only_stitchRound  (hs : subParts [.regs, .hbm, .bench, .well, .host, .ecc, .sram, .ops, .reqs, .outs, .hosts, .cells, .lpe, .col, .crown] ks = true) :
    Only ks (stitchRound  : Act s₀ Bool) := by
  unfold stitchRound
  try dsimp only
  repeat'
    first
    | with_reducible
      first
      | apply only_bind | apply only_ite | apply only_pure | apply only_st | apply only_skip | apply only_foldA
      | apply only_modCol | apply only_stitchTry | apply only_originTry | apply only_ctxTurn
    | intro _ | split | exact subParts_trans (by decide) hs

theorem only_stitchRounds  (n : Nat) (hs : subParts [.regs, .hbm, .bench, .well, .host, .ecc, .sram, .ops, .reqs, .outs, .hosts, .cells, .lpe, .col, .crown] ks = true) :
    Only ks (stitchRounds n : Act s₀ Unit) := by
  induction n with
  | zero =>
    unfold stitchRounds
    try dsimp only
    repeat'
        first
        | with_reducible
          first
          | apply only_bind | apply only_ite | apply only_pure | apply only_st | apply only_skip
          | apply only_stitchRound
        | intro _ | split | exact subParts_trans (by decide) hs
  | succ _ ih =>
    unfold stitchRounds
    try dsimp only
    repeat'
        first
        | with_reducible
          first
          | apply ih | apply only_bind | apply only_ite | apply only_pure | apply only_st | apply only_skip
          | apply only_stitchRound
        | intro _ | split | exact subParts_trans (by decide) hs

theorem only_stitchAll  (hs : subParts [.regs, .hbm, .bench, .well, .host, .ecc, .sram, .ops, .reqs, .outs, .hosts, .cells, .lpe, .col, .crown] ks = true) :
    Only ks (stitchAll  : Act s₀ Unit) := by
  unfold stitchAll
  try dsimp only
  repeat'
    first
    | with_reducible
      first
      | apply only_bind | apply only_ite | apply only_pure | apply only_st | apply only_skip | apply only_stitchRounds
    | intro _ | split | exact subParts_trans (by decide) hs

end Sys2Proof.Laws
end

