-- ==== Sys2Proof/Laws/Foot/Update.lean ====
section
/-! SUPPORT. The parts of the state that each operation of Machine/Update.lean can touch. -/

namespace Sys2Proof.Laws

open Machine

variable {s₀ : State} {ks : List Part}

theorem only_upTake (o : Op) (hs : subParts [.ops] ks = true) :
    Only ks (upTake o : Act s₀ Unit) := by
  unfold upTake
  try dsimp only
  repeat'
    first
    | with_reducible
      first
      | apply only_bind | apply only_ite | apply only_pure | apply only_st | apply only_skip | apply only_modOp
      | apply only_waitRes
    | intro _ | split | exact subParts_trans (by decide) hs

theorem only_admUpdate (o : Op) (hs : subParts [.ops] ks = true) :
    Only ks (admUpdate o : Act s₀ Adm) := by
  unfold admUpdate
  try dsimp only
  repeat'
    first
    | with_reducible
      first
      | apply only_bind | apply only_ite | apply only_pure | apply only_st | apply only_skip | apply only_setRegion
      | apply only_captureTbl | apply only_upTake
    | intro _ | split | exact subParts_trans (by decide) hs

theorem only_readLines (l : Loc) (n : Nat) (who : Option Who) (hs : subParts [.regs, .ecc, .outs, .hosts, .crown] ks = true) :
    Only ks (readLines l n who : Act s₀ (Except Nat Lines)) := by
  unfold readLines
  try dsimp only
  repeat'
    first
    | with_reducible
      first
      | apply only_bind | apply only_ite | apply only_pure | apply only_st | apply only_skip | apply only_hbmTouch
      | apply only_locRead
    | intro _ | split | exact subParts_trans (by decide) hs

theorem only_writeLines (l : Loc) (x : Lines) (b : List Byte) (who : Option Who) (hs : subParts [.regs, .hbm, .bench, .well, .ecc, .outs, .hosts, .crown] ks = true) :
    Only ks (writeLines l x b who : Act s₀ Nat) := by
  unfold writeLines
  try dsimp only
  repeat'
    first
    | with_reducible
      first
      | apply only_bind | apply only_ite | apply only_pure | apply only_st | apply only_skip | apply only_foldA
      | apply only_hbmWrite | apply only_locWrite
    | intro _ | split | exact subParts_trans (by decide) hs

theorem only_runPiece (o : UpFor) (h : Hyper) (wid : Nat) (p : Piece) (put : Lines → List Byte → Act s₀ Nat) (hput : ∀ x y, Only ks (put x y)) (hs : subParts [.regs, .hbm, .bench, .well, .ecc, .outs, .hosts, .lpe, .crown] ks = true) :
    Only ks (runPiece o h wid p put : Act s₀ Nat) := by
  unfold runPiece
  try dsimp only
  repeat'
    first
    | with_reducible
      first
      | apply only_bind | apply only_ite | apply hput | apply only_pure | apply only_st | apply only_skip | apply only_foldA
      | apply only_bump | apply only_bump64 | apply only_locWrite | apply only_lpeCount | apply only_readLines
      | apply only_writeLines
    | intro _ | split | exact subParts_trans (by decide) hs

theorem only_putRow (t : Nat) (d : TDesc) (r : Nat) (b : Bool) (who : Option Who) (x : Lines) (bs : List Byte) (hs : subParts [.regs, .hbm, .bench, .well, .ecc, .outs, .hosts, .tbl, .crown] ks = true) :
    Only ks (putRow t d r b who x bs : Act s₀ Nat) := by
  unfold putRow
  try dsimp only
  repeat'
    first
    | with_reducible
      first
      | apply only_bind | apply only_ite | apply only_pure | apply only_st | apply only_skip | apply only_markInactive
      | apply only_touchRow | apply only_dirtyRow | apply only_writeRow | apply only_writeLines
    | intro _ | split | exact subParts_trans (by decide) hs

theorem only_smearRow (t : Nat) (d : TDesc) (r : Nat) (b : Bool) (hs : subParts [.hbm] ks = true) :
    Only ks (smearRow t d r b : Act s₀ Unit) := by
  unfold smearRow
  try dsimp only
  repeat'
    first
    | with_reducible
      first
      | apply only_bind | apply only_ite | apply only_pure | apply only_st | apply only_skip | apply only_emit
    | intro _ | split | exact within_mono (by with_unfolding_all rfl) hs

theorem only_updateRow (o : UpFor) (h : Hyper) (t : Nat) (d : TDesc) (r : Nat) (b : Bool) (cols : Nat) (g : List Nat) (hs : subParts [.regs, .hbm, .bench, .well, .ecc, .outs, .hosts, .tbl, .lpe, .crown] ks = true) :
    Only ks (updateRow o h t d r b cols g : Act s₀ Nat) := by
  unfold updateRow
  try dsimp only
  repeat'
    first
    | with_reducible
      first
      | apply only_bind | apply only_ite | apply only_pure | apply only_st | apply only_skip | apply only_countLoad
      | apply only_runPiece | apply only_putRow
    | intro _ | split | exact subParts_trans (by decide) hs

theorem only_upSkip (r : OpRef) (hs : subParts [.regs, .hbm, .bench, .well, .host, .ops, .reqs, .cells] ks = true) :
    Only ks (upSkip r : Act s₀ Unit) := by
  unfold upSkip
  try dsimp only
  repeat'
    first
    | with_reducible
      first
      | apply only_bind | apply only_ite | apply only_pure | apply only_st | apply only_skip | apply only_bump
      | apply only_endClean
    | intro _ | split | exact subParts_trans (by decide) hs

theorem only_upTell (o : Op) (l : List (Nat × Nat × Nat)) (hs : subParts [.ops] ks = true) :
    Only ks (upTell o l : Act s₀ Unit) := by
  unfold upTell
  try dsimp only
  repeat'
    first
    | with_reducible
      first
      | apply only_bind | apply only_ite | apply only_pure | apply only_st | apply only_skip | apply only_emit
      | apply only_waitRes
    | intro _ | split | exact subParts_trans (by decide) hs | exact within_mono (by with_unfolding_all rfl) hs

theorem only_upRace (o : Op) (hs : subParts [.hbm, .bench, .well, .host, .ops] ks = true) :
    Only ks (upRace o : Act s₀ Unit) := by
  unfold upRace
  repeat'
    first
    | with_reducible
      first
      | apply only_bind | apply only_ite | apply only_pure | apply only_st | apply only_skip | apply only_each
      | apply only_emit | apply only_upTell
    | intro _ | split | exact subParts_trans (by decide) hs | exact within_mono (within_mono (within_memOf ..) (by decide)) hs | exact within_mono (by with_unfolding_all rfl) hs | dsimp only

theorem only_upHoldCells (o : Op) (hs : subParts [.cells] ks = true) :
    Only ks (upHoldCells o : Act s₀ Unit) := by
  unfold upHoldCells
  try dsimp only
  repeat'
    first
    | with_reducible
      first
      | apply only_bind | apply only_ite | apply only_pure | apply only_st | apply only_skip | apply only_each
      | apply only_setCell
    | intro _ | split | exact subParts_trans (by decide) hs

theorem only_upBegun (h : Hyper) (p : Piece) (lines : Nat) (hs : subParts [.hbm, .bench, .well] ks = true) :
    Only ks (upBegun h p lines : Act s₀ Unit) := by
  unfold upBegun
  try dsimp only
  repeat'
    first
    | with_reducible
      first
      | apply only_bind | apply only_ite | apply only_pure | apply only_st | apply only_skip | apply only_each
      | apply only_locSmear
    | intro _ | split | exact subParts_trans (by decide) hs

theorem only_upBegunRows (t : Nat) (d : TDesc) (b : Bool) (rs : List Nat) (hs : subParts [.regs, .hbm, .ecc, .outs, .hosts, .tbl, .crown] ks = true) :
    Only ks (upBegunRows t d b rs : Act s₀ Unit) := by
  unfold upBegunRows
  try dsimp only
  repeat'
    first
    | with_reducible
      first
      | apply only_bind | apply only_ite | apply only_pure | apply only_st | apply only_skip | apply only_each
      | apply only_touchRow | apply only_dirtyRow | apply only_smearRow
    | intro _ | split | exact subParts_trans (by decide) hs

theorem only_upDense (o : Op) (ms : List EngMiss) (hs : subParts [.regs, .hbm, .bench, .well, .host, .ecc, .ops, .reqs, .outs, .hosts, .cells, .lpe, .crown] ks = true) :
    Only ks (upDense o ms : Act s₀ Unit) := by
  unfold upDense
  repeat'
    first
    | with_reducible
      first
      | apply only_bind | apply only_ite | apply only_pure | apply only_st | apply only_skip | apply only_endOp
      | apply only_endClean | apply only_engMiss | apply only_readLines | apply only_writeLines | apply only_runPiece
      | apply only_upSkip | apply only_upRace | apply only_upBegun
    | intro _ | split | exact subParts_trans (by decide) hs | dsimp only

theorem only_upSendRow (o : Op) (h : Hyper) (t : Nat) (d : TDesc) (owner r : Nat) (race : Bool) (g : List Nat) (hs : subParts [.reqs, .outs, .tbl, .rte] ks = true) :
    Only ks (upSendRow o h t d owner r race g : Act s₀ Nat) := by
  unfold upSendRow
  try dsimp only
  repeat'
    first
    | with_reducible
      first
      | apply only_bind | apply only_ite | apply only_pure | apply only_st | apply only_skip | apply only_request
      | apply only_useRow
    | intro _ | split | exact subParts_trans (by decide) hs

theorem only_upRaceRow (t : Nat) (d : TDesc) (r : Nat) (b race : Bool) (hs : subParts [.hbm] ks = true) :
    Only ks (upRaceRow t d r b race : Act s₀ Unit) := by
  unfold upRaceRow
  try dsimp only
  repeat'
    first
    | with_reducible
      first
      | apply only_bind | apply only_ite | apply only_pure | apply only_st | apply only_skip | apply only_smearRow
    | intro _ | split | exact subParts_trans (by decide) hs

theorem only_noteMode (t mode : Nat) (hs : subParts [.tbl] ks = true) :
    Only ks (noteMode t mode : Act s₀ Unit) := by
  unfold noteMode
  try dsimp only
  repeat'
    first
    | with_reducible
      first
      | apply only_bind | apply only_ite | apply only_pure | apply only_st | apply only_skip | apply only_tdSet
    | intro _ | split | exact subParts_trans (by decide) hs

theorem only_upMerged (o : Op) (ms : List EngMiss) (t : Nat) (d : TDesc) (gl : Loc) (n : Nat) (hs : subParts [.regs, .hbm, .bench, .well, .host, .ecc, .ops, .reqs, .outs, .hosts, .tbl, .cells, .lpe, .rte, .crown] ks = true) :
    Only ks (upMerged o ms t d gl n : Act s₀ Unit) := by
  unfold upMerged
  repeat'
    first
    | with_reducible
      first
      | apply only_bind | apply only_ite | apply only_pure | apply only_st | apply only_skip | apply only_foldA
      | apply only_endClean | apply only_finish | apply only_engMiss | apply only_readLines | apply only_updateRow
      | apply only_upSkip | apply only_upTell | apply only_upBegunRows | apply only_upSendRow | apply only_upRaceRow
    | intro _ | split | exact subParts_trans (by decide) hs | dsimp only

theorem only_upRecords (o : Op) (ms : List EngMiss) (hs : subParts [.regs, .hbm, .bench, .well, .host, .ecc, .ops, .reqs, .outs, .hosts, .tbl, .cells, .lpe, .rte, .crown] ks = true) :
    Only ks (upRecords o ms : Act s₀ Unit) := by
  unfold upRecords
  try dsimp only
  repeat'
    first
    | with_reducible
      first
      | apply only_bind | apply only_ite | apply only_pure | apply only_st | apply only_skip | apply only_endClean
      | apply only_readLines | apply only_noteMode | apply only_upMerged
    | intro _ | split | exact subParts_trans (by decide) hs

theorem only_updateGo (r : OpRef) (ms : List EngMiss) (hs : subParts [.regs, .hbm, .bench, .well, .host, .ecc, .ops, .reqs, .outs, .hosts, .tbl, .cells, .lpe, .rte, .crown] ks = true) :
    Only ks (updateGo r ms : Act s₀ Unit) := by
  unfold updateGo
  try dsimp only
  repeat'
    first
    | with_reducible
      first
      | apply only_bind | apply only_ite | apply only_pure | apply only_st | apply only_skip | apply only_putOp
      | apply only_endClean | apply only_waitRes | apply only_upHoldCells | apply only_upDense | apply only_upRecords
    | intro _ | split | exact subParts_trans (by decide) hs

theorem only_serveRowUpd (v : Via) (pk : Packet) (u : RowUpdMsg) (hs : subParts [.regs, .hbm, .bench, .well, .ecc, .outs, .hosts, .tbl, .lpe, .links, .peers, .crown] ks = true) :
    Only ks (serveRowUpd v pk u : Act s₀ Unit) := by
  unfold serveRowUpd
  try dsimp only
  repeat'
    first
    | with_reducible
      first
      | apply only_bind | apply only_ite | apply only_pure | apply only_st | apply only_skip | apply only_refuseV
      | apply only_parkPk | apply only_rowServe | apply only_ackRow | apply only_updateRow | apply only_upRaceRow
      | apply only_noteMode
    | intro _ | split | exact subParts_trans (by decide) hs

end Sys2Proof.Laws
end

