-- ==== Sys2Proof/Laws/Foot/Collect.lean ====
section
/-! SUPPORT. The parts of the state that each operation of Machine/Collect.lean can touch. -/

namespace Sys2Proof.Laws

open Machine

variable {s₀ : State} {ks : List Part}

theorem only_putAg (x : ColAg) (hs : subParts [.col] ks = true) :
    Only ks (putAg x : Act s₀ Unit) := by
  unfold putAg
  try dsimp only
  repeat'
    first
    | with_reducible
      first
      | apply only_bind | apply only_ite | apply only_pure | apply only_st | apply only_skip | apply only_modCol
    | intro _ | split | exact subParts_trans (by decide) hs

theorem only_agOpen (g b : Nat) (step : Word) (stage : Nat) (op : Option OpRef) (hs : subParts [.col] ks = true) :
    Only ks (agOpen g b step stage op : Act s₀ Unit) := by
  unfold agOpen
  try dsimp only
  repeat'
    first
    | with_reducible
      first
      | apply only_bind | apply only_ite | apply only_pure | apply only_st | apply only_skip | apply only_modCol
      | apply only_colSeen | apply only_putAg
    | intro _ | split | exact subParts_trans (by decide) hs

theorem only_weightRead (x : ColAg) (a n : Nat) (hs : subParts [.regs, .ecc, .outs, .hosts, .crown] ks = true) :
    Only ks (weightRead x a n : Act s₀ (Except Nat (List Byte))) := by
  unfold weightRead
  try dsimp only
  repeat'
    first
    | with_reducible
      first
      | apply only_bind | apply only_ite | apply only_pure | apply only_st | apply only_skip | apply only_foldA
      | apply only_locRead
    | intro _ | split | exact subParts_trans (by decide) hs

theorem only_weightWrite (x : ColAg) (a : Nat) (b : List Byte) (hs : subParts [.regs, .hbm, .bench, .well, .ecc, .outs, .hosts, .tbl, .crown] ks = true) :
    Only ks (weightWrite x a b : Act s₀ Unit) := by
  unfold weightWrite
  try dsimp only
  repeat'
    first
    | with_reducible
      first
      | apply only_bind | apply only_ite | apply only_pure | apply only_st | apply only_skip | apply only_each
      | apply only_locWrite | apply only_writePart
    | intro _ | split | exact subParts_trans (by decide) hs

theorem only_agBytes (x : ColAg) (lo n : Nat) (hs : subParts [.regs, .ecc, .outs, .hosts, .crown] ks = true) :
    Only ks (agBytes x lo n : Act s₀ (Except Nat (List Byte))) := by
  unfold agBytes
  try dsimp only
  repeat'
    first
    | with_reducible
      first
      | apply only_bind | apply only_ite | apply only_pure | apply only_st | apply only_skip | apply only_weightRead
    | intro _ | split | exact subParts_trans (by decide) hs

theorem only_gatherSend (x : ColAg) (k base : Nat) (b : List Byte) (hs : subParts [.outs] ks = true) :
    Only ks (gatherSend x k base b : Act s₀ Unit) := by
  unfold gatherSend
  try dsimp only
  repeat'
    first
    | with_reducible
      first
      | apply only_bind | apply only_ite | apply only_pure | apply only_st | apply only_skip | apply only_each
      | apply only_send
    | intro _ | split | exact subParts_trans (by decide) hs

theorem only_agSends (g b : Nat) (step : Word) (stage : Nat) (n : List Nat) (hs : subParts [.regs, .hbm, .bench, .well, .host, .ecc, .ops, .reqs, .outs, .hosts, .cells, .col, .crown] ks = true) :
    Only ks (agSends g b step stage n : Act s₀ Unit) := by
  induction n with
  | nil =>
    unfold agSends
    try dsimp only
    repeat'
        first
        | with_reducible
          first
          | apply only_bind | apply only_ite | apply only_pure | apply only_st | apply only_skip
          | apply only_foldA | apply only_modCol | apply only_endOp | apply only_agBytes | apply only_gatherSend
        | intro _ | split | exact subParts_trans (by decide) hs
  | cons x _ ih =>
    unfold agSends
    try dsimp only
    repeat'
        first
        | with_reducible
          first
          | apply ih | apply only_bind | apply only_ite | apply only_pure | apply only_st | apply only_skip
          | apply only_foldA | apply only_modCol | apply only_endOp | apply only_agBytes | apply only_gatherSend
        | intro _ | split | exact subParts_trans (by decide) hs

theorem only_agGo (g b : Nat) (step : Word) (stage : Nat) (hs : subParts [.regs, .hbm, .bench, .well, .host, .ecc, .ops, .reqs, .outs, .hosts, .cells, .col, .crown] ks = true) :
    Only ks (agGo g b step stage : Act s₀ Bool) := by
  unfold agGo
  try dsimp only
  repeat'
    first
    | with_reducible
      first
      | apply only_bind | apply only_ite | apply only_pure | apply only_st | apply only_skip | apply only_agSends
    | intro _ | split | exact subParts_trans (by decide) hs

theorem only_agTurn (g b : Nat) (step : Word) (hs : subParts [.regs, .hbm, .bench, .well, .host, .ecc, .ops, .reqs, .outs, .hosts, .cells, .col, .crown] ks = true) :
    Only ks (agTurn g b step : Act s₀ Unit) := by
  unfold agTurn
  try dsimp only
  repeat'
    first
    | with_reducible
      first
      | apply only_bind | apply only_ite | apply only_pure | apply only_st | apply only_skip | apply only_modCol
      | apply only_endOp | apply only_agGo
    | intro _ | split | exact subParts_trans (by decide) hs

theorem only_thinRead (a n : Nat) (who : Option Who) (hs : subParts [.regs, .ecc, .outs, .hosts, .crown] ks = true) :
    Only ks (thinRead a n who : Act s₀ (List Nat × Bool)) := by
  unfold thinRead
  try dsimp only
  repeat'
    first
    | with_reducible
      first
      | apply only_bind | apply only_ite | apply only_pure | apply only_st | apply only_skip | apply only_readLines
    | intro _ | split | exact subParts_trans (by decide) hs

theorem only_thinStart (x : ColBk) (o : Op) (hs : subParts [.regs, .hbm, .bench, .well, .ecc, .sram, .outs, .hosts, .crown] ks = true) :
    Only ks (thinStart x o : Act s₀ ColBk) := by
  unfold thinStart
  try dsimp only
  repeat'
    first
    | with_reducible
      first
      | apply only_bind | apply only_ite | apply only_pure | apply only_st | apply only_skip | apply only_wellTake
      | apply only_thinRead
    | intro _ | split | exact subParts_trans (by decide) hs

theorem only_thinSecond (x : ColBk) (hs : subParts [.col] ks = true) :
    Only ks (thinSecond x : Act s₀ Unit) := by
  unfold thinSecond
  try dsimp only
  repeat'
    first
    | with_reducible
      first
      | apply only_bind | apply only_ite | apply only_pure | apply only_st | apply only_skip | apply only_putBk
    | intro _ | split | exact subParts_trans (by decide) hs

theorem only_thinLast (x : ColBk) (hs : subParts [.regs, .hbm, .bench, .well, .host, .ecc, .ops, .reqs, .outs, .hosts, .cells, .lpe, .col, .crown] ks = true) :
    Only ks (thinLast x : Act s₀ Unit) := by
  unfold thinLast
  try dsimp only
  repeat'
    first
    | with_reducible
      first
      | apply only_bind | apply only_ite | apply only_pure | apply only_st | apply only_skip | apply only_bump
      | apply only_locWrite | apply only_lpeCount | apply only_putBk | apply only_verShard | apply only_verGo
      | apply only_bkFinish
    | intro _ | split | exact subParts_trans (by decide) hs

theorem only_thinTurn (g b : Nat) (step : Word) (hs : subParts [.regs, .hbm, .bench, .well, .host, .ecc, .ops, .reqs, .outs, .hosts, .cells, .lpe, .col, .crown] ks = true) :
    Only ks (thinTurn g b step : Act s₀ Bool) := by
  unfold thinTurn
  try dsimp only
  repeat'
    first
    | with_reducible
      first
      | apply only_bind | apply only_ite | apply only_pure | apply only_st | apply only_skip | apply only_modCol
      | apply only_putBk | apply only_agOpen | apply only_agGo | apply only_thinSecond | apply only_thinLast
    | intro _ | split | exact subParts_trans (by decide) hs

theorem only_colPump  (hs : subParts [.regs, .hbm, .bench, .well, .host, .ecc, .sram, .ops, .reqs, .outs, .hosts, .cells, .lpe, .col, .rte, .crown] ks = true) :
    Only ks (colPump  : Act s₀ Unit) := by
  unfold colPump
  try dsimp only
  repeat'
    first
    | with_reducible
      first
      | apply only_bind | apply only_ite | apply only_pure | apply only_st | apply only_skip | apply only_each
      | apply only_foldA | apply only_oldTouch | apply only_stitchAll | apply only_thinTurn
    | intro _ | split | exact subParts_trans (by decide) hs

theorem only_admCol (o : Op) (hs : subParts [.regs, .ecc, .outs, .hosts, .crown] ks = true) :
    Only ks (admCol o : Act s₀ Adm) := by
  unfold admCol
  try dsimp only
  repeat'
    first
    | with_reducible
      first
      | apply only_bind | apply only_ite | apply only_pure | apply only_st | apply only_skip | apply only_hbmRead
    | intro _ | split | exact subParts_trans (by decide) hs

theorem only_dropLate (x : ColBk) (hs : subParts [.regs, .hbm, .bench, .well, .ecc, .sram, .outs, .hosts, .crown] ks = true) :
    Only ks (dropLate x : Act s₀ Unit) := by
  unfold dropLate
  try dsimp only
  repeat'
    first
    | with_reducible
      first
      | apply only_bind | apply only_ite | apply only_pure | apply only_st | apply only_skip | apply only_each
      | apply only_slotWrite
    | intro _ | split | exact subParts_trans (by decide) hs

theorem only_colAdmitted (r : OpRef) (hs : subParts [.regs, .hbm, .bench, .well, .ecc, .sram, .ops, .outs, .hosts, .col, .crown] ks = true) :
    Only ks (colAdmitted r : Act s₀ Unit) := by
  unfold colAdmitted
  try dsimp only
  repeat'
    first
    | with_reducible
      first
      | apply only_bind | apply only_ite | apply only_pure | apply only_st | apply only_skip | apply only_setRegion
      | apply only_captureAddr | apply only_putBk | apply only_bkOpen | apply only_dropLate
    | intro _ | split | exact subParts_trans (by decide) hs

theorem only_alone (x : ColBk) (hs : subParts [.regs, .hbm, .bench, .well, .host, .ecc, .sram, .ops, .reqs, .outs, .hosts, .cells, .lpe, .col, .crown] ks = true) :
    Only ks (alone x : Act s₀ Unit) := by
  unfold alone
  try dsimp only
  repeat'
    first
    | with_reducible
      first
      | apply only_bind | apply only_ite | apply only_pure | apply only_st | apply only_skip | apply only_locWrite
      | apply only_lpeCount | apply only_takeTerm | apply only_bkAfter
    | intro _ | split | exact subParts_trans (by decide) hs

theorem only_thinning (o : Op) (ms : List EngMiss) (k : Act s₀ Unit) (hk : Only ks k) (hs : subParts [.regs, .hbm, .bench, .well, .host, .ops, .reqs, .outs, .hosts, .cells, .crown] ks = true) :
    Only ks (thinning o ms k : Act s₀ Unit) := by
  unfold thinning
  try dsimp only
  repeat'
    first
    | with_reducible
      first
      | apply only_bind | apply only_ite | apply hk | apply only_pure | apply only_st | apply only_skip | apply only_endOp
      | apply only_engMiss
    | intro _ | split | exact subParts_trans (by decide) hs

theorem only_colStart (o : Op) (ms : List EngMiss) (hs : subParts [.regs, .hbm, .bench, .well, .host, .ecc, .sram, .ops, .reqs, .outs, .hosts, .cells, .lpe, .col, .rte, .crown] ks = true) :
    Only ks (colStart o ms : Act s₀ Unit) := by
  unfold colStart
  try dsimp only
  repeat'
    first
    | with_reducible
      first
      | apply only_bind | apply only_ite | apply only_pure | apply only_st | apply only_skip | apply only_each
      | apply only_setCell | apply only_putOp | apply only_endClean | apply only_waitRes | apply only_putBk
      | apply only_bkFinish | apply only_ctxTurn | apply only_thinStart | apply only_colPump | apply only_alone
      | apply only_thinning
    | intro _ | split | exact subParts_trans (by decide) hs

theorem only_gatherTake (pk : Packet) (b : List Byte) (hs : subParts [.regs, .hbm, .bench, .well, .host, .ecc, .sram, .ops, .reqs, .outs, .hosts, .tbl, .cells, .lpe, .col, .rte, .crown] ks = true) :
    Only ks (gatherTake pk b : Act s₀ Bool) := by
  unfold gatherTake
  try dsimp only
  repeat'
    first
    | with_reducible
      first
      | apply only_bind | apply only_ite | apply only_pure | apply only_st | apply only_skip | apply only_putBk
      | apply only_putAg | apply only_agOpen | apply only_weightWrite | apply only_agTurn | apply only_colPump
    | intro _ | split | exact subParts_trans (by decide) hs

theorem only_gathersAll  (hs : subParts [.regs, .hbm, .bench, .well, .host, .ecc, .sram, .ops, .reqs, .outs, .hosts, .tbl, .cells, .lpe, .col, .rte, .crown] ks = true) :
    Only ks (gathersAll  : Act s₀ Unit) := by
  unfold gathersAll
  try dsimp only
  repeat'
    first
    | with_reducible
      first
      | apply only_bind | apply only_ite | apply only_pure | apply only_st | apply only_skip | apply only_each
      | apply only_modCol | apply only_oldTouch | apply only_gatherTake
    | intro _ | split | exact subParts_trans (by decide) hs

theorem only_colArrive (p : Fin 8) (pk : Packet) (opc : Nat) (k : ColKey → Act s₀ Unit) (hk : ∀ x, Only ks (k x)) (hs : subParts [.regs, .outs, .rte, .links] ks = true) :
    Only ks (colArrive p pk opc k : Act s₀ Unit) := by
  unfold colArrive
  try dsimp only
  repeat'
    first
    | with_reducible
      first
      | apply only_bind | apply only_ite | apply hk | apply only_pure | apply only_st | apply only_skip | apply only_portTake
    | intro _ | split | exact subParts_trans (by decide) hs

end Sys2Proof.Laws
end

