-- ==== Sys2Proof/Laws/Foot/Links.lean ====
section
/-! SUPPORT. The parts of the state that each operation of Machine/Links.lean can touch. -/

namespace Sys2Proof.Laws

open Machine

variable {s₀ : State} {ks : List Part}

theorem only_setHalf (p : Nat) (half : Bool) (n : Nat) (hs : subParts [.regs] ks = true) :
    Only ks (setHalf p half n : Act s₀ Unit) := by
  unfold setHalf
  try dsimp only
  repeat'
    first
    | with_reducible
      first
      | apply only_bind | apply only_ite | apply only_pure | apply only_st | apply only_skip | apply only_regSet
    | intro _ | split | exact subParts_trans (by decide) hs

theorem only_setCause (p n : Nat) (hs : subParts [.regs] ks = true) :
    Only ks (setCause p n : Act s₀ Unit) := by
  unfold setCause
  try dsimp only
  repeat'
    first
    | with_reducible
      first
      | apply only_bind | apply only_ite | apply only_pure | apply only_st | apply only_skip | apply only_regFld
    | intro _ | split | exact subParts_trans (by decide) hs

theorem only_trainStart (p : Nat) (half : Bool) (hs : subParts [.regs, .links] ks = true) :
    Only ks (trainStart p half : Act s₀ Unit) := by
  unfold trainStart
  try dsimp only
  repeat'
    first
    | with_reducible
      first
      | apply only_bind | apply only_ite | apply only_pure | apply only_st | apply only_skip | apply only_modLink
      | apply only_setHalf
    | intro _ | split | exact subParts_trans (by decide) hs

theorem only_trainHalf (p : Nat) (half : Bool) (hs : subParts [.regs, .links] ks = true) :
    Only ks (trainHalf p half : Act s₀ Unit) := by
  unfold trainHalf
  try dsimp only
  repeat'
    first
    | with_reducible
      first
      | apply only_bind | apply only_ite | apply only_pure | apply only_st | apply only_skip | apply only_modLink
      | apply only_trainStart
    | intro _ | split | exact subParts_trans (by decide) hs

theorem only_trainPort (p : Nat) (hs : subParts [.regs, .links] ks = true) :
    Only ks (trainPort p : Act s₀ Unit) := by
  unfold trainPort
  try dsimp only
  repeat'
    first
    | with_reducible
      first
      | apply only_bind | apply only_ite | apply only_pure | apply only_st | apply only_skip | apply only_each
      | apply only_trainHalf
    | intro _ | split | exact subParts_trans (by decide) hs

theorem only_halfDown (p : Nat) (half : Bool) (hs : subParts [.regs, .rte, .links] ks = true) :
    Only ks (halfDown p half : Act s₀ Unit) := by
  unfold halfDown
  try dsimp only
  repeat'
    first
    | with_reducible
      first
      | apply only_bind | apply only_ite | apply only_pure | apply only_st | apply only_skip | apply only_modLink
      | apply only_oldTouch | apply only_setHalf
    | intro _ | split | exact subParts_trans (by decide) hs

theorem only_linkLoss (p : Nat) (hs : subParts [.regs, .priv, .hbm, .bench, .well, .host, .sram, .esc, .ops, .reqs, .outs, .hosts, .tbl, .sac, .cells, .schDue, .lpe, .col, .rte, .links, .peers, .qps, .clb, .crown] ks = true) :
    Only ks (linkLoss p : Act s₀ Unit) := by
  unfold linkLoss
  try dsimp only
  repeat'
    first
    | with_reducible
      first
      | apply only_bind | apply only_ite | apply only_pure | apply only_st | apply only_skip | apply only_each
      | apply only_fltRaise | apply only_fltGroup | apply only_setCause | apply only_halfDown
    | intro _ | split | exact subParts_trans (by decide) hs

theorem only_helloKeep (p : Nat) (h : HelloRec) (hs : subParts [.regs] ks = true) :
    Only ks (helloKeep p h : Act s₀ Unit) := by
  unfold helloKeep
  try dsimp only
  repeat'
    first
    | with_reducible
      first
      | apply only_bind | apply only_ite | apply only_pure | apply only_st | apply only_skip | apply only_each
      | apply only_regSet
    | intro _ | split | exact subParts_trans (by decide) hs

theorem only_helloApply (p : Nat) (half : Bool) (h : HelloRec) (hs : subParts [.regs] ks = true) :
    Only ks (helloApply p half h : Act s₀ Unit) := by
  unfold helloApply
  try dsimp only
  repeat'
    first
    | with_reducible
      first
      | apply only_bind | apply only_ite | apply only_pure | apply only_st | apply only_skip | apply only_regSet
      | apply only_regFld | apply only_setHalf | apply only_setCause
    | intro _ | split | exact subParts_trans (by decide) hs

theorem only_helloOut (p : Nat) (half : Bool) (hs : subParts [.outs] ks = true) :
    Only ks (helloOut p half : Act s₀ Unit) := by
  unfold helloOut
  try dsimp only
  repeat'
    first
    | with_reducible
      first
      | apply only_bind | apply only_ite | apply only_pure | apply only_st | apply only_skip | apply only_sendFrame
    | intro _ | split | exact subParts_trans (by decide) hs

theorem only_neighbourReset (p inc : Nat) (hs : subParts [.regs, .priv, .hbm, .bench, .well, .host, .sram, .esc, .ops, .reqs, .outs, .hosts, .tbl, .sac, .cells, .schDue, .lpe, .rte, .links, .peers, .qps, .clb, .crown] ks = true) :
    Only ks (neighbourReset p inc : Act s₀ Unit) := by
  unfold neighbourReset
  try dsimp only
  repeat'
    first
    | with_reducible
      first
      | apply only_bind | apply only_ite | apply only_pure | apply only_st | apply only_skip | apply only_each
      | apply only_regFld | apply only_reqFail
    | intro _ | split | exact subParts_trans (by decide) hs

theorem only_helloIn (p : Nat) (half : Bool) (h : HelloRec) (n : Nat) (old : Option HelloRec) (cause : Nat) (hs : subParts [.regs, .priv, .hbm, .bench, .well, .host, .sram, .esc, .ops, .reqs, .outs, .hosts, .tbl, .sac, .cells, .schDue, .lpe, .col, .rte, .links, .peers, .qps, .clb, .crown] ks = true) :
    Only ks (helloIn p half h n old cause : Act s₀ Unit) := by
  unfold helloIn
  try dsimp only
  repeat'
    first
    | with_reducible
      first
      | apply only_bind | apply only_ite | apply only_pure | apply only_st | apply only_skip | apply only_linkLoss
      | apply only_helloApply | apply only_neighbourReset
    | intro _ | split | exact subParts_trans (by decide) hs

theorem only_adoptPort (p : Nat) (hs : subParts [.regs, .outs, .hosts, .clb, .crown] ks = true) :
    Only ks (adoptPort p : Act s₀ Unit) := by
  unfold adoptPort
  try dsimp only
  repeat'
    first
    | with_reducible
      first
      | apply only_bind | apply only_ite | apply only_pure | apply only_st | apply only_skip | apply only_each
      | apply only_regSet | apply only_regFld | apply only_logFault | apply only_report | apply only_setHalf
      | apply only_setCause
    | intro _ | split | exact subParts_trans (by decide) hs

theorem only_replay (p : Nat) (half : Bool) (l : List (BitVec 16 × Packet)) (hs : subParts [.regs, .outs] ks = true) :
    Only ks (replay p half l : Act s₀ Unit) := by
  unfold replay
  try dsimp only
  repeat'
    first
    | with_reducible
      first
      | apply only_bind | apply only_ite | apply only_pure | apply only_st | apply only_skip | apply only_each
      | apply only_bump | apply only_sendFrame
    | intro _ | split | exact subParts_trans (by decide) hs

theorem only_fecCorr (p : Nat) (hs : subParts [.regs] ks = true) :
    Only ks (fecCorr p : Act s₀ Unit) := by
  unfold fecCorr
  try dsimp only
  repeat'
    first
    | with_reducible
      first
      | apply only_bind | apply only_ite | apply only_pure | apply only_st | apply only_skip | apply only_emit
      | apply only_bump64
    | intro _ | split | exact subParts_trans (by decide) hs | exact within_nonce

theorem only_frameVoid (p : Nat) (w : Wire) (vc flits : Nat) (k : Act s₀ Unit) (hk : Only ks k) (hs : subParts [.regs, .outs, .links] ks = true) :
    Only ks (frameVoid p w vc flits k : Act s₀ Unit) := by
  unfold frameVoid
  try dsimp only
  repeat'
    first
    | with_reducible
      first
      | apply only_bind | apply only_ite | apply hk | apply only_pure | apply only_st | apply only_skip | apply only_offPort
      | apply only_freeFl | apply only_linkNak | apply only_linkTake
    | intro _ | split | exact subParts_trans (by decide) hs

end Sys2Proof.Laws
end

