-- ==== Sys2Proof/Laws/Foot/Fabric.lean ====
section
/-! SUPPORT. The parts of the state that each operation of Machine/Fabric.lean can touch. -/

namespace Sys2Proof.Laws

open Machine

variable {s₀ : State} {ks : List Part}

theorem only_reissue (q : Req) (dest : Coord) (redirects : Nat) (hs : subParts [.reqs, .outs] ks = true) :
    Only ks (reissue q dest redirects : Act s₀ Unit) := by
  unfold reissue
  try dsimp only
  repeat'
    first
    | with_reducible
      first
      | apply only_bind | apply only_ite | apply only_pure | apply only_st | apply only_skip | apply only_sendPk
      | apply only_modReq
    | intro _ | split | exact subParts_trans (by decide) hs

theorem only_splitReq (q : Req) (r : PoolReq) (part : List (Nat × Nat × Nat)) (owner : Coord) (pk : Packet) (hs : subParts [.reqs, .rte] ks = true) :
    Only ks (splitReq q r part owner pk : Act s₀ Req) := by
  unfold splitReq
  try dsimp only
  repeat'
    first
    | with_reducible
      first
      | apply only_bind | apply only_ite | apply only_pure | apply only_st | apply only_skip | apply only_emit
      | apply only_modRte | apply only_slotNext
    | intro _ | split | exact subParts_trans (by decide) hs | exact within_mono (by with_unfolding_all rfl) hs

end Sys2Proof.Laws
end

