-- ==== Sys2Proof/Laws/Foot/Tables.lean ====
section
/-! SUPPORT. The parts of the state that each operation of Machine/Tables.lean can touch. -/

namespace Sys2Proof.Laws

open Machine

variable {s₀ : State} {ks : List Part}

theorem only_admTable (o : Op) (hs : subParts [.tbl] ks = true) :
    Only ks (admTable o : Act s₀ Adm) := by
  unfold admTable
  try dsimp only
  repeat'
    first
    | with_reducible
      first
      | apply only_bind | apply only_ite | apply only_pure | apply only_st | apply only_skip | apply only_tdSet
    | intro _ | split | exact subParts_trans (by decide) hs

theorem only_withTc (r : OpRef) (sub : Nat) (ps : List OpPhase) (f : Op → Act s₀ Unit) (hf : ∀ x, Only ks (f x)) :
    Only ks (withTc r sub ps f : Act s₀ Unit) := by
  unfold withTc
  try dsimp only
  repeat'
    first
    | with_reducible
      first
      | apply only_bind | apply only_ite | apply hf | apply only_pure | apply only_st | apply only_skip
    | intro _ | split

theorem only_defineImg (t dom : Nat) (want : Option Nat) (b : Nat) (who : Option Who) (hs : subParts [.regs, .ecc, .outs, .hosts, .tbl, .crown] ks = true) :
    Only ks (defineImg t dom want b who : Act s₀ Nat) := by
  unfold defineImg
  try dsimp only
  repeat'
    first
    | with_reducible
      first
      | apply only_bind | apply only_ite | apply only_pure | apply only_st | apply only_skip | apply only_hbmRead
      | apply only_tdSet
    | intro _ | split | exact subParts_trans (by decide) hs

theorem only_replaceInactive (o : Op) (hs : subParts [.hbm, .bench, .well, .host, .ops, .reqs, .tbl, .cells] ks = true) :
    Only ks (replaceInactive o : Act s₀ Unit) := by
  unfold replaceInactive
  try dsimp only
  repeat'
    first
    | with_reducible
      first
      | apply only_bind | apply only_ite | apply only_pure | apply only_st | apply only_skip | apply only_putOp
      | apply only_endOp | apply only_tdSet
    | intro _ | split | exact subParts_trans (by decide) hs

theorem only_flipTable (t : Nat) (d : TDesc) (hs : subParts [.regs, .priv, .hbm, .bench, .well, .host, .esc, .ops, .reqs, .outs, .hosts, .tbl, .cells, .schDue, .lpe] ks = true) :
    Only ks (flipTable t d : Act s₀ Unit) := by
  unfold flipTable
  try dsimp only
  repeat'
    first
    | with_reducible
      first
      | apply only_bind | apply only_ite | apply only_pure | apply only_st | apply only_skip | apply only_escWaiters
      | apply only_escEff | apply only_tdSet
    | intro _ | split | exact subParts_trans (by decide) hs

theorem only_freeTable (o : Op) (hs : subParts [.regs, .hbm, .bench, .well, .host, .ops, .reqs, .outs, .tbl, .cells, .rte] ks = true) :
    Only ks (freeTable o : Act s₀ Unit) := by
  unfold freeTable
  try dsimp only
  repeat'
    first
    | with_reducible
      first
      | apply only_bind | apply only_ite | apply only_pure | apply only_st | apply only_skip | apply only_each
      | apply only_modTbl | apply only_putOp | apply only_endOp | apply only_cancelMove
    | intro _ | split | exact subParts_trans (by decide) hs

theorem only_startMove (t : Nat) (d : TDesc) (r dest : Nat) (op : Option OpRef) (hs : subParts [.regs, .hbm, .bench, .well, .host, .ops, .reqs, .outs, .tbl, .cells, .rte] ks = true) :
    Only ks (startMove t d r dest op : Act s₀ Unit) := by
  unfold startMove
  try dsimp only
  repeat'
    first
    | with_reducible
      first
      | apply only_bind | apply only_ite | apply only_pure | apply only_st | apply only_skip | apply only_bump
      | apply only_modTbl | apply only_endOp | apply only_request | apply only_setMstate
    | intro _ | split | exact subParts_trans (by decide) hs

theorem only_phaseCommit (d : Nat) (hs : subParts [.regs, .priv, .hbm, .bench, .well, .host, .sram, .esc, .ops, .reqs, .outs, .hosts, .tbl, .cells, .schDue, .lpe, .crown] ks = true) :
    Only ks (phaseCommit d : Act s₀ Unit) := by
  unfold phaseCommit
  try dsimp only
  repeat'
    first
    | with_reducible
      first
      | apply only_bind | apply only_ite | apply only_pure | apply only_st | apply only_skip | apply only_each
      | apply only_regFld | apply only_modHosts | apply only_escDo | apply only_flipTable
    | intro _ | split | exact subParts_trans (by decide) hs

theorem only_poisonSecs (l : List Nat) (hs : subParts [.ecc] ks = true) :
    Only ks (poisonSecs l : Act s₀ Unit) := by
  unfold poisonSecs
  try dsimp only
  repeat'
    first
    | with_reducible
      first
      | apply only_bind | apply only_ite | apply only_pure | apply only_st | apply only_skip | apply only_each
      | apply only_emit
    | intro _ | split | exact within_mono (by with_unfolding_all rfl) hs

theorem only_catchRow (t : Nat) (d : TDesc) (r : Nat) (hs : subParts [.regs, .hbm, .ecc, .outs, .hosts, .tbl, .crown] ks = true) :
    Only ks (catchRow t d r : Act s₀ Unit) := by
  unfold catchRow
  try dsimp only
  repeat'
    first
    | with_reducible
      first
      | apply only_bind | apply only_ite | apply only_pure | apply only_st | apply only_skip | apply only_hbmRead
      | apply only_hbmWrite | apply only_markInactive | apply only_dirtyRow | apply only_poisonSecs
    | intro _ | split | exact subParts_trans (by decide) hs

theorem only_catchTable (t : Nat) (d : TDesc) (hs : subParts [.regs, .hbm, .ecc, .outs, .hosts, .tbl, .crown] ks = true) :
    Only ks (catchTable t d : Act s₀ Unit) := by
  unfold catchTable
  try dsimp only
  repeat'
    first
    | with_reducible
      first
      | apply only_bind | apply only_ite | apply only_pure | apply only_st | apply only_skip | apply only_each
      | apply only_hbmRead | apply only_hbmWrite | apply only_catchRow
    | intro _ | split | exact subParts_trans (by decide) hs

end Sys2Proof.Laws
end

