-- ==== Sys2Proof/Laws/Foot/Txn.lean ====
section
/-! SUPPORT. The parts of the state that each operation of Machine/Txn.lean can touch. -/

namespace Sys2Proof.Laws

open Machine

variable {s₀ : State} {ks : List Part}

theorem only_reportAll (kind : Nat) (l : List Finding) (hs : subParts [.regs, .clb] ks = true) :
    Only ks (reportAll kind l : Act s₀ Unit) := by
  unfold reportAll
  try dsimp only
  repeat'
    first
    | with_reducible
      first
      | apply only_bind | apply only_ite | apply only_pure | apply only_st | apply only_skip | apply only_each
      | apply only_report
    | intro _ | split | exact subParts_trans (by decide) hs

theorem only_commitEnd (status step section_ : Nat) (hs : subParts [.regs, .shadow, .outs, .hosts, .clb, .crown] ks = true) :
    Only ks (commitEnd status step section_ : Act s₀ Unit) := by
  unfold commitEnd
  try dsimp only
  repeat'
    first
    | with_reducible
      first
      | apply only_bind | apply only_ite | apply only_pure | apply only_st | apply only_skip | apply only_emit
      | apply only_modClb | apply only_txnStop | apply only_loadEnd
    | intro _ | split | exact subParts_trans (by decide) hs | exact within_mono (by with_unfolding_all rfl) hs

theorem only_halt (cause : Nat) (hs : subParts [.regs, .outs, .hosts, .crown] ks = true) :
    Only ks (halt cause : Act s₀ Unit) := by
  unfold halt
  try dsimp only
  repeat'
    first
    | with_reducible
      first
      | apply only_bind | apply only_ite | apply only_pure | apply only_st | apply only_skip | apply only_setStage
      | apply only_logFault
    | intro _ | split | exact subParts_trans (by decide) hs

theorem only_rollback (l : List Finding) (hs : subParts [.regs, .shadow, .outs, .hosts, .clb, .crown] ks = true) :
    Only ks (rollback l : Act s₀ Unit) := by
  unfold rollback
  try dsimp only
  repeat'
    first
    | with_reducible
      first
      | apply only_bind | apply only_ite | apply only_pure | apply only_st | apply only_skip | apply only_setStage
      | apply only_reportAll | apply only_commitEnd | apply only_halt
    | intro _ | split | exact subParts_trans (by decide) hs

theorem only_txnCheck (more : List Finding) (hs : subParts [.regs, .shadow, .outs, .hosts, .clb, .crown] ks = true) :
    Only ks (txnCheck more : Act s₀ Unit) := by
  unfold txnCheck
  try dsimp only
  repeat'
    first
    | with_reducible
      first
      | apply only_bind | apply only_ite | apply only_pure | apply only_st | apply only_skip | apply only_modClb
      | apply only_rollback
    | intro _ | split | exact subParts_trans (by decide) hs

theorem only_txnCommit  (hs : subParts [.regs, .shadow, .outs, .hosts, .clb, .crown] ks = true) :
    Only ks (txnCommit  : Act s₀ Unit) := by
  unfold txnCommit
  try dsimp only
  repeat'
    first
    | with_reducible
      first
      | apply only_bind | apply only_ite | apply only_pure | apply only_st | apply only_skip | apply only_txnLast
      | apply only_txnCheck
    | intro _ | split | exact subParts_trans (by decide) hs

end Sys2Proof.Laws
end

