-- ==== Sys2Proof/Laws/Foot/Image.lean ====
section
/-! SUPPORT. The parts of the state that each operation of Machine/Image.lean can touch. -/

namespace Sys2Proof.Laws

open Machine

variable {s₀ : State} {ks : List Part}

theorem only_stageReg (type dims : Nat) (r : List Byte) (hs : subParts [.shadow] ks = true) :
    Only ks (stageReg type dims r : Act s₀ (List Finding)) := by
  unfold stageReg
  try dsimp only
  repeat'
    first
    | with_reducible
      first
      | apply only_bind | apply only_ite | apply only_pure | apply only_st | apply only_skip | apply only_shadowWrite
    | intro _ | split | exact subParts_trans (by decide) hs

theorem only_stageRegs (x : ImgSec) (dims : Nat) (b : List Byte) (hs : subParts [.shadow] ks = true) :
    Only ks (stageRegs x dims b : Act s₀ (List Finding)) := by
  unfold stageRegs
  try dsimp only
  repeat'
    first
    | with_reducible
      first
      | apply only_bind | apply only_ite | apply only_pure | apply only_st | apply only_skip | apply only_mapA
      | apply only_stageReg
    | intro _ | split | exact subParts_trans (by decide) hs

theorem only_stageCells (x : ImgSec) (b : List Byte) (hs : subParts [.shadow, .clb] ks = true) :
    Only ks (stageCells x b : Act s₀ (List Finding)) := by
  unfold stageCells
  try dsimp only
  repeat'
    first
    | with_reducible
      first
      | apply only_bind | apply only_ite | apply only_pure | apply only_st | apply only_skip | apply only_each
      | apply only_modClb | apply only_shadowWrite
    | intro _ | split | exact subParts_trans (by decide) hs

theorem only_stageTable (idx : Nat) (e : List Byte × List Byte × List Byte) (hs : subParts [.regs, .hbm, .ecc, .outs, .hosts, .clb, .crown] ks = true) :
    Only ks (stageTable idx e : Act s₀ (List Finding)) := by
  unfold stageTable
  try dsimp only
  repeat'
    first
    | with_reducible
      first
      | apply only_bind | apply only_ite | apply only_pure | apply only_st | apply only_skip | apply only_hbmRead
      | apply only_hbmWrite | apply only_modClb
    | intro _ | split | exact subParts_trans (by decide) hs

theorem only_stageTables (b : List Byte) (hs : subParts [.regs, .hbm, .ecc, .outs, .hosts, .clb, .crown] ks = true) :
    Only ks (stageTables b : Act s₀ (List Finding)) := by
  unfold stageTables
  try dsimp only
  repeat'
    first
    | with_reducible
      first
      | apply only_bind | apply only_ite | apply only_pure | apply only_st | apply only_skip | apply only_mapA
      | apply only_stageTable
    | intro _ | split | exact subParts_trans (by decide) hs

theorem only_stageSec (img : List Byte) (dims : Nat) (x : ImgSec) (hs : subParts [.regs, .shadow, .clb] ks = true) :
    Only ks (stageSec img dims x : Act s₀ (List Finding)) := by
  unfold stageSec
  try dsimp only
  repeat'
    first
    | with_reducible
      first
      | apply only_bind | apply only_ite | apply only_pure | apply only_st | apply only_skip | apply only_report
      | apply only_stageRegs | apply only_stageCells
    | intro _ | split | exact subParts_trans (by decide) hs

theorem only_imgStage (img : List Byte) (host : Bool) (hs : subParts [.regs, .shadow, .hbm, .ecc, .outs, .hosts, .clb, .crown] ks = true) :
    Only ks (imgStage img host : Act s₀ Unit) := by
  unfold imgStage
  try dsimp only
  repeat'
    first
    | with_reducible
      first
      | apply only_bind | apply only_ite | apply only_pure | apply only_st | apply only_skip | apply only_mapA
      | apply only_modClb | apply only_txnStart | apply only_loadEnd | apply only_shadowWrite | apply only_txnCheck
      | apply only_stageTables | apply only_stageSec
    | intro _ | split | exact subParts_trans (by decide) hs

theorem only_imgLoad (bytes : Nat) (img : List Byte) (host : Bool) (hs : subParts [.regs, .shadow, .hbm, .ecc, .outs, .hosts, .clb, .crown] ks = true) :
    Only ks (imgLoad bytes img host : Act s₀ Unit) := by
  unfold imgLoad
  try dsimp only
  repeat'
    first
    | with_reducible
      first
      | apply only_bind | apply only_ite | apply only_pure | apply only_st | apply only_skip | apply only_loadEnd
      | apply only_imgStage
    | intro _ | split | exact subParts_trans (by decide) hs

theorem only_imgRequest (fw : Bool) (chip addr n : Nat) (hs : subParts [.reqs, .outs, .rte] ks = true) :
    Only ks (imgRequest fw chip addr n : Act s₀ Nat) := by
  unfold imgRequest
  try dsimp only
  repeat'
    first
    | with_reducible
      first
      | apply only_bind | apply only_ite | apply only_pure | apply only_st | apply only_skip | apply only_foldA
      | apply only_request
    | intro _ | split | exact subParts_trans (by decide) hs

theorem only_imgSource  (hs : subParts [.regs, .shadow, .hbm, .ecc, .reqs, .outs, .hosts, .tbl, .rte, .clb, .crown] ks = true) :
    Only ks (imgSource  : Act s₀ Unit) := by
  unfold imgSource
  try dsimp only
  repeat'
    first
    | with_reducible
      first
      | apply only_bind | apply only_ite | apply only_pure | apply only_st | apply only_skip | apply only_emit
      | apply only_locRead | apply only_loadEnd | apply only_useAddr | apply only_imgLoad | apply only_imgRequest
    | intro _ | split | exact subParts_trans (by decide) hs | exact within_mono (by with_unfolding_all rfl) hs

theorem only_imgResume  (hs : subParts [.regs, .shadow, .hbm, .ecc, .reqs, .outs, .hosts, .tbl, .rte, .clb, .crown] ks = true) :
    Only ks (imgResume  : Act s₀ Unit) := by
  unfold imgResume
  try dsimp only
  repeat'
    first
    | with_reducible
      first
      | apply only_bind | apply only_ite | apply only_pure | apply only_st | apply only_skip | apply only_loadEnd
      | apply only_imgLoad | apply only_imgSource
    | intro _ | split | exact subParts_trans (by decide) hs

theorem only_imgGo  (hs : subParts [.regs, .shadow, .hbm, .ecc, .reqs, .outs, .hosts, .tbl, .rte, .clb, .crown] ks = true) :
    Only ks (imgGo  : Act s₀ Unit) := by
  unfold imgGo
  try dsimp only
  repeat'
    first
    | with_reducible
      first
      | apply only_bind | apply only_ite | apply only_pure | apply only_st | apply only_skip | apply only_regSet
      | apply only_txnLast | apply only_imgResume
    | intro _ | split | exact subParts_trans (by decide) hs

theorem only_fwRegs  (hs : subParts [.regs] ks = true) :
    Only ks (fwRegs  : Act s₀ Unit) := by
  unfold fwRegs
  try dsimp only
  repeat'
    first
    | with_reducible
      first
      | apply only_bind | apply only_ite | apply only_pure | apply only_st | apply only_skip | apply only_regSet
    | intro _ | split | exact subParts_trans (by decide) hs

theorem only_fwCheck (b : List Byte) (hs : subParts [.regs, .outs, .crown] ks = true) :
    Only ks (fwCheck b : Act s₀ Unit) := by
  unfold fwCheck
  try dsimp only
  repeat'
    first
    | with_reducible
      first
      | apply only_bind | apply only_ite | apply only_pure | apply only_st | apply only_skip | apply only_regFld
      | apply only_modCrown | apply only_mbxEnd | apply only_fwRegs
    | intro _ | split | exact subParts_trans (by decide) hs

theorem only_fwStage  (hs : subParts [.regs, .ecc, .reqs, .outs, .hosts, .tbl, .rte, .crown] ks = true) :
    Only ks (fwStage  : Act s₀ Unit) := by
  unfold fwStage
  try dsimp only
  repeat'
    first
    | with_reducible
      first
      | apply only_bind | apply only_ite | apply only_pure | apply only_st | apply only_skip | apply only_emit
      | apply only_locRead | apply only_mbxEnd | apply only_useAddr | apply only_imgRequest | apply only_fwCheck
    | intro _ | split | exact subParts_trans (by decide) hs | exact within_mono (by with_unfolding_all rfl) hs

theorem only_fwStop  (hs : subParts [.regs, .reqs, .crown] ks = true) :
    Only ks (fwStop  : Act s₀ Unit) := by
  unfold fwStop
  try dsimp only
  repeat'
    first
    | with_reducible
      first
      | apply only_bind | apply only_ite | apply only_pure | apply only_st | apply only_skip | apply only_emit
      | apply only_regFld | apply only_modCrown | apply only_fwRegs
    | intro _ | split | exact subParts_trans (by decide) hs | exact within_mono (by with_unfolding_all rfl) hs

theorem only_imgPiece (fw : Bool) (off : Nat) (b : List Byte) (hs : subParts [.regs, .shadow, .hbm, .ecc, .reqs, .outs, .hosts, .tbl, .rte, .clb, .crown] ks = true) :
    Only ks (imgPiece fw off b : Act s₀ Unit) := by
  unfold imgPiece
  try dsimp only
  repeat'
    first
    | with_reducible
      first
      | apply only_bind | apply only_ite | apply only_pure | apply only_st | apply only_skip | apply only_modClb
      | apply only_modCrown | apply only_imgResume | apply only_fwCheck
    | intro _ | split | exact subParts_trans (by decide) hs

end Sys2Proof.Laws
end

