-- ==== Sys2Proof/Laws/Foot/Loupe.lean ====
section
/-! SUPPORT. The parts of the state that each operation of Machine/Loupe.lean can touch. -/

namespace Sys2Proof.Laws

open Machine

variable {s₀ : State} {ks : List Part}

theorem only_evtPut (d : Nat) (step watch rule code value run owner : Nat) (hs : subParts [.priv] ks = true) :
    Only ks (evtPut d step watch rule code value run owner : Act s₀ Unit) := by
  unfold evtPut
  try dsimp only
  repeat'
    first
    | with_reducible
      first
      | apply only_bind | apply only_ite | apply only_pure | apply only_st | apply only_skip | apply only_privSet
      | apply only_privBump
    | intro _ | split | exact subParts_trans (by decide) hs

theorem only_loupeNote (d code rule : Nat) (hs : subParts [.regs, .priv, .outs, .hosts, .crown] ks = true) :
    Only ks (loupeNote d code rule : Act s₀ Unit) := by
  unfold loupeNote
  try dsimp only
  repeat'
    first
    | with_reducible
      first
      | apply only_bind | apply only_ite | apply only_pure | apply only_st | apply only_skip | apply only_each
      | apply only_logFault | apply only_evtPut
    | intro _ | split | exact subParts_trans (by decide) hs

theorem only_ruleEval (d n : Nat) (x : LpeSet) (hs : subParts [.priv, .lpe] ks = true) :
    Only ks (ruleEval d n x : Act s₀ Bool) := by
  unfold ruleEval
  try dsimp only
  repeat'
    first
    | with_reducible
      first
      | apply only_bind | apply only_ite | apply only_pure | apply only_st | apply only_skip | apply only_modLpe
      | apply only_evtPut
    | intro _ | split | exact subParts_trans (by decide) hs

end Sys2Proof.Laws
end

