-- ==== Sys2Proof/Laws/Foot/Xfer.lean ====
section
/-! SUPPORT. The parts of the state that each operation of Machine/Xfer.lean can touch. -/

namespace Sys2Proof.Laws

open Machine

variable {s₀ : State} {ks : List Part}

theorem only_admCopy (o : Op) (hs : subParts [.ops] ks = true) :
    Only ks (admCopy o : Act s₀ Adm) := by
  unfold admCopy
  try dsimp only
  repeat'
    first
    | with_reducible
      first
      | apply only_bind | apply only_ite | apply only_pure | apply only_st | apply only_skip | apply only_setRegion
      | apply only_captureAddr
    | intro _ | split | exact subParts_trans (by decide) hs

theorem only_copyOut (o : Op) (b : List Byte) (hs : subParts [.regs, .hbm, .bench, .well, .host, .ecc, .ops, .reqs, .outs, .hosts, .tbl, .cells, .rte, .crown] ks = true) :
    Only ks (copyOut o b : Act s₀ Unit) := by
  unfold copyOut
  try dsimp only
  repeat'
    first
    | with_reducible
      first
      | apply only_bind | apply only_ite | apply only_pure | apply only_st | apply only_skip | apply only_endOp
      | apply only_outTo | apply only_finish | apply only_deliver
    | intro _ | split | exact subParts_trans (by decide) hs

theorem only_admPeer (o : Op) (hs : subParts [.ops] ks = true) :
    Only ks (admPeer o : Act s₀ Adm) := by
  unfold admPeer
  try dsimp only
  repeat'
    first
    | with_reducible
      first
      | apply only_bind | apply only_ite | apply only_pure | apply only_st | apply only_skip | apply only_setRegion
      | apply only_captureAddr
    | intro _ | split | exact subParts_trans (by decide) hs

theorem only_peerPoolGo (r : OpRef) (hs : subParts [.regs, .hbm, .bench, .well, .host, .ecc, .ops, .reqs, .outs, .hosts, .tbl, .cells, .rte, .crown] ks = true) :
    Only ks (peerPoolGo r : Act s₀ Unit) := by
  unfold peerPoolGo
  try dsimp only
  repeat'
    first
    | with_reducible
      first
      | apply only_bind | apply only_ite | apply only_pure | apply only_st | apply only_skip | apply only_endOp
      | apply only_endClean | apply only_finish | apply only_deliver
    | intro _ | split | exact subParts_trans (by decide) hs

theorem only_memServe (v : Via) (pk : Packet) (n right : Nat) (pre : Act s₀ Unit → Act s₀ Unit) (k : Nat → Option (Nat × Nat × Bool) → Act s₀ Unit) (hpre : ∀ a, Only ks a → Only ks (pre a)) (hk : ∀ x y, Only ks (k x y)) (hs : subParts [.regs, .ecc, .reqs, .outs, .hosts, .tbl, .rte, .links, .peers, .crown] ks = true) :
    Only ks (memServe v pk n right pre k : Act s₀ Unit) := by
  unfold memServe
  try dsimp only
  repeat'
    first
    | with_reducible
      first
      | apply only_bind | apply only_ite | apply hpre | apply hk | apply only_pure | apply only_st | apply only_skip
      | apply only_relayReq | apply only_refuseV | apply only_mapChk | apply only_parkPk | apply only_rowServe
    | intro _ | split | exact subParts_trans (by decide) hs

theorem only_entryIn (pk : Packet) (hs : subParts [.tbl] ks = true) :
    Only ks (entryIn pk : Act s₀ Unit) := by
  unfold entryIn
  try dsimp only
  repeat'
    first
    | with_reducible
      first
      | apply only_bind | apply only_ite | apply only_pure | apply only_st | apply only_skip | apply only_cacheEntry
    | intro _ | split | exact subParts_trans (by decide) hs

theorem only_serveRead (v : Via) (pk : Packet) (hs : subParts [.regs, .ecc, .reqs, .outs, .hosts, .tbl, .rte, .links, .peers, .crown] ks = true) :
    Only ks (serveRead v pk : Act s₀ Unit) := by
  unfold serveRead
  try dsimp only
  repeat'
    first
    | with_reducible
      first
      | apply only_bind | apply only_ite | apply only_pure | apply only_st | apply only_skip | apply only_each
      | apply only_hbmRead | apply only_answer | apply only_refuseV | apply only_memServe
    | intro _ | split | assumption | exact subParts_trans (by decide) hs

theorem only_escChecked (dom : Nat) (pk : Packet) (k : Act s₀ Unit) (hk : Only ks k) (hs : subParts [.regs, .sram, .esc, .outs, .hosts, .crown] ks = true) :
    Only ks (escChecked dom pk k : Act s₀ Unit) := by
  unfold escChecked
  try dsimp only
  repeat'
    first
    | with_reducible
      first
      | apply only_bind | apply only_ite | apply hk | apply only_pure | apply only_st | apply only_skip | apply only_bump
      | apply only_escSram
    | intro _ | split | exact subParts_trans (by decide) hs

theorem only_escArrived (pk : Packet) (hs : subParts [.regs, .priv, .sram, .esc, .outs, .hosts, .schDue, .lpe, .crown] ks = true) :
    Only ks (escArrived pk : Act s₀ Unit) := by
  unfold escArrived
  try dsimp only
  repeat'
    first
    | with_reducible
      first
      | apply only_bind | apply only_ite | apply only_pure | apply only_st | apply only_skip | apply only_escDo
    | intro _ | split | exact subParts_trans (by decide) hs

theorem only_writeAt (v : Via) (pk : Packet) (o : Nat) (row : Option (Nat × Nat × Bool)) (hs : subParts [.regs, .priv, .hbm, .ecc, .sram, .esc, .outs, .hosts, .tbl, .schDue, .lpe, .links, .peers, .crown] ks = true) :
    Only ks (writeAt v pk o row : Act s₀ Unit) := by
  unfold writeAt
  try dsimp only
  repeat'
    first
    | with_reducible
      first
      | apply only_bind | apply only_ite | apply only_pure | apply only_st | apply only_skip | apply only_hbmWrite
      | apply only_answer | apply only_refuseV | apply only_writePart | apply only_noteFill | apply only_ackRow
      | apply only_escArrived
    | intro _ | split | exact subParts_trans (by decide) hs

theorem only_serveWrite (v : Via) (pk : Packet) (hs : subParts [.regs, .priv, .hbm, .ecc, .sram, .esc, .reqs, .outs, .hosts, .tbl, .schDue, .lpe, .rte, .links, .peers, .crown] ks = true) :
    Only ks (serveWrite v pk : Act s₀ Unit) := by
  unfold serveWrite
  try dsimp only
  repeat'
    first
    | with_reducible
      first
      | apply only_bind | apply only_ite | apply only_pure | apply only_st | apply only_skip | apply only_memServe
      | apply only_escChecked | apply only_writeAt
    | intro _ | split | assumption | exact subParts_trans (by decide) hs

theorem only_cacheIn (r : OpRef) (a : Nat) (b : List Byte) (hs : subParts [.ops] ks = true) :
    Only ks (cacheIn r a b : Act s₀ Unit) := by
  unfold cacheIn
  try dsimp only
  repeat'
    first
    | with_reducible
      first
      | apply only_bind | apply only_ite | apply only_pure | apply only_st | apply only_skip | apply only_modOp
    | intro _ | split | exact subParts_trans (by decide) hs

theorem only_readRefused (q : Req) (status : Nat) (hs : subParts [.regs, .priv, .hbm, .bench, .well, .host, .sram, .esc, .ops, .reqs, .outs, .hosts, .tbl, .sac, .cells, .schDue, .lpe, .rte, .links, .peers, .qps, .clb, .crown] ks = true) :
    Only ks (readRefused q status : Act s₀ Unit) := by
  unfold readRefused
  try dsimp only
  repeat'
    first
    | with_reducible
      first
      | apply only_bind | apply only_ite | apply only_pure | apply only_st | apply only_skip | apply only_modOp
      | apply only_reqFail
    | intro _ | split | exact subParts_trans (by decide) hs

end Sys2Proof.Laws
end

