-- ==== Sys2Proof/Laws/Foot/Migrate.lean ====
section
/-! SUPPORT. The parts of the state that each operation of Machine/Migrate.lean can touch. -/

namespace Sys2Proof.Laws

open Machine

variable {s₀ : State} {ks : List Part}

theorem only_serveAny (pk : Packet) (hs : subParts [.regs, .priv, .hbm, .bench, .well, .host, .ecc, .sram, .esc, .ops, .reqs, .outs, .hosts, .tbl, .sac, .cells, .schDue, .lpe, .rte, .links, .peers, .crown] ks = true) :
    Only ks (serveAny pk : Act s₀ Unit) := by
  unfold serveAny
  try dsimp only
  repeat'
    first
    | with_reducible
      first
      | apply only_bind | apply only_ite | apply only_pure | apply only_st | apply only_skip | apply only_refuseV
      | apply only_servePool | apply only_serveRead | apply only_serveWrite | apply only_serveContrib
      | apply only_serveRowUpd
    | intro _ | split | exact subParts_trans (by decide) hs

theorem only_unpark  (hs : subParts [.regs, .priv, .hbm, .bench, .well, .host, .ecc, .sram, .esc, .ops, .reqs, .outs, .hosts, .tbl, .sac, .cells, .schDue, .lpe, .rte, .links, .peers, .crown] ks = true) :
    Only ks (unpark  : Act s₀ Unit) := by
  unfold unpark
  try dsimp only
  repeat'
    first
    | with_reducible
      first
      | apply only_bind | apply only_ite | apply only_pure | apply only_st | apply only_skip | apply only_each
      | apply only_modTbl | apply only_oldTouch | apply only_serveAny
    | intro _ | split | exact subParts_trans (by decide) hs

theorem only_freeGuest (t r : Nat) (hs : subParts [.tbl] ks = true) :
    Only ks (freeGuest t r : Act s₀ Unit) := by
  unfold freeGuest
  try dsimp only
  repeat'
    first
    | with_reducible
      first
      | apply only_bind | apply only_ite | apply only_pure | apply only_st | apply only_skip | apply only_modTbl
    | intro _ | split | exact subParts_trans (by decide) hs

theorem only_inboundDrop (t r : Nat) (hs : subParts [.tbl] ks = true) :
    Only ks (inboundDrop t r : Act s₀ Unit) := by
  unfold inboundDrop
  try dsimp only
  repeat'
    first
    | with_reducible
      first
      | apply only_bind | apply only_ite | apply only_pure | apply only_st | apply only_skip | apply only_modTbl
    | intro _ | split | exact subParts_trans (by decide) hs

theorem only_reserveHere (t : Nat) (d : TDesc) (r units : Nat) (hs : subParts [.tbl] ks = true) :
    Only ks (reserveHere t d r units : Act s₀ Bool) := by
  unfold reserveHere
  try dsimp only
  repeat'
    first
    | with_reducible
      first
      | apply only_bind | apply only_ite | apply only_pure | apply only_st | apply only_skip | apply only_modTbl
    | intro _ | split | exact subParts_trans (by decide) hs

theorem only_installBytes (t : Nat) (d : TDesc) (r : Nat) (x : Snap) (hs : subParts [.regs, .hbm, .ecc, .outs, .hosts, .crown] ks = true) :
    Only ks (installBytes t d r x : Act s₀ Unit) := by
  unfold installBytes
  try dsimp only
  repeat'
    first
    | with_reducible
      first
      | apply only_bind | apply only_ite | apply only_pure | apply only_st | apply only_skip | apply only_hbmWrite
      | apply only_touchRow
    | intro _ | split | exact subParts_trans (by decide) hs

theorem only_castEntry (e : OvEntry) (a : Nat) (hs : subParts [.outs] ks = true) :
    Only ks (castEntry e a : Act s₀ Unit) := by
  unfold castEntry
  try dsimp only
  repeat'
    first
    | with_reducible
      first
      | apply only_bind | apply only_ite | apply only_pure | apply only_st | apply only_skip | apply only_sendPk
    | intro _ | split | exact subParts_trans (by decide) hs

theorem only_publishRow (e : OvEntry) (home : Nat) (hs : subParts [.regs, .outs, .tbl] ks = true) :
    Only ks (publishRow e home : Act s₀ Unit) := by
  unfold publishRow
  try dsimp only
  repeat'
    first
    | with_reducible
      first
      | apply only_bind | apply only_ite | apply only_pure | apply only_st | apply only_skip | apply only_each
      | apply only_bump | apply only_modTbl | apply only_sendPk | apply only_castEntry
    | intro _ | split | exact subParts_trans (by decide) hs

theorem only_installFinal (t : Nat) (d : TDesc) (r : Nat) (x : Snap) (oe : BitVec 16) (hs : subParts [.regs, .priv, .hbm, .bench, .well, .host, .ecc, .sram, .esc, .ops, .reqs, .outs, .hosts, .tbl, .sac, .cells, .schDue, .lpe, .rte, .links, .peers, .crown] ks = true) :
    Only ks (installFinal t d r x oe : Act s₀ Unit) := by
  unfold installFinal
  try dsimp only
  repeat'
    first
    | with_reducible
      first
      | apply only_bind | apply only_ite | apply only_pure | apply only_st | apply only_skip | apply only_modTbl
      | apply only_unpark | apply only_inboundDrop | apply only_installBytes | apply only_publishRow
    | intro _ | split | exact subParts_trans (by decide) hs

theorem only_serveMig (v : Via) (pk : Packet) (t r : Nat) (m : MigStep) (hs : subParts [.regs, .priv, .hbm, .bench, .well, .host, .ecc, .sram, .esc, .ops, .reqs, .outs, .hosts, .tbl, .sac, .cells, .schDue, .lpe, .rte, .links, .peers, .crown] ks = true) :
    Only ks (serveMig v pk t r m : Act s₀ Unit) := by
  unfold serveMig
  try dsimp only
  repeat'
    first
    | with_reducible
      first
      | apply only_bind | apply only_ite | apply only_pure | apply only_st | apply only_skip | apply only_modTbl
      | apply only_answer | apply only_tdSet | apply only_unpark | apply only_freeGuest | apply only_inboundDrop
      | apply only_reserveHere | apply only_installFinal
    | intro _ | split | exact subParts_trans (by decide) hs

theorem only_hbmTake (off len : Nat) (hs : subParts [.regs, .ecc, .outs, .hosts, .crown] ks = true) :
    Only ks (hbmTake off len : Act s₀ (Except Nat (List Byte))) := by
  unfold hbmTake
  try dsimp only
  repeat'
    first
    | with_reducible
      first
      | apply only_bind | apply only_ite | apply only_pure | apply only_st | apply only_skip | apply only_hbmTouch
    | intro _ | split | exact subParts_trans (by decide) hs

theorem only_snapRow (t : Nat) (d : TDesc) (r : Nat) (hs : subParts [.regs, .ecc, .outs, .hosts, .crown] ks = true) :
    Only ks (snapRow t d r : Act s₀ (Except Nat Snap)) := by
  unfold snapRow
  try dsimp only
  repeat'
    first
    | with_reducible
      first
      | apply only_bind | apply only_ite | apply only_pure | apply only_st | apply only_skip | apply only_hbmTake
    | intro _ | split | exact subParts_trans (by decide) hs

theorem only_putMig (m : Mig) (hs : subParts [.tbl] ks = true) :
    Only ks (putMig m : Act s₀ Unit) := by
  unfold putMig
  try dsimp only
  repeat'
    first
    | with_reducible
      first
      | apply only_bind | apply only_ite | apply only_pure | apply only_st | apply only_skip | apply only_modTbl
    | intro _ | split | exact subParts_trans (by decide) hs

theorem only_copyMove (m : Mig) (d : TDesc) (hs : subParts [.regs, .hbm, .bench, .well, .host, .ecc, .ops, .reqs, .outs, .hosts, .tbl, .cells, .rte, .crown] ks = true) :
    Only ks (copyMove m d : Act s₀ Unit) := by
  unfold copyMove
  try dsimp only
  repeat'
    first
    | with_reducible
      first
      | apply only_bind | apply only_ite | apply only_pure | apply only_st | apply only_skip | apply only_request
      | apply only_cancelMove | apply only_snapRow | apply only_putMig
    | intro _ | split | exact subParts_trans (by decide) hs

theorem only_switchMove (m : Mig) (d : TDesc) (hs : subParts [.regs, .hbm, .bench, .well, .host, .ecc, .ops, .reqs, .outs, .hosts, .tbl, .cells, .rte, .crown] ks = true) :
    Only ks (switchMove m d : Act s₀ Unit) := by
  unfold switchMove
  try dsimp only
  repeat'
    first
    | with_reducible
      first
      | apply only_bind | apply only_ite | apply only_pure | apply only_st | apply only_skip | apply only_modTbl
      | apply only_request | apply only_cancelMove | apply only_snapRow
    | intro _ | split | exact subParts_trans (by decide) hs

theorem only_moveAcked (t r : Nat) (x : MigStep) (ok : Bool) (op : Option OpRef) (hs : subParts [.regs, .hbm, .bench, .well, .host, .ecc, .ops, .reqs, .outs, .hosts, .tbl, .cells, .rte, .crown] ks = true) :
    Only ks (moveAcked t r x ok op : Act s₀ Unit) := by
  unfold moveAcked
  try dsimp only
  repeat'
    first
    | with_reducible
      first
      | apply only_bind | apply only_ite | apply only_pure | apply only_st | apply only_skip | apply only_bump
      | apply only_modTbl | apply only_endOp | apply only_setMstate | apply only_cancelMove | apply only_copyMove
      | apply only_switchMove
    | intro _ | split | exact subParts_trans (by decide) hs

theorem only_selectRows (dest : Nat) (n : List (Nat × Nat × Nat)) (own : Nat) (low : Nat) (left : Nat) (hs : subParts [.regs, .hbm, .bench, .well, .host, .ops, .reqs, .outs, .tbl, .cells, .rte] ks = true) :
    Only ks (selectRows dest n own low left : Act s₀ Unit) := by
  induction n generalizing own low left with
  | nil =>
    unfold selectRows
    try dsimp only
    repeat'
        first
        | with_reducible
          first
          | apply only_bind | apply only_ite | apply only_pure | apply only_st | apply only_skip
          | apply only_startMove
        | intro _ | split | exact subParts_trans (by decide) hs
  | cons x _ ih =>
    unfold selectRows
    try dsimp only
    repeat'
        first
        | with_reducible
          first
          | apply ih | apply only_bind | apply only_ite | apply only_pure | apply only_st | apply only_skip
          | apply only_startMove
        | intro _ | split | exact subParts_trans (by decide) hs

end Sys2Proof.Laws
end

