-- ==== Sys2Proof/Laws/Foot/Sampler.lean ====
section
/-! SUPPORT. The parts of the state that each operation of Machine/Sampler.lean can touch. -/

namespace Sys2Proof.Laws

open Machine

variable {s₀ : State} {ks : List Part}

theorem only_graphGet (g : Nat) (who : Option Who) (hs : subParts [.regs, .ecc, .outs, .hosts, .crown] ks = true) :
    OnlyT ks (graphGet g who : Try s₀ Nat) := by
  unfold graphGet
  try dsimp only
  repeat'
    first
    | with_reducible
      first
      | apply onlyT_bind | apply onlyT_ite | apply onlyT_attempt | apply onlyT_lift | apply only_bind | apply only_ite
      | apply only_pure | apply only_st | apply only_skip | apply onlyT_pure | apply onlyT_stop | apply only_hbmRead
    | intro _ | split | exact subParts_trans (by decide) hs

theorem only_rdNum (a n : Nat) (who : Option Who) (hs : subParts [.regs, .ecc, .outs, .hosts, .crown] ks = true) :
    OnlyT ks (rdNum a n who : Try s₀ Nat) := by
  unfold rdNum
  try dsimp only
  repeat'
    first
    | with_reducible
      first
      | apply onlyT_bind | apply onlyT_ite | apply onlyT_attempt | apply onlyT_lift | apply only_bind | apply only_ite
      | apply only_pure | apply only_st | apply only_skip | apply onlyT_pure | apply onlyT_stop | apply only_hbmRead
    | intro _ | split | exact subParts_trans (by decide) hs

theorem only_rowOf (g : Graph) (node : Nat) (who : Option Who) (hs : subParts [.regs, .ecc, .outs, .hosts, .crown] ks = true) :
    OnlyT ks (rowOf g node who : Try s₀ (Option (Nat × Nat))) := by
  unfold rowOf
  try dsimp only
  repeat'
    first
    | with_reducible
      first
      | apply onlyT_bind | apply onlyT_ite | apply onlyT_attempt | apply onlyT_lift | apply only_bind | apply only_ite
      | apply only_pure | apply only_st | apply only_skip | apply onlyT_pure | apply onlyT_stop | apply only_hbmRead
    | intro _ | split | exact subParts_trans (by decide) hs

theorem only_edgeAt (g : Graph) (ew : Bool) (lo p : Nat) (who : Option Who) (hs : subParts [.regs, .ecc, .outs, .hosts, .crown] ks = true) :
    OnlyT ks (edgeAt g ew lo p who : Try s₀ (Nat × Nat)) := by
  unfold edgeAt
  try dsimp only
  repeat'
    first
    | with_reducible
      first
      | apply onlyT_bind | apply onlyT_ite | apply onlyT_attempt | apply onlyT_lift | apply only_bind | apply only_ite
      | apply only_pure | apply only_st | apply only_skip | apply onlyT_pure | apply onlyT_stop | apply only_rdNum
      | apply onlyT_run
    | intro _ | split | exact subParts_trans (by decide) hs

theorem only_freeEdge (g : Graph) (ew : Bool) (i : Nat) :
    Only ks (freeEdge g ew i : Act s₀ (Nat × Nat)) := by
  unfold freeEdge
  try dsimp only
  repeat'
    first
    | with_reducible
      first
      | apply only_bind | apply only_ite | apply only_pure | apply only_st | apply only_skip
    | intro _ | split

theorem only_freeRow (g : Graph) (q : Draw) :
    Only ks (freeRow g q : Act s₀ (List (Nat × Nat))) := by
  unfold freeRow
  try dsimp only
  repeat'
    first
    | with_reducible
      first
      | apply only_bind | apply only_ite | apply only_pure | apply only_st | apply only_skip | apply only_mapA
      | apply only_freeEdge
    | intro _ | split

theorem only_aliasPos (g : Graph) (lo d : Nat) (y : Quad) (who : Option Who) (hs : subParts [.regs, .ecc, .outs, .hosts, .crown] ks = true) :
    OnlyT ks (aliasPos g lo d y who : Try s₀ Nat) := by
  unfold aliasPos
  try dsimp only
  repeat'
    first
    | with_reducible
      first
      | apply onlyT_bind | apply onlyT_ite | apply onlyT_attempt | apply onlyT_lift | apply only_bind | apply only_ite
      | apply only_pure | apply only_st | apply only_skip | apply onlyT_pure | apply onlyT_stop | apply only_rdNum
      | apply onlyT_run
    | intro _ | split | exact subParts_trans (by decide) hs

theorem only_edgeOr (g : Graph) (ew : Bool) (lo d p : Nat) (who : Option Who) (hs : subParts [.regs, .ecc, .outs, .hosts, .crown] ks = true) :
    OnlyT ks (edgeOr g ew lo d p who : Try s₀ (Nat × Nat)) := by
  unfold edgeOr
  try dsimp only
  repeat'
    first
    | with_reducible
      first
      | apply onlyT_bind | apply onlyT_ite | apply onlyT_attempt | apply onlyT_lift | apply only_bind | apply only_ite
      | apply only_pure | apply only_st | apply only_skip | apply onlyT_pure | apply onlyT_stop | apply only_edgeAt
      | apply onlyT_run | apply only_freeEdge
    | intro _ | split | exact subParts_trans (by decide) hs

theorem only_countDraws (n : Nat) (hs : subParts [.regs] ks = true) :
    Only ks (countDraws n : Act s₀ Unit) := by
  unfold countDraws
  try dsimp only
  repeat'
    first
    | with_reducible
      first
      | apply only_bind | apply only_ite | apply only_pure | apply only_st | apply only_skip | apply only_bump64
    | intro _ | split | exact subParts_trans (by decide) hs

theorem only_sampleTarget (g : Graph) (q : Draw) (hop node occ : Nat) (who : Option Who) (hs : subParts [.regs, .ecc, .outs, .hosts, .crown] ks = true) :
    OnlyT ks (sampleTarget g q hop node occ who : Try s₀ (List (Nat × Nat))) := by
  unfold sampleTarget
  try dsimp only
  repeat'
    first
    | with_reducible
      first
      | apply onlyT_bind | apply onlyT_ite | apply onlyT_attempt | apply onlyT_lift | apply only_bind | apply only_ite
      | apply only_pure | apply only_st | apply only_skip | apply onlyT_pure | apply onlyT_stop | apply onlyT_mapM
      | apply only_rowOf | apply onlyT_run | apply only_edgeAt | apply only_freeRow | apply only_aliasPos | apply only_edgeOr
      | apply only_countDraws
    | intro _ | split | exact subParts_trans (by decide) hs

theorem only_walkDraw (g : Graph) (q : Draw) (cur start occ slot : Nat) (who : Option Who) (hs : subParts [.regs, .ecc, .outs, .hosts, .crown] ks = true) :
    OnlyT ks (walkDraw g q cur start occ slot who : Try s₀ (Option (Nat × Nat))) := by
  unfold walkDraw
  try dsimp only
  repeat'
    first
    | with_reducible
      first
      | apply onlyT_bind | apply onlyT_ite | apply onlyT_attempt | apply onlyT_lift | apply only_bind | apply only_ite
      | apply only_pure | apply only_st | apply only_skip | apply onlyT_pure | apply onlyT_stop | apply only_rowOf
      | apply onlyT_run | apply only_freeEdge | apply only_aliasPos | apply only_edgeOr | apply only_countDraws
    | intro _ | split | exact subParts_trans (by decide) hs

theorem only_admSample (o : Op) (hs : subParts [.regs, .ecc, .ops, .outs, .hosts, .crown] ks = true) :
    Only ks (admSample o : Act s₀ Adm) := by
  unfold admSample
  try dsimp only
  repeat'
    first
    | with_reducible
      first
      | apply only_bind | apply only_ite | apply only_pure | apply only_st | apply only_skip | apply only_modOp
      | apply only_captureTbl | apply only_graphGet | apply onlyT_run
    | intro _ | split | exact subParts_trans (by decide) hs

theorem only_smpRequests (o : Op) (q : Draw) (hop : Nat) (xs : List (Nat × Nat)) (entry : Nat → List Byte) (hs : subParts [.reqs, .outs, .rte] ks = true) :
    Only ks (smpRequests o q hop xs entry : Act s₀ Nat) := by
  unfold smpRequests
  try dsimp only
  repeat'
    first
    | with_reducible
      first
      | apply only_bind | apply only_ite | apply only_pure | apply only_st | apply only_skip | apply only_foldA
      | apply only_request
    | intro _ | split | exact subParts_trans (by decide) hs

theorem only_smpHop (o : Op) (g : Graph) (h : Nat) (nodes : List Nat) (hs : subParts [.regs, .ecc, .reqs, .outs, .hosts, .rte, .crown] ks = true) :
    OnlyT ks (smpHop o g h nodes : Try s₀ HopWork) := by
  unfold smpHop
  try dsimp only
  repeat'
    first
    | with_reducible
      first
      | apply onlyT_bind | apply onlyT_ite | apply onlyT_attempt | apply onlyT_lift | apply only_bind | apply only_ite
      | apply only_pure | apply only_st | apply only_skip | apply onlyT_pure | apply onlyT_stop | apply onlyT_mapM
      | apply only_bump | apply only_sampleTarget | apply onlyT_run | apply only_smpRequests
    | intro _ | split | exact subParts_trans (by decide) hs

theorem only_walkDone (s : State) (o : Op) (l : List (Nat × Nat)) :
    OnlyT ks (walkDone s o l : Try s₀ WalkEnd) := by
  unfold walkDone
  try dsimp only
  repeat'
    first
    | with_reducible
      first
      | apply onlyT_bind | apply onlyT_ite | apply onlyT_attempt | apply onlyT_lift | apply only_bind | apply only_ite
      | apply only_pure | apply only_st | apply only_skip | apply onlyT_pure | apply onlyT_stop
    | intro _ | split

theorem only_walkGo (o : Op) (g : Graph) (q : Draw) (start occ w : Nat) (n : Nat) (l : List (Nat × Nat)) (hs : subParts [.regs, .ecc, .outs, .hosts, .crown] ks = true) :
    OnlyT ks (walkGo o g q start occ w n l : Try s₀ WalkEnd) := by
  induction n generalizing l with
  | zero =>
    unfold walkGo
    try dsimp only
    repeat'
        first
        | with_reducible
          first
          | apply onlyT_bind | apply onlyT_ite | apply onlyT_attempt | apply onlyT_lift | apply only_bind
          | apply only_ite | apply only_pure | apply only_st | apply only_skip | apply onlyT_pure | apply onlyT_stop
          | apply only_rowOf | apply onlyT_run | apply only_countDraws | apply only_walkDraw | apply only_walkDone
        | intro _ | split | exact subParts_trans (by decide) hs
  | succ _ ih =>
    unfold walkGo
    try dsimp only
    repeat'
        first
        | with_reducible
          first
          | apply ih | apply onlyT_bind | apply onlyT_ite | apply onlyT_attempt | apply onlyT_lift | apply only_bind
          | apply only_ite | apply only_pure | apply only_st | apply only_skip | apply onlyT_pure | apply onlyT_stop
          | apply only_rowOf | apply onlyT_run | apply only_countDraws | apply only_walkDraw | apply only_walkDone
        | intro _ | split | exact subParts_trans (by decide) hs

theorem only_walksGo (o : Op) (g : Graph) (fin part : HopWork) (hs : subParts [.regs, .ecc, .reqs, .outs, .hosts, .rte, .crown] ks = true) :
    OnlyT ks (walksGo o g fin part : Try s₀ (HopWork × HopWork)) := by
  unfold walksGo
  try dsimp only
  repeat'
    first
    | with_reducible
      first
      | apply onlyT_bind | apply onlyT_ite | apply onlyT_attempt | apply onlyT_lift | apply only_bind | apply only_ite
      | apply only_pure | apply only_st | apply only_skip | apply onlyT_pure | apply onlyT_stop | apply onlyT_mapM
      | apply only_smpRequests | apply only_walkGo | apply onlyT_run
    | intro _ | split | exact subParts_trans (by decide) hs

theorem only_smpFinish (o : Op) (g : Graph) (hops : List HopWork) (hs : subParts [.regs, .hbm, .bench, .well, .host, .ecc, .ops, .reqs, .outs, .hosts, .tbl, .sac, .cells, .rte, .crown] ks = true) :
    Only ks (smpFinish o g hops : Act s₀ Unit) := by
  unfold smpFinish
  try dsimp only
  repeat'
    first
    | with_reducible
      first
      | apply only_bind | apply only_ite | apply only_pure | apply only_st | apply only_skip | apply only_modSac
      | apply only_putOp | apply only_endOp | apply only_waitRes | apply only_finish | apply only_deliver
      | apply only_uitClear | apply only_uitDrop
    | intro _ | split | exact subParts_trans (by decide) hs

theorem only_smpHops' (o : Op) (g : Graph) (n : Nat) (xs : List HopWork) (hs : subParts [.regs, .ecc, .reqs, .outs, .hosts, .rte, .crown] ks = true) :
    OnlyT ks (smpHops' o g n xs : Try s₀ (List HopWork)) := by
  induction n generalizing xs with
  | zero =>
    unfold smpHops'
    try dsimp only
    repeat'
        first
        | with_reducible
          first
          | apply onlyT_bind | apply onlyT_ite | apply onlyT_attempt | apply onlyT_lift | apply only_bind
          | apply only_ite | apply only_pure | apply only_st | apply only_skip | apply onlyT_pure | apply onlyT_stop
          | apply only_smpHop | apply onlyT_run
        | intro _ | split | exact subParts_trans (by decide) hs
  | succ _ ih =>
    unfold smpHops'
    try dsimp only
    repeat'
        first
        | with_reducible
          first
          | apply ih | apply onlyT_bind | apply onlyT_ite | apply onlyT_attempt | apply onlyT_lift | apply only_bind
          | apply only_ite | apply only_pure | apply only_st | apply only_skip | apply onlyT_pure | apply onlyT_stop
          | apply only_smpHop | apply onlyT_run
        | intro _ | split | exact subParts_trans (by decide) hs

theorem only_smpRun (o : Op) (g : Graph) (hs : subParts [.regs, .ecc, .reqs, .outs, .hosts, .tbl, .rte, .crown] ks = true) :
    OnlyT ks (smpRun o g : Try s₀ (Option (List HopWork))) := by
  unfold smpRun
  try dsimp only
  repeat'
    first
    | with_reducible
      first
      | apply onlyT_bind | apply onlyT_ite | apply onlyT_attempt | apply onlyT_lift | apply only_bind | apply only_ite
      | apply only_pure | apply only_st | apply only_skip | apply onlyT_pure | apply onlyT_stop | apply only_bump
      | apply only_fetch | apply only_smpHop | apply onlyT_run | apply only_walksGo | apply only_smpHops'
    | intro _ | split | exact subParts_trans (by decide) hs

theorem only_sampleGo (r : OpRef) (hs : subParts [.regs, .hbm, .bench, .well, .host, .ecc, .ops, .reqs, .outs, .hosts, .tbl, .sac, .cells, .rte, .crown] ks = true) :
    Only ks (sampleGo r : Act s₀ Unit) := by
  unfold sampleGo
  try dsimp only
  repeat'
    first
    | with_reducible
      first
      | apply only_bind | apply only_ite | apply only_pure | apply only_st | apply only_skip | apply only_modOp
      | apply only_endOp | apply only_waitRes | apply only_smpFinish | apply only_smpRun | apply onlyT_run
    | intro _ | split | exact subParts_trans (by decide) hs

theorem only_sampleServe (b : List Byte) (hs : subParts [.regs, .ecc, .outs, .hosts, .crown] ks = true) :
    OnlyT ks (sampleServe b : Try s₀ (List (List (Nat × Nat)))) := by
  unfold sampleServe
  try dsimp only
  repeat'
    first
    | with_reducible
      first
      | apply onlyT_bind | apply onlyT_ite | apply onlyT_attempt | apply onlyT_lift | apply only_bind | apply only_ite
      | apply only_pure | apply only_st | apply only_skip | apply onlyT_pure | apply onlyT_stop | apply onlyT_mapM
      | apply only_graphGet | apply onlyT_run | apply only_sampleTarget | apply only_walkDraw
    | intro _ | split | exact subParts_trans (by decide) hs

theorem only_serveSample (v : Via) (pk : Packet) (hs : subParts [.regs, .ecc, .outs, .hosts, .links, .peers, .crown] ks = true) :
    Only ks (serveSample v pk : Act s₀ Unit) := by
  unfold serveSample
  try dsimp only
  repeat'
    first
    | with_reducible
      first
      | apply only_bind | apply only_ite | apply only_pure | apply only_st | apply only_skip | apply only_answer
      | apply only_refuseV | apply only_sampleServe | apply onlyT_run
    | intro _ | split | exact subParts_trans (by decide) hs

end Sys2Proof.Laws
end

