-- ==== Sys2Proof/Laws/Foot/SvcBase.lean ====
section
/-! SUPPORT. The parts of the state that each operation of Machine/SvcBase.lean can touch. -/

namespace Sys2Proof.Laws

open Machine

variable {s₀ : State} {ks : List Part}

theorem only_qpSend (q : Nat) (b : List Byte) (hs : subParts [.regs, .outs, .links, .qps] ks = true) :
    Only ks (qpSend q b : Act s₀ Unit) := by
  unfold qpSend
  try dsimp only
  repeat'
    first
    | with_reducible
      first
      | apply only_bind | apply only_ite | apply only_pure | apply only_st | apply only_skip | apply only_regFld
      | apply only_sendQp | apply only_setQp
    | intro _ | split | exact subParts_trans (by decide) hs

theorem only_qpDrain (q : Nat) (n : Nat) (hs : subParts [.regs, .outs, .links, .qps] ks = true) :
    Only ks (qpDrain q n : Act s₀ Unit) := by
  induction n with
  | zero =>
    unfold qpDrain
    try dsimp only
    repeat'
        first
        | with_reducible
          first
          | apply only_bind | apply only_ite | apply only_pure | apply only_st | apply only_skip
          | apply only_setQp | apply only_qpSend
        | intro _ | split | exact subParts_trans (by decide) hs
  | succ _ ih =>
    unfold qpDrain
    try dsimp only
    repeat'
        first
        | with_reducible
          first
          | apply ih | apply only_bind | apply only_ite | apply only_pure | apply only_st | apply only_skip
          | apply only_setQp | apply only_qpSend
        | intro _ | split | exact subParts_trans (by decide) hs

theorem only_qpAnswer (o : Op) (hs : subParts [.regs, .outs, .links, .qps] ks = true) :
    Only ks (qpAnswer o : Act s₀ Unit) := by
  unfold qpAnswer
  try dsimp only
  repeat'
    first
    | with_reducible
      first
      | apply only_bind | apply only_ite | apply only_pure | apply only_st | apply only_skip | apply only_setQp
      | apply only_qpDrain
    | intro _ | split | exact subParts_trans (by decide) hs

end Sys2Proof.Laws
end

