-- ==== Sys2Proof/Laws/Foot/Rings.lean ====
section
/-! SUPPORT. The parts of the state that each operation of Machine/Rings.lean can touch. -/

namespace Sys2Proof.Laws

open Machine

variable {s₀ : State} {ks : List Part}

theorem only_admOp (o : Op) (hs : subParts [.regs, .ecc, .ops, .outs, .hosts, .tbl, .crown] ks = true) :
    Only ks (admOp o : Act s₀ Adm) := by
  unfold admOp
  try dsimp only
  repeat'
    first
    | with_reducible
      first
      | apply only_bind | apply only_ite | apply only_pure | apply only_st | apply only_skip | apply only_admGather
      | apply only_admTable | apply only_admCellRun | apply only_admBwd | apply only_admCopy | apply only_admPeer
      | apply only_admSample | apply only_admScatter | apply only_admUpdate | apply only_admCol
    | intro _ | split | exact subParts_trans (by decide) hs

theorem only_admitNow (r : OpRef) (hs : subParts [.regs, .priv, .hbm, .bench, .well, .host, .ecc, .sram, .ops, .reqs, .outs, .hosts, .tbl, .cells, .col, .crown] ks = true) :
    Only ks (admitNow r : Act s₀ Unit) := by
  unfold admitNow
  try dsimp only
  repeat'
    first
    | with_reducible
      first
      | apply only_bind | apply only_ite | apply only_pure | apply only_st | apply only_skip | apply only_each
      | apply only_privSet | apply only_putOp | apply only_endOp | apply only_endClean | apply only_captureAddr
      | apply only_colAdmitted | apply only_admOp
    | intro _ | split | exact subParts_trans (by decide) hs

theorem only_admitTry (r : OpRef) (hs : subParts [.regs, .priv, .hbm, .bench, .well, .host, .ecc, .sram, .ops, .reqs, .outs, .hosts, .tbl, .cells, .col, .crown] ks = true) :
    Only ks (admitTry r : Act s₀ Unit) := by
  unfold admitTry
  try dsimp only
  repeat'
    first
    | with_reducible
      first
      | apply only_bind | apply only_ite | apply only_pure | apply only_st | apply only_skip | apply only_putOp
      | apply only_notAdmitted | apply only_admitNow
    | intro _ | split | exact subParts_trans (by decide) hs

theorem only_takeTurn (r : OpRef) (hs : subParts [.regs, .priv, .hbm, .bench, .well, .host, .ecc, .sram, .esc, .ops, .marks, .reqs, .outs, .hosts, .tbl, .cells, .col, .crown] ks = true) :
    Only ks (takeTurn r : Act s₀ Unit) := by
  unfold takeTurn
  try dsimp only
  repeat'
    first
    | with_reducible
      first
      | apply only_bind | apply only_ite | apply only_pure | apply only_st | apply only_skip | apply only_emit
      | apply only_notAdmitted | apply only_depAbort | apply only_escSram | apply only_admitTry
    | intro _ | split | exact subParts_trans (by decide) hs | exact within_mono (by with_unfolding_all rfl) hs

theorem only_fetchAux (d : Fin 4) (r : Fin 64) (n : Nat) (hs : subParts [.regs, .priv, .hbm, .bench, .well, .host, .ecc, .sram, .esc, .ops, .marks, .reqs, .outs, .hosts, .tbl, .cells, .col, .crown] ks = true) :
    Only ks (fetchAux d r n : Act s₀ Unit) := by
  induction n with
  | zero =>
    unfold fetchAux
    try dsimp only
    repeat'
        first
        | with_reducible
          first
          | apply only_bind | apply only_ite | apply only_pure | apply only_st | apply only_skip | apply only_emit
          | apply only_takeTurn
        | intro _ | split | exact subParts_trans (by decide) hs | exact within_mono (by with_unfolding_all rfl) hs
  | succ _ ih =>
    unfold fetchAux
    try dsimp only
    repeat'
        first
        | with_reducible
          first
          | apply ih | apply only_bind | apply only_ite | apply only_pure | apply only_st | apply only_skip | apply only_emit
          | apply only_takeTurn
        | intro _ | split | exact subParts_trans (by decide) hs | exact within_mono (by with_unfolding_all rfl) hs

theorem only_fetchRing (d : Fin 4) (r : Fin 64) (hs : subParts [.regs, .priv, .hbm, .bench, .well, .host, .ecc, .sram, .esc, .ops, .marks, .reqs, .outs, .hosts, .tbl, .cells, .col, .crown] ks = true) :
    Only ks (fetchRing d r : Act s₀ Unit) := by
  unfold fetchRing
  try dsimp only
  repeat'
    first
    | with_reducible
      first
      | apply only_bind | apply only_ite | apply only_pure | apply only_st | apply only_skip | apply only_fetchAux
    | intro _ | split | exact subParts_trans (by decide) hs

theorem only_fetchKx (d : Fin 4) (hs : subParts [.regs, .priv, .hbm, .bench, .well, .host, .ecc, .sram, .ops, .reqs, .outs, .hosts, .tbl, .cells, .col, .crown] ks = true) :
    Only ks (fetchKx d : Act s₀ Unit) := by
  unfold fetchKx
  try dsimp only
  repeat'
    first
    | with_reducible
      first
      | apply only_bind | apply only_ite | apply only_pure | apply only_st | apply only_skip | apply only_emit
      | apply only_notAdmitted | apply only_admitTry
    | intro _ | split | exact subParts_trans (by decide) hs | exact within_mono (by with_unfolding_all rfl) hs

theorem only_fetchAll  (hs : subParts [.regs, .priv, .hbm, .bench, .well, .host, .ecc, .sram, .esc, .ops, .marks, .reqs, .outs, .hosts, .tbl, .cells, .col, .crown] ks = true) :
    Only ks (fetchAll  : Act s₀ Unit) := by
  unfold fetchAll
  try dsimp only
  repeat'
    first
    | with_reducible
      first
      | apply only_bind | apply only_ite | apply only_pure | apply only_st | apply only_skip | apply only_each
      | apply only_fetchRing | apply only_fetchKx
    | intro _ | split | exact subParts_trans (by decide) hs

theorem only_fetchNext (r : OpRef) (hs : subParts [.regs, .priv, .hbm, .bench, .well, .host, .ecc, .sram, .esc, .ops, .marks, .reqs, .outs, .hosts, .tbl, .cells, .col, .crown] ks = true) :
    Only ks (fetchNext r : Act s₀ Unit) := by
  unfold fetchNext
  try dsimp only
  repeat'
    first
    | with_reducible
      first
      | apply only_bind | apply only_ite | apply only_pure | apply only_st | apply only_skip | apply only_fetchRing
      | apply only_fetchKx
    | intro _ | split | exact subParts_trans (by decide) hs

theorem only_hostPosted (d : Nat) (l : List Host.Cell) (hs : subParts [.host] ks = true) :
    Only ks (hostPosted d l : Act s₀ Unit) := by
  unfold hostPosted
  try dsimp only
  repeat'
    first
    | with_reducible
      first
      | apply only_bind | apply only_ite | apply only_pure | apply only_st | apply only_skip | apply only_each
      | apply only_hostWrite
    | intro _ | split | exact subParts_trans (by decide) hs

theorem only_hdmReject (d : Nat) (hs : subParts [.regs] ks = true) :
    Only ks (hdmReject d : Act s₀ Unit) := by
  unfold hdmReject
  try dsimp only
  repeat'
    first
    | with_reducible
      first
      | apply only_bind | apply only_ite | apply only_pure | apply only_st | apply only_skip | apply only_bump
    | intro _ | split | exact subParts_trans (by decide) hs

theorem only_ringWord4 (d : Fin 4) (r : Fin 64) (v : Nat) (hs : subParts [.regs, .priv, .recorded, .marks, .clb] ks = true) :
    Only ks (ringWord4 d r v : Act s₀ Unit) := by
  unfold ringWord4
  try dsimp only
  repeat'
    first
    | with_reducible
      first
      | apply only_bind | apply only_ite | apply only_pure | apply only_st | apply only_skip | apply only_emit
      | apply only_privSet | apply only_report
    | intro _ | split | exact subParts_trans (by decide) hs | exact within_mono (by with_unfolding_all rfl) hs

theorem only_admitOne (e : Nat) (hs : subParts [.regs, .priv, .hbm, .bench, .well, .host, .ecc, .sram, .esc, .ops, .marks, .reqs, .outs, .hosts, .tbl, .cells, .col, .crown] ks = true) :
    Only ks (admitOne e : Act s₀ Unit) := by
  unfold admitOne
  try dsimp only
  repeat'
    first
    | with_reducible
      first
      | apply only_bind | apply only_ite | apply only_pure | apply only_st | apply only_skip | apply only_admitNow
      | apply only_fetchNext
    | intro _ | split | exact subParts_trans (by decide) hs

theorem only_escCtlEnd (r : OpRef) (sub : Nat) (eff : Op → EscEff) (hs : subParts [.regs, .priv, .hbm, .bench, .well, .host, .sram, .esc, .ops, .reqs, .outs, .hosts, .cells, .schDue, .lpe, .crown] ks = true) :
    Only ks (escCtlEnd r sub eff : Act s₀ Unit) := by
  unfold escCtlEnd
  try dsimp only
  repeat'
    first
    | with_reducible
      first
      | apply only_bind | apply only_ite | apply only_pure | apply only_st | apply only_skip | apply only_withOp
      | apply only_endOp | apply only_escWaiters | apply only_escDo
    | intro _ | split | exact subParts_trans (by decide) hs

theorem only_abortTarget (d : Fin 4) (r : Fin 64) (i : Nat) (hs : subParts [.priv, .hbm, .bench, .well, .host, .ops, .marks, .reqs, .cells] ks = true) :
    Only ks (abortTarget d r i : Act s₀ Nat) := by
  unfold abortTarget
  try dsimp only
  repeat'
    first
    | with_reducible
      first
      | apply only_bind | apply only_ite | apply only_pure | apply only_st | apply only_skip | apply only_emit
      | apply only_endOp | apply only_notAdmitted
    | intro _ | split | exact subParts_trans (by decide) hs | exact within_mono (by with_unfolding_all rfl) hs

theorem only_escCmd (d : Fin 4) (i : Nat) (k : Act s₀ Unit) (hk : Only ks k) (hs : subParts [.regs] ks = true) :
    Only ks (escCmd d i k : Act s₀ Unit) := by
  unfold escCmd
  try dsimp only
  repeat'
    first
    | with_reducible
      first
      | apply only_bind | apply only_ite | apply hk | apply only_pure | apply only_st | apply only_skip
      | apply only_hdmReject
    | intro _ | split | exact subParts_trans (by decide) hs

theorem only_escCmdDo (i gen : Nat) (o : EscEff) (hs : subParts [.regs, .priv, .hbm, .bench, .well, .host, .sram, .esc, .ops, .reqs, .outs, .hosts, .cells, .schDue, .lpe, .crown] ks = true) :
    Only ks (escCmdDo i gen o : Act s₀ Unit) := by
  unfold escCmdDo
  try dsimp only
  repeat'
    first
    | with_reducible
      first
      | apply only_bind | apply only_ite | apply only_pure | apply only_st | apply only_skip | apply only_escWaiters
      | apply only_escDo
    | intro _ | split | exact subParts_trans (by decide) hs

theorem only_showOut (o : Op) (hs : subParts [.regs, .hbm, .bench, .well, .host, .ecc, .ops, .outs, .hosts, .tbl, .crown] ks = true) :
    Only ks (showOut o : Act s₀ Unit) := by
  unfold showOut
  try dsimp only
  repeat'
    first
    | with_reducible
      first
      | apply only_bind | apply only_ite | apply only_pure | apply only_st | apply only_skip | apply only_each
      | apply only_emit | apply only_hbmWrite | apply only_putOp | apply only_noteFill
    | intro _ | split | exact subParts_trans (by decide) hs | exact within_mono (by with_unfolding_all rfl) hs

theorem only_cplAct (o : Op) (hs : subParts [.regs, .priv, .hbm, .bench, .well, .host, .sram, .esc, .ops, .reqs, .outs, .hosts, .cells, .schDue, .lpe, .crown] ks = true) :
    Only ks (cplAct o : Act s₀ (Nat × Bool)) := by
  unfold cplAct
  try dsimp only
  repeat'
    first
    | with_reducible
      first
      | apply only_bind | apply only_ite | apply only_pure | apply only_st | apply only_skip | apply only_emit
      | apply only_bump | apply only_escWaiters | apply only_escSram | apply only_escDo
    | intro _ | split | exact subParts_trans (by decide) hs | exact within_mono (by with_unfolding_all rfl) hs

theorem only_ringRecord (o : Op) (gen : Nat) (stale : Bool) (hs : subParts [.priv, .host, .recorded, .outs] ks = true) :
    Only ks (ringRecord o gen stale : Act s₀ Unit) := by
  unfold ringRecord
  try dsimp only
  repeat'
    first
    | with_reducible
      first
      | apply only_bind | apply only_ite | apply only_pure | apply only_st | apply only_skip | apply only_emit
      | apply only_privSet | apply only_signal | apply only_hostWrite
    | intro _ | split | exact subParts_trans (by decide) hs | exact within_mono (by with_unfolding_all rfl) hs

theorem only_kxComplete (o : Op) (hs : subParts [.host, .outs] ks = true) :
    Only ks (kxComplete o : Act s₀ Unit) := by
  unfold kxComplete
  try dsimp only
  repeat'
    first
    | with_reducible
      first
      | apply only_bind | apply only_ite | apply only_pure | apply only_st | apply only_skip | apply only_signal
      | apply only_hostWrite
    | intro _ | split | exact subParts_trans (by decide) hs

theorem only_completeOp (o : Op) (hs : subParts [.regs, .priv, .hbm, .bench, .well, .host, .ecc, .sram, .esc, .ops, .recorded, .reqs, .outs, .hosts, .tbl, .sac, .cells, .schDue, .lpe, .rte, .links, .peers, .qps, .crown] ks = true) :
    Only ks (completeOp o : Act s₀ Unit) := by
  unfold completeOp
  try dsimp only
  repeat'
    first
    | with_reducible
      first
      | apply only_bind | apply only_ite | apply only_pure | apply only_st | apply only_skip | apply only_emit
      | apply only_bump | apply only_drainAct | apply only_qpAnswer | apply only_unpark | apply only_showOut
      | apply only_cplAct | apply only_ringRecord | apply only_kxComplete
    | intro _ | split | exact subParts_trans (by decide) hs | exact within_mono (by with_unfolding_all rfl) hs

end Sys2Proof.Laws
end

