-- ==== Sys2Proof/Laws/Foot/Service.lean ====
section
/-! SUPPORT. The parts of the state that each operation of Machine/Service.lean can touch. -/

namespace Sys2Proof.Laws

open Machine

variable {s₀ : State} {ks : List Part}

theorem only_resume (p : Nat) (half : Bool) (q : Nat) (hs : subParts [.outs, .links] ks = true) :
    Only ks (resume p half q : Act s₀ Unit) := by
  unfold resume
  try dsimp only
  repeat'
    first
    | with_reducible
      first
      | apply only_bind | apply only_ite | apply only_pure | apply only_st | apply only_skip | apply only_emit
      | apply only_setLink
    | intro _ | split | exact subParts_trans (by decide) hs | exact within_mono (by with_unfolding_all rfl) hs

theorem only_crownAnswer (p : Nat) (half : Bool) (m : TxMsg) (hs : subParts [.regs, .outs, .links] ks = true) :
    Only ks (crownAnswer p half m : Act s₀ Unit) := by
  unfold crownAnswer
  try dsimp only
  repeat'
    first
    | with_reducible
      first
      | apply only_bind | apply only_ite | apply only_pure | apply only_st | apply only_skip | apply only_bump
      | apply only_sendFrame | apply only_setLink
    | intro _ | split | exact subParts_trans (by decide) hs

theorem only_peerSet (n state ver : Nat) (hs : subParts [.regs] ks = true) :
    Only ks (peerSet n state ver : Act s₀ Unit) := by
  unfold peerSet
  try dsimp only
  repeat'
    first
    | with_reducible
      first
      | apply only_bind | apply only_ite | apply only_pure | apply only_st | apply only_skip | apply only_regSet
    | intro _ | split | exact subParts_trans (by decide) hs

theorem only_peerFail (n status : Nat) (hs : subParts [.regs, .priv, .hbm, .bench, .well, .host, .sram, .esc, .ops, .reqs, .outs, .hosts, .tbl, .sac, .cells, .schDue, .lpe, .rte, .links, .peers, .qps, .clb, .crown] ks = true) :
    Only ks (peerFail n status : Act s₀ Unit) := by
  unfold peerFail
  try dsimp only
  repeat'
    first
    | with_reducible
      first
      | apply only_bind | apply only_ite | apply only_pure | apply only_st | apply only_skip | apply only_each
      | apply only_reqFail
    | intro _ | split | exact subParts_trans (by decide) hs

theorem only_peerGone (n : Nat) (hs : subParts [.regs, .priv, .hbm, .bench, .well, .host, .sram, .esc, .ops, .reqs, .outs, .hosts, .tbl, .sac, .cells, .schDue, .lpe, .rte, .links, .peers, .qps, .clb, .crown] ks = true) :
    Only ks (peerGone n : Act s₀ Unit) := by
  unfold peerGone
  try dsimp only
  repeat'
    first
    | with_reducible
      first
      | apply only_bind | apply only_ite | apply only_pure | apply only_st | apply only_skip | apply only_each
      | apply only_endOp | apply only_peerFail
    | intro _ | split | exact subParts_trans (by decide) hs

theorem only_peerHello (n : Nat) (ce : Bool) (h : HelloRec) (hs : subParts [.regs, .priv, .hbm, .bench, .well, .host, .sram, .esc, .ops, .reqs, .outs, .hosts, .tbl, .sac, .cells, .schDue, .lpe, .rte, .links, .peers, .qps, .clb, .crown] ks = true) :
    Only ks (peerHello n ce h : Act s₀ Unit) := by
  unfold peerHello
  try dsimp only
  repeat'
    first
    | with_reducible
      first
      | apply only_bind | apply only_ite | apply only_pure | apply only_st | apply only_skip | apply only_setPeer
      | apply only_peerSet | apply only_peerFail
    | intro _ | split | exact subParts_trans (by decide) hs

theorem only_roceBad (q : Nat) (psn : BitVec 24) (code : Nat) (hs : subParts [.regs, .priv, .hbm, .bench, .well, .host, .sram, .esc, .ops, .reqs, .outs, .hosts, .cells, .schDue, .lpe, .links, .qps, .crown] ks = true) :
    Only ks (roceBad q psn code : Act s₀ Unit) := by
  unfold roceBad
  try dsimp only
  repeat'
    first
    | with_reducible
      first
      | apply only_bind | apply only_ite | apply only_pure | apply only_st | apply only_skip | apply only_bump
      | apply only_sendQp | apply only_qpError
    | intro _ | split | exact subParts_trans (by decide) hs

theorem only_cnpSend (q : Nat) (hs : subParts [.regs, .outs, .links, .qps] ks = true) :
    Only ks (cnpSend q : Act s₀ Unit) := by
  unfold cnpSend
  try dsimp only
  repeat'
    first
    | with_reducible
      first
      | apply only_bind | apply only_ite | apply only_pure | apply only_st | apply only_skip | apply only_bump
      | apply only_sendQp | apply only_setQp
    | intro _ | split | exact subParts_trans (by decide) hs

theorem only_roceIn (q : Nat) (k : RocePkt) (f : Bool → Act s₀ Unit) (hf : ∀ x, Only ks (f x)) (hs : subParts [.regs, .priv, .hbm, .bench, .well, .host, .sram, .esc, .ops, .reqs, .outs, .hosts, .cells, .schDue, .lpe, .links, .qps, .crown] ks = true) :
    Only ks (roceIn q k f : Act s₀ Unit) := by
  unfold roceIn
  try dsimp only
  repeat'
    first
    | with_reducible
      first
      | apply only_bind | apply only_ite | apply hf | apply only_pure | apply only_st | apply only_skip | apply only_bump
      | apply only_sendQp | apply only_rxTake | apply only_roceBad | apply only_cnpSend
    | intro _ | split | exact subParts_trans (by decide) hs

theorem only_psnNext (q n : Nat) (hs : subParts [.regs] ks = true) :
    Only ks (psnNext q n : Act s₀ Unit) := by
  unfold psnNext
  try dsimp only
  repeat'
    first
    | with_reducible
      first
      | apply only_bind | apply only_ite | apply only_pure | apply only_st | apply only_skip | apply only_regFld
    | intro _ | split | exact subParts_trans (by decide) hs

theorem only_roceAckDue (q : Nat) (k : RocePkt) (hs : subParts [.outs, .links, .qps] ks = true) :
    Only ks (roceAckDue q k : Act s₀ Unit) := by
  unfold roceAckDue
  try dsimp only
  repeat'
    first
    | with_reducible
      first
      | apply only_bind | apply only_ite | apply only_pure | apply only_st | apply only_skip | apply only_sendQp
      | apply only_setQp
    | intro _ | split | exact subParts_trans (by decide) hs

theorem only_roceWrite (q : Nat) (psn : BitVec 24) (a : Nat) (b : List Byte) (hs : subParts [.regs, .hbm, .ecc, .reqs, .outs, .hosts, .rte, .crown] ks = true) :
    Only ks (roceWrite q psn a b : Act s₀ (Option Bool)) := by
  unfold roceWrite
  try dsimp only
  repeat'
    first
    | with_reducible
      first
      | apply only_bind | apply only_ite | apply only_pure | apply only_st | apply only_skip | apply only_hbmWrite
      | apply only_request
    | intro _ | split | exact subParts_trans (by decide) hs

theorem only_roceRun (q : Nat) (b : List Byte) (hs : subParts [.regs, .priv, .hbm, .bench, .well, .host, .ecc, .sram, .ops, .reqs, .outs, .hosts, .tbl, .cells, .col, .qps, .crown] ks = true) :
    Only ks (roceRun q b : Act s₀ Unit) := by
  unfold roceRun
  try dsimp only
  repeat'
    first
    | with_reducible
      first
      | apply only_bind | apply only_ite | apply only_pure | apply only_st | apply only_skip | apply only_emit
      | apply only_notAdmitted | apply only_setQp | apply only_admitTry
    | intro _ | split | exact subParts_trans (by decide) hs | exact within_mono (by with_unfolding_all rfl) hs

theorem only_ansResend (q : Nat) (hs : subParts [.outs, .links] ks = true) :
    Only ks (ansResend q : Act s₀ Unit) := by
  unfold ansResend
  try dsimp only
  repeat'
    first
    | with_reducible
      first
      | apply only_bind | apply only_ite | apply only_pure | apply only_st | apply only_skip | apply only_each
      | apply only_sendQp
    | intro _ | split | exact subParts_trans (by decide) hs

end Sys2Proof.Laws
end

