-- ==== Sys2Proof/Laws/Foot/Quiet.lean ====
section
/-! SUPPORT. The parts of the state that each operation of Machine/Quiet.lean can touch. -/

namespace Sys2Proof.Laws

open Machine

variable {s₀ : State} {ks : List Part}

theorem only_applySch (s : State) (hs : subParts [.schDue] ks = true) :
    Only ks (applySch s : Act s₀ Unit) := by
  unfold applySch
  try dsimp only
  repeat'
    first
    | with_reducible
      first
      | apply only_bind | apply only_ite | apply only_pure | apply only_st | apply only_skip | apply only_emit
    | intro _ | split | exact within_mono (by with_unfolding_all rfl) hs

theorem only_applyLpe (s : State) (hs : subParts [.regs, .priv, .outs, .hosts, .crown] ks = true) :
    Only ks (applyLpe s : Act s₀ Unit) := by
  unfold applyLpe
  try dsimp only
  repeat'
    first
    | with_reducible
      first
      | apply only_bind | apply only_ite | apply only_pure | apply only_st | apply only_skip | apply only_each
      | apply only_loupeNote
    | intro _ | split | exact subParts_trans (by decide) hs

theorem only_applyEpoch (s : State) (hs : subParts [.regs, .rte] ks = true) :
    Only ks (applyEpoch s : Act s₀ Unit) := by
  unfold applyEpoch
  try dsimp only
  repeat'
    first
    | with_reducible
      first
      | apply only_bind | apply only_ite | apply only_pure | apply only_st | apply only_skip | apply only_regSet
      | apply only_regFld | apply only_modRte
    | intro _ | split | exact subParts_trans (by decide) hs

theorem only_applyPort (s : State) (p : Nat) (hs : subParts [.regs, .links] ks = true) :
    Only ks (applyPort s p : Act s₀ Unit) := by
  unfold applyPort
  try dsimp only
  repeat'
    first
    | with_reducible
      first
      | apply only_bind | apply only_ite | apply only_pure | apply only_st | apply only_skip | apply only_each
      | apply only_regSet | apply only_modLink | apply only_trainPort | apply only_helloApply
    | intro _ | split | exact subParts_trans (by decide) hs

theorem only_applyPeer (s : State) (n : Nat) (hs : subParts [.regs, .priv, .hbm, .bench, .well, .host, .sram, .esc, .ops, .reqs, .outs, .hosts, .tbl, .sac, .cells, .schDue, .lpe, .rte, .links, .peers, .qps, .clb, .crown] ks = true) :
    Only ks (applyPeer s n : Act s₀ Unit) := by
  unfold applyPeer
  try dsimp only
  repeat'
    first
    | with_reducible
      first
      | apply only_bind | apply only_ite | apply only_pure | apply only_st | apply only_skip | apply only_emit
      | apply only_peerSet | apply only_peerGone
    | intro _ | split | exact subParts_trans (by decide) hs | exact within_mono (by with_unfolding_all rfl) hs

theorem only_applyPhase (s : State) (d : Nat) (hs : subParts [.regs, .hosts] ks = true) :
    Only ks (applyPhase s d : Act s₀ Unit) := by
  unfold applyPhase
  try dsimp only
  repeat'
    first
    | with_reducible
      first
      | apply only_bind | apply only_ite | apply only_pure | apply only_st | apply only_skip | apply only_regFld
      | apply only_modHosts
    | intro _ | split | exact subParts_trans (by decide) hs

theorem only_applyCrown (s : State) (hs : subParts [.regs, .crown] ks = true) :
    Only ks (applyCrown s : Act s₀ Unit) := by
  unfold applyCrown
  try dsimp only
  repeat'
    first
    | with_reducible
      first
      | apply only_bind | apply only_ite | apply only_pure | apply only_st | apply only_skip | apply only_regFld
      | apply only_modCrown
    | intro _ | split | exact subParts_trans (by decide) hs

theorem only_applyImage (i : ImgStage) (hs : subParts [.regs, .tbl, .rte, .clb] ks = true) :
    Only ks (applyImage i : Act s₀ Unit) := by
  unfold applyImage
  try dsimp only
  repeat'
    first
    | with_reducible
      first
      | apply only_bind | apply only_ite | apply only_pure | apply only_st | apply only_skip | apply only_each
      | apply only_regSet | apply only_modClb | apply only_modRte | apply only_tdSet
    | intro _ | split | exact subParts_trans (by decide) hs

theorem only_applyAll (s : State) (hs : subParts [.regs, .priv, .hbm, .bench, .well, .host, .sram, .esc, .ops, .reqs, .outs, .hosts, .tbl, .sac, .cells, .schDue, .lpe, .col, .rte, .links, .peers, .qps, .clb, .crown] ks = true) :
    Only ks (applyAll s : Act s₀ Unit) := by
  unfold applyAll
  try dsimp only
  repeat'
    first
    | with_reducible
      first
      | apply only_bind | apply only_ite | apply only_pure | apply only_st | apply only_skip | apply only_each
      | apply only_regSet | apply only_modCol | apply only_applySch | apply only_applyLpe | apply only_applyEpoch
      | apply only_applyPort | apply only_applyPeer | apply only_applyPhase | apply only_applyCrown | apply only_applyImage
    | intro _ | split | exact subParts_trans (by decide) hs

theorem only_enterLinks  (hs : subParts [.regs, .links] ks = true) :
    Only ks (enterLinks  : Act s₀ Unit) := by
  unfold enterLinks
  try dsimp only
  repeat'
    first
    | with_reducible
      first
      | apply only_bind | apply only_ite | apply only_pure | apply only_st | apply only_skip | apply only_each
      | apply only_regSet | apply only_setStage | apply only_trainHalf
    | intro _ | split | exact subParts_trans (by decide) hs

theorem only_admitAll (e : Nat) (n : Nat) (hs : subParts [.regs, .priv, .hbm, .bench, .well, .host, .ecc, .sram, .esc, .ops, .marks, .reqs, .outs, .hosts, .tbl, .cells, .col, .crown] ks = true) :
    Only ks (admitAll e n : Act s₀ Unit) := by
  induction n with
  | zero =>
    unfold admitAll
    try dsimp only
    repeat'
        first
        | with_reducible
          first
          | apply only_bind | apply only_ite | apply only_pure | apply only_st | apply only_skip
          | apply only_admitOne
        | intro _ | split | exact subParts_trans (by decide) hs
  | succ _ ih =>
    unfold admitAll
    try dsimp only
    repeat'
        first
        | with_reducible
          first
          | apply ih | apply only_bind | apply only_ite | apply only_pure | apply only_st | apply only_skip
          | apply only_admitOne
        | intro _ | split | exact subParts_trans (by decide) hs

theorem only_commitNow  (hs : subParts [.regs, .priv, .shadow, .hbm, .bench, .well, .host, .ecc, .sram, .esc, .ops, .marks, .reqs, .outs, .hosts, .tbl, .sac, .cells, .schDue, .lpe, .col, .rte, .links, .peers, .qps, .clb, .crown] ks = true) :
    Only ks (commitNow  : Act s₀ Unit) := by
  unfold commitNow
  try dsimp only
  repeat'
    first
    | with_reducible
      first
      | apply only_bind | apply only_ite | apply only_pure | apply only_st | apply only_skip | apply only_each
      | apply only_reportAll | apply only_commitEnd | apply only_rollback | apply only_applyAll | apply only_enterLinks
      | apply only_admitAll
    | intro _ | split | exact subParts_trans (by decide) hs

theorem only_steward (d : Fin 4) (k : Act s₀ Unit) (hk : Only ks k) :
    Only ks (steward d k : Act s₀ Unit) := by
  unfold steward
  try dsimp only
  repeat'
    first
    | with_reducible
      first
      | apply only_bind | apply only_ite | apply hk | apply only_pure | apply only_st | apply only_skip
    | intro _ | split

end Sys2Proof.Laws
end

