-- ==== Sys2Proof/Laws/Foot/Reset.lean ====
section
/-! SUPPORT. The parts of the state that each operation of Machine/Reset.lean can touch. -/

namespace Sys2Proof.Laws

open Machine

variable {s₀ : State} {ks : List Part}

theorem only_resetNote (scope kind unit inc : Nat) (who : Option Who) (hs : subParts [.regs, .outs, .hosts, .crown] ks = true) :
    Only ks (resetNote scope kind unit inc who : Act s₀ Unit) := by
  unfold resetNote
  try dsimp only
  repeat'
    first
    | with_reducible
      first
      | apply only_bind | apply only_ite | apply only_pure | apply only_st | apply only_skip | apply only_logFault
    | intro _ | split | exact subParts_trans (by decide) hs

theorem only_resetOp (r : OpRef) (hs : subParts [.hbm, .bench, .well, .host, .ops, .reqs, .cells] ks = true) :
    Only ks (resetOp r : Act s₀ Unit) := by
  unfold resetOp
  try dsimp only
  repeat'
    first
    | with_reducible
      first
      | apply only_bind | apply only_ite | apply only_pure | apply only_st | apply only_skip | apply only_putOp
      | apply only_smearRegion | apply only_failOp
    | intro _ | split | exact subParts_trans (by decide) hs

theorem only_resetCell (c : Nat) (hs : subParts [.regs, .hbm, .bench, .well, .host, .sram, .ops, .reqs, .outs, .hosts, .cells, .crown] ks = true) :
    Only ks (resetCell c : Act s₀ Unit) := by
  unfold resetCell
  try dsimp only
  repeat'
    first
    | with_reducible
      first
      | apply only_bind | apply only_ite | apply only_pure | apply only_st | apply only_skip | apply only_emit
      | apply only_regSet | apply only_regFld | apply only_incBump | apply only_setCell | apply only_failOp
      | apply only_sramWrite | apply only_resetNote
    | intro _ | split | exact subParts_trans (by decide) hs | exact within_mono (by with_unfolding_all rfl) hs

theorem only_resetChannel (c : Nat) (hs : subParts [.regs, .ecc, .outs, .hosts, .crown] ks = true) :
    Only ks (resetChannel c : Act s₀ Unit) := by
  unfold resetChannel
  try dsimp only
  repeat'
    first
    | with_reducible
      first
      | apply only_bind | apply only_ite | apply only_pure | apply only_st | apply only_skip | apply only_emit
      | apply only_incBump | apply only_modHosts | apply only_resetNote
    | intro _ | split | exact subParts_trans (by decide) hs | exact within_mono (by with_unfolding_all rfl) hs

theorem only_resetPort (p : Nat) (hs : subParts [.regs, .priv, .hbm, .bench, .well, .host, .sram, .esc, .ops, .reqs, .outs, .hosts, .tbl, .sac, .cells, .schDue, .lpe, .col, .rte, .links, .peers, .qps, .clb, .crown] ks = true) :
    Only ks (resetPort p : Act s₀ Unit) := by
  unfold resetPort
  try dsimp only
  repeat'
    first
    | with_reducible
      first
      | apply only_bind | apply only_ite | apply only_pure | apply only_st | apply only_skip | apply only_each
      | apply only_incBump | apply only_trainPort | apply only_halfDown | apply only_linkLoss | apply only_resetNote
    | intro _ | split | exact subParts_trans (by decide) hs

theorem only_domainGroups (d : Nat) (hs : subParts [.hbm, .bench, .well, .host, .ops, .reqs, .cells, .col] ks = true) :
    Only ks (domainGroups d : Act s₀ Unit) := by
  unfold domainGroups
  try dsimp only
  repeat'
    first
    | with_reducible
      first
      | apply only_bind | apply only_ite | apply only_pure | apply only_st | apply only_skip | apply only_each
      | apply only_colFail
    | intro _ | split | exact subParts_trans (by decide) hs

theorem only_domainStop (d : Nat) (records : Bool) (hs : subParts [.regs, .priv, .hbm, .bench, .well, .host, .ecc, .sram, .esc, .ops, .recorded, .reqs, .outs, .hosts, .tbl, .sac, .cells, .schDue, .lpe, .col, .rte, .links, .peers, .qps, .crown] ks = true) :
    Only ks (domainStop d records : Act s₀ Unit) := by
  unfold domainStop
  try dsimp only
  repeat'
    first
    | with_reducible
      first
      | apply only_bind | apply only_ite | apply only_pure | apply only_st | apply only_skip | apply only_each
      | apply only_emit | apply only_drainAct | apply only_tdSet | apply only_qpAnswer | apply only_completeOp
      | apply only_resetOp | apply only_domainGroups
    | intro _ | split | exact subParts_trans (by decide) hs | exact within_mono (by with_unfolding_all rfl) hs

theorem only_domainEscs (d : Nat) (hs : subParts [.regs, .priv, .hbm, .bench, .well, .host, .sram, .esc, .ops, .reqs, .outs, .hosts, .cells, .schDue, .lpe] ks = true) :
    Only ks (domainEscs d : Act s₀ Unit) := by
  unfold domainEscs
  try dsimp only
  repeat'
    first
    | with_reducible
      first
      | apply only_bind | apply only_ite | apply only_pure | apply only_st | apply only_skip | apply only_each
      | apply only_escWaiters | apply only_escEff | apply only_sramWrite
    | intro _ | split | exact subParts_trans (by decide) hs

theorem only_domainReset (d : Nat) (records : Bool) (hs : subParts [.regs, .priv, .shadow, .hbm, .bench, .well, .host, .ecc, .sram, .esc, .ops, .recorded, .marks, .reqs, .outs, .hosts, .tbl, .sac, .cells, .schDue, .lpe, .col, .rte, .links, .peers, .qps, .clb, .crown] ks = true) :
    Only ks (domainReset d records : Act s₀ Unit) := by
  unfold domainReset
  try dsimp only
  repeat'
    first
    | with_reducible
      first
      | apply only_bind | apply only_ite | apply only_pure | apply only_st | apply only_skip | apply only_emit
      | apply only_incBump | apply only_modHosts | apply only_txnStop | apply only_resetNote | apply only_domainStop
      | apply only_domainEscs
    | intro _ | split | exact subParts_trans (by decide) hs | exact within_mono (by with_unfolding_all rfl) hs

theorem only_chipBump  (hs : subParts [.regs, .crown] ks = true) :
    Only ks (chipBump  : Act s₀ Unit) := by
  unfold chipBump
  try dsimp only
  repeat'
    first
    | with_reducible
      first
      | apply only_bind | apply only_ite | apply only_pure | apply only_st | apply only_skip | apply only_regFld
      | apply only_modCrown
    | intro _ | split | exact subParts_trans (by decide) hs

theorem only_clearInside  (hs : subParts [.priv, .shadow, .bench, .well, .vreg, .ecc, .sram, .esc, .ops, .recorded, .marks, .reqs, .outs, .tbl, .sac, .cells, .stash, .schDue, .lpe, .col, .peers, .qps, .clb] ks = true) :
    Only ks (clearInside  : Act s₀ Unit) := by
  unfold clearInside
  try dsimp only
  repeat'
    first
    | with_reducible
      first
      | apply only_bind | apply only_ite | apply only_pure | apply only_st | apply only_skip | apply only_emit
    | intro _ | split | exact within_mono (by with_unfolding_all rfl) hs

theorem only_buffersDrop  (hs : subParts [.links] ks = true) :
    Only ks (buffersDrop  : Act s₀ Unit) := by
  unfold buffersDrop
  try dsimp only
  repeat'
    first
    | with_reducible
      first
      | apply only_bind | apply only_ite | apply only_pure | apply only_st | apply only_skip | apply only_each
      | apply only_freeFl
    | intro _ | split | exact subParts_trans (by decide) hs

theorem only_helloAll  (hs : subParts [.outs, .links] ks = true) :
    Only ks (helloAll  : Act s₀ Unit) := by
  unfold helloAll
  try dsimp only
  repeat'
    first
    | with_reducible
      first
      | apply only_bind | apply only_ite | apply only_pure | apply only_st | apply only_skip | apply only_each
      | apply only_modLink | apply only_helloOut
    | intro _ | split | exact subParts_trans (by decide) hs

theorem only_warmReset  (hs : subParts [.time, .regs, .priv, .shadow, .hbm, .bench, .well, .host, .vreg, .ecc, .sram, .esc, .ops, .recorded, .marks, .reqs, .outs, .hosts, .tbl, .sac, .cells, .stash, .schDue, .lpe, .col, .rte, .links, .peers, .qps, .clb, .crown] ks = true) :
    Only ks (warmReset  : Act s₀ Unit) := by
  unfold warmReset
  try dsimp only
  repeat'
    first
    | with_reducible
      first
      | apply only_bind | apply only_ite | apply only_pure | apply only_st | apply only_skip | apply only_each
      | apply only_emit | apply only_regSet | apply only_setStage | apply only_modCrown | apply only_fwStop
      | apply only_resetNote | apply only_domainStop | apply only_chipBump | apply only_clearInside | apply only_buffersDrop
      | apply only_helloAll
    | intro _ | split | exact subParts_trans (by decide) hs | exact within_mono (by with_unfolding_all rfl) hs

theorem only_coldReset  (hs : subParts [.time, .regs, .priv, .shadow, .bench, .well, .vreg, .ecc, .sram, .esc, .ops, .recorded, .marks, .reqs, .outs, .hosts, .tbl, .sac, .cells, .stash, .schDue, .lpe, .col, .rte, .links, .peers, .qps, .clb, .crown] ks = true) :
    Only ks (coldReset  : Act s₀ Unit) := by
  unfold coldReset
  try dsimp only
  repeat'
    first
    | with_reducible
      first
      | apply only_bind | apply only_ite | apply only_pure | apply only_st | apply only_skip | apply only_emit
      | apply only_regSet | apply only_modCrown | apply only_fwStop | apply only_chipBump | apply only_clearInside
    | intro _ | split | exact subParts_trans (by decide) hs | exact within_mono (by with_unfolding_all rfl) hs

theorem only_coldRestart  (hs : subParts [.time, .regs, .priv, .shadow, .bench, .well, .vreg, .ecc, .sram, .esc, .ops, .recorded, .marks, .reqs, .outs, .hosts, .tbl, .sac, .cells, .stash, .schDue, .lpe, .col, .rte, .links, .peers, .qps, .clb, .crown] ks = true) :
    Only ks (coldRestart  : Act s₀ Unit) := by
  unfold coldRestart
  try dsimp only
  repeat'
    first
    | with_reducible
      first
      | apply only_bind | apply only_ite | apply only_pure | apply only_st | apply only_skip | apply only_setStage
      | apply only_resetNote | apply only_coldReset
    | intro _ | split | exact subParts_trans (by decide) hs

theorem only_logLose  (hs : subParts [.crown] ks = true) :
    Only ks (logLose  : Act s₀ Unit) := by
  unfold logLose
  try dsimp only
  repeat'
    first
    | with_reducible
      first
      | apply only_bind | apply only_ite | apply only_pure | apply only_st | apply only_skip | apply only_modCrown
    | intro _ | split | exact subParts_trans (by decide) hs

end Sys2Proof.Laws
end

