-- ==== Sys2Proof/Laws/Foot/Crown.lean ====
section
/-! SUPPORT. The parts of the state that each operation of Machine/Crown.lean can touch. -/

namespace Sys2Proof.Laws

open Machine

variable {s₀ : State} {ks : List Part}

theorem only_crownNote (code unit : Nat) (hs : subParts [.regs, .outs, .hosts, .crown] ks = true) :
    Only ks (crownNote code unit : Act s₀ Unit) := by
  unfold crownNote
  try dsimp only
  repeat'
    first
    | with_reducible
      first
      | apply only_bind | apply only_ite | apply only_pure | apply only_st | apply only_skip | apply only_logFault
    | intro _ | split | exact subParts_trans (by decide) hs

theorem only_sensorsStale  (hs : subParts [.regs] ks = true) :
    Only ks (sensorsStale  : Act s₀ Unit) := by
  unfold sensorsStale
  try dsimp only
  repeat'
    first
    | with_reducible
      first
      | apply only_bind | apply only_ite | apply only_pure | apply only_st | apply only_skip | apply only_each
      | apply only_regFld
    | intro _ | split | exact subParts_trans (by decide) hs

theorem only_crownStop  (hs : subParts [.regs, .reqs, .crown] ks = true) :
    Only ks (crownStop  : Act s₀ Unit) := by
  unfold crownStop
  try dsimp only
  repeat'
    first
    | with_reducible
      first
      | apply only_bind | apply only_ite | apply only_pure | apply only_st | apply only_skip | apply only_regFld
      | apply only_modCrown | apply only_fwStop | apply only_sensorsStale
    | intro _ | split | exact subParts_trans (by decide) hs

theorem only_heldFlush  (hs : subParts [.regs, .outs, .crown] ks = true) :
    Only ks (heldFlush  : Act s₀ Unit) := by
  unfold heldFlush
  try dsimp only
  repeat'
    first
    | with_reducible
      first
      | apply only_bind | apply only_ite | apply only_pure | apply only_st | apply only_skip | apply only_each
      | apply only_bump | apply only_smbOut | apply only_modCrown
    | intro _ | split | exact subParts_trans (by decide) hs

theorem only_mbxReturn  (hs : subParts [.regs, .outs, .crown] ks = true) :
    Only ks (mbxReturn  : Act s₀ Unit) := by
  unfold mbxReturn
  try dsimp only
  repeat'
    first
    | with_reducible
      first
      | apply only_bind | apply only_ite | apply only_pure | apply only_st | apply only_skip | apply only_mbxEnd
    | intro _ | split | exact subParts_trans (by decide) hs

theorem only_crownRun (slot : Bool) (skipped : Bool) (hs : subParts [.regs, .shadow, .hbm, .ecc, .reqs, .outs, .hosts, .tbl, .rte, .clb, .crown] ks = true) :
    Only ks (crownRun slot skipped : Act s₀ Unit) := by
  unfold crownRun
  try dsimp only
  repeat'
    first
    | with_reducible
      first
      | apply only_bind | apply only_ite | apply only_pure | apply only_st | apply only_skip | apply only_each
      | apply only_regSet | apply only_setStage | apply only_modCrown | apply only_imgResume | apply only_fwRegs
      | apply only_crownNote | apply only_heldFlush | apply only_mbxReturn
    | intro _ | split | exact subParts_trans (by decide) hs

theorem only_crownFail  (hs : subParts [.regs, .shadow, .hbm, .ecc, .reqs, .outs, .hosts, .tbl, .rte, .clb, .crown] ks = true) :
    Only ks (crownFail  : Act s₀ Unit) := by
  unfold crownFail
  try dsimp only
  repeat'
    first
    | with_reducible
      first
      | apply only_bind | apply only_ite | apply only_pure | apply only_st | apply only_skip | apply only_regFld
      | apply only_halt | apply only_imgResume | apply only_mbxReturn
    | intro _ | split | exact subParts_trans (by decide) hs

theorem only_bootFrom (aliveA aliveB : Bool) (n : List Bool) (b : Bool) (hs : subParts [.regs, .shadow, .hbm, .ecc, .reqs, .outs, .hosts, .tbl, .rte, .clb, .crown] ks = true) :
    Only ks (bootFrom aliveA aliveB n b : Act s₀ Unit) := by
  induction n generalizing b with
  | nil =>
    unfold bootFrom
    try dsimp only
    repeat'
        first
        | with_reducible
          first
          | apply only_bind | apply only_ite | apply only_pure | apply only_st | apply only_skip
          | apply only_regFld | apply only_crownNote | apply only_crownRun | apply only_crownFail
        | intro _ | split | exact subParts_trans (by decide) hs
  | cons x _ ih =>
    unfold bootFrom
    try dsimp only
    repeat'
        first
        | with_reducible
          first
          | apply ih | apply only_bind | apply only_ite | apply only_pure | apply only_st | apply only_skip
          | apply only_regFld | apply only_crownNote | apply only_crownRun | apply only_crownFail
        | intro _ | split | exact subParts_trans (by decide) hs

theorem only_crownBoot (aliveA aliveB : Bool) (hs : subParts [.regs, .shadow, .hbm, .ecc, .reqs, .outs, .hosts, .tbl, .rte, .clb, .crown] ks = true) :
    Only ks (crownBoot aliveA aliveB : Act s₀ Unit) := by
  unfold crownBoot
  try dsimp only
  repeat'
    first
    | with_reducible
      first
      | apply only_bind | apply only_ite | apply only_pure | apply only_st | apply only_skip | apply only_regFld
      | apply only_modCrown | apply only_bootFrom
    | intro _ | split | exact subParts_trans (by decide) hs

theorem only_crownCtrl (v : Nat) (hs : subParts [.regs, .reqs, .crown] ks = true) :
    Only ks (crownCtrl v : Act s₀ Unit) := by
  unfold crownCtrl
  try dsimp only
  repeat'
    first
    | with_reducible
      first
      | apply only_bind | apply only_ite | apply only_pure | apply only_st | apply only_skip | apply only_regFld
      | apply only_crownStop
    | intro _ | split | exact subParts_trans (by decide) hs

theorem only_setpointAsk  (hs : subParts [.outs, .crown] ks = true) :
    Only ks (setpointAsk  : Act s₀ Unit) := by
  unfold setpointAsk
  try dsimp only
  repeat'
    first
    | with_reducible
      first
      | apply only_bind | apply only_ite | apply only_pure | apply only_st | apply only_skip | apply only_smbOut
      | apply only_modCrown
    | intro _ | split | exact subParts_trans (by decide) hs

theorem only_ageStart (pass : List (Nat × Nat)) (slow : Byte) (byMbx : Bool) (hs : subParts [.outs, .crown] ks = true) :
    Only ks (ageStart pass slow byMbx : Act s₀ Unit) := by
  unfold ageStart
  try dsimp only
  repeat'
    first
    | with_reducible
      first
      | apply only_bind | apply only_ite | apply only_pure | apply only_st | apply only_skip | apply only_modCrown
      | apply only_setpointAsk
    | intro _ | split | exact subParts_trans (by decide) hs

theorem only_ageFail (a : Ageing) (hs : subParts [.regs, .outs, .hosts, .crown] ks = true) :
    Only ks (ageFail a : Act s₀ Unit) := by
  unfold ageFail
  try dsimp only
  repeat'
    first
    | with_reducible
      first
      | apply only_bind | apply only_ite | apply only_pure | apply only_st | apply only_skip | apply only_modCrown
      | apply only_mbxEnd | apply only_halt
    | intro _ | split | exact subParts_trans (by decide) hs

theorem only_ageChoose (a : Ageing) (hs : subParts [.regs, .outs, .crown] ks = true) :
    Only ks (ageChoose a : Act s₀ Unit) := by
  unfold ageChoose
  try dsimp only
  repeat'
    first
    | with_reducible
      first
      | apply only_bind | apply only_ite | apply only_pure | apply only_st | apply only_skip | apply only_regSet
      | apply only_regFld | apply only_setStage | apply only_modCrown | apply only_mbxEnd
    | intro _ | split | exact subParts_trans (by decide) hs

theorem only_agePoint (a : Ageing) (hs : subParts [.regs, .outs, .hosts, .crown] ks = true) :
    Only ks (agePoint a : Act s₀ Unit) := by
  unfold agePoint
  try dsimp only
  repeat'
    first
    | with_reducible
      first
      | apply only_bind | apply only_ite | apply only_pure | apply only_st | apply only_skip | apply only_modCrown
      | apply only_setpointAsk | apply only_ageFail | apply only_ageChoose
    | intro _ | split | exact subParts_trans (by decide) hs

theorem only_setpointMiss (a : Ageing) (hs : subParts [.regs, .outs, .hosts, .crown] ks = true) :
    Only ks (setpointMiss a : Act s₀ Unit) := by
  unfold setpointMiss
  try dsimp only
  repeat'
    first
    | with_reducible
      first
      | apply only_bind | apply only_ite | apply only_pure | apply only_st | apply only_skip | apply only_modCrown
      | apply only_setpointAsk | apply only_ageFail
    | intro _ | split | exact subParts_trans (by decide) hs

theorem only_mbxWrite (cmd : Nat) (hs : subParts [.regs, .outs, .crown] ks = true) :
    Only ks (mbxWrite cmd : Act s₀ Unit) := by
  unfold mbxWrite
  try dsimp only
  repeat'
    first
    | with_reducible
      first
      | apply only_bind | apply only_ite | apply only_pure | apply only_st | apply only_skip | apply only_regFld
      | apply only_modCrown | apply only_mbxEnd
    | intro _ | split | exact subParts_trans (by decide) hs

theorem only_mbxGo (d : Fin 4) (cmd : Nat) (k : Act s₀ Unit) (hk : Only ks k) (hs : subParts [.regs, .outs, .crown] ks = true) :
    Only ks (mbxGo d cmd k : Act s₀ Unit) := by
  unfold mbxGo
  try dsimp only
  repeat'
    first
    | with_reducible
      first
      | apply only_bind | apply only_ite | apply hk | apply only_pure | apply only_st | apply only_skip | apply only_steward
      | apply only_mbxWrite
    | intro _ | split | exact subParts_trans (by decide) hs

theorem only_setThrottle (n : Nat) (hs : subParts [.regs, .outs, .hosts, .crown] ks = true) :
    Only ks (setThrottle n : Act s₀ Unit) := by
  unfold setThrottle
  try dsimp only
  repeat'
    first
    | with_reducible
      first
      | apply only_bind | apply only_ite | apply only_pure | apply only_st | apply only_skip | apply only_regFld
      | apply only_crownNote
    | intro _ | split | exact subParts_trans (by decide) hs

theorem only_hwFloor  (hs : subParts [.regs, .outs, .hosts, .crown] ks = true) :
    Only ks (hwFloor  : Act s₀ Unit) := by
  unfold hwFloor
  try dsimp only
  repeat'
    first
    | with_reducible
      first
      | apply only_bind | apply only_ite | apply only_pure | apply only_st | apply only_skip | apply only_regFld
      | apply only_setThrottle
    | intro _ | split | exact subParts_trans (by decide) hs

theorem only_stackTemp (k t : Nat) (hs : subParts [.regs] ks = true) :
    Only ks (stackTemp k t : Act s₀ Unit) := by
  unfold stackTemp
  try dsimp only
  repeat'
    first
    | with_reducible
      first
      | apply only_bind | apply only_ite | apply only_pure | apply only_st | apply only_skip | apply only_regSet
    | intro _ | split | exact subParts_trans (by decide) hs

theorem only_smbAnswer (cmd : List Byte) (read : List Byte) (hs : subParts [.outs] ks = true) :
    Only ks (smbAnswer cmd read : Act s₀ Unit) := by
  unfold smbAnswer
  try dsimp only
  repeat'
    first
    | with_reducible
      first
      | apply only_bind | apply only_ite | apply only_pure | apply only_st | apply only_skip | apply only_smbOut
    | intro _ | split | exact subParts_trans (by decide) hs

end Sys2Proof.Laws
end

