-- ==== Sys2Proof/Laws/Foot/Bar.lean ====
section
/-! SUPPORT. The parts of the state that each operation of Machine/Bar.lean can touch. -/

namespace Sys2Proof.Laws

open Machine

variable {s₀ : State} {ks : List Part}

theorem only_rwReport (d a : Nat) (r : RegInfo) (v : Nat) (hs : subParts [.regs, .clb] ks = true) :
    Only ks (rwReport d a r v : Act s₀ Unit) := by
  unfold rwReport
  try dsimp only
  repeat'
    first
    | with_reducible
      first
      | apply only_bind | apply only_ite | apply only_pure | apply only_st | apply only_skip | apply only_each
      | apply only_report
    | intro _ | split | exact subParts_trans (by decide) hs

theorem only_rwlDiscard (d a v : Nat) (hs : subParts [.regs, .clb] ks = true) :
    Only ks (rwlDiscard d a v : Act s₀ Unit) := by
  unfold rwlDiscard
  try dsimp only
  repeat'
    first
    | with_reducible
      first
      | apply only_bind | apply only_ite | apply only_pure | apply only_st | apply only_skip | apply only_each
      | apply only_report
    | intro _ | split | exact subParts_trans (by decide) hs

theorem only_rwlPart (a v : Nat) (hs : subParts [.regs, .shadow, .clb] ks = true) :
    Only ks (rwlPart a v : Act s₀ Unit) := by
  unfold rwlPart
  try dsimp only
  repeat'
    first
    | with_reducible
      first
      | apply only_bind | apply only_ite | apply only_pure | apply only_st | apply only_skip | apply only_shadowWrite
      | apply only_rwlDiscard
    | intro _ | split | exact subParts_trans (by decide) hs

theorem only_consReport (d a prod v : Nat) (hs : subParts [.regs, .clb] ks = true) :
    Only ks (consReport d a prod v : Act s₀ Unit) := by
  unfold consReport
  try dsimp only
  repeat'
    first
    | with_reducible
      first
      | apply only_bind | apply only_ite | apply only_pure | apply only_st | apply only_skip | apply only_report
    | intro _ | split | exact subParts_trans (by decide) hs

theorem only_qpApply (q v : Nat) (hs : subParts [.regs, .priv, .hbm, .bench, .well, .host, .sram, .esc, .ops, .reqs, .outs, .hosts, .cells, .schDue, .lpe, .qps, .crown] ks = true) :
    Only ks (qpApply q v : Act s₀ Unit) := by
  unfold qpApply
  try dsimp only
  repeat'
    first
    | with_reducible
      first
      | apply only_bind | apply only_ite | apply only_pure | apply only_st | apply only_skip | apply only_regSet
      | apply only_setQp | apply only_qpDrop
    | intro _ | split | exact subParts_trans (by decide) hs

theorem only_faultClear (v : Nat) (hs : subParts [.regs] ks = true) :
    Only ks (faultClear v : Act s₀ Unit) := by
  unfold faultClear
  try dsimp only
  repeat'
    first
    | with_reducible
      first
      | apply only_bind | apply only_ite | apply only_pure | apply only_st | apply only_skip | apply only_each
      | apply only_regSet
    | intro _ | split | exact subParts_trans (by decide) hs

theorem only_txnCmd (n : Nat) (hs : subParts [.regs, .shadow, .outs, .hosts, .clb, .crown] ks = true) :
    Only ks (txnCmd n : Act s₀ Unit) := by
  unfold txnCmd
  try dsimp only
  repeat'
    first
    | with_reducible
      first
      | apply only_bind | apply only_ite | apply only_pure | apply only_st | apply only_skip | apply only_txnBegin
      | apply only_txnAbort | apply only_txnCommit
    | intro _ | split | exact subParts_trans (by decide) hs

theorem only_chipCmd (v : Nat) (hs : subParts [.time, .regs, .priv, .shadow, .hbm, .bench, .well, .host, .vreg, .ecc, .sram, .esc, .ops, .recorded, .marks, .reqs, .outs, .hosts, .tbl, .sac, .cells, .stash, .schDue, .lpe, .col, .rte, .links, .peers, .qps, .clb, .crown] ks = true) :
    Only ks (chipCmd v : Act s₀ Unit) := by
  unfold chipCmd
  try dsimp only
  repeat'
    first
    | with_reducible
      first
      | apply only_bind | apply only_ite | apply only_pure | apply only_st | apply only_skip | apply only_warmReset
      | apply only_coldRestart
    | intro _ | split | exact subParts_trans (by decide) hs

theorem only_sharedWrite (a v : Nat) (r : RegInfo) (hs : subParts [.time, .regs, .priv, .shadow, .hbm, .bench, .well, .host, .vreg, .ecc, .sram, .esc, .ops, .recorded, .marks, .reqs, .outs, .hosts, .tbl, .sac, .cells, .stash, .schDue, .lpe, .col, .rte, .links, .peers, .qps, .clb, .crown] ks = true) :
    Only ks (sharedWrite a v r : Act s₀ Unit) := by
  unfold sharedWrite
  try dsimp only
  repeat'
    first
    | with_reducible
      first
      | apply only_bind | apply only_ite | apply only_pure | apply only_st | apply only_skip | apply only_each
      | apply only_regSet | apply only_imgGo | apply only_resetCell | apply only_resetChannel | apply only_resetPort
      | apply only_domainReset | apply only_crownCtrl | apply only_mbxWrite | apply only_rwReport | apply only_consReport
      | apply only_qpApply | apply only_faultClear | apply only_txnCmd | apply only_chipCmd
    | intro _ | split | exact subParts_trans (by decide) hs

theorem only_kxWrite (d : Fin 4) (a v : Nat) (r : RegInfo) (hs : subParts [.regs, .priv, .hbm, .bench, .well, .host, .ecc, .sram, .ops, .reqs, .outs, .hosts, .tbl, .cells, .col, .clb, .crown] ks = true) :
    Only ks (kxWrite d a v r : Act s₀ Unit) := by
  unfold kxWrite
  try dsimp only
  repeat'
    first
    | with_reducible
      first
      | apply only_bind | apply only_ite | apply only_pure | apply only_st | apply only_skip | apply only_privSet
      | apply only_fetchKx | apply only_hdmReject | apply only_rwReport
    | intro _ | split | exact subParts_trans (by decide) hs

theorem only_privWrite (d : Fin 4) (a v : Nat) (r : RegInfo) (hs : subParts [.regs, .priv, .hbm, .bench, .well, .host, .ecc, .sram, .ops, .reqs, .outs, .hosts, .tbl, .cells, .col, .clb, .crown] ks = true) :
    Only ks (privWrite d a v r : Act s₀ Unit) := by
  unfold privWrite
  try dsimp only
  repeat'
    first
    | with_reducible
      first
      | apply only_bind | apply only_ite | apply only_pure | apply only_st | apply only_skip | apply only_privSet
      | apply only_rwReport | apply only_consReport | apply only_kxWrite
    | intro _ | split | exact subParts_trans (by decide) hs

theorem only_ringWrite (d : Fin 4) (k : Fin 64) (w v : Nat) (r : RegInfo) (hs : subParts [.regs, .priv, .hbm, .bench, .well, .host, .ecc, .sram, .esc, .ops, .recorded, .marks, .reqs, .outs, .hosts, .tbl, .cells, .col, .clb, .crown] ks = true) :
    Only ks (ringWrite d k w v r : Act s₀ Unit) := by
  unfold ringWrite
  try dsimp only
  repeat'
    first
    | with_reducible
      first
      | apply only_bind | apply only_ite | apply only_pure | apply only_st | apply only_skip | apply only_privSet
      | apply only_fetchRing | apply only_hdmReject | apply only_ringWord4
    | intro _ | split | exact subParts_trans (by decide) hs

theorem only_winWrite (d : Fin 4) (a v : Nat) (r : RegInfo) (hs : subParts [.regs, .priv, .hbm, .bench, .well, .host, .ecc, .sram, .esc, .ops, .recorded, .marks, .reqs, .outs, .hosts, .tbl, .cells, .schDue, .lpe, .col, .clb, .crown] ks = true) :
    Only ks (winWrite d a v r : Act s₀ Unit) := by
  unfold winWrite
  try dsimp only
  repeat'
    first
    | with_reducible
      first
      | apply only_bind | apply only_ite | apply only_pure | apply only_st | apply only_skip | apply only_privSet
      | apply only_stepSet | apply only_ringWrite
    | intro _ | split | exact subParts_trans (by decide) hs

theorem only_ownerWrite (d c a v : Nat) (r : RegInfo) (hs : subParts [.regs, .clb] ks = true) :
    Only ks (ownerWrite d c a v r : Act s₀ Unit) := by
  unfold ownerWrite
  try dsimp only
  repeat'
    first
    | with_reducible
      first
      | apply only_bind | apply only_ite | apply only_pure | apply only_st | apply only_skip | apply only_regSet
      | apply only_rwReport
    | intro _ | split | exact subParts_trans (by decide) hs

theorem only_escWrite (d : Fin 4) (a v : Nat) (hs : subParts [.regs, .priv, .hbm, .bench, .well, .host, .sram, .esc, .ops, .reqs, .outs, .hosts, .cells, .schDue, .lpe, .crown] ks = true) :
    Only ks (escWrite d a v : Act s₀ Unit) := by
  unfold escWrite
  try dsimp only
  repeat'
    first
    | with_reducible
      first
      | apply only_bind | apply only_ite | apply only_pure | apply only_st | apply only_skip | apply only_bump
      | apply only_hdmReject | apply only_escCmd | apply only_escCmdDo
    | intro _ | split | exact subParts_trans (by decide) hs

theorem only_barWrite (d : Fin 4) (a v : Nat) (hs : subParts [.time, .regs, .priv, .shadow, .hbm, .bench, .well, .host, .vreg, .ecc, .sram, .esc, .ops, .recorded, .marks, .reqs, .outs, .hosts, .tbl, .sac, .cells, .stash, .schDue, .lpe, .col, .rte, .links, .peers, .qps, .clb, .crown] ks = true) :
    Only ks (barWrite d a v : Act s₀ Unit) := by
  unfold barWrite
  try dsimp only
  repeat'
    first
    | with_reducible
      first
      | apply only_bind | apply only_ite | apply only_pure | apply only_st | apply only_skip | apply only_bump
      | apply only_rwlPart | apply only_sharedWrite | apply only_privWrite | apply only_winWrite | apply only_ownerWrite
      | apply only_escWrite
    | intro _ | split | exact subParts_trans (by decide) hs

theorem only_fromHost (d : Fin 4) (k : Act s₀ Unit) (hk : Only ks k) :
    Only ks (fromHost d k : Act s₀ Unit) := by
  unfold fromHost
  try dsimp only
  repeat'
    first
    | with_reducible
      first
      | apply only_bind | apply only_ite | apply hk | apply only_pure | apply only_st | apply only_skip
    | intro _ | split

end Sys2Proof.Laws
end

