-- ==== Sys2Proof/Laws/Foot/Aperture.lean ====
section
/-! SUPPORT. The parts of the state that each operation of Machine/Aperture.lean can touch. -/

namespace Sys2Proof.Laws

open Machine

variable {s₀ : State} {ks : List Part}

theorem only_apSector (lo hi sec : Nat) (hs : subParts [.regs, .ecc] ks = true) :
    Only ks (apSector lo hi sec : Act s₀ (List Byte)) := by
  unfold apSector
  try dsimp only
  repeat'
    first
    | with_reducible
      first
      | apply only_bind | apply only_ite | apply only_pure | apply only_st | apply only_skip | apply only_secCe
      | apply only_secOd | apply only_secUe
    | intro _ | split | exact subParts_trans (by decide) hs

theorem only_sramOutcome (x : SramErr) (hs : subParts [.time, .regs, .priv, .shadow, .hbm, .bench, .well, .host, .vreg, .ecc, .sram, .esc, .ops, .recorded, .marks, .reqs, .outs, .hosts, .tbl, .sac, .cells, .stash, .schDue, .lpe, .col, .rte, .links, .peers, .qps, .clb, .crown] ks = true) :
    Only ks (sramOutcome x : Act s₀ Unit) := by
  unfold sramOutcome
  try dsimp only
  repeat'
    first
    | with_reducible
      first
      | apply only_bind | apply only_ite | apply only_pure | apply only_st | apply only_skip | apply only_emit
      | apply only_logFault | apply only_modTbl | apply only_modSac | apply only_modCol | apply only_failOp
      | apply only_tdSet | apply only_uitDrop | apply only_warmReset
    | intro _ | split | exact subParts_trans (by decide) hs | exact within_mono (by with_unfolding_all rfl) hs

end Sys2Proof.Laws
end

