-- ==== Sys2Proof/Laws/Foot/Transit.lean ====
section
/-! SUPPORT. The parts of the state that each operation of Machine/Transit.lean can touch. -/

namespace Sys2Proof.Laws

open Machine

variable {s₀ : State} {ks : List Part}

theorem only_txDrop (n : Nat) (hs : subParts [.outs] ks = true) :
    Only ks (txDrop n : Act s₀ Unit) := by
  unfold txDrop
  try dsimp only
  repeat'
    first
    | with_reducible
      first
      | apply only_bind | apply only_ite | apply only_pure | apply only_st | apply only_skip | apply only_emit
    | intro _ | split | exact within_mono (by with_unfolding_all rfl) hs

theorem only_flitLost (pk : Packet) (e : FlitErr) (hs : subParts [.regs, .priv, .hbm, .bench, .well, .host, .sram, .esc, .ops, .reqs, .outs, .hosts, .tbl, .sac, .cells, .schDue, .lpe, .col, .rte, .links, .peers, .qps, .clb, .crown] ks = true) :
    Only ks (flitLost pk e : Act s₀ Unit) := by
  unfold flitLost
  try dsimp only
  repeat'
    first
    | with_reducible
      first
      | apply only_bind | apply only_ite | apply only_pure | apply only_st | apply only_skip | apply only_bump
      | apply only_fltRaise | apply only_fltGroup
    | intro _ | split | exact subParts_trans (by decide) hs

theorem only_goOn (p : Nat) (pk : Packet) (hs : subParts [.regs, .outs, .rte, .links] ks = true) :
    Only ks (goOn p pk : Act s₀ Bool) := by
  unfold goOn
  try dsimp only
  repeat'
    first
    | with_reducible
      first
      | apply only_bind | apply only_ite | apply only_pure | apply only_st | apply only_skip | apply only_freeFl
      | apply only_goTo
    | intro _ | split | exact subParts_trans (by decide) hs

theorem only_routeArrived (p : Nat) (pk : Packet) (err : Option FlitErr) (hs : subParts [.regs, .priv, .hbm, .bench, .well, .host, .sram, .esc, .ops, .reqs, .outs, .hosts, .tbl, .sac, .cells, .schDue, .lpe, .col, .rte, .links, .peers, .qps, .clb, .crown] ks = true) :
    Only ks (routeArrived p pk err : Act s₀ Unit) := by
  unfold routeArrived
  try dsimp only
  repeat'
    first
    | with_reducible
      first
      | apply only_bind | apply only_ite | apply only_pure | apply only_st | apply only_skip | apply only_bump
      | apply only_freeFl | apply only_bufKeep | apply only_linkGate | apply only_flitLost | apply only_goOn
    | intro _ | split | exact subParts_trans (by decide) hs

theorem only_routeWaiting (n : Nat) (hs : subParts [.regs, .outs, .rte, .links] ks = true) :
    Only ks (routeWaiting n : Act s₀ Unit) := by
  unfold routeWaiting
  try dsimp only
  repeat'
    first
    | with_reducible
      first
      | apply only_bind | apply only_ite | apply only_pure | apply only_st | apply only_skip | apply only_each
      | apply only_bump | apply only_freeFl | apply only_oldTouch | apply only_goTo | apply only_txDrop | apply only_goOn
    | intro _ | split | exact subParts_trans (by decide) hs

theorem only_takeHeld (n p : Nat) (pk : Packet) (hs : subParts [.regs, .outs, .rte, .links] ks = true) :
    Only ks (takeHeld n p pk : Act s₀ Unit) := by
  unfold takeHeld
  try dsimp only
  repeat'
    first
    | with_reducible
      first
      | apply only_bind | apply only_ite | apply only_pure | apply only_st | apply only_skip | apply only_oldTouch
      | apply only_passOn | apply only_txDrop
    | intro _ | split | exact subParts_trans (by decide) hs

end Sys2Proof.Laws
end

