-- ==== Sys2Proof/Laws/Foot/Vector.lean ====
section
/-! SUPPORT. The parts of the state that each operation of Machine/Vector.lean can touch. -/

namespace Sys2Proof.Laws

open Machine

variable {s₀ : State} {ks : List Part}

theorem only_vecElems (c : Nat) (x : VecInstr) (hs : subParts [.regs, .vreg] ks = true) :
    Only ks (vecElems c x : Act s₀ Unit) := by
  unfold vecElems
  try dsimp only
  repeat'
    first
    | with_reducible
      first
      | apply only_bind | apply only_ite | apply only_pure | apply only_st | apply only_skip | apply only_flagsRaise
      | apply only_vregLay
    | intro _ | split | exact subParts_trans (by decide) hs

theorem only_vecCompare (c : Nat) (x : VecInstr) (op : CmpOp) (md : Nat) (hs : subParts [.cells] ks = true) :
    Only ks (vecCompare c x op md : Act s₀ Unit) := by
  unfold vecCompare
  try dsimp only
  repeat'
    first
    | with_reducible
      first
      | apply only_bind | apply only_ite | apply only_pure | apply only_st | apply only_skip | apply only_emit
      | apply only_maskPut
    | intro _ | split | exact subParts_trans (by decide) hs | exact within_nonce

theorem only_vecSelect (c : Nat) (x : VecInstr) (ms : Nat) (hs : subParts [.vreg] ks = true) :
    Only ks (vecSelect c x ms : Act s₀ Unit) := by
  unfold vecSelect
  try dsimp only
  repeat'
    first
    | with_reducible
      first
      | apply only_bind | apply only_ite | apply only_pure | apply only_st | apply only_skip | apply only_vregLay
    | intro _ | split | exact subParts_trans (by decide) hs

theorem only_vecMask (c : Nat) (x : VecInstr) (md : Nat) (v : BitVec 4096) (hs : subParts [.cells] ks = true) :
    Only ks (vecMask c x md v : Act s₀ Unit) := by
  unfold vecMask
  try dsimp only
  repeat'
    first
    | with_reducible
      first
      | apply only_bind | apply only_ite | apply only_pure | apply only_st | apply only_skip | apply only_maskPut
    | intro _ | split | exact subParts_trans (by decide) hs

theorem only_convPlain (c : Nat) (x : ConvInstr) (hs : subParts [.regs, .vreg] ks = true) :
    Only ks (convPlain c x : Act s₀ Unit) := by
  unfold convPlain
  try dsimp only
  repeat'
    first
    | with_reducible
      first
      | apply only_bind | apply only_ite | apply only_pure | apply only_st | apply only_skip | apply only_flagsRaise
      | apply only_vregLay
    | intro _ | split | exact subParts_trans (by decide) hs

theorem only_convPack (c : Nat) (x : ConvInstr) (hs : subParts [.regs, .vreg] ks = true) :
    Only ks (convPack c x : Act s₀ Unit) := by
  unfold convPack
  try dsimp only
  repeat'
    first
    | with_reducible
      first
      | apply only_bind | apply only_ite | apply only_pure | apply only_st | apply only_skip | apply only_flagsRaise
      | apply only_vregPut
    | intro _ | split | exact subParts_trans (by decide) hs

theorem only_convUnpack (c : Nat) (x : ConvInstr) (hs : subParts [.regs, .vreg] ks = true) :
    Only ks (convUnpack c x : Act s₀ Unit) := by
  unfold convUnpack
  try dsimp only
  repeat'
    first
    | with_reducible
      first
      | apply only_bind | apply only_ite | apply only_pure | apply only_st | apply only_skip | apply only_flagsRaise
      | apply only_vregLay
    | intro _ | split | exact subParts_trans (by decide) hs

theorem only_accPut (c i : Nat) (x : XSum) (hs : subParts [.cells] ks = true) :
    Only ks (accPut c i x : Act s₀ Unit) := by
  unfold accPut
  try dsimp only
  repeat'
    first
    | with_reducible
      first
      | apply only_bind | apply only_ite | apply only_pure | apply only_st | apply only_skip | apply only_setCell
    | intro _ | split | exact subParts_trans (by decide) hs

theorem only_benchElems (c w : Nat) (o : Op) (es : List (Nat × Nat)) (k : Act s₀ Unit) (hk : Only ks k) (hs : subParts [.regs, .hbm, .bench, .well, .host, .sram, .ops, .reqs, .outs, .hosts, .cells, .crown] ks = true) :
    Only ks (benchElems c w o es k : Act s₀ Unit) := by
  unfold benchElems
  try dsimp only
  repeat'
    first
    | with_reducible
      first
      | apply only_bind | apply only_ite | apply hk | apply only_pure | apply only_st | apply only_skip | apply only_foldA
      | apply only_endOp | apply only_sramRead
    | intro _ | split | exact subParts_trans (by decide) hs

theorem only_gsDo (a : CellAt) (x : GsInstr) (o : Op) (k : List (Nat × Nat) → Act s₀ Unit) (hk : ∀ x, Only ks (k x)) (hs : subParts [.regs, .hbm, .bench, .well, .host, .ops, .reqs, .cells] ks = true) :
    Only ks (gsDo a x o k : Act s₀ Unit) := by
  unfold gsDo
  try dsimp only
  repeat'
    first
    | with_reducible
      first
      | apply only_bind | apply only_ite | apply hk | apply only_pure | apply only_st | apply only_skip
      | apply only_cellFault | apply only_vecFault
    | intro _ | split | exact subParts_trans (by decide) hs

end Sys2Proof.Laws
end

