-- ==== Sys2Proof/Laws/Maps.lean ====
section
/-! SUPPORT. Maps kept as lists with rising keys: what is found after an entry is set or removed, and that the order is
kept. -/

namespace Sys2Proof.Laws

open Machine

variable {α β : Type}

theorem mapGet_set_same (l : List (Nat × α)) (k : Nat) (v : α) : mapGet (mapSet l k v) k = some v := by
  induction l with
  | nil => simp [mapSet, mapGet]
  | cons x xs ih =>
    obtain ⟨j, w⟩ := x
    unfold mapSet
    split
    · simp [mapGet]
    · split
      · simp [mapGet]
      · rename_i h1 h2
        simp [mapGet, h1, h2, ih]

theorem mapGet_set_other (l : List (Nat × α)) {k i : Nat} (v : α) (h : i ≠ k) : mapGet (mapSet l k v) i = mapGet l i := by
  induction l with
  | nil =>
    have : k ≠ i := fun e => h e.symm
    simp [mapSet, mapGet, this]
  | cons x xs ih =>
    obtain ⟨j, w⟩ := x
    have hk : k ≠ i := fun e => h e.symm
    unfold mapSet
    split
    · simp only [mapGet, hk, if_false]
      split
      · have : j ≠ i := by omega
        have : i < j := by omega
        simp [*]
      · rfl
    · split
      · rename_i h2
        simp [mapGet, h2, hk]
      · simp [mapGet, ih]

/-- Below the first key nothing is found. -/
theorem mapGet_below {l : List (Nat × α)} {i k : Nat} (h : mapOrd (some i) l = true) (hk : k ≤ i) : mapGet l k = none := by
  cases l with
  | nil => rfl
  | cons x xs =>
    obtain ⟨j, w⟩ := x
    simp only [mapOrd, Bool.and_eq_true, decide_eq_true_eq] at h
    have h1 : j ≠ k := by omega
    have h2 : k < j := by omega
    simp [mapGet, h1, h2]

/-- An order above `i` is an order. -/
theorem mapOrd_weaken {l : List (Nat × α)} {i : Nat} (h : mapOrd (some i) l = true) : mapOrd none l = true := by
  cases l with
  | nil => rfl
  | cons x xs =>
    simp only [mapOrd, Bool.and_eq_true] at h
    exact h.2

theorem mapOrd_lower {l : List (Nat × α)} {i j : Nat} (h : mapOrd (some i) l = true) (hj : j ≤ i) :
    mapOrd (some j) l = true := by
  cases l with
  | nil => rfl
  | cons x xs =>
    simp only [mapOrd, Bool.and_eq_true, decide_eq_true_eq] at h ⊢
    exact ⟨by omega, h.2⟩

theorem mapOrd_cons {l : List (Nat × α)} {b : Option Nat} {x : Nat × α} :
    mapOrd b (x :: l) = true ↔ (∀ i, b = some i → i < x.1) ∧ mapOrd (some x.1) l = true := by
  cases b <;> simp [mapOrd]

theorem mapOrd_set {l : List (Nat × α)} {b : Option Nat} {k : Nat} {v : α} (h : mapOrd b l = true)
    (hk : ∀ i, b = some i → i < k) : mapOrd b (mapSet l k v) = true := by
  induction l generalizing b with
  | nil => exact mapOrd_cons.mpr ⟨hk, rfl⟩
  | cons x xs ih =>
    obtain ⟨j, w⟩ := x
    have h := mapOrd_cons.mp h
    unfold mapSet
    split
    · rename_i hlt
      exact mapOrd_cons.mpr ⟨hk, mapOrd_cons.mpr ⟨fun i hi => by cases hi; exact hlt, h.2⟩⟩
    · split
      · rename_i h2
        subst h2
        exact mapOrd_cons.mpr ⟨hk, h.2⟩
      · exact mapOrd_cons.mpr ⟨h.1, ih h.2 fun i hi => by cases hi; simp; omega⟩

theorem mapOrd_del {l : List (Nat × α)} {b : Option Nat} {k : Nat} (h : mapOrd b l = true) :
    mapOrd b (mapDel l k) = true := by
  induction l generalizing b with
  | nil => exact h
  | cons x xs ih =>
    obtain ⟨j, w⟩ := x
    have h' := mapOrd_cons.mp h
    unfold mapDel
    split
    · cases b with
      | none => exact mapOrd_weaken h'.2
      | some i => exact mapOrd_lower h'.2 (Nat.le_of_lt (h'.1 i rfl))
    · split
      · exact h
      · exact mapOrd_cons.mpr ⟨h'.1, ih h'.2⟩

theorem mapOrd_filter {l : List (Nat × α)} {b : Option Nat} {p : Nat × α → Bool} (h : mapOrd b l = true) :
    mapOrd b (l.filter p) = true := by
  induction l generalizing b with
  | nil => exact h
  | cons x xs ih =>
    have h' := mapOrd_cons.mp h
    rw [List.filter_cons]
    split
    · exact mapOrd_cons.mpr ⟨h'.1, ih h'.2⟩
    · refine ih ?_
      cases b with
      | none => exact mapOrd_weaken h'.2
      | some i => exact mapOrd_lower h'.2 (Nat.le_of_lt (h'.1 i rfl))

theorem mapGet_del_same {l : List (Nat × α)} {b : Option Nat} {k : Nat} (h : mapOrd b l = true) :
    mapGet (mapDel l k) k = none := by
  induction l generalizing b with
  | nil => rfl
  | cons x xs ih =>
    obtain ⟨j, w⟩ := x
    have h' := mapOrd_cons.mp h
    unfold mapDel
    split
    · rename_i hj
      exact mapGet_below h'.2 (by simp; omega)
    · split
      · rename_i h1 h2
        simp [mapGet, h1, h2]
      · rename_i h1 h2
        simp [mapGet, h1, h2, ih h'.2]

theorem mapGet_del_other {l : List (Nat × α)} {b : Option Nat} {k i : Nat} (h : mapOrd b l = true) (hi : i ≠ k) :
    mapGet (mapDel l k) i = mapGet l i := by
  induction l generalizing b with
  | nil => rfl
  | cons x xs ih =>
    obtain ⟨j, w⟩ := x
    have h' := mapOrd_cons.mp h
    unfold mapDel
    split
    · rename_i hj
      subst hj
      have hji : j ≠ i := fun e => hi e.symm
      by_cases hlt : i < j
      · rw [mapGet_below h'.2 (by simp; omega)]
        simp [mapGet, hji, hlt]
      · simp [mapGet, hji, hlt]
    · split
      · rfl
      · simp [mapGet, ih h'.2]

/-- What is found stands in the list. -/
theorem mapGet_mem {l : List (Nat × α)} {k : Nat} {v : α} (h : mapGet l k = some v) : (k, v) ∈ l := by
  induction l with
  | nil => simp [mapGet] at h
  | cons x xs ih =>
    obtain ⟨j, w⟩ := x
    unfold mapGet at h
    split at h
    · simp_all
    · split at h
      · simp at h
      · exact List.mem_cons_of_mem _ (ih h)

/-- An entry of the changed map is the new one or an old one. -/
theorem mem_mapSet {l : List (Nat × α)} {k : Nat} {v : α} {x : Nat × α} (h : x ∈ mapSet l k v) : x = (k, v) ∨ x ∈ l := by
  induction l with
  | nil => simpa [mapSet] using h
  | cons y ys ih =>
    obtain ⟨j, w⟩ := y
    unfold mapSet at h
    split at h
    · simpa using h
    · split at h
      · rcases List.mem_cons.mp h with h | h
        · exact .inl h
        · exact .inr (List.mem_cons_of_mem _ h)
      · rcases List.mem_cons.mp h with h | h
        · exact .inr (by simp [h])
        · exact (ih h).imp id (List.mem_cons_of_mem _)

theorem mem_mapDel {l : List (Nat × α)} {k : Nat} {x : Nat × α} (h : x ∈ mapDel l k) : x ∈ l := by
  induction l with
  | nil => exact h
  | cons y ys ih =>
    obtain ⟨j, w⟩ := y
    unfold mapDel at h
    split at h
    · exact List.mem_cons_of_mem _ h
    · split at h
      · exact h
      · rcases List.mem_cons.mp h with h | h
        · simp [h]
        · exact List.mem_cons_of_mem _ (ih h)

end Sys2Proof.Laws
end

