-- ==== Sys2Proof/Laws/Mem.lean ====
section
/-! SUPPORT. Memories: a read after a write, and the canonical form that every memory operation keeps. -/

namespace Sys2Proof.Laws

open Machine

theorem wf_ord {m : Mem} (h : m.wf = true) : mapOrd none m.cells = true := (Bool.and_eq_true _ _ ▸ h).1

theorem wf_all {m : Mem} (h : m.wf = true) : ∀ c ∈ m.cells, (c.2 != 0 || (inSpan m.undef c.1).isSome) = true :=
  List.all_eq_true.mp (Bool.and_eq_true _ _ ▸ h).2

theorem wf_intro {m : Mem} (ho : mapOrd none m.cells = true)
    (ha : ∀ c ∈ m.cells, (c.2 != 0 || (inSpan m.undef c.1).isSome) = true) : m.wf = true :=
  Bool.and_eq_true _ _ ▸ ⟨ho, List.all_eq_true.mpr ha⟩

/-! ### One byte -/

theorem wf_put {m : Mem} (h : m.wf = true) (a : Nat) (v : Byte) : (m.put a v).wf = true := by
  unfold Mem.put
  split
  · exact wf_intro (mapOrd_del (wf_ord h)) fun c hc => wf_all h c (mem_mapDel hc)
  · rename_i hv
    refine wf_intro (mapOrd_set (wf_ord h) fun i hi => by cases hi) fun c hc => ?_
    rcases mem_mapSet hc with rfl | hc
    · cases hs : inSpan m.undef a with
      | none =>
        have hz : v ≠ 0 := fun hz => hv ⟨hz, by simp [hs]⟩
        simpa [hs] using hz
      | some n => simp [hs]
    · exact wf_all h c hc

/-- A byte reads as it was written last. -/
theorem get_put {m : Mem} (h : m.wf = true) (a b : Nat) (v : Byte) :
    (m.put a v).get b = if b = a then v else m.get b := by
  unfold Mem.put
  by_cases hb : b = a
  · subst hb
    rw [if_pos rfl]
    split
    · rename_i hv
      have hs : inSpan m.undef b = none := by simpa using hv.2
      simp [Mem.get, mapGet_del_same (wf_ord h), hs, hv.1]
    · simp [Mem.get, mapGet_set_same]
  · rw [if_neg hb]
    split
    · simp [Mem.get, mapGet_del_other (wf_ord h) hb]
    · simp [Mem.get, mapGet_set_other _ _ hb]

/-! ### A string of bytes -/

theorem wf_putN {m : Mem} (h : m.wf = true) (a : Nat) (bs : List Byte) : (m.putN a bs).wf = true := by
  induction bs generalizing m a with
  | nil => exact h
  | cons b bs ih => exact ih (wf_put h a b) (a + 1)

/-- Outside the bytes written, memory reads as before. -/
theorem get_putN_outside {m : Mem} (h : m.wf = true) (a : Nat) (bs : List Byte) {b : Nat}
    (hb : b < a ∨ a + bs.length ≤ b) : (m.putN a bs).get b = m.get b := by
  induction bs generalizing m a with
  | nil => rfl
  | cons x xs ih =>
    simp only [List.length_cons] at hb
    have := ih (wf_put h a x) (a + 1) (by omega)
    rw [Mem.putN, this, get_put h, if_neg (by omega)]

/-- The bytes written read as written. -/
theorem get_putN_inside {m : Mem} (h : m.wf = true) (a : Nat) (bs : List Byte) {i : Nat} (hi : i < bs.length) :
    (m.putN a bs).get (a + i) = bs[i] := by
  induction bs generalizing m a i with
  | nil => simp at hi
  | cons x xs ih =>
    cases i with
    | zero =>
      rw [Mem.putN, get_putN_outside (wf_put h a x) (a + 1) xs (by omega), get_put h, if_pos (by omega)]
      rfl
    | succ i =>
      have := ih (wf_put h a x) (a + 1) (i := i) (by simpa using hi)
      rw [Mem.putN, show a + (i + 1) = a + 1 + i by omega, this]
      rfl

theorem getN_eq (m : Mem) (a n : Nat) : m.getN a n = (List.range n).map fun i => m.get (a + i) := by
  induction n generalizing a with
  | zero => rfl
  | succ n ih =>
    rw [Mem.getN, ih, List.range_succ_eq_map]
    simp only [List.map_cons, List.map_map, Nat.add_zero, List.cons.injEq, true_and]
    refine List.map_congr_left fun i _ => ?_
    simp [Nat.add_comm, Nat.add_left_comm]

/-- What was written is read back whole. -/
theorem getN_putN {m : Mem} (h : m.wf = true) (a : Nat) (bs : List Byte) : (m.putN a bs).getN a bs.length = bs := by
  rw [getN_eq]
  refine List.ext_getElem (by simp) fun i h1 h2 => ?_
  rw [List.getElem_map, List.getElem_range]
  exact get_putN_inside h a bs h2

/-! ### Ranges -/

theorem wf_trim {m : Mem} (h : mapOrd none m.cells = true) : m.trim.wf = true :=
  wf_intro (mapOrd_filter h) fun _ hc => (List.mem_filter.mp hc).2

theorem wf_clear {m : Mem} (h : m.wf = true) (lo len : Nat) : (m.clear lo len).wf = true :=
  wf_trim (mapOrd_filter (wf_ord h))

theorem wf_smear {m : Mem} (h : m.wf = true) (lo len nonce : Nat) : (m.smear lo len nonce).wf = true :=
  wf_trim (mapOrd_filter (wf_ord h))

theorem wf_run {m : Mem} (h : m.wf = true) (o : MemOp) (nonce : Nat) : (o.run nonce m).wf = true := by
  cases o with
  | write a b => exact wf_putN h a b
  | clear lo len => exact wf_clear h lo len
  | smear lo len => exact wf_smear h lo len nonce

theorem wf_empty : Mem.empty.wf = true := rfl

end Sys2Proof.Laws
end

