-- ==== Sys2Proof/Laws/Regs.lean ====
section
/-! SUPPORT. Registers: reset values fit a word, a register reads what was written to it last, and the maps keep their
canonical form. -/

namespace Sys2Proof.Laws

open Machine

/-! ### Reset values are words -/

/-- The register, if there is one, resets to a word. -/
def WordReset (x : Option RegInfo) : Prop := ∀ r, x = some r → r.reset < 2 ^ 32

theorem wordReset_none : WordReset none := fun _ h => by cases h
theorem wordReset_some {r : RegInfo} (h : r.reset < 2 ^ 32) : WordReset (some r) := fun _ e => by cases e; exact h

theorem wordReset_ite {c : Prop} [Decidable c] {a b : Option RegInfo} (ha : WordReset a) (hb : WordReset b) :
    WordReset (if c then a else b) := by
  split
  · exact ha
  · exact hb

theorem wordReset_glbReg (o : Nat) : WordReset (glbReg o) := by
  unfold glbReg
  repeat'
    first | with_reducible apply wordReset_ite | exact wordReset_none | exact wordReset_some (by decide) | split

theorem wordReset_clbReg (o : Nat) : WordReset (clbReg o) := by
  unfold clbReg
  repeat'
    first | with_reducible apply wordReset_ite | exact wordReset_none | exact wordReset_some (by decide) | split

theorem wordReset_kxReg (o : Nat) : WordReset (kxReg o) := by
  unfold kxReg
  repeat'
    first | with_reducible apply wordReset_ite | exact wordReset_none | exact wordReset_some (by decide) | split

theorem wordReset_smpReg (o : Nat) : WordReset (smpReg o) := by
  unfold smpReg
  repeat'
    first | with_reducible apply wordReset_ite | exact wordReset_none | exact wordReset_some (by decide) | split

theorem wordReset_gthReg (o : Nat) : WordReset (gthReg o) := by
  unfold gthReg
  repeat'
    first | with_reducible apply wordReset_ite | exact wordReset_none | exact wordReset_some (by decide) | split

theorem wordReset_sacReg (o : Nat) : WordReset (sacReg o) := by
  unfold sacReg
  repeat'
    first | with_reducible apply wordReset_ite | exact wordReset_none | exact wordReset_some (by decide) | split

theorem wordReset_tblReg (o : Nat) : WordReset (tblReg o) := by
  unfold tblReg
  repeat'
    first | with_reducible apply wordReset_ite | exact wordReset_none | exact wordReset_some (by decide) | split

theorem wordReset_bwdReg (o : Nat) : WordReset (bwdReg o) := by
  unfold bwdReg
  repeat'
    first | with_reducible apply wordReset_ite | exact wordReset_none | exact wordReset_some (by decide) | split

theorem wordReset_updReg (o : Nat) : WordReset (updReg o) := by
  unfold updReg
  repeat'
    first | with_reducible apply wordReset_ite | exact wordReset_none | exact wordReset_some (by decide) | split

theorem wordReset_schReg (o : Nat) : WordReset (schReg o) := by
  unfold schReg
  repeat'
    first | with_reducible apply wordReset_ite | exact wordReset_none | exact wordReset_some (by decide) | split

theorem wordReset_rteReg (o : Nat) : WordReset (rteReg o) := by
  unfold rteReg
  repeat'
    first | with_reducible apply wordReset_ite | exact wordReset_none | exact wordReset_some (by decide) | split

theorem wordReset_colReg (o : Nat) : WordReset (colReg o) := by
  unfold colReg
  repeat'
    first | with_reducible apply wordReset_ite | exact wordReset_none | exact wordReset_some (by decide) | split

theorem wordReset_svcReg (o : Nat) : WordReset (svcReg o) := by
  unfold svcReg
  repeat'
    first | with_reducible apply wordReset_ite | exact wordReset_none | exact wordReset_some (by decide) | split

theorem wordReset_clkReg (o : Nat) : WordReset (clkReg o) := by
  unfold clkReg
  repeat'
    first | with_reducible apply wordReset_ite | exact wordReset_none | exact wordReset_some (by decide) | split

theorem wordReset_rstReg (o : Nat) : WordReset (rstReg o) := by
  unfold rstReg
  repeat'
    first | with_reducible apply wordReset_ite | exact wordReset_none | exact wordReset_some (by decide) | split

theorem wordReset_fltReg (o : Nat) : WordReset (fltReg o) := by
  unfold fltReg
  repeat'
    first | with_reducible apply wordReset_ite | exact wordReset_none | exact wordReset_some (by decide) | split

theorem wordReset_crnReg (o : Nat) : WordReset (crnReg o) := by
  unfold crnReg
  repeat'
    first | with_reducible apply wordReset_ite | exact wordReset_none | exact wordReset_some (by decide) | split

theorem wordReset_memReg (s o : Nat) : WordReset (memReg s o) := by
  unfold memReg
  repeat'
    first | with_reducible apply wordReset_ite | exact wordReset_none | exact wordReset_some (by decide) | split

theorem wordReset_ringReg (d w : Nat) : WordReset (ringReg d w) := by
  unfold ringReg
  repeat'
    first | with_reducible apply wordReset_ite | exact wordReset_some (Nat.zero_lt_succ _)

theorem wordReset_hdmReg (d o : Nat) : WordReset (hdmReg d o) := by
  unfold hdmReg
  repeat'
    first
    | with_reducible apply wordReset_ite | exact wordReset_none | exact wordReset_some (by decide)
    | exact wordReset_some (Nat.zero_lt_succ _) | exact wordReset_ringReg _ _ | split

theorem wordReset_celReg (c o : Nat) : WordReset (celReg c o) := by
  unfold celReg
  repeat'
    first
    | with_reducible apply wordReset_ite | exact wordReset_none | exact wordReset_some (by decide)
    | exact wordReset_some (show 0x180 < 2 ^ 32 by decide) | exact wordReset_some (Nat.zero_lt_succ _)

theorem ruleReset_lt (n w : Nat) : ruleReset n w < 2 ^ 32 := by
  unfold ruleReset
  split <;> decide

theorem wordReset_lpeReg (o : Nat) : WordReset (lpeReg o) := by
  unfold lpeReg
  repeat'
    first
    | with_reducible apply wordReset_ite | exact wordReset_none | exact wordReset_some (by decide)
    | exact wordReset_some (ruleReset_lt ..) | split

theorem wordReset_fabReg (p o : Nat) : WordReset (fabReg p o) := by
  unfold fabReg
  repeat'
    first
    | with_reducible apply wordReset_ite | exact wordReset_none | exact wordReset_some (by decide)
    | exact wordReset_some (by dsimp only; split <;> omega) | exact wordReset_some (by split <;> decide) | split

theorem wordReset_reg (a : Nat) : WordReset (regInfo a) := by
  unfold regInfo
  repeat'
    first
    | with_reducible
      first
      | apply wordReset_ite | exact wordReset_none
      | exact wordReset_glbReg _ | exact wordReset_clbReg _ | exact wordReset_hdmReg _ _ | exact wordReset_kxReg _
      | exact wordReset_smpReg _ | exact wordReset_gthReg _ | exact wordReset_sacReg _ | exact wordReset_tblReg _
      | exact wordReset_celReg _ _ | exact wordReset_bwdReg _ | exact wordReset_updReg _ | exact wordReset_schReg _
      | exact wordReset_lpeReg _ | exact wordReset_memReg _ _ | exact wordReset_fabReg _ _ | exact wordReset_rteReg _
      | exact wordReset_colReg _ | exact wordReset_svcReg _ | exact wordReset_clkReg _ | exact wordReset_rstReg _
      | exact wordReset_fltReg _ | exact wordReset_crnReg _
    | exact wordReset_some (Nat.zero_lt_succ _)

theorem resetOf_lt (a : Nat) : resetOf a < 2 ^ 32 := by
  unfold resetOf
  have := wordReset_reg a
  split
  · rename_i r h
    exact this r h
  · decide

/-! ### Reading what was written -/

/-- What a register map holds at a place: the word there, else the reset value. -/
def wordAt (key : Nat → Nat) (l : List (Nat × Word)) (k : Nat) : Nat := (mapGet l k).elim (resetOf (key k)) BitVec.toNat

theorem regOf_eq (s : State) (a : Nat) : regOf s a = wordAt keyShared s.regs a := by
  unfold regOf wordAt
  cases mapGet s.regs a <;> rfl

theorem privOf_eq (s : State) {d a : Nat} (h : keyPriv (privKey d a) = a) :
    privOf s d a = wordAt keyPriv s.priv (privKey d a) := by
  unfold privOf wordAt
  rw [h]
  generalize privKey d a = k
  cases mapGet s.priv k <;> rfl

/-- A register map in canonical form holds what was put there last, else what it held. -/
theorem wordAt_put {key : Nat → Nat} {l : List (Nat × Word)} (h : regsWf key l = true) (k : Nat) (v : Word) (i : Nat) :
    wordAt key (regPut key l k v) i = if i = k then v.toNat else wordAt key l i := by
  have ho : mapOrd none l = true := (Bool.and_eq_true _ _ ▸ h).1
  unfold regPut wordAt
  by_cases hi : i = k
  · subst hi
    rw [if_pos rfl]
    by_cases hv : v = BitVec.ofNat 32 (resetOf (key i))
    · rw [if_pos hv, mapGet_del_same ho, hv]
      exact (Nat.mod_eq_of_lt (resetOf_lt (key i))).symm
    · rw [if_neg hv, mapGet_set_same]
      rfl
  · rw [if_neg hi]
    by_cases hv : v = BitVec.ofNat 32 (resetOf (key k))
    · rw [if_pos hv, mapGet_del_other ho hi]
    · rw [if_neg hv, mapGet_set_other _ _ hi]

theorem regsWf_put {key : Nat → Nat} {l : List (Nat × Word)} (h : regsWf key l = true) (k : Nat) (v : Word) :
    regsWf key (regPut key l k v) = true := by
  have h' := Bool.and_eq_true _ _ ▸ h
  unfold regPut
  split
  · refine Bool.and_eq_true _ _ ▸ ⟨mapOrd_del h'.1, List.all_eq_true.mpr fun x hx => ?_⟩
    exact List.all_eq_true.mp h'.2 x (mem_mapDel hx)
  · rename_i hv
    refine Bool.and_eq_true _ _ ▸ ⟨mapOrd_set h'.1 (fun i hi => by cases hi), List.all_eq_true.mpr fun x hx => ?_⟩
    rcases mem_mapSet hx with rfl | hx
    · simpa using hv
    · exact List.all_eq_true.mp h'.2 x hx

theorem regsWf_filter {key : Nat → Nat} {l : List (Nat × Word)} (h : regsWf key l = true) (p : Nat × Word → Bool) :
    regsWf key (l.filter p) = true := by
  have h' := Bool.and_eq_true _ _ ▸ h
  exact Bool.and_eq_true _ _ ▸ ⟨mapOrd_filter h'.1,
    List.all_eq_true.mpr fun x hx => List.all_eq_true.mp h'.2 x (List.mem_filter.mp hx).1⟩

variable {s₀ : State}

/-- A shared register after a write of any. -/
theorem regOf_regSet {p : {s : State // Reach s₀ s}} (h : regsWf keyShared p.val.regs = true) (a v i : Nat) :
    regOf ((regSet a v : Act s₀ Unit) p).2.val i = if i = a then v % 2 ^ 32 else regOf p.val i := by
  rw [regOf_eq, regOf_eq]
  exact (wordAt_put h a (BitVec.ofNat 32 v) i).trans (by simp)

/-- A register holds a word. -/
theorem regOf_lt (s : State) (a : Nat) : regOf s a < 2 ^ 32 := by
  unfold regOf
  split
  · exact BitVec.isLt _
  · exact resetOf_lt a

theorem privOf_lt (s : State) (d a : Nat) : privOf s d a < 2 ^ 32 := by
  unfold privOf
  split
  · exact BitVec.isLt _
  · exact resetOf_lt a

theorem keyPriv_privKey {d a : Nat} (ha : a < 0x4000000) : keyPriv (privKey d a) = a := by
  unfold keyPriv privKey
  omega

theorem privKey_inj {d e a b : Nat} (ha : a < 0x4000000) (hb : b < 0x4000000) :
    privKey d a = privKey e b ↔ d = e ∧ a = b := by
  unfold privKey
  constructor
  · intro h
    omega
  · rintro ⟨rfl, rfl⟩
    rfl

/-- A domain's private register after a write of any domain's. -/
theorem privOf_privSet {p : {s : State // Reach s₀ s}} (h : regsWf keyPriv p.val.priv = true) {d a e b : Nat} (v : Nat)
    (ha : a < 0x4000000) (hb : b < 0x4000000) :
    privOf ((privSet d a v : Act s₀ Unit) p).2.val e b
      = if e = d ∧ b = a then v % 2 ^ 32 else privOf p.val e b := by
  rw [privOf_eq _ (keyPriv_privKey hb), privOf_eq _ (keyPriv_privKey hb)]
  exact (wordAt_put h (privKey d a) (BitVec.ofNat 32 v) (privKey e b)).trans (by simp [privKey_inj hb ha])

end Sys2Proof.Laws
end

