-- ==== Sys2Proof/Laws/Keep.lean ====
section
/-! SUPPORT. What every effect keeps: the canonical form of memories and register maps, and the escapements' condition. -/

namespace Sys2Proof.Laws

open Machine

theorem canonical_apply (e : Eff) (s : State) (h : Canonical s) : Canonical (e.apply s) := by
  obtain ⟨h1, h2, h3, h4, h5, h6, h7⟩ := h
  cases e with
  | mem m o =>
    cases m with
    | hbm => exact ⟨wf_run h1 o _, h2, h3, h4, h5, h6, h7⟩
    | bench => exact ⟨h1, wf_run h2 o _, h3, h4, h5, h6, h7⟩
    | well => exact ⟨h1, h2, wf_run h3 o _, h4, h5, h6, h7⟩
    | host => exact ⟨h1, h2, h3, wf_run h4 o _, h5, h6, h7⟩
    | vreg => exact ⟨h1, h2, h3, h4, wf_run h5 o _, h6, h7⟩
  | reg a v => exact ⟨h1, h2, h3, h4, h5, regsWf_put h6 a v, h7⟩
  | priv d a v => exact ⟨h1, h2, h3, h4, h5, h6, regsWf_put h7 _ v⟩
  | regsKeep k => exact ⟨h1, h2, h3, h4, h5, regsWf_filter h6 _, h7⟩
  | privKeep k => exact ⟨h1, h2, h3, h4, h5, h6, regsWf_filter h7 _⟩
  | _ => exact ⟨h1, h2, h3, h4, h5, h6, h7⟩

/-- An ARMED escapement has not reached its TARGET. -/
def EscFine (e : Esc) : Prop := e.st = .armed → e.count.toNat < e.target.toNat

theorem escFine_at {s : State} (h : EscOk s) (i : Nat) : EscFine (escAt s i) := by
  unfold escAt
  cases hg : mapGet s.esc i with
  | none => exact fun he => by cases he
  | some e => exact h.2 i e (mapGet_mem hg)

/-- Table 15.7 keeps the condition. -/
theorem escFine_run (o : EscEff) {e : Esc} (h : EscFine e) : EscFine (o.run e) := by
  cases o with
  | add n =>
    intro he
    simp only [EscEff.run] at he ⊢
    have hc : (BitVec.ofNat 32 (min (e.count.toNat + n) 0xFFFFFFFF)).toNat = min (e.count.toNat + n) 0xFFFFFFFF := by
      rw [BitVec.toNat_ofNat]
      omega
    rw [hc]
    by_cases hf : e.st = .armed ∧ e.target.toNat ≤ min (e.count.toNat + n) 0xFFFFFFFF
    · rw [if_pos hf] at he
      cases he
    · rw [if_neg hf] at he
      have := not_and.mp hf he
      omega
  | arm t =>
    intro he
    simp only [EscEff.run] at he ⊢
    rw [BitVec.toNat_ofNat]
    by_cases hf : t % 2 ^ 32 ≤ e.count.toNat
    · rw [if_pos hf] at he
      cases he
    · omega
  | reset => exact fun he => by cases he
  | notify v on => exact h
  | state a =>
    intro he
    cases a <;> cases he

theorem escOk_apply (e : Eff) (s : State) (h : EscOk s) : EscOk (e.apply s) := by
  cases e with
  | esc i o =>
    refine ⟨mapOrd_set h.1 (fun i hi => by cases hi), fun j x hx => ?_⟩
    rcases mem_mapSet hx with hx | hx
    · cases hx
      exact escFine_run o (escFine_at h i)
    · exact h.2 j x hx
  | escClear => exact ⟨rfl, fun j x hx => by cases hx⟩
  | mem m o => cases m <;> exact h
  | _ => exact h

theorem canonical_reset : Canonical State.reset := ⟨rfl, rfl, rfl, rfl, rfl, rfl, rfl⟩

end Sys2Proof.Laws
end

