-- ==== Sys2Proof/Laws/Opn.lean ====
section
/-! SUPPORT. The list of operations, and how an operation ends. -/

namespace Sys2Proof.Laws

open Machine

variable {s₀ : State}

/-! ### Finding an operation -/

theorem find_map_ref (l : List Op) (f : Op → Op) (r : OpRef) (hf : ∀ x, (f x).ref = x.ref) :
    (l.map f).find? (fun o => o.ref == r) = (l.find? fun o => o.ref == r).map f := by
  induction l with
  | nil => rfl
  | cons x xs ih =>
    simp only [List.map_cons, List.find?_cons, hf]
    split <;> simp_all

theorem findOp_ref {s : State} {r : OpRef} {o : Op} (h : findOp s r = some o) : o.ref = r := by
  simpa using List.find?_some h

/-- A changed operation is found changed; every other is found as it was. -/
theorem findOp_modOp {p : {s : State // Reach s₀ s}} {r q : OpRef} {f : Op → Op} (hf : ∀ x, (f x).ref = x.ref) :
    findOp ((modOp r f : Act s₀ Unit) p).2.val q = (findOp p.val q).map fun x => if x.ref == r then f x else x := by
  show (p.val.ops.map _).find? _ = _
  rw [find_map_ref _ _ _ fun x => by split <;> simp_all]
  rfl

theorem findOp_putOp {p : {s : State // Reach s₀ s}} {o o' : Op} {q : OpRef} (h : findOp p.val o.ref = some o') :
    findOp ((putOp o : Act s₀ Unit) p).2.val q = if q = o.ref then some o else findOp p.val q := by
  show (p.val.ops.map _).find? _ = _
  rw [find_map_ref _ _ _ fun x => by split <;> simp_all]
  by_cases hq : q = o.ref
  · have h2 : List.find? (fun x => x.ref == q) p.val.ops = some o' := by rw [hq]; exact h
    have := findOp_ref h
    rw [h2, hq]; simp [this]
  · simp only [hq, if_false]
    cases h2 : List.find? (fun x => x.ref == q) p.val.ops with
    | none => simp [findOp, h2]
    | some x =>
      have hx : x.ref = q := by simpa using List.find?_some h2
      simp [findOp, h2, hx, hq]

/-- Parts that stay the same keep what `findOp` finds. -/
theorem findOp_same {s t : State} (h : Same .ops s t) (r : OpRef) : findOp t r = findOp s r := by
  have h : t.ops = s.ops := h
  simp [findOp, h]

/-! ### The end of an operation -/

/-- The cells an operation holds become idle. -/
theorem freeCells_released (r : OpRef) (p : {s : State // Reach s₀ s}) :
    ∀ c ∈ ((freeCells r : Act s₀ Unit) p).2.val.cells.st, (c.2.holder.map Prod.fst) ≠ some r := by
  intro c hc
  unfold freeCells at hc
  simp only [act_st_bind, act_ite] at hc
  split at hc
  · simp only [act_emit, Eff.apply, List.mem_map] at hc
    obtain ⟨x, _, rfl⟩ := hc
    split
    · simp
    · simp_all
  · rename_i h
    intro h2
    exact h (List.any_eq_true.mpr ⟨c, hc, by simp [h2]⟩)

theorem ended_same {s t : State} {r : OpRef} {status detail : Nat} (h : Same .ops s t) (he : Ended s r status detail) :
    Ended t r status detail := by
  obtain ⟨o, ho, h1⟩ := he
  exact ⟨o, by rw [findOp_same h]; exact ho, h1⟩

/-- What an action does not touch the operations by, it leaves ended. -/
theorem ended_keep {α : Type} {ks : List Part} {a : Act s₀ α} (h : Only ks a) (hk : Part.ops ∉ ks)
    {p : {s : State // Reach s₀ s}} {r : OpRef} {status detail : Nat} (he : Ended p.val r status detail) :
    Ended (a p).2.val r status detail :=
  ended_same (h.same p _ hk) he

/-- What `endOp` does to an operation that is not yet decided: its STATUS and DETAIL are fixed. -/
theorem endOp_ends {p : {s : State // Reach s₀ s}} {r : OpRef} {o : Op} (h : findOp p.val r = some o)
    (hd : o.phase ≠ .decided) (status detail counts : Nat) (admitAs : Option Nat) :
    Ended ((endOp r status detail counts admitAs : Act s₀ Unit) p).2.val r status detail := by
  have hr := findOp_ref h
  subst hr
  unfold endOp
  simp only [act_st_bind, h, hd, if_false]
  rw [act_bind]
  refine ended_keep (ks := [.hbm, .bench, .well, .host, .reqs, .cells]) ?_ (by decide)
    ⟨o.decide status detail counts admitAs p.val.ts, ?_, rfl, rfl, rfl⟩
  · exact only_bind (only_spoil _ _ (by decide)) fun _ => only_bind (only_dropReqsOf _ (by decide)) fun _ =>
      only_freeCells _ (by decide)
  · exact (findOp_putOp (o := o.decide status detail counts admitAs p.val.ts) (o' := o) h).trans (if_pos rfl)

/-- The request slots of an operation are given up. -/
theorem dropReqsOf_released (r : OpRef) (p : {s : State // Reach s₀ s}) :
    ∀ q ∈ ((dropReqsOf r : Act s₀ Unit) p).2.val.reqs, q.op ≠ some r := by
  intro q hq
  unfold dropReqsOf at hq
  rw [act_st_bind, act_ite] at hq
  split at hq
  · simp only [act_emit, Eff.apply, List.mem_filter] at hq
    simpa using hq.2
  · rename_i h
    exact fun h2 => h (List.any_eq_true.mpr ⟨q, hq, by simp [h2]⟩)

/-- What `endOp` does besides: the operation's request slots and its cells are given up. -/
theorem endOp_released {p : {s : State // Reach s₀ s}} {r : OpRef} {o : Op} (h : findOp p.val r = some o)
    (hd : o.phase ≠ .decided) (status detail counts : Nat) (admitAs : Option Nat) :
    Released ((endOp r status detail counts admitAs : Act s₀ Unit) p).2.val r := by
  unfold endOp
  simp only [act_st_bind, h, hd, if_false]
  rw [act_bind, act_bind, act_bind]
  generalize (spoil o status (putOp (o.decide status detail counts admitAs p.val.ts) p).2).2 = q
  have hreqs : ((freeCells r : Act s₀ Unit) ((dropReqsOf r : Act s₀ Unit) q).2).2.val.reqs
      = ((dropReqsOf r : Act s₀ Unit) q).2.val.reqs :=
    (only_freeCells (ks := [.cells]) r (by decide)).same _ .reqs (by decide)
  refine ⟨fun x hx => ?_, freeCells_released r _⟩
  rw [hreqs] at hx
  exact dropReqsOf_released r _ x hx

end Sys2Proof.Laws
end

