-- ==== Sys2Proof/Laws/State.lean ====
section
/-! SUPPORT. Every field of the state after every effect, true by unfolding, so that no later proof opens a record update. -/

namespace Sys2Proof.Laws

open Machine

variable (s : State)

/-! ### .ts n -/

@[simp] theorem apply_ts_pending (n : Nat) : (Eff.apply (.ts n) s).pending = s.pending := rfl
@[simp] theorem apply_ts_ts (n : Nat) : (Eff.apply (.ts n) s).ts = n := rfl
@[simp] theorem apply_ts_nonce (n : Nat) : (Eff.apply (.ts n) s).nonce = s.nonce := rfl
@[simp] theorem apply_ts_regs (n : Nat) : (Eff.apply (.ts n) s).regs = s.regs := rfl
@[simp] theorem apply_ts_priv (n : Nat) : (Eff.apply (.ts n) s).priv = s.priv := rfl
@[simp] theorem apply_ts_shadow (n : Nat) : (Eff.apply (.ts n) s).shadow = s.shadow := rfl
@[simp] theorem apply_ts_hbm (n : Nat) : (Eff.apply (.ts n) s).hbm = s.hbm := rfl
@[simp] theorem apply_ts_bench (n : Nat) : (Eff.apply (.ts n) s).bench = s.bench := rfl
@[simp] theorem apply_ts_well (n : Nat) : (Eff.apply (.ts n) s).well = s.well := rfl
@[simp] theorem apply_ts_host (n : Nat) : (Eff.apply (.ts n) s).host = s.host := rfl
@[simp] theorem apply_ts_ecc (n : Nat) : (Eff.apply (.ts n) s).ecc = s.ecc := rfl
@[simp] theorem apply_ts_sram (n : Nat) : (Eff.apply (.ts n) s).sram = s.sram := rfl
@[simp] theorem apply_ts_esc (n : Nat) : (Eff.apply (.ts n) s).esc = s.esc := rfl
@[simp] theorem apply_ts_ops (n : Nat) : (Eff.apply (.ts n) s).ops = s.ops := rfl
@[simp] theorem apply_ts_recorded (n : Nat) : (Eff.apply (.ts n) s).recorded = s.recorded := rfl
@[simp] theorem apply_ts_marks (n : Nat) : (Eff.apply (.ts n) s).marks = s.marks := rfl
@[simp] theorem apply_ts_reqs (n : Nat) : (Eff.apply (.ts n) s).reqs = s.reqs := rfl
@[simp] theorem apply_ts_outs (n : Nat) : (Eff.apply (.ts n) s).outs = s.outs := rfl
@[simp] theorem apply_ts_hosts (n : Nat) : (Eff.apply (.ts n) s).hosts = s.hosts := rfl
@[simp] theorem apply_ts_tbl (n : Nat) : (Eff.apply (.ts n) s).tbl = s.tbl := rfl
@[simp] theorem apply_ts_sac (n : Nat) : (Eff.apply (.ts n) s).sac = s.sac := rfl
@[simp] theorem apply_ts_cells (n : Nat) : (Eff.apply (.ts n) s).cells = s.cells := rfl
@[simp] theorem apply_ts_stash (n : Nat) : (Eff.apply (.ts n) s).stash = s.stash := rfl
@[simp] theorem apply_ts_schDue (n : Nat) : (Eff.apply (.ts n) s).schDue = s.schDue := rfl
@[simp] theorem apply_ts_lpe (n : Nat) : (Eff.apply (.ts n) s).lpe = s.lpe := rfl
@[simp] theorem apply_ts_col (n : Nat) : (Eff.apply (.ts n) s).col = s.col := rfl
@[simp] theorem apply_ts_rte (n : Nat) : (Eff.apply (.ts n) s).rte = s.rte := rfl
@[simp] theorem apply_ts_links (n : Nat) : (Eff.apply (.ts n) s).links = s.links := rfl
@[simp] theorem apply_ts_peers (n : Nat) : (Eff.apply (.ts n) s).peers = s.peers := rfl
@[simp] theorem apply_ts_qps (n : Nat) : (Eff.apply (.ts n) s).qps = s.qps := rfl
@[simp] theorem apply_ts_clb (n : Nat) : (Eff.apply (.ts n) s).clb = s.clb := rfl
@[simp] theorem apply_ts_crown (n : Nat) : (Eff.apply (.ts n) s).crown = s.crown := rfl

/-! ### .nonce -/

@[simp] theorem apply_nonce_pending : (Eff.apply (.nonce) s).pending = s.pending := rfl
@[simp] theorem apply_nonce_ts : (Eff.apply (.nonce) s).ts = s.ts := rfl
@[simp] theorem apply_nonce_nonce : (Eff.apply (.nonce) s).nonce = s.nonce + 1 := rfl
@[simp] theorem apply_nonce_regs : (Eff.apply (.nonce) s).regs = s.regs := rfl
@[simp] theorem apply_nonce_priv : (Eff.apply (.nonce) s).priv = s.priv := rfl
@[simp] theorem apply_nonce_shadow : (Eff.apply (.nonce) s).shadow = s.shadow := rfl
@[simp] theorem apply_nonce_hbm : (Eff.apply (.nonce) s).hbm = s.hbm := rfl
@[simp] theorem apply_nonce_bench : (Eff.apply (.nonce) s).bench = s.bench := rfl
@[simp] theorem apply_nonce_well : (Eff.apply (.nonce) s).well = s.well := rfl
@[simp] theorem apply_nonce_host : (Eff.apply (.nonce) s).host = s.host := rfl
@[simp] theorem apply_nonce_ecc : (Eff.apply (.nonce) s).ecc = s.ecc := rfl
@[simp] theorem apply_nonce_sram : (Eff.apply (.nonce) s).sram = s.sram := rfl
@[simp] theorem apply_nonce_esc : (Eff.apply (.nonce) s).esc = s.esc := rfl
@[simp] theorem apply_nonce_ops : (Eff.apply (.nonce) s).ops = s.ops := rfl
@[simp] theorem apply_nonce_recorded : (Eff.apply (.nonce) s).recorded = s.recorded := rfl
@[simp] theorem apply_nonce_marks : (Eff.apply (.nonce) s).marks = s.marks := rfl
@[simp] theorem apply_nonce_reqs : (Eff.apply (.nonce) s).reqs = s.reqs := rfl
@[simp] theorem apply_nonce_outs : (Eff.apply (.nonce) s).outs = s.outs := rfl
@[simp] theorem apply_nonce_hosts : (Eff.apply (.nonce) s).hosts = s.hosts := rfl
@[simp] theorem apply_nonce_tbl : (Eff.apply (.nonce) s).tbl = s.tbl := rfl
@[simp] theorem apply_nonce_sac : (Eff.apply (.nonce) s).sac = s.sac := rfl
@[simp] theorem apply_nonce_cells : (Eff.apply (.nonce) s).cells = s.cells := rfl
@[simp] theorem apply_nonce_stash : (Eff.apply (.nonce) s).stash = s.stash := rfl
@[simp] theorem apply_nonce_schDue : (Eff.apply (.nonce) s).schDue = s.schDue := rfl
@[simp] theorem apply_nonce_lpe : (Eff.apply (.nonce) s).lpe = s.lpe := rfl
@[simp] theorem apply_nonce_col : (Eff.apply (.nonce) s).col = s.col := rfl
@[simp] theorem apply_nonce_rte : (Eff.apply (.nonce) s).rte = s.rte := rfl
@[simp] theorem apply_nonce_links : (Eff.apply (.nonce) s).links = s.links := rfl
@[simp] theorem apply_nonce_peers : (Eff.apply (.nonce) s).peers = s.peers := rfl
@[simp] theorem apply_nonce_qps : (Eff.apply (.nonce) s).qps = s.qps := rfl
@[simp] theorem apply_nonce_clb : (Eff.apply (.nonce) s).clb = s.clb := rfl
@[simp] theorem apply_nonce_crown : (Eff.apply (.nonce) s).crown = s.crown := rfl

/-! ### .reg a v -/

@[simp] theorem apply_reg_pending (a : Nat) (v : Word) : (Eff.apply (.reg a v) s).pending = s.pending := rfl
@[simp] theorem apply_reg_ts (a : Nat) (v : Word) : (Eff.apply (.reg a v) s).ts = s.ts := rfl
@[simp] theorem apply_reg_nonce (a : Nat) (v : Word) : (Eff.apply (.reg a v) s).nonce = s.nonce := rfl
@[simp] theorem apply_reg_regs (a : Nat) (v : Word) : (Eff.apply (.reg a v) s).regs = regPut keyShared s.regs a v := rfl
@[simp] theorem apply_reg_priv (a : Nat) (v : Word) : (Eff.apply (.reg a v) s).priv = s.priv := rfl
@[simp] theorem apply_reg_shadow (a : Nat) (v : Word) : (Eff.apply (.reg a v) s).shadow = s.shadow := rfl
@[simp] theorem apply_reg_hbm (a : Nat) (v : Word) : (Eff.apply (.reg a v) s).hbm = s.hbm := rfl
@[simp] theorem apply_reg_bench (a : Nat) (v : Word) : (Eff.apply (.reg a v) s).bench = s.bench := rfl
@[simp] theorem apply_reg_well (a : Nat) (v : Word) : (Eff.apply (.reg a v) s).well = s.well := rfl
@[simp] theorem apply_reg_host (a : Nat) (v : Word) : (Eff.apply (.reg a v) s).host = s.host := rfl
@[simp] theorem apply_reg_ecc (a : Nat) (v : Word) : (Eff.apply (.reg a v) s).ecc = s.ecc := rfl
@[simp] theorem apply_reg_sram (a : Nat) (v : Word) : (Eff.apply (.reg a v) s).sram = s.sram := rfl
@[simp] theorem apply_reg_esc (a : Nat) (v : Word) : (Eff.apply (.reg a v) s).esc = s.esc := rfl
@[simp] theorem apply_reg_ops (a : Nat) (v : Word) : (Eff.apply (.reg a v) s).ops = s.ops := rfl
@[simp] theorem apply_reg_recorded (a : Nat) (v : Word) : (Eff.apply (.reg a v) s).recorded = s.recorded := rfl
@[simp] theorem apply_reg_marks (a : Nat) (v : Word) : (Eff.apply (.reg a v) s).marks = s.marks := rfl
@[simp] theorem apply_reg_reqs (a : Nat) (v : Word) : (Eff.apply (.reg a v) s).reqs = s.reqs := rfl
@[simp] theorem apply_reg_outs (a : Nat) (v : Word) : (Eff.apply (.reg a v) s).outs = s.outs := rfl
@[simp] theorem apply_reg_hosts (a : Nat) (v : Word) : (Eff.apply (.reg a v) s).hosts = s.hosts := rfl
@[simp] theorem apply_reg_tbl (a : Nat) (v : Word) : (Eff.apply (.reg a v) s).tbl = s.tbl := rfl
@[simp] theorem apply_reg_sac (a : Nat) (v : Word) : (Eff.apply (.reg a v) s).sac = s.sac := rfl
@[simp] theorem apply_reg_cells (a : Nat) (v : Word) : (Eff.apply (.reg a v) s).cells = s.cells := rfl
@[simp] theorem apply_reg_stash (a : Nat) (v : Word) : (Eff.apply (.reg a v) s).stash = s.stash := rfl
@[simp] theorem apply_reg_schDue (a : Nat) (v : Word) : (Eff.apply (.reg a v) s).schDue = s.schDue := rfl
@[simp] theorem apply_reg_lpe (a : Nat) (v : Word) : (Eff.apply (.reg a v) s).lpe = s.lpe := rfl
@[simp] theorem apply_reg_col (a : Nat) (v : Word) : (Eff.apply (.reg a v) s).col = s.col := rfl
@[simp] theorem apply_reg_rte (a : Nat) (v : Word) : (Eff.apply (.reg a v) s).rte = s.rte := rfl
@[simp] theorem apply_reg_links (a : Nat) (v : Word) : (Eff.apply (.reg a v) s).links = s.links := rfl
@[simp] theorem apply_reg_peers (a : Nat) (v : Word) : (Eff.apply (.reg a v) s).peers = s.peers := rfl
@[simp] theorem apply_reg_qps (a : Nat) (v : Word) : (Eff.apply (.reg a v) s).qps = s.qps := rfl
@[simp] theorem apply_reg_clb (a : Nat) (v : Word) : (Eff.apply (.reg a v) s).clb = s.clb := rfl
@[simp] theorem apply_reg_crown (a : Nat) (v : Word) : (Eff.apply (.reg a v) s).crown = s.crown := rfl

/-! ### .priv d a v -/

@[simp] theorem apply_priv_pending (d a : Nat) (v : Word) : (Eff.apply (.priv d a v) s).pending = s.pending := rfl
@[simp] theorem apply_priv_ts (d a : Nat) (v : Word) : (Eff.apply (.priv d a v) s).ts = s.ts := rfl
@[simp] theorem apply_priv_nonce (d a : Nat) (v : Word) : (Eff.apply (.priv d a v) s).nonce = s.nonce := rfl
@[simp] theorem apply_priv_regs (d a : Nat) (v : Word) : (Eff.apply (.priv d a v) s).regs = s.regs := rfl
@[simp] theorem apply_priv_priv (d a : Nat) (v : Word) : (Eff.apply (.priv d a v) s).priv = regPut keyPriv s.priv (privKey d a) v := rfl
@[simp] theorem apply_priv_shadow (d a : Nat) (v : Word) : (Eff.apply (.priv d a v) s).shadow = s.shadow := rfl
@[simp] theorem apply_priv_hbm (d a : Nat) (v : Word) : (Eff.apply (.priv d a v) s).hbm = s.hbm := rfl
@[simp] theorem apply_priv_bench (d a : Nat) (v : Word) : (Eff.apply (.priv d a v) s).bench = s.bench := rfl
@[simp] theorem apply_priv_well (d a : Nat) (v : Word) : (Eff.apply (.priv d a v) s).well = s.well := rfl
@[simp] theorem apply_priv_host (d a : Nat) (v : Word) : (Eff.apply (.priv d a v) s).host = s.host := rfl
@[simp] theorem apply_priv_ecc (d a : Nat) (v : Word) : (Eff.apply (.priv d a v) s).ecc = s.ecc := rfl
@[simp] theorem apply_priv_sram (d a : Nat) (v : Word) : (Eff.apply (.priv d a v) s).sram = s.sram := rfl
@[simp] theorem apply_priv_esc (d a : Nat) (v : Word) : (Eff.apply (.priv d a v) s).esc = s.esc := rfl
@[simp] theorem apply_priv_ops (d a : Nat) (v : Word) : (Eff.apply (.priv d a v) s).ops = s.ops := rfl
@[simp] theorem apply_priv_recorded (d a : Nat) (v : Word) : (Eff.apply (.priv d a v) s).recorded = s.recorded := rfl
@[simp] theorem apply_priv_marks (d a : Nat) (v : Word) : (Eff.apply (.priv d a v) s).marks = s.marks := rfl
@[simp] theorem apply_priv_reqs (d a : Nat) (v : Word) : (Eff.apply (.priv d a v) s).reqs = s.reqs := rfl
@[simp] theorem apply_priv_outs (d a : Nat) (v : Word) : (Eff.apply (.priv d a v) s).outs = s.outs := rfl
@[simp] theorem apply_priv_hosts (d a : Nat) (v : Word) : (Eff.apply (.priv d a v) s).hosts = s.hosts := rfl
@[simp] theorem apply_priv_tbl (d a : Nat) (v : Word) : (Eff.apply (.priv d a v) s).tbl = s.tbl := rfl
@[simp] theorem apply_priv_sac (d a : Nat) (v : Word) : (Eff.apply (.priv d a v) s).sac = s.sac := rfl
@[simp] theorem apply_priv_cells (d a : Nat) (v : Word) : (Eff.apply (.priv d a v) s).cells = s.cells := rfl
@[simp] theorem apply_priv_stash (d a : Nat) (v : Word) : (Eff.apply (.priv d a v) s).stash = s.stash := rfl
@[simp] theorem apply_priv_schDue (d a : Nat) (v : Word) : (Eff.apply (.priv d a v) s).schDue = s.schDue := rfl
@[simp] theorem apply_priv_lpe (d a : Nat) (v : Word) : (Eff.apply (.priv d a v) s).lpe = s.lpe := rfl
@[simp] theorem apply_priv_col (d a : Nat) (v : Word) : (Eff.apply (.priv d a v) s).col = s.col := rfl
@[simp] theorem apply_priv_rte (d a : Nat) (v : Word) : (Eff.apply (.priv d a v) s).rte = s.rte := rfl
@[simp] theorem apply_priv_links (d a : Nat) (v : Word) : (Eff.apply (.priv d a v) s).links = s.links := rfl
@[simp] theorem apply_priv_peers (d a : Nat) (v : Word) : (Eff.apply (.priv d a v) s).peers = s.peers := rfl
@[simp] theorem apply_priv_qps (d a : Nat) (v : Word) : (Eff.apply (.priv d a v) s).qps = s.qps := rfl
@[simp] theorem apply_priv_clb (d a : Nat) (v : Word) : (Eff.apply (.priv d a v) s).clb = s.clb := rfl
@[simp] theorem apply_priv_crown (d a : Nat) (v : Word) : (Eff.apply (.priv d a v) s).crown = s.crown := rfl

/-! ### .shadow a v -/

@[simp] theorem apply_shadow_pending (a : Nat) (v : Word) : (Eff.apply (.shadow a v) s).pending = s.pending := rfl
@[simp] theorem apply_shadow_ts (a : Nat) (v : Word) : (Eff.apply (.shadow a v) s).ts = s.ts := rfl
@[simp] theorem apply_shadow_nonce (a : Nat) (v : Word) : (Eff.apply (.shadow a v) s).nonce = s.nonce := rfl
@[simp] theorem apply_shadow_regs (a : Nat) (v : Word) : (Eff.apply (.shadow a v) s).regs = s.regs := rfl
@[simp] theorem apply_shadow_priv (a : Nat) (v : Word) : (Eff.apply (.shadow a v) s).priv = s.priv := rfl
@[simp] theorem apply_shadow_shadow (a : Nat) (v : Word) : (Eff.apply (.shadow a v) s).shadow = mapSet s.shadow a v := rfl
@[simp] theorem apply_shadow_hbm (a : Nat) (v : Word) : (Eff.apply (.shadow a v) s).hbm = s.hbm := rfl
@[simp] theorem apply_shadow_bench (a : Nat) (v : Word) : (Eff.apply (.shadow a v) s).bench = s.bench := rfl
@[simp] theorem apply_shadow_well (a : Nat) (v : Word) : (Eff.apply (.shadow a v) s).well = s.well := rfl
@[simp] theorem apply_shadow_host (a : Nat) (v : Word) : (Eff.apply (.shadow a v) s).host = s.host := rfl
@[simp] theorem apply_shadow_ecc (a : Nat) (v : Word) : (Eff.apply (.shadow a v) s).ecc = s.ecc := rfl
@[simp] theorem apply_shadow_sram (a : Nat) (v : Word) : (Eff.apply (.shadow a v) s).sram = s.sram := rfl
@[simp] theorem apply_shadow_esc (a : Nat) (v : Word) : (Eff.apply (.shadow a v) s).esc = s.esc := rfl
@[simp] theorem apply_shadow_ops (a : Nat) (v : Word) : (Eff.apply (.shadow a v) s).ops = s.ops := rfl
@[simp] theorem apply_shadow_recorded (a : Nat) (v : Word) : (Eff.apply (.shadow a v) s).recorded = s.recorded := rfl
@[simp] theorem apply_shadow_marks (a : Nat) (v : Word) : (Eff.apply (.shadow a v) s).marks = s.marks := rfl
@[simp] theorem apply_shadow_reqs (a : Nat) (v : Word) : (Eff.apply (.shadow a v) s).reqs = s.reqs := rfl
@[simp] theorem apply_shadow_outs (a : Nat) (v : Word) : (Eff.apply (.shadow a v) s).outs = s.outs := rfl
@[simp] theorem apply_shadow_hosts (a : Nat) (v : Word) : (Eff.apply (.shadow a v) s).hosts = s.hosts := rfl
@[simp] theorem apply_shadow_tbl (a : Nat) (v : Word) : (Eff.apply (.shadow a v) s).tbl = s.tbl := rfl
@[simp] theorem apply_shadow_sac (a : Nat) (v : Word) : (Eff.apply (.shadow a v) s).sac = s.sac := rfl
@[simp] theorem apply_shadow_cells (a : Nat) (v : Word) : (Eff.apply (.shadow a v) s).cells = s.cells := rfl
@[simp] theorem apply_shadow_stash (a : Nat) (v : Word) : (Eff.apply (.shadow a v) s).stash = s.stash := rfl
@[simp] theorem apply_shadow_schDue (a : Nat) (v : Word) : (Eff.apply (.shadow a v) s).schDue = s.schDue := rfl
@[simp] theorem apply_shadow_lpe (a : Nat) (v : Word) : (Eff.apply (.shadow a v) s).lpe = s.lpe := rfl
@[simp] theorem apply_shadow_col (a : Nat) (v : Word) : (Eff.apply (.shadow a v) s).col = s.col := rfl
@[simp] theorem apply_shadow_rte (a : Nat) (v : Word) : (Eff.apply (.shadow a v) s).rte = s.rte := rfl
@[simp] theorem apply_shadow_links (a : Nat) (v : Word) : (Eff.apply (.shadow a v) s).links = s.links := rfl
@[simp] theorem apply_shadow_peers (a : Nat) (v : Word) : (Eff.apply (.shadow a v) s).peers = s.peers := rfl
@[simp] theorem apply_shadow_qps (a : Nat) (v : Word) : (Eff.apply (.shadow a v) s).qps = s.qps := rfl
@[simp] theorem apply_shadow_clb (a : Nat) (v : Word) : (Eff.apply (.shadow a v) s).clb = s.clb := rfl
@[simp] theorem apply_shadow_crown (a : Nat) (v : Word) : (Eff.apply (.shadow a v) s).crown = s.crown := rfl

/-! ### .shadowClear -/

@[simp] theorem apply_shadowClear_pending : (Eff.apply (.shadowClear) s).pending = s.pending := rfl
@[simp] theorem apply_shadowClear_ts : (Eff.apply (.shadowClear) s).ts = s.ts := rfl
@[simp] theorem apply_shadowClear_nonce : (Eff.apply (.shadowClear) s).nonce = s.nonce := rfl
@[simp] theorem apply_shadowClear_regs : (Eff.apply (.shadowClear) s).regs = s.regs := rfl
@[simp] theorem apply_shadowClear_priv : (Eff.apply (.shadowClear) s).priv = s.priv := rfl
@[simp] theorem apply_shadowClear_shadow : (Eff.apply (.shadowClear) s).shadow = [] := rfl
@[simp] theorem apply_shadowClear_hbm : (Eff.apply (.shadowClear) s).hbm = s.hbm := rfl
@[simp] theorem apply_shadowClear_bench : (Eff.apply (.shadowClear) s).bench = s.bench := rfl
@[simp] theorem apply_shadowClear_well : (Eff.apply (.shadowClear) s).well = s.well := rfl
@[simp] theorem apply_shadowClear_host : (Eff.apply (.shadowClear) s).host = s.host := rfl
@[simp] theorem apply_shadowClear_ecc : (Eff.apply (.shadowClear) s).ecc = s.ecc := rfl
@[simp] theorem apply_shadowClear_sram : (Eff.apply (.shadowClear) s).sram = s.sram := rfl
@[simp] theorem apply_shadowClear_esc : (Eff.apply (.shadowClear) s).esc = s.esc := rfl
@[simp] theorem apply_shadowClear_ops : (Eff.apply (.shadowClear) s).ops = s.ops := rfl
@[simp] theorem apply_shadowClear_recorded : (Eff.apply (.shadowClear) s).recorded = s.recorded := rfl
@[simp] theorem apply_shadowClear_marks : (Eff.apply (.shadowClear) s).marks = s.marks := rfl
@[simp] theorem apply_shadowClear_reqs : (Eff.apply (.shadowClear) s).reqs = s.reqs := rfl
@[simp] theorem apply_shadowClear_outs : (Eff.apply (.shadowClear) s).outs = s.outs := rfl
@[simp] theorem apply_shadowClear_hosts : (Eff.apply (.shadowClear) s).hosts = s.hosts := rfl
@[simp] theorem apply_shadowClear_tbl : (Eff.apply (.shadowClear) s).tbl = s.tbl := rfl
@[simp] theorem apply_shadowClear_sac : (Eff.apply (.shadowClear) s).sac = s.sac := rfl
@[simp] theorem apply_shadowClear_cells : (Eff.apply (.shadowClear) s).cells = s.cells := rfl
@[simp] theorem apply_shadowClear_stash : (Eff.apply (.shadowClear) s).stash = s.stash := rfl
@[simp] theorem apply_shadowClear_schDue : (Eff.apply (.shadowClear) s).schDue = s.schDue := rfl
@[simp] theorem apply_shadowClear_lpe : (Eff.apply (.shadowClear) s).lpe = s.lpe := rfl
@[simp] theorem apply_shadowClear_col : (Eff.apply (.shadowClear) s).col = s.col := rfl
@[simp] theorem apply_shadowClear_rte : (Eff.apply (.shadowClear) s).rte = s.rte := rfl
@[simp] theorem apply_shadowClear_links : (Eff.apply (.shadowClear) s).links = s.links := rfl
@[simp] theorem apply_shadowClear_peers : (Eff.apply (.shadowClear) s).peers = s.peers := rfl
@[simp] theorem apply_shadowClear_qps : (Eff.apply (.shadowClear) s).qps = s.qps := rfl
@[simp] theorem apply_shadowClear_clb : (Eff.apply (.shadowClear) s).clb = s.clb := rfl
@[simp] theorem apply_shadowClear_crown : (Eff.apply (.shadowClear) s).crown = s.crown := rfl

/-! ### .regsKeep k -/

@[simp] theorem apply_regsKeep_pending (k : Nat → Bool) : (Eff.apply (.regsKeep k) s).pending = s.pending := rfl
@[simp] theorem apply_regsKeep_ts (k : Nat → Bool) : (Eff.apply (.regsKeep k) s).ts = s.ts := rfl
@[simp] theorem apply_regsKeep_nonce (k : Nat → Bool) : (Eff.apply (.regsKeep k) s).nonce = s.nonce := rfl
@[simp] theorem apply_regsKeep_regs (k : Nat → Bool) : (Eff.apply (.regsKeep k) s).regs = s.regs.filter fun c => k c.1 := rfl
@[simp] theorem apply_regsKeep_priv (k : Nat → Bool) : (Eff.apply (.regsKeep k) s).priv = s.priv := rfl
@[simp] theorem apply_regsKeep_shadow (k : Nat → Bool) : (Eff.apply (.regsKeep k) s).shadow = s.shadow := rfl
@[simp] theorem apply_regsKeep_hbm (k : Nat → Bool) : (Eff.apply (.regsKeep k) s).hbm = s.hbm := rfl
@[simp] theorem apply_regsKeep_bench (k : Nat → Bool) : (Eff.apply (.regsKeep k) s).bench = s.bench := rfl
@[simp] theorem apply_regsKeep_well (k : Nat → Bool) : (Eff.apply (.regsKeep k) s).well = s.well := rfl
@[simp] theorem apply_regsKeep_host (k : Nat → Bool) : (Eff.apply (.regsKeep k) s).host = s.host := rfl
@[simp] theorem apply_regsKeep_ecc (k : Nat → Bool) : (Eff.apply (.regsKeep k) s).ecc = s.ecc := rfl
@[simp] theorem apply_regsKeep_sram (k : Nat → Bool) : (Eff.apply (.regsKeep k) s).sram = s.sram := rfl
@[simp] theorem apply_regsKeep_esc (k : Nat → Bool) : (Eff.apply (.regsKeep k) s).esc = s.esc := rfl
@[simp] theorem apply_regsKeep_ops (k : Nat → Bool) : (Eff.apply (.regsKeep k) s).ops = s.ops := rfl
@[simp] theorem apply_regsKeep_recorded (k : Nat → Bool) : (Eff.apply (.regsKeep k) s).recorded = s.recorded := rfl
@[simp] theorem apply_regsKeep_marks (k : Nat → Bool) : (Eff.apply (.regsKeep k) s).marks = s.marks := rfl
@[simp] theorem apply_regsKeep_reqs (k : Nat → Bool) : (Eff.apply (.regsKeep k) s).reqs = s.reqs := rfl
@[simp] theorem apply_regsKeep_outs (k : Nat → Bool) : (Eff.apply (.regsKeep k) s).outs = s.outs := rfl
@[simp] theorem apply_regsKeep_hosts (k : Nat → Bool) : (Eff.apply (.regsKeep k) s).hosts = s.hosts := rfl
@[simp] theorem apply_regsKeep_tbl (k : Nat → Bool) : (Eff.apply (.regsKeep k) s).tbl = s.tbl := rfl
@[simp] theorem apply_regsKeep_sac (k : Nat → Bool) : (Eff.apply (.regsKeep k) s).sac = s.sac := rfl
@[simp] theorem apply_regsKeep_cells (k : Nat → Bool) : (Eff.apply (.regsKeep k) s).cells = s.cells := rfl
@[simp] theorem apply_regsKeep_stash (k : Nat → Bool) : (Eff.apply (.regsKeep k) s).stash = s.stash := rfl
@[simp] theorem apply_regsKeep_schDue (k : Nat → Bool) : (Eff.apply (.regsKeep k) s).schDue = s.schDue := rfl
@[simp] theorem apply_regsKeep_lpe (k : Nat → Bool) : (Eff.apply (.regsKeep k) s).lpe = s.lpe := rfl
@[simp] theorem apply_regsKeep_col (k : Nat → Bool) : (Eff.apply (.regsKeep k) s).col = s.col := rfl
@[simp] theorem apply_regsKeep_rte (k : Nat → Bool) : (Eff.apply (.regsKeep k) s).rte = s.rte := rfl
@[simp] theorem apply_regsKeep_links (k : Nat → Bool) : (Eff.apply (.regsKeep k) s).links = s.links := rfl
@[simp] theorem apply_regsKeep_peers (k : Nat → Bool) : (Eff.apply (.regsKeep k) s).peers = s.peers := rfl
@[simp] theorem apply_regsKeep_qps (k : Nat → Bool) : (Eff.apply (.regsKeep k) s).qps = s.qps := rfl
@[simp] theorem apply_regsKeep_clb (k : Nat → Bool) : (Eff.apply (.regsKeep k) s).clb = s.clb := rfl
@[simp] theorem apply_regsKeep_crown (k : Nat → Bool) : (Eff.apply (.regsKeep k) s).crown = s.crown := rfl

/-! ### .privKeep k -/

@[simp] theorem apply_privKeep_pending (k : Nat → Bool) : (Eff.apply (.privKeep k) s).pending = s.pending := rfl
@[simp] theorem apply_privKeep_ts (k : Nat → Bool) : (Eff.apply (.privKeep k) s).ts = s.ts := rfl
@[simp] theorem apply_privKeep_nonce (k : Nat → Bool) : (Eff.apply (.privKeep k) s).nonce = s.nonce := rfl
@[simp] theorem apply_privKeep_regs (k : Nat → Bool) : (Eff.apply (.privKeep k) s).regs = s.regs := rfl
@[simp] theorem apply_privKeep_priv (k : Nat → Bool) : (Eff.apply (.privKeep k) s).priv = s.priv.filter fun c => k c.1 := rfl
@[simp] theorem apply_privKeep_shadow (k : Nat → Bool) : (Eff.apply (.privKeep k) s).shadow = s.shadow := rfl
@[simp] theorem apply_privKeep_hbm (k : Nat → Bool) : (Eff.apply (.privKeep k) s).hbm = s.hbm := rfl
@[simp] theorem apply_privKeep_bench (k : Nat → Bool) : (Eff.apply (.privKeep k) s).bench = s.bench := rfl
@[simp] theorem apply_privKeep_well (k : Nat → Bool) : (Eff.apply (.privKeep k) s).well = s.well := rfl
@[simp] theorem apply_privKeep_host (k : Nat → Bool) : (Eff.apply (.privKeep k) s).host = s.host := rfl
@[simp] theorem apply_privKeep_ecc (k : Nat → Bool) : (Eff.apply (.privKeep k) s).ecc = s.ecc := rfl
@[simp] theorem apply_privKeep_sram (k : Nat → Bool) : (Eff.apply (.privKeep k) s).sram = s.sram := rfl
@[simp] theorem apply_privKeep_esc (k : Nat → Bool) : (Eff.apply (.privKeep k) s).esc = s.esc := rfl
@[simp] theorem apply_privKeep_ops (k : Nat → Bool) : (Eff.apply (.privKeep k) s).ops = s.ops := rfl
@[simp] theorem apply_privKeep_recorded (k : Nat → Bool) : (Eff.apply (.privKeep k) s).recorded = s.recorded := rfl
@[simp] theorem apply_privKeep_marks (k : Nat → Bool) : (Eff.apply (.privKeep k) s).marks = s.marks := rfl
@[simp] theorem apply_privKeep_reqs (k : Nat → Bool) : (Eff.apply (.privKeep k) s).reqs = s.reqs := rfl
@[simp] theorem apply_privKeep_outs (k : Nat → Bool) : (Eff.apply (.privKeep k) s).outs = s.outs := rfl
@[simp] theorem apply_privKeep_hosts (k : Nat → Bool) : (Eff.apply (.privKeep k) s).hosts = s.hosts := rfl
@[simp] theorem apply_privKeep_tbl (k : Nat → Bool) : (Eff.apply (.privKeep k) s).tbl = s.tbl := rfl
@[simp] theorem apply_privKeep_sac (k : Nat → Bool) : (Eff.apply (.privKeep k) s).sac = s.sac := rfl
@[simp] theorem apply_privKeep_cells (k : Nat → Bool) : (Eff.apply (.privKeep k) s).cells = s.cells := rfl
@[simp] theorem apply_privKeep_stash (k : Nat → Bool) : (Eff.apply (.privKeep k) s).stash = s.stash := rfl
@[simp] theorem apply_privKeep_schDue (k : Nat → Bool) : (Eff.apply (.privKeep k) s).schDue = s.schDue := rfl
@[simp] theorem apply_privKeep_lpe (k : Nat → Bool) : (Eff.apply (.privKeep k) s).lpe = s.lpe := rfl
@[simp] theorem apply_privKeep_col (k : Nat → Bool) : (Eff.apply (.privKeep k) s).col = s.col := rfl
@[simp] theorem apply_privKeep_rte (k : Nat → Bool) : (Eff.apply (.privKeep k) s).rte = s.rte := rfl
@[simp] theorem apply_privKeep_links (k : Nat → Bool) : (Eff.apply (.privKeep k) s).links = s.links := rfl
@[simp] theorem apply_privKeep_peers (k : Nat → Bool) : (Eff.apply (.privKeep k) s).peers = s.peers := rfl
@[simp] theorem apply_privKeep_qps (k : Nat → Bool) : (Eff.apply (.privKeep k) s).qps = s.qps := rfl
@[simp] theorem apply_privKeep_clb (k : Nat → Bool) : (Eff.apply (.privKeep k) s).clb = s.clb := rfl
@[simp] theorem apply_privKeep_crown (k : Nat → Bool) : (Eff.apply (.privKeep k) s).crown = s.crown := rfl

/-! ### .mem .hbm o -/

@[simp] theorem apply_hbm_pending (o : MemOp) : (Eff.apply (.mem .hbm o) s).pending = s.pending := rfl
@[simp] theorem apply_hbm_ts (o : MemOp) : (Eff.apply (.mem .hbm o) s).ts = s.ts := rfl
@[simp] theorem apply_hbm_nonce (o : MemOp) : (Eff.apply (.mem .hbm o) s).nonce = s.nonce + 1 := rfl
@[simp] theorem apply_hbm_regs (o : MemOp) : (Eff.apply (.mem .hbm o) s).regs = s.regs := rfl
@[simp] theorem apply_hbm_priv (o : MemOp) : (Eff.apply (.mem .hbm o) s).priv = s.priv := rfl
@[simp] theorem apply_hbm_shadow (o : MemOp) : (Eff.apply (.mem .hbm o) s).shadow = s.shadow := rfl
@[simp] theorem apply_hbm_hbm (o : MemOp) : (Eff.apply (.mem .hbm o) s).hbm = o.run s.nonce s.hbm := rfl
@[simp] theorem apply_hbm_bench (o : MemOp) : (Eff.apply (.mem .hbm o) s).bench = s.bench := rfl
@[simp] theorem apply_hbm_well (o : MemOp) : (Eff.apply (.mem .hbm o) s).well = s.well := rfl
@[simp] theorem apply_hbm_host (o : MemOp) : (Eff.apply (.mem .hbm o) s).host = s.host := rfl
@[simp] theorem apply_hbm_ecc (o : MemOp) : (Eff.apply (.mem .hbm o) s).ecc = s.ecc := rfl
@[simp] theorem apply_hbm_sram (o : MemOp) : (Eff.apply (.mem .hbm o) s).sram = s.sram := rfl
@[simp] theorem apply_hbm_esc (o : MemOp) : (Eff.apply (.mem .hbm o) s).esc = s.esc := rfl
@[simp] theorem apply_hbm_ops (o : MemOp) : (Eff.apply (.mem .hbm o) s).ops = s.ops := rfl
@[simp] theorem apply_hbm_recorded (o : MemOp) : (Eff.apply (.mem .hbm o) s).recorded = s.recorded := rfl
@[simp] theorem apply_hbm_marks (o : MemOp) : (Eff.apply (.mem .hbm o) s).marks = s.marks := rfl
@[simp] theorem apply_hbm_reqs (o : MemOp) : (Eff.apply (.mem .hbm o) s).reqs = s.reqs := rfl
@[simp] theorem apply_hbm_outs (o : MemOp) : (Eff.apply (.mem .hbm o) s).outs = s.outs := rfl
@[simp] theorem apply_hbm_hosts (o : MemOp) : (Eff.apply (.mem .hbm o) s).hosts = s.hosts := rfl
@[simp] theorem apply_hbm_tbl (o : MemOp) : (Eff.apply (.mem .hbm o) s).tbl = s.tbl := rfl
@[simp] theorem apply_hbm_sac (o : MemOp) : (Eff.apply (.mem .hbm o) s).sac = s.sac := rfl
@[simp] theorem apply_hbm_cells (o : MemOp) : (Eff.apply (.mem .hbm o) s).cells = s.cells := rfl
@[simp] theorem apply_hbm_stash (o : MemOp) : (Eff.apply (.mem .hbm o) s).stash = s.stash := rfl
@[simp] theorem apply_hbm_schDue (o : MemOp) : (Eff.apply (.mem .hbm o) s).schDue = s.schDue := rfl
@[simp] theorem apply_hbm_lpe (o : MemOp) : (Eff.apply (.mem .hbm o) s).lpe = s.lpe := rfl
@[simp] theorem apply_hbm_col (o : MemOp) : (Eff.apply (.mem .hbm o) s).col = s.col := rfl
@[simp] theorem apply_hbm_rte (o : MemOp) : (Eff.apply (.mem .hbm o) s).rte = s.rte := rfl
@[simp] theorem apply_hbm_links (o : MemOp) : (Eff.apply (.mem .hbm o) s).links = s.links := rfl
@[simp] theorem apply_hbm_peers (o : MemOp) : (Eff.apply (.mem .hbm o) s).peers = s.peers := rfl
@[simp] theorem apply_hbm_qps (o : MemOp) : (Eff.apply (.mem .hbm o) s).qps = s.qps := rfl
@[simp] theorem apply_hbm_clb (o : MemOp) : (Eff.apply (.mem .hbm o) s).clb = s.clb := rfl
@[simp] theorem apply_hbm_crown (o : MemOp) : (Eff.apply (.mem .hbm o) s).crown = s.crown := rfl

/-! ### .mem .bench o -/

@[simp] theorem apply_bench_pending (o : MemOp) : (Eff.apply (.mem .bench o) s).pending = s.pending := rfl
@[simp] theorem apply_bench_ts (o : MemOp) : (Eff.apply (.mem .bench o) s).ts = s.ts := rfl
@[simp] theorem apply_bench_nonce (o : MemOp) : (Eff.apply (.mem .bench o) s).nonce = s.nonce + 1 := rfl
@[simp] theorem apply_bench_regs (o : MemOp) : (Eff.apply (.mem .bench o) s).regs = s.regs := rfl
@[simp] theorem apply_bench_priv (o : MemOp) : (Eff.apply (.mem .bench o) s).priv = s.priv := rfl
@[simp] theorem apply_bench_shadow (o : MemOp) : (Eff.apply (.mem .bench o) s).shadow = s.shadow := rfl
@[simp] theorem apply_bench_hbm (o : MemOp) : (Eff.apply (.mem .bench o) s).hbm = s.hbm := rfl
@[simp] theorem apply_bench_bench (o : MemOp) : (Eff.apply (.mem .bench o) s).bench = o.run s.nonce s.bench := rfl
@[simp] theorem apply_bench_well (o : MemOp) : (Eff.apply (.mem .bench o) s).well = s.well := rfl
@[simp] theorem apply_bench_host (o : MemOp) : (Eff.apply (.mem .bench o) s).host = s.host := rfl
@[simp] theorem apply_bench_ecc (o : MemOp) : (Eff.apply (.mem .bench o) s).ecc = s.ecc := rfl
@[simp] theorem apply_bench_sram (o : MemOp) : (Eff.apply (.mem .bench o) s).sram = s.sram := rfl
@[simp] theorem apply_bench_esc (o : MemOp) : (Eff.apply (.mem .bench o) s).esc = s.esc := rfl
@[simp] theorem apply_bench_ops (o : MemOp) : (Eff.apply (.mem .bench o) s).ops = s.ops := rfl
@[simp] theorem apply_bench_recorded (o : MemOp) : (Eff.apply (.mem .bench o) s).recorded = s.recorded := rfl
@[simp] theorem apply_bench_marks (o : MemOp) : (Eff.apply (.mem .bench o) s).marks = s.marks := rfl
@[simp] theorem apply_bench_reqs (o : MemOp) : (Eff.apply (.mem .bench o) s).reqs = s.reqs := rfl
@[simp] theorem apply_bench_outs (o : MemOp) : (Eff.apply (.mem .bench o) s).outs = s.outs := rfl
@[simp] theorem apply_bench_hosts (o : MemOp) : (Eff.apply (.mem .bench o) s).hosts = s.hosts := rfl
@[simp] theorem apply_bench_tbl (o : MemOp) : (Eff.apply (.mem .bench o) s).tbl = s.tbl := rfl
@[simp] theorem apply_bench_sac (o : MemOp) : (Eff.apply (.mem .bench o) s).sac = s.sac := rfl
@[simp] theorem apply_bench_cells (o : MemOp) : (Eff.apply (.mem .bench o) s).cells = s.cells := rfl
@[simp] theorem apply_bench_stash (o : MemOp) : (Eff.apply (.mem .bench o) s).stash = s.stash := rfl
@[simp] theorem apply_bench_schDue (o : MemOp) : (Eff.apply (.mem .bench o) s).schDue = s.schDue := rfl
@[simp] theorem apply_bench_lpe (o : MemOp) : (Eff.apply (.mem .bench o) s).lpe = s.lpe := rfl
@[simp] theorem apply_bench_col (o : MemOp) : (Eff.apply (.mem .bench o) s).col = s.col := rfl
@[simp] theorem apply_bench_rte (o : MemOp) : (Eff.apply (.mem .bench o) s).rte = s.rte := rfl
@[simp] theorem apply_bench_links (o : MemOp) : (Eff.apply (.mem .bench o) s).links = s.links := rfl
@[simp] theorem apply_bench_peers (o : MemOp) : (Eff.apply (.mem .bench o) s).peers = s.peers := rfl
@[simp] theorem apply_bench_qps (o : MemOp) : (Eff.apply (.mem .bench o) s).qps = s.qps := rfl
@[simp] theorem apply_bench_clb (o : MemOp) : (Eff.apply (.mem .bench o) s).clb = s.clb := rfl
@[simp] theorem apply_bench_crown (o : MemOp) : (Eff.apply (.mem .bench o) s).crown = s.crown := rfl

/-! ### .mem .well o -/

@[simp] theorem apply_well_pending (o : MemOp) : (Eff.apply (.mem .well o) s).pending = s.pending := rfl
@[simp] theorem apply_well_ts (o : MemOp) : (Eff.apply (.mem .well o) s).ts = s.ts := rfl
@[simp] theorem apply_well_nonce (o : MemOp) : (Eff.apply (.mem .well o) s).nonce = s.nonce + 1 := rfl
@[simp] theorem apply_well_regs (o : MemOp) : (Eff.apply (.mem .well o) s).regs = s.regs := rfl
@[simp] theorem apply_well_priv (o : MemOp) : (Eff.apply (.mem .well o) s).priv = s.priv := rfl
@[simp] theorem apply_well_shadow (o : MemOp) : (Eff.apply (.mem .well o) s).shadow = s.shadow := rfl
@[simp] theorem apply_well_hbm (o : MemOp) : (Eff.apply (.mem .well o) s).hbm = s.hbm := rfl
@[simp] theorem apply_well_bench (o : MemOp) : (Eff.apply (.mem .well o) s).bench = s.bench := rfl
@[simp] theorem apply_well_well (o : MemOp) : (Eff.apply (.mem .well o) s).well = o.run s.nonce s.well := rfl
@[simp] theorem apply_well_host (o : MemOp) : (Eff.apply (.mem .well o) s).host = s.host := rfl
@[simp] theorem apply_well_ecc (o : MemOp) : (Eff.apply (.mem .well o) s).ecc = s.ecc := rfl
@[simp] theorem apply_well_sram (o : MemOp) : (Eff.apply (.mem .well o) s).sram = s.sram := rfl
@[simp] theorem apply_well_esc (o : MemOp) : (Eff.apply (.mem .well o) s).esc = s.esc := rfl
@[simp] theorem apply_well_ops (o : MemOp) : (Eff.apply (.mem .well o) s).ops = s.ops := rfl
@[simp] theorem apply_well_recorded (o : MemOp) : (Eff.apply (.mem .well o) s).recorded = s.recorded := rfl
@[simp] theorem apply_well_marks (o : MemOp) : (Eff.apply (.mem .well o) s).marks = s.marks := rfl
@[simp] theorem apply_well_reqs (o : MemOp) : (Eff.apply (.mem .well o) s).reqs = s.reqs := rfl
@[simp] theorem apply_well_outs (o : MemOp) : (Eff.apply (.mem .well o) s).outs = s.outs := rfl
@[simp] theorem apply_well_hosts (o : MemOp) : (Eff.apply (.mem .well o) s).hosts = s.hosts := rfl
@[simp] theorem apply_well_tbl (o : MemOp) : (Eff.apply (.mem .well o) s).tbl = s.tbl := rfl
@[simp] theorem apply_well_sac (o : MemOp) : (Eff.apply (.mem .well o) s).sac = s.sac := rfl
@[simp] theorem apply_well_cells (o : MemOp) : (Eff.apply (.mem .well o) s).cells = s.cells := rfl
@[simp] theorem apply_well_stash (o : MemOp) : (Eff.apply (.mem .well o) s).stash = s.stash := rfl
@[simp] theorem apply_well_schDue (o : MemOp) : (Eff.apply (.mem .well o) s).schDue = s.schDue := rfl
@[simp] theorem apply_well_lpe (o : MemOp) : (Eff.apply (.mem .well o) s).lpe = s.lpe := rfl
@[simp] theorem apply_well_col (o : MemOp) : (Eff.apply (.mem .well o) s).col = s.col := rfl
@[simp] theorem apply_well_rte (o : MemOp) : (Eff.apply (.mem .well o) s).rte = s.rte := rfl
@[simp] theorem apply_well_links (o : MemOp) : (Eff.apply (.mem .well o) s).links = s.links := rfl
@[simp] theorem apply_well_peers (o : MemOp) : (Eff.apply (.mem .well o) s).peers = s.peers := rfl
@[simp] theorem apply_well_qps (o : MemOp) : (Eff.apply (.mem .well o) s).qps = s.qps := rfl
@[simp] theorem apply_well_clb (o : MemOp) : (Eff.apply (.mem .well o) s).clb = s.clb := rfl
@[simp] theorem apply_well_crown (o : MemOp) : (Eff.apply (.mem .well o) s).crown = s.crown := rfl

/-! ### .mem .host o -/

@[simp] theorem apply_host_pending (o : MemOp) : (Eff.apply (.mem .host o) s).pending = s.pending := rfl
@[simp] theorem apply_host_ts (o : MemOp) : (Eff.apply (.mem .host o) s).ts = s.ts := rfl
@[simp] theorem apply_host_nonce (o : MemOp) : (Eff.apply (.mem .host o) s).nonce = s.nonce + 1 := rfl
@[simp] theorem apply_host_regs (o : MemOp) : (Eff.apply (.mem .host o) s).regs = s.regs := rfl
@[simp] theorem apply_host_priv (o : MemOp) : (Eff.apply (.mem .host o) s).priv = s.priv := rfl
@[simp] theorem apply_host_shadow (o : MemOp) : (Eff.apply (.mem .host o) s).shadow = s.shadow := rfl
@[simp] theorem apply_host_hbm (o : MemOp) : (Eff.apply (.mem .host o) s).hbm = s.hbm := rfl
@[simp] theorem apply_host_bench (o : MemOp) : (Eff.apply (.mem .host o) s).bench = s.bench := rfl
@[simp] theorem apply_host_well (o : MemOp) : (Eff.apply (.mem .host o) s).well = s.well := rfl
@[simp] theorem apply_host_host (o : MemOp) : (Eff.apply (.mem .host o) s).host = o.run s.nonce s.host := rfl
@[simp] theorem apply_host_ecc (o : MemOp) : (Eff.apply (.mem .host o) s).ecc = s.ecc := rfl
@[simp] theorem apply_host_sram (o : MemOp) : (Eff.apply (.mem .host o) s).sram = s.sram := rfl
@[simp] theorem apply_host_esc (o : MemOp) : (Eff.apply (.mem .host o) s).esc = s.esc := rfl
@[simp] theorem apply_host_ops (o : MemOp) : (Eff.apply (.mem .host o) s).ops = s.ops := rfl
@[simp] theorem apply_host_recorded (o : MemOp) : (Eff.apply (.mem .host o) s).recorded = s.recorded := rfl
@[simp] theorem apply_host_marks (o : MemOp) : (Eff.apply (.mem .host o) s).marks = s.marks := rfl
@[simp] theorem apply_host_reqs (o : MemOp) : (Eff.apply (.mem .host o) s).reqs = s.reqs := rfl
@[simp] theorem apply_host_outs (o : MemOp) : (Eff.apply (.mem .host o) s).outs = s.outs := rfl
@[simp] theorem apply_host_hosts (o : MemOp) : (Eff.apply (.mem .host o) s).hosts = s.hosts := rfl
@[simp] theorem apply_host_tbl (o : MemOp) : (Eff.apply (.mem .host o) s).tbl = s.tbl := rfl
@[simp] theorem apply_host_sac (o : MemOp) : (Eff.apply (.mem .host o) s).sac = s.sac := rfl
@[simp] theorem apply_host_cells (o : MemOp) : (Eff.apply (.mem .host o) s).cells = s.cells := rfl
@[simp] theorem apply_host_stash (o : MemOp) : (Eff.apply (.mem .host o) s).stash = s.stash := rfl
@[simp] theorem apply_host_schDue (o : MemOp) : (Eff.apply (.mem .host o) s).schDue = s.schDue := rfl
@[simp] theorem apply_host_lpe (o : MemOp) : (Eff.apply (.mem .host o) s).lpe = s.lpe := rfl
@[simp] theorem apply_host_col (o : MemOp) : (Eff.apply (.mem .host o) s).col = s.col := rfl
@[simp] theorem apply_host_rte (o : MemOp) : (Eff.apply (.mem .host o) s).rte = s.rte := rfl
@[simp] theorem apply_host_links (o : MemOp) : (Eff.apply (.mem .host o) s).links = s.links := rfl
@[simp] theorem apply_host_peers (o : MemOp) : (Eff.apply (.mem .host o) s).peers = s.peers := rfl
@[simp] theorem apply_host_qps (o : MemOp) : (Eff.apply (.mem .host o) s).qps = s.qps := rfl
@[simp] theorem apply_host_clb (o : MemOp) : (Eff.apply (.mem .host o) s).clb = s.clb := rfl
@[simp] theorem apply_host_crown (o : MemOp) : (Eff.apply (.mem .host o) s).crown = s.crown := rfl

/-! ### .mem .vreg o -/

@[simp] theorem apply_vreg_pending (o : MemOp) : (Eff.apply (.mem .vreg o) s).pending = s.pending := rfl
@[simp] theorem apply_vreg_ts (o : MemOp) : (Eff.apply (.mem .vreg o) s).ts = s.ts := rfl
@[simp] theorem apply_vreg_nonce (o : MemOp) : (Eff.apply (.mem .vreg o) s).nonce = s.nonce + 1 := rfl
@[simp] theorem apply_vreg_regs (o : MemOp) : (Eff.apply (.mem .vreg o) s).regs = s.regs := rfl
@[simp] theorem apply_vreg_priv (o : MemOp) : (Eff.apply (.mem .vreg o) s).priv = s.priv := rfl
@[simp] theorem apply_vreg_shadow (o : MemOp) : (Eff.apply (.mem .vreg o) s).shadow = s.shadow := rfl
@[simp] theorem apply_vreg_hbm (o : MemOp) : (Eff.apply (.mem .vreg o) s).hbm = s.hbm := rfl
@[simp] theorem apply_vreg_bench (o : MemOp) : (Eff.apply (.mem .vreg o) s).bench = s.bench := rfl
@[simp] theorem apply_vreg_well (o : MemOp) : (Eff.apply (.mem .vreg o) s).well = s.well := rfl
@[simp] theorem apply_vreg_host (o : MemOp) : (Eff.apply (.mem .vreg o) s).host = s.host := rfl
@[simp] theorem apply_vreg_ecc (o : MemOp) : (Eff.apply (.mem .vreg o) s).ecc = s.ecc := rfl
@[simp] theorem apply_vreg_sram (o : MemOp) : (Eff.apply (.mem .vreg o) s).sram = s.sram := rfl
@[simp] theorem apply_vreg_esc (o : MemOp) : (Eff.apply (.mem .vreg o) s).esc = s.esc := rfl
@[simp] theorem apply_vreg_ops (o : MemOp) : (Eff.apply (.mem .vreg o) s).ops = s.ops := rfl
@[simp] theorem apply_vreg_recorded (o : MemOp) : (Eff.apply (.mem .vreg o) s).recorded = s.recorded := rfl
@[simp] theorem apply_vreg_marks (o : MemOp) : (Eff.apply (.mem .vreg o) s).marks = s.marks := rfl
@[simp] theorem apply_vreg_reqs (o : MemOp) : (Eff.apply (.mem .vreg o) s).reqs = s.reqs := rfl
@[simp] theorem apply_vreg_outs (o : MemOp) : (Eff.apply (.mem .vreg o) s).outs = s.outs := rfl
@[simp] theorem apply_vreg_hosts (o : MemOp) : (Eff.apply (.mem .vreg o) s).hosts = s.hosts := rfl
@[simp] theorem apply_vreg_tbl (o : MemOp) : (Eff.apply (.mem .vreg o) s).tbl = s.tbl := rfl
@[simp] theorem apply_vreg_sac (o : MemOp) : (Eff.apply (.mem .vreg o) s).sac = s.sac := rfl
@[simp] theorem apply_vreg_cells (o : MemOp) : (Eff.apply (.mem .vreg o) s).cells = { s.cells with vreg := o.run s.nonce s.cells.vreg } := rfl
@[simp] theorem apply_vreg_stash (o : MemOp) : (Eff.apply (.mem .vreg o) s).stash = s.stash := rfl
@[simp] theorem apply_vreg_schDue (o : MemOp) : (Eff.apply (.mem .vreg o) s).schDue = s.schDue := rfl
@[simp] theorem apply_vreg_lpe (o : MemOp) : (Eff.apply (.mem .vreg o) s).lpe = s.lpe := rfl
@[simp] theorem apply_vreg_col (o : MemOp) : (Eff.apply (.mem .vreg o) s).col = s.col := rfl
@[simp] theorem apply_vreg_rte (o : MemOp) : (Eff.apply (.mem .vreg o) s).rte = s.rte := rfl
@[simp] theorem apply_vreg_links (o : MemOp) : (Eff.apply (.mem .vreg o) s).links = s.links := rfl
@[simp] theorem apply_vreg_peers (o : MemOp) : (Eff.apply (.mem .vreg o) s).peers = s.peers := rfl
@[simp] theorem apply_vreg_qps (o : MemOp) : (Eff.apply (.mem .vreg o) s).qps = s.qps := rfl
@[simp] theorem apply_vreg_clb (o : MemOp) : (Eff.apply (.mem .vreg o) s).clb = s.clb := rfl
@[simp] theorem apply_vreg_crown (o : MemOp) : (Eff.apply (.mem .vreg o) s).crown = s.crown := rfl

/-! ### .ecc x -/

@[simp] theorem apply_ecc_pending (x : Ecc) : (Eff.apply (.ecc x) s).pending = s.pending := rfl
@[simp] theorem apply_ecc_ts (x : Ecc) : (Eff.apply (.ecc x) s).ts = s.ts := rfl
@[simp] theorem apply_ecc_nonce (x : Ecc) : (Eff.apply (.ecc x) s).nonce = s.nonce := rfl
@[simp] theorem apply_ecc_regs (x : Ecc) : (Eff.apply (.ecc x) s).regs = s.regs := rfl
@[simp] theorem apply_ecc_priv (x : Ecc) : (Eff.apply (.ecc x) s).priv = s.priv := rfl
@[simp] theorem apply_ecc_shadow (x : Ecc) : (Eff.apply (.ecc x) s).shadow = s.shadow := rfl
@[simp] theorem apply_ecc_hbm (x : Ecc) : (Eff.apply (.ecc x) s).hbm = s.hbm := rfl
@[simp] theorem apply_ecc_bench (x : Ecc) : (Eff.apply (.ecc x) s).bench = s.bench := rfl
@[simp] theorem apply_ecc_well (x : Ecc) : (Eff.apply (.ecc x) s).well = s.well := rfl
@[simp] theorem apply_ecc_host (x : Ecc) : (Eff.apply (.ecc x) s).host = s.host := rfl
@[simp] theorem apply_ecc_ecc (x : Ecc) : (Eff.apply (.ecc x) s).ecc = x := rfl
@[simp] theorem apply_ecc_sram (x : Ecc) : (Eff.apply (.ecc x) s).sram = s.sram := rfl
@[simp] theorem apply_ecc_esc (x : Ecc) : (Eff.apply (.ecc x) s).esc = s.esc := rfl
@[simp] theorem apply_ecc_ops (x : Ecc) : (Eff.apply (.ecc x) s).ops = s.ops := rfl
@[simp] theorem apply_ecc_recorded (x : Ecc) : (Eff.apply (.ecc x) s).recorded = s.recorded := rfl
@[simp] theorem apply_ecc_marks (x : Ecc) : (Eff.apply (.ecc x) s).marks = s.marks := rfl
@[simp] theorem apply_ecc_reqs (x : Ecc) : (Eff.apply (.ecc x) s).reqs = s.reqs := rfl
@[simp] theorem apply_ecc_outs (x : Ecc) : (Eff.apply (.ecc x) s).outs = s.outs := rfl
@[simp] theorem apply_ecc_hosts (x : Ecc) : (Eff.apply (.ecc x) s).hosts = s.hosts := rfl
@[simp] theorem apply_ecc_tbl (x : Ecc) : (Eff.apply (.ecc x) s).tbl = s.tbl := rfl
@[simp] theorem apply_ecc_sac (x : Ecc) : (Eff.apply (.ecc x) s).sac = s.sac := rfl
@[simp] theorem apply_ecc_cells (x : Ecc) : (Eff.apply (.ecc x) s).cells = s.cells := rfl
@[simp] theorem apply_ecc_stash (x : Ecc) : (Eff.apply (.ecc x) s).stash = s.stash := rfl
@[simp] theorem apply_ecc_schDue (x : Ecc) : (Eff.apply (.ecc x) s).schDue = s.schDue := rfl
@[simp] theorem apply_ecc_lpe (x : Ecc) : (Eff.apply (.ecc x) s).lpe = s.lpe := rfl
@[simp] theorem apply_ecc_col (x : Ecc) : (Eff.apply (.ecc x) s).col = s.col := rfl
@[simp] theorem apply_ecc_rte (x : Ecc) : (Eff.apply (.ecc x) s).rte = s.rte := rfl
@[simp] theorem apply_ecc_links (x : Ecc) : (Eff.apply (.ecc x) s).links = s.links := rfl
@[simp] theorem apply_ecc_peers (x : Ecc) : (Eff.apply (.ecc x) s).peers = s.peers := rfl
@[simp] theorem apply_ecc_qps (x : Ecc) : (Eff.apply (.ecc x) s).qps = s.qps := rfl
@[simp] theorem apply_ecc_clb (x : Ecc) : (Eff.apply (.ecc x) s).clb = s.clb := rfl
@[simp] theorem apply_ecc_crown (x : Ecc) : (Eff.apply (.ecc x) s).crown = s.crown := rfl

/-! ### .sram l -/

@[simp] theorem apply_sram_pending (l : List SramErr) : (Eff.apply (.sram l) s).pending = s.pending := rfl
@[simp] theorem apply_sram_ts (l : List SramErr) : (Eff.apply (.sram l) s).ts = s.ts := rfl
@[simp] theorem apply_sram_nonce (l : List SramErr) : (Eff.apply (.sram l) s).nonce = s.nonce := rfl
@[simp] theorem apply_sram_regs (l : List SramErr) : (Eff.apply (.sram l) s).regs = s.regs := rfl
@[simp] theorem apply_sram_priv (l : List SramErr) : (Eff.apply (.sram l) s).priv = s.priv := rfl
@[simp] theorem apply_sram_shadow (l : List SramErr) : (Eff.apply (.sram l) s).shadow = s.shadow := rfl
@[simp] theorem apply_sram_hbm (l : List SramErr) : (Eff.apply (.sram l) s).hbm = s.hbm := rfl
@[simp] theorem apply_sram_bench (l : List SramErr) : (Eff.apply (.sram l) s).bench = s.bench := rfl
@[simp] theorem apply_sram_well (l : List SramErr) : (Eff.apply (.sram l) s).well = s.well := rfl
@[simp] theorem apply_sram_host (l : List SramErr) : (Eff.apply (.sram l) s).host = s.host := rfl
@[simp] theorem apply_sram_ecc (l : List SramErr) : (Eff.apply (.sram l) s).ecc = s.ecc := rfl
@[simp] theorem apply_sram_sram (l : List SramErr) : (Eff.apply (.sram l) s).sram = l := rfl
@[simp] theorem apply_sram_esc (l : List SramErr) : (Eff.apply (.sram l) s).esc = s.esc := rfl
@[simp] theorem apply_sram_ops (l : List SramErr) : (Eff.apply (.sram l) s).ops = s.ops := rfl
@[simp] theorem apply_sram_recorded (l : List SramErr) : (Eff.apply (.sram l) s).recorded = s.recorded := rfl
@[simp] theorem apply_sram_marks (l : List SramErr) : (Eff.apply (.sram l) s).marks = s.marks := rfl
@[simp] theorem apply_sram_reqs (l : List SramErr) : (Eff.apply (.sram l) s).reqs = s.reqs := rfl
@[simp] theorem apply_sram_outs (l : List SramErr) : (Eff.apply (.sram l) s).outs = s.outs := rfl
@[simp] theorem apply_sram_hosts (l : List SramErr) : (Eff.apply (.sram l) s).hosts = s.hosts := rfl
@[simp] theorem apply_sram_tbl (l : List SramErr) : (Eff.apply (.sram l) s).tbl = s.tbl := rfl
@[simp] theorem apply_sram_sac (l : List SramErr) : (Eff.apply (.sram l) s).sac = s.sac := rfl
@[simp] theorem apply_sram_cells (l : List SramErr) : (Eff.apply (.sram l) s).cells = s.cells := rfl
@[simp] theorem apply_sram_stash (l : List SramErr) : (Eff.apply (.sram l) s).stash = s.stash := rfl
@[simp] theorem apply_sram_schDue (l : List SramErr) : (Eff.apply (.sram l) s).schDue = s.schDue := rfl
@[simp] theorem apply_sram_lpe (l : List SramErr) : (Eff.apply (.sram l) s).lpe = s.lpe := rfl
@[simp] theorem apply_sram_col (l : List SramErr) : (Eff.apply (.sram l) s).col = s.col := rfl
@[simp] theorem apply_sram_rte (l : List SramErr) : (Eff.apply (.sram l) s).rte = s.rte := rfl
@[simp] theorem apply_sram_links (l : List SramErr) : (Eff.apply (.sram l) s).links = s.links := rfl
@[simp] theorem apply_sram_peers (l : List SramErr) : (Eff.apply (.sram l) s).peers = s.peers := rfl
@[simp] theorem apply_sram_qps (l : List SramErr) : (Eff.apply (.sram l) s).qps = s.qps := rfl
@[simp] theorem apply_sram_clb (l : List SramErr) : (Eff.apply (.sram l) s).clb = s.clb := rfl
@[simp] theorem apply_sram_crown (l : List SramErr) : (Eff.apply (.sram l) s).crown = s.crown := rfl

/-! ### .esc i o -/

@[simp] theorem apply_esc_pending (i : Nat) (o : EscEff) : (Eff.apply (.esc i o) s).pending = s.pending := rfl
@[simp] theorem apply_esc_ts (i : Nat) (o : EscEff) : (Eff.apply (.esc i o) s).ts = s.ts := rfl
@[simp] theorem apply_esc_nonce (i : Nat) (o : EscEff) : (Eff.apply (.esc i o) s).nonce = s.nonce := rfl
@[simp] theorem apply_esc_regs (i : Nat) (o : EscEff) : (Eff.apply (.esc i o) s).regs = s.regs := rfl
@[simp] theorem apply_esc_priv (i : Nat) (o : EscEff) : (Eff.apply (.esc i o) s).priv = s.priv := rfl
@[simp] theorem apply_esc_shadow (i : Nat) (o : EscEff) : (Eff.apply (.esc i o) s).shadow = s.shadow := rfl
@[simp] theorem apply_esc_hbm (i : Nat) (o : EscEff) : (Eff.apply (.esc i o) s).hbm = s.hbm := rfl
@[simp] theorem apply_esc_bench (i : Nat) (o : EscEff) : (Eff.apply (.esc i o) s).bench = s.bench := rfl
@[simp] theorem apply_esc_well (i : Nat) (o : EscEff) : (Eff.apply (.esc i o) s).well = s.well := rfl
@[simp] theorem apply_esc_host (i : Nat) (o : EscEff) : (Eff.apply (.esc i o) s).host = s.host := rfl
@[simp] theorem apply_esc_ecc (i : Nat) (o : EscEff) : (Eff.apply (.esc i o) s).ecc = s.ecc := rfl
@[simp] theorem apply_esc_sram (i : Nat) (o : EscEff) : (Eff.apply (.esc i o) s).sram = s.sram := rfl
@[simp] theorem apply_esc_esc (i : Nat) (o : EscEff) : (Eff.apply (.esc i o) s).esc = mapSet s.esc i (o.run (escAt s i)) := rfl
@[simp] theorem apply_esc_ops (i : Nat) (o : EscEff) : (Eff.apply (.esc i o) s).ops = s.ops := rfl
@[simp] theorem apply_esc_recorded (i : Nat) (o : EscEff) : (Eff.apply (.esc i o) s).recorded = s.recorded := rfl
@[simp] theorem apply_esc_marks (i : Nat) (o : EscEff) : (Eff.apply (.esc i o) s).marks = s.marks := rfl
@[simp] theorem apply_esc_reqs (i : Nat) (o : EscEff) : (Eff.apply (.esc i o) s).reqs = s.reqs := rfl
@[simp] theorem apply_esc_outs (i : Nat) (o : EscEff) : (Eff.apply (.esc i o) s).outs = s.outs := rfl
@[simp] theorem apply_esc_hosts (i : Nat) (o : EscEff) : (Eff.apply (.esc i o) s).hosts = s.hosts := rfl
@[simp] theorem apply_esc_tbl (i : Nat) (o : EscEff) : (Eff.apply (.esc i o) s).tbl = s.tbl := rfl
@[simp] theorem apply_esc_sac (i : Nat) (o : EscEff) : (Eff.apply (.esc i o) s).sac = s.sac := rfl
@[simp] theorem apply_esc_cells (i : Nat) (o : EscEff) : (Eff.apply (.esc i o) s).cells = s.cells := rfl
@[simp] theorem apply_esc_stash (i : Nat) (o : EscEff) : (Eff.apply (.esc i o) s).stash = s.stash := rfl
@[simp] theorem apply_esc_schDue (i : Nat) (o : EscEff) : (Eff.apply (.esc i o) s).schDue = s.schDue := rfl
@[simp] theorem apply_esc_lpe (i : Nat) (o : EscEff) : (Eff.apply (.esc i o) s).lpe = s.lpe := rfl
@[simp] theorem apply_esc_col (i : Nat) (o : EscEff) : (Eff.apply (.esc i o) s).col = s.col := rfl
@[simp] theorem apply_esc_rte (i : Nat) (o : EscEff) : (Eff.apply (.esc i o) s).rte = s.rte := rfl
@[simp] theorem apply_esc_links (i : Nat) (o : EscEff) : (Eff.apply (.esc i o) s).links = s.links := rfl
@[simp] theorem apply_esc_peers (i : Nat) (o : EscEff) : (Eff.apply (.esc i o) s).peers = s.peers := rfl
@[simp] theorem apply_esc_qps (i : Nat) (o : EscEff) : (Eff.apply (.esc i o) s).qps = s.qps := rfl
@[simp] theorem apply_esc_clb (i : Nat) (o : EscEff) : (Eff.apply (.esc i o) s).clb = s.clb := rfl
@[simp] theorem apply_esc_crown (i : Nat) (o : EscEff) : (Eff.apply (.esc i o) s).crown = s.crown := rfl

/-! ### .escClear -/

@[simp] theorem apply_escClear_pending : (Eff.apply (.escClear) s).pending = s.pending := rfl
@[simp] theorem apply_escClear_ts : (Eff.apply (.escClear) s).ts = s.ts := rfl
@[simp] theorem apply_escClear_nonce : (Eff.apply (.escClear) s).nonce = s.nonce := rfl
@[simp] theorem apply_escClear_regs : (Eff.apply (.escClear) s).regs = s.regs := rfl
@[simp] theorem apply_escClear_priv : (Eff.apply (.escClear) s).priv = s.priv := rfl
@[simp] theorem apply_escClear_shadow : (Eff.apply (.escClear) s).shadow = s.shadow := rfl
@[simp] theorem apply_escClear_hbm : (Eff.apply (.escClear) s).hbm = s.hbm := rfl
@[simp] theorem apply_escClear_bench : (Eff.apply (.escClear) s).bench = s.bench := rfl
@[simp] theorem apply_escClear_well : (Eff.apply (.escClear) s).well = s.well := rfl
@[simp] theorem apply_escClear_host : (Eff.apply (.escClear) s).host = s.host := rfl
@[simp] theorem apply_escClear_ecc : (Eff.apply (.escClear) s).ecc = s.ecc := rfl
@[simp] theorem apply_escClear_sram : (Eff.apply (.escClear) s).sram = s.sram := rfl
@[simp] theorem apply_escClear_esc : (Eff.apply (.escClear) s).esc = [] := rfl
@[simp] theorem apply_escClear_ops : (Eff.apply (.escClear) s).ops = s.ops := rfl
@[simp] theorem apply_escClear_recorded : (Eff.apply (.escClear) s).recorded = s.recorded := rfl
@[simp] theorem apply_escClear_marks : (Eff.apply (.escClear) s).marks = s.marks := rfl
@[simp] theorem apply_escClear_reqs : (Eff.apply (.escClear) s).reqs = s.reqs := rfl
@[simp] theorem apply_escClear_outs : (Eff.apply (.escClear) s).outs = s.outs := rfl
@[simp] theorem apply_escClear_hosts : (Eff.apply (.escClear) s).hosts = s.hosts := rfl
@[simp] theorem apply_escClear_tbl : (Eff.apply (.escClear) s).tbl = s.tbl := rfl
@[simp] theorem apply_escClear_sac : (Eff.apply (.escClear) s).sac = s.sac := rfl
@[simp] theorem apply_escClear_cells : (Eff.apply (.escClear) s).cells = s.cells := rfl
@[simp] theorem apply_escClear_stash : (Eff.apply (.escClear) s).stash = s.stash := rfl
@[simp] theorem apply_escClear_schDue : (Eff.apply (.escClear) s).schDue = s.schDue := rfl
@[simp] theorem apply_escClear_lpe : (Eff.apply (.escClear) s).lpe = s.lpe := rfl
@[simp] theorem apply_escClear_col : (Eff.apply (.escClear) s).col = s.col := rfl
@[simp] theorem apply_escClear_rte : (Eff.apply (.escClear) s).rte = s.rte := rfl
@[simp] theorem apply_escClear_links : (Eff.apply (.escClear) s).links = s.links := rfl
@[simp] theorem apply_escClear_peers : (Eff.apply (.escClear) s).peers = s.peers := rfl
@[simp] theorem apply_escClear_qps : (Eff.apply (.escClear) s).qps = s.qps := rfl
@[simp] theorem apply_escClear_clb : (Eff.apply (.escClear) s).clb = s.clb := rfl
@[simp] theorem apply_escClear_crown : (Eff.apply (.escClear) s).crown = s.crown := rfl

/-! ### .ops l -/

@[simp] theorem apply_ops_pending (l : List Op) : (Eff.apply (.ops l) s).pending = s.pending := rfl
@[simp] theorem apply_ops_ts (l : List Op) : (Eff.apply (.ops l) s).ts = s.ts := rfl
@[simp] theorem apply_ops_nonce (l : List Op) : (Eff.apply (.ops l) s).nonce = s.nonce := rfl
@[simp] theorem apply_ops_regs (l : List Op) : (Eff.apply (.ops l) s).regs = s.regs := rfl
@[simp] theorem apply_ops_priv (l : List Op) : (Eff.apply (.ops l) s).priv = s.priv := rfl
@[simp] theorem apply_ops_shadow (l : List Op) : (Eff.apply (.ops l) s).shadow = s.shadow := rfl
@[simp] theorem apply_ops_hbm (l : List Op) : (Eff.apply (.ops l) s).hbm = s.hbm := rfl
@[simp] theorem apply_ops_bench (l : List Op) : (Eff.apply (.ops l) s).bench = s.bench := rfl
@[simp] theorem apply_ops_well (l : List Op) : (Eff.apply (.ops l) s).well = s.well := rfl
@[simp] theorem apply_ops_host (l : List Op) : (Eff.apply (.ops l) s).host = s.host := rfl
@[simp] theorem apply_ops_ecc (l : List Op) : (Eff.apply (.ops l) s).ecc = s.ecc := rfl
@[simp] theorem apply_ops_sram (l : List Op) : (Eff.apply (.ops l) s).sram = s.sram := rfl
@[simp] theorem apply_ops_esc (l : List Op) : (Eff.apply (.ops l) s).esc = s.esc := rfl
@[simp] theorem apply_ops_ops (l : List Op) : (Eff.apply (.ops l) s).ops = l := rfl
@[simp] theorem apply_ops_recorded (l : List Op) : (Eff.apply (.ops l) s).recorded = s.recorded := rfl
@[simp] theorem apply_ops_marks (l : List Op) : (Eff.apply (.ops l) s).marks = s.marks := rfl
@[simp] theorem apply_ops_reqs (l : List Op) : (Eff.apply (.ops l) s).reqs = s.reqs := rfl
@[simp] theorem apply_ops_outs (l : List Op) : (Eff.apply (.ops l) s).outs = s.outs := rfl
@[simp] theorem apply_ops_hosts (l : List Op) : (Eff.apply (.ops l) s).hosts = s.hosts := rfl
@[simp] theorem apply_ops_tbl (l : List Op) : (Eff.apply (.ops l) s).tbl = s.tbl := rfl
@[simp] theorem apply_ops_sac (l : List Op) : (Eff.apply (.ops l) s).sac = s.sac := rfl
@[simp] theorem apply_ops_cells (l : List Op) : (Eff.apply (.ops l) s).cells = s.cells := rfl
@[simp] theorem apply_ops_stash (l : List Op) : (Eff.apply (.ops l) s).stash = s.stash := rfl
@[simp] theorem apply_ops_schDue (l : List Op) : (Eff.apply (.ops l) s).schDue = s.schDue := rfl
@[simp] theorem apply_ops_lpe (l : List Op) : (Eff.apply (.ops l) s).lpe = s.lpe := rfl
@[simp] theorem apply_ops_col (l : List Op) : (Eff.apply (.ops l) s).col = s.col := rfl
@[simp] theorem apply_ops_rte (l : List Op) : (Eff.apply (.ops l) s).rte = s.rte := rfl
@[simp] theorem apply_ops_links (l : List Op) : (Eff.apply (.ops l) s).links = s.links := rfl
@[simp] theorem apply_ops_peers (l : List Op) : (Eff.apply (.ops l) s).peers = s.peers := rfl
@[simp] theorem apply_ops_qps (l : List Op) : (Eff.apply (.ops l) s).qps = s.qps := rfl
@[simp] theorem apply_ops_clb (l : List Op) : (Eff.apply (.ops l) s).clb = s.clb := rfl
@[simp] theorem apply_ops_crown (l : List Op) : (Eff.apply (.ops l) s).crown = s.crown := rfl

/-! ### .recorded l -/

@[simp] theorem apply_recorded_pending (l : List OpRef) : (Eff.apply (.recorded l) s).pending = s.pending := rfl
@[simp] theorem apply_recorded_ts (l : List OpRef) : (Eff.apply (.recorded l) s).ts = s.ts := rfl
@[simp] theorem apply_recorded_nonce (l : List OpRef) : (Eff.apply (.recorded l) s).nonce = s.nonce := rfl
@[simp] theorem apply_recorded_regs (l : List OpRef) : (Eff.apply (.recorded l) s).regs = s.regs := rfl
@[simp] theorem apply_recorded_priv (l : List OpRef) : (Eff.apply (.recorded l) s).priv = s.priv := rfl
@[simp] theorem apply_recorded_shadow (l : List OpRef) : (Eff.apply (.recorded l) s).shadow = s.shadow := rfl
@[simp] theorem apply_recorded_hbm (l : List OpRef) : (Eff.apply (.recorded l) s).hbm = s.hbm := rfl
@[simp] theorem apply_recorded_bench (l : List OpRef) : (Eff.apply (.recorded l) s).bench = s.bench := rfl
@[simp] theorem apply_recorded_well (l : List OpRef) : (Eff.apply (.recorded l) s).well = s.well := rfl
@[simp] theorem apply_recorded_host (l : List OpRef) : (Eff.apply (.recorded l) s).host = s.host := rfl
@[simp] theorem apply_recorded_ecc (l : List OpRef) : (Eff.apply (.recorded l) s).ecc = s.ecc := rfl
@[simp] theorem apply_recorded_sram (l : List OpRef) : (Eff.apply (.recorded l) s).sram = s.sram := rfl
@[simp] theorem apply_recorded_esc (l : List OpRef) : (Eff.apply (.recorded l) s).esc = s.esc := rfl
@[simp] theorem apply_recorded_ops (l : List OpRef) : (Eff.apply (.recorded l) s).ops = s.ops := rfl
@[simp] theorem apply_recorded_recorded (l : List OpRef) : (Eff.apply (.recorded l) s).recorded = l := rfl
@[simp] theorem apply_recorded_marks (l : List OpRef) : (Eff.apply (.recorded l) s).marks = s.marks := rfl
@[simp] theorem apply_recorded_reqs (l : List OpRef) : (Eff.apply (.recorded l) s).reqs = s.reqs := rfl
@[simp] theorem apply_recorded_outs (l : List OpRef) : (Eff.apply (.recorded l) s).outs = s.outs := rfl
@[simp] theorem apply_recorded_hosts (l : List OpRef) : (Eff.apply (.recorded l) s).hosts = s.hosts := rfl
@[simp] theorem apply_recorded_tbl (l : List OpRef) : (Eff.apply (.recorded l) s).tbl = s.tbl := rfl
@[simp] theorem apply_recorded_sac (l : List OpRef) : (Eff.apply (.recorded l) s).sac = s.sac := rfl
@[simp] theorem apply_recorded_cells (l : List OpRef) : (Eff.apply (.recorded l) s).cells = s.cells := rfl
@[simp] theorem apply_recorded_stash (l : List OpRef) : (Eff.apply (.recorded l) s).stash = s.stash := rfl
@[simp] theorem apply_recorded_schDue (l : List OpRef) : (Eff.apply (.recorded l) s).schDue = s.schDue := rfl
@[simp] theorem apply_recorded_lpe (l : List OpRef) : (Eff.apply (.recorded l) s).lpe = s.lpe := rfl
@[simp] theorem apply_recorded_col (l : List OpRef) : (Eff.apply (.recorded l) s).col = s.col := rfl
@[simp] theorem apply_recorded_rte (l : List OpRef) : (Eff.apply (.recorded l) s).rte = s.rte := rfl
@[simp] theorem apply_recorded_links (l : List OpRef) : (Eff.apply (.recorded l) s).links = s.links := rfl
@[simp] theorem apply_recorded_peers (l : List OpRef) : (Eff.apply (.recorded l) s).peers = s.peers := rfl
@[simp] theorem apply_recorded_qps (l : List OpRef) : (Eff.apply (.recorded l) s).qps = s.qps := rfl
@[simp] theorem apply_recorded_clb (l : List OpRef) : (Eff.apply (.recorded l) s).clb = s.clb := rfl
@[simp] theorem apply_recorded_crown (l : List OpRef) : (Eff.apply (.recorded l) s).crown = s.crown := rfl

/-! ### .marks l -/

@[simp] theorem apply_marks_pending (l : List OpRef) : (Eff.apply (.marks l) s).pending = s.pending := rfl
@[simp] theorem apply_marks_ts (l : List OpRef) : (Eff.apply (.marks l) s).ts = s.ts := rfl
@[simp] theorem apply_marks_nonce (l : List OpRef) : (Eff.apply (.marks l) s).nonce = s.nonce := rfl
@[simp] theorem apply_marks_regs (l : List OpRef) : (Eff.apply (.marks l) s).regs = s.regs := rfl
@[simp] theorem apply_marks_priv (l : List OpRef) : (Eff.apply (.marks l) s).priv = s.priv := rfl
@[simp] theorem apply_marks_shadow (l : List OpRef) : (Eff.apply (.marks l) s).shadow = s.shadow := rfl
@[simp] theorem apply_marks_hbm (l : List OpRef) : (Eff.apply (.marks l) s).hbm = s.hbm := rfl
@[simp] theorem apply_marks_bench (l : List OpRef) : (Eff.apply (.marks l) s).bench = s.bench := rfl
@[simp] theorem apply_marks_well (l : List OpRef) : (Eff.apply (.marks l) s).well = s.well := rfl
@[simp] theorem apply_marks_host (l : List OpRef) : (Eff.apply (.marks l) s).host = s.host := rfl
@[simp] theorem apply_marks_ecc (l : List OpRef) : (Eff.apply (.marks l) s).ecc = s.ecc := rfl
@[simp] theorem apply_marks_sram (l : List OpRef) : (Eff.apply (.marks l) s).sram = s.sram := rfl
@[simp] theorem apply_marks_esc (l : List OpRef) : (Eff.apply (.marks l) s).esc = s.esc := rfl
@[simp] theorem apply_marks_ops (l : List OpRef) : (Eff.apply (.marks l) s).ops = s.ops := rfl
@[simp] theorem apply_marks_recorded (l : List OpRef) : (Eff.apply (.marks l) s).recorded = s.recorded := rfl
@[simp] theorem apply_marks_marks (l : List OpRef) : (Eff.apply (.marks l) s).marks = l := rfl
@[simp] theorem apply_marks_reqs (l : List OpRef) : (Eff.apply (.marks l) s).reqs = s.reqs := rfl
@[simp] theorem apply_marks_outs (l : List OpRef) : (Eff.apply (.marks l) s).outs = s.outs := rfl
@[simp] theorem apply_marks_hosts (l : List OpRef) : (Eff.apply (.marks l) s).hosts = s.hosts := rfl
@[simp] theorem apply_marks_tbl (l : List OpRef) : (Eff.apply (.marks l) s).tbl = s.tbl := rfl
@[simp] theorem apply_marks_sac (l : List OpRef) : (Eff.apply (.marks l) s).sac = s.sac := rfl
@[simp] theorem apply_marks_cells (l : List OpRef) : (Eff.apply (.marks l) s).cells = s.cells := rfl
@[simp] theorem apply_marks_stash (l : List OpRef) : (Eff.apply (.marks l) s).stash = s.stash := rfl
@[simp] theorem apply_marks_schDue (l : List OpRef) : (Eff.apply (.marks l) s).schDue = s.schDue := rfl
@[simp] theorem apply_marks_lpe (l : List OpRef) : (Eff.apply (.marks l) s).lpe = s.lpe := rfl
@[simp] theorem apply_marks_col (l : List OpRef) : (Eff.apply (.marks l) s).col = s.col := rfl
@[simp] theorem apply_marks_rte (l : List OpRef) : (Eff.apply (.marks l) s).rte = s.rte := rfl
@[simp] theorem apply_marks_links (l : List OpRef) : (Eff.apply (.marks l) s).links = s.links := rfl
@[simp] theorem apply_marks_peers (l : List OpRef) : (Eff.apply (.marks l) s).peers = s.peers := rfl
@[simp] theorem apply_marks_qps (l : List OpRef) : (Eff.apply (.marks l) s).qps = s.qps := rfl
@[simp] theorem apply_marks_clb (l : List OpRef) : (Eff.apply (.marks l) s).clb = s.clb := rfl
@[simp] theorem apply_marks_crown (l : List OpRef) : (Eff.apply (.marks l) s).crown = s.crown := rfl

/-! ### .reqs l -/

@[simp] theorem apply_reqs_pending (l : List Req) : (Eff.apply (.reqs l) s).pending = s.pending := rfl
@[simp] theorem apply_reqs_ts (l : List Req) : (Eff.apply (.reqs l) s).ts = s.ts := rfl
@[simp] theorem apply_reqs_nonce (l : List Req) : (Eff.apply (.reqs l) s).nonce = s.nonce := rfl
@[simp] theorem apply_reqs_regs (l : List Req) : (Eff.apply (.reqs l) s).regs = s.regs := rfl
@[simp] theorem apply_reqs_priv (l : List Req) : (Eff.apply (.reqs l) s).priv = s.priv := rfl
@[simp] theorem apply_reqs_shadow (l : List Req) : (Eff.apply (.reqs l) s).shadow = s.shadow := rfl
@[simp] theorem apply_reqs_hbm (l : List Req) : (Eff.apply (.reqs l) s).hbm = s.hbm := rfl
@[simp] theorem apply_reqs_bench (l : List Req) : (Eff.apply (.reqs l) s).bench = s.bench := rfl
@[simp] theorem apply_reqs_well (l : List Req) : (Eff.apply (.reqs l) s).well = s.well := rfl
@[simp] theorem apply_reqs_host (l : List Req) : (Eff.apply (.reqs l) s).host = s.host := rfl
@[simp] theorem apply_reqs_ecc (l : List Req) : (Eff.apply (.reqs l) s).ecc = s.ecc := rfl
@[simp] theorem apply_reqs_sram (l : List Req) : (Eff.apply (.reqs l) s).sram = s.sram := rfl
@[simp] theorem apply_reqs_esc (l : List Req) : (Eff.apply (.reqs l) s).esc = s.esc := rfl
@[simp] theorem apply_reqs_ops (l : List Req) : (Eff.apply (.reqs l) s).ops = s.ops := rfl
@[simp] theorem apply_reqs_recorded (l : List Req) : (Eff.apply (.reqs l) s).recorded = s.recorded := rfl
@[simp] theorem apply_reqs_marks (l : List Req) : (Eff.apply (.reqs l) s).marks = s.marks := rfl
@[simp] theorem apply_reqs_reqs (l : List Req) : (Eff.apply (.reqs l) s).reqs = l := rfl
@[simp] theorem apply_reqs_outs (l : List Req) : (Eff.apply (.reqs l) s).outs = s.outs := rfl
@[simp] theorem apply_reqs_hosts (l : List Req) : (Eff.apply (.reqs l) s).hosts = s.hosts := rfl
@[simp] theorem apply_reqs_tbl (l : List Req) : (Eff.apply (.reqs l) s).tbl = s.tbl := rfl
@[simp] theorem apply_reqs_sac (l : List Req) : (Eff.apply (.reqs l) s).sac = s.sac := rfl
@[simp] theorem apply_reqs_cells (l : List Req) : (Eff.apply (.reqs l) s).cells = s.cells := rfl
@[simp] theorem apply_reqs_stash (l : List Req) : (Eff.apply (.reqs l) s).stash = s.stash := rfl
@[simp] theorem apply_reqs_schDue (l : List Req) : (Eff.apply (.reqs l) s).schDue = s.schDue := rfl
@[simp] theorem apply_reqs_lpe (l : List Req) : (Eff.apply (.reqs l) s).lpe = s.lpe := rfl
@[simp] theorem apply_reqs_col (l : List Req) : (Eff.apply (.reqs l) s).col = s.col := rfl
@[simp] theorem apply_reqs_rte (l : List Req) : (Eff.apply (.reqs l) s).rte = s.rte := rfl
@[simp] theorem apply_reqs_links (l : List Req) : (Eff.apply (.reqs l) s).links = s.links := rfl
@[simp] theorem apply_reqs_peers (l : List Req) : (Eff.apply (.reqs l) s).peers = s.peers := rfl
@[simp] theorem apply_reqs_qps (l : List Req) : (Eff.apply (.reqs l) s).qps = s.qps := rfl
@[simp] theorem apply_reqs_clb (l : List Req) : (Eff.apply (.reqs l) s).clb = s.clb := rfl
@[simp] theorem apply_reqs_crown (l : List Req) : (Eff.apply (.reqs l) s).crown = s.crown := rfl

/-! ### .outs x -/

@[simp] theorem apply_outs_pending (x : Outs) : (Eff.apply (.outs x) s).pending = s.pending := rfl
@[simp] theorem apply_outs_ts (x : Outs) : (Eff.apply (.outs x) s).ts = s.ts := rfl
@[simp] theorem apply_outs_nonce (x : Outs) : (Eff.apply (.outs x) s).nonce = s.nonce := rfl
@[simp] theorem apply_outs_regs (x : Outs) : (Eff.apply (.outs x) s).regs = s.regs := rfl
@[simp] theorem apply_outs_priv (x : Outs) : (Eff.apply (.outs x) s).priv = s.priv := rfl
@[simp] theorem apply_outs_shadow (x : Outs) : (Eff.apply (.outs x) s).shadow = s.shadow := rfl
@[simp] theorem apply_outs_hbm (x : Outs) : (Eff.apply (.outs x) s).hbm = s.hbm := rfl
@[simp] theorem apply_outs_bench (x : Outs) : (Eff.apply (.outs x) s).bench = s.bench := rfl
@[simp] theorem apply_outs_well (x : Outs) : (Eff.apply (.outs x) s).well = s.well := rfl
@[simp] theorem apply_outs_host (x : Outs) : (Eff.apply (.outs x) s).host = s.host := rfl
@[simp] theorem apply_outs_ecc (x : Outs) : (Eff.apply (.outs x) s).ecc = s.ecc := rfl
@[simp] theorem apply_outs_sram (x : Outs) : (Eff.apply (.outs x) s).sram = s.sram := rfl
@[simp] theorem apply_outs_esc (x : Outs) : (Eff.apply (.outs x) s).esc = s.esc := rfl
@[simp] theorem apply_outs_ops (x : Outs) : (Eff.apply (.outs x) s).ops = s.ops := rfl
@[simp] theorem apply_outs_recorded (x : Outs) : (Eff.apply (.outs x) s).recorded = s.recorded := rfl
@[simp] theorem apply_outs_marks (x : Outs) : (Eff.apply (.outs x) s).marks = s.marks := rfl
@[simp] theorem apply_outs_reqs (x : Outs) : (Eff.apply (.outs x) s).reqs = s.reqs := rfl
@[simp] theorem apply_outs_outs (x : Outs) : (Eff.apply (.outs x) s).outs = x := rfl
@[simp] theorem apply_outs_hosts (x : Outs) : (Eff.apply (.outs x) s).hosts = s.hosts := rfl
@[simp] theorem apply_outs_tbl (x : Outs) : (Eff.apply (.outs x) s).tbl = s.tbl := rfl
@[simp] theorem apply_outs_sac (x : Outs) : (Eff.apply (.outs x) s).sac = s.sac := rfl
@[simp] theorem apply_outs_cells (x : Outs) : (Eff.apply (.outs x) s).cells = s.cells := rfl
@[simp] theorem apply_outs_stash (x : Outs) : (Eff.apply (.outs x) s).stash = s.stash := rfl
@[simp] theorem apply_outs_schDue (x : Outs) : (Eff.apply (.outs x) s).schDue = s.schDue := rfl
@[simp] theorem apply_outs_lpe (x : Outs) : (Eff.apply (.outs x) s).lpe = s.lpe := rfl
@[simp] theorem apply_outs_col (x : Outs) : (Eff.apply (.outs x) s).col = s.col := rfl
@[simp] theorem apply_outs_rte (x : Outs) : (Eff.apply (.outs x) s).rte = s.rte := rfl
@[simp] theorem apply_outs_links (x : Outs) : (Eff.apply (.outs x) s).links = s.links := rfl
@[simp] theorem apply_outs_peers (x : Outs) : (Eff.apply (.outs x) s).peers = s.peers := rfl
@[simp] theorem apply_outs_qps (x : Outs) : (Eff.apply (.outs x) s).qps = s.qps := rfl
@[simp] theorem apply_outs_clb (x : Outs) : (Eff.apply (.outs x) s).clb = s.clb := rfl
@[simp] theorem apply_outs_crown (x : Outs) : (Eff.apply (.outs x) s).crown = s.crown := rfl

/-! ### .hosts x -/

@[simp] theorem apply_hosts_pending (x : Hosts) : (Eff.apply (.hosts x) s).pending = s.pending := rfl
@[simp] theorem apply_hosts_ts (x : Hosts) : (Eff.apply (.hosts x) s).ts = s.ts := rfl
@[simp] theorem apply_hosts_nonce (x : Hosts) : (Eff.apply (.hosts x) s).nonce = s.nonce := rfl
@[simp] theorem apply_hosts_regs (x : Hosts) : (Eff.apply (.hosts x) s).regs = s.regs := rfl
@[simp] theorem apply_hosts_priv (x : Hosts) : (Eff.apply (.hosts x) s).priv = s.priv := rfl
@[simp] theorem apply_hosts_shadow (x : Hosts) : (Eff.apply (.hosts x) s).shadow = s.shadow := rfl
@[simp] theorem apply_hosts_hbm (x : Hosts) : (Eff.apply (.hosts x) s).hbm = s.hbm := rfl
@[simp] theorem apply_hosts_bench (x : Hosts) : (Eff.apply (.hosts x) s).bench = s.bench := rfl
@[simp] theorem apply_hosts_well (x : Hosts) : (Eff.apply (.hosts x) s).well = s.well := rfl
@[simp] theorem apply_hosts_host (x : Hosts) : (Eff.apply (.hosts x) s).host = s.host := rfl
@[simp] theorem apply_hosts_ecc (x : Hosts) : (Eff.apply (.hosts x) s).ecc = s.ecc := rfl
@[simp] theorem apply_hosts_sram (x : Hosts) : (Eff.apply (.hosts x) s).sram = s.sram := rfl
@[simp] theorem apply_hosts_esc (x : Hosts) : (Eff.apply (.hosts x) s).esc = s.esc := rfl
@[simp] theorem apply_hosts_ops (x : Hosts) : (Eff.apply (.hosts x) s).ops = s.ops := rfl
@[simp] theorem apply_hosts_recorded (x : Hosts) : (Eff.apply (.hosts x) s).recorded = s.recorded := rfl
@[simp] theorem apply_hosts_marks (x : Hosts) : (Eff.apply (.hosts x) s).marks = s.marks := rfl
@[simp] theorem apply_hosts_reqs (x : Hosts) : (Eff.apply (.hosts x) s).reqs = s.reqs := rfl
@[simp] theorem apply_hosts_outs (x : Hosts) : (Eff.apply (.hosts x) s).outs = s.outs := rfl
@[simp] theorem apply_hosts_hosts (x : Hosts) : (Eff.apply (.hosts x) s).hosts = x := rfl
@[simp] theorem apply_hosts_tbl (x : Hosts) : (Eff.apply (.hosts x) s).tbl = s.tbl := rfl
@[simp] theorem apply_hosts_sac (x : Hosts) : (Eff.apply (.hosts x) s).sac = s.sac := rfl
@[simp] theorem apply_hosts_cells (x : Hosts) : (Eff.apply (.hosts x) s).cells = s.cells := rfl
@[simp] theorem apply_hosts_stash (x : Hosts) : (Eff.apply (.hosts x) s).stash = s.stash := rfl
@[simp] theorem apply_hosts_schDue (x : Hosts) : (Eff.apply (.hosts x) s).schDue = s.schDue := rfl
@[simp] theorem apply_hosts_lpe (x : Hosts) : (Eff.apply (.hosts x) s).lpe = s.lpe := rfl
@[simp] theorem apply_hosts_col (x : Hosts) : (Eff.apply (.hosts x) s).col = s.col := rfl
@[simp] theorem apply_hosts_rte (x : Hosts) : (Eff.apply (.hosts x) s).rte = s.rte := rfl
@[simp] theorem apply_hosts_links (x : Hosts) : (Eff.apply (.hosts x) s).links = s.links := rfl
@[simp] theorem apply_hosts_peers (x : Hosts) : (Eff.apply (.hosts x) s).peers = s.peers := rfl
@[simp] theorem apply_hosts_qps (x : Hosts) : (Eff.apply (.hosts x) s).qps = s.qps := rfl
@[simp] theorem apply_hosts_clb (x : Hosts) : (Eff.apply (.hosts x) s).clb = s.clb := rfl
@[simp] theorem apply_hosts_crown (x : Hosts) : (Eff.apply (.hosts x) s).crown = s.crown := rfl

/-! ### .tbl x -/

@[simp] theorem apply_tbl_pending (x : Tbl) : (Eff.apply (.tbl x) s).pending = s.pending := rfl
@[simp] theorem apply_tbl_ts (x : Tbl) : (Eff.apply (.tbl x) s).ts = s.ts := rfl
@[simp] theorem apply_tbl_nonce (x : Tbl) : (Eff.apply (.tbl x) s).nonce = s.nonce := rfl
@[simp] theorem apply_tbl_regs (x : Tbl) : (Eff.apply (.tbl x) s).regs = s.regs := rfl
@[simp] theorem apply_tbl_priv (x : Tbl) : (Eff.apply (.tbl x) s).priv = s.priv := rfl
@[simp] theorem apply_tbl_shadow (x : Tbl) : (Eff.apply (.tbl x) s).shadow = s.shadow := rfl
@[simp] theorem apply_tbl_hbm (x : Tbl) : (Eff.apply (.tbl x) s).hbm = s.hbm := rfl
@[simp] theorem apply_tbl_bench (x : Tbl) : (Eff.apply (.tbl x) s).bench = s.bench := rfl
@[simp] theorem apply_tbl_well (x : Tbl) : (Eff.apply (.tbl x) s).well = s.well := rfl
@[simp] theorem apply_tbl_host (x : Tbl) : (Eff.apply (.tbl x) s).host = s.host := rfl
@[simp] theorem apply_tbl_ecc (x : Tbl) : (Eff.apply (.tbl x) s).ecc = s.ecc := rfl
@[simp] theorem apply_tbl_sram (x : Tbl) : (Eff.apply (.tbl x) s).sram = s.sram := rfl
@[simp] theorem apply_tbl_esc (x : Tbl) : (Eff.apply (.tbl x) s).esc = s.esc := rfl
@[simp] theorem apply_tbl_ops (x : Tbl) : (Eff.apply (.tbl x) s).ops = s.ops := rfl
@[simp] theorem apply_tbl_recorded (x : Tbl) : (Eff.apply (.tbl x) s).recorded = s.recorded := rfl
@[simp] theorem apply_tbl_marks (x : Tbl) : (Eff.apply (.tbl x) s).marks = s.marks := rfl
@[simp] theorem apply_tbl_reqs (x : Tbl) : (Eff.apply (.tbl x) s).reqs = s.reqs := rfl
@[simp] theorem apply_tbl_outs (x : Tbl) : (Eff.apply (.tbl x) s).outs = s.outs := rfl
@[simp] theorem apply_tbl_hosts (x : Tbl) : (Eff.apply (.tbl x) s).hosts = s.hosts := rfl
@[simp] theorem apply_tbl_tbl (x : Tbl) : (Eff.apply (.tbl x) s).tbl = x := rfl
@[simp] theorem apply_tbl_sac (x : Tbl) : (Eff.apply (.tbl x) s).sac = s.sac := rfl
@[simp] theorem apply_tbl_cells (x : Tbl) : (Eff.apply (.tbl x) s).cells = s.cells := rfl
@[simp] theorem apply_tbl_stash (x : Tbl) : (Eff.apply (.tbl x) s).stash = s.stash := rfl
@[simp] theorem apply_tbl_schDue (x : Tbl) : (Eff.apply (.tbl x) s).schDue = s.schDue := rfl
@[simp] theorem apply_tbl_lpe (x : Tbl) : (Eff.apply (.tbl x) s).lpe = s.lpe := rfl
@[simp] theorem apply_tbl_col (x : Tbl) : (Eff.apply (.tbl x) s).col = s.col := rfl
@[simp] theorem apply_tbl_rte (x : Tbl) : (Eff.apply (.tbl x) s).rte = s.rte := rfl
@[simp] theorem apply_tbl_links (x : Tbl) : (Eff.apply (.tbl x) s).links = s.links := rfl
@[simp] theorem apply_tbl_peers (x : Tbl) : (Eff.apply (.tbl x) s).peers = s.peers := rfl
@[simp] theorem apply_tbl_qps (x : Tbl) : (Eff.apply (.tbl x) s).qps = s.qps := rfl
@[simp] theorem apply_tbl_clb (x : Tbl) : (Eff.apply (.tbl x) s).clb = s.clb := rfl
@[simp] theorem apply_tbl_crown (x : Tbl) : (Eff.apply (.tbl x) s).crown = s.crown := rfl

/-! ### .sac x -/

@[simp] theorem apply_sac_pending (x : Sac) : (Eff.apply (.sac x) s).pending = s.pending := rfl
@[simp] theorem apply_sac_ts (x : Sac) : (Eff.apply (.sac x) s).ts = s.ts := rfl
@[simp] theorem apply_sac_nonce (x : Sac) : (Eff.apply (.sac x) s).nonce = s.nonce := rfl
@[simp] theorem apply_sac_regs (x : Sac) : (Eff.apply (.sac x) s).regs = s.regs := rfl
@[simp] theorem apply_sac_priv (x : Sac) : (Eff.apply (.sac x) s).priv = s.priv := rfl
@[simp] theorem apply_sac_shadow (x : Sac) : (Eff.apply (.sac x) s).shadow = s.shadow := rfl
@[simp] theorem apply_sac_hbm (x : Sac) : (Eff.apply (.sac x) s).hbm = s.hbm := rfl
@[simp] theorem apply_sac_bench (x : Sac) : (Eff.apply (.sac x) s).bench = s.bench := rfl
@[simp] theorem apply_sac_well (x : Sac) : (Eff.apply (.sac x) s).well = s.well := rfl
@[simp] theorem apply_sac_host (x : Sac) : (Eff.apply (.sac x) s).host = s.host := rfl
@[simp] theorem apply_sac_ecc (x : Sac) : (Eff.apply (.sac x) s).ecc = s.ecc := rfl
@[simp] theorem apply_sac_sram (x : Sac) : (Eff.apply (.sac x) s).sram = s.sram := rfl
@[simp] theorem apply_sac_esc (x : Sac) : (Eff.apply (.sac x) s).esc = s.esc := rfl
@[simp] theorem apply_sac_ops (x : Sac) : (Eff.apply (.sac x) s).ops = s.ops := rfl
@[simp] theorem apply_sac_recorded (x : Sac) : (Eff.apply (.sac x) s).recorded = s.recorded := rfl
@[simp] theorem apply_sac_marks (x : Sac) : (Eff.apply (.sac x) s).marks = s.marks := rfl
@[simp] theorem apply_sac_reqs (x : Sac) : (Eff.apply (.sac x) s).reqs = s.reqs := rfl
@[simp] theorem apply_sac_outs (x : Sac) : (Eff.apply (.sac x) s).outs = s.outs := rfl
@[simp] theorem apply_sac_hosts (x : Sac) : (Eff.apply (.sac x) s).hosts = s.hosts := rfl
@[simp] theorem apply_sac_tbl (x : Sac) : (Eff.apply (.sac x) s).tbl = s.tbl := rfl
@[simp] theorem apply_sac_sac (x : Sac) : (Eff.apply (.sac x) s).sac = x := rfl
@[simp] theorem apply_sac_cells (x : Sac) : (Eff.apply (.sac x) s).cells = s.cells := rfl
@[simp] theorem apply_sac_stash (x : Sac) : (Eff.apply (.sac x) s).stash = s.stash := rfl
@[simp] theorem apply_sac_schDue (x : Sac) : (Eff.apply (.sac x) s).schDue = s.schDue := rfl
@[simp] theorem apply_sac_lpe (x : Sac) : (Eff.apply (.sac x) s).lpe = s.lpe := rfl
@[simp] theorem apply_sac_col (x : Sac) : (Eff.apply (.sac x) s).col = s.col := rfl
@[simp] theorem apply_sac_rte (x : Sac) : (Eff.apply (.sac x) s).rte = s.rte := rfl
@[simp] theorem apply_sac_links (x : Sac) : (Eff.apply (.sac x) s).links = s.links := rfl
@[simp] theorem apply_sac_peers (x : Sac) : (Eff.apply (.sac x) s).peers = s.peers := rfl
@[simp] theorem apply_sac_qps (x : Sac) : (Eff.apply (.sac x) s).qps = s.qps := rfl
@[simp] theorem apply_sac_clb (x : Sac) : (Eff.apply (.sac x) s).clb = s.clb := rfl
@[simp] theorem apply_sac_crown (x : Sac) : (Eff.apply (.sac x) s).crown = s.crown := rfl

/-! ### .cells l m -/

@[simp] theorem apply_cells_pending (l : List (Nat × CellSt)) (m : List (Nat × BitVec 4096)) : (Eff.apply (.cells l m) s).pending = s.pending := rfl
@[simp] theorem apply_cells_ts (l : List (Nat × CellSt)) (m : List (Nat × BitVec 4096)) : (Eff.apply (.cells l m) s).ts = s.ts := rfl
@[simp] theorem apply_cells_nonce (l : List (Nat × CellSt)) (m : List (Nat × BitVec 4096)) : (Eff.apply (.cells l m) s).nonce = s.nonce := rfl
@[simp] theorem apply_cells_regs (l : List (Nat × CellSt)) (m : List (Nat × BitVec 4096)) : (Eff.apply (.cells l m) s).regs = s.regs := rfl
@[simp] theorem apply_cells_priv (l : List (Nat × CellSt)) (m : List (Nat × BitVec 4096)) : (Eff.apply (.cells l m) s).priv = s.priv := rfl
@[simp] theorem apply_cells_shadow (l : List (Nat × CellSt)) (m : List (Nat × BitVec 4096)) : (Eff.apply (.cells l m) s).shadow = s.shadow := rfl
@[simp] theorem apply_cells_hbm (l : List (Nat × CellSt)) (m : List (Nat × BitVec 4096)) : (Eff.apply (.cells l m) s).hbm = s.hbm := rfl
@[simp] theorem apply_cells_bench (l : List (Nat × CellSt)) (m : List (Nat × BitVec 4096)) : (Eff.apply (.cells l m) s).bench = s.bench := rfl
@[simp] theorem apply_cells_well (l : List (Nat × CellSt)) (m : List (Nat × BitVec 4096)) : (Eff.apply (.cells l m) s).well = s.well := rfl
@[simp] theorem apply_cells_host (l : List (Nat × CellSt)) (m : List (Nat × BitVec 4096)) : (Eff.apply (.cells l m) s).host = s.host := rfl
@[simp] theorem apply_cells_ecc (l : List (Nat × CellSt)) (m : List (Nat × BitVec 4096)) : (Eff.apply (.cells l m) s).ecc = s.ecc := rfl
@[simp] theorem apply_cells_sram (l : List (Nat × CellSt)) (m : List (Nat × BitVec 4096)) : (Eff.apply (.cells l m) s).sram = s.sram := rfl
@[simp] theorem apply_cells_esc (l : List (Nat × CellSt)) (m : List (Nat × BitVec 4096)) : (Eff.apply (.cells l m) s).esc = s.esc := rfl
@[simp] theorem apply_cells_ops (l : List (Nat × CellSt)) (m : List (Nat × BitVec 4096)) : (Eff.apply (.cells l m) s).ops = s.ops := rfl
@[simp] theorem apply_cells_recorded (l : List (Nat × CellSt)) (m : List (Nat × BitVec 4096)) : (Eff.apply (.cells l m) s).recorded = s.recorded := rfl
@[simp] theorem apply_cells_marks (l : List (Nat × CellSt)) (m : List (Nat × BitVec 4096)) : (Eff.apply (.cells l m) s).marks = s.marks := rfl
@[simp] theorem apply_cells_reqs (l : List (Nat × CellSt)) (m : List (Nat × BitVec 4096)) : (Eff.apply (.cells l m) s).reqs = s.reqs := rfl
@[simp] theorem apply_cells_outs (l : List (Nat × CellSt)) (m : List (Nat × BitVec 4096)) : (Eff.apply (.cells l m) s).outs = s.outs := rfl
@[simp] theorem apply_cells_hosts (l : List (Nat × CellSt)) (m : List (Nat × BitVec 4096)) : (Eff.apply (.cells l m) s).hosts = s.hosts := rfl
@[simp] theorem apply_cells_tbl (l : List (Nat × CellSt)) (m : List (Nat × BitVec 4096)) : (Eff.apply (.cells l m) s).tbl = s.tbl := rfl
@[simp] theorem apply_cells_sac (l : List (Nat × CellSt)) (m : List (Nat × BitVec 4096)) : (Eff.apply (.cells l m) s).sac = s.sac := rfl
@[simp] theorem apply_cells_cells (l : List (Nat × CellSt)) (m : List (Nat × BitVec 4096)) : (Eff.apply (.cells l m) s).cells = ⟨l, s.cells.vreg, s.cells.rnd, m⟩ := rfl
@[simp] theorem apply_cells_stash (l : List (Nat × CellSt)) (m : List (Nat × BitVec 4096)) : (Eff.apply (.cells l m) s).stash = s.stash := rfl
@[simp] theorem apply_cells_schDue (l : List (Nat × CellSt)) (m : List (Nat × BitVec 4096)) : (Eff.apply (.cells l m) s).schDue = s.schDue := rfl
@[simp] theorem apply_cells_lpe (l : List (Nat × CellSt)) (m : List (Nat × BitVec 4096)) : (Eff.apply (.cells l m) s).lpe = s.lpe := rfl
@[simp] theorem apply_cells_col (l : List (Nat × CellSt)) (m : List (Nat × BitVec 4096)) : (Eff.apply (.cells l m) s).col = s.col := rfl
@[simp] theorem apply_cells_rte (l : List (Nat × CellSt)) (m : List (Nat × BitVec 4096)) : (Eff.apply (.cells l m) s).rte = s.rte := rfl
@[simp] theorem apply_cells_links (l : List (Nat × CellSt)) (m : List (Nat × BitVec 4096)) : (Eff.apply (.cells l m) s).links = s.links := rfl
@[simp] theorem apply_cells_peers (l : List (Nat × CellSt)) (m : List (Nat × BitVec 4096)) : (Eff.apply (.cells l m) s).peers = s.peers := rfl
@[simp] theorem apply_cells_qps (l : List (Nat × CellSt)) (m : List (Nat × BitVec 4096)) : (Eff.apply (.cells l m) s).qps = s.qps := rfl
@[simp] theorem apply_cells_clb (l : List (Nat × CellSt)) (m : List (Nat × BitVec 4096)) : (Eff.apply (.cells l m) s).clb = s.clb := rfl
@[simp] theorem apply_cells_crown (l : List (Nat × CellSt)) (m : List (Nat × BitVec 4096)) : (Eff.apply (.cells l m) s).crown = s.crown := rfl

/-! ### .rnd l -/

@[simp] theorem apply_rnd_pending (l : List (Nat × Nat)) : (Eff.apply (.rnd l) s).pending = s.pending := rfl
@[simp] theorem apply_rnd_ts (l : List (Nat × Nat)) : (Eff.apply (.rnd l) s).ts = s.ts := rfl
@[simp] theorem apply_rnd_nonce (l : List (Nat × Nat)) : (Eff.apply (.rnd l) s).nonce = s.nonce := rfl
@[simp] theorem apply_rnd_regs (l : List (Nat × Nat)) : (Eff.apply (.rnd l) s).regs = s.regs := rfl
@[simp] theorem apply_rnd_priv (l : List (Nat × Nat)) : (Eff.apply (.rnd l) s).priv = s.priv := rfl
@[simp] theorem apply_rnd_shadow (l : List (Nat × Nat)) : (Eff.apply (.rnd l) s).shadow = s.shadow := rfl
@[simp] theorem apply_rnd_hbm (l : List (Nat × Nat)) : (Eff.apply (.rnd l) s).hbm = s.hbm := rfl
@[simp] theorem apply_rnd_bench (l : List (Nat × Nat)) : (Eff.apply (.rnd l) s).bench = s.bench := rfl
@[simp] theorem apply_rnd_well (l : List (Nat × Nat)) : (Eff.apply (.rnd l) s).well = s.well := rfl
@[simp] theorem apply_rnd_host (l : List (Nat × Nat)) : (Eff.apply (.rnd l) s).host = s.host := rfl
@[simp] theorem apply_rnd_ecc (l : List (Nat × Nat)) : (Eff.apply (.rnd l) s).ecc = s.ecc := rfl
@[simp] theorem apply_rnd_sram (l : List (Nat × Nat)) : (Eff.apply (.rnd l) s).sram = s.sram := rfl
@[simp] theorem apply_rnd_esc (l : List (Nat × Nat)) : (Eff.apply (.rnd l) s).esc = s.esc := rfl
@[simp] theorem apply_rnd_ops (l : List (Nat × Nat)) : (Eff.apply (.rnd l) s).ops = s.ops := rfl
@[simp] theorem apply_rnd_recorded (l : List (Nat × Nat)) : (Eff.apply (.rnd l) s).recorded = s.recorded := rfl
@[simp] theorem apply_rnd_marks (l : List (Nat × Nat)) : (Eff.apply (.rnd l) s).marks = s.marks := rfl
@[simp] theorem apply_rnd_reqs (l : List (Nat × Nat)) : (Eff.apply (.rnd l) s).reqs = s.reqs := rfl
@[simp] theorem apply_rnd_outs (l : List (Nat × Nat)) : (Eff.apply (.rnd l) s).outs = s.outs := rfl
@[simp] theorem apply_rnd_hosts (l : List (Nat × Nat)) : (Eff.apply (.rnd l) s).hosts = s.hosts := rfl
@[simp] theorem apply_rnd_tbl (l : List (Nat × Nat)) : (Eff.apply (.rnd l) s).tbl = s.tbl := rfl
@[simp] theorem apply_rnd_sac (l : List (Nat × Nat)) : (Eff.apply (.rnd l) s).sac = s.sac := rfl
@[simp] theorem apply_rnd_cells (l : List (Nat × Nat)) : (Eff.apply (.rnd l) s).cells = { s.cells with rnd := l } := rfl
@[simp] theorem apply_rnd_stash (l : List (Nat × Nat)) : (Eff.apply (.rnd l) s).stash = s.stash := rfl
@[simp] theorem apply_rnd_schDue (l : List (Nat × Nat)) : (Eff.apply (.rnd l) s).schDue = s.schDue := rfl
@[simp] theorem apply_rnd_lpe (l : List (Nat × Nat)) : (Eff.apply (.rnd l) s).lpe = s.lpe := rfl
@[simp] theorem apply_rnd_col (l : List (Nat × Nat)) : (Eff.apply (.rnd l) s).col = s.col := rfl
@[simp] theorem apply_rnd_rte (l : List (Nat × Nat)) : (Eff.apply (.rnd l) s).rte = s.rte := rfl
@[simp] theorem apply_rnd_links (l : List (Nat × Nat)) : (Eff.apply (.rnd l) s).links = s.links := rfl
@[simp] theorem apply_rnd_peers (l : List (Nat × Nat)) : (Eff.apply (.rnd l) s).peers = s.peers := rfl
@[simp] theorem apply_rnd_qps (l : List (Nat × Nat)) : (Eff.apply (.rnd l) s).qps = s.qps := rfl
@[simp] theorem apply_rnd_clb (l : List (Nat × Nat)) : (Eff.apply (.rnd l) s).clb = s.clb := rfl
@[simp] theorem apply_rnd_crown (l : List (Nat × Nat)) : (Eff.apply (.rnd l) s).crown = s.crown := rfl

/-! ### .stash b -/

@[simp] theorem apply_stash_pending (b : BitVec 8) : (Eff.apply (.stash b) s).pending = s.pending := rfl
@[simp] theorem apply_stash_ts (b : BitVec 8) : (Eff.apply (.stash b) s).ts = s.ts := rfl
@[simp] theorem apply_stash_nonce (b : BitVec 8) : (Eff.apply (.stash b) s).nonce = s.nonce := rfl
@[simp] theorem apply_stash_regs (b : BitVec 8) : (Eff.apply (.stash b) s).regs = s.regs := rfl
@[simp] theorem apply_stash_priv (b : BitVec 8) : (Eff.apply (.stash b) s).priv = s.priv := rfl
@[simp] theorem apply_stash_shadow (b : BitVec 8) : (Eff.apply (.stash b) s).shadow = s.shadow := rfl
@[simp] theorem apply_stash_hbm (b : BitVec 8) : (Eff.apply (.stash b) s).hbm = s.hbm := rfl
@[simp] theorem apply_stash_bench (b : BitVec 8) : (Eff.apply (.stash b) s).bench = s.bench := rfl
@[simp] theorem apply_stash_well (b : BitVec 8) : (Eff.apply (.stash b) s).well = s.well := rfl
@[simp] theorem apply_stash_host (b : BitVec 8) : (Eff.apply (.stash b) s).host = s.host := rfl
@[simp] theorem apply_stash_ecc (b : BitVec 8) : (Eff.apply (.stash b) s).ecc = s.ecc := rfl
@[simp] theorem apply_stash_sram (b : BitVec 8) : (Eff.apply (.stash b) s).sram = s.sram := rfl
@[simp] theorem apply_stash_esc (b : BitVec 8) : (Eff.apply (.stash b) s).esc = s.esc := rfl
@[simp] theorem apply_stash_ops (b : BitVec 8) : (Eff.apply (.stash b) s).ops = s.ops := rfl
@[simp] theorem apply_stash_recorded (b : BitVec 8) : (Eff.apply (.stash b) s).recorded = s.recorded := rfl
@[simp] theorem apply_stash_marks (b : BitVec 8) : (Eff.apply (.stash b) s).marks = s.marks := rfl
@[simp] theorem apply_stash_reqs (b : BitVec 8) : (Eff.apply (.stash b) s).reqs = s.reqs := rfl
@[simp] theorem apply_stash_outs (b : BitVec 8) : (Eff.apply (.stash b) s).outs = s.outs := rfl
@[simp] theorem apply_stash_hosts (b : BitVec 8) : (Eff.apply (.stash b) s).hosts = s.hosts := rfl
@[simp] theorem apply_stash_tbl (b : BitVec 8) : (Eff.apply (.stash b) s).tbl = s.tbl := rfl
@[simp] theorem apply_stash_sac (b : BitVec 8) : (Eff.apply (.stash b) s).sac = s.sac := rfl
@[simp] theorem apply_stash_cells (b : BitVec 8) : (Eff.apply (.stash b) s).cells = s.cells := rfl
@[simp] theorem apply_stash_stash (b : BitVec 8) : (Eff.apply (.stash b) s).stash = b := rfl
@[simp] theorem apply_stash_schDue (b : BitVec 8) : (Eff.apply (.stash b) s).schDue = s.schDue := rfl
@[simp] theorem apply_stash_lpe (b : BitVec 8) : (Eff.apply (.stash b) s).lpe = s.lpe := rfl
@[simp] theorem apply_stash_col (b : BitVec 8) : (Eff.apply (.stash b) s).col = s.col := rfl
@[simp] theorem apply_stash_rte (b : BitVec 8) : (Eff.apply (.stash b) s).rte = s.rte := rfl
@[simp] theorem apply_stash_links (b : BitVec 8) : (Eff.apply (.stash b) s).links = s.links := rfl
@[simp] theorem apply_stash_peers (b : BitVec 8) : (Eff.apply (.stash b) s).peers = s.peers := rfl
@[simp] theorem apply_stash_qps (b : BitVec 8) : (Eff.apply (.stash b) s).qps = s.qps := rfl
@[simp] theorem apply_stash_clb (b : BitVec 8) : (Eff.apply (.stash b) s).clb = s.clb := rfl
@[simp] theorem apply_stash_crown (b : BitVec 8) : (Eff.apply (.stash b) s).crown = s.crown := rfl

/-! ### .schDue b -/

@[simp] theorem apply_schDue_pending (b : BitVec 16) : (Eff.apply (.schDue b) s).pending = s.pending := rfl
@[simp] theorem apply_schDue_ts (b : BitVec 16) : (Eff.apply (.schDue b) s).ts = s.ts := rfl
@[simp] theorem apply_schDue_nonce (b : BitVec 16) : (Eff.apply (.schDue b) s).nonce = s.nonce := rfl
@[simp] theorem apply_schDue_regs (b : BitVec 16) : (Eff.apply (.schDue b) s).regs = s.regs := rfl
@[simp] theorem apply_schDue_priv (b : BitVec 16) : (Eff.apply (.schDue b) s).priv = s.priv := rfl
@[simp] theorem apply_schDue_shadow (b : BitVec 16) : (Eff.apply (.schDue b) s).shadow = s.shadow := rfl
@[simp] theorem apply_schDue_hbm (b : BitVec 16) : (Eff.apply (.schDue b) s).hbm = s.hbm := rfl
@[simp] theorem apply_schDue_bench (b : BitVec 16) : (Eff.apply (.schDue b) s).bench = s.bench := rfl
@[simp] theorem apply_schDue_well (b : BitVec 16) : (Eff.apply (.schDue b) s).well = s.well := rfl
@[simp] theorem apply_schDue_host (b : BitVec 16) : (Eff.apply (.schDue b) s).host = s.host := rfl
@[simp] theorem apply_schDue_ecc (b : BitVec 16) : (Eff.apply (.schDue b) s).ecc = s.ecc := rfl
@[simp] theorem apply_schDue_sram (b : BitVec 16) : (Eff.apply (.schDue b) s).sram = s.sram := rfl
@[simp] theorem apply_schDue_esc (b : BitVec 16) : (Eff.apply (.schDue b) s).esc = s.esc := rfl
@[simp] theorem apply_schDue_ops (b : BitVec 16) : (Eff.apply (.schDue b) s).ops = s.ops := rfl
@[simp] theorem apply_schDue_recorded (b : BitVec 16) : (Eff.apply (.schDue b) s).recorded = s.recorded := rfl
@[simp] theorem apply_schDue_marks (b : BitVec 16) : (Eff.apply (.schDue b) s).marks = s.marks := rfl
@[simp] theorem apply_schDue_reqs (b : BitVec 16) : (Eff.apply (.schDue b) s).reqs = s.reqs := rfl
@[simp] theorem apply_schDue_outs (b : BitVec 16) : (Eff.apply (.schDue b) s).outs = s.outs := rfl
@[simp] theorem apply_schDue_hosts (b : BitVec 16) : (Eff.apply (.schDue b) s).hosts = s.hosts := rfl
@[simp] theorem apply_schDue_tbl (b : BitVec 16) : (Eff.apply (.schDue b) s).tbl = s.tbl := rfl
@[simp] theorem apply_schDue_sac (b : BitVec 16) : (Eff.apply (.schDue b) s).sac = s.sac := rfl
@[simp] theorem apply_schDue_cells (b : BitVec 16) : (Eff.apply (.schDue b) s).cells = s.cells := rfl
@[simp] theorem apply_schDue_stash (b : BitVec 16) : (Eff.apply (.schDue b) s).stash = s.stash := rfl
@[simp] theorem apply_schDue_schDue (b : BitVec 16) : (Eff.apply (.schDue b) s).schDue = b := rfl
@[simp] theorem apply_schDue_lpe (b : BitVec 16) : (Eff.apply (.schDue b) s).lpe = s.lpe := rfl
@[simp] theorem apply_schDue_col (b : BitVec 16) : (Eff.apply (.schDue b) s).col = s.col := rfl
@[simp] theorem apply_schDue_rte (b : BitVec 16) : (Eff.apply (.schDue b) s).rte = s.rte := rfl
@[simp] theorem apply_schDue_links (b : BitVec 16) : (Eff.apply (.schDue b) s).links = s.links := rfl
@[simp] theorem apply_schDue_peers (b : BitVec 16) : (Eff.apply (.schDue b) s).peers = s.peers := rfl
@[simp] theorem apply_schDue_qps (b : BitVec 16) : (Eff.apply (.schDue b) s).qps = s.qps := rfl
@[simp] theorem apply_schDue_clb (b : BitVec 16) : (Eff.apply (.schDue b) s).clb = s.clb := rfl
@[simp] theorem apply_schDue_crown (b : BitVec 16) : (Eff.apply (.schDue b) s).crown = s.crown := rfl

/-! ### .lpe x -/

@[simp] theorem apply_lpe_pending (x : Lpe) : (Eff.apply (.lpe x) s).pending = s.pending := rfl
@[simp] theorem apply_lpe_ts (x : Lpe) : (Eff.apply (.lpe x) s).ts = s.ts := rfl
@[simp] theorem apply_lpe_nonce (x : Lpe) : (Eff.apply (.lpe x) s).nonce = s.nonce := rfl
@[simp] theorem apply_lpe_regs (x : Lpe) : (Eff.apply (.lpe x) s).regs = s.regs := rfl
@[simp] theorem apply_lpe_priv (x : Lpe) : (Eff.apply (.lpe x) s).priv = s.priv := rfl
@[simp] theorem apply_lpe_shadow (x : Lpe) : (Eff.apply (.lpe x) s).shadow = s.shadow := rfl
@[simp] theorem apply_lpe_hbm (x : Lpe) : (Eff.apply (.lpe x) s).hbm = s.hbm := rfl
@[simp] theorem apply_lpe_bench (x : Lpe) : (Eff.apply (.lpe x) s).bench = s.bench := rfl
@[simp] theorem apply_lpe_well (x : Lpe) : (Eff.apply (.lpe x) s).well = s.well := rfl
@[simp] theorem apply_lpe_host (x : Lpe) : (Eff.apply (.lpe x) s).host = s.host := rfl
@[simp] theorem apply_lpe_ecc (x : Lpe) : (Eff.apply (.lpe x) s).ecc = s.ecc := rfl
@[simp] theorem apply_lpe_sram (x : Lpe) : (Eff.apply (.lpe x) s).sram = s.sram := rfl
@[simp] theorem apply_lpe_esc (x : Lpe) : (Eff.apply (.lpe x) s).esc = s.esc := rfl
@[simp] theorem apply_lpe_ops (x : Lpe) : (Eff.apply (.lpe x) s).ops = s.ops := rfl
@[simp] theorem apply_lpe_recorded (x : Lpe) : (Eff.apply (.lpe x) s).recorded = s.recorded := rfl
@[simp] theorem apply_lpe_marks (x : Lpe) : (Eff.apply (.lpe x) s).marks = s.marks := rfl
@[simp] theorem apply_lpe_reqs (x : Lpe) : (Eff.apply (.lpe x) s).reqs = s.reqs := rfl
@[simp] theorem apply_lpe_outs (x : Lpe) : (Eff.apply (.lpe x) s).outs = s.outs := rfl
@[simp] theorem apply_lpe_hosts (x : Lpe) : (Eff.apply (.lpe x) s).hosts = s.hosts := rfl
@[simp] theorem apply_lpe_tbl (x : Lpe) : (Eff.apply (.lpe x) s).tbl = s.tbl := rfl
@[simp] theorem apply_lpe_sac (x : Lpe) : (Eff.apply (.lpe x) s).sac = s.sac := rfl
@[simp] theorem apply_lpe_cells (x : Lpe) : (Eff.apply (.lpe x) s).cells = s.cells := rfl
@[simp] theorem apply_lpe_stash (x : Lpe) : (Eff.apply (.lpe x) s).stash = s.stash := rfl
@[simp] theorem apply_lpe_schDue (x : Lpe) : (Eff.apply (.lpe x) s).schDue = s.schDue := rfl
@[simp] theorem apply_lpe_lpe (x : Lpe) : (Eff.apply (.lpe x) s).lpe = x := rfl
@[simp] theorem apply_lpe_col (x : Lpe) : (Eff.apply (.lpe x) s).col = s.col := rfl
@[simp] theorem apply_lpe_rte (x : Lpe) : (Eff.apply (.lpe x) s).rte = s.rte := rfl
@[simp] theorem apply_lpe_links (x : Lpe) : (Eff.apply (.lpe x) s).links = s.links := rfl
@[simp] theorem apply_lpe_peers (x : Lpe) : (Eff.apply (.lpe x) s).peers = s.peers := rfl
@[simp] theorem apply_lpe_qps (x : Lpe) : (Eff.apply (.lpe x) s).qps = s.qps := rfl
@[simp] theorem apply_lpe_clb (x : Lpe) : (Eff.apply (.lpe x) s).clb = s.clb := rfl
@[simp] theorem apply_lpe_crown (x : Lpe) : (Eff.apply (.lpe x) s).crown = s.crown := rfl

/-! ### .col x -/

@[simp] theorem apply_col_pending (x : Col) : (Eff.apply (.col x) s).pending = s.pending := rfl
@[simp] theorem apply_col_ts (x : Col) : (Eff.apply (.col x) s).ts = s.ts := rfl
@[simp] theorem apply_col_nonce (x : Col) : (Eff.apply (.col x) s).nonce = s.nonce := rfl
@[simp] theorem apply_col_regs (x : Col) : (Eff.apply (.col x) s).regs = s.regs := rfl
@[simp] theorem apply_col_priv (x : Col) : (Eff.apply (.col x) s).priv = s.priv := rfl
@[simp] theorem apply_col_shadow (x : Col) : (Eff.apply (.col x) s).shadow = s.shadow := rfl
@[simp] theorem apply_col_hbm (x : Col) : (Eff.apply (.col x) s).hbm = s.hbm := rfl
@[simp] theorem apply_col_bench (x : Col) : (Eff.apply (.col x) s).bench = s.bench := rfl
@[simp] theorem apply_col_well (x : Col) : (Eff.apply (.col x) s).well = s.well := rfl
@[simp] theorem apply_col_host (x : Col) : (Eff.apply (.col x) s).host = s.host := rfl
@[simp] theorem apply_col_ecc (x : Col) : (Eff.apply (.col x) s).ecc = s.ecc := rfl
@[simp] theorem apply_col_sram (x : Col) : (Eff.apply (.col x) s).sram = s.sram := rfl
@[simp] theorem apply_col_esc (x : Col) : (Eff.apply (.col x) s).esc = s.esc := rfl
@[simp] theorem apply_col_ops (x : Col) : (Eff.apply (.col x) s).ops = s.ops := rfl
@[simp] theorem apply_col_recorded (x : Col) : (Eff.apply (.col x) s).recorded = s.recorded := rfl
@[simp] theorem apply_col_marks (x : Col) : (Eff.apply (.col x) s).marks = s.marks := rfl
@[simp] theorem apply_col_reqs (x : Col) : (Eff.apply (.col x) s).reqs = s.reqs := rfl
@[simp] theorem apply_col_outs (x : Col) : (Eff.apply (.col x) s).outs = s.outs := rfl
@[simp] theorem apply_col_hosts (x : Col) : (Eff.apply (.col x) s).hosts = s.hosts := rfl
@[simp] theorem apply_col_tbl (x : Col) : (Eff.apply (.col x) s).tbl = s.tbl := rfl
@[simp] theorem apply_col_sac (x : Col) : (Eff.apply (.col x) s).sac = s.sac := rfl
@[simp] theorem apply_col_cells (x : Col) : (Eff.apply (.col x) s).cells = s.cells := rfl
@[simp] theorem apply_col_stash (x : Col) : (Eff.apply (.col x) s).stash = s.stash := rfl
@[simp] theorem apply_col_schDue (x : Col) : (Eff.apply (.col x) s).schDue = s.schDue := rfl
@[simp] theorem apply_col_lpe (x : Col) : (Eff.apply (.col x) s).lpe = s.lpe := rfl
@[simp] theorem apply_col_col (x : Col) : (Eff.apply (.col x) s).col = x := rfl
@[simp] theorem apply_col_rte (x : Col) : (Eff.apply (.col x) s).rte = s.rte := rfl
@[simp] theorem apply_col_links (x : Col) : (Eff.apply (.col x) s).links = s.links := rfl
@[simp] theorem apply_col_peers (x : Col) : (Eff.apply (.col x) s).peers = s.peers := rfl
@[simp] theorem apply_col_qps (x : Col) : (Eff.apply (.col x) s).qps = s.qps := rfl
@[simp] theorem apply_col_clb (x : Col) : (Eff.apply (.col x) s).clb = s.clb := rfl
@[simp] theorem apply_col_crown (x : Col) : (Eff.apply (.col x) s).crown = s.crown := rfl

/-! ### .rte x -/

@[simp] theorem apply_rte_pending (x : Rte) : (Eff.apply (.rte x) s).pending = s.pending := rfl
@[simp] theorem apply_rte_ts (x : Rte) : (Eff.apply (.rte x) s).ts = s.ts := rfl
@[simp] theorem apply_rte_nonce (x : Rte) : (Eff.apply (.rte x) s).nonce = s.nonce := rfl
@[simp] theorem apply_rte_regs (x : Rte) : (Eff.apply (.rte x) s).regs = s.regs := rfl
@[simp] theorem apply_rte_priv (x : Rte) : (Eff.apply (.rte x) s).priv = s.priv := rfl
@[simp] theorem apply_rte_shadow (x : Rte) : (Eff.apply (.rte x) s).shadow = s.shadow := rfl
@[simp] theorem apply_rte_hbm (x : Rte) : (Eff.apply (.rte x) s).hbm = s.hbm := rfl
@[simp] theorem apply_rte_bench (x : Rte) : (Eff.apply (.rte x) s).bench = s.bench := rfl
@[simp] theorem apply_rte_well (x : Rte) : (Eff.apply (.rte x) s).well = s.well := rfl
@[simp] theorem apply_rte_host (x : Rte) : (Eff.apply (.rte x) s).host = s.host := rfl
@[simp] theorem apply_rte_ecc (x : Rte) : (Eff.apply (.rte x) s).ecc = s.ecc := rfl
@[simp] theorem apply_rte_sram (x : Rte) : (Eff.apply (.rte x) s).sram = s.sram := rfl
@[simp] theorem apply_rte_esc (x : Rte) : (Eff.apply (.rte x) s).esc = s.esc := rfl
@[simp] theorem apply_rte_ops (x : Rte) : (Eff.apply (.rte x) s).ops = s.ops := rfl
@[simp] theorem apply_rte_recorded (x : Rte) : (Eff.apply (.rte x) s).recorded = s.recorded := rfl
@[simp] theorem apply_rte_marks (x : Rte) : (Eff.apply (.rte x) s).marks = s.marks := rfl
@[simp] theorem apply_rte_reqs (x : Rte) : (Eff.apply (.rte x) s).reqs = s.reqs := rfl
@[simp] theorem apply_rte_outs (x : Rte) : (Eff.apply (.rte x) s).outs = s.outs := rfl
@[simp] theorem apply_rte_hosts (x : Rte) : (Eff.apply (.rte x) s).hosts = s.hosts := rfl
@[simp] theorem apply_rte_tbl (x : Rte) : (Eff.apply (.rte x) s).tbl = s.tbl := rfl
@[simp] theorem apply_rte_sac (x : Rte) : (Eff.apply (.rte x) s).sac = s.sac := rfl
@[simp] theorem apply_rte_cells (x : Rte) : (Eff.apply (.rte x) s).cells = s.cells := rfl
@[simp] theorem apply_rte_stash (x : Rte) : (Eff.apply (.rte x) s).stash = s.stash := rfl
@[simp] theorem apply_rte_schDue (x : Rte) : (Eff.apply (.rte x) s).schDue = s.schDue := rfl
@[simp] theorem apply_rte_lpe (x : Rte) : (Eff.apply (.rte x) s).lpe = s.lpe := rfl
@[simp] theorem apply_rte_col (x : Rte) : (Eff.apply (.rte x) s).col = s.col := rfl
@[simp] theorem apply_rte_rte (x : Rte) : (Eff.apply (.rte x) s).rte = x := rfl
@[simp] theorem apply_rte_links (x : Rte) : (Eff.apply (.rte x) s).links = s.links := rfl
@[simp] theorem apply_rte_peers (x : Rte) : (Eff.apply (.rte x) s).peers = s.peers := rfl
@[simp] theorem apply_rte_qps (x : Rte) : (Eff.apply (.rte x) s).qps = s.qps := rfl
@[simp] theorem apply_rte_clb (x : Rte) : (Eff.apply (.rte x) s).clb = s.clb := rfl
@[simp] theorem apply_rte_crown (x : Rte) : (Eff.apply (.rte x) s).crown = s.crown := rfl

/-! ### .links l -/

@[simp] theorem apply_links_pending (l : List (Nat × Link)) : (Eff.apply (.links l) s).pending = s.pending := rfl
@[simp] theorem apply_links_ts (l : List (Nat × Link)) : (Eff.apply (.links l) s).ts = s.ts := rfl
@[simp] theorem apply_links_nonce (l : List (Nat × Link)) : (Eff.apply (.links l) s).nonce = s.nonce := rfl
@[simp] theorem apply_links_regs (l : List (Nat × Link)) : (Eff.apply (.links l) s).regs = s.regs := rfl
@[simp] theorem apply_links_priv (l : List (Nat × Link)) : (Eff.apply (.links l) s).priv = s.priv := rfl
@[simp] theorem apply_links_shadow (l : List (Nat × Link)) : (Eff.apply (.links l) s).shadow = s.shadow := rfl
@[simp] theorem apply_links_hbm (l : List (Nat × Link)) : (Eff.apply (.links l) s).hbm = s.hbm := rfl
@[simp] theorem apply_links_bench (l : List (Nat × Link)) : (Eff.apply (.links l) s).bench = s.bench := rfl
@[simp] theorem apply_links_well (l : List (Nat × Link)) : (Eff.apply (.links l) s).well = s.well := rfl
@[simp] theorem apply_links_host (l : List (Nat × Link)) : (Eff.apply (.links l) s).host = s.host := rfl
@[simp] theorem apply_links_ecc (l : List (Nat × Link)) : (Eff.apply (.links l) s).ecc = s.ecc := rfl
@[simp] theorem apply_links_sram (l : List (Nat × Link)) : (Eff.apply (.links l) s).sram = s.sram := rfl
@[simp] theorem apply_links_esc (l : List (Nat × Link)) : (Eff.apply (.links l) s).esc = s.esc := rfl
@[simp] theorem apply_links_ops (l : List (Nat × Link)) : (Eff.apply (.links l) s).ops = s.ops := rfl
@[simp] theorem apply_links_recorded (l : List (Nat × Link)) : (Eff.apply (.links l) s).recorded = s.recorded := rfl
@[simp] theorem apply_links_marks (l : List (Nat × Link)) : (Eff.apply (.links l) s).marks = s.marks := rfl
@[simp] theorem apply_links_reqs (l : List (Nat × Link)) : (Eff.apply (.links l) s).reqs = s.reqs := rfl
@[simp] theorem apply_links_outs (l : List (Nat × Link)) : (Eff.apply (.links l) s).outs = s.outs := rfl
@[simp] theorem apply_links_hosts (l : List (Nat × Link)) : (Eff.apply (.links l) s).hosts = s.hosts := rfl
@[simp] theorem apply_links_tbl (l : List (Nat × Link)) : (Eff.apply (.links l) s).tbl = s.tbl := rfl
@[simp] theorem apply_links_sac (l : List (Nat × Link)) : (Eff.apply (.links l) s).sac = s.sac := rfl
@[simp] theorem apply_links_cells (l : List (Nat × Link)) : (Eff.apply (.links l) s).cells = s.cells := rfl
@[simp] theorem apply_links_stash (l : List (Nat × Link)) : (Eff.apply (.links l) s).stash = s.stash := rfl
@[simp] theorem apply_links_schDue (l : List (Nat × Link)) : (Eff.apply (.links l) s).schDue = s.schDue := rfl
@[simp] theorem apply_links_lpe (l : List (Nat × Link)) : (Eff.apply (.links l) s).lpe = s.lpe := rfl
@[simp] theorem apply_links_col (l : List (Nat × Link)) : (Eff.apply (.links l) s).col = s.col := rfl
@[simp] theorem apply_links_rte (l : List (Nat × Link)) : (Eff.apply (.links l) s).rte = s.rte := rfl
@[simp] theorem apply_links_links (l : List (Nat × Link)) : (Eff.apply (.links l) s).links = l := rfl
@[simp] theorem apply_links_peers (l : List (Nat × Link)) : (Eff.apply (.links l) s).peers = s.peers := rfl
@[simp] theorem apply_links_qps (l : List (Nat × Link)) : (Eff.apply (.links l) s).qps = s.qps := rfl
@[simp] theorem apply_links_clb (l : List (Nat × Link)) : (Eff.apply (.links l) s).clb = s.clb := rfl
@[simp] theorem apply_links_crown (l : List (Nat × Link)) : (Eff.apply (.links l) s).crown = s.crown := rfl

/-! ### .peers l -/

@[simp] theorem apply_peers_pending (l : List (Nat × Peer)) : (Eff.apply (.peers l) s).pending = s.pending := rfl
@[simp] theorem apply_peers_ts (l : List (Nat × Peer)) : (Eff.apply (.peers l) s).ts = s.ts := rfl
@[simp] theorem apply_peers_nonce (l : List (Nat × Peer)) : (Eff.apply (.peers l) s).nonce = s.nonce := rfl
@[simp] theorem apply_peers_regs (l : List (Nat × Peer)) : (Eff.apply (.peers l) s).regs = s.regs := rfl
@[simp] theorem apply_peers_priv (l : List (Nat × Peer)) : (Eff.apply (.peers l) s).priv = s.priv := rfl
@[simp] theorem apply_peers_shadow (l : List (Nat × Peer)) : (Eff.apply (.peers l) s).shadow = s.shadow := rfl
@[simp] theorem apply_peers_hbm (l : List (Nat × Peer)) : (Eff.apply (.peers l) s).hbm = s.hbm := rfl
@[simp] theorem apply_peers_bench (l : List (Nat × Peer)) : (Eff.apply (.peers l) s).bench = s.bench := rfl
@[simp] theorem apply_peers_well (l : List (Nat × Peer)) : (Eff.apply (.peers l) s).well = s.well := rfl
@[simp] theorem apply_peers_host (l : List (Nat × Peer)) : (Eff.apply (.peers l) s).host = s.host := rfl
@[simp] theorem apply_peers_ecc (l : List (Nat × Peer)) : (Eff.apply (.peers l) s).ecc = s.ecc := rfl
@[simp] theorem apply_peers_sram (l : List (Nat × Peer)) : (Eff.apply (.peers l) s).sram = s.sram := rfl
@[simp] theorem apply_peers_esc (l : List (Nat × Peer)) : (Eff.apply (.peers l) s).esc = s.esc := rfl
@[simp] theorem apply_peers_ops (l : List (Nat × Peer)) : (Eff.apply (.peers l) s).ops = s.ops := rfl
@[simp] theorem apply_peers_recorded (l : List (Nat × Peer)) : (Eff.apply (.peers l) s).recorded = s.recorded := rfl
@[simp] theorem apply_peers_marks (l : List (Nat × Peer)) : (Eff.apply (.peers l) s).marks = s.marks := rfl
@[simp] theorem apply_peers_reqs (l : List (Nat × Peer)) : (Eff.apply (.peers l) s).reqs = s.reqs := rfl
@[simp] theorem apply_peers_outs (l : List (Nat × Peer)) : (Eff.apply (.peers l) s).outs = s.outs := rfl
@[simp] theorem apply_peers_hosts (l : List (Nat × Peer)) : (Eff.apply (.peers l) s).hosts = s.hosts := rfl
@[simp] theorem apply_peers_tbl (l : List (Nat × Peer)) : (Eff.apply (.peers l) s).tbl = s.tbl := rfl
@[simp] theorem apply_peers_sac (l : List (Nat × Peer)) : (Eff.apply (.peers l) s).sac = s.sac := rfl
@[simp] theorem apply_peers_cells (l : List (Nat × Peer)) : (Eff.apply (.peers l) s).cells = s.cells := rfl
@[simp] theorem apply_peers_stash (l : List (Nat × Peer)) : (Eff.apply (.peers l) s).stash = s.stash := rfl
@[simp] theorem apply_peers_schDue (l : List (Nat × Peer)) : (Eff.apply (.peers l) s).schDue = s.schDue := rfl
@[simp] theorem apply_peers_lpe (l : List (Nat × Peer)) : (Eff.apply (.peers l) s).lpe = s.lpe := rfl
@[simp] theorem apply_peers_col (l : List (Nat × Peer)) : (Eff.apply (.peers l) s).col = s.col := rfl
@[simp] theorem apply_peers_rte (l : List (Nat × Peer)) : (Eff.apply (.peers l) s).rte = s.rte := rfl
@[simp] theorem apply_peers_links (l : List (Nat × Peer)) : (Eff.apply (.peers l) s).links = s.links := rfl
@[simp] theorem apply_peers_peers (l : List (Nat × Peer)) : (Eff.apply (.peers l) s).peers = l := rfl
@[simp] theorem apply_peers_qps (l : List (Nat × Peer)) : (Eff.apply (.peers l) s).qps = s.qps := rfl
@[simp] theorem apply_peers_clb (l : List (Nat × Peer)) : (Eff.apply (.peers l) s).clb = s.clb := rfl
@[simp] theorem apply_peers_crown (l : List (Nat × Peer)) : (Eff.apply (.peers l) s).crown = s.crown := rfl

/-! ### .qps l -/

@[simp] theorem apply_qps_pending (l : List (Nat × Qp)) : (Eff.apply (.qps l) s).pending = s.pending := rfl
@[simp] theorem apply_qps_ts (l : List (Nat × Qp)) : (Eff.apply (.qps l) s).ts = s.ts := rfl
@[simp] theorem apply_qps_nonce (l : List (Nat × Qp)) : (Eff.apply (.qps l) s).nonce = s.nonce := rfl
@[simp] theorem apply_qps_regs (l : List (Nat × Qp)) : (Eff.apply (.qps l) s).regs = s.regs := rfl
@[simp] theorem apply_qps_priv (l : List (Nat × Qp)) : (Eff.apply (.qps l) s).priv = s.priv := rfl
@[simp] theorem apply_qps_shadow (l : List (Nat × Qp)) : (Eff.apply (.qps l) s).shadow = s.shadow := rfl
@[simp] theorem apply_qps_hbm (l : List (Nat × Qp)) : (Eff.apply (.qps l) s).hbm = s.hbm := rfl
@[simp] theorem apply_qps_bench (l : List (Nat × Qp)) : (Eff.apply (.qps l) s).bench = s.bench := rfl
@[simp] theorem apply_qps_well (l : List (Nat × Qp)) : (Eff.apply (.qps l) s).well = s.well := rfl
@[simp] theorem apply_qps_host (l : List (Nat × Qp)) : (Eff.apply (.qps l) s).host = s.host := rfl
@[simp] theorem apply_qps_ecc (l : List (Nat × Qp)) : (Eff.apply (.qps l) s).ecc = s.ecc := rfl
@[simp] theorem apply_qps_sram (l : List (Nat × Qp)) : (Eff.apply (.qps l) s).sram = s.sram := rfl
@[simp] theorem apply_qps_esc (l : List (Nat × Qp)) : (Eff.apply (.qps l) s).esc = s.esc := rfl
@[simp] theorem apply_qps_ops (l : List (Nat × Qp)) : (Eff.apply (.qps l) s).ops = s.ops := rfl
@[simp] theorem apply_qps_recorded (l : List (Nat × Qp)) : (Eff.apply (.qps l) s).recorded = s.recorded := rfl
@[simp] theorem apply_qps_marks (l : List (Nat × Qp)) : (Eff.apply (.qps l) s).marks = s.marks := rfl
@[simp] theorem apply_qps_reqs (l : List (Nat × Qp)) : (Eff.apply (.qps l) s).reqs = s.reqs := rfl
@[simp] theorem apply_qps_outs (l : List (Nat × Qp)) : (Eff.apply (.qps l) s).outs = s.outs := rfl
@[simp] theorem apply_qps_hosts (l : List (Nat × Qp)) : (Eff.apply (.qps l) s).hosts = s.hosts := rfl
@[simp] theorem apply_qps_tbl (l : List (Nat × Qp)) : (Eff.apply (.qps l) s).tbl = s.tbl := rfl
@[simp] theorem apply_qps_sac (l : List (Nat × Qp)) : (Eff.apply (.qps l) s).sac = s.sac := rfl
@[simp] theorem apply_qps_cells (l : List (Nat × Qp)) : (Eff.apply (.qps l) s).cells = s.cells := rfl
@[simp] theorem apply_qps_stash (l : List (Nat × Qp)) : (Eff.apply (.qps l) s).stash = s.stash := rfl
@[simp] theorem apply_qps_schDue (l : List (Nat × Qp)) : (Eff.apply (.qps l) s).schDue = s.schDue := rfl
@[simp] theorem apply_qps_lpe (l : List (Nat × Qp)) : (Eff.apply (.qps l) s).lpe = s.lpe := rfl
@[simp] theorem apply_qps_col (l : List (Nat × Qp)) : (Eff.apply (.qps l) s).col = s.col := rfl
@[simp] theorem apply_qps_rte (l : List (Nat × Qp)) : (Eff.apply (.qps l) s).rte = s.rte := rfl
@[simp] theorem apply_qps_links (l : List (Nat × Qp)) : (Eff.apply (.qps l) s).links = s.links := rfl
@[simp] theorem apply_qps_peers (l : List (Nat × Qp)) : (Eff.apply (.qps l) s).peers = s.peers := rfl
@[simp] theorem apply_qps_qps (l : List (Nat × Qp)) : (Eff.apply (.qps l) s).qps = l := rfl
@[simp] theorem apply_qps_clb (l : List (Nat × Qp)) : (Eff.apply (.qps l) s).clb = s.clb := rfl
@[simp] theorem apply_qps_crown (l : List (Nat × Qp)) : (Eff.apply (.qps l) s).crown = s.crown := rfl

/-! ### .clb x -/

@[simp] theorem apply_clb_pending (x : Clb) : (Eff.apply (.clb x) s).pending = s.pending := rfl
@[simp] theorem apply_clb_ts (x : Clb) : (Eff.apply (.clb x) s).ts = s.ts := rfl
@[simp] theorem apply_clb_nonce (x : Clb) : (Eff.apply (.clb x) s).nonce = s.nonce := rfl
@[simp] theorem apply_clb_regs (x : Clb) : (Eff.apply (.clb x) s).regs = s.regs := rfl
@[simp] theorem apply_clb_priv (x : Clb) : (Eff.apply (.clb x) s).priv = s.priv := rfl
@[simp] theorem apply_clb_shadow (x : Clb) : (Eff.apply (.clb x) s).shadow = s.shadow := rfl
@[simp] theorem apply_clb_hbm (x : Clb) : (Eff.apply (.clb x) s).hbm = s.hbm := rfl
@[simp] theorem apply_clb_bench (x : Clb) : (Eff.apply (.clb x) s).bench = s.bench := rfl
@[simp] theorem apply_clb_well (x : Clb) : (Eff.apply (.clb x) s).well = s.well := rfl
@[simp] theorem apply_clb_host (x : Clb) : (Eff.apply (.clb x) s).host = s.host := rfl
@[simp] theorem apply_clb_ecc (x : Clb) : (Eff.apply (.clb x) s).ecc = s.ecc := rfl
@[simp] theorem apply_clb_sram (x : Clb) : (Eff.apply (.clb x) s).sram = s.sram := rfl
@[simp] theorem apply_clb_esc (x : Clb) : (Eff.apply (.clb x) s).esc = s.esc := rfl
@[simp] theorem apply_clb_ops (x : Clb) : (Eff.apply (.clb x) s).ops = s.ops := rfl
@[simp] theorem apply_clb_recorded (x : Clb) : (Eff.apply (.clb x) s).recorded = s.recorded := rfl
@[simp] theorem apply_clb_marks (x : Clb) : (Eff.apply (.clb x) s).marks = s.marks := rfl
@[simp] theorem apply_clb_reqs (x : Clb) : (Eff.apply (.clb x) s).reqs = s.reqs := rfl
@[simp] theorem apply_clb_outs (x : Clb) : (Eff.apply (.clb x) s).outs = s.outs := rfl
@[simp] theorem apply_clb_hosts (x : Clb) : (Eff.apply (.clb x) s).hosts = s.hosts := rfl
@[simp] theorem apply_clb_tbl (x : Clb) : (Eff.apply (.clb x) s).tbl = s.tbl := rfl
@[simp] theorem apply_clb_sac (x : Clb) : (Eff.apply (.clb x) s).sac = s.sac := rfl
@[simp] theorem apply_clb_cells (x : Clb) : (Eff.apply (.clb x) s).cells = s.cells := rfl
@[simp] theorem apply_clb_stash (x : Clb) : (Eff.apply (.clb x) s).stash = s.stash := rfl
@[simp] theorem apply_clb_schDue (x : Clb) : (Eff.apply (.clb x) s).schDue = s.schDue := rfl
@[simp] theorem apply_clb_lpe (x : Clb) : (Eff.apply (.clb x) s).lpe = s.lpe := rfl
@[simp] theorem apply_clb_col (x : Clb) : (Eff.apply (.clb x) s).col = s.col := rfl
@[simp] theorem apply_clb_rte (x : Clb) : (Eff.apply (.clb x) s).rte = s.rte := rfl
@[simp] theorem apply_clb_links (x : Clb) : (Eff.apply (.clb x) s).links = s.links := rfl
@[simp] theorem apply_clb_peers (x : Clb) : (Eff.apply (.clb x) s).peers = s.peers := rfl
@[simp] theorem apply_clb_qps (x : Clb) : (Eff.apply (.clb x) s).qps = s.qps := rfl
@[simp] theorem apply_clb_clb (x : Clb) : (Eff.apply (.clb x) s).clb = x := rfl
@[simp] theorem apply_clb_crown (x : Clb) : (Eff.apply (.clb x) s).crown = s.crown := rfl

/-! ### .crown x -/

@[simp] theorem apply_crown_pending (x : Crown) : (Eff.apply (.crown x) s).pending = s.pending := rfl
@[simp] theorem apply_crown_ts (x : Crown) : (Eff.apply (.crown x) s).ts = s.ts := rfl
@[simp] theorem apply_crown_nonce (x : Crown) : (Eff.apply (.crown x) s).nonce = s.nonce := rfl
@[simp] theorem apply_crown_regs (x : Crown) : (Eff.apply (.crown x) s).regs = s.regs := rfl
@[simp] theorem apply_crown_priv (x : Crown) : (Eff.apply (.crown x) s).priv = s.priv := rfl
@[simp] theorem apply_crown_shadow (x : Crown) : (Eff.apply (.crown x) s).shadow = s.shadow := rfl
@[simp] theorem apply_crown_hbm (x : Crown) : (Eff.apply (.crown x) s).hbm = s.hbm := rfl
@[simp] theorem apply_crown_bench (x : Crown) : (Eff.apply (.crown x) s).bench = s.bench := rfl
@[simp] theorem apply_crown_well (x : Crown) : (Eff.apply (.crown x) s).well = s.well := rfl
@[simp] theorem apply_crown_host (x : Crown) : (Eff.apply (.crown x) s).host = s.host := rfl
@[simp] theorem apply_crown_ecc (x : Crown) : (Eff.apply (.crown x) s).ecc = s.ecc := rfl
@[simp] theorem apply_crown_sram (x : Crown) : (Eff.apply (.crown x) s).sram = s.sram := rfl
@[simp] theorem apply_crown_esc (x : Crown) : (Eff.apply (.crown x) s).esc = s.esc := rfl
@[simp] theorem apply_crown_ops (x : Crown) : (Eff.apply (.crown x) s).ops = s.ops := rfl
@[simp] theorem apply_crown_recorded (x : Crown) : (Eff.apply (.crown x) s).recorded = s.recorded := rfl
@[simp] theorem apply_crown_marks (x : Crown) : (Eff.apply (.crown x) s).marks = s.marks := rfl
@[simp] theorem apply_crown_reqs (x : Crown) : (Eff.apply (.crown x) s).reqs = s.reqs := rfl
@[simp] theorem apply_crown_outs (x : Crown) : (Eff.apply (.crown x) s).outs = s.outs := rfl
@[simp] theorem apply_crown_hosts (x : Crown) : (Eff.apply (.crown x) s).hosts = s.hosts := rfl
@[simp] theorem apply_crown_tbl (x : Crown) : (Eff.apply (.crown x) s).tbl = s.tbl := rfl
@[simp] theorem apply_crown_sac (x : Crown) : (Eff.apply (.crown x) s).sac = s.sac := rfl
@[simp] theorem apply_crown_cells (x : Crown) : (Eff.apply (.crown x) s).cells = s.cells := rfl
@[simp] theorem apply_crown_stash (x : Crown) : (Eff.apply (.crown x) s).stash = s.stash := rfl
@[simp] theorem apply_crown_schDue (x : Crown) : (Eff.apply (.crown x) s).schDue = s.schDue := rfl
@[simp] theorem apply_crown_lpe (x : Crown) : (Eff.apply (.crown x) s).lpe = s.lpe := rfl
@[simp] theorem apply_crown_col (x : Crown) : (Eff.apply (.crown x) s).col = s.col := rfl
@[simp] theorem apply_crown_rte (x : Crown) : (Eff.apply (.crown x) s).rte = s.rte := rfl
@[simp] theorem apply_crown_links (x : Crown) : (Eff.apply (.crown x) s).links = s.links := rfl
@[simp] theorem apply_crown_peers (x : Crown) : (Eff.apply (.crown x) s).peers = s.peers := rfl
@[simp] theorem apply_crown_qps (x : Crown) : (Eff.apply (.crown x) s).qps = s.qps := rfl
@[simp] theorem apply_crown_clb (x : Crown) : (Eff.apply (.crown x) s).clb = s.clb := rfl
@[simp] theorem apply_crown_crown (x : Crown) : (Eff.apply (.crown x) s).crown = x := rfl

end Sys2Proof.Laws
end

