-- ==== Sys2Proof/WellFormed.lean ====
section
/-! DEFINITION. Well-formed commands: the operands a sender can produce. Each check is one line; the meaning of a command is
total and does not depend on them. -/

namespace Sys2Proof

/-- Cells a host wrote: 64-bit addresses. -/
def postedOk (l : List Host.Cell) : Bool := l.all fun c => decide (c.1 < 2 ^ 64)

/-- A BAR0 address of a register: a dword of the 64 MiB window. -/
def barOk (a : BitVec 26) : Bool := a.toNat % 4 == 0

/-- A BAR2 access of `n` bytes: one PCIe request, inside the aperture and one 4 KiB page. -/
def apertureOk (off : BitVec 36) (n : Nat) : Bool := decide (1 ≤ n ∧ off.toNat % 4096 + n ≤ 4096)

/-- Bytes a packet body says it has, where the model holds it as bytes. -/
def bodyOk (p : Packet) : Bool :=
  match p.body with
  | .raw b => p.hdr.len.toNat == b.length
  | .none => true
  | _ => decide (p.hdr.len.toNat ≠ 0)

/-- A packet that comes in over a link: LEN of at most 4,096 B, its body of that length, and not one that stands in a receive
buffer already. -/
def packetOk (p : Packet) : Bool := decide (p.hdr.len.toNat ≤ 4096) && bodyOk p && !p.wire.taken

/-- Measured points: bins 0 to 2 and margin steps 0 to 12 (R313). -/
def pointsOk (l : List (Nat × Nat)) : Bool := l.all fun x => decide (x.1 ≤ 2 ∧ x.2 ≤ 12)

/-- One result for a channel. -/
def testsOk (l : List ChTest) : Bool := (l.map fun x => x.ch).Nodup

/-- The operand checks, command by command. -/
def WellFormed (i : Instr) : Bool :=
  match i with
  | .prodWrite _ _ _ posted => postedOk posted
  | .kxDoorbellWrite _ _ posted => postedOk posted
  | .rwlWrite _ a _ => barOk a
  | .registerWrite _ a _ => barOk a
  | .bar2Read _ off n => apertureOk off n
  | .bar2Write _ off b => apertureOk off b.length
  | .hbmChannelTest res => testsOk res
  | .ageingMeasurement pass _ => pointsOk pass
  | .ageMeasure _ pass _ => pointsOk pass
  | .sensorRead vals => decide (vals.length = 96)
  | .smbusSensor n => decide (n.toNat < 96)
  | .guestGraceExpiry _ row => decide (row < 2 ^ 34)
  | .migReplyTimeout _ row => decide (row < 2 ^ 34)
  | .stompedFrame _ _ _ _ flits => decide (1 ≤ flits ∧ flits ≤ 65)
  | .routePacket (.arrived _ pk _) => packetOk pk
  | .fault _ pk => packetOk pk
  | .load _ pk => packetOk pk
  | .publish _ pk => packetOk pk
  | .time _ pk _ => packetOk pk
  | .write _ pk => packetOk pk
  | .read _ pk => packetOk pk
  | .sampleRequest _ pk => packetOk pk
  | .poolRequest _ pk => packetOk pk
  | .contrib _ pk => packetOk pk
  | .mig _ pk => packetOk pk
  | .rowUpd _ pk => packetOk pk
  | .fwd _ pk => packetOk pk
  | .writeAck _ pk => packetOk pk
  | .readData _ pk => packetOk pk
  | .sampleRsp _ pk => packetOk pk
  | .poolRsp _ pk => packetOk pk
  | .contribAck _ pk => packetOk pk
  | .migAck _ pk => packetOk pk
  | .redirect _ pk => packetOk pk
  | .stitch _ pk => packetOk pk
  | .grant _ pk => packetOk pk
  | .colGather _ pk => packetOk pk
  | .verdict _ pk => packetOk pk
  | .e2eAck _ pk => packetOk pk
  | .bar0BadAccess _ _ _ _ => true
  | .nop _ | .sample _ | .gather _ | .pool _ | .scatterAdd _ _ | .cellRun _ | .update _ _ | .reduceScatter _ _ | .allGather _ | .copy _
  | .peerXferRead _ | .peerXferWrite _ | .peerXferPool _ | .define _ | .setInactive _ | .inactiveBaseReplace _ | .flip _
  | .release _ | .releaseFree _ | .migrate _ | .stashOpen _ | .stashRelease _ | .wellClear _ | .escCtlAdd _ | .escCtlArm _
  | .escCtlReset _ | .escCtlNotify _ | .abort _ | .kxGather _ | .kxPool _ | .kxScatterAdd _ _ | .ringEnable _ _ _
  | .waitRelease _ | .admitWaiter _ | .operationComplete _ | .escCmdAdd _ _ _ _ | .escCmdArm _ _ _ _ | .escCmdReset _ _ _ _
  | .escCmdDiscard _ _ _ _ | .phaseCommit _ | .catchUpPass _ | .txnBegin _ | .txnCommit _ | .txnAbort _ | .txnIdleTimeout
  | .quietPoint | .clbImgGo _ _ | .qpContextApply _ _ _ | .rteFaultClear _ _ | .rstCell _ _ | .rstCh _ _ _ | .rstPort _ _
  | .rstDomain _ _ | .warmChipReset _ | .coldChipReset _ | .perst _ | .functionLevelReset _ | .pwrgdRise _ | .pwrgdFall
  | .pllLock | .pllUnlock | .crownBoot _ _ | .setpointTimeout | .calibreLoad _ | .ready | .stepMark | .rackRefLock
  | .thermTrip | .hwForcedThrottle | .throttleAdjust | .crownRestart _ _ | .crownWatchdog | .bootRetry _ _ | .fwStage _
  | .faultLogFlashWrite | .smbusStatus | .smbusTj | .logProd | .logRead _ | .setpointAck _ | .arrayInstruction _ _ | .wgrad _ _
  | .wellAdd _ _ | .stashStore _ _ | .stashTest _ _ _ | .stashLoad _ _ | .vectorArithmetic _ _ | .conversion _ _
  | .transcendental _ _ | .reduction _ _ | .accumulatorRead _ _ | .contiguousLoadStore _ _ | .benchGather _ _
  | .benchScatter _ _ | .benchScatterAdd _ _ | .cellEscapementOp _ _ _ _ | .uitHoldExpiry | .regulatorRecompute _
  | .loupeLatch _ | .patrolScrub | .sramScrub | .linkAligned _ _ | .trainingTimeout _ _ | .trainingRetry _ _
  | .alignmentLoss _ _ | .helloSend _ _ | .hello _ _ _ | .discoveryTimeout _ | .adoption | .linkControlFrame _ _ _
  | .lcfSend _ _ | .llrAckTimeout _ _ | .badHeaderFrame _ _ _ _ | .routePacket (.injected _) | .loadWindow | .timeSend _
  | .busyReissue _ | .sampleRemoteTimeout _ | .poolRemoteTimeout _ | .contribAckTimeout _ | .stragglerDeadline _
  | .colTimeout _ | .oldClear | .unacceptedFrame _ _ _ | .pfcFrame _ _ _ | .pfcXoffRepeat _ _ _ | .pfcWatchdog _ _ _
  | .ecnFlagTimer _ | .ecnRateRaise _ | .arp _ _ _ _ | .neighbourSolicitation _ _ _ _ | .echoRequest _ _ _ _
  | .peerHelloSend _ | .peerHello _ _ _ _ | .peerDown _ | .e2eRetransmit _ _ _ | .dedupKeyExpiry _ _ _ | .rdmaWrite _ _
  | .rdmaRead _ _ | .send _ _ | .cnp _ | .roceAck _ _ _ | .answerRetransmit _ | .verdictWaitTimeout _
  | .stackTempThreshold _ _ | .pfcPauseExpiry _ _ _ | .rackRefLoss | .pcieLinkUp _ | .pllLockTimeout
  | .uncorrectableCodeword _ _ _ | .resetComplete _ => true

end Sys2Proof
end

