-- ==== Sys2Proof/Tests/Slice0.lean ====
section
/-! SUPPORT. The model's own tests: for every statement with hypotheses a state that meets them (`witness_`), an ill-formed
term for each check (`smoke_`), and single steps with results the spec or a named standard gives (`test_`). -/

namespace Sys2Proof.Tests

open Machine

set_option Elab.async false

/-- A state with these shared registers written. -/
def setR (l : List (Nat × Nat)) (s : State) : State :=
  { s with regs := l.foldl (fun m x => regPut keyShared m x.1 (BitVec.ofNat 32 x.2)) s.regs }

/-- A state with these registers of a domain written. -/
def setP (d : Nat) (l : List (Nat × Nat)) (s : State) : State :=
  { s with priv := l.foldl (fun m x => regPut keyPriv m (privKey d x.1) (BitVec.ofNat 32 x.2)) s.priv }

/-- A chip after READY: one HBM channel, Crown runs, the PLLs are locked, every host is present. -/
def rdy : State :=
  setR [(MEM, 1), (MEM + 0x3008, 1), (CLK, 1), (RST_STATUS, 7), (CRN_STATUS, 1),
      (hdmW 0 8, 0xFFFFFFFF), (hdmW 0 0x10, 1023 <<< 10)]
    { State.reset with hosts := { State.reset.hosts with present := 15 }, crown := { State.reset.crown with pwrgd := true } }

/-- A descriptor from its fields: bit offset and value. -/
def dsc (l : List (Nat × Nat)) : BitVec 512 := BitVec.ofNat 512 (l.map fun x => x.2 <<< x.1).sum

def refOf (d : Fin 4) (r : Fin 66) (i : Nat) : OpRef := ⟨d, r, BitVec.ofNat 32 i⟩

/-- An operation with its descriptor. -/
def opOf (r : OpRef) (p : OpPhase) (desc : BitVec 512) : Op :=
  { ref := r, desc := desc, phase := p, t0 := 0, delay := 0, delayed := false, eng := 0, step := 0, gener := false, cap := 0, capB := 0,
    hold := [], status := 0, admitAs := 0, detail := 0, detail64 := none, counts := 0, decTs := 0, cache := [], out := [], region := [],
    work := .none, seq := 0, uitLeft := none }

/-- What `Inv` asks, as one condition. -/
def invB (s : State) : Bool :=
  s.hbm.wf && s.bench.wf && s.well.wf && s.host.wf && s.cells.vreg.wf && regsWf keyShared s.regs && regsWf keyPriv s.priv
  && mapOrd none s.esc && s.esc.all fun x => x.2.st != .armed || decide (x.2.count.toNat < x.2.target.toNat)

theorem inv_of {s : State} (h : invB s = true) : Inv s := by
  simp only [invB, Bool.and_eq_true, List.all_eq_true, Bool.or_eq_true, bne_iff_ne, decide_eq_true_eq] at h
  obtain ⟨⟨⟨⟨⟨⟨⟨⟨h1, h2⟩, h3⟩, h4⟩, h5⟩, h6⟩, h7⟩, h8⟩, h9⟩ := h
  refine ⟨⟨h1, h2, h3, h4, h5, h6, h7⟩, h8, fun i e m a => ?_⟩
  rcases h9 (i, e) m with h | h
  · exact absurd a h
  · exact h

def benchA (c o : Nat) : Nat := 2 ^ 62 + c * 2 ^ 32 + o
def wellA (o : Nat) : Nat := 2 ^ 62 + 0x20 * 2 ^ 32 + o

def farA (c o : Nat) : Nat := 2 ^ 63 + c * 2 ^ 52 + o

def tblA (t r o : Nat) : Nat := 3 * 2 ^ 62 + t * 2 ^ 50 + r * 2 ^ 16 + o

/-- The chip in a slice of two, its X+ neighbour UP on port 1. -/
def net : State := setR [(RTE, 1), (fabW 1 0, 0x41), (fabW 1 4, 0x44), (fabW 1 8, 1 + 9 * 2 ^ 24)] rdy

def hdrOf (cls opc src dst : Nat) (tag : Nat) : Hdr :=
  { ver := 3, cls := BitVec.ofNat 4 cls, vc := 0, epoch := 0, mcast := 0, dst := BitVec.ofNat 18 dst, src := BitVec.ofNat 18 src, inc := 9,
    flags := 0, op := BitVec.ofNat 8 opc, len := 0, seq := 0, esc := 0xFFFF, hd := 0, rsv := 0, addr := 0, gen := 0,
    optag := BitVec.ofNat 16 tag, cnt := 1 }

/-- A table of 100 rows of 16 fp32 elements, all of them on this chip. -/
def tdD : TDesc :=
  { active := false, migMode := 0, fmt := 0, rule := 0, plink := false, group := 0, dom := 0, ver := 7, baseA := 0x100000, baseB := 0x200000,
    rows := 100, rowBytes := 64, drain := 20, stretch := 100, map := 0x1000, state := 0x300000, touch := 0x400000, inactNew := false,
    releasing := false, bad := false, sr := false }

def withTbl (d : TDesc) (s : State) : State := { s with tbl := { s.tbl with desc := mapSet s.tbl.desc 5 d } }

/-- A request slot. -/
def reqOf (tag : Nat) (op : Option OpRef) (kind : ReqKind) (pk : Packet) : Req :=
  { optag := BitVec.ofNat 16 tag, via := none, op := op, dest := 1, inc := some 9, kind := kind, pk := pk, redirects := 0, busy := false,
    since := 0, left := 1, direct := false }

/-! ### Operations without an engine -/

def r0 : OpRef := refOf 0 3 5
def r1 : OpRef := refOf 0 3 6

def nopSt : State := { rdy with ops := [opOf r0 .ready 0] }

theorem witness_NopEndsOk : OpAt nopSt r0 (opOf r0 .ready 0) .ready 0 := by decide +kernel

/-- ESC_CTL on escapement 7 of generation 2. -/
def ecOp (sub arg : Nat) : Op := opOf r0 .ready (dsc [(0, 0x0C), (128, sub), (144, 7), (160, 2), (192, arg)])
def esc7 (st : EscState) (gen : Nat) : Esc := ⟨4, if st == .idle then 0 else 6, BitVec.ofNat 16 gen, st, false, 9⟩
def ecSt (sub arg : Nat) (e : Esc) : State := { rdy with ops := [ecOp sub arg], esc := [(7, e)] }

theorem witness_EscCtlAppliesTheTable : ∀ sub ∈ [0, 1, 2, 3],
    let s := ecSt sub 5 (esc7 .armed 2)
    let o := ecOp sub 5
    invB s = true ∧ OpAt s r0 o .ready 0x0C ∧ EscSound s (escCtl o) ∧ NoWaiter s (escCtl o)
      ∧ (escAt s (escCtl o)).gen.toNat = escCtlGen o ∧ escSub o = sub ∧ (escAt s (escCtl o)).st ∈ [EscState.idle, .armed] := by
  decide +kernel

/-- The discards: another generation, and a state the operation does not apply in. -/
theorem witness_EscCtlAppliesTheTable_discards :
    (∀ sub ∈ [0, 1, 2, 3],
      let s := ecSt sub 5 (esc7 .armed 3)
      let o := ecOp sub 5
      invB s = true ∧ OpAt s r0 o .ready 0x0C ∧ EscSound s (escCtl o) ∧ NoWaiter s (escCtl o)
        ∧ (escAt s (escCtl o)).gen.toNat ≠ escCtlGen o ∧ escSub o = sub)
    ∧ (∀ c ∈ [(0, EscState.faulted), (0, .aborted), (1, .fired), (1, .faulted), (1, .aborted)],
      let s := ecSt c.1 5 (esc7 c.2 2)
      let o := ecOp c.1 5
      invB s = true ∧ OpAt s r0 o .ready 0x0C ∧ EscSound s (escCtl o) ∧ NoWaiter s (escCtl o)
        ∧ (escAt s (escCtl o)).gen.toNat = escCtlGen o ∧ escSub o = c.1 ∧ (escAt s (escCtl o)).st = c.2) := by
  decide +kernel

/-- Domain 1 owns escapements 0 to 9. -/
def ecmdSt : State := setR [(hdmW 1 0x20, 9 <<< 16)] { rdy with esc := [(7, esc7 .armed 2)] }

theorem witness_EscCmdAppliesTheTable :
    invB ecmdSt = true ∧ HostExpert ecmdSt 1 ∧ escIn ecmdSt 1 7 = true ∧ EscSound ecmdSt 7 ∧ NoWaiter ecmdSt 7
      ∧ (escAt ecmdSt 7).gen = 2 ∧ (escAt ecmdSt 7).gen ≠ 3 ∧ (escAt ecmdSt 7).st ∈ [EscState.idle, .armed]
      ∧ escIn ecmdSt 1 10 = false ∧ ¬ HostExpert (setR [(hdmW 1 4, 3)] ecmdSt) 1 := by decide +kernel

/-! ### Rings -/

/-- An ABORT, in ring 3 at index 5, of the descriptor at index `i` of ring 4. -/
def abOp (i : Nat) : Op := opOf r0 .ready (dsc [(0, 0x0D), (128, 4), (160, i)])
def abSt (i : Nat) (l : List Op) : State :=
  setP 0 [(ringW 0 4 4, 1 + 2 * 6), (ringW 0 4 5, 10), (ringW 0 4 7, 2), (ringW 0 4 6, 6)] { rdy with ops := abOp i :: l, recorded := [refOf 0 4 3] }

/-- The descriptor at index 4 of ring 4. -/
def victim (p : OpPhase) (desc : BitVec 512) : Op := opOf (refOf 0 4 4) p desc

theorem witness_AbortFollowsItsTarget :
    (∀ i ∈ [10, 1, 3], let s := abSt i []
      invB s = true ∧ OpAt s r0 (abOp i) .ready 0x0D ∧ Bare (abOp i)
        ∧ (i = 10 → abortTop s (abOp i) ≤ abortPlace s (abOp i)) ∧ (i = 1 ∨ i = 3 → abortPlace s (abOp i) < abortTop s (abOp i))
        ∧ (i = 1 → abortPlace s (abOp i) < workSize s 0 4) ∧ (i = 3 → s.recorded.contains (abortRef (abOp i)) = true))
    ∧ AbortOpen (abSt 7 []) (abOp 7) ∧ findOp (abSt 7 []) (abortRef (abOp 7)) = none
    ∧ (∀ x ∈ [victim .waitEsc 0, victim .waitCap 8, victim .ready 8, victim .ready 0, victim .ready 0x0D, victim .decided 0x0D],
      let s := abSt 4 [x]
      invB s = true ∧ OpAt s r0 (abOp 4) .ready 0x0D ∧ AbortOpen s (abOp 4) ∧ findOp s (abortRef (abOp 4)) = some x ∧ Bare x)
    ∧ committed (victim .ready 8) = false ∧ committed (victim .ready 0) = true ∧ (victim .ready 0).code ≠ 0x0D
    ∧ (victim .ready 0x0D).code = 0x0D := by decide +kernel

/-- Ring 4 of domain 0, enabled, 64 entries, empty at index 8; its descriptors at 0x10000 and its records at 0x20000 of host memory. -/
def ringSt (l : List (Nat × Nat)) : State :=
  setP 0 ([(ringW 0 4 0, 0x10000), (ringW 0 4 2, 0x20000), (ringW 0 4 4, 1 + 2 * 6), (ringW 0 4 5, 8), (ringW 0 4 6, 8), (ringW 0 4 7, 8)] ++ l) rdy

theorem witness_DoorbellsSetProdOrAreRejected :
    let s := setR [(RST_STATUS, 6)] (ringSt [])
    let k := setR [(hdmW 0 4, 3), (RST_STATUS, 6)] rdy
    invB s = true ∧ HostExpert s 0 ∧ ringEn s 0 5 = false ∧ isReady s = false ∧ ringEn s 0 4 = true
      ∧ sub32 20 (ringDone s 0 4) ≤ workSize s 0 4 ∧ workSize s 0 4 < sub32 200 (ringDone s 0 4)
      ∧ invB k = true ∧ k.hosts.present.getLsbD 0 = true ∧ basicLevel k 0 = true ∧ isReady k = false ∧ sub32 9 (kxDone k 0) ≤ kxSize k 0
      ∧ kxSize k 0 < sub32 99 (kxDone k 0) := by decide +kernel

theorem witness_RingsStartAndFetch :
    let s := ringSt []
    let desc := leNat (hostRead s none 0 (ringBase s 0 4 0 + 64 * (ringHead s 0 4 % workSize s 0 4)) 64)
    invB s = true ∧ HostExpert s 0 ∧ isReady s = true ∧ ringEn s 0 4 = true ∧ s.hosts.resetDom.getLsbD 0 = false
      ∧ bit (regOf s (hdmW 0 4)) 0 = true ∧ 9 = (ringHead s 0 4 + 1) % 2 ^ 32 ∧ sub32 (ringHead s 0 4) (ringDone s 0 4) < workSize s 0 4
      ∧ sub32 9 (ringDone s 0 4) ≤ workSize s 0 4 ∧ (∀ o ∈ s.ops, o.d = 0 → o.ref.ring.val = 4 → o.phase ≠ .waitEsc ∧ o.phase ≠ .waitCap)
      ∧ findOp s (refOf 0 4 8) = none ∧ s.marks.contains (refOf 0 4 8) = false ∧ desc % 2 ^ 16 = 0 ∧ desc / 2 ^ 48 = 0
      ∧ ringEn s 0 5 = false ∧ bit 1 0 = true := by decide +kernel

/-- A NOP, the last descriptor posted, waits on escapement 9 of generation 1 for COUNT 3. -/
def weOp (code : Nat) : Op := opOf (refOf 0 4 8) .waitEsc (dsc [(0, code), (8, 1), (80, 9), (96, 1), (112, 3)])
def weSt (e : Esc) : State := { ringSt [(ringW 0 4 5, 9)] with ops := [weOp 0], esc := [(9, e)] }

theorem witness_WaitReleaseJudgesTheCondition :
    (∀ e ∈ [(⟨2, 0, 1, .idle, false, 0⟩ : Esc), ⟨3, 0, 1, .idle, false, 0⟩, ⟨3, 0, 2, .idle, false, 0⟩],
      invB (weSt e) = true ∧ findOp (weSt e) (refOf 0 4 8) = some (weOp 0) ∧ (weOp 0).phase = .waitEsc ∧ EscSound (weSt e) (weOp 0).waitEsc
        ∧ Bare (weOp 0) ∧ LastPosted (weSt e) (refOf 0 4 8) ∧ (weOp 0).code = 0 ∧ zeroBad (weOp 0) = false
        ∧ waitDead (weSt e) (weOp 0) = (e.gen == 2) ∧ waitOver (weSt e) (weOp 0) = (e.count == 3)) := by decide +kernel

/-- The last descriptor posted waits for an entry of its engine: an UPDATE, or a COPY from host memory to the well. -/
def admOp (code : Nat) : Op :=
  opOf (refOf 0 4 8) .waitCap (dsc ([(0, code)] ++ if code = 8 then [(128, 1), (192, 0x30000), (256, wellA 64), (320, 100)] else []))
def admSt (code : Nat) : State := { ringSt [(ringW 0 4 5, 9)] with ops := [admOp code] }
def admGen : State := setR [(hdmW 0 0x50, 2 ^ 8)] (admSt 6)

theorem witness_AdmitWaiterAdmitsTheOldest :
    invB admGen = true ∧ eligible admGen 4 = some (admOp 6) ∧ findOp admGen (admOp 6).ref = some (admOp 6)
      ∧ LastPosted admGen (admOp 6).ref ∧ Bare (admOp 6) ∧ inGeneration admGen (admOp 6).d = true ∧ learningOp (admOp 6) = true
      ∧ invB (admSt 8) = true ∧ eligible (admSt 8) 6 = some (admOp 8) ∧ findOp (admSt 8) (admOp 8).ref = some (admOp 8)
      ∧ LastPosted (admSt 8) (admOp 8).ref ∧ Bare (admOp 8) ∧ (admOp 8).code = 8 ∧ zeroBad (admOp 8) = false ∧ cpHostSrc (admOp 8) = true
      ∧ cpHostDst (admOp 8) = false ∧ Loc.ofAddr (cpDst (admOp 8)) = .well 64 ∧ 0 < cpBytes (admOp 8) ∧ cpBytes (admOp 8) ≤ 268435456
      ∧ 64 + cpBytes (admOp 8) ≤ wellSize ∧ cpSrc (admOp 8) + cpBytes (admOp 8) ≤ 2 ^ 64
      ∧ cpDst (admOp 8) + cpBytes (admOp 8) ≤ 2 ^ 64 := by decide +kernel

/-! ### Completion and transfers -/

def cplOp (en : Nat) (st : Nat) : Op := { opOf (refOf 0 4 8) .decided (dsc [(8, 2 * en), (48, 9), (64, 1)]) with status := BitVec.ofNat 8 st }
def cplSt (o : Op) (e : Esc) : State := { ringSt [(ringW 0 4 5, 9), (ringW 0 4 6, 9)] with ops := [o], esc := [(9, e)] }

theorem witness_CompletionWritesTheRecord :
    let o := cplOp 0 OK
    let s := cplSt o ⟨1, 0, 1, .idle, false, 0⟩
    let r := refOf 0 4 8
    invB s = true ∧ findOp s r = some o ∧ o.phase = .decided ∧ LastPosted s r ∧ o.out = [] ∧ o.hold = [] ∧ o.cplEn = false ∧ o.irq = false
      ∧ o.admitAs = 0 ∧ o.ref.idx.toNat = ringDone s 0 4 ∧ (∀ x ∈ s.recorded, ¬(x.dom = r.dom ∧ x.ring = r.ring))
      ∧ ringHead s 0 4 = ringProd s 0 4 := by decide +kernel

def escR : State → State := setR [(hdmW 0 0x20, 99 <<< 16)]

theorem witness_CompletionWritesTheRecord_escapement :
    ∀ c ∈ [(OK, 1), (ABORTED, 1), (BAD_DESCRIPTOR, 1), (OK, 2)],
      let o := cplOp 1 c.1
      let s := escR (cplSt o ⟨1, 0, BitVec.ofNat 16 c.2, .idle, false, 0⟩)
      let r := refOf 0 4 8
      invB s = true ∧ findOp s r = some o ∧ o.phase = .decided ∧ LastPosted s r ∧ o.out = [] ∧ o.hold = [] ∧ o.cplEn = true
        ∧ escIn s o.d o.cplEsc = true ∧ EscSound s o.cplEsc ∧ NoWaiter s o.cplEsc ∧ o.admitAs = 0 ∧ o.code ≠ 0x0D
        ∧ ringHead s 0 4 = ringProd s 0 4 ∧ (escAt s o.cplEsc).st ∈ [EscState.idle, .armed, .fired]
        ∧ ((escAt s o.cplEsc).gen.toNat = o.cplGen ↔ c.2 = 1) ∧ (o.status.toNat / 16 = 0 ↔ c.1 = OK) := by decide +kernel

/-- A COPY of 100 bytes. -/
def cpyOp (flags src dst : Nat) : Op := opOf r0 .ready (dsc [(0, 8), (128, flags), (192, src), (256, dst), (320, 100)])
def cpySt (flags src dst : Nat) : State := { rdy with ops := [cpyOp flags src dst], hbm := ⟨[(0x5000, 1), (0x5001, 2)], []⟩ }

theorem witness_CopyAndPeerXferMoveTheBytes :
    (let o := cpyOp 1 0x30000 (wellA 64)
     let s := cpySt 1 0x30000 (wellA 64)
     OpAt s r0 o .ready 8 ∧ o.work = .none ∧ reqsOf s r0 = [] ∧ cpHostSrc o = true ∧ cpHostDst o = false
       ∧ LandsAt s o false (cpDst o) (cpBytes o) (.well 64))
    ∧ (let o := cpyOp 2 0x5000 0x40000
       let s := cpySt 2 0x5000 0x40000
       OpAt s r0 o .ready 8 ∧ o.work = .none ∧ reqsOf s r0 = [] ∧ cpHostSrc o = false ∧ cpHostDst o = true
         ∧ FetchesAt s o false (cpSrc o) (cpBytes o) (.hbm 0x5000))
    ∧ (let o := cpyOp 0 0x5000 (benchA 3 64)
       let s := cpySt 0 0x5000 (benchA 3 64)
       OpAt s r0 o .ready 8 ∧ o.work = .none ∧ reqsOf s r0 = [] ∧ cpHostSrc o = false ∧ cpHostDst o = false
         ∧ FetchesAt s o false (cpSrc o) (cpBytes o) (.hbm 0x5000) ∧ LandsAt s o false (cpDst o) (cpBytes o) (.bench 3 64)) := by
  decide +kernel

/-- A COPY from host memory into row 3 of table 5. -/
def cpyRow : Op := { opOf r0 .ready (dsc [(0, 8), (128, 1), (192, 0x30000), (256, tblA 5 3 0), (320, 40)]) with hold := [(5, false, 7)] }
def cpyRowSt : State := { withTbl tdD (setR [(hdmW 0 0x24, 9 <<< 16)] rdy) with ops := [cpyRow] }

theorem witness_CopyAndPeerXferMoveTheBytes_row :
    let s := cpyRowSt
    let o := cpyRow
    invB s = true ∧ OpAt s r0 o .ready 8 ∧ o.work = .none ∧ reqsOf s r0 = [] ∧ cpHostSrc o = true ∧ cpHostDst o = false ∧ 0 < cpBytes o
      ∧ Loc.ofAddr (cpDst o) = .table 5 3 0 ∧ tdGet s 5 = some tdD ∧ (o.hold.find? fun h => h.1 == 5) = some (5, tdD.active, 7)
      ∧ placeHeld o.hold s o.d (cpDst o) (cpBytes o) false = .here (.hbm (0x100000 + 64 * 3)) ∧ HbmSound s ∧ s.tbl.migs = [] := by
  decide +kernel

/-- A PEER_XFER of 100 bytes with peer 2, and a POOL of it whose block is 132 bytes. -/
def pxOp (sub : Nat) : Op :=
  opOf r0 .ready (dsc ([(0, 9), (128, 2), (136, sub), (192, 0x5000), (256, 0x7000), (320, if sub = 2 then 132 else 100)]
    ++ if sub = 2 then [(352, 64), (384, 0x6000)] else []))
def pxSt (sub : Nat) : State := { rdy with ops := [pxOp sub], hbm := ⟨[(0x5000, 1), (0x5001, 2)], []⟩ }

/-- The work of a sum over one row of sixteen elements, and the block that asks for it: table 5, one index, one segment. -/
def poolW : PoolWork :=
  { uniq := [(0, 3)], slots := [0], segs := [1], maxv := [], sums := [(0, List.replicate 16 xsZero)],
    rowsIn := [(3, List.replicate 64 1)], rounds := 1, merging := [] }
def pxBlock : List Byte := leBytes 4 0 ++ leBytes 4 (5 + 1 * 2 ^ 12) ++ leBytes 4 1 ++ leBytes 4 1 ++ leBytes 48 0 ++ leBytes 4 0 ++ leBytes 4 1
  ++ leBytes 56 0 ++ leBytes 4 3
def pxPool : Op := { pxOp 2 with phase := .running, work := .pool poolW, cache := ((List.range 132).zip pxBlock).map fun x => (2 ^ 64 + x.1, x.2) }

theorem witness_CopyAndPeerXferMoveTheBytes_peer :
    (OpAt (pxSt 0) r0 (pxOp 0) .ready 9 ∧ pxSub (pxOp 0) = 0 ∧ 0 < pxBytes (pxOp 0) ∧ pxBytes (pxOp 0) ≤ peerCap (pxSt 0) (pxPeer (pxOp 0)))
    ∧ (OpAt (pxSt 1) r0 (pxOp 1) .ready 9 ∧ pxSub (pxOp 1) = 1 ∧ (pxOp 1).work = .none ∧ pxBytes (pxOp 1) ≤ peerCap (pxSt 1) (pxPeer (pxOp 1))
      ∧ FetchesAt (pxSt 1) (pxOp 1) false (pxLocal (pxOp 1)) (pxBytes (pxOp 1)) (.hbm 0x5000))
    ∧ (let s := { rdy with ops := [pxPool] }
      OpAt s r0 pxPool .running 9 ∧ pxSub pxPool = 2 ∧ pxPool.work = .pool poolW ∧ (∃ k, pxBlk pxPool = some k
        ∧ (poolRows k.agg k.bf16 (pxElems s k.table poolW) poolW).length = 64) ∧ reqsOf s r0 = []
        ∧ 64 ≤ pxOutN pxPool ∧ LandsAt s pxPool false (pxOut pxPool) 64 (.hbm 0x6000)) := by
  refine ⟨by decide +kernel, by decide +kernel, by decide +kernel, by decide +kernel, by decide +kernel,
    ⟨⟨0, 5, 1, false, [0, 1], [3], []⟩, by decide +kernel, by decide +kernel⟩, by decide +kernel⟩

/-! ### GATHER and POOL -/

/-- A GATHER (2) or POOL (3) of row 3 of table 5 to 0x6000, its row in. -/
def gpOp (code : Nat) (r : OpRef) : Op :=
  { opOf r .running (dsc [(0, code), (128, 5), (140, if code = 3 then 1 else 0), (160, 1), (320, 1), (384, 0x6000)]) with work := .pool poolW, uitLeft := some 0 }
def gpSt (code : Nat) (r : OpRef) : State := { withTbl tdD rdy with ops := [gpOp code r] }

theorem witness_GatherAndPoolWriteTheirResult :
    ∀ r ∈ [r0, refOf 0 64 5],
      (let s := gpSt 3 r
       findOp s r = some (gpOp 3 r) ∧ (gpOp 3 r).phase ∈ [OpPhase.ready, .running, .waitRes] ∧ (gpOp 3 r).work = .pool poolW
         ∧ (gpOp 3 r).uitLeft = some 0
         ∧ tdGet s (gthTable (gpOp 3 r)) = some tdD ∧ reqsOf s r = [] ∧ (gpOp 3 r).code = 3
         ∧ LandsAt s (gpOp 3 r) false (gthOut (gpOp 3 r)) (poolImage (gpOp 3 r) tdD poolW).length (.hbm 0x6000))
      ∧ (let s := gpSt 2 r
       findOp s r = some (gpOp 2 r) ∧ tdGet s (gthTable (gpOp 2 r)) = some tdD ∧ reqsOf s r = [] ∧ (gpOp 2 r).code = 2
         ∧ ∀ x ∈ gathPieces tdD poolW, LandsAt s (gpOp 2 r) false (gthOut (gpOp 2 r) + x.1) x.2.length (.hbm (0x6000 + x.1))) := by
  decide +kernel

/-- A request of chip 1 for a row of table 5, and its packet under a class. -/
def prq (row ver : Nat) : PoolReq := ⟨5, BitVec.ofNat 32 ver, 0, 0, [(row, 0, 0)]⟩
def prPk (cls row ver : Nat) : Packet := .of (hdrOf cls 0x13 1 0 77) (.poolReq (prq row ver))
def prSt : State := { withTbl tdD net with hbm := ⟨[(0x100000 + 64 * 3, 1), (0x100000 + 64 * 3 + 1, 2)], []⟩ }

theorem witness_PoolRequestsAreServedAndJoined :
    (∀ cls ∈ [0, 2], (prPk cls 3 7).body = .poolReq (prq 3 7) ∧ tdGet prSt (prq 3 7).table = some tdD ∧ isReady prSt = true
      ∧ FromTorus prSt 1 (prPk cls 3 7) cls 0x13 ∧ slotFree prSt = true ∧ (prq 3 7).agg = 0 ∧ baseOfVersion tdD (prq 3 7).ver.toNat = some false ∧ 3 < tdD.rows
      ∧ 0 < tdD.rowBytes ∧ tdD.rowBytes ≤ 4096 ∧ ownsRow prSt 5 tdD 3 = true ∧ tblBad prSt 5 3 = false ∧ ovFind prSt 5 3 = none
      ∧ Readable prSt (.hbm ((rowAt prSt 5 tdD 3).base false)) tdD.rowBytes
      ∧ baseOfVersion tdD (prq 3 9).ver.toNat = none ∧ (∃ e ∈ (prq 100 7).entries, tdD.rows ≤ e.1)) := by decide +kernel

/-- A POOL of one row that waits for two answers, and the answer to the first. -/
def pjOp : Op := { gpOp 3 r0 with work := .pool { poolW with rowsIn := [] } }
def pjPk : Packet := .of (hdrOf 1 0x93 1 0 40) (.poolRsp [(0, .rows [(3, List.replicate 64 1)])] 0 [])
def pjQ (tag : Nat) : Req := reqOf tag (some r0) .pool (.of (hdrOf 0 0x13 0 1 tag) (.poolReq (prq 3 7)))
def pjSt : State := { withTbl tdD net with ops := [pjOp], reqs := [pjQ 40, pjQ 41] }

theorem witness_PoolRequestsAreServedAndJoined_answer :
    Answers pjSt 1 pjPk 0x93 (pjQ 40) ∧ (pjQ 40).kind = .pool ∧ (pjQ 40).via = none ∧ (pjQ 40).left = 1
      ∧ (pjQ 40).pk.body = .poolReq (prq 3 7) ∧ pjPk.body = .poolRsp [(0, .rows [(3, List.replicate 64 1)])] 0 []
      ∧ (pjQ 40).op = some r0 ∧ findOp pjSt r0 = some pjOp ∧ pjOp.code ∈ [2, 3] ∧ pjOp.phase = .running ∧ pjOp.uitLeft = some 0
      ∧ pjOp.work = .pool { poolW with rowsIn := [] } ∧ tdGet pjSt (gthTable pjOp) = some tdD ∧ (prq 3 7).agg = 0
      ∧ (∃ y ∈ pjSt.reqs, y.op = some r0 ∧ y.optag ≠ (pjQ 40).optag) := by decide +kernel

/-- An operation with a request unanswered for 300 µs. -/
def rtSt (k : ReqKind) (code : Nat) : State :=
  { net with
    ops := [opOf r0 .running (dsc [(0, code)])], ts := 300000,
    reqs := [reqOf 40 (some r0) k (.of (hdrOf 0 0x13 0 1 40) (if k = .contrib then .contrib 1 5 3 [0] else .none))] }

theorem witness_RemoteTimeoutsEndTheOperation :
    ∀ c ∈ [(ReqKind.pool, 3), (.contrib, 4), (.sample 0 [], 1), (.write, 1)],
      let s := rtSt c.1 c.2
      ∃ q ∈ s.reqs, ∃ o, findOp s r0 = some o ∧ o.phase ≠ .decided ∧ q.op = some r0 ∧ q.kind = c.1 ∧ o.code = c.2
        ∧ q.since + 1000 * fld (regOf s (GTH + 12)) 16 16 ≤ s.ts ∧ q.since + 1000 * fld (regOf s (SMP + 8)) 16 16 ≤ s.ts := by
  intro c hc
  refine ⟨_, List.mem_singleton.2 rfl, opOf r0 .running (dsc [(0, c.2)]), ?_⟩
  revert hc; revert c; decide +kernel

/-! ### Tables and phases -/

/-- A TABLE_CTL on table 5. -/
def tcOp (sub arg : Nat) (p : OpPhase) : Op := opOf r0 p (dsc [(0, 0x0A), (128, 5), (140, sub), (192, arg), (256, if sub = 4 then 1 else 0)])

/-- The image of `tdD`. -/
def tdImg : Nat :=
  [(0, 5), (32, 7), (64, 0x100000), (128, 0x200000), (192, 100), (256, 63), (272, 20), (288, 100), (320, 0x1000), (384, 0x300000),
    (448, 0x400000)].foldl (fun a x => a + x.2 * 2 ^ x.1) 0

def defSt (td : Option TDesc) : State :=
  let s := escR { rdy with ops := [tcOp 0 0x5000 .ready],
                           hbm := ⟨((List.range 64).zip (leBytes 64 tdImg)).filterMap fun x => if x.2 = 0 then none else some (0x5000 + x.1, x.2), []⟩ }
  match td with | some d => withTbl d s | none => s

theorem witness_DefineTakesTheImage :
    (let s := defSt none
     let o := tcOp 0 0x5000 .ready
     let img := leNat (bytesAt s o.who (.hbm 0x5000) 64)
     let d := tdOfBits img o.d
     invB s = true ∧ OpAt s r0 o .ready 0x0A ∧ tcSub o = 0 ∧ FetchesAt s o false (tcArg o) 64 (.hbm 0x5000) ∧ Bare o ∧ d = tdD
       ∧ tdGet s (tcTable o) = none ∧ imgBad s o.d (some (tcTable o)) img = false ∧ 0 < mapCount d.rows d.stretch
       ∧ Readable s (.hbm d.map) (4 * mapCount d.rows d.stretch)
       ∧ mapBad s ((chunks 4 (bytesAt s o.who (.hbm d.map) (4 * mapCount d.rows d.stretch))).map leNat) = false)
    ∧ (let s := defSt (some tdD)
       let o := tcOp 0 0x5000 .ready
       OpAt s r0 o .ready 0x0A ∧ FetchesAt s o false (tcArg o) 64 (.hbm 0x5000) ∧ Bare o ∧ tdGet s (tcTable o) ≠ none) := by decide +kernel

/-- Table 5 with an operation on it, its drain escapement in this state. -/
def tcSt (o : Op) (e : EscState) : State :=
  withTbl tdD (escR { rdy with ops := [o], esc := [(20, ⟨0, if e = .armed then 1 else 0, 3, e, false, 0⟩)] })

theorem witness_SetInactiveReplacesTheBase :
    ∀ c ∈ [(OpPhase.ready, EscState.fired), (.ready, .armed), (.waitRes, .fired)],
      let o := tcOp 1 0x800000 c.1
      let s := tcSt o c.2
      invB s = true ∧ tdGet s (tcTable o) = some tdD ∧ tcSub o = 1 ∧ OpAt s r0 o c.1 0x0A
        ∧ drained s (tcTable o) tdD = (c.2 == .fired) := by decide +kernel

/-- A holder of the active base. -/
def holderOp : Op := { opOf r1 .running (dsc [(0, 2)]) with hold := [(5, false, 7)] }

theorem witness_FlipSwapsTheBases : ∀ l ∈ [[], [holderOp]],
    let o := tcOp 2 0 .ready
    let s := { tcSt o .idle with ops := o :: l }
    invB s = true ∧ OpAt s r0 o .ready 0x0A ∧ tcSub o = 2 ∧ tdGet s (tcTable o) = some tdD ∧ NoWaiter s tdD.drain
      ∧ holders s (tcTable o) tdD.active = l.length := by decide +kernel

theorem witness_ReleaseFreesTheTable :
    (∀ p ∈ [OpPhase.ready, .waitRes],
      let o := tcOp 3 0 p
      let s := tcSt o .idle
      invB s = true ∧ tcSub o = 3 ∧ mapOrd none s.tbl.desc = true ∧ (∀ m ∈ s.tbl.migs, m.table ≠ tcTable o) ∧ unheld s (tcTable o) = true
        ∧ OpAt s r0 o p 0x0A)
    ∧ (let o := tcOp 3 0 .ready
       let s := { tcSt o .idle with ops := [o, holderOp] }
       invB s = true ∧ tcSub o = 3 ∧ mapOrd none s.tbl.desc = true ∧ unheld s (tcTable o) = false ∧ OpAt s r0 o .ready 0x0A) := by
  decide +kernel

/-- A move of row 3 of table 5 to chip 1. -/
def mvSt (own busy : Bool) : State :=
  { withTbl tdD net with ops := [tcOp 4 3 .ready], hbm := ⟨if own then [] else [(0x1000, 1)], []⟩,
                         sac := { State.reset.sac with ctx := if busy then [(0, ⟨1, 0, [], [], [5], []⟩)] else [] } }

theorem witness_MigrateStartsTheMove :
    (let s := mvSt true false
     let o := tcOp 4 3 .ready
     invB s = true ∧ OpAt s r0 o .ready 0x0A ∧ tcSub o = 4 ∧ tdGet s (tcTable o) = some tdD ∧ ownsRow s (tcTable o) tdD (tcArg o) = true
       ∧ s.tbl.migs.length < 64 ∧ movable s (tcTable o) tdD (tcArg o) = true ∧ tcDest o ≠ myCoord s ∧ pinned s < 262144
       ∧ pathLost s (myCoord s) (tcDest o) = false ∧ bit (regOf s TBL) 0 = true)
    ∧ (let s := setR [(TBL, 0)] (mvSt true false)
       invB s = true ∧ OpAt s r0 (tcOp 4 3 .ready) .ready 0x0A ∧ bit (regOf s TBL) 0 = false)
    ∧ (let s := mvSt false false
       let o := tcOp 4 3 .ready
       invB s = true ∧ OpAt s r0 o .ready 0x0A ∧ ownsRow s (tcTable o) tdD (tcArg o) = false)
    ∧ (let s := mvSt true true
       let o := tcOp 4 3 .ready
       invB s = true ∧ OpAt s r0 o .ready 0x0A ∧ ownsRow s (tcTable o) tdD (tcArg o) = true ∧ movable s (tcTable o) tdD (tcArg o) = false) := by
  decide +kernel

/-- A domain whose switch of phase is requested, table 5 linked to its pair. -/
def phSt (gen : Nat) : State :=
  { withTbl { tdD with plink := true } (escR (setR [(hdmW 0 0x50, gen * 256), (hdmW 0 0x54, 9 <<< 16)] rdy)) with
    hosts := { rdy.hosts with phaseReq := 1 }, esc := [(9, ⟨3, 0, 3, .idle, false, 0⟩)] }

theorem witness_PhasesSwitchAndCatchUp : ∀ gen ∈ [0, 1],
    let s := phSt gen
    invB s = true ∧ s.hosts.phaseReq.getLsbD 0 = true
      ∧ (let e := fld (regOf s (hdmW 0 0x54)) 16 16
         EscSound s e ∧ (escAt s e).st = .idle ∧ (∀ x ∈ linkedTables s 0, x.2.drain ≠ e))
      ∧ inGeneration s 0 = (gen == 1) ∧ linkedTables s 0 ≠ [] ∧ (∀ x ∈ linkedTables s 0, tdGet s x.1 = some x.2)
      ∧ ((linkedTables s 0).map Prod.fst).Nodup := by decide +kernel

/-- One row on this chip, touched. -/
def cuD : TDesc := { tdD with plink := true, rows := 1, stretch := 1 }
def cuSt : State :=
  { withTbl cuD rdy with hosts := { rdy.hosts with catchUp := 1 }, hbm := ⟨[(0x100000, 7), (0x100001, 8), (0x400000, 1)], []⟩,
                         esc := [(20, ⟨0, 0, 3, .fired, false, 0⟩)] }

theorem witness_PhasesSwitchAndCatchUp_pass :
    let s := cuSt
    let n := pitchOf cuD.rowBytes
    let src := (rowAt s 5 cuD 0).base cuD.active
    let dst := (rowAt s 5 cuD 0).base (!cuD.active)
    let bits := cuD.touch + 0 / 8
    invB s = true ∧ s.hosts.catchUp.getLsbD 0 = true ∧ linkedTables s 0 = [(5, cuD)] ∧ tdGet s 5 = some cuD ∧ drained s 5 cuD = true
      ∧ localRows s cuD = [(0, 0)] ∧ ownsRow s 5 cuD 0 = true ∧ s.tbl.ov = [] ∧ s.tbl.park = [] ∧ HbmSound s ∧ Shown s none
      ∧ src + n ≤ hbmCap s ∧ dst + n ≤ hbmCap s ∧ bits / 64 * 64 + 64 ≤ hbmCap s ∧ (bits < dst ∨ dst + n ≤ bits)
      ∧ bit (s.hbm.get bits).toNat (0 % 8) = true := by decide +kernel

/-! ### Sampling and scattering -/

/-- A one-hop fan-out SAMPLE over the features of table 5, its block to 0x6000. -/
def smOp (hold : Bool) (hs : List HopWork) : Op :=
  { opOf r0 .running (dsc [(0, 1), (136, if hold then 16 else 0), (148, 5), (160, 2), (256, 0x6000), (352, 2)]) with work := .sample hs }
def smHop (l : Bool) : HopWork := ⟨[(3, 0), (4, 0)], [some [(7, 0), (8, 0)], if l then some [(3, 0)] else none]⟩
def smSt (hold l : Bool) : State := { withTbl tdD net with ops := [smOp hold [smHop l]] }

theorem witness_SamplesAreDrawnAndAnswered :
    (∀ hold ∈ [false, true],
      let s := smSt hold true
      let hs := [smHop true]
      let o := smOp hold hs
      let first := (hs.headD ⟨[], []⟩).targets.map Prod.fst
      let uniq := uniqKeys [] (first ++ hs.flatMap fun h => (hopEdges h).flatten.map Prod.fst)
      let block := smpBlock o (graphOf o.cap.toNat) hs uniq (uitRounds 0 uniq.length) (smpWraps o hs first)
      OpAt s r0 o .running 1 ∧ o.work = .sample hs ∧ smpMode o ≠ 2 ∧ hs.length = smpHops o
        ∧ (∀ h ∈ hs, h.edges.all Option.isSome = true) ∧ smpNodesOk s o (smHop true) = true ∧ uitLook s o false = .empty
        ∧ reqsOf s r0 = [] ∧ LandsAt s o false (smpOut o) block.length (.hbm 0x6000) ∧ o.flag 17 4 = hold)
    ∧ (let s : State := { rdy with sac := { State.reset.sac with uit := some ⟨0, 5, [3], 1, 0⟩ }, ts := 70000000 }
       ∃ h, s.sac.uit = some h ∧ h.since + 1000 * fld (regOf s (GTH + 8)) 0 16 ≤ s.ts) := by
  refine ⟨by decide +kernel, ⟨_, rfl, by decide +kernel⟩⟩

/-- A graph of nodes 0 to 9 in slot 2, node 3 with two neighbours. -/
def grH : Nat := [(128, 10), (192, 30), (256, 0x8000), (320, 0x9000)].foldl (fun a x => a + x.2 * 2 ^ x.1) 0
def cellsAt (a : Nat) (l : List Byte) : List Host.Cell :=
  ((List.range l.length).zip l).filterMap fun x => if x.2 = 0 then none else some (a + x.1, x.2)
def srSt : State :=
  setR [(graphLo 2, 0x7001)] { net with
    hbm := ⟨cellsAt 0x7000 (leBytes 64 grH) ++ cellsAt 0x8018 (leBytes 8 5 ++ leBytes 8 7) ++ cellsAt 0x9014 (leBytes 4 21 ++ leBytes 4 22), []⟩ }
def srB : List Byte := leBytes 12 0 ++ leBytes 1 2 ++ leBytes 1 0 ++ leBytes 2 5 ++ leBytes 7 0 ++ leBytes 1 1 ++ leBytes 8 0 ++ leBytes 8 3 ++ leBytes 8 0
def srPk : Packet := .of (hdrOf 0 0x12 1 0 77) (.raw srB)

theorem witness_SamplesAreDrawnAndAnswered_request :
    let s := srSt
    let b := srB
    let slot := graphLo (leAt b 12 1 % 64)
    let head := fld (regOf s slot) 6 26 * 64 + 2 ^ 32 * regOf s (slot + 4)
    let w := leNat (bytesAt s none (.hbm head) 64)
    let g := graphOf w
    let node := leAt (b.drop 32) 0 8
    let at_ := g.off + 8 * (node - g.first)
    let offs := bytesAt s none (.hbm at_) 16
    let lo := leAt offs 0 8
    let n := leAt offs 8 8 - lo
    Asked s 1 srPk 0x12 ∧ srPk.body = .raw b ∧ leAt b 12 1 / 64 = 0 ∧ leAt b 13 1 % 2 = 0 ∧ leAt b 23 1 = 1
      ∧ bit (regOf s slot) 0 = true ∧ Readable s (.hbm head) 64 ∧ graphBad w = false ∧ g.first ≤ node ∧ node < g.first + g.count
      ∧ Readable s (.hbm at_) 16 ∧ lo ≤ leAt offs 8 8 ∧ leAt offs 8 8 ≤ g.edges ∧ n ≤ leAt b 14 2 ∧ 16 * n + 4 < 2 ^ 13 ∧ n = 2
      ∧ (∀ i < n, Readable s (.hbm (g.ids + g.idw * (lo + i))) g.idw) := by decide +kernel

/-- A hop of three targets: two answers are out, one of them comes. -/
def saHop : HopWork := ⟨[(3, 0), (4, 0)], [none, none]⟩
def saQ : Req := reqOf 40 (some r0) (.sample 0 [0]) (.of (hdrOf 0 0x12 0 1 40) (.raw srB))
def saPk : Packet := .of (hdrOf 1 0x92 1 0 40) (.sampleRsp [[(21, 0), (22, 0)]])
def saSt : State := { withTbl tdD net with ops := [smOp false [saHop]], reqs := [saQ] }

theorem witness_SamplesAreDrawnAndAnswered_answer :
    Answers saSt 1 saPk 0x92 saQ ∧ saQ.kind = .sample 0 [0] ∧ saQ.op = some r0 ∧ saPk.body = .sampleRsp [[(21, 0), (22, 0)]]
      ∧ OpAt saSt r0 (smOp false [saHop]) .running 1 ∧ (smOp false [saHop]).work = .sample [saHop] ∧ smpMode (smOp false [saHop]) ≠ 2
      ∧ (∃ last, ([saHop].modify 0 fun h => fillEdges h ([0].zip [[(21, 0), (22, 0)]])).getLast? = some last
          ∧ last.edges.any Option.isNone = true) := by
  refine ⟨by decide +kernel, rfl, rfl, rfl, by decide +kernel, rfl, by decide +kernel, ⟨_, rfl, by decide +kernel⟩⟩

/-- A SCATTER_ADD of one row of table 5 in context 2 with cell 4's scratch, or a FINAL one. -/
def scOp (final : Bool) (r : OpRef) : Op :=
  let o := opOf r (if final then .running else .ready) (dsc [(0, 4), (128, 5), (144, 2 + if final then 16 else 0), (152, 4), (168, 1), (192, 1),
    (224, 1), (256, 0x5000), (352, 0x5100)])
  if final then { o with work := .xfer 1 } else o
def scSt (final : Bool) (r : OpRef) (sp : List Spill := []) : State :=
  { withTbl tdD net with ops := [scOp final r], bench := ⟨[(benchKey 4 100, 1)], []⟩,
                         hbm := ⟨[(0x5000, 3), (0x5102, 0x80), (0x5103, 0x3F), (0x5107, 0xC0)], []⟩,
                         sac := { State.reset.sac with ctx := if final then [(2, ⟨1, 0, sp, [], [5], []⟩)] else [] } }

theorem witness_ScatterAddAccumulatesWhereOwned :
    (let s := scSt false r0
     let o := scOp false r0
     let d := tdD
     let li := Loc.hbm 0x5000
     let lg := Loc.hbm 0x5100
     tdGet s (scTable o) = some d ∧ OpAt s r0 o .ready 4 ∧ o.work = .none ∧ scFinal o = false ∧ scSegd o = false ∧ scWeighted o = false
       ∧ scCount o = 1 ∧ cellBusy s (scCell o) = false ∧ HbmSound s ∧ retiring s = none ∧ transients s = []
       ∧ 0 < fld (regOf s (SAC + 4)) 0 16 ∧ FetchesAt s o true (ptrAddr (o.ptr 32)) (scIdxB o) li
       ∧ FetchesAt s o true (ptrAddr (o.ptr 44)) (rowElems d * scGradB o) lg ∧ uitLook s o false = .empty ∧ reqsOf s r0 = []
       ∧ s.sac.ents = [] ∧ (ctxAt s (scCtx o)).st ≠ 2 ∧ (∀ m ∈ s.tbl.migs, m.table ≠ scTable o)
       ∧ leNat (bytesAt s o.who li (scIdxB o)) < d.rows ∧ ownsRow s (scTable o) d (leNat (bytesAt s o.who li (scIdxB o))) = true)
    ∧ (∀ r ∈ [r0, refOf 0 64 5], ∀ sp ∈ [[], [⟨0, 0, 5, 3, 1, false, false⟩]],
      let s := scSt true r sp
      let o := scOp true r
      tdGet s (scTable o) = some tdD ∧ OpAt s r o .running 4 ∧ o.work = .xfer 1 ∧ reqsOf s r = [] ∧ scFinal o = true ∧ scTarget o = false
        ∧ s.sac.ents = [] ∧ (ctxAt s (scCtx o)).st ≠ 2 ∧ (ctxAt s (scCtx o)).spills = sp ∧ retiring s = none ∧ transients s = [] ∧ retireReady s o = true
        ∧ (ctxAt s (scCtx o)).mask = [5]) := by decide +kernel

/-- A contribution of chip 1 to row 3 of table 5 in context 2, and the last acknowledgement of one. -/
def cbG : List Nat := 0x3F800000 :: List.replicate 15 0
def cbPk : Packet := .of (hdrOf 0 0x14 1 0 77) (.contrib 2 5 3 cbG)
def cbSt (en : Nat) : State := setR [(sacCtxW 2 0, en)] (withTbl tdD net)
def caOp : Op := { opOf r0 .running (dsc [(0, 4), (128, 5), (144, 2)]) with work := .xfer 1 }
def caQ : Req := reqOf 40 (some r0) .contrib (.of (hdrOf 0 0x14 0 1 40) (.contrib 2 5 3 cbG))
def caPk : Packet := .of (hdrOf 1 0x94 1 0 40) .none
def caSt : State := { withTbl tdD net with ops := [caOp], reqs := [caQ] }

theorem witness_ScatterAddAccumulatesWhereOwned_contribution :
    (∀ en ∈ [0, 1],
      let s := cbSt en
      2 < 16 ∧ HbmSound s ∧ retiring s = none ∧ transients s = [] ∧ 0 < fld (regOf s (SAC + 4)) 0 16 ∧ Asked s 1 cbPk 0x14 ∧ cbPk.body = .contrib 2 5 3 cbG ∧ bit (regOf s (sacCtxW 2 0)) 0 = (en == 1) ∧ tdGet s 5 = some tdD
        ∧ ownsRow s 5 tdD 3 = true ∧ s.sac.ents = [] ∧ (ctxAt s 2).st ≠ 2 ∧ (∀ m ∈ s.tbl.migs, m.table ≠ 5) ∧ ovFind s 5 3 = none) := by decide +kernel

theorem witness_ScatterAddAccumulatesWhereOwned_ack :
    Answers caSt 1 caPk 0x94 caQ ∧ caQ.kind = .contrib ∧ refusalOf caPk = 0 ∧ caPk.body = .none ∧ caQ.op = some r0
    ∧ OpAt caSt r0 caOp .running 4 ∧ caOp.work = .xfer 1 ∧ scFinal caOp = false
    ∧ (∀ y ∈ caSt.reqs, y.op = some r0 → y.optag = caQ.optag) := by decide +kernel

/-! ### Cells -/

/-- A cell image at 0x5000 whose text is 64 bytes of 0, its arguments at 0x5400. -/
def crOp (p : OpPhase) : Op := opOf r0 p (dsc [(0, 5), (128, 0x30), (160, 64), (192, 0x5000), (256, 0x5400), (320, 128)])
def crText : List Byte := List.replicate 63 0 ++ [1]
def crSt (busy : Bool) (p : OpPhase) : State :=
  { rdy with ops := [crOp p], hbm := ⟨cellsAt 0x5000 (leBytes 2 1 ++ leBytes 2 1 ++ leBytes 4 64 ++ leBytes 16 0 ++ leBytes 4 0x10000
                ++ leBytes 4 (crc32 crText)) ++ cellsAt 0x5040 crText ++ [(0x5400, 7), (0x5480, 8)], []⟩,
              cells := { State.reset.cells with st := if busy then [(5, { cellZero with holder := some (r1, 0) })] else [] } }

theorem witness_CellRunsStartAndFault : ∀ busy ∈ [false, true],
    let s := crSt busy .ready
    let o := crOp .ready
    let h := bytesAt s o.who (.hbm 0x5000) 64
    invB s = true ∧ OpAt s r0 o .ready 5 ∧ FetchesAt s o false (crProgram o) 64 (.hbm 0x5000) ∧ imgChk s o h = none
      ∧ (rangeChk s o (crProgram o) (64 + leAt h 4 4) false).1 = false ∧ FetchesAt s o false (crProgram o + 64) (leAt h 4 4) (.hbm 0x5040)
      ∧ crc32 (bytesAt s o.who (.hbm 0x5040) (leAt h 4 4)) = leAt h 28 4 ∧ crArgSpan o = 192
      ∧ FetchesAt s o false (crArgs o) (crArgSpan o) (.hbm 0x5400) ∧ s.sram = [] ∧ crList o = [4, 5]
      ∧ (∀ c ∈ crList o, cellBusy s c = (busy && c == 5)) := by decide +kernel

theorem witness_CellRunsStartAndFault_end :
    let s := crSt false .running
    OpAt s r0 (crOp .running) .running 5 ∧ ∀ c ∈ crList (crOp .running), (cellAt s c).waiting = 0 := by decide +kernel

/-- A program of operation `r0` on cell 4, and its sequencer 0. -/
def at4 : CellAt := ⟨4, 0, 0x40⟩
def rnOp : Op := { opOf r0 .running (dsc [(0, 5), (128, 0x10)]) with work := .run [] 0 }
def rnSt : State :=
  escR { rdy with ops := [rnOp], cells := { State.reset.cells with
    st := [(4, { cellZero with holder := some (r0, 0), need := 0x10000, learning := true, well := true })] } }

theorem witness_CellEscapementOpAppliesTheTable : ∀ c ∈ [(5, EscState.armed), (5, .idle), (6, .armed)],
    let s := { rnSt with esc := [(7, esc7 c.2 5)] }
    OnCell s at4 rnOp ∧ escIn s rnOp.d 7 = true ∧ EscSound s 7 ∧ NoWaiter s 7 ∧ ((escAt s 7).gen = BitVec.ofNat 16 c.1 ↔ c.1 = 5) := by
  decide +kernel

/-- A bf16 product of 2 × 2 over 2, the second operand transposed, with initial values. -/
def arX : ArrayInstr :=
  { a := ⟨0, .bf16, none, false, none⟩, b := ⟨64, .bf16, none, true, none⟩, m := 2, n := 2, k := 2, init := some 128, out := 192,
    outFmt := .fp32, outMx := false, oscale := 0, scales := 256, watch := none, misses := 0 }
/-- Integers as an int8 product, in place of the first operand a matrix of another format. -/
def arI : ArrayInstr :=
  { arX with a := ⟨0, .int8, none, false, none⟩, b := ⟨64, .int8, none, false, none⟩, outFmt := .int32, init := none }
def arSt : State :=
  { rnSt with bench := ⟨cellsAt (benchKey 4 0) (leBytes 2 0x3F80 ++ leBytes 2 0x4000 ++ leBytes 2 0xC000 ++ leBytes 2 0x3FC0)
      ++ cellsAt (benchKey 4 64) (leBytes 2 0x3F80 ++ leBytes 2 0x3F80 ++ leBytes 2 0x4040 ++ leBytes 2 0xBF80)
      ++ cellsAt (benchKey 4 128) (leBytes 4 0x3F800000), []⟩ }

theorem witness_ArrayInstructionWritesTheProduct : ∀ x ∈ [arX, arI, { arX with outFmt := .bf16, init := none }],
    invB arSt = true ∧ OnCell arSt at4 rnOp ∧ arSt.sram = [] ∧ x.misses = 0 ∧ 0 < x.m ∧ x.m ≤ 128 ∧ 0 < x.n ∧ x.n ≤ 128
      ∧ pairOk x.a x.b = true ∧ outOk x.a.fmt x.outFmt x.outMx x.oscale = true
      ∧ rangesFault (cellAt arSt 4).need (arrRanges x) = none ∧ x.scales + scaleArray x ≤ (cellAt arSt 4).need
      ∧ (cellAt arSt 4).need ≤ benchSize
      ∧ (x.out + FmtOf.bytes x.outFmt * x.m * x.n ≤ x.scales ∨ x.scales + scaleArray x ≤ x.out ∨ scaleArray x = 0) := by decide +kernel

/-! ### The well and the stash -/

/-- Slot 3 holds 8 elements from element 16 of the well. -/
def wlSt (claim : Nat) : State :=
  setR [(slotW 3 0, 16 + 2 ^ 24), (slotW 3 1, 8), (claimW 3, claim)] { arSt with
    well := ⟨cellsAt (4 * 18) (leBytes 4 0x3F800000), []⟩,
    cells := { arSt.cells with vreg := ⟨cellsAt (vregKey 4 2) (leBytes 4 0x40000000 ++ leBytes 4 0x40400000), []⟩, masks := [(8 * 4 + 1, 0xFF)] } }
def waX : WellAddInstr := ⟨2, 1, 4, 3, 2, 9⟩
def wgX : WgradInstr := ⟨arX.a, arX.b, 2, 2, 2, 3, 2, 9, 0⟩

theorem witness_WellSlotsAndStashRegionsHold : ∀ claim ∈ [0, 0x10009],
    let s := wlSt claim
    invB s = true ∧ s.sram = [] ∧ OnCell s at4 rnOp ∧ (cellAt s 4).learning = true ∧ slotValid s 3 = true ∧ slotOwner s 3 = rnOp.d
      ∧ 2 + min waX.count 1024 ≤ slotLen s 3 ∧ 2 + wgX.m * wgX.n ≤ slotLen s 3 ∧ (claimed s 3 = false ∨ claimOf s 3 = (9 : BitVec 16).toNat)
      ∧ claimed s 3 = (claim != 0) ∧ Shown s (some rnOp.ref) ∧ rivals s rnOp 4 2 (4 * (slotBase s 3 + 2)) 16 = [] ∧ pairOk wgX.a wgX.dy = true ∧ FmtOf.isInt wgX.a.fmt = false
      ∧ rangesFault (cellAt s 4).need (operandRanges wgX.a 2 2 2 ++ operandRanges wgX.dy 2 2 2) = none := by decide +kernel

/-- An operation of BWD_CTL on region 1, or on slots 3 and 4. -/
def bwOp (sub : Nat) : Op := opOf r0 .ready (dsc [(0, 11), (128, sub), (136, if sub = 2 then 0 else 1), (144, if sub = 2 then 3 else 0), (160, if sub = 2 then 2 else 0)])
/-- Region 1 at 1 MiB with 64 KiB: layer 0 planned for two tiles, layer 1 for more than the region holds. -/
def dirB : List Byte :=
  leBytes 4 2048 ++ leBytes 4 4 ++ leBytes 4 0 ++ leBytes 4 1 ++ leBytes 4 65536 ++ leBytes 4 0 ++ leBytes 4 0 ++ leBytes 4 1
def stReg (s : State) : State := setR [(stashW 1 0, 1), (stashW 1 1, 0x100000), (stashW 1 3, 1)] s
def soSt : State := stReg { rdy with ops := [bwOp 0], hbm := ⟨cellsAt 0x100000 dirB, []⟩ }

theorem witness_WellSlotsAndStashRegionsHold_operations :
    (let s := soSt
     invB s = true ∧ HbmSound s ∧ s.sram = [] ∧ Shown s (some r0) ∧ OpAt s r0 (bwOp 0) .ready 11 ∧ bwSub (bwOp 0) = 0
       ∧ bwRegion (bwOp 0) = 1 ∧ stashOpenB s 1 = false ∧ stashBase s 1 + 4096 ≤ hbmCap s
       ∧ stashDirBad (s.hbm.getN (stashBase s 1) 4096) = false)
    ∧ (let s := { soSt with ops := [bwOp 1], stash := 2 }
       OpAt s r0 (bwOp 1) .ready 11 ∧ bwSub (bwOp 1) = 1 ∧ runsWith s (bwOp 1).d (fun c => c.stash.getLsbD (bwRegion (bwOp 1))) = false)
    ∧ (let s := { wlSt 0x10009 with ops := [bwOp 2], cells := State.reset.cells }
       invB s = true ∧ s.sram = [] ∧ OpAt s r0 (bwOp 2) .ready 11 ∧ bwSub (bwOp 2) = 2 ∧ bwFirst (bwOp 2) + bwCount (bwOp 2) ≤ 1024
         ∧ runsWith s (bwOp 2).d CellSt.well = false
         ∧ ∀ i < 1024, bwFirst (bwOp 2) ≤ i → i < bwFirst (bwOp 2) + bwCount (bwOp 2) → slotExt s i = 0) := by
  decide +kernel

/-- The open region with two filled entries: layer 0 in format `fmt` and layer 1 left out. -/
def stX (stats : Bool) (layer : Fin 256) (dir : Option Nat := none) : StashInstr := ⟨1, layer, stats, 1, 1, 64, dir⟩
def stSt (fmt : Nat) : State :=
  stReg { arSt with stash := 2, hbm := ⟨cellsAt 0x100000 (leBytes 4 2048 ++ leBytes 4 4 ++ leBytes 4 64 ++ leBytes 4 (2 + 256 * fmt)
      ++ leBytes 4 2048 ++ leBytes 4 4 ++ leBytes 4 0 ++ leBytes 4 3) ++ cellsAt (0x101000 + 1024) (leBytes 2 0x3A55) ++ cellsAt (0x101000 + 2048) (leBytes 2 0x4000)
      ++ cellsAt (0x101000 + 2048 + 32) (leBytes 2 0x7F81), []⟩ }

theorem witness_WellSlotsAndStashRegionsHold_instructions : ∀ fmt ∈ [0, 1, 2], ∀ stats ∈ [false, true],
    let s := stSt fmt
    let e := stashDirOf (s.hbm.getN (stashBase s 1 + 16 * 0) 16)
    invB s = true ∧ HbmSound s ∧ s.sram = [] ∧ OnCell s at4 rnOp ∧ stashOpenB s 1 = true ∧ stashMine s rnOp.d 1 = true
      ∧ stashBase s 1 + 16 * 0 + 16 ≤ hbmCap s ∧ (∀ wr ∈ [false, true], stashBench s at4 (stX stats 0) wr = none) ∧ (cellAt s 4).learning = true
      ∧ e.fmt = fmt ∧ e.state = 2 ∧ stashBeyond e (stX stats 0) = false ∧ stashBase s 1 + 64 * e.off + stashBytes e ≤ hbmCap s
      ∧ stashBench s at4 (stX stats 1) true = none ∧ Shown s (some rnOp.ref)
      ∧ stashOpenStores s (stashBase s 1 + 64 * e.off) e = false ∧ (let e1 := stashDirOf (s.hbm.getN (stashBase s 1 + 16 * 1) 16); e1.state = 3 ∧ stashBeyond e1 (stX stats 1) = false) := by decide +kernel

/-- A compressed tile of one code in place of the dense one, its directory at 0x8000. -/
def stTl (fmt : Nat) : State :=
  { stSt fmt with bench := ⟨cellsAt (benchKey 4 64) (leBytes 128 32 ++ leBytes 2 0x3A55) ++ cellsAt (benchKey 4 0x8000) (leBytes 4 0x801), []⟩ }

theorem witness_WellSlotsAndStashRegionsHold_tiles : ∀ fmt ∈ [0, 1, 2],
    let s := stTl fmt
    let x := stX false 0 (some 0x8000)
    invB s = true ∧ OnCell s at4 rnOp ∧ stashBench s at4 x true = none ∧ (tilesAt s 4 rnOp x.bench 0x8000 x.count).length = 1
      ∧ ∀ t ∈ tilesAt s 4 rnOp x.bench 0x8000 x.count, t.isSome = true := by decide +kernel

/-! ### The vector engine -/

/-- Registers 2 to 6 of cell 4 hold these bytes at their low ends; mask 1 takes the first 8 lanes of bytes. -/
def vcSt (l : List (Nat × List Byte)) : State :=
  { arSt with cells := { arSt.cells with vreg := ⟨l.flatMap fun x => cellsAt (vregKey 4 x.1) x.2, []⟩, masks := [(8 * 4 + 1, 0xFF)] } }
def vecX (op : VOp) (fmt : Fmt) (mask : Fin 8) (zero : Bool) : VecInstr := ⟨op, fmt, 4, 2, 3, 3, none, mask, zero, false, false, 0⟩
def vcFp : State := vcSt [(2, leBytes 4 0x3F800000 ++ leBytes 4 0x40000000 ++ leBytes 4 0x7F800000), (3, leBytes 4 0x40400000 ++ leBytes 4 0xFF800000 ++ leBytes 4 0xFF800000),
  (4, leBytes 4 1 ++ leBytes 4 2 ++ leBytes 4 3 ++ leBytes 4 4)]
def vcOps : List VecInstr :=
  [vecX .fadd .fp32 0 false, vecX .fadd .fp32 1 false, vecX .fma .bf16 1 true, vecX .iadd .int8 1 true, vecX .shl .int16 0 false, vecX .xor .int32 1 false]

theorem witness_VectorOperationsGiveTheirResult :
    invB vcFp = true ∧ OnCell vcFp at4 rnOp ∧ (∀ x ∈ vcOps, vecOk x = true ∧ pairOdd x = false ∧ x.misses = 0 ∧ x.pair = false ∧ x.op ≠ .fmaW
      ∧ vKind x.op ∈ [VKind.float, .integer, .shift, .logic])
    ∧ convFmt .fp32 = true ∧ convFmt .bf16 = true ∧ convFmt .int8 = true ∧ vecFmt .fp32 = true ∧ (cellAt vcFp 4).acc.length = 4 := by
  decide +kernel

def cvX (src dst : Fmt) (mask : Fin 8) : ConvInstr := ⟨src, dst, .plain, 4, 2, 5, mask, false, false, false, false, false⟩
def trX (f : TransFn) (mask : Fin 8) : TransInstr := ⟨f, .fp32, 4, 2, mask, true, false⟩
def rdX (op : RedOp) (acc : Option (Fin 8)) : RedInstr := ⟨op, .fp32, 4, 2, false, 1, acc, 0⟩

/-- Contiguous access, tile stores, and gathers over the indices of register 3. -/
def lsX (f : LsForm) (fmt : Fmt) (mask : Fin 8 := 0) : LsInstr := ⟨f, 2, 4096, fmt, mask, true, none⟩
def gsX (fmt : Fmt) (mask : Fin 8) : GsInstr := ⟨2, 3, 128, 2, fmt, mask, false, none⟩
def gsSt : State := vcSt [(2, leBytes 4 0x3F800000 ++ leBytes 4 0x40000000 ++ leBytes 4 0x7F800000), (3, leBytes 4 1 ++ leBytes 4 2 ++ leBytes 4 1)]

theorem witness_BenchAccessMovesTheElements :
    invB gsSt = true ∧ OnCell gsSt at4 rnOp ∧ gsSt.sram = [] ∧ Shown gsSt (some rnOp.ref) ∧ (cellAt gsSt 4).need ≤ benchSize
      ∧ 4096 % 4096 = 0 ∧ 4096 + 4096 ≤ (cellAt gsSt 4).need ∧ fld (regOf gsSt (celW 4 8)) 0 11 ≤ 960
      ∧ 4096 + tileSlot * (1 + 1) ≤ (cellAt gsSt 4).need ∧ (1024 + 4 * (1 + 1) ≤ 4096 + tileSlot * 1)
      ∧ gsFault (cellAt gsSt 4).need 4 (gsElems gsSt 4 (gsX .fp32 0)) = none
      ∧ gsFault (cellAt gsSt 4).need 4 (gsElems gsSt 4 (gsX .int32 1)) = none := by decide +kernel

/-- What faults: an unknown pair, an odd register pair, an access past BENCH_NEED, a misaligned element. -/
theorem witness_CellRunsStartAndFault_faults :
    invB rnSt = true ∧ OnCell rnSt at4 rnOp ∧ pairOk { arX.a with fmt := .fp32 } arX.b = false ∧ vecOk (vecX .iadd .fp32 0 false) = false
      ∧ (let x := { vecX .iadd .int32 0 false with pair := true, a := 3 }; vecOk x = true ∧ pairOdd x = true)
      ∧ (lsElems rnSt 4 { lsX .load .fp32 with addr := 0x10000 }).find? (fun e => decide ((cellAt rnSt 4).need < e.2 + 4)) = some (0, 0x10000)
      ∧ gsFault (cellAt rnSt 4).need 4 (gsElems rnSt 4 { gsX .fp32 0 with base := 0x20000 }) = some (0, 0x20000, 0x10)
      ∧ gsFault (cellAt rnSt 4).need 4 (gsElems rnSt 4 { gsX .fp32 0 with base := 2 }) = some (0, 2, 0x11)
      ∧ stashOpenB rnSt 1 = false ∧ (cellAt { rnSt with cells := { rnSt.cells with st := [(4, { cellZero with holder := some (r0, 0) })] } } 4).learning = false
      ∧ escIn rnSt rnOp.d 0x7FFF = false := by decide +kernel

/-! ### UPDATE, the regulator and the loupe -/

/-- A dense UPDATE of 2 × 4 weights at 0x9000 with cell 4: rule, storage mode, with a verdict or without. -/
def upOp (rule mode verdict : Nat) (p : OpPhase) : Op :=
  { opOf r0 p (dsc [(0, 6), (128, 77), (144, rule), (148, mode), (152, 3), (160, 2), (192, 4), (224, 5), (256, 0x9000), (304, 0xA000),
    (352, 0x8000), (448, verdict), (480, 0x10)]) with step := 12 }
def upSt (o : Op) (g : Nat) : State :=
  setR [(SCH, 1), (schW 3 9, 0x3C23D70A), (schW 3 10, 0x3A83126F), (UPD + 0x160, 0x3F666666), (UPD + 0x164, 0x3F7FBE77), (UPD + 0x168, 0x322BCC77),
      (COL + 0x108, 5)]
    { rdy with ops := [o], hbm := ⟨cellsAt 0x8000 ([g, 0x3F800000, 0xBF000000, 0x3DCCCCCD, 0, 0x40000000, 0x3F000000, 0xC0400000].flatMap (leBytes 4))
        ++ cellsAt 0x9000 ([0x3F800000, 0x40000000, 0x3F000000, 0xBF800000].flatMap (leBytes 4)) ++ cellsAt 0xA000 (leBytes 4 0x3C000000), []⟩ }

theorem witness_UpdatesApplyTheirRule :
    (let s := upSt (upOp 2 0 1 .ready) 0x3F000000
     let o := upOp 2 0 1 .ready
     invB s = true ∧ Shown s (some r0) ∧ OpAt s r0 o .ready 6 ∧ (∀ c ∈ bitsOf 32 (upCells o), (cellAt s c).resetting = false)
       ∧ upWaits s o = true ∧ groupLost s (upCol o) = false
       ∧ takenVerdict s o = none ∧ upVerdict o = true ∧ groupLost (setR [(RTE + 0x300, 0x80)] s) (upCol o) = true)
    ∧ (∀ c ∈ [(2, 0, 0x3F000000), (3, 2, 0x3F000000), (4, 0, 0x3F000000), (2, 0, 0x7FC00000)],
      let o := upOp c.1 c.2.1 0 .ready
      let s := upSt o c.2.2
      let stLen := upStateBytes (upRule o) (upRows o) (upCols o) (upMom s o)
      let gs := (chunks 4 (bytesAt s o.who (.hbm 0x8000) (4 * upElems o))).map leNat
      invB s = true ∧ OpAt s r0 o .ready 6 ∧ (∀ x ∈ bitsOf 32 (upCells o), (cellAt s x).resetting = false) ∧ upWaits s o = false
        ∧ upTable o = false ∧ HbmSound s ∧ 0 < upElems o ∧ upLoc s o (upGrad o) (4 * upElems o) = some (.hbm 0x8000)
        ∧ upLoc s o (upWeight o) (upWB o * upElems o) = some (.hbm 0x9000) ∧ upLoc s o (upState o) stLen = some (.hbm 0xA000)
        ∧ upVerdict o = false ∧ upSkips s o gs = (c.2.2 == 0x7FC00000) ∧ ((∃ g ∈ gs, (v32 g).isFin = false) ↔ c.2.2 = 0x7FC00000)
        ∧ upRule o ∈ [2, 3, 4] ∧ upMode o ∈ [0, 2] ∧ upAux o = 0 ∧ (∀ x ∈ s.ops, x.ref ≠ r0 → x.code ≠ 6) ∧ o.upWork.race = []
        ∧ 0x9000 + upWB o * upElems o ≤ 0xA000 ∧ ∃ c : Fin 32, c.val ∈ bitsOf 32 (upCells o))
    ∧ (let o := upOp 2 0 1 .waitRes
       let s := { upSt o 0 with ts := 5000000 }
       OpAt s r0 o .waitRes 6 ∧ upVerdict o = true ∧ takenVerdict s o = none
         ∧ o.t0 + 1000000 * fld (regOf s (COL + 0x108 + 32 * upCol o)) 0 16 ≤ s.ts) := by decide +kernel

/-- An update of row 3 of table 5 from chip 1. -/
def ruM (table row : Nat) (rule : Nat) (ver : Word := 7) : RowUpdMsg :=
  ⟨table, ver, row, rule, 0, 3, 9, 12, 0x3C23D70A, 0x3A83126F, [0x3F800000, 0xBF000000, 0x3DCCCCCD], false⟩
def ruPk (u : RowUpdMsg) : Packet := .of (hdrOf 0 0x16 1 0 77) (.rowUpd u)
def ruSt : State :=
  withTbl tdD (setR [(UPD + 0x160, 0x3F666666), (UPD + 0x164, 0x3F7FBE77), (UPD + 0x168, 0x322BCC77)]
    { net with hbm := ⟨cellsAt (0x100000 + 192) (leBytes 4 0x3F800000), []⟩ })

theorem witness_UpdatesApplyTheirRule_row :
    invB ruSt = true ∧ Asked ruSt 1 (ruPk (ruM 5 3 2)) 0x16 ∧ tdGet ruSt 6 = none ∧ tdGet ruSt 5 = some tdD ∧ tdD.rows ≤ 100 ∧ 3 < tdD.rows
      ∧ tdD.fmt = 0 ∧ 3 ≤ rowElems tdD ∧ tdD.plink = false ∧ ownsRow ruSt 5 tdD 3 = true ∧ tblBad ruSt 5 3 = false ∧ ovFind ruSt 5 3 = none
      ∧ (∀ m ∈ ruSt.tbl.migs, m.table ≠ 5) ∧ HbmSound ruSt ∧ Shown ruSt none ∧ baseCaptured tdD 7 = some false ∧ baseCaptured tdD 99 = none
      ∧ tdD.forMode 0 = tdD
      ∧ (let x := rowAt ruSt 5 tdD 3
         x.base false + pitchOf tdD.rowBytes ≤ hbmCap ruSt ∧ x.st + 8 * 3 ≤ hbmCap ruSt
           ∧ x.base false + pitchOf tdD.rowBytes ≤ x.st) := by decide +kernel

/-- Group 3 of domain 0 is due: cosine decay after a warm-up. -/
def rgSt (step : Nat) : State :=
  { setP 0 [(hdmW 0 0x60, step)] (setR [(SCH, 1), (schW 3 0, 1 + 16 * 2 + 128), (schW 3 2, 10), (schW 3 3, 100), (schW 3 4, 0), (schW 3 5, 0x3C23D70A),
      (schW 3 6, 0x38D1B717), (schW 3 8, 0x3DCCCCCD)] rdy) with schDue := 8, ops := [{ upOp 2 0 0 .waitRes with work := .update ⟨none, none, []⟩ }] }

theorem witness_RegulatorAndLoupeFollowTheStep : ∀ n ∈ [4, 50],
    let s := rgSt n
    invB s = true ∧ bit (regOf s SCH) 0 = true ∧ bit (regOf s (schW 3 0)) 0 = true ∧ s.schDue.getLsbD 3 = true := by decide +kernel

/-- The loupe with one watch entry, a step of domain 0 to be latched. -/
def lpSt (rules : Bool) (late : Bool := false) : State :=
  { setR [(LPE, 1), (LPE + 8, 0x200000), (LPE + 0x10, 4), (LPE + 0x10010, 1 + 8 * 2)]
      (if rules then rdy else setR ((List.range 4).map fun i => (LPE + 0x400 + 16 * i, 0)) rdy) with
    lpe := ⟨[⟨2, 6, [9, 1, 0, 2, 0, 0], 7 :: List.replicate 15 0, false⟩], [], [(0, 6, late)]⟩ }

theorem witness_RegulatorAndLoupeFollowTheStep_loupe : ∀ rules ∈ [false, true], ∀ late ∈ [false, true],
    let s := lpSt rules late
    let n : Word := 6
    let frames := fld (regOf s (LPE + 0x10)) 0 7
    let frame := regOf s (LPE + 8) + 2 ^ 32 * regOf s (LPE + 0xC) + 1048576 * (n.toNat % frames)
    invB s = true ∧ s.lpe.due.find? (fun x => x.1 == 0) = some (0, n, late) ∧ bit (regOf s LPE) 0 = true
      ∧ s.ops.any (writesWatched s 0 n) = false ∧ HbmSound s ∧ s.sram = [] ∧ (rules = false → ∀ i, i < 32 → bit (ruleW s i 0) 0 = false)
      ∧ (∀ y ∈ s.lpe.sets, y.cnt.length = 6 ∧ y.hist.length = 16) ∧ 0 < frames ∧ frame + 1048576 ≤ hbmCap s
      ∧ (∃ x ∈ watchList s, fld x.2 1 2 = 0) := by decide +kernel

/-! ### Moves of rows -/

/-- Row 3 of table 5 is at home on chip 1, which moves it here, or (`home` = 0) here. -/
def mgSt (home : Nat) (inb : List (Nat × Nat × Option Snap)) (gs : List (Nat × Nat × Nat × Nat)) : State :=
  let s := withTbl tdD (setR [(TBL + 0x10, 0x800000), (TBL + 0x18, 0xFFFF)] net)
  { s with hbm := ⟨if home = 0 then [] else [(0x1000, 1)], []⟩, tbl := { s.tbl with inbound := inb, guests := gs } }
def mgPk (m : MigStep) : Packet := .of (hdrOf 0 0x15 1 0 77) (.mig 5 3 m)
def mgSnap : Snap := ⟨List.replicate 64 3, [], []⟩

theorem witness_MovesReachTheirDestination_refused :
    let s := mgSt 0 [] []
    invB s = true ∧ Asked s 1 (mgPk (.reserve 1)) 0x15 ∧ (mgPk (.reserve 1)).body = .mig 5 3 (.reserve 1) ∧ tdGet s 5 = some tdD
       ∧ ownsRow s 5 tdD 3 = true := by decide +kernel

theorem witness_MovesReachTheirDestination_reserved :
    let s := mgSt 1 [] []
    invB s = true ∧ Asked s 1 (mgPk (.reserve 1)) 0x15 ∧ 3 < tdD.rows ∧ ownsRow s 5 tdD 3 = false ∧ homeChip s tdD 3 ≠ myCoord s
         ∧ guestOf s 5 3 = none ∧ pinned s + s.tbl.inbound.length < 262144 ∧ heapFit s 1 = some 0 := by decide +kernel

theorem witness_MovesReachTheirDestination :
    let s := mgSt 1 [(5, 3, none)] [(2, 1, 5, 3)]
    invB s = true ∧ (∀ m ∈ [MigStep.copy mgSnap, .final (some mgSnap) 4, .cancel], Asked s 1 (mgPk m) 0x15 ∧ (mgPk m).body = .mig 5 3 m)
         ∧ (∃ y ∈ s.tbl.inbound, y.1 = 5 ∧ y.2.1 = 3) ∧ guestOf s 5 3 = some 2 ∧ homeChip s tdD 3 ≠ myCoord s ∧ tdD.plink = false
         ∧ stateBytes tdD = 0 ∧ HbmSound s ∧ s.tbl.park = [] ∧ s.tbl.ov.length < 262144 ∧ mgSnap.a.length = tdD.rowBytes
         ∧ guestBase s + 512 * 2 + pitchOf tdD.rowBytes ≤ hbmCap s ∧ ovFind s 5 3 = none ∧ tdD.rule = 0 ∧ 0 < tdD.rowBytes := by decide +kernel

/-- The old owner: the move of row 3 to chip 1 for operation `r0`, and an answer to what it sent. -/
def moSt (b : Body) (own : Bool) : State :=
  let s := withTbl tdD { net with ops := [{ opOf r0 .running (dsc [(0, 0x0A), (128, 5), (140, 4), (192, 3), (256, 1)]) with work := .none }],
                                  reqs := [reqOf 40 (if own then some r0 else none) .mig (.of (hdrOf 0 0x15 0 1 40) b)] }
  { s with tbl := { s.tbl with migs := [⟨5, 3, 1, 0, false, false, some r0⟩] } }
def moQ (b : Body) (own : Bool) : Req := reqOf 40 (if own then some r0 else none) .mig (.of (hdrOf 0 0x15 0 1 40) b)
def moPk (ok : Bool) : Packet := .of { hdrOf 1 0x95 1 0 40 with len := 16 } (.migAck 5 3 ok)

theorem witness_MovesReachTheirDestination_answers :
    (∀ ok ∈ [false, true],
      let b := Body.mig 5 3 (.reserve 1)
      let s := moSt b false
      let q := moQ b false
      invB s = true ∧ Answers s 1 (moPk ok) 0x95 q ∧ q.kind = .mig ∧ q.pk.body = b ∧ tdGet s 5 = some tdD
        ∧ s.tbl.migs.find? (fun m => m.table == 5 && m.row == 3) = some ⟨5, 3, 1, 0, false, false, some r0⟩ ∧ (moPk ok).hdr.len ≠ 0
        ∧ (∃ x ∈ s.ops, findOp s r0 = some x ∧ x.phase ≠ .decided ∧ Bare x) ∧ tdD.plink = false ∧ stateBytes tdD = 0
        ∧ pathLost s (myCoord s) 1 = false ∧ Readable s (.hbm ((rowAt s 5 tdD 3).base tdD.active)) tdD.rowBytes)
    ∧ (let b := Body.mig 5 3 (.final (some mgSnap) 4)
       let s := moSt b true
       let q := moQ b true
       invB s = true ∧ Answers s 1 (moPk true) 0x95 q ∧ q.pk.body = b ∧ q.op = some r0
         ∧ (∃ x ∈ s.ops, findOp s r0 = some x ∧ x.phase ≠ .decided ∧ Bare x))
    ∧ (let s0 := withTbl tdD net
       let s := { s0 with ts := 90000000, tbl := { s0.tbl with ov := [⟨3, 5, 1, 7, 3, 0, 2⟩], fwdTs := [(5, 3, 0)], guests := [(2, 1, 5, 3)] } }
       ovFind s 5 3 = some ⟨3, 5, 1, 7, 3, 0, 2⟩ ∧ s.tbl.fwdTs.find? (fun y => y.1 == 5 && y.2.1 == 3) = some (5, 3, 0)
         ∧ (1 : Coord).toNat ≠ myCoord s ∧ 0 + graceNs s ≤ s.ts) :=
  ⟨by decide +kernel, by decide +kernel, by decide +kernel⟩

/-! ### Requests between chips -/

/-- A WRITE (0x10) or READ (0x11) of three bytes at 0x5000 with escapement 7 of generation 5. -/
def wrHdr (opc seq gen : Nat) : Hdr :=
  { hdrOf (if opc < 0x80 then 0 else 1) opc 1 0 40 with len := 3, seq := BitVec.ofNat 24 seq, esc := 7, gen := BitVec.ofNat 16 gen, addr := 0x5000, cnt := 2 }
def wrPk (opc seq gen : Nat) : Packet := .of (wrHdr opc seq gen) (if opc = 0x11 then .none else .raw [1, 2, 3])
def wrSt (st : EscState) (quota : Bool) : State :=
  { escR (if quota then net else setR [(hdmW 0 0x10, 0)] net) with hbm := ⟨[(0x5001, 9), (0x5003, 9)], []⟩, esc := [(7, esc7 st 5)] }

theorem witness_WritesAndReadsReachTheMemory :
    ∀ c ∈ [(EscState.armed, 1, 5, true), (.idle, 0, 5, true), (.idle, 1, 6, true), (.armed, 1, 5, false)],
      let s := wrSt c.1 c.2.2.2
      let pk := wrPk 0x10 c.2.1 c.2.2.1
      invB s = true ∧ (Loc.ofAddr pk.hdr.addr.toNat).near s = .hbm 0x5000 ∧ Asked s 1 pk 0x10 ∧ pk.hdr.len.toNat = 3
        ∧ 0x5000 + 3 ≤ hbmCap s ∧ HbmSound s ∧ EscSound s 7 ∧ escOwner s 7 = some pk.hdr.hd.toNat
        ∧ ((escAt s 7).gen = pk.hdr.gen ↔ c.2.2.1 = 5) ∧ NoWaiter s 7 ∧ inHbmQuota s pk.hdr.hd.toNat 0x5000 3 = c.2.2.2
        ∧ (escAt s 7).st = c.1 := by decide +kernel

theorem witness_WritesAndReadsReachTheMemory_read :
    ∀ quota ∈ [false, true],
      let s := wrSt .armed quota
      let pk := wrPk 0x11 1 5
      Asked s 1 pk 0x11 ∧ (Loc.ofAddr pk.hdr.addr.toNat).near s = .hbm 0x5000 ∧ inHbmQuota s pk.hdr.hd.toNat 0x5000 3 = quota
        ∧ Readable s (.hbm 0x5000) 3 := by decide +kernel

/-- An operation that has decided OK and waits for one answer. -/
def laOp : Op := { opOf r0 .running (dsc [(0, 6)]) with work := .xfer 0, detail := 7 }
def laSt (k : ReqKind) : State :=
  { escR net with ops := [laOp], reqs := [reqOf 40 (some r0) k (.of (hdrOf 0 0x10 0 1 40) .none)], esc := [(7, esc7 .armed 5)] }
def laPk (opc : Nat) (refused : Bool) : Packet :=
  .of (if refused then { hdrOf 1 opc 1 0 40 with addr := 0x11 } else wrHdr opc 1 5) (if opc = 0x91 then .raw [1, 2, 3] else .none)

theorem witness_AnswersEndOrReissueTheRequest :
    ∀ c ∈ [(ReqKind.write, 0x90, false), (.write, 0x90, true), (.rowUpd, 0x95, false), (.readMem 0x7000, 0x91, false)],
      let s := laSt c.1
      let q := reqOf 40 (some r0) c.1 (.of (hdrOf 0 0x10 0 1 40) .none)
      let pk := laPk c.2.1 c.2.2
      q.op = some r0 ∧ OpAt s r0 laOp .running laOp.code ∧ laOp.work = .xfer 0 ∧ laOp.region = []
        ∧ (∀ y ∈ s.reqs, y.op = some r0 → y.optag = q.optag) ∧ Answers s 1 pk c.2.1 q ∧ q.kind = c.1
        ∧ (refusalOf pk = 0 ↔ c.2.2 = false) ∧ q.pk.body = .none := by decide +kernel

theorem witness_AnswersEndOrReissueTheRequest_data :
    let s := laSt (.readMem 0x7000)
    let pk := laPk 0x91 false
    laOp.status.toNat / 16 = 0 ∧ LandsAt s laOp false 0x7000 3 (.hbm 0x7000) ∧ pk.hdr.len.toNat = 3 ∧ EscSound s pk.hdr.esc.toNat
      ∧ NoWaiter s pk.hdr.esc.toNat ∧ escOwner s pk.hdr.esc.toNat = some pk.hdr.hd.toNat
      ∧ (escAt s pk.hdr.esc.toNat).gen = pk.hdr.gen ∧ pk.hdr.seq ≠ 0 ∧ (escAt s pk.hdr.esc.toNat).st = .armed := by decide +kernel

/-- A request that is redirected for the first time, for the fourth, or told to wait; one that waits. -/
def rdQ (n : Nat) (busy : Bool) : Req :=
  { reqOf 40 (some r0) .pool (.of (hdrOf 0 0x13 0 1 40) (.poolReq (prq 3 7))) with redirects := n, busy := busy }
def rdSt (n : Nat) (busy : Bool) (ts : Nat) : State :=
  { withTbl tdD net with ops := [opOf r0 .running (dsc [(0, 2)])], reqs := [rdQ n busy, pjQ 41], ts := ts }
def rdPk (busy : Bool) : Packet := .of (hdrOf 1 0x96 1 0 40) (.redirect 1 busy [])

theorem witness_AnswersEndOrReissueTheRequest_redirect :
    (∀ n ∈ [0, 3], ∀ busy ∈ [false, true],
      let s := rdSt n false 5
      Answers s 1 (rdPk busy) 0x96 (rdQ n false) ∧ (rdPk busy).body = .redirect 1 busy [] ∧ (rdQ n false).redirects = n ∧ (rdQ n false).kind = .pool
        ∧ (rdQ n false).pk.body = .poolReq (prq 3 7) ∧ (rdQ n false).op = some r0 ∧ (∃ o ∈ s.ops, findOp s r0 = some o ∧ o.phase ≠ .decided))
    ∧ (∀ ts ∈ [1999, 2000],
      let s := rdSt 1 true ts
      s.reqs.find? (fun y => y.optag == 40 && y.busy) = some (rdQ 1 true) ∧ ((rdQ 1 true).since + 2000 ≤ s.ts ↔ ts = 2000)) := by
  decide +kernel

/-! ### The torus -/

/-- A chip in the middle of a slice of four along X, between ports 0 (X−) and 1 (X+), with credits on every VC or all of them
used up. -/
def midSt (creds up : Nat) : State :=
  setR ([(RTE, 3), (GLB_COORD, 1), (fabW 0 0, 1), (fabW 0 4, 0x44), (fabW 0 8, 0), (fabW 1 0, 0x41), (fabW 1 4, if up = 1 then 0x44 else 0), (fabW 1 8, 2)]
    ++ (List.range 24).map fun v => (RTE + 0x100 + 4 * v, 100))
    { rdy with links := if creds = 0 then [0, 1].map fun p => (linkKey p false, { linkAt rdy p false with sentFl := List.replicate 24 100 }) else [] }
def rtKind (r : Route) : Nat := match r with | .out p _ => 10 + p | .wait => 1 | .dead => 2
def ptPk : Packet := .of { hdrOf 0 0x13 0 2 77 with vc := 1 } .none
def injSt (creds up : Nat) : State :=
  let s := midSt creds up
  { s with outs := { s.outs with tx := [⟨.fabric, .packet { ptPk with hdr := { ptPk.hdr with src := 1 } }, none⟩] } }

theorem witness_PacketsTakeTheirRoute :
    (∀ c ∈ [(100, 1, 11), (0, 1, 1), (100, 0, 2)],
      let s := midSt c.1 c.2.1
      invB s = true ∧ ptPk.hdr.mcast = 0 ∧ Passes s 0 ptPk ∧ ptPk.hdr.dst.toNat ≠ myCoord s
        ∧ ptPk.hdr.epoch.toNat = fld (cfgOf s (RTE + 8)) 0 1 ∧ isReady s = true ∧ rtKind (routeOf s ptPk.hdr (cameBy s 0 ptPk)) = c.2.2
        ∧ ptPk.hdr.cls ≠ 4 ∧ (∀ q ∈ s.reqs, q.optag ≠ ptPk.hdr.optag))
    ∧ (let s := setR [(RST_STATUS, 4)] (midSt 100 1)
       invB s = true ∧ Passes s 0 ptPk ∧ ptPk.hdr.dst.toNat ≠ myCoord s ∧ ptPk.hdr.epoch.toNat = fld (cfgOf s (RTE + 8)) 0 1 ∧ isReady s = false)
    ∧ (∀ c ∈ [(100, 1, 11), (0, 1, 1), (100, 0, 2)],
      let s := injSt c.1 c.2.1
      let pk : Packet := { ptPk with hdr := { ptPk.hdr with src := 1 } }
      invB s = true ∧ s.outs.tx[0]? = some ⟨.fabric, .packet pk, none⟩ ∧ pk.hdr.mcast = 0 ∧ rtKind (routeOf s (sourced s pk).hdr none) = c.2.2) := by
  decide +kernel

/-- An entry along the X line: from chip 0, with one hop more to go, or from here. -/
def mcPk (src : Nat) : Packet := .of { hdrOf 3 0xC2 src src 77 with vc := 10, mcast := 1 } (.publish ⟨3, 5, 2, 8, 1, 0, 0⟩)
def mcSt (creds up : Nat) : State :=
  let s := setR [(RTE, 4), (RTE + 4, 3)] (midSt creds up)
  { s with outs := { s.outs with tx := [⟨.fabric, .packet (mcPk 1), none⟩] } }

theorem witness_PacketsTakeTheirRoute_line : ∀ c ∈ [(100, 1, 11), (0, 1, 1), (100, 0, 2)],
    let s := mcSt c.1 c.2.1
    invB s = true ∧ PassesLine s 0 (mcPk 0) ∧ (lineRoute s 0 (mcPk 0)).map rtKind = some c.2.2 ∧ isReady s = true ∧ (mcPk 0).hdr.cls = 3
      ∧ (2 : Coord).toNat ≠ myCoord s ∧ ovFind s 5 3 = none ∧ tdGet s 5 = none
      ∧ ((lineDirs s 0).map fun d => rtKind (escapeVia s (sourced s (mcPk 1)).hdr d.1 none)) = [c.2.2, if c.1 = 0 then 1 else 10] := by
  decide +kernel

/-- A fault record of kind `k` from chip 2, and the state with a request whose frame was lost. -/
def ffR (k : Nat) : FabFault := ⟨2, 9, k, 4, 2, 1, 0, 0x3000000000013000, BitVec.ofNat 64 (40 * 2 ^ 32), 77⟩
def ffPk (k : Nat) : Packet := .of (hdrOf 3 0xC0 0 1 0) (.fault (ffR k))
def ffSt (seen : Bool) : State :=
  { midSt 100 1 with rte := { State.reset.rte with seen := if seen then [(2, 9, 4)] else [] },
                     ops := [opOf r0 .running (dsc [(0, 2)])], reqs := [{ pjQ 40 with op := some r0 }] }

theorem witness_FaultRecordsSpread :
    ∀ seen ∈ [false, true], ∀ k ∈ [1, 2, 3],
      let s := ffSt seen
      invB s = true ∧ FromTorus s 0 (ffPk k) 3 0xC0 ∧ (ffPk k).body = .fault (ffR k) ∧ s.rte.seen.contains ((2 : Coord), (9 : BitVec 8), (4 : BitVec 16)) = seen
        ∧ fltHas s (ffR k) = false ∧ fltEntries s < 64 ∧ (ffR k).dir < 8 := by decide +kernel

theorem witness_FaultRecordsSpread_lost :
    (let s := setR [(GLB_COORD, 0x13)] (ffSt false)
       let pk := { ffPk 2 with hdr := { (ffPk 2).hdr with dst := 0x13 } }
       invB s = true ∧ FromTorus s 0 pk 3 0xC0 ∧ fld (ffR 2).word0.toNat 60 4 = 3 ∧ fld (ffR 2).word0.toNat 56 4 = 0 ∧ fld (ffR 2).word0.toNat 12 18 = myCoord s
         ∧ s.reqs.find? (fun q => q.via.isNone && q.optag.toNat == fld (ffR 2).word3.toNat 32 16) = some { pjQ 40 with op := some r0 }
         ∧ (∃ o ∈ s.ops, findOp s r0 = some o ∧ o.phase ≠ .decided))
    ∧ (let s := setR [(RTE + 0x300, 3), (RTE + 0x400, 5)] (ffSt false)
       s.hosts.present.getLsbD 0 = true ∧ bit (1 : Word).toNat 0 = true ∧ fltEntries s = 3) ∧ (pjQ 40).kind ∈ [ReqKind.pool, .contrib, .write] := by decide +kernel

/-- PUBLISH, LOAD and LOAD_WINDOW. -/
def pbE (owner : Coord) (oe : BitVec 16) : OvEntry := ⟨3, 5, owner, oe, 1, 0, 0⟩
def pbPk (owner : Coord) (oe : Nat) : Packet := .of (hdrOf 3 0xC2 1 0 0) (.publish (pbE owner (BitVec.ofNat 16 oe)))
def pbSt (held : Bool) : State :=
  let s := withTbl tdD { net with hbm := ⟨[(0x1000, 1)], []⟩ }
  { s with tbl := { s.tbl with ov := if held then [⟨3, 5, 1, 9, 1, 0, 0⟩] else [] } }
def ldPk : Packet := .of (hdrOf 3 0xC1 1 0 0) (.load 33)
/-- A window that ends with row 3 of table 5 hot; the neighbour is idle. -/
def tdM : TDesc := { tdD with migMode := 1 }
def lwSt (hot : Bool) : State :=
  let s := withTbl tdM (setR [(TBL, if hot then 3 else 2), (TBL + 4, 4 + 256 * 2 + 65536 * 10)] net)
  { s with ts := 1000000000, tbl := { s.tbl with load := 1000, hot := [(5, 3, 90)], nbr := [(1, 100)] } }

theorem witness_NeighboursShareLoadEntriesAndTime_publish : ∀ held ∈ [false, true], ∀ oe ∈ [8, 10],
    let s := pbSt held
    invB s = true ∧ FromTorus s 1 (pbPk 1 oe) 3 0xC2 ∧ (pbPk 1 oe).hdr.mcast = 0 ∧ (1 : Coord).toNat ≠ myCoord s ∧ s.tbl.ov.length < 262144
      ∧ (ovFind s 5 3).isSome = held ∧ tdGet s 5 = some tdD ∧ homeChip s tdD 3 ≠ myCoord s := by decide +kernel

theorem witness_NeighboursShareLoadEntriesAndTime_load : FromTorus net 1 ldPk 3 0xC1 ∧ ldPk.body = .load 33 := by decide +kernel

theorem witness_NeighboursShareLoadEntriesAndTime_window : ∀ hot ∈ [false, true],
    let s := lwSt hot
    (let s' := setR [(TBL, 0)] s
     invB s' = true ∧ isReady s' = true ∧ s'.tbl.winTs + 1000 * fld (regOf s' (TBL + 8)) 0 16 ≤ s'.ts ∧ bit (regOf s' TBL) 1 = false)
      ∧ invB s = true ∧ isReady s = true ∧ s.tbl.winTs + 1000 * fld (regOf s (TBL + 8)) 0 16 ≤ s.ts ∧ bit (regOf s TBL) 1 = true
      ∧ bit (regOf s TBL) 0 = hot ∧ lowest (nbrLoads s) = some (1, 100) ∧ s.tbl.hot = [(5, 3, 90)] ∧ s.tbl.migs = []
      ∧ tdGet s 5 = some tdM ∧ movable s 5 tdM 3 = true ∧ 0 < fld (regOf s (TBL + 4)) 0 8
      ∧ fld (regOf s (TBL + 4)) 16 16 ≤ 90 ∧ (16 + fld (regOf s (TBL + 4)) 8 8) * 100 < 16 * s.tbl.load
      ∧ hop s (myCoord s) 1 ≠ myCoord s ∧ pinned s < 262144 ∧ pathLost s (myCoord s) (hop s (myCoord s) 1) = false := by decide +kernel

/-- TIME from the only neighbour, and the last packet of the old epoch long gone. -/
def tmPk : Packet := .of (hdrOf 3 0xC3 1 0 0) (.time ⟨1000, 5, 9, 2⟩)
def tmSt (root : Nat) : State := { setR [(CLK + 0x20, root)] net with ts := 1000000000 }

theorem witness_NeighboursShareLoadEntriesAndTime_time : ∀ root ∈ [0, 1],
    let s := tmSt root
    invB s = true ∧ portUp s 1 = true ∧ (linkAt s 1 (upHalf s 1)).timeTs = 0 ∧ FromTorus s 1 tmPk 3 0xC3 ∧ timeRoot s = (root == 0)
      ∧ (∀ o < 6, o ≠ 1 → portUp s o = false) ∧ dirPort s (portDir s 1) = some 1 ∧ portDir s 1 < 6 ∧ isReady s = true
      ∧ oldCount s = 0 ∧ s.rte.oldTs + 1000 * fld (regOf s (RTE + 0xC)) 0 16 ≤ s.ts := by decide +kernel

/-! ### Links -/

/-- `net` with port 1's half A in this state and its link state. -/
def lkSt (state role : Nat) (l : Link) (ts : Nat) : State :=
  { setR [(fabW 1 4, state), (fabW 1 0, role + 0x40)] net with links := [(2, l)], ts := ts }
def lkL : Link := { linkZero with aligned := true, alignTs := 5, attempts := 3 }

theorem witness_PortsTrainAndDiscover :
    (∀ role ∈ [1, 2], ∀ att ∈ [3, 7],
      let s := lkSt TRAINING role { lkL with attempts := att } 500000005
      invB s = true ∧ halfOk s 1 false = true ∧ halfState s 1 false = TRAINING ∧ portRole s 1 = role
        ∧ (linkAt s 1 false).alignTs + 500000000 ≤ s.ts ∧ (linkAt s 1 false).attempts = att)
    ∧ (let s := lkSt DOWN 1 { lkL with aligned := false, downTs := 9 } 9
       invB s = true ∧ halfOk s 1 false = true ∧ halfState s 1 false = DOWN ∧ (linkAt s 1 false).downTs ≤ s.ts ∧ 6 ≤ stage s ∧ portRole s 1 ≠ 0)
    ∧ (∀ role ∈ [1, 2],
      let s := lkSt UP role lkL 9
      invB s = true ∧ (linkAt s 1 false).aligned = true ∧ portRole s 1 = role ∧ portUp s 1 = true ∧ halfState s 1 false ≠ FAILED)
    ∧ (let s := lkSt FAILED 2 lkL 9
       (linkAt s 1 false).aligned = true ∧ portRole s 1 ≠ 1 ∧ halfState s 1 false = FAILED) := by decide +kernel

/-- What the neighbour says of itself; the port of the neighbour is 0. -/
def hlR (inc : Nat) : HelloRec := { myHello net 0 false true 4096 with coord := 1, inc := BitVec.ofNat 8 inc, seen := 1 }
def exSt (s : State) : State := setR [(fabW 1 0x10, 1)] s

theorem witness_PortsTrainAndDiscover_hello :
    (∀ c ∈ [(DISCOVERY, 1000001), (UP, 1000000001)],
      let s := lkSt c.1 1 { lkL with helloTs := 1 } c.2
      invB s = true ∧ halfOk s 1 false = true ∧ portRole s 1 = 1 ∧ (linkAt s 1 false).aligned = true
        ∧ (linkAt s 1 false).helloTs + (if halfState s 1 false = DISCOVERY then 1000000 else 1000000000) ≤ s.ts)
    ∧ (∀ rx ∈ [none, some (hlR 9)],
      let s := exSt (lkSt DISCOVERY 1 { lkL with helloRx := rx } 100000005)
      invB s = true ∧ halfState s 1 false = DISCOVERY ∧ (linkAt s 1 false).helloRx = rx ∧ (hlR 9).chkOk = true ∧ (hlR 9).seen = 1
        ∧ (linkAt s 1 false).alignTs + 100000000 ≤ s.ts)
    ∧ (let s := exSt (lkSt UP 1 { lkL with helloRx := some (hlR 9) } 9)
       invB s = true ∧ halfState s 1 false = UP ∧ (linkAt s 1 false).helloRx = some (hlR 9)
         ∧ sameHello (hlR 9) { hlR 9 with maxPay := 5000 } = false ∧ sameHello (hlR 9) (hlR 10) = true ∧ (hlR 9).inc ≠ (hlR 10).inc)
    ∧ (let s := { exSt (lkSt UP 1 { lkL with helloRx := some (hlR 9) } 9) with
                    ops := [opOf r0 .running (dsc [(0, 2)])], reqs := [{ pjQ 40 with op := some r0 }] }
       s.reqs = [{ pjQ 40 with op := some r0 }] ∧ (1 : Coord).toNat = fld (regOf s (fabW 1 8)) 0 18
         ∧ ∃ o ∈ s.ops, findOp s r0 = some o ∧ o.phase ≠ .decided)
    ∧ (∀ rx ∈ [none, some (hlR 9)],
       let s := exSt (setR [(fabW 1 4, MISCABLED + 0x1100)] (lkSt MISCABLED 1 { lkL with helloRx := rx } 9))
       excluded s 1 false = true ∧ halfOk s 1 false = true ∧ portRole s 1 = 1 ∧ Wire.none.half = false ∧ (linkAt s 1 false).helloRx = rx
         ∧ (fld (regOf s (fabW 1 4)) 8 8 ≠ 1 ∨ (hlR 10).seen = 1) ∧ some (hlR 10) ≠ rx)
    ∧ (let s := setR [(fabW 1 0, 0x61), (fabW 1 4, MISCABLED + 0x1100)] (lkSt MISCABLED 1 lkL 100000005)
       invB s = true ∧ (linkAt s 1 false).aligned = true ∧ (linkAt s 1 false).alignTs + 100000000 ≤ s.ts
         ∧ bit (regOf s (fabW 1 0)) 5 = true ∧ halfState s 1 false = MISCABLED ∧ fld (regOf s (fabW 1 4)) 8 8 ∈ [0x11, 0x12]
         ∧ (adoptDir s 1).isSome = true ∧ (∀ o < 6, ∀ b, o ≠ 1 → halfState s o b ≠ MISCABLED)) := by
  refine ⟨by decide +kernel, by decide +kernel, by decide +kernel, by decide +kernel, by decide +kernel, by decide +kernel⟩

/-- Two frames not acknowledged, LSEQ 7 and 8. -/
def rtPk (tag : Nat) : Packet := .of { hdrOf 0 0x13 0 1 tag with len := 100 } .none
def lrL : Link := { lkL with retry := [(7, rtPk 40), (8, rtPk 41)], lseqTx := 9, lseqRx := 5, ackTs := 3, nakSeq := 7, naks := 1 }
def lrSt (l : Link) : State := { setR [(RTE + 0xC, 2 * 2 ^ 24 + 5 * 65536)] (lkSt 0x44 1 l 6000) with pending := [] }
/-- A frame's wire with this LSEQ; a credit is still owed to the tail of a frame. -/
def lqW (n : Nat) : Wire := linkWire false (BitVec.ofNat 16 n) false
def owL : Link := { lrL with owed := [⟨7, 3, none⟩], sentFl := List.replicate 24 100, credFl := List.replicate 24 0 }
def bhH : Hdr := { hdrOf 0 0x55 1 0 0 with vc := 1, len := 8 }

theorem witness_LinkRetryKeepsTheOrder :
    (∀ w ∈ [false, true],
      let s := lrSt { lrL with nakWait := w }
      invB s = true ∧ halfState s 1 false = UP ∧ portRole s 1 = 1 ∧ halfOk s 1 false = true ∧ (linkAt s 1 false).nakWait = w
        ∧ (linkAt s 1 false).retry ≠ [] ∧ (linkAt s 1 false).ackTs + 1000 * fld (regOf s (RTE + 0xC)) 16 8 ≤ s.ts)
    ∧ (let s := lrSt lrL
       let n (ack : BitVec 16) : Nat :=
         if lrL.nakSeq = ack + 1 ∧ lrL.naks ≠ 0 ∧ ¬((afterAck ack lrL.retry).length < lrL.retry.length) then lrL.naks + 1 else 1
       n 7 < max 1 (fld (regOf s (RTE + 0xC)) 24 4) ∧ max 1 (fld (regOf s (RTE + 0xC)) 24 4) ≤ n 6)
    ∧ (hdrBad (lrSt lrL) 1 bhH 8 = true ∧ hdrBad (lrSt lrL) 1 { bhH with op := 0x13 } 8 = false)
    ∧ (let s := lrSt owL
       ∀ w ∈ (linkAt s 1 false).owed, w.src = none ∧ 0 < w.n ∧ (linkAt s 1 false).owed = [w])
    ∧ (lrL.owed = [] ∧ lrL.overrun = false ∧ (let s := lrSt { lrL with overrun := true }; (linkAt s 1 false).overrun = true ∧ halfOk s 1 false = true))
    ∧ (∀ n ∈ [5, 6], (lqW n).half = false ∧ inOrder (lrSt lrL) 1 (lqW n) = (n == 5)) := by decide +kernel

/-! ### Collectives -/

/-- Group 0 of domain 0 over these axes in a slice of two along X; bucket 0 is 10 elements of slot 3 to 0x7000, its gathered weights go
to 0x9000. -/
def clE : List Byte :=
  leBytes 4 0 ++ leBytes 4 3 ++ leBytes 4 2 ++ leBytes 4 10 ++ leBytes 8 0x7000 ++ leBytes 4 64 ++ leBytes 4 0 ++ leBytes 16 0
    ++ leBytes 8 0x9000 ++ leBytes 1 2 ++ leBytes 7 0
def clSt (axes : Nat) (ops : List Op) (bk : List ColBk) (cred : List (ColKey × Nat)) : State :=
  { setR [(grpW 0 0, 1 + 8 * axes), (grpW 0 2, 10), (grpW 0 3, 0x6000), (grpW 0 5, 1), (slotW 3 0, 16 + 2 ^ 24), (slotW 3 1, 20), (claimW 3, 0x10009)] net with
    ops := ops, hbm := ⟨cellsAt 0x6000 clE ++ cellsAt 0x9000 (leBytes 4 0x11223344), []⟩,
    well := ⟨cellsAt (4 * 18) ((List.range 10).flatMap fun i => leBytes 4 (0x3F800000 + i * 0x100000)), []⟩,
    col := { State.reset.col with bk := bk, cred := cred, seen := [(0, 0, 5)] }, ts := 100 }
def clOp (sub : Nat) (p : OpPhase) : Op := opOf r0 p (dsc [(0, 7), (128, sub)])
def clBk (op : Option OpRef) : ColBk :=
  { g := 0, b := 0, step := 0, op := op, stage := 0, halves := [], vecs := [], res := [], accs := [(0, pfxZero)], lateSelf := false, fault := false,
    done := false, mats := [], full := [], since := 5, ended := false }

theorem witness_CollectivesReduce :
    let s := clSt 0 [clOp 0 .ready] [clBk (some r0)] []
    let o := clOp 0 .ready
    let e := bktSee s (colGroup o) (colBucket o)
    invB s = true ∧ OpAt s r0 o .ready 7 ∧ colSub o = 0 ∧ colCells o = 0 ∧ grpPhases s (colGroup o) = []
      ∧ BucketAt s r0 (colGroup o) (colBucket o) 0x7000 ∧ s.col.bk = [clBk (some r0)]
      ∧ isBk (colGroup o) (colBucket o) o.step (clBk (some r0)) = true ∧ s.col.held = [] ∧ s.col.ctx = []
      ∧ (∀ i, i < e.elems → codeFin (wellWord s s.well e.slot (e.off + i)) = true) := by decide +kernel

/-- GRANT (0xE1) of one slot, or STITCH (0xE0) of this chip's own chunk, by the + ring. -/
def clKey : ColKey := ⟨0, 0, 0, 0, false⟩
def clPk (opc : Nat) (cs : List Nat) : Packet :=
  .of { hdrOf 4 opc 1 0 0 with vc := 12, addr := if opc = 0xE1 then 1 else 0 } (if opc = 0xE0 then .stitch pfxZero cs else .none)
def clCs : List Nat := [0x3F80, 0x4000, 0xBF80, 0, 0x4040]

theorem witness_CollectivesReduce_grant : ∀ op ∈ [none, some r0],
    let s := clSt 1 (if op.isSome then [clOp 0 .running] else []) [clBk op] []
    let e := bktSee s 0 0
    let span := halfSpan s (clBk op) 0 false (originChunk s 0 0 false)
    let term := (List.range (min 2040 span.2)).map fun i => wellWord s s.well e.slot (e.off + span.1 + i)
    invB s = true ∧ FromRing s 1 (clPk 0xE1 []) 0xE1 clKey ∧ OneBucket s (clBk op) ∧ isBk clKey.g clKey.b clKey.step (clBk op) = true
      ∧ s.col.cred = [] ∧ colExpired s clKey.g clKey.step = false ∧ fld (clPk 0xE1 []).hdr.addr.toNat 0 16 = 1
      ∧ (op.isSome = true → findOp s r0 = some (clOp 0 .running)) ∧ 0 < span.2
      ∧ (∀ v ∈ term, codeFin v = true ∧ (vbf (rbf (v32 v))).isFin = true) := by decide +kernel

theorem witness_CollectivesReduce_bucket : BucketAt (clSt 1 [clOp 0 .running] [clBk (some r0)] []) r0 clKey.g clKey.b 0x7000 := by
  decide +kernel

theorem witness_CollectivesReduce_stitch :
    let s := clSt 1 [clOp 0 .running] [clBk (some r0)] []
    let pk := clPk 0xE0 clCs
    let e := bktSee s 0 0
    let j := ringPos s 0 0
    let span := halfSpan s (clBk (some r0)) 0 false j
    let at_ := (halfOf (chunkOf e.elems (ringSize s 0 0) j).2 false).1 + 0
    invB s = true ∧ FromRing s 1 pk 0xE0 clKey ∧ OneBucket s (clBk (some r0)) ∧ isBk clKey.g clKey.b clKey.step (clBk (some r0)) = true
      ∧ s.col.cred = [] ∧ findOp s r0 = some (clOp 0 .running) ∧ BucketAt s r0 0 0 0x7000 ∧ fld pk.hdr.addr.toNat 24 5 = j
      ∧ fld pk.hdr.addr.toNat 0 24 = 0 ∧ 3 ≤ span.2 ∧ 4 * (at_ + 3) ≤ e.destB := by decide +kernel

theorem witness_CollectivesReduce_straggler :
    let s := setR [(grpW 0 1, 50)] (clSt 1 [] [clBk none] [(clKey, 1)])
    invB s = true ∧ OneBucket s (clBk none) ∧ clKey = ⟨0, (clBk none).b, (clBk none).step, 0, clKey.minus⟩ ∧ colExpired s 0 0 = true ∧ bkOp s (clBk none) = none := by
  decide +kernel

/-- A gather of the shard, its bytes from the other chip, verdicts, and an old bucket. -/
def agX : ColAg := ⟨0, 0, 0, 0, none, [], [], 5⟩
def agSt : State := let s := clSt 1 [] [] []; { s with col := { s.col with ag := [agX] } }
def agPk : Packet := .of { hdrOf 4 0xE2 1 0 0 with vc := 13, addr := 10, mcast := 1 } (.raw [1, 2, 3, 4])
def vdV (shards line : Nat) : ColVer := ⟨0, 0, shards, false, line, []⟩
def vdSt (shards line : Nat) : State := let s := clSt 1 [] [] []; { s with col := { s.col with ver := [vdV shards line] } }
def vdPk : Packet := .of { hdrOf 4 0xE3 1 0 0 with vc := 13, addr := 1, mcast := 1 } .none

def toSt : State :=
  let s := clSt 1 [clOp 0 .running] [clBk (some r0)] []
  { s with ts := 20000000, col := { s.col with ctx := [⟨clKey, 0⟩] } }

theorem witness_CollectivesGatherAndJudge :
    (∀ axes ∈ [0, 1],
      let o := clOp 1 .ready
      let s := clSt axes [o] [] []
      let e := bktSee s 0 0
      let sh := shardOf s 0 e.elems
      invB s = true ∧ OpAt s r0 o .ready 7 ∧ colSub o = 1 ∧ findAg s 0 0 o.step 0 = none
        ∧ s.col.seen.any (fun y => y.1 == 0 && y.2.1 == o.step) = true ∧ grpPhases s 0 = (if axes = 0 then [] else [0])
        ∧ (axes = 1 → 0 < e.wb * sh.2 ∧ e.wb * sh.2 ≤ 4096 ∧ sh.2 < e.elems
            ∧ weightParts (e.weight + e.wb * sh.1) (e.wb * sh.2) = [(0, e.wb * sh.2)]
            ∧ placeHeld o.hold s (grpOwner s 0) (e.weight + e.wb * sh.1) (e.wb * sh.2) true = .here (.hbm (0x9000 + e.wb * sh.1))
            ∧ Readable s (.hbm (0x9000 + e.wb * sh.1)) (e.wb * sh.2)))
    ∧ (let s := agSt
       invB s = true ∧ FromRing s 1 agPk 0xE2 clKey ∧ agPk.body = .raw [1, 2, 3, 4] ∧ s.col.bk = []
         ∧ s.col.seen.any (fun y => y.1 == 0 && y.2.1 == clKey.step) = true ∧ findAg s 0 0 0 0 = some agX ∧ agX.op = none ∧ agX.sent = [] ∧ grpPhases s 0 ≠ []
         ∧ isRow (Loc.ofAddr ((bktSee s 0 0).weight + 10)) = false ∧ weightFree s (bktSee s 0 0).weight = true
         ∧ place s (grpOwner s 0) ((bktSee s 0 0).weight + fld agPk.hdr.addr.toNat 0 28) 4 true = .here (.hbm 0x900A) ∧ HbmSound s) := by
  refine ⟨fun axes h => ?_, by decide +kernel⟩
  revert h; revert axes; decide +kernel

theorem witness_CollectivesGatherAndJudge_verdict :
    (∀ c ∈ [(0, 0), (1, 1)],
      let s := vdSt c.1 c.2
      let v := vdV c.1 c.2
      invB s = true ∧ FromRing s 1 vdPk 0xE3 clKey ∧ s.col.ver.find? (fun v => v.g == 0 && v.step == clKey.step) = some v
        ∧ (v.shards < grpBuckets s 0 ↔ c.1 = 0)
        ∧ (c.1 = 1 → v.line = (grpPhases s 0).length ∧ clKey.phase + 1 = v.line
            ∧ (v.got.filter fun x => x.1 + 1 == v.line).length + 2 = ringSize s 0 clKey.phase))
    ∧ (let s := toSt
       invB s = true ∧ (∃ c ∈ s.col.ctx, c.key.g = 0 ∧ (findBk s 0 c.key.b c.key.step).any fun x => decide (x.since + grpTimeout s 0 ≤ s.ts))
         ∧ (∃ o ∈ grpOps s 0, findOp s r0 = some o)) := by decide +kernel

/-! ### Open ports, peers and queue pairs -/

/-- An open port 6 that is UP, its link state, with the services on; peer 3 and queue pair 5 use it. -/
def opnSt (l : Link) (ts : Nat) : State :=
  let s := setR [(fabW 6 0, 2), (fabW 6 4, UP), (fabW 6 0x20, 0x060504), (fabW 6 0x24, 0x0807), (fabW 6 0x34, 0x0A000001), (fabW 6 0x58, 0xFF),
    (fabW 6 0x5C, 100), (SVC, 3), (SVC + 4, 100 + 3 * 65536), (peerW 3 0, 1 + 2 * 2 ^ 21 + 3 * 2 ^ 23), (peerW 3 2, 7),
    (peerW 3 4, 0xAABBCCDD), (peerW 3 3, 0xEEFF0000), (qpW 5 0, 1 + 2 ^ 13), (qpW 5 2, 20), (qpW 5 3, 2 * 2 ^ 24 + 2 ^ 27), (qpW 5 4, 0x0A000009),
    (SVC + 0x3000, 0x2D), (SVC + 0x3004, 5 * 4096), (SVC + 0x300C, 16)] rdy
  { s with links := [(12, l)], ts := ts }
def opnL : Link := { linkZero with aligned := true, queue := [(3, ⟨.peer 3, .packet (rtPk 50), none⟩), (4, ⟨.peer 3, .packet (rtPk 51), none⟩)] }
def pzL : Link := { opnL with paused := [(3, 500, 100)], xoff := [(2, 5)] }

theorem witness_OpenPortsPauseAndAnswer :
    (let s := opnSt opnL 1000
     invB s = true ∧ openUp s 6 false = true ∧ prioOn s 6 3 = true ∧ ((linkAt s 6 false).paused.any fun y => y.1 == 3) = false)
    ∧ (let s := setR [(fabW 6 0x58, 0)] (opnSt opnL 1000)
       openUp s 6 false = true ∧ prioOn s 6 3 = false)
    ∧ (let s := opnSt pzL 200000000
       openUp s 6 false = true ∧ (linkAt s 6 false).paused.find? (fun z => z.1 == 3) = some (3, 500, 100) ∧ 500 ≤ s.ts
         ∧ 100 + 1000000 * fld (regOf s (fabW 6 0x5C)) 0 16 ≤ s.ts ∧ (linkAt s 6 false).storm.contains 3 = false
         ∧ prioOn s 6 2 = true ∧ (∀ y ∈ (linkAt s 6 false).xoff, y.1 = 2 → y.2 + 20000 ≤ s.ts)) := by decide +kernel

/-- Frames for Crown and for the services, and one with a bad FCS. -/
def ehF (fcs : Bool) : Frame := ⟨fcs, 100, 0x080700060504, 0x0800, 0, none, some ⟨false, 0x0A000001, false, .echo⟩, none, 0, false⟩
def ghH : Hdr := { hdrOf 3 0 7 3 0 with ver := 0 }
def ghF : Frame := ⟨true, 100, 0x080700060504, 0x88B5, 0, none, none, some { ghH with dst := 7, src := 3 }, 0xEEFFAABBCCDD, false⟩

theorem witness_OpenPortsPauseAndAnswer_frames :
    (∀ c ∈ [(0, true), (1024, true), (0, false)],
      let s := setR [(CRN_STATUS, if c.2 then 1 else 0)] (opnSt { opnL with crownCnt := c.1 } 5)
      let k := linkAt s 6 false
      invB s = true ∧ openUp s 6 false = true ∧ (0x0A000001 : BitVec 32).toNat = portIp4 s 6
        ∧ (BitVec.ofNat 128 (portIp6 s 6)).toNat = portIp6 s 6 ∧ openFilter s 6 false (ehF true) = .crown ∧ crownUp s = c.2
        ∧ s.ts < k.crownTs + 1000000000 ∧ k.crownCnt = c.1 ∧ RxRoom s 6 false (prioOf (ehF true).prio)
        ∧ (BitVec.ofNat 128 (linkLocal s 6 false)).toNat = linkLocal s 6 false)
    ∧ (let s := opnSt opnL 5
       (linkAt s 6 false).aligned = true ∧ openFilter s 6 false (ehF false) = .drop (fabW 6 0x10C)
         ∧ openFilter s 6 false ghF = .ghedin { ghH with dst := 7, src := 3 } ∧ peerDrop s 6 false 0xEEFFAABBCCDE { ghH with dst := 7, src := 3 } = some (SVC + 0x10)) := by decide +kernel

/-- A peer that has been heard of, with a packet held for it and an operation that waits. -/
def prX : Peer := { hello := some (hlR 9), seenRx := true, last := 5, sent := 5, held := [⟨rtPk 40, 1, 5⟩], dedup := [(40, 2, 5), (41, 2, 5)],
                    rate := 5000, cutTs := 0, ecnTs := 5, flagDue := none }
def prSt' (x : Peer) (ts : Nat) : State :=
  { opnSt opnL ts with peers := [(3, x)], ops := [opOf r0 .running (dsc [(0, 9)])],
                       reqs := [{ reqOf 40 (some r0) .write (rtPk 40) with via := some 3 }] }
def eaPk : Packet := { Packet.of { hdrOf 1 0x97 3 7 40 with src := 3, dst := 7 } .none with wire := { Wire.none with src := 0xEEFFAABBCCDD } }

theorem witness_PeersComeUpAndGoDown :
    (∀ x ∈ [prX, { prX with sent := 0, hello := none, seenRx := false, rate := 10000 }],
      let s := prSt' x 5000000005
      invB s = true ∧ peerValid s 3 = true ∧ openUp s (peerPort s 3) (peerHalf s 3) = true ∧ OpenSends s (peerPort s 3) (peerHalf s 3) 3
        ∧ (x.sent = 0 ∨ x.sent + (if x.seenRx then 1000000000 else 100000000) ≤ s.ts))
    ∧ (∀ inc ∈ [9, 10],
      let s := prSt' prX 5000000005
      openUp s 6 false = true ∧ openFilter s 6 false ghF = .ghedin { ghH with dst := 7, src := 3 } ∧ (hlR inc).chkOk = true
        ∧ peerDrop s 6 false ghF.srcAddr.toNat { ghH with dst := 7, src := 3 } = none ∧ isHello { ghH with dst := 7, src := 3 } = true ∧ RxRoom s 6 false (prioOf ghF.prio) ∧ (hlR inc).seen = 1 ∧ topVersion 0xC (hlR inc).versions.toNat ≠ 0
        ∧ ((∀ o, prX.hello = some o → o.inc = (hlR inc).inc) ↔ inc = 9))
    ∧ (let s := prSt' prX 5000000005
       peerState s 3 ≠ 0 ∧ prX.last + 5000000000 ≤ s.ts ∧ (∃ y, s.reqs = [y] ∧ y.via = some 3 ∧ y.kind = .write ∧ y.optag = 40 ∧ y.op = some r0
           ∧ y.pk.body = .none)
         ∧ (∃ o ∈ s.ops, findOp s r0 = some o ∧ o.phase ≠ .decided)
         ∧ halfState s 6 eaPk.wire.half = UP ∧ RxRoom s 6 eaPk.wire.half (prioOf eaPk.wire.prio)
           ∧ peerDrop s 6 eaPk.wire.half eaPk.wire.src.toNat eaPk.hdr = none ∧ fld eaPk.hdr.src.toNat 0 8 = 3 ∧ eaPk.ce = false ∧ bit eaPk.hdr.flags.toNat 0 = false)
    ∧ (∀ tries ∈ [1, 3],
      let h : HeldPk := ⟨rtPk 40, tries, 5⟩
      let s := prSt' { prX with held := [h] } 5000000005
      (peerAt s 3).held.find? (fun h => h.pk.hdr.optag == 40 && h.pk.hdr.seq == 0) = some h
        ∧ h.since + 1000 * fld (regOf s (SVC + 4)) 0 16 ≤ s.ts ∧ (h.tries < fld (regOf s (SVC + 4)) 16 4 ↔ tries = 1)
        ∧ OpenSends s (peerPort s 3) (peerHalf s 3) h.pk.hdr.cls.toNat ∧ (peerAt s 3).flagDue = none)
    ∧ (let s := setR [(fabW 6 0x60, 1)] (prSt' { prX with flagDue := some 5 } 5000000005)
       invB s = true ∧ (peerAt s 3).flagDue = some 5 ∧ 5 + 10000 ≤ s.ts ∧ OpenSends s (peerPort s 3) (peerHalf s 3) 1
         ∧ ecnOn s (peerPort s 3) = true ∧ ecnOn (setR [(fabW 6 0x60, 0)] s) (peerPort s 3) = false ∧ (peerAt s 3).rate < 10000 ∧ (peerAt s 3).ecnTs + 50000 ≤ s.ts) := by
  refine ⟨by decide +kernel, ?_, ?_, by decide +kernel, by decide +kernel⟩
  · intro inc h
    have p : ∀ inc ∈ [9, 10], let s := prSt' prX 5000000005
        openUp s 6 false = true ∧ openFilter s 6 false ghF = .ghedin { ghH with dst := 7, src := 3 } ∧ (hlR inc).chkOk = true
          ∧ peerDrop s 6 false ghF.srcAddr.toNat { ghH with dst := 7, src := 3 } = none ∧ isHello { ghH with dst := 7, src := 3 } = true ∧ RxRoom s 6 false (prioOf ghF.prio) ∧ (hlR inc).seen = 1 ∧ topVersion 0xC (hlR inc).versions.toNat ≠ 0
          ∧ ((hlR 9).inc = (hlR inc).inc ↔ inc = 9) := by decide +kernel
    obtain ⟨a, b, c, d, e, f, i, j, g⟩ := p inc h
    exact ⟨a, b, c, d, e, f, i, j, ⟨fun x => g.1 (x _ rfl), fun x o y => by cases y; exact g.2 x⟩⟩
  · exact ⟨by decide +kernel, by decide +kernel, ⟨_, rfl, by decide +kernel⟩, by decide +kernel, by decide +kernel, by decide +kernel,
      by decide +kernel, by decide +kernel, by decide +kernel, by decide +kernel⟩

/-- Queue pair 5 and packets of its partner. -/
def qpX : Qp := { qpZero with answers := [⟨18, [1, 2], 1, 5⟩, ⟨19, [3], 0, 7⟩], cutTs := 0, rate := 8000 }
def qpSt (x : Qp) (ts : Nat) : State := { opnSt opnL ts with qps := [(5, x)] }
def rkP (psn : Nat) (first last : Bool) (key : Nat) (n : Nat) : RocePkt :=
  ⟨BitVec.ofNat 24 psn, first, last, 0x40, BitVec.ofNat 32 key, n, List.replicate n 7, 0x0A000009, false, false, none⟩

theorem witness_QueuePairsServeTheirPartner :
    (let s := qpSt qpX 100000
     invB s = true ∧ QpServes s 5 ∧ qpPsn s 5 = 20 ∧ qpOps s 5 = [] ∧ qpReads s 5 < 16 ∧ (qpAt s 5).reqs = [] ∧ (qpAt s 5).unacked + 1 < 16
       ∧ bit (regOf s SVC) 1 = true ∧ qpState s 5 = 1 ∧ (qpAt s 5).answers ≠ [] ∧ s.hosts.present.getLsbD 0 = true)
    ∧ (∀ psn ∈ [20, 21, 19], ∀ last ∈ [false, true],
      let s := qpSt qpX 100000
      let k := rkP psn true last 0 3
      FromPartner s 5 k ∧ (k.psn = qpPsn s 5 ↔ psn = 20) ∧ (8388608 ≤ (k.psn - qpPsn s 5).toNat ↔ psn = 19) ∧ k.first = true ∧ k.last = last
        ∧ 0 < k.data.length ∧ roceAddr s k.rkey.toNat k.va.toNat (max k.data.length k.dmaLen) 1 = some 0x5040
        ∧ roceAddr s k.rkey.toNat k.va.toNat k.dmaLen 0 = some 0x5040 ∧ (Loc.ofAddr 0x5040).near s = .hbm 0x5040
        ∧ inHbmQuota s (svcDom s) 0x5040 k.data.length = true ∧ HbmSound s ∧ 0x5040 + k.data.length ≤ hbmCap s
        ∧ roceAddr s (rkP psn true last 0x100 3).rkey.toNat 0x40 3 1 = none ∧ blkOf k.data = none ∧ svcDom s = 0
        ∧ findOp s (refOf 0 65 10) = none)
    ∧ (let s := qpSt qpX 100000
       (qpAt s 5).answers = ⟨18, [1, 2], 1, 5⟩ :: [⟨19, [3], 0, 7⟩] ∧ 5 + 4096 * 2 ^ fld (regOf s (qpW 5 3)) 27 5 ≤ s.ts
         ∧ 1 < fld (regOf s (qpW 5 3)) 24 3
         ∧ fld (regOf (setR [(qpW 5 3, 2 ^ 24 + 2 ^ 27)] s) (qpW 5 3)) 24 3 ≤ 1) := by decide +kernel

/-! ### Configuration transactions, the calibre image and registers -/

/-- A transaction in this state, with these shadows. -/
def txnSt (x : TxnSt) (sh : List (Nat × Nat)) : State :=
  { rdy with
    ts := 2000000000
    clb := { State.reset.clb with st := x, id := 7, since := 5 }
    shadow := sh.map fun y => (y.1, BitVec.ofNat 32 y.2) }

theorem witness_TransactionsFollowTheirTable :
    (∀ x ∈ [TxnSt.idle, .open, .checking, .quiescing, .image], invB (txnSt x []) = true ∧ Steward (txnSt x []) ∧ (txnSt x []).clb.st = x)
    ∧ (let s := txnSt .open [(MEM + 0x3004, 0)]
       invB s = true ∧ s.clb.since + 1000000 * fld (regOf s CLB_TXN_CFG) 0 16 ≤ s.ts ∧ (staticFails s (candidate s)).length = 0)
    ∧ (let s := txnSt .open [(RTE + 0x100, 0)]
       invB s = true ∧ (staticFails s (candidate s)).length = 1 ∧ s.clb.img = none
         ∧ sub32 (regOf s CLB_LOG_PROD) (regOf s CLB_LOG_CONS) + 1 ≤ 512) :=
  ⟨by decide +kernel, by decide +kernel, by decide +kernel⟩

theorem witness_RwlWritesReachTheShadow :
    (∀ x ∈ [TxnSt.idle, .open], let s := txnSt x [(MEM + 0x3004, 9), (MEM + 0x3030, 5)]
      invB s = true ∧ mapOrd none s.shadow = true ∧ Steward s)
    ∧ ((regInfo (BitVec.ofNat 26 (MEM + 0x3030)).toNat).any fun r => r.mark == .shared && (rwFlds r).isEmpty) = true
    ∧ ((regInfo (BitVec.ofNat 26 CLB_TXN_CFG).toNat).any fun r => r.mark == .shared && !(rwFlds r).isEmpty) = true
    ∧ rwlFlds (BitVec.ofNat 26 CLB_TXN_CFG).toNat ≠ [] ∧ (rwlFlds (BitVec.ofNat 26 (MEM + 0x3030)).toNat).length = 1 := by
  decide +kernel

theorem witness_QuietPointAppliesTheCommit :
    (∀ v ∈ [0, 9], let s := txnSt .quiescing [(MEM + 0x3004, v), (MEM + 0x3030, 5)]
      invB s = true ∧ s.clb.st = .quiescing ∧ s.clb.img = none ∧ s.hosts.phaseReq = 0 ∧ s.ops = [] ∧ (∀ x ∈ s.shadow, rwlFlds x.1 ≠ [])
        ∧ quietFails s (candidate s) = [] ∧ (∀ a ∈ txnAddrs s, plainReg a = true) ∧ (clampsOf s = [] ↔ v = 9))
    ∧ (let s := { txnSt .quiescing [(RTE + 0x100, 3)] with regs := net.regs }
       invB s = true ∧ s.clb.st = .quiescing ∧ s.clb.img = none ∧ (∀ x ∈ s.shadow, rwlFlds x.1 ≠ []) ∧ quietFails s (candidate s) ≠ []) := by
  decide +kernel

/-- A load from host memory, or from chip 1, is set up. -/
def imgSt (crown : Nat) (far : Bool) (n : Nat) : State :=
  setR [(CLB + 0x10, if far then 0x100 else 0x101), (CLB + 0x14, if far then farA 1 0 / 2 ^ 32 else 0), (CLB + 0x18, n), (CRN_STATUS, crown)] net

theorem witness_ImageLoadsAreChecked :
    (let s := { imgSt 1 false 0 with clb := { rdy.clb with st := .open } }
     invB s = true ∧ Steward s ∧ bit (1 : Word).toNat 0 = true ∧ s.clb.st ≠ .idle)
    ∧ (let s := setR [(CLB_IMG_STATUS, 1)] (imgSt 1 false 0)
       invB s = true ∧ Steward s ∧ bit (regOf s CLB_IMG_STATUS) 0 = true)
    ∧ (∀ k ∈ [1, 2, 3], let s := imgSt k false 64
       invB s = true ∧ Steward s ∧ s.clb.st = .idle ∧ bit (regOf s CLB_IMG_STATUS) 0 = false ∧ s.reqs.any (imageReq false) = false
         ∧ crownState s = k ∧ s.clb.buf = [] ∧ bit (regOf s (CLB + 0x10)) 0 = true
         ∧ imgChecks s 64 (hostRead s none 0 (imgSrc s) 64) = some (BAD_DESCRIPTOR, 2, 0))
    ∧ (let s := imgSt 1 true 128
       invB s = true ∧ Steward s ∧ s.clb.st = .idle ∧ bit (regOf s CLB_IMG_STATUS) 0 = false ∧ s.reqs.any (imageReq false) = false
         ∧ crownState s = 1 ∧ s.clb.buf = [] ∧ bit (regOf s (CLB + 0x10)) 0 = false ∧ imgPlace s (imgSrc s) 128 = .far 1 (farA 1 0x100)
         ∧ imgBytes s = 128 ∧ pathLost s (myCoord s) 1 = false) := by
  decide +kernel

/-- READY, with HDM_STEP and the summary of the fault log written. -/
def regSt : State := setP 2 [(hdmW 2 0x60, 7)] (setR [(FLT_SUMMARY, 0x806)] rdy)

theorem witness_RegisterWritesFollowTheMap :
    invB regSt = true ∧ Steward regSt
    ∧ (∀ d : Fin 4, regSt.hosts.present.getLsbD d.val = true ∧ regInfo (BitVec.ofNat 26 (hdmW d.val 0x60)).toNat ≠ none
        ∧ (BitVec.ofNat 26 (hdmW d.val 0x60)).toNat = hdmW d.val 0x60)
    ∧ (∀ a ∈ [0x3FFFFFC, MEM + 0x3001], regInfo (BitVec.ofNat 26 a).toNat = none)
    ∧ ((regInfo (BitVec.ofNat 26 CLB_TXN_CFG).toNat).any fun r => r.mark == .shared) = true
    ∧ ((regInfo (BitVec.ofNat 26 (CRN + 0x24)).toNat).any fun r => r.mark == .shared
        && (rwFlds r).all fun f => rwStored f (fld (0xFFFFFFFF : Word).toNat f.lsb f.width) == fld (0xFFFFFFFF : Word).toNat f.lsb f.width) = true
    ∧ actionReg (BitVec.ofNat 26 (CRN + 0x24)).toNat = false ∧ rwlFlds (BitVec.ofNat 26 (CRN + 0x24)).toNat = []
    ∧ (BitVec.ofNat 26 FLT_SUMMARY).toNat = FLT_SUMMARY
    ∧ badAccess regSt 1 (MEM + 0x3000) true 7 = true ∧ badAccess regSt 1 (MEM + 0x3000) true 15 = false
    ∧ badAccess regSt 1 (MEM + 0x3001) false 0 = true := by
  decide +kernel

/-- HBM with one sector of this state, at 0x1000; domain 2 reads through an aperture at 0. -/
def eccSt (x : Option Nat) (on : Nat) : State :=
  setR [(MEM + 0x3000, on)]
  { rdy with
    ts := 2 ^ 58
    ecc := ⟨[], 0, match x with | some n => [(64, n)] | none => [], []⟩
    hbm := ⟨[(0x1004, 9)], []⟩ }

theorem witness_ApertureMovesTheBytes :
    (let s := eccSt none 1
     invB s = true ∧ (∀ d : Fin 4, s.hosts.present.getLsbD d.val = true) ∧ apInside s 0 0x1000 100 = true ∧ HbmSound s
       ∧ apInside s 0 (2 ^ 36 - 4) 8 = false ∧ (2 ^ 36 - 4 : BitVec 36).toNat = 2 ^ 36 - 4 ∧ apInside s 1 0x40000000 8 = false
       ∧ apOffset s 0 0x1000 = 0x1000)
    ∧ (let s := eccSt (some 2) 1
       invB s = true ∧ apInside s 0 0x1010 48 = true ∧ apOffset s 0 0x1010 % 64 + 48 ≤ 64 ∧ s.hosts.resetCh = 0 ∧ s.hosts.offlineCh = 0
         ∧ secState s (apOffset s 0 0x1010 / 64) = 2) := by decide +kernel

theorem witness_ScrubsCorrectAndCount :
    (∀ n ∈ [1, 2, 3], let s := eccSt (some n) 1
      invB s = true ∧ bit (regOf s (MEM + 0x3000)) 0 = true ∧ 64 * 64 < hbmCap s
        ∧ s.crown.passTs + 3600000000000 * fld (regOf s (MEM + 0x3004)) 0 8 ≤ s.ts ∧ s.hosts.resetCh = 0 ∧ s.hosts.offlineCh = 0
        ∧ s.ecc = ⟨[], 0, [(64, n)], []⟩)
    ∧ (∀ x ∈ [SramErr.mk 1 3 false, ⟨6, 40, true⟩, ⟨5, 9, true⟩, ⟨5, 9, false⟩],
      let s := setR [(FLT, 1)] (withTbl tdD { eccSt none 1 with sram := [x], esc := [(4, ⟨3, 4, 2, .armed, true, 6⟩)] })
      invB s = true ∧ bit (regOf s FLT) 0 = true ∧ s.crown.sramTs + 16000000 ≤ s.ts ∧ s.sram = [x] ∧ x.array < 16 ∧ x.array ≠ 7
        ∧ x.array ≠ 10 ∧ tdGet s 5 = some tdD
        ∧ (regOf s (sramCeW x.array) + 1) % 2 ^ 32 % max 1 (fld (regOf s (FLT + 0xC)) 0 16) ≠ 0) :=
  ⟨by decide +kernel, by decide +kernel⟩

/-- An image of one empty section, signed under this public key, and a chip that waits for one. -/
def imgKey : Nat × Nat :=
  (0x2a631d4958d51ef0450f93e3a9a8fcaf9ab12640015f8d23e850948b489f628bffbe257a4bc635feeab3b79707009c07,
   0xf683976abdaa315496c22fdb85ee6ea4f6d13ebf0716b7bfe6a3483cd920514fab1ce90fdb81cc72c31dce1083ccf69b)
def imgSg : Nat := 0x40adc51ebd5a1c038f3a1855079370f7a56ac2f42e73244d24406413bc0545061a62eb5bc2bc97ddcf55f174c9de642c
def imgA : List Byte :=
  (leBytes 40 0x500000000000000010000108000010001c8010001ca1b0001) ++ List.replicate 88 0 ++ leBytes 16 0x100000000002
    ++ List.replicate 3952 0 ++ (leBytes 48 imgSg).reverse ++ (leBytes 48 imgSg).reverse ++ List.replicate 32 0
def bupSt : State :=
  setR [(RST_STATUS, 5), (CRN_STATUS, 1), (MEM_CAP, 256)]
    { State.reset with crown := { State.reset.crown with pwrgd := true, keys := [some imgKey, none, none, none] } }

theorem imgA_checks : imgChecks bupSt imgA.length imgA = none := by decide +kernel

theorem bupSt_unconfigured : Unconfigured bupSt := by
  intro a h _
  have m : ∀ b ∈ bupSt.regs.map Prod.fst, rwlFlds b = [] := by decide +kernel
  unfold regOf
  cases e : mapGet bupSt.regs a with
  | none => rfl
  | some w =>
    exact absurd (m a (by
      have : ∀ (l : List (Nat × Word)), mapGet l a = some w → a ∈ l.map Prod.fst := by
        intro l
        induction l with
        | nil => intro h; cases h
        | cons x l ih =>
          intro h
          simp only [List.map_cons, List.mem_cons]
          unfold mapGet at h
          split at h
          · exact .inl (Eq.symm (by assumption))
          · split at h
            · cases h
            · exact .inr (ih h)
      exact this _ e)) h

theorem imgA_staged : (runAct bupSt (imgStage imgA false)).clb.st = .quiescing
    ∧ quietFails (runAct bupSt (imgStage imgA false)) (candidate (runAct bupSt (imgStage imgA false))) = [] := by decide +kernel

theorem witness_BringupLoadsTheImage :
    Inv bupSt ∧ stage bupSt = 5 ∧ bupSt.clb.st = .idle ∧ crownUp bupSt = true ∧ Unconfigured bupSt ∧ bupSt.links = []
      ∧ bupSt.ops = [] ∧ bupSt.shadow = []
      ∧ imgChecks bupSt imgA.length imgA = none
      ∧ (let u := runAct bupSt (imgLoad imgA.length imgA false)
         u.clb.st = .quiescing ∧ quietFails u (candidate u) = [])
      ∧ imgChecks bupSt ([] : List Byte).length [] = some (BAD_DESCRIPTOR, 2, 0) := by
  refine ⟨inv_of (by decide +kernel), by decide +kernel, rfl, by decide +kernel, bupSt_unconfigured, rfl, rfl, rfl, imgA_checks, ?_, by decide +kernel⟩
  have : runAct bupSt (imgLoad imgA.length imgA false) = runAct bupSt (imgStage imgA false) := by
    unfold runAct imgLoad
    simp only [Laws.act_st_bind, imgA_checks]
  simp only [this]
  exact imgA_staged

/-! ### Resets -/

/-- Four live channels, an operation of domain 0 on cell 3, a bench with content and a link of port 1. -/
def rstSt (p : OpPhase) : State :=
  { setR [(MEM, 15), (MEM_CAP, 4), (celW 3 4, 4), (celW 3 0x100, 5), (CLB_TXN_CFG, 0x1003E8), (fabW 6 0, 0)] net with
    ops := [opOf r0 p (dsc [(0, 9)])]
    cells := { rdy.cells with st := [(3, { cellZero with holder := some (r0, 0), well := true }), (4, { cellZero with resetting := true })] }
    bench := ⟨[(benchKey 3 9, 7), (benchKey 5 9, 8)], []⟩
    ecc := ⟨[2], 0, [(20, 1)], []⟩
    links := [(2, { linkZero with aligned := true, lseqTx := 5 })]
    esc := [(9, ⟨3, 4, 2, .armed, true, 6⟩)]
    recorded := [refOf 0 3 2]
    hosts := { rdy.hosts with resetCh := 2, resetDom := 6 } }

theorem witness_UnitResetsClearTheirUnit :
    (let s := { rstSt .running with cells := { rdy.cells with st := [(3, { cellZero with well := true })] } }
     invB s = true ∧ Steward s ∧ ∀ c, c < 32 → (cellAt s c).holder = none)
    ∧ (let s := rstSt .running
       invB s = true ∧ Steward s ∧ (8 : Word).toNat = 2 ^ 3 ∧ (cellAt s 3).holder = some (r0, 0) ∧ (∃ o ∈ s.ops, findOp s r0 = some o ∧ o.phase ≠ .decided)
         ∧ (2 : Word).toNat % 256 = 2 ^ 1 ∧ portRole s 1 ≠ 0 ∧ 6 ≤ stage s ∧ stage s ≠ 8 ∧ halfOk s 1 false = true ∧ portRole s 1 = 1
         ∧ portUp s 1 = true ∧ portRole s 6 = 0 ∧ (64 : Word).toNat % 256 = 2 ^ 6
         ∧ (cellAt s 4).resetting = true ∧ (cellAt s 3).resetting = false ∧ s.hosts.resetCh.getLsbD 1 = true ∧ s.hosts.resetCh.getLsbD 2 = false) := by decide +kernel

/-- Nothing of any domain is under way; domain 0's escapements are 0 to 15, domain 1's the others. -/
def domSt : State :=
  setR [(hdmW 0 0x20, 15 * 65536), (hdmW 1 0x20, 16 + 30 * 65536), (hdmW 2 0x20, 1), (hdmW 3 0x20, 1)]
    { setP 0 [(ringW 0 3 4, 1), (ringW 0 3 0, 0x2000), (hdmW 0 0x60, 7)] (setP 1 [(hdmW 1 0x60, 8)] (rstSt .running)) with ops := [] }

/-- One operation of domain 0, admitted and ready. -/
def domOp : Op := opOf r0 .ready (dsc [])
def domSt1 (d : Nat) : State :=
  setP 0 [(ringW 0 3 4, 1 + 2 * 6), (ringW 0 3 0, 0x2000), (ringW 0 3 2, 0x4000), (ringW 0 3 5, 6), (ringW 0 3 6, 5)]
    { domSt with ops := [domOp], clb := { rdy.clb with st := if d = 0 then .idle else .open } }

theorem witness_DomainResetsClearTheDomain :
    (let s := domSt
     invB s = true ∧ (∀ o ∈ s.ops, o.phase ≠ .waitEsc) ∧ Steward s
       ∧ ∀ d : Fin 4, (BitVec.ofNat 32 (2 ^ d.val)).toNat % 16 = 2 ^ d.val ∧ DomainQuiet s d.val ∧ s.hosts.present.getLsbD d.val = true)
    ∧ (∀ p : Fin 2, ∀ i ∈ List.range 40, ¬(escIn domSt (2 * p.val) i = true ∧ escIn domSt (2 * p.val + 1) i = true))
    ∧ (let s := domSt1 0
       invB s = true ∧ (∀ o ∈ s.ops, o.phase ≠ .waitEsc) ∧ (1 : Word).toNat % 16 = 2 ^ 0 ∧ s.ops = [domOp] ∧ domOp.d = 0 ∧ domOp.ref.ring.val < 64
         ∧ domOp.phase = .ready ∧ domOp.code = 0 ∧ Bare domOp ∧ domOp.out = [] ∧ domOp.cplEn = false ∧ domOp.irq = false
         ∧ (∀ g, g < 4 → grpOwner s g = 0 → groupOpen s g = false) ∧ s.clb.st ≠ .open ∧ Steward s)
    ∧ (let s := { domSt1 1 with ops := [] }
       invB s = true ∧ (∀ o ∈ s.ops, o.phase ≠ .waitEsc ∧ o.d ≠ 0) ∧ (1 : Word).toNat % 16 = 1 ∧ Steward s ∧ s.clb.st = .open
         ∧ (∀ g, g < 4 → grpOwner s g = 0 → groupOpen s g = false)) := by decide +kernel

/-- A chip with a fault log, of which one record is not in flash. -/
def chipSt : State :=
  { domSt with
    regs := (setR [(RST + 0x100, 0x05FF0003), (RST_STATUS, 0x507), (FLT_SUMMARY, 4), (CRN_THROTTLE, 0x6403), (FLT_LOG_PROD, 7), (CLK, 0xF)] domSt).regs
    crown := { domSt.crown with chipInc := 5, straps := 6, log := [⟨5, 8, 0, 0, 0, 0, 0, false, 0, 0, 0, 0, 0⟩, ⟨6, 8, 0, 0, 0, 0, 0, false, 0, 0, 0, 0, 0⟩], fresh := 1 }
    ts := 77 }

theorem witness_ChipResetsKeepWhatTheTableSays :
    (let s := chipSt
     invB s = true ∧ s.ops = [] ∧ (∀ g, g < 4 → groupOpen s g = false) ∧ s.crown.mbx = none ∧ Steward s ∧ 2 ≤ stage s
       ∧ bit (regOf s CLK) 0 = true ∧ s.crown.pwrgd = true ∧ s.crown.trip = false)
    ∧ (let s := State.reset
       invB s = true ∧ s.ops = [] ∧ (∀ g, g < 4 → groupOpen s g = false) ∧ s.crown.mbx = none ∧ s.crown.pwrgd = false)
    ∧ (let s := { chipSt with crown := { chipSt.crown with trip := true } }
       invB s = true ∧ s.crown.pwrgd = true ∧ s.crown.trip = true) := by decide +kernel

/-! ### Bring-up, the clock and Crown -/

/-- A chip in this stage of bring-up. -/
def bringSt (n : Nat) : State :=
  setR [(RST_STATUS, n), (CLK, if n = 1 then 0 else 1), (fabW 1 4, 0x44), (fabW 6 0, 0), (fabW 7 0, 0), (GLB + 0x10, 1)]
    { rdy with
      hosts := State.reset.hosts
      links := [0, 4, 6, 8, 10].map fun p => (p, { linkZero with attempts := 1 })
      crown := { rdy.crown with fwA := ⟨1, 1, true⟩, fwB := ⟨2, 1, true⟩, mapout := [3, 0, 0, 0, 0, 0, 0, 5], minSvn := 1 } }

def markSt (m ts : Nat) : State := setR [(CLK + 0x18, m), (CLK + 0x20, 0x40001)] { bringSt 7 with ts := ts }

theorem witness_BringupAndClockEvents :
    (∀ n ∈ [1, 2, 6], invB (bringSt n) = true ∧ stage (bringSt n) = n) ∧ bit (regOf (bringSt 1) CLK) 1 = false
    ∧ (2 ≤ stage (bringSt 6) ∧ bit (regOf (bringSt 6) (GLB + 0x10)) 0 = true)
    ∧ ((List.range 8).all (portSettled (bringSt 6)) = true ∧ (bringSt 6).priv = [])
    ∧ (∀ x ∈ [(0, 5), (0, 2 ^ 40)],
      let s := markSt x.1 x.2
      invB s = true ∧ s.crown.pwrgd = true ∧ s.ts < 2 ^ 64 ∧ regOf s (CLK + 0x18) + 2 ^ 32 * regOf s (CLK + 0x1C) = x.1
        ∧ bit (regOf s (CLK + 0x20)) 18 = true) := by decide +kernel

/-- Crown is about to start in this stage, from this state of it. -/
def bootSt (n crown : Nat) (pend : Bool) : State :=
  setR [(CRN_STATUS, crown)] { bringSt n with
    ts := 61000000000
    crown := { (bringSt n).crown with pendingFw := pend } }

theorem witness_CrownStartsFromASlot :
    (∀ n ∈ [2, 7], ∀ k ∈ [2, 3], ∀ pend ∈ [false, true],
      let s := bootSt n k pend
      invB s = true ∧ bootOrder s.crown = (if pend then [true, false] else [false, true]) ∧ s.crown.held = [] ∧ s.crown.mbx = none
        ∧ bit (regOf s CLB_IMG_STATUS) 0 = false ∧ crownState s = k ∧ s.crown.bootTs + 60000000000 ≤ s.ts
        ∧ slotRuns s.crown true true (bootOrder s.crown).head! = true ∧ slotRuns s.crown false false false = false
        ∧ slotRuns s.crown pend (!pend) (bootOrder s.crown).head! = false ∧ slotRuns s.crown pend (!pend) (!(bootOrder s.crown).head!) = true) := by
  decide +kernel

/-- Crown runs, or has failed, with sensors read. -/
def senSt (crown thr : Nat) (t0 : Nat) : State :=
  setR [(CRN_STATUS, crown), (CRN_THROTTLE, thr), (sensorW 0, t0), (sensorW 40, 0xFF00), (sensorW 95, 0x8123)]
    { bringSt 7 with ts := 5000000, hosts := rdy.hosts }

theorem witness_CrownStopsToStartAgain :
    (∀ k ∈ [1, 3], let s := senSt k 0 800
      invB s = true ∧ s.crown.mbx = none ∧ crownState s = k ∧ Steward s) ∧ bit (0x501 : Word).toNat 0 = true
    ∧ bit (0x500 : Word).toNat 0 = false := by decide +kernel

theorem witness_ChannelTestMapsTheChannels : (let s := bringSt 3; invB s = true ∧ stage s = 3) := by decide +kernel

def ageSt (a : Option Ageing) : State := { bringSt 4 with ts := 1000000, crown := { (bringSt 4).crown with ageing := a } }

theorem witness_AgeingFindsTheFirstPoint :
    (let s := ageSt none
     invB s = true ∧ crownUp s = true ∧ stage s = 4 ∧ s.crown.ageing = none)
    ∧ (∀ again ∈ [false, true], ∀ p ∈ [(0, 0), (0, 12), (2, 12), (1, 3)],
      let a : Ageing := ⟨p.1, p.2, [(1, 3)], 9, again, 0, false⟩
      let s := ageSt (some a)
      invB s = true ∧ crownUp s = true ∧ s.crown.ageing = some a ∧ a.byMbx = false ∧ a.bin ≤ 2 ∧ a.m ≤ 12 ∧ a.since + 1000000 ≤ s.ts
        ∧ (a.pass.contains (a.bin, a.m) = true ↔ p = (1, 3)))
    ∧ ((752 : BitVec 16).toNat ≤ marginMv 0 + 2 ∧ marginMv 0 ≤ (752 : BitVec 16).toNat + 2
      ∧ (812 : BitVec 16).toNat ≤ marginMv 12 + 2 ∧ marginMv 12 ≤ (812 : BitVec 16).toNat + 2
      ∧ (765 : BitVec 16).toNat ≤ marginMv 3 + 2 ∧ marginMv 3 ≤ (765 : BitVec 16).toNat + 2
      ∧ ¬((753 : BitVec 16).toNat ≤ marginMv 0 + 2 ∧ marginMv 0 ≤ (753 : BitVec 16).toNat + 2)) := by decide +kernel

theorem witness_ThermalControlFollowsTheSensors :
    (∀ t0 ∈ [760, 879, 880, 700, 0x8000], ∀ thr ∈ [0, 1, 7, 12],
      let s := senSt 1 thr t0
      invB s = true ∧ crownUp s = true ∧ (List.replicate 96 (BitVec.ofNat 16 t0)).length = 96 ∧ s.crown.sensorTs = 0 ∧ s.crown.thrTs = 0) := by
  decide +kernel

/-- A fault log of two records. -/
def logR (n : Nat) : FltRec := ⟨BitVec.ofNat 32 n, 8, 3, 1, 2, 0x30, 1, true, 5, 6, 7, 8, 9⟩
def logSt : State := setR [(FLT_LOG_PROD, 7)] { senSt 1 12 879 with crown := { (senSt 1 12 879).crown with log := [logR 5, logR 6], fresh := 2 } }

theorem witness_SmbusAnswersItsReads :
    crownUp logSt = true ∧ (95 : Byte).toNat < 96 ∧ (7 ≤ (7 : Word).toNat) ∧ regOf logSt FLT_LOG_PROD = 7
    ∧ logSt.crown.log.find? (fun x => x.seq == 6) = some (logR 6) := by decide +kernel

/-- A mailbox command, its source in host memory. -/
def mbxSt (cmd : Option Nat) (n stg : Nat) : State :=
  setR [(CRN + 0x24, 0x101), (CRN + 0x2C, n), (CRN_MBX_STATUS, 0x00050000 + if cmd = none then 0 else 1), (RST_STATUS, stg)]
    { logSt with crown := { logSt.crown with mbx := cmd.map fun x => (x, false) } }

theorem witness_MailboxCommandsComplete :
    (∀ n ∈ [64, 4194304, 4194305], ∀ c ∈ [none, some 1],
      let s := mbxSt c n 7
      invB s = true ∧ crownUp s = true ∧ (c = none → s.crown.mbx = none ∧ Steward s ∧ bit (regOf s CRN_MBX_STATUS) 0 = false)
        ∧ (c = some 1 → s.crown.mbx = some (1, false)) ∧ s.reqs.any (imageReq true) = false ∧ regOf s (CRN + 0x2C) = n
        ∧ bit (regOf s (CRN + 0x24)) 0 = true)
    ∧ (∀ c ∈ [none, some 2], ∀ stg ∈ [7, 9],
      let s := mbxSt c 64 stg
      invB s = true ∧ crownUp s = true ∧ stage s = stg ∧ (c = none → s.crown.mbx = none ∧ bit (regOf s CRN_MBX_STATUS) 0 = false)
        ∧ (c = some 2 → s.crown.mbx = some (2, false)) ∧ Steward s ∧ s.crown.ageing = none) := by decide +kernel

/-! ### The whole block -/

theorem witness_EveryStepKeepsTheInvariant :
    invB State.reset = true ∧ invB { rdy with pending := [.stepMark, .txnBegin 0] } = true
    ∧ ({ rdy with pending := [.stepMark, .txnBegin 0] } : State).pending ≠ [] ∧ State.reset.pending = [] := by decide +kernel

theorem witness_StepMarkLatchesTheTime : ∀ x ∈ [(1000, 2000), (1000, 1999)],
    let s := markSt x.1 x.2
    s.crown.pwrgd = true ∧ s.ts < 2 ^ 64 ∧ invB s = true ∧ 0 < regOf s (CLK + 0x18) + 2 ^ 32 * regOf s (CLK + 0x1C)
      ∧ (1000 + 1000 ≤ s.ts ↔ x.2 = 2000) := by decide +kernel

theorem witness_SharedRegistersBelongToTheSteward :
    (∀ d ∈ [(1 : Fin 4), 2, 3], d ≠ 0)
    ∧ ((regInfo (BitVec.ofNat 26 CLB_TXN_CFG).toNat).any fun r => r.mark == .shared) = true := by decide +kernel

/-- An instruction on 8-bit integers with this amount. -/
def intI (op : VOp) (sat : Bool) (amt : Option (BitVec 8)) : VecInstr := ⟨op, .int8, 0, 1, 2, 3, amt, 0, false, sat, false, 0⟩

theorem witness_IntegerElementsFollowTheirRules :
    FmtOf.isInt (intI .iadd true none).fmt = true ∧ sInt 8 100 + sInt 8 27 = 2 ^ 7 - 1 ∧ 2 ^ 7 - 1 < sInt 8 100 + sInt 8 28
    ∧ sInt 8 0x80 + sInt 8 0xFF < -(2 ^ 7) ∧ sInt 8 0x80 + sInt 8 0 = -(2 ^ 7)
    ∧ (∀ op ∈ [VOp.shl, .shr, .sar, .rotl, .rotr], vKind op = .shift) ∧ (intI .shl false (some 8)).amount = some 8
    ∧ (intI .shl false none).amount = none := by decide +kernel

/-! ### Well-formed commands: one ill-formed term for each check -/

theorem smoke_posted_address : WellFormed (.prodWrite 0 3 1 [(2 ^ 64, 0)]) = false ∧ WellFormed (.kxDoorbellWrite 0 1 [(2 ^ 64, 0)]) = false := by
  decide

theorem smoke_register_address : WellFormed (.registerWrite 0 2 0) = false ∧ WellFormed (.rwlWrite 0 0x100001 0) = false := by decide

theorem smoke_aperture : WellFormed (.bar2Read 0 0xFFF 2) = false ∧ WellFormed (.bar2Write 0 0 []) = false := by decide

theorem smoke_channel_twice : WellFormed (.hbmChannelTest [⟨3, true, 0, false⟩, ⟨3, true, 1, false⟩]) = false := by decide

theorem smoke_points : WellFormed (.ageingMeasurement [(3, 0)] 0) = false ∧ WellFormed (.ageMeasure 0 [(0, 13)] 0) = false := by decide

theorem smoke_sensors : WellFormed (.sensorRead []) = false ∧ WellFormed (.smbusSensor 96) = false := by decide

theorem smoke_rows : WellFormed (.guestGraceExpiry 5 (2 ^ 34)) = false ∧ WellFormed (.migReplyTimeout 5 (2 ^ 34)) = false := by decide

theorem smoke_flits : WellFormed (.stompedFrame 0 false (0, 0) 3 66) = false := by decide

theorem smoke_packet_length :
    WellFormed (.write 0 (.of { hdrOf 0 0x10 0 1 0 with len := 4097 } .none)) = false
    ∧ WellFormed (.write 0 (.of { hdrOf 0 0x10 0 1 0 with len := 3 } (.raw [1, 2]))) = false := by decide

/-- Every command that takes in a packet refuses one that a receive buffer holds already. -/
theorem smoke_packet_taken :
    ∀ f ∈ [fun x => Instr.fault 0 x, .load 0, .publish 0, (.time 0 · 0), .write 0, .read 0, .sampleRequest 0, .poolRequest 0, .contrib 0, .mig 0,
        .rowUpd 0, .fwd 0, .writeAck 0, .readData 0, .sampleRsp 0, .poolRsp 0, .contribAck 0, .migAck 0, .redirect 0, .stitch 0, .grant 0,
        .colGather 0, .verdict 0, .e2eAck 0, fun x => .routePacket (.arrived 0 x none)],
      WellFormed (f (.of (hdrOf 0 0x10 0 1 0) .none)) = true
        ∧ WellFormed (f { Packet.of (hdrOf 0 0x10 0 1 0) .none with wire := { Wire.none with taken := true } }) = false := by decide

theorem smoke_well_formed :
    WellFormed (.write 0 (.of { hdrOf 0 0x10 0 1 0 with len := 2 } (.raw [1, 2]))) = true ∧ WellFormed (.registerWrite 0 4 0) = true
    ∧ WellFormed (.nop r0) = true := by decide

/-! ### Worked examples of the spec, and published vectors of the standards it names -/

/-- Chapter 0: a byte of chip (3,5,1). Chapter 4: row 9,876,543 of table 5. -/
theorem test_addresses :
    Loc.ofAddr 0x8031411234567800 = .far (3 + 64 * 5 + 4096) 0x1234567800 ∧ Loc.ofAddr 0xC0140096B43F0000 = .table 5 9876543 0 := by decide

/-- Chapter 10: offset 0x7A12_1C40 with all 256 channels live, and with channel 37 mapped out. -/
theorem test_channel_of_an_offset :
    chanOf (setR ((List.range 8).map fun k => (memW k 0, 0xFFFFFFFF)) State.reset) 0x7A121C40 = 104
    ∧ chanOf (setR ((List.range 8).map fun k => (memW k 0, if k = 1 then 0xFFFFFFDF else 0xFFFFFFFF)) State.reset) 0x7A121C40 = 178 := by
  decide +kernel

/-- Chapter 5: 1,900 at a block scale of 2^8 in E4M3. -/
theorem test_block_retry_element : (FSpec.round e4m3 (FV.ofInt 1900 (-8)) true).code = 0x4F := by decide +kernel

/-- Chapter 8: group 3 warms up over 1,000 steps; η at step 499 is half of LR_MAX, λ half of WD. -/
def warmSt : State :=
  setP 0 [(hdmW 0 0x60, 499)]
    { setR [(schW 3 0, 1 + 0x280), (schW 3 1, 0), (schW 3 2, 1000), (schW 3 3, 4000), (schW 3 4, 4000), (schW 3 5, 0x3B03126F), (schW 3 6, 0x38D1B717),
        (schW 3 8, 0x3C23D70A)] rdy with schDue := 8 }

theorem test_warm_up :
    (match exec (.regulatorRecompute 3) warmSt with
     | .next t => (regOf t (schW 3 9), regOf t (schW 3 10), regOf t (schW 3 11), t.schDue)
     | _ => (0, 0, 0, 0)) = (0x3A83126F, 0x3BA3D70A, 499, 0) := by decide +kernel

/-- Chapter 8: cycle 1 of 8,000 steps begins at e = 4,000; at e = 10,000 it has gone 6,000 steps, and cycle 2 has 16,000. -/
theorem test_restarts : tauL 4000 4000 4000 2 = (0, 8000) ∧ tauL 10000 4000 4000 2 = (6000, 8000) ∧ tauL 12000 4000 4000 2 = (0, 16000) := by decide

/-- Chapter 15: Σ GUAR of GTH is 48, so 16 entries can be borrowed. -/
theorem test_borrowable :
    borrowable (setR [(hdmW 0 0x34, 24 + 48 * 256 + 64 * 65536), (hdmW 1 0x34, 16 + 40 * 256 + 64 * 65536), (hdmW 2 0x34, 8 + 64 * 256 + 64 * 65536),
      (hdmW 3 0x34, 16 * 256 + 2 * 65536)] rdy) 1 = 16 := by decide +kernel

/-- Chapter 20: CEL_CTRL of cell 17 reads 0x0000_0003 after reset, and CEL_SPARSE_THR has no shadow. -/
theorem test_cell_registers : resetOf 0x322000 = 3 ∧ rwlFlds 0x322000 ≠ [] ∧ rwlFlds 0x322008 = [] := by decide +kernel

/-- Chapter 21: straps 0b1001 give SMBus address 0x62. -/
theorem test_smbus_address : smbAddr { rdy with crown := { rdy.crown with straps := 9 } } = 0x62 := by decide

/-- CRC-32 of "123456789", the check value of that CRC. -/
theorem test_crc32 : crc32 [0x31, 0x32, 0x33, 0x34, 0x35, 0x36, 0x37, 0x38, 0x39] = 0xCBF43926 := by decide +kernel

/-- SHA-384 of "abc" (FIPS 180-4). -/
theorem test_sha384 : sha384 [0x61, 0x62, 0x63]
    = 0xCB00753F45A35E8BB5A03D699AC65007272C32AB0EDED1631A8B605A43FF5BED8086072BA1E7CC2358BAECA134C825A7 := by decide +kernel

/-- fp32 sums, products and quotients at their corners: ties to even, overflow to infinity, signed zeros, subnormals. -/
theorem test_fp32 :
    fadd 0x3F800000 0x33800000 = 0x3F800000 ∧ fadd 0x3F800001 0x33800000 = 0x3F800002 ∧ fmul 0x7F7FFFFF 0x40000000 = 0x7F800000
    ∧ fadd 0x80000000 0x00000000 = 0 ∧ fmul 0x00800000 0x3F000000 = 0x00400000 ∧ fdiv 0x3F800000 0x40400000 = 0x3EAAAAAB := by decide +kernel

/-! ### One step -/

/-- A command runs from the front of the queue; an empty queue counts one cycle. -/
theorem test_step :
    (match step { rdy with ts := 5, pending := [.stepMark, .stepMark] } with | .next t => (regOf t (CLK + 0x18), t.pending) | _ => (0, []))
      = (5, [.stepMark])
    ∧ (match step { rdy with ts := 2 ^ 64 - 1 } with | .next t => t.ts | _ => 7) = 0 := by decide +kernel

/-- Table 15.7: ADD to TARGET fires and signals; the generation must match. -/
theorem test_esc_add :
    (match exec (.escCmdAdd 1 7 2 2) ecmdSt with | .next t => ((escAt t 7).st, (escAt t 7).count.toNat) | _ => (.idle, 0)) = (.fired, 6)
    ∧ (match exec (.escCmdAdd 1 7 3 2) ecmdSt with | .next t => ((escAt t 7).st, regOf t GLB_ESC_DISCARD) | _ => (.idle, 0)) = (.armed, 1) := by
  decide +kernel

/-- R309: an edge less than 1 µs after the last one latched is counted, not latched. -/
theorem test_step_mark :
    (match exec .stepMark (markSt 1000 1999) with | .next t => (regOf t (CLK + 0x18), regOf t (CLK + 0x28)) | _ => (0, 0)) = (1000, 1)
    ∧ (match exec .stepMark (markSt 1000 2000) with | .next t => (regOf t (CLK + 0x18), regOf t (CLK + 0x28)) | _ => (0, 0)) = (2000, 0) := by
  decide +kernel

/-- The table gives no bits: no word spells a command, and the state stands. -/
theorem test_no_words : decodeTableWord 32 0xC = none ∧ (rdy.withFetchWord 32 0xC).pending = [] := by decide

end Sys2Proof.Tests
end

section
/-! PROOFS. The steward and the shared registers (R7): a write of another domain is the empty action, and a read does not
depend on the domain. -/

namespace Sys2Proof.Proofs

open Machine Laws

variable {s₀ : State}

/-! ### Writes of another domain than HD0 -/

theorem perform_skip (s : State) : perform s skip = .next s := rfl

/-- A command of the steward, sent by another domain, is the empty action. -/
theorem steward_eq_skip {d : Fin 4} (hd : d ≠ 0) (k : Act s₀ Unit) : steward d k = skip := by
  have hv : ¬ (d.val = 0) := fun h => hd (Fin.ext h)
  funext p
  simp [steward, hv]

theorem perform_steward_of_ne {d : Fin 4} (hd : d ≠ 0) (s : State) (k : Act s Unit) : perform s (steward d k) = .next s := by
  rw [steward_eq_skip hd, perform_skip]

theorem fromHost_skip (d : Fin 4) : fromHost d (skip : Act s₀ Unit) = skip := by
  funext p
  simp [fromHost]

/-- R7: BAR0 discards another domain's write of a shared register. -/
theorem barWrite_shared_eq_skip {d : Fin 4} (hd : d ≠ 0) {a : Nat} {r : RegInfo} (ha : regInfo a = some r) (hr : r.mark = .shared)
    (v : Nat) : (barWrite d a v : Act s₀ Unit) = skip := by
  have hv : d.val ≠ 0 := fun h => hd (Fin.ext h)
  funext p
  simp [barWrite, ha, hr, hv]

theorem execRegisterWrite_shared_of_ne {d : Fin 4} (hd : d ≠ 0) {a : BitVec 26} {r : RegInfo} (ha : regInfo a.toNat = some r)
    (hr : r.mark = .shared) (v : Word) (s : State) : execRegisterWrite d a v s = .next s := by
  rw [execRegisterWrite, barWrite_shared_eq_skip hd ha hr, fromHost_skip, perform_skip]

theorem execRwlWrite_shared_of_ne {d : Fin 4} (hd : d ≠ 0) {a : BitVec 26} {r : RegInfo} (ha : regInfo a.toNat = some r)
    (hr : r.mark = .shared) (v : Word) (s : State) : execRwlWrite d a v s = .next s := by
  rw [execRwlWrite, barWrite_shared_eq_skip hd ha hr, ite_self, fromHost_skip, perform_skip]

/-! ### Reads -/

/-- The normal view of a shared register is the same in every domain. -/
theorem normalRead_shared {a : Nat} {r : RegInfo} (ha : regInfo a = some r) (hr : r.mark = .shared) (s : State) (d e : Nat) :
    normalRead s d a = normalRead s e a := by
  simp only [normalRead, ha, hr]

/-- Settles O59: the commands that write a shared register are BAR0 writes or commands of the steward, and both are the empty
action in another domain. -/
theorem sharedRegistersBelongToTheSteward : Obligations.SharedRegistersBelongToTheSteward := by
  unfold Obligations.SharedRegistersBelongToTheSteward
  intro s d a v r hd ha hr
  have discards : ∀ k : Act s Unit, perform s (steward d k) = .next s := perform_steward_of_ne hd s
  refine ⟨?_, fun q => discards (qpApply q.val v.toNat), fun k => ?_, normalRead_shared ha hr s d.val 0⟩
  · simp only [List.forall_mem_cons]
    exact ⟨execRegisterWrite_shared_of_ne hd ha hr v s, execRwlWrite_shared_of_ne hd ha hr v s, discards _, discards _, discards _,
      discards _, discards _, discards _, discards _, discards _, discards _, discards _, discards _, List.forall_mem_nil _⟩
  · exact discards (each (bitsOf 32 v.toNat) fun i => resetChannel (32 * k.val + i))

end Sys2Proof.Proofs
end

section
/-! PROOFS. Integer elements of the vector engine (R125, R126). The codes of n bits are `BitVec n`: `sInt` is their signed value
and `toCode` the wrapping code of an integer. What `intRes` and `shiftRes` answer follows from that, and so does an element. -/

namespace Sys2Proof.Proofs

open Machine

variable {n : Nat} {i : Int}

/-! ### Codes and their signed values -/

theorem sInt_eq_toInt (hn : 0 < n) (c : Nat) : sInt n c = (BitVec.ofNat n c).toInt := by
  have hpow : 2 ^ n = 2 * 2 ^ (n - 1) := by rw [← Nat.pow_add_one', Nat.sub_add_cancel hn]
  have hiff : 2 * (c % 2 ^ n) < 2 ^ n ↔ c % 2 ^ n < 2 ^ (n - 1) := by omega
  simp only [sInt, BitVec.toInt_eq_toNat_cond, BitVec.toNat_ofNat, hiff, Int.natCast_pow, Int.cast_ofNat_Int]

@[simp] theorem ofNat_toCode (n : Nat) (i : Int) : BitVec.ofNat n (toCode n i) = BitVec.ofInt n i := by
  have hnonneg : 0 ≤ i % 2 ^ n := Int.emod_nonneg i (Int.pow_ne_zero (by decide))
  rw [toCode, ← BitVec.ofInt_natCast, Int.toNat_of_nonneg hnonneg]
  apply BitVec.eq_of_toInt_eq
  rw [BitVec.toInt_ofInt, BitVec.toInt_ofInt]
  exact_mod_cast Int.emod_bmod i (2 ^ n)

/-- An integer that n bits can hold is the value of its code. -/
theorem sInt_toCode (hn : 0 < n) (hlo : -2 ^ (n - 1) ≤ i) (hhi : i ≤ 2 ^ (n - 1) - 1) : sInt n (toCode n i) = i := by
  rw [sInt_eq_toInt hn, ofNat_toCode, BitVec.toInt_ofInt_eq_self hn hlo (by omega)]

theorem bits_pos (f : Fmt) : 0 < FmtOf.bits f := by cases f <;> decide

/-! ### Saturation and wrapping (R125) -/

theorem intRes_wrap (n : Nat) (i : Int) : intRes n false i = (toCode n i, VFlags.none) := rfl

theorem intRes_sat_inside (hlo : -2 ^ (n - 1) ≤ i) (hhi : i ≤ 2 ^ (n - 1) - 1) : intRes n true i = (toCode n i, VFlags.none) := by
  simp only [intRes, satInt, gt_iff_lt, Int.not_lt.mpr hlo, Int.not_lt.mpr hhi, ↓reduceIte, VFlags.satIf, VFlags.none]

theorem intRes_sat_above (hhi : 2 ^ (n - 1) - 1 < i) :
    intRes n true i = (toCode n (2 ^ (n - 1) - 1), { VFlags.none with sat := true }) := by
  simp only [intRes, satInt, gt_iff_lt, hhi, ↓reduceIte, VFlags.satIf]

theorem intRes_sat_below (hlo : i < -2 ^ (n - 1)) :
    intRes n true i = (toCode n (-2 ^ (n - 1)), { VFlags.none with sat := true }) := by
  have hpos : (0 : Int) < 2 ^ (n - 1) := Int.pow_pos (by decide)
  have hhi : ¬ 2 ^ (n - 1) - 1 < i := by omega
  simp only [intRes, satInt, gt_iff_lt, hhi, hlo, ↓reduceIte, VFlags.satIf]

/-- R125: an exact result inside n bits stands, one outside saturates with the SAT flag; without SAT it wraps, without flags. -/
theorem intRes_spec (hn : 0 < n) (sat : Bool) (i : Int) :
    let lo : Int := -(2 ^ (n - 1))
    let hi : Int := 2 ^ (n - 1) - 1
    let res := intRes n sat i
    (sat = true → lo ≤ i → i ≤ hi → sInt n res.1 = i ∧ res.2 = VFlags.none)
    ∧ (sat = true → hi < i → sInt n res.1 = hi ∧ res.2 = { VFlags.none with sat := true })
    ∧ (sat = true → i < lo → sInt n res.1 = lo ∧ res.2 = { VFlags.none with sat := true })
    ∧ (sat = false → BitVec.ofNat n res.1 = BitVec.ofInt n i ∧ res.2 = VFlags.none) := by
  have hpos : (0 : Int) < 2 ^ (n - 1) := Int.pow_pos (by decide)
  refine ⟨?inside, ?above, ?below, ?wrap⟩
  case inside =>
    rintro rfl hlo hhi
    rw [intRes_sat_inside hlo hhi]
    exact ⟨sInt_toCode hn hlo hhi, rfl⟩
  case above =>
    rintro rfl hhi
    rw [intRes_sat_above hhi]
    exact ⟨sInt_toCode hn (by omega) (Int.le_refl _), rfl⟩
  case below =>
    rintro rfl hlo
    rw [intRes_sat_below hlo]
    exact ⟨sInt_toCode hn (Int.le_refl _) (by omega), rfl⟩
  case wrap =>
    rintro rfl
    rw [intRes_wrap]
    exact ⟨ofNat_toCode n i, rfl⟩

/-! ### Shifts and rotates (R126) -/

theorem code_shiftRight_lt (n c k : Nat) : (c % 2 ^ n) >>> k < 2 ^ n :=
  Nat.lt_of_le_of_lt (Nat.shiftRight_le _ _) (Nat.mod_lt _ (Nat.two_pow_pos n))

theorem ofNat_shiftRes_shl (n c amt : Nat) :
    BitVec.ofNat n (shiftRes .shl n c amt) = if n ≤ amt then 0 else BitVec.ofNat n c <<< amt := by
  apply BitVec.eq_of_toNat_eq
  by_cases h : n ≤ amt
  · simp only [shiftRes, h, ↓reduceIte, BitVec.toNat_ofNat, Nat.zero_mod, BitVec.ofNat_eq_ofNat]
  · simp only [shiftRes, h, ↓reduceIte, BitVec.toNat_ofNat, BitVec.toNat_shiftLeft, Nat.mod_mod]

theorem ofNat_shiftRes_shr (n c amt : Nat) :
    BitVec.ofNat n (shiftRes .shr n c amt) = if n ≤ amt then 0 else BitVec.ofNat n c >>> amt := by
  apply BitVec.eq_of_toNat_eq
  by_cases h : n ≤ amt
  · simp only [shiftRes, h, ↓reduceIte, BitVec.toNat_ofNat, Nat.zero_mod, BitVec.ofNat_eq_ofNat]
  · simp only [shiftRes, h, ↓reduceIte, BitVec.toNat_ofNat, BitVec.toNat_ushiftRight, Nat.mod_eq_of_lt (code_shiftRight_lt n c amt)]

/-- A division by a power of two is the arithmetic shift. -/
theorem ofNat_shiftRes_sar (hn : 0 < n) (c amt : Nat) :
    BitVec.ofNat n (shiftRes .sar n c amt) = (BitVec.ofNat n c).sshiftRight (min amt n) := by
  have hc : BitVec.ofNat n (c % 2 ^ n) = BitVec.ofNat n c :=
    BitVec.eq_of_toNat_eq (by simp only [BitVec.toNat_ofNat, Nat.mod_mod])
  simp only [shiftRes, ofNat_toCode, sInt_eq_toInt hn, hc, BitVec.sshiftRight_eq, Int.shiftRight_eq_div_pow,
    Int.natCast_pow, Int.cast_ofNat_Int]

theorem sshiftRight_width (v : BitVec n) : v.sshiftRight n = if v.msb then BitVec.allOnes n else 0 := by
  ext k hk
  have hout : ¬ n + k < n := Nat.not_lt.mpr (Nat.le_add_right n k)
  simp only [BitVec.getElem_sshiftRight, dif_neg hout]
  cases v.msb with
  | false => simp only [Bool.false_eq_true, ↓reduceIte, BitVec.ofNat_eq_ofNat, BitVec.getElem_zero]
  | true => simp only [↓reduceIte, BitVec.getElem_allOnes]

/-- A shift by the width or more gives n copies of the sign bit. -/
theorem sshiftRight_min (v : BitVec n) (amt : Nat) :
    v.sshiftRight (min amt n) = if n ≤ amt then (if v.msb then BitVec.allOnes n else 0) else v.sshiftRight amt := by
  by_cases h : n ≤ amt
  · rw [if_pos h, Nat.min_eq_right h, sshiftRight_width]
  · rw [if_neg h, Nat.min_eq_left (by omega)]

theorem ofNat_shiftRes_rotl (n c amt : Nat) :
    BitVec.ofNat n (shiftRes .rotl n c amt) = (BitVec.ofNat n c).rotateLeft (amt % n) := by
  apply BitVec.eq_of_toNat_eq
  simp only [shiftRes, BitVec.toNat_rotateLeft, BitVec.toNat_ofNat, Nat.or_mod_two_pow, Nat.mod_mod,
    Nat.mod_eq_of_lt (code_shiftRight_lt _ _ _)]

theorem ofNat_shiftRes_rotr (n c amt : Nat) :
    BitVec.ofNat n (shiftRes .rotr n c amt) = (BitVec.ofNat n c).rotateRight (amt % n) := by
  apply BitVec.eq_of_toNat_eq
  simp only [shiftRes, BitVec.toNat_rotateRight, BitVec.toNat_ofNat, Nat.or_mod_two_pow, Nat.mod_mod,
    Nat.mod_eq_of_lt (code_shiftRight_lt _ _ _)]

/-! ### One element -/

variable {x : VecInstr}

/-- An integer instruction of R125 saturates or wraps the exact result of its operation. -/
theorem elemRes_integer (ca cb cc : Nat) :
    let n := FmtOf.bits x.fmt
    let i := sInt n ca
    let j := sInt n cb
    ∀ e ∈ [(VOp.iadd, i + j), (.isub, i - j), (.imul, i * j), (.iabs, (i.natAbs : Int))], x.op = e.1 →
      elemRes x ca cb cc = intRes n x.sat e.2 := by
  simp only [List.forall_mem_cons]
  refine ⟨fun h => ?_, fun h => ?_, fun h => ?_, fun h => ?_, List.forall_mem_nil _⟩ <;> simp only [elemRes, h]

theorem vKind_eq_shift_iff (op : VOp) : vKind op = .shift ↔ op ∈ [VOp.shl, .shr, .sar, .rotl, .rotr] := by
  cases op <;> simp only [vKind, reduceCtorEq, List.mem_cons, List.not_mem_nil, or_false, or_true]

/-- A shift takes its amount from the scalar or from the element, and raises no flags. -/
theorem elemRes_shift (hx : vKind x.op = .shift) (ca cb cc : Nat) {amt : Nat} (hs : ∀ w, x.amount = some w → amt = w.toNat)
    (he : x.amount = none → amt = cb % 256) : elemRes x ca cb cc = (shiftRes x.op (FmtOf.bits x.fmt) ca amt, VFlags.none) := by
  have hops := (vKind_eq_shift_iff x.op).mp hx
  simp only [List.mem_cons, List.not_mem_nil, or_false] at hops
  cases ha : x.amount with
  | some w =>
    rw [hs w ha]
    rcases hops with h | h | h | h | h <;> simp only [elemRes, h, ha]
  | none =>
    rw [he ha]
    rcases hops with h | h | h | h | h <;> simp only [elemRes, h, ha]

/-- Settles O60: an arithmetic element is `intRes` of the exact result, and a shifted one is `shiftRes` of its code. -/
theorem integerElementsFollowTheirRules : Obligations.IntegerElementsFollowTheirRules := by
  unfold Obligations.IntegerElementsFollowTheirRules
  intro x ca cb cc _ n i j lo hi res
  have hn : 0 < n := bits_pos x.fmt
  refine ⟨fun e he hop => ?_, fun amt hs hb => ?_⟩
  · have hres : res = intRes n x.sat e.2 := elemRes_integer ca cb cc e he hop
    rw [hres]
    exact intRes_spec hn x.sat e.2
  · intro c r
    have hres (h : vKind x.op = .shift) : res = (shiftRes x.op n ca amt, VFlags.none) := elemRes_shift h ca cb cc hs hb
    have hr (op : VOp) (h : x.op = op) (hk : vKind op = .shift) : r = BitVec.ofNat n (shiftRes op n ca amt) := by
      subst h
      exact congrArg (fun p => BitVec.ofNat n p.1) (hres hk)
    refine ⟨fun h => congrArg Prod.snd (hres h), fun h => ?shl, fun h => ?shr, fun h => ?sar, fun h => ?rotl, fun h => ?rotr⟩
    case shl => exact (hr _ h rfl).trans (ofNat_shiftRes_shl n ca amt)
    case shr => exact (hr _ h rfl).trans (ofNat_shiftRes_shr n ca amt)
    case sar => exact (hr _ h rfl).trans ((ofNat_shiftRes_sar hn ca amt).trans (sshiftRight_min c amt))
    case rotl => exact (hr _ h rfl).trans (ofNat_shiftRes_rotl n ca amt)
    case rotr => exact (hr _ h rfl).trans (ofNat_shiftRes_rotr n ca amt)

end Sys2Proof.Proofs
end

section
/-! PROOFS. STEP_MARK (R309). With PWRGD high an edge is one of two actions: it writes TS into the two words of CLK_MARK, or it
advances CLK_MARK_SKIP. What a register reads after either action, and the parts of the state it touches, follow from the laws of
`regSet`. -/

namespace Sys2Proof.Proofs

open Machine Laws

variable {s₀ : State}

/-! ### Counters and pairs of registers -/

theorem regsWf_regSet {p : {s : State // Reach s₀ s}} (h : regsWf keyShared p.val.regs = true) (a v : Nat) :
    regsWf keyShared ((regSet a v : Act s₀ Unit) p).2.val.regs = true := regsWf_put h a (BitVec.ofNat 32 v)

theorem regOf_bump {p : {s : State // Reach s₀ s}} (h : regsWf keyShared p.val.regs = true) (a n i : Nat) :
    regOf ((bump a n : Act s₀ Unit) p).2.val i = if i = a then (regOf p.val a + n) % 2 ^ 32 else regOf p.val i :=
  regOf_regSet h a (regOf p.val a + n) i

/-- A shared register after a write of two; the later write prevails. -/
theorem regOf_regSet_regSet {p : {s : State // Reach s₀ s}} (h : regsWf keyShared p.val.regs = true) (a v b w i : Nat) :
    regOf ((do regSet a v; regSet b w : Act s₀ Unit) p).2.val i
      = if i = b then w % 2 ^ 32 else if i = a then v % 2 ^ 32 else regOf p.val i := by
  rw [act_bind, regOf_regSet (regsWf_regSet h a v), regOf_regSet h]

theorem onlyParts_runAct {ks : List Part} {s : State} {a : Act s Unit} (h : Only ks a) : OnlyParts ks s (runAct s a) :=
  fun k hk => h.same ⟨s, .refl⟩ k hk

/-! ### The two actions of an edge -/

/-- The time of the last edge latched, as CLK_MARK holds it; 0 when there was none. -/
def clkMark (s : State) : Nat := regOf s (CLK + 0x18) + 2 ^ 32 * regOf s (CLK + 0x1C)

/-- A time is latched into CLK_MARK, its low word first. -/
def latchMark (v : Nat) : Act s₀ Unit := do
  regSet (CLK + 0x18) (v % 2 ^ 32)
  regSet (CLK + 0x1C) (v / 2 ^ 32)

theorem only_latchMark (v : Nat) : Only [.regs] (latchMark v : Act s₀ Unit) :=
  only_bind (only_regSet _ _ rfl) fun _ => only_regSet _ _ rfl

variable {s : State}

theorem regOf_latchMark (h : regsWf keyShared s.regs = true) (v i : Nat) :
    regOf (runAct s (latchMark v)) i
      = if i = CLK + 0x1C then v / 2 ^ 32 % 2 ^ 32 else if i = CLK + 0x18 then v % 2 ^ 32 else regOf s i := by
  rw [← Nat.mod_mod v]
  exact regOf_regSet_regSet (p := ⟨s, .refl⟩) h ..

/-- The two words of CLK_MARK hold the whole 64-bit value. -/
theorem clkMark_latchMark (h : regsWf keyShared s.regs = true) {v : Nat} (hv : v < 2 ^ 64) :
    clkMark (runAct s (latchMark v)) = v := by
  rw [clkMark, regOf_latchMark h, regOf_latchMark h, if_neg (by decide), if_pos rfl, if_pos rfl]
  omega

theorem regsBut_latchMark (h : regsWf keyShared s.regs = true) (v : Nat) :
    RegsBut [CLK + 0x18, CLK + 0x1C] s (runAct s (latchMark v)) := by
  intro a ha
  simp only [List.mem_cons, List.not_mem_nil, or_false, not_or] at ha
  obtain ⟨hlo, hhi⟩ := ha
  rw [regOf_latchMark h, if_neg hhi, if_neg hlo]

theorem regOf_runAct_bump (h : regsWf keyShared s.regs = true) (a n : Nat) :
    regOf (runAct s (bump a n)) a = (regOf s a + n) % 2 ^ 32 :=
  (regOf_bump (p := ⟨s, .refl⟩) h a n a).trans (if_pos rfl)

theorem regsBut_bump (h : regsWf keyShared s.regs = true) (a n : Nat) : RegsBut [a] s (runAct s (bump a n)) := fun i hi =>
  (regOf_bump (p := ⟨s, .refl⟩) h a n i).trans (if_neg (List.ne_of_not_mem_cons hi))

/-! ### Which action an edge is -/

theorem exec_stepMark (s : State) :
    exec .stepMark s = .next (runAct s
      (if !s.crown.pwrgd then skip else if clkMark s ≠ 0 ∧ s.ts < clkMark s + 1000 then bump (CLK + 0x28) else latchMark s.ts)) := rfl

/-- No edge has been latched, or the last one is at least 1 µs old. -/
theorem exec_stepMark_latched (hp : s.crown.pwrgd = true) (h : clkMark s = 0 ∨ clkMark s + 1000 ≤ s.ts) :
    exec .stepMark s = .next (runAct s (latchMark s.ts)) := by
  have hnew : ¬ (clkMark s ≠ 0 ∧ s.ts < clkMark s + 1000) := by omega
  rw [exec_stepMark, hp, if_neg (by decide), if_neg hnew]

theorem exec_stepMark_ignored (hp : s.crown.pwrgd = true) (hm : 0 < clkMark s) (h : s.ts < clkMark s + 1000) :
    exec .stepMark s = .next (runAct s (bump (CLK + 0x28))) := by
  rw [exec_stepMark, hp, if_neg (by decide), if_pos ⟨Nat.ne_of_gt hm, h⟩]

/-- Settles O58: the age of the latched edge decides which of the two actions the edge is. -/
theorem stepMarkLatchesTheTime : Obligations.StepMarkLatchesTheTime := by
  unfold Obligations.StepMarkLatchesTheTime
  rintro s hp hts ⟨⟨-, -, -, -, -, hregs, -⟩, -⟩ mark hm
  refine ⟨fun hold => ?latched, fun hyoung => ?ignored⟩
  case latched =>
    exact ⟨_, exec_stepMark_latched hp (.inr hold), clkMark_latchMark hregs hts, regsBut_latchMark hregs s.ts,
      onlyParts_runAct (only_latchMark s.ts)⟩
  case ignored =>
    exact ⟨_, exec_stepMark_ignored hp hm hyoung, regOf_runAct_bump hregs _ 1, regsBut_bump hregs _ 1,
      onlyParts_runAct (only_bump _ 1 rfl)⟩

end Sys2Proof.Proofs
end
